-- ==== Sys2Proof/Word.lean ====
section
/-! DEFINITION. Word.lean: the word types of the GD960 and their plainest arithmetic (R2, R3, R113). -/

namespace Sys2Proof

/-- A byte of memory. -/
abbrev Byte := BitVec 8
/-- A 32-bit register word (R113). -/
abbrev W32 := BitVec 32
/-- A 64-bit value: a register pair, an address, an instruction word (R113, R189). -/
abbrev W64 := BitVec 64

/-- Field [hi:lo] of a value, as an unsigned integer (R2). -/
def bits (x hi lo : Nat) : Nat := (x >>> lo) % 2 ^ (hi + 1 - lo)

/-- Bit n of a value (R2). -/
def bit (x n : Nat) : Bool := x.testBit n

/-- The unsigned value of a little-endian byte string (R3). -/
def leNat : List Byte → Nat
  | [] => 0
  | b :: bs => b.toNat + 256 * leNat bs

/-- The `n` little-endian bytes of a value (R3). -/
def leBytes : Nat → Nat → List Byte
  | 0, _ => []
  | n + 1, x => BitVec.ofNat 8 x :: leBytes n (x / 256)

/-- The pair of words that a 64-bit value occupies, even register first (R113). -/
def lowWord (x : W64) : W32 := x.setWidth 32
def highWord (x : W64) : W32 := (x >>> 32).setWidth 32
/-- The 64-bit value of an even and an odd register (R113). -/
def pairOf (lo hi : W32) : W64 := (hi ++ lo : BitVec 64)

end Sys2Proof
end

