-- ==== Sys2Proof/Syntax.lean ====
section
/-! DEFINITION. Syntax.lean: the steps of the GD960, one constructor of Instr per row of spec/opcode_table.json,
and the types of their fields. -/

namespace Sys2Proof

/-- The special read-only operand codes 0x491 to 0x49F (R29). -/
inductive SpecialValue
  | tid | wid | gtid | gidX | gidY | gidZ | cid | quad | width | ndimX | ndimY | ndimZ | iter | core | lane
deriving DecidableEq, Repr

/-- An operand code of the 11-bit space (R194). -/
inductive Operand
  | v (n : Fin 1024)
  | w (n : Fin 128)
  | q (n : Fin 16)
  | vz
  | sv (x : SpecialValue)
  | p (n : Fin 7)
  /-- inline integer, value n − 256 -/
  | imm (n : Fin 511)
  | lit
deriving DecidableEq, Repr

/-- What every full instruction carries beside its operands (R192, R193, R198): guard, access bit and, in a
literal frame, the literal word. -/
structure Hdr where
  ps : Fin 8
  pn : Bool
  acc : Bool
  lit : Option W64
deriving DecidableEq, Repr

/-- Rounding modes (R114). -/
inductive Mode
  | rne | rtz | rup | rdn | sr
deriving DecidableEq, Repr

/-- Element formats (R104); the code is the constructor's place. -/
inductive Fmt
  | fp32 | bf16 | fp16 | e4m3 | e5m2 | mxe4m3 | mxe5m2 | e3m2 | e2m3 | e2m1 | int8 | mxt2 | s1b | t5b | fp64
deriving DecidableEq, Repr

/-- Memory orders (R163). -/
inductive Order
  | weak | rlx | acq | rel | ar | sc
deriving DecidableEq, Repr

/-- Scopes (R164). -/
inductive Scope
  | thr | wrp | grp | clu | dev | sys
deriving DecidableEq, Repr

/-- Comparison conditions; `un` only in FCMP and DCMP (R230, R234). -/
inductive Cond
  | eq | ne | lt | le | gt | ge | un
deriving DecidableEq, Repr

/-- CVT type codes (R242). -/
inductive CvtType
  | f32 | bf16 | f16 | f64 | s32 | n32 | s64 | n64 | s16 | n16 | s8 | n8
deriving DecidableEq, Repr

/-- Access types of LD and ST (R263). -/
inductive MemType
  | b8 | s8 | b16 | s16 | b32 | b64 | b128
deriving DecidableEq, Repr

/-- Operations of ATOM (R269). -/
inductive AtomOp
  | add | add64 | minS | minN | maxS | maxN | minS64 | minN64 | maxS64 | maxN64
  | and | or | xor | and64 | or64 | xor64 | exch | exch64 | faddF32 | faddBf16x2 | faddF16x2
deriving DecidableEq, Repr

/-- Vote modes (R254). -/
inductive VoteMode
  | any | all | ballot | eq
deriving DecidableEq, Repr

/-- Types of WSUM and WSCAN (R255, R257). -/
inductive SumType
  | f32 | f64 | i32 | i64
deriving DecidableEq, Repr

/-- Types of WMAX (R256). -/
inductive MaxType
  | f32 | f64 | s32 | n32 | s64 | n64
deriving DecidableEq, Repr

/-- Kinds of PREF (R266). -/
inductive PrefKind
  | l0 | llc | sec
deriving DecidableEq, Repr

/-- Stored formats of TLD and TST (R292). -/
inductive TileFmt
  | f32 | bf16 | f16 | raw
deriving DecidableEq, Repr

/-- Convergence field (R40): cv0 to cv15, or cvw as 16. -/
abbrev CvField := Fin 17

/-! ### Operand shapes of full instructions -/

structure Op0 where
  h : Hdr
deriving DecidableEq, Repr
structure OpA where
  h : Hdr
  a : Operand
deriving DecidableEq, Repr
structure OpD where
  h : Hdr
  d : Operand
deriving DecidableEq, Repr
structure OpDA where
  h : Hdr
  d : Operand
  a : Operand
deriving DecidableEq, Repr
structure OpAB where
  h : Hdr
  a : Operand
  b : Operand
deriving DecidableEq, Repr
structure OpDAB where
  h : Hdr
  d : Operand
  a : Operand
  b : Operand
deriving DecidableEq, Repr

/-- SKIP n with n = count + 1 (R226). -/
structure SkipOps where
  h : Hdr
  n : Fin 8
deriving DecidableEq, Repr
structure SignOps where
  h : Hdr
  d : Operand
  cv : CvField
deriving DecidableEq, Repr
structure CvsetOps where
  h : Hdr
  a : Operand
  b : Operand
  cv : Fin 16
deriving DecidableEq, Repr

/-- Integer instructions: operands not used by the instruction are vz; the flags are M[4], M[3], M[0] (R230). -/
structure IntOps where
  h : Hdr
  d : Operand
  a : Operand
  b : Operand
  c : Operand
  w64 : Bool
  sat : Bool
  sgn : Bool
deriving DecidableEq, Repr
structure IcmpOps where
  h : Hdr
  d : Operand
  a : Operand
  b : Operand
  cond : Cond
  w64 : Bool
  sgn : Bool
deriving DecidableEq, Repr
structure LeaOps where
  h : Hdr
  d : Operand
  a : Operand
  b : Operand
  k : Fin 8
  sgn : Bool
deriving DecidableEq, Repr

/-- FP32 and FP64 arithmetic (R234); C is vz unless the instruction is an FMA. -/
structure FloatOps where
  h : Hdr
  d : Operand
  a : Operand
  b : Operand
  c : Operand
  sat : Bool
  mode : Mode
deriving DecidableEq, Repr
structure FMinMaxOps where
  h : Hdr
  d : Operand
  a : Operand
  b : Operand
  num : Bool
deriving DecidableEq, Repr
structure FcmpOps where
  h : Hdr
  d : Operand
  a : Operand
  b : Operand
  cond : Cond
deriving DecidableEq, Repr
structure FrndOps where
  h : Hdr
  d : Operand
  a : Operand
  mode : Mode
deriving DecidableEq, Repr
/-- Packed 16-bit arithmetic (R239); `f16` is M[4]. -/
structure HalfOps where
  h : Hdr
  d : Operand
  a : Operand
  b : Operand
  c : Operand
  f16 : Bool
  sat : Bool
  mode : Mode
deriving DecidableEq, Repr
structure HMinMaxOps where
  h : Hdr
  d : Operand
  a : Operand
  b : Operand
  f16 : Bool
  num : Bool
deriving DecidableEq, Repr
structure HcmpOps where
  h : Hdr
  d : Operand
  a : Operand
  b : Operand
  f16 : Bool
  cond : Cond
deriving DecidableEq, Repr

/-- Pair opcodes (R202). -/
inductive HalfOp
  | nop | mov | iadd | isub | imul | imin | imax | and | or | xor | shl | shr | sar
  | fadd | fsub | fmul | fmin | fmax | hadd2 | hmul2 | hmin2 | hmax2
  | exp2 | log2 | rcp | rsq | sqrt | tanh
deriving DecidableEq, Repr
/-- One half of a pair word (R199). -/
structure Half where
  op : HalfOp
  d : Fin 1024
  s : Fin 1024
  m3 : Fin 8
deriving DecidableEq, Repr
structure PairOps where
  acc : Bool
  hi : Half
  lo : Half
deriving DecidableEq, Repr

structure CvtOps where
  h : Hdr
  d : Operand
  a : Operand
  b : Operand
  dst : CvtType
  src : CvtType
  sat : Bool
  mode : Mode
deriving DecidableEq, Repr
/-- CVT.F8, CVT.F6, CVT.F4 (R241); `alt` is M[4]. -/
structure CvtNarrowOps where
  h : Hdr
  d : Operand
  a : Operand
  b : Operand
  c : Operand
  alt : Bool
  sat : Bool
  mode : Mode
deriving DecidableEq, Repr
/-- MXQ, MXD, UNPK (R241); fields that an instruction does not use hold their default. -/
structure GroupOps where
  h : Hdr
  d : Operand
  a : Operand
  b : Operand
  fmt : Fmt
  sat : Bool
  mode : Mode
deriving DecidableEq, Repr
structure PackOps where
  h : Hdr
  d : Operand
  a : Operand
  b : Operand
  f16 : Bool
  sat : Bool
  mode : Mode
deriving DecidableEq, Repr

structure QxOps where
  h : Hdr
  d : Operand
  a : Operand
  b : Operand
  cv : CvField
  xor : Bool
deriving DecidableEq, Repr
structure PermOps where
  h : Hdr
  d : Operand
  a : Operand
  b : Operand
  cv : CvField
deriving DecidableEq, Repr
structure VoteOps where
  h : Hdr
  d : Operand
  a : Operand
  cv : CvField
  mode : VoteMode
deriving DecidableEq, Repr
/-- WSUM and WSCAN; `excl` only in WSCAN (R255, R257). -/
structure SumOps where
  h : Hdr
  d : Operand
  a : Operand
  cv : CvField
  ty : SumType
  excl : Bool
  sat : Bool
  mode : Mode
deriving DecidableEq, Repr
structure MaxOps where
  h : Hdr
  d : Operand
  a : Operand
  cv : CvField
  ty : MaxType
  min : Bool
deriving DecidableEq, Repr

/-- LD and ST (R258, R263); in ST the D field is a source. -/
structure MemOps where
  h : Hdr
  d : Operand
  a : Operand
  b : Operand
  ty : MemType
  order : Order
  scope : Scope
deriving DecidableEq, Repr
structure PrefOps where
  h : Hdr
  a : Operand
  b : Operand
  kind : PrefKind
deriving DecidableEq, Repr
structure FenceOps where
  h : Hdr
  order : Order
  scope : Scope
deriving DecidableEq, Repr
structure AtomOps where
  h : Hdr
  d : Operand
  a : Operand
  b : Operand
  op : AtomOp
  order : Order
  scope : Scope
deriving DecidableEq, Repr
structure CasOps where
  h : Hdr
  d : Operand
  a : Operand
  b : Operand
  order : Order
  scope : Scope
deriving DecidableEq, Repr
/-- CTR.INIT (R272): producer class code and release scope code are the fields as they stand. -/
structure CtrInitOps where
  h : Hdr
  a : Operand
  b : Operand
  scratch : Bool
  scope : Scope
  pclass : Fin 16
  rscope : Fin 8
  order : Order
deriving DecidableEq, Repr
structure CtrOps where
  h : Hdr
  d : Operand
  a : Operand
  b : Operand
  scratch : Bool
  scope : Scope
  order : Order
deriving DecidableEq, Repr
structure QcfgOps where
  h : Hdr
  a : Operand
  b : Operand
  port : Fin 8
deriving DecidableEq, Repr
structure CopyOps where
  h : Hdr
  a : Operand
  b : Operand
  c : Operand
  csp : Bool
  sat : Bool
  mode : Mode
deriving DecidableEq, Repr

structure TcfgOps where
  h : Hdr
  a : Operand
  tile : Fin 64
deriving DecidableEq, Repr
structure TileOps where
  h : Hdr
  tile : Fin 64
deriving DecidableEq, Repr
/-- MMA and MMD (R292); `bReg` is clear in MMD. -/
structure MmaOps where
  h : Hdr
  d : Operand
  a : Operand
  b : Operand
  tile : Fin 64
  cv : CvField
  csp : Bool
  aScr : Bool
  bScr : Bool
deriving DecidableEq, Repr
/-- TWRR and TWRC. -/
structure TileWriteOps where
  h : Hdr
  a : Operand
  b : Operand
  tile : Fin 64
  cv : CvField
  raw : Bool
  mode : Mode
deriving DecidableEq, Repr
/-- TRDR and TRDC. -/
structure TileReadOps where
  h : Hdr
  d : Operand
  a : Operand
  tile : Fin 64
  cv : CvField
  raw : Bool
  sat : Bool
  mode : Mode
deriving DecidableEq, Repr
/-- TLD and TST; `sat` only in TST. -/
structure TileMoveOps where
  h : Hdr
  d : Operand
  a : Operand
  tile : Fin 64
  fmt : TileFmt
  csp : Bool
  sat : Bool
  mode : Mode
deriving DecidableEq, Repr
structure TepiOps where
  h : Hdr
  d : Operand
  a : Operand
  b : Operand
  tile : Fin 64
  sat : Bool
  mode : Mode
deriving DecidableEq, Repr
structure SeedSOps where
  h : Hdr
  b : Operand
deriving DecidableEq, Repr
structure AdamwOps where
  h : Hdr
  d : Operand
  a : Operand
  b : Operand
  bf16 : Bool
  sr : Bool
deriving DecidableEq, Repr
structure KendOps where
  h : Hdr
  d : Operand
  csp : Bool
deriving DecidableEq, Repr

structure KindleOps where
  h : Hdr
  a : Operand
  b : Operand
  region : Bool
deriving DecidableEq, Repr
structure SvcOps where
  h : Hdr
  d : Operand
  a : Operand
  b : Operand
  fn : Fin 64
  cv : CvField
deriving DecidableEq, Repr
structure SrdOps where
  h : Hdr
  d : Operand
  sreg : BitVec 12
deriving DecidableEq, Repr
structure SwrOps where
  h : Hdr
  sreg : BitVec 12
  a : Operand
deriving DecidableEq, Repr
structure BkptOps where
  h : Hdr
  n : BitVec 8
deriving DecidableEq, Repr

/-! ### ZF words (R373) -/

structure ZfImm where
  d : Fin 32
  a : Fin 32
  imm : BitVec 16
deriving DecidableEq, Repr
structure ZfRegs where
  d : Fin 32
  a : Fin 32
  b : Fin 32
deriving DecidableEq, Repr
/-- Transfers (R375): `wf` wire format, `wbk` block code, flags SR, LF, OWN or FIN, ACC. -/
structure ZfTransfer where
  d : Fin 32
  a : Fin 32
  b : Fin 32
  wf : Fin 4
  wbk : Fin 4
  sr : Bool
  lf : Bool
  ownFin : Bool
  acc : Bool
deriving DecidableEq, Repr
structure ZfWait where
  a : Fin 32
  b : Fin 32
  scope : Fin 8
deriving DecidableEq, Repr
structure ZfAdv where
  a : Fin 32
  b : Fin 32
  rel : Bool
  scope : Fin 8
deriving DecidableEq, Repr
structure ZfRmt where
  d : Fin 32
  a : Fin 32
  b : Fin 32
  rel : Bool
deriving DecidableEq, Repr
structure ZfFold where
  a : Fin 32
  b : Fin 32
  lbf16 : Bool
deriving DecidableEq, Repr

/-! ### Akoon commands (R382) -/

/-- What every command carries beside its code (R382). -/
structure AkHdr where
  ctx : Nat
  tag : W32
deriving DecidableEq, Repr
structure AkBytes where
  h : AkHdr
  addr : W64
  bytes : List Byte
deriving DecidableEq, Repr
structure AkRead where
  h : AkHdr
  addr : W64
  len : Nat
deriving DecidableEq, Repr
structure AkCtr where
  h : AkHdr
  addr : W64
  v : W64
deriving DecidableEq, Repr
structure AkCtxNew where
  h : AkHdr
  super : Bool
  ptroot : W64
  jobId : BitVec 24
  peerBase : W64
  npeer : Nat
  embBase : W64
  nemb : Nat
deriving DecidableEq, Repr
structure AkRoot where
  h : AkHdr
  addr : W64
deriving DecidableEq, Repr
structure AkSeq where
  h : AkHdr
  seq : Nat
  entry : W64
  block : List Byte
deriving DecidableEq, Repr
structure AkPort where
  h : AkHdr
  port : Nat
  record : List Byte
deriving DecidableEq, Repr
structure AkKey where
  h : AkHdr
  port : Nat
  slot : Nat
  sak : BitVec 256
  salt : BitVec 96
  ssci : W32
  nextPn : W64
  switch : Bool
deriving DecidableEq, Repr
structure AkSnap where
  h : AkHdr
  cls : Nat
  block : Nat
  spark : W32
deriving DecidableEq, Repr
structure AkVal where
  h : AkHdr
  value : Nat
deriving DecidableEq, Repr

/-! ### Device events -/

/-- A path of a warp of a group: the group's key, the warp's index, the path's place in the path table. -/
structure PathRef where
  g : Nat
  w : Nat
  p : Nat
deriving DecidableEq, Repr
/-- A generation: group key and convergence field, with the warp that cvw belongs to. -/
structure GenRef where
  g : Nat
  cv : CvField
  w : Nat
deriving DecidableEq, Repr

/-- Kinds of transport packets (R345, R353, R500). -/
inductive PacketKind
  | put | getReq | getReply | advance | ack | nack
deriving DecidableEq, Repr
/-- A packet of the transport (R345, R353, R498, R500): the device that sends it, its packet delivery context and number, and
what it asks. `dstIp` and `srcIp` are the addresses of the port it is for and of the port that sent it (R343, R346); `peer` is the sender's peer index; `poison` lists the bytes that carry a tag; `op` is the remote operation, or
the kind of a negative acknowledgement. -/
structure Packet where
  kind : PacketKind
  dstIp : BitVec 128
  srcIp : BitVec 128
  jobId : BitVec 24
  src : Nat
  pdc : Nat
  peer : Nat
  psn : W32
  addr : W64
  bytes : List Byte
  poison : List Nat
  len : Nat
  value : W64
  rel : Bool
  rod : Bool
  addrPoison : Bool
  op : Nat
deriving DecidableEq, Repr
/-- A frame as the receiver's retry logic sees it (R350, R493, R494): its link sequence number, association number,
whether MACsec verifies it, its flow class and length, and its packet. -/
structure Frame where
  lsn : W32
  an : Fin 4
  pn : W64
  authentic : Bool
  control : Bool
  len : Nat
  packet : Packet
deriving DecidableEq, Repr

/-- One step of the GD960, a constructor per row of spec/opcode_table.json. -/
inductive Instr
  -- control (R222)
  | nop (x : Op0) | bra (x : OpA) | brx (x : OpA) | brq (x : OpA) | call (x : OpDA) | ret (x : OpA)
  | skip (x : SkipOps) | exit (x : Op0) | yield (x : Op0) | sign (x : SignOps) | cvset (x : CvsetOps) | prio (x : OpA)
  -- integer and address (R230)
  | mov (x : IntOps) | sel (x : IntOps) | iadd (x : IntOps) | isub (x : IntOps) | imul (x : IntOps) | imulh (x : IntOps)
  | imad (x : IntOps) | imin (x : IntOps) | imax (x : IntOps) | iabs (x : IntOps) | and (x : IntOps) | or (x : IntOps)
  | xor (x : IntOps) | shl (x : IntOps) | shr (x : IntOps) | sar (x : IntOps) | popc (x : IntOps) | clz (x : IntOps)
  | brev (x : IntOps) | bfe (x : IntOps) | bfi (x : IntOps) | icmp (x : IcmpOps) | lea (x : LeaOps)
  -- floating point (R234, R239, R240)
  | fadd (x : FloatOps) | fsub (x : FloatOps) | fmul (x : FloatOps) | fma (x : FloatOps) | fmin (x : FMinMaxOps)
  | fmax (x : FMinMaxOps) | fcmp (x : FcmpOps) | frnd (x : FrndOps) | dadd (x : FloatOps) | dsub (x : FloatOps)
  | dmul (x : FloatOps) | dfma (x : FloatOps) | dmin (x : FMinMaxOps) | dmax (x : FMinMaxOps) | dcmp (x : FcmpOps)
  | hadd2 (x : HalfOps) | hsub2 (x : HalfOps) | hmul2 (x : HalfOps) | hfma2 (x : HalfOps) | hmin2 (x : HMinMaxOps)
  | hmax2 (x : HMinMaxOps) | hcmp2 (x : HcmpOps)
  | exp2 (x : OpDA) | log2 (x : OpDA) | rcp (x : OpDA) | rsq (x : OpDA) | sqrt (x : OpDA) | tanh (x : OpDA)
  | pair (x : PairOps)
  -- conversions and quantisation (R241)
  | cvt (x : CvtOps) | cvtF8 (x : CvtNarrowOps) | cvtF6 (x : CvtNarrowOps) | cvtF4 (x : CvtNarrowOps)
  | mxqScale (x : GroupOps) | mxq (x : GroupOps) | mxd (x : GroupOps) | unpk (x : GroupOps) | pack (x : PackOps)
  -- cross-thread (R250)
  | qx (x : QxOps) | perm (x : PermOps) | ptld (x : OpA) | vote (x : VoteOps) | wsum (x : SumOps) | wmax (x : MaxOps)
  | wscan (x : SumOps)
  -- memory, atomics, counters, queues, copies (R258)
  | ldG (x : MemOps) | ldS (x : MemOps) | stG (x : MemOps) | stS (x : MemOps) | pref (x : PrefOps)
  | llcLock (x : OpDAB) | llcUnlock (x : OpDAB) | llcUnlockAll (x : OpD) | fence (x : FenceOps)
  | atomG (x : AtomOps) | atomS (x : AtomOps) | atomCasG (x : CasOps) | atomCasS (x : CasOps)
  | atomCas64G (x : CasOps) | atomCas64S (x : CasOps)
  | ctrInit (x : CtrInitOps) | ctrAdd (x : CtrOps) | ctrMax (x : CtrOps) | ctrWait (x : CtrOps) | ctrRd (x : CtrOps)
  | qcfg (x : QcfgOps) | copyLd (x : CopyOps) | copySt (x : CopyOps) | copyCp (x : CopyOps)
  -- matrix, optimiser and kiln (R292)
  | tcfg (x : TcfgOps) | tcfgFree (x : TileOps) | tzero (x : TileOps) | mma (x : MmaOps) | mmd (x : MmaOps)
  | twrr (x : TileWriteOps) | twrc (x : TileWriteOps) | trdr (x : TileReadOps) | trdc (x : TileReadOps)
  | tld (x : TileMoveOps) | tst (x : TileMoveOps) | tepi (x : TepiOps) | seed (x : OpAB) | seedS (x : SeedSOps)
  | adamw (x : AdamwOps) | kstep (x : OpAB) | ksig (x : OpAB) | ktest (x : OpDA) | kreuse (x : OpDA)
  | kmap (x : OpDAB) | kmapSrc (x : OpDAB) | kend (x : KendOps)
  -- task, launch and system (R322)
  | launch (x : OpDA) | taskRange (x : OpDA) | taskNext (x : OpD) | taskGet (x : OpD) | taskDone (x : Op0)
  | kindle (x : KindleOps) | svc (x : SvcOps) | svcWait (x : OpDA) | trap (x : OpA) | eret (x : Op0) | bkpt (x : BkptOps)
  | srd (x : SrdOps) | swr (x : SwrOps) | preempt (x : OpA) | preemptRes (x : OpA) | spark (x : OpA) | watch (x : OpAB)
  -- SWR of a register with an operation of its own (R153, R330, R333, R464, R502, R337)
  | tlbinvPage (x : SwrOps) | tlbinvContext (x : SwrOps) | tlbinvAll (x : SwrOps) | tlbinvComplete (id : Nat)
  | svcqRingReset (x : SwrOps) | svcdoneReply (x : SwrOps) | spillReplay (x : SwrOps) | spillAbort (x : SwrOps)
  | sequencerResume (x : SwrOps) | sequencerAbort (x : SwrOps) | wpsClear (x : SwrOps)
  -- ZF (R373)
  | movi (x : ZfImm) | addi (x : ZfImm) | zfAdd (x : ZfRegs) | zfSub (x : ZfRegs) | beq (x : ZfImm) | bne (x : ZfImm)
  | zfBra (imm : BitVec 16) | xsend (x : ZfTransfer) | xrecv (x : ZfTransfer) | xred (x : ZfTransfer) | xfwd (x : ZfTransfer)
  | cwait (x : ZfWait) | cadv (x : ZfAdv) | cadvRmt (x : ZfRmt) | cadd (x : ZfAdv) | embBind (x : ZfRegs)
  | embFold (x : ZfFold)
  -- Akoon commands (R382)
  | image (x : AkBytes) | memwr (x : AkBytes) | memrd (x : AkRead) | ctrmax (x : AkCtr) | ctxnew (x : AkCtxNew)
  | rootgo (x : AkRoot) | seqgo (x : AkSeq) | portcfg (x : AkPort) | keyload (x : AkKey) | snaprd (x : AkSnap)
  | akoonSpark (x : AkVal) | power (x : AkVal) | resetDevice (h : AkHdr) | resetContext (x : AkVal)
  | akoonUnknownCommand (h : AkHdr) (code : Nat)
  -- device events
  | launchAdmission (ctx launch : Nat) | generationIssue (r : GenRef) | pathDue (r : PathRef)
  | counterWaitComplete (r : PathRef) | queueWaitComplete (r : PathRef) | serviceReplyComplete (r : PathRef)
  | serviceSlotFree (r : GenRef) | starvationExpiry (r : PathRef) | kindlingDispatch (core slot : Nat)
  | workerAdmission (core slot : Nat) | contextSave (ctx : Nat) | contextResume (ctx : Nat)
  | loadValueReturn (op : Nat) | pageWalkComplete (walk : Nat) | llcRequestServe (sector : Nat)
  | orientationTurnComplete (sector : Nat) | sectorEviction (sector : Nat) | class3Aging (sector req : Nat)
  | hostFillComplete (fill : Nat) (answer : Option (List Byte)) | hostFillTimeout (fill : Nat) | wbStallRetry (id : Nat)
  | ownershipRecallComplete (cmd line : Nat) | ownershipWindow (cmd : Nat) | copyCommandAccept (r : PathRef)
  | copyComplete (cmd : Nat) | matrixOpComplete (g slot : Nat) | tileTransferComplete (g slot : Nat)
  | governorWindow (core : Nat) | dieBudgetWindow (die : Nat) | kilnOperation (die : Nat) | kendComplete (die : Nat)
  | frameSend (port : Nat) | frameReceive (port : Nat) (f : Frame) | linkAckSend (port : Nat)
  | linkAckReceive (port : Nat) (n : W32) | linkNackReceive (port : Nat) (n : W32) | retryTimeout (port : Nat)
  | replayDone (port : Nat) | keyRollover (port : Nat) | keyloadApply (port : Nat) | portMode0Drain (port : Nat)
  | laneLockLoss (port : Nat) (lanes : BitVec 4) | retrainComplete (port : Nat) | retrainTimeout (port : Nat)
  | putPacketReceive (i : Nat) | getRequestReceive (i : Nat) | getReplyReceive (i : Nat) | remoteAdvanceReceive (i : Nat)
  | transportAckReceive (pdc : Nat) (psn : W32) | transportNackReceive (pdc : Nat) (psn : W32) (kind : Nat)
  | transportResendTimeout (pdc : Nat) (psn : W32) | remoteAdvanceSend (id : Nat) | cwaitComplete (seq : Nat)
  | sequencerWaitExpiry (seq : Nat)
  | notAnInstruction (cond : Fin 16) | fetchFault (detail : Nat) (addr : W64) | zfOpcodeNotAllocated (word : W32)
  | hostWriteTimeout (write : Nat)
  -- events that only an agenda names
  | hostWriteAnswer (write : Nat) (ok : Bool) | creditGrant (port : Nat) (control : Bool) (units : Nat)
  | coreControlError (core : Nat) (unit : Fin 16) | tileControlError (core : Nat) (unit : Fin 4) (table : Bool)
  -- steps without operands
  | zfDone | powerUp | zfWordNotFetched
deriving DecidableEq, Repr

end Sys2Proof
end

