-- ==== Sys2Proof/WellFormed.lean ====
section
/-! DEFINITION. WellFormed.lean: which terms of Instr the encodings of the spec admit (R193, R194, R196, R201, R204). -/

namespace Sys2Proof

/-- A guard that has a meaning (R193). -/
def Hdr.ok (h : Hdr) : Bool := !(h.ps = 7 && h.pn)

/-- A source: the literal stands only in a literal frame (R204). -/
def Operand.srcOk (h : Hdr) (o : Operand) : Bool := !(o = .lit) || h.lit.isSome

/-- A source in the D field, where the literal never stands (R204, R258). -/
def Operand.dSrcOk (o : Operand) : Bool := !(o = .lit)

/-- A code that the table of R194 marks as writable. -/
def Operand.dstOk : Operand → Bool
  | .v _ | .w _ | .q _ | .vz | .p _ => true
  | .sv _ | .imm _ | .lit => false

/-- A register group of `n` vector registers that does not pass v1023 (R245). -/
def Operand.groupOk (n : Nat) : Operand → Bool
  | .v k => k.val + n ≤ 1024
  | _ => false

/-- A .b128 or CAS64 code: a v or w code that is a multiple of 4, a queue port or vz (R263, R271). -/
def Operand.quadOk : Operand → Bool
  | .v k => k.val % 4 = 0
  | .w k => k.val % 4 = 0
  | .q _ | .vz => true
  | _ => false

def Operand.isImm : Operand → Bool
  | .imm _ => true
  | _ => false

/-- A scratchpad operand is an even w code (R297). -/
def Operand.evenW : Operand → Bool
  | .w k => k.val % 2 = 0
  | _ => false

def Operand.isV : Operand → Bool
  | .v _ => true
  | _ => false

/-- Codes that no uniform position takes (R26, R430 kind 5). -/
def Operand.uniform : Operand → Bool
  | .w _ | .vz | .imm _ | .lit => true
  | .sv x => !(x = .tid || x = .gtid || x = .quad || x = .iter)
  | .v _ | .q _ | .p _ => false

/-- The scratchpad operand of TLD, TST and KSIG: an even w code; a code that is not uniform is an illegal use of
class 0x11 and not a form of the word (R292, R297, R430; log 10). -/
def Operand.scratchOk (o : Operand) : Bool := o.evenW || !o.uniform

/-- The width in bits of an element of a format (R104, R106). -/
def Fmt.width : Fmt → Nat
  | .fp32 => 32
  | .bf16 | .fp16 => 16
  | .e4m3 | .e5m2 | .mxe4m3 | .mxe5m2 | .int8 => 8
  | .e3m2 | .e2m3 => 6
  | .e2m1 => 4
  | .mxt2 => 2
  | .s1b => 1
  | .t5b => 2
  | .fp64 => 64

/-- The MX format codes 5 to 9 and 11 (R247, R282). -/
def Fmt.isMx : Fmt → Bool
  | .mxe4m3 | .mxe5m2 | .e3m2 | .e2m3 | .e2m1 | .mxt2 => true
  | _ => false

/-- The format codes 1 to 11 that UNPK takes (R246). -/
def Fmt.unpkOk : Fmt → Bool
  | .fp32 | .s1b | .t5b | .fp64 => false
  | _ => true

/-- Registers that a group of 16 elements takes (R245). -/
def Fmt.groupRegs (f : Fmt) : Nat := 16 * f.width / 32

def CvtType.isFloat : CvtType → Bool
  | .f32 | .bf16 | .f16 | .f64 => true
  | _ => false

def Cond.intOk : Cond → Bool
  | .un => false
  | _ => true

def Mode.noSr : Mode → Bool
  | .sr => false
  | _ => true

/-- Orders of LD (R258), ST, the atomics and FENCE. -/
def Order.ldOk : Order → Bool
  | .weak | .rlx | .acq => true
  | _ => false
def Order.stOk : Order → Bool
  | .weak | .rlx | .rel => true
  | _ => false
def Order.rmwOk : Order → Bool
  | .rlx | .acq | .rel | .ar => true
  | _ => false
def Order.fenceOk : Order → Bool
  | .acq | .rel | .ar | .sc => true
  | _ => false
def Order.initOk : Order → Bool
  | .rlx | .rel => true
  | _ => false
def Order.waitOk : Order → Bool
  | .rlx | .acq => true
  | _ => false

def IntOps.ok (x : IntOps) (useB useC w64 sat sgn : Bool) : Bool :=
  x.h.ok && x.d.dstOk && x.a.srcOk x.h
    && (if useB then x.b.srcOk x.h else decide (x.b = .vz)) && (if useC then x.c.srcOk x.h else decide (x.c = .vz))
    && (w64 || !x.w64) && (sat || !x.sat) && (sgn || !x.sgn)

def FloatOps.ok (x : FloatOps) (useC : Bool) : Bool :=
  x.h.ok && x.d.dstOk && x.a.srcOk x.h && x.b.srcOk x.h && (if useC then x.c.srcOk x.h else decide (x.c = .vz)) && x.mode.noSr

def HalfOps.ok (x : HalfOps) (useC : Bool) : Bool :=
  x.h.ok && x.d.dstOk && x.a.srcOk x.h && x.b.srcOk x.h && (if useC then x.c.srcOk x.h else decide (x.c = .vz)) && x.mode.noSr

def FMinMaxOps.ok (x : FMinMaxOps) : Bool := x.h.ok && x.d.dstOk && x.a.srcOk x.h && x.b.srcOk x.h
def HMinMaxOps.ok (x : HMinMaxOps) : Bool := x.h.ok && x.d.dstOk && x.a.srcOk x.h && x.b.srcOk x.h
def FcmpOps.ok (x : FcmpOps) : Bool := x.h.ok && x.d.dstOk && x.a.srcOk x.h && x.b.srcOk x.h
def HcmpOps.ok (x : HcmpOps) : Bool := x.h.ok && x.d.dstOk && x.a.srcOk x.h && x.b.srcOk x.h
def Op0.ok (x : Op0) : Bool := x.h.ok
def OpA.ok (x : OpA) : Bool := x.h.ok && x.a.srcOk x.h
def OpD.ok (x : OpD) : Bool := x.h.ok && x.d.dstOk
def OpDA.ok (x : OpDA) : Bool := x.h.ok && x.d.dstOk && x.a.srcOk x.h
def OpAB.ok (x : OpAB) : Bool := x.h.ok && x.a.srcOk x.h && x.b.srcOk x.h
def OpDAB.ok (x : OpDAB) : Bool := x.h.ok && x.d.dstOk && x.a.srcOk x.h && x.b.srcOk x.h

/-- The D of KTEST: a predicate or a register, or a discarded result (R292). -/
def ktestDOk : Operand → Bool
  | .q _ => false
  | _ => true

/-- The D of KREUSE and of KMAP: a pair, or a discarded result (R195, R292). -/
def pairDOk : Operand → Bool
  | .p _ => false
  | _ => true

/-- CALL takes an even vector code or vz as D (R222). -/
def callDOk : Operand → Bool
  | .v k => k.val % 2 = 0
  | .vz => true
  | _ => false

/-- What a pair half's M[2:0] may hold (R200, R202): the sign bit, a rounding mode, .num, or nothing. -/
inductive HalfMod
  | none | sgn | mode | num
deriving DecidableEq, Repr

def HalfOp.mod : HalfOp → HalfMod
  | .iadd | .isub | .imul | .imin | .imax => .sgn
  | .fadd | .fsub | .fmul | .hadd2 | .hmul2 => .mode
  | .fmin | .fmax | .hmin2 | .hmax2 => .num
  | _ => .none

/-- One-source halves read S alone (R200, R202). -/
def HalfOp.oneSource : HalfOp → Bool
  | .mov | .exp2 | .log2 | .rcp | .rsq | .sqrt | .tanh => true
  | _ => false

/-- M[2:0] bits that the full form defines, and values it allocates. -/
def Half.bitsOk (x : Half) : Bool :=
  match x.op.mod with
  | .none => x.m3 = 0
  | .sgn | .num => decide (x.m3.val ≤ 1)
  | .mode => true
def Half.subOk (x : Half) : Bool :=
  match x.op.mod with
  | .mode => x.m3.val ≤ 3
  | _ => true
def Half.nopOk (x : Half) : Bool := !(x.op = .nop) || (x.d = 0 && x.s = 0 && x.m3 = 0)
/-- A half reads `n` (R200, R201); NOP takes no part. -/
def Half.reads (x : Half) (n : Fin 1024) : Bool := x.s = n || (!x.op.oneSource && x.d = n)

/-- R201 for two halves that both act: different banks, and neither reads the other's D. -/
def pairRule (lo hi : Half) : Bool :=
  if lo.op = .nop || hi.op = .nop then true
  else !(decide (lo.d.val % 4 = hi.d.val % 4)) && !(lo.reads hi.d) && !(hi.reads lo.d)

def PairOps.ok (x : PairOps) : Bool :=
  x.lo.bitsOk && x.hi.bitsOk && x.lo.nopOk && x.hi.nopOk && x.lo.subOk && x.hi.subOk && pairRule x.lo x.hi

def CvtOps.ok (x : CvtOps) : Bool :=
  x.h.ok && x.d.dstOk && x.a.srcOk x.h && x.b.srcOk x.h && (x.dst.isFloat || x.mode.noSr)
def CvtNarrowOps.ok (x : CvtNarrowOps) : Bool :=
  x.h.ok && x.d.dstOk && x.a.srcOk x.h && x.b.srcOk x.h && x.c.srcOk x.h
def GroupOps.mxqScaleOk (x : GroupOps) : Bool :=
  x.h.ok && x.d.dstOk && x.a.srcOk x.h && decide (x.b = .vz) && x.fmt.isMx
def GroupOps.mxqOk (x : GroupOps) : Bool :=
  x.h.ok && x.d.groupOk x.fmt.groupRegs && x.a.groupOk 16 && x.b.srcOk x.h && x.fmt.isMx
def GroupOps.mxdOk (x : GroupOps) : Bool :=
  x.h.ok && x.d.dstOk && x.a.groupOk x.fmt.groupRegs && x.b.srcOk x.h && x.fmt.isMx && x.mode.noSr
def GroupOps.unpkOk (x : GroupOps) : Bool :=
  x.h.ok && x.d.dstOk && x.a.groupOk x.fmt.groupRegs && x.b.srcOk x.h && x.fmt.unpkOk && !x.sat && decide (x.mode = .rne)
def PackOps.ok (x : PackOps) : Bool := x.h.ok && x.d.dstOk && x.a.srcOk x.h && x.b.srcOk x.h && x.mode.noSr

def SumType.isFloat : SumType → Bool
  | .f32 | .f64 => true
  | _ => false
def SumOps.ok (x : SumOps) (scan : Bool) : Bool :=
  x.h.ok && x.d.dstOk && x.a.srcOk x.h && x.mode.noSr && (scan || !x.excl)
    && (x.ty.isFloat || (!x.sat && decide (x.mode = .rne)))

/-- Weak accesses hold scope 0; a strong .b128 access is not a form (R263). -/
def MemOps.formOk (x : MemOps) : Bool :=
  (!(x.order = .weak) || decide (x.scope = .thr)) && (!(x.ty = .b128) || decide (x.order = .weak))
def MemOps.ldOk (x : MemOps) : Bool :=
  x.h.ok && x.d.dstOk && x.a.srcOk x.h && x.b.srcOk x.h && x.order.ldOk && x.formOk && (!(x.ty = .b128) || x.d.quadOk)
def MemOps.stOk (x : MemOps) : Bool :=
  x.h.ok && x.d.dSrcOk && x.a.srcOk x.h && x.b.srcOk x.h && x.order.stOk && x.formOk
    && !(x.ty = .s8) && !(x.ty = .s16) && (!(x.ty = .b128) || x.d.quadOk || x.d.isImm)
def AtomOps.ok (x : AtomOps) : Bool := x.h.ok && x.d.dstOk && x.a.srcOk x.h && x.b.srcOk x.h && x.order.rmwOk
def CasOps.ok (x : CasOps) : Bool := x.h.ok && x.d.dstOk && x.a.srcOk x.h && x.b.srcOk x.h && x.order.rmwOk
def CasOps.ok64 (x : CasOps) : Bool := x.h.ok && x.d.dstOk && x.a.srcOk x.h && x.b.quadOk && x.order.rmwOk
def CtrOps.ok (x : CtrOps) (useB : Bool) (orders : Order → Bool) : Bool :=
  x.h.ok && x.d.dstOk && x.a.srcOk x.h && (if useB then x.b.srcOk x.h else decide (x.b = .vz)) && orders x.order
def CopyOps.ok (x : CopyOps) (sr sat mode : Bool) : Bool :=
  x.h.ok && x.a.srcOk x.h && x.b.srcOk x.h && x.c.srcOk x.h && (sr || x.mode.noSr) && (sat || !x.sat)
    && (mode || decide (x.mode = .rne))

/-- A matrix operand: a v code in the register form, an even w code in the scratchpad form (R296, R297). -/
def Operand.matrixOk (scr : Bool) (o : Operand) : Bool := if scr then o.evenW else o.isV
def MmaOps.ok (x : MmaOps) : Bool := x.h.ok && x.d.dSrcOk && x.a.matrixOk x.aScr && x.b.matrixOk x.bScr
def MmaOps.mmdOk (x : MmaOps) : Bool :=
  x.h.ok && x.d.dSrcOk && x.a.matrixOk x.aScr && x.b.srcOk x.h && !x.bScr && decide (x.tile.val % 2 = 0)
def TileWriteOps.ok (x : TileWriteOps) : Bool := x.h.ok && x.a.srcOk x.h && x.b.srcOk x.h && x.mode.noSr
def TileReadOps.ok (x : TileReadOps) : Bool := x.h.ok && x.d.dstOk && x.a.srcOk x.h && x.mode.noSr
def TileMoveOps.ok (x : TileMoveOps) (sat : Bool) : Bool :=
  x.h.ok && x.d.dSrcOk && x.a.scratchOk && x.mode.noSr && (sat || !x.sat)
def TepiOps.ok (x : TepiOps) : Bool := x.h.ok && x.d.dstOk && x.a.srcOk x.h && x.b.srcOk x.h && x.mode.noSr

/-- The hyperparameter base of ADAMW (R308). -/
def Operand.hyperOk : Operand → Bool
  | .w k => k.val % 8 = 0
  | _ => false
def AdamwOps.ok (x : AdamwOps) : Bool :=
  x.h.ok && x.d.groupOk 3 && x.a.srcOk x.h && x.b.hyperOk && (!x.sr || x.bf16)

/-- The chunk block of TASK.NEXT and TASK.GET (R326). -/
def chunkDOk : Operand → Bool
  | .v k => k.val % 4 = 0
  | _ => false

def SwrOps.ok (x : SwrOps) : Bool := x.h.ok && x.a.srcOk x.h

/-- The terms of Instr that the encodings admit; commands and events have no encoding and every term is admitted. -/
def Instr.wf : Instr → Bool
  | .nop x | .exit x | .yield x | .taskDone x | .eret x => x.ok
  | .bra x | .brx x | .brq x | .ret x | .prio x | .ptld x | .trap x | .preempt x | .preemptRes x | .spark x => x.ok
  | .call x => x.ok && callDOk x.d
  | .skip x => x.h.ok
  | .sign x => x.h.ok && x.d.dstOk
  | .cvset x => x.h.ok && x.a.srcOk x.h && x.b.srcOk x.h
  | .mov x => x.ok false false true false false
  | .sel x => x.ok true true true false false
  | .iadd x | .isub x | .imul x => x.ok true false true true true
  | .imulh x => x.ok true false false false true
  | .imad x => x.ok true true true false true
  | .imin x | .imax x => x.ok true false true false true
  | .iabs x => x.ok false false true true false
  | .and x | .or x | .xor x | .shl x | .shr x | .sar x => x.ok true false true false false
  | .popc x | .clz x | .brev x => x.ok false false true false false
  | .bfe x => x.ok true false true false true
  | .bfi x => x.ok true true true false false
  | .icmp x => x.h.ok && x.d.dstOk && x.a.srcOk x.h && x.b.srcOk x.h && x.cond.intOk
  | .lea x => x.h.ok && x.d.dstOk && x.a.srcOk x.h && x.b.srcOk x.h
  | .fadd x | .fsub x | .fmul x | .dadd x | .dsub x | .dmul x => x.ok false
  | .fma x | .dfma x => x.ok true
  | .fmin x | .fmax x | .dmin x | .dmax x => x.ok
  | .fcmp x | .dcmp x => x.ok
  | .frnd x => x.h.ok && x.d.dstOk && x.a.srcOk x.h && x.mode.noSr
  | .hadd2 x | .hsub2 x | .hmul2 x => x.ok false
  | .hfma2 x => x.ok true
  | .hmin2 x | .hmax2 x => x.ok
  | .hcmp2 x => x.ok
  | .exp2 x | .log2 x | .rcp x | .rsq x | .sqrt x | .tanh x => x.ok
  | .pair x => x.ok
  | .cvt x => x.ok
  | .cvtF8 x | .cvtF6 x | .cvtF4 x => x.ok
  | .mxqScale x => x.mxqScaleOk
  | .mxq x => x.mxqOk
  | .mxd x => x.mxdOk
  | .unpk x => x.unpkOk
  | .pack x => x.ok
  | .qx x => x.h.ok && x.d.dstOk && x.a.srcOk x.h && x.b.srcOk x.h
  | .perm x => x.h.ok && x.d.dstOk && x.a.srcOk x.h && x.b.srcOk x.h
  | .vote x => x.h.ok && x.d.dstOk && x.a.srcOk x.h
  | .wsum x => x.ok false
  | .wmax x => x.h.ok && x.d.dstOk && x.a.srcOk x.h
  | .wscan x => x.ok true
  | .ldG x | .ldS x => x.ldOk
  | .stG x | .stS x => x.stOk
  | .pref x => x.h.ok && x.a.srcOk x.h && x.b.srcOk x.h
  | .llcLock x | .llcUnlock x => x.ok
  | .llcUnlockAll x => x.ok
  | .fence x => x.h.ok && x.order.fenceOk
  | .atomG x | .atomS x => x.ok
  | .atomCasG x | .atomCasS x => x.ok
  | .atomCas64G x | .atomCas64S x => x.ok64
  | .ctrInit x => x.h.ok && x.a.srcOk x.h && x.b.srcOk x.h && x.order.initOk
  | .ctrAdd x | .ctrMax x => x.ok true Order.rmwOk
  | .ctrWait x => x.ok true Order.waitOk
  | .ctrRd x => x.ok false Order.waitOk
  | .qcfg x => x.h.ok && x.a.srcOk x.h && x.b.srcOk x.h
  | .copyLd x => x.ok false true true
  | .copySt x => x.ok true true true
  | .copyCp x => x.ok false false false
  | .tcfg x => x.h.ok && x.a.srcOk x.h
  | .tcfgFree x | .tzero x => x.h.ok
  | .mma x => x.ok
  | .mmd x => x.mmdOk
  | .twrr x | .twrc x => x.ok
  | .trdr x | .trdc x => x.ok
  | .tld x => x.ok false
  | .tst x => x.ok true
  | .tepi x => x.ok
  | .seed x | .kstep x | .watch x => x.ok
  | .seedS x => x.h.ok && x.b.srcOk x.h
  | .adamw x => x.ok
  | .ksig x => x.h.ok && x.a.scratchOk && x.b.srcOk x.h
  | .ktest x => x.ok && ktestDOk x.d
  | .kreuse x => x.ok && pairDOk x.d
  | .launch x | .taskRange x | .svcWait x => x.ok
  | .kmap x => x.ok && pairDOk x.d
  | .kmapSrc x => x.ok
  | .kend x => x.h.ok && x.d.dSrcOk
  | .taskNext x | .taskGet x => x.h.ok && chunkDOk x.d
  | .kindle x => x.h.ok && x.a.srcOk x.h && x.b.srcOk x.h
  | .svc x => x.h.ok && x.d.dstOk && x.a.srcOk x.h && x.b.srcOk x.h
  | .bkpt x => x.h.ok
  | .srd x => x.h.ok && x.d.dstOk
  | .swr x | .tlbinvPage x | .tlbinvContext x | .tlbinvAll x | .svcqRingReset x | .svcdoneReply x | .spillReplay x
  | .spillAbort x | .sequencerResume x | .sequencerAbort x | .wpsClear x => x.ok
  | .xrecv x => x.b = 0 && !x.sr && !x.ownFin
  | .xfwd x => x.b = 0 && !x.sr && !x.lf && !x.ownFin && !x.acc
  | .xsend x | .xred x => !x.acc
  | .akoonUnknownCommand _ code => !(1 ≤ code && code ≤ 13)
  | .tlbinvComplete _ | .movi _ | .addi _ | .zfAdd _ | .zfSub _ | .beq _ | .bne _ | .zfBra _ | .cwait _
  | .cadv _ | .cadvRmt _ | .cadd _ | .embBind _ | .embFold _ | .zfDone | .image _ | .memwr _ | .memrd _
  | .ctrmax _ | .ctxnew _ | .rootgo _ | .seqgo _ | .portcfg _ | .keyload _ | .snaprd _ | .akoonSpark _
  | .power _ | .resetDevice _ | .resetContext _ | .powerUp | .launchAdmission _ _ | .generationIssue _
  | .pathDue _ | .counterWaitComplete _ | .queueWaitComplete _ | .serviceReplyComplete _ | .serviceSlotFree _
  | .starvationExpiry _ | .kindlingDispatch _ _ | .workerAdmission _ _ | .contextSave _ | .contextResume _
  | .loadValueReturn _ | .pageWalkComplete _ | .llcRequestServe _ | .orientationTurnComplete _
  | .sectorEviction _ | .class3Aging _ _ | .hostFillComplete _ _ | .hostFillTimeout _ | .wbStallRetry _
  | .ownershipRecallComplete _ _ | .ownershipWindow _ | .copyCommandAccept _ | .copyComplete _
  | .matrixOpComplete _ _ | .tileTransferComplete _ _ | .governorWindow _ | .dieBudgetWindow _
  | .kilnOperation _ | .kendComplete _ | .frameSend _ | .frameReceive _ _ | .linkAckSend _ | .linkAckReceive _ _
  | .linkNackReceive _ _ | .retryTimeout _ | .replayDone _ | .keyRollover _ | .keyloadApply _
  | .portMode0Drain _ | .laneLockLoss _ _ | .retrainComplete _ | .retrainTimeout _ | .putPacketReceive _
  | .getRequestReceive _ | .getReplyReceive _ | .remoteAdvanceReceive _ | .transportAckReceive _ _
  | .transportNackReceive _ _ _ | .transportResendTimeout _ _ | .remoteAdvanceSend _ | .cwaitComplete _
  | .sequencerWaitExpiry _ | .coreControlError _ _ | .tileControlError _ _ _ | .notAnInstruction _
  | .fetchFault _ _ | .zfOpcodeNotAllocated _ | .zfWordNotFetched | .creditGrant _ _ _ | .hostWriteAnswer _ _
  | .hostWriteTimeout _ => true

end Sys2Proof
end

