-- ==== Sys2Proof/Decode.lean ====
section
/-! DEFINITION. Decode.lean: words to instructions and back (R189 to R204, R373, R428, R503). Decoding is total: a word
that is not an instruction is rejected by the name of its condition. -/

namespace Sys2Proof

/-- Why a word is not an instruction: the conditions 1 to 10 of R428, then the kinds of R503 that a ZF word shows by itself. -/
inductive Reject
  | frame | opcode | guard | code | literal | unwritable | unused | pair | subfield | mark
  | zfOpcode | zfUnused | zfFlag | zfScope
deriving DecidableEq, Repr

/-- The condition number of R428, or the kind of R503. -/
def Reject.number : Reject → Nat
  | .frame => 1 | .opcode => 2 | .guard => 3 | .code => 4 | .literal => 5 | .unwritable => 6 | .unused => 7
  | .pair => 8 | .subfield => 9 | .mark => 10 | .zfOpcode => 1 | .zfUnused => 2 | .zfFlag => 5 | .zfScope => 8

/-! ### Codes of fields -/

def SpecialValue.code : SpecialValue → Nat
  | .tid => 0x491 | .wid => 0x492 | .gtid => 0x493 | .gidX => 0x494 | .gidY => 0x495 | .gidZ => 0x496 | .cid => 0x497
  | .quad => 0x498 | .width => 0x499 | .ndimX => 0x49A | .ndimY => 0x49B | .ndimZ => 0x49C | .iter => 0x49D
  | .core => 0x49E | .lane => 0x49F

def SpecialValue.ofCode : Nat → SpecialValue
  | 0x491 => .tid | 0x492 => .wid | 0x493 => .gtid | 0x494 => .gidX | 0x495 => .gidY | 0x496 => .gidZ | 0x497 => .cid
  | 0x498 => .quad | 0x499 => .width | 0x49A => .ndimX | 0x49B => .ndimY | 0x49C => .ndimZ | 0x49D => .iter
  | 0x49E => .core | _ => .lane

/-- The 11-bit code of an operand (R194). -/
def Operand.code : Operand → Nat
  | .v n => n.val
  | .w n => 0x400 + n.val
  | .q n => 0x480 + n.val
  | .vz => 0x490
  | .sv x => x.code
  | .p n => 0x4A0 + n.val
  | .imm n => 0x600 + n.val
  | .lit => 0x7FF

/-- The operand of an allocated code (R194); the codes that are not allocated, 0x4A7 to 0x5FF, read as vz here and
`Raw.reject` refuses them first. -/
def Operand.ofCode (n : Nat) : Operand :=
  if n < 0x400 then .v (Fin.ofNat 1024 n)
  else if n < 0x480 then .w (Fin.ofNat 128 (n - 0x400))
  else if n < 0x490 then .q (Fin.ofNat 16 (n - 0x480))
  else if n = 0x490 then .vz
  else if n < 0x4A0 then .sv (SpecialValue.ofCode n)
  else if n < 0x4A7 then .p (Fin.ofNat 7 (n - 0x4A0))
  else if n < 0x600 then .vz
  else if n < 0x7FF then .imm (Fin.ofNat 511 (n - 0x600))
  else .lit

def codeAllocated (n : Nat) : Bool := n < 0x4A7 || 0x600 ≤ n

def Mode.code : Mode → Nat
  | .rne => 0 | .rtz => 1 | .rup => 2 | .rdn => 3 | .sr => 4
def Mode.ofCode : Nat → Mode
  | 1 => .rtz | 2 => .rup | 3 => .rdn | 4 => .sr | _ => .rne
def Fmt.code : Fmt → Nat
  | .fp32 => 0 | .bf16 => 1 | .fp16 => 2 | .e4m3 => 3 | .e5m2 => 4 | .mxe4m3 => 5 | .mxe5m2 => 6 | .e3m2 => 7
  | .e2m3 => 8 | .e2m1 => 9 | .int8 => 10 | .mxt2 => 11 | .s1b => 12 | .t5b => 13 | .fp64 => 14
def Fmt.ofCode : Nat → Fmt
  | 1 => .bf16 | 2 => .fp16 | 3 => .e4m3 | 4 => .e5m2 | 5 => .mxe4m3 | 6 => .mxe5m2 | 7 => .e3m2 | 8 => .e2m3
  | 9 => .e2m1 | 10 => .int8 | 11 => .mxt2 | 12 => .s1b | 13 => .t5b | 14 => .fp64 | _ => .fp32
def Order.code : Order → Nat
  | .weak => 0 | .rlx => 1 | .acq => 2 | .rel => 3 | .ar => 4 | .sc => 5
def Order.ofCode : Nat → Order
  | 1 => .rlx | 2 => .acq | 3 => .rel | 4 => .ar | 5 => .sc | _ => .weak
def Scope.code : Scope → Nat
  | .thr => 0 | .wrp => 1 | .grp => 2 | .clu => 3 | .dev => 4 | .sys => 5
def Scope.ofCode : Nat → Scope
  | 1 => .wrp | 2 => .grp | 3 => .clu | 4 => .dev | 5 => .sys | _ => .thr
def Cond.code : Cond → Nat
  | .eq => 0 | .ne => 1 | .lt => 2 | .le => 3 | .gt => 4 | .ge => 5 | .un => 6
def Cond.ofCode : Nat → Cond
  | 1 => .ne | 2 => .lt | 3 => .le | 4 => .gt | 5 => .ge | 6 => .un | _ => .eq
def CvtType.code : CvtType → Nat
  | .f32 => 0 | .bf16 => 1 | .f16 => 2 | .f64 => 3 | .s32 => 4 | .n32 => 5 | .s64 => 6 | .n64 => 7
  | .s16 => 8 | .n16 => 9 | .s8 => 10 | .n8 => 11
def CvtType.ofCode : Nat → CvtType
  | 1 => .bf16 | 2 => .f16 | 3 => .f64 | 4 => .s32 | 5 => .n32 | 6 => .s64 | 7 => .n64
  | 8 => .s16 | 9 => .n16 | 10 => .s8 | 11 => .n8 | _ => .f32
def MemType.code : MemType → Nat
  | .b8 => 0 | .s8 => 1 | .b16 => 2 | .s16 => 3 | .b32 => 4 | .b64 => 5 | .b128 => 6
def MemType.ofCode : Nat → MemType
  | 1 => .s8 | 2 => .b16 | 3 => .s16 | 4 => .b32 | 5 => .b64 | 6 => .b128 | _ => .b8
def AtomOp.code : AtomOp → Nat
  | .add => 0 | .add64 => 1 | .minS => 2 | .minN => 3 | .maxS => 4 | .maxN => 5 | .minS64 => 6 | .minN64 => 7
  | .maxS64 => 8 | .maxN64 => 9 | .and => 10 | .or => 11 | .xor => 12 | .and64 => 13 | .or64 => 14 | .xor64 => 15
  | .exch => 16 | .exch64 => 17 | .faddF32 => 18 | .faddBf16x2 => 19 | .faddF16x2 => 20
def AtomOp.ofCode : Nat → AtomOp
  | 1 => .add64 | 2 => .minS | 3 => .minN | 4 => .maxS | 5 => .maxN | 6 => .minS64 | 7 => .minN64
  | 8 => .maxS64 | 9 => .maxN64 | 10 => .and | 11 => .or | 12 => .xor | 13 => .and64 | 14 => .or64 | 15 => .xor64
  | 16 => .exch | 17 => .exch64 | 18 => .faddF32 | 19 => .faddBf16x2 | 20 => .faddF16x2 | _ => .add
def VoteMode.code : VoteMode → Nat
  | .any => 0 | .all => 1 | .ballot => 2 | .eq => 3
def VoteMode.ofCode : Nat → VoteMode
  | 1 => .all | 2 => .ballot | 3 => .eq | _ => .any
def SumType.code : SumType → Nat
  | .f32 => 0 | .f64 => 1 | .i32 => 2 | .i64 => 3
def SumType.ofCode : Nat → SumType
  | 1 => .f64 | 2 => .i32 | 3 => .i64 | _ => .f32
def MaxType.code : MaxType → Nat
  | .f32 => 0 | .f64 => 1 | .s32 => 2 | .n32 => 3 | .s64 => 4 | .n64 => 5
def MaxType.ofCode : Nat → MaxType
  | 1 => .f64 | 2 => .s32 | 3 => .n32 | 4 => .s64 | 5 => .n64 | _ => .f32
def PrefKind.code : PrefKind → Nat
  | .l0 => 0 | .llc => 1 | .sec => 2
def PrefKind.ofCode : Nat → PrefKind
  | 1 => .llc | 2 => .sec | _ => .l0
def TileFmt.code : TileFmt → Nat
  | .f32 => 0 | .bf16 => 1 | .f16 => 2 | .raw => 3
def TileFmt.ofCode : Nat → TileFmt
  | 1 => .bf16 | 2 => .f16 | 3 => .raw | _ => .f32
/-- The pair opcode map (R202). -/
def HalfOp.code : HalfOp → Nat
  | .nop => 0x00 | .mov => 0x01 | .iadd => 0x02 | .isub => 0x03 | .imul => 0x04 | .imin => 0x05 | .imax => 0x06
  | .and => 0x07 | .or => 0x08 | .xor => 0x09 | .shl => 0x0A | .shr => 0x0B | .sar => 0x0C | .fadd => 0x10
  | .fsub => 0x11 | .fmul => 0x12 | .fmin => 0x13 | .fmax => 0x14 | .hadd2 => 0x18 | .hmul2 => 0x19 | .hmin2 => 0x1A
  | .hmax2 => 0x1B | .exp2 => 0x20 | .log2 => 0x21 | .rcp => 0x22 | .rsq => 0x23 | .sqrt => 0x24 | .tanh => 0x25
def HalfOp.ofCode : Nat → Option HalfOp
  | 0x00 => some .nop | 0x01 => some .mov | 0x02 => some .iadd | 0x03 => some .isub | 0x04 => some .imul
  | 0x05 => some .imin | 0x06 => some .imax | 0x07 => some .and | 0x08 => some .or | 0x09 => some .xor
  | 0x0A => some .shl | 0x0B => some .shr | 0x0C => some .sar | 0x10 => some .fadd | 0x11 => some .fsub
  | 0x12 => some .fmul | 0x13 => some .fmin | 0x14 => some .fmax | 0x18 => some .hadd2 | 0x19 => some .hmul2
  | 0x1A => some .hmin2 | 0x1B => some .hmax2 | 0x20 => some .exp2 | 0x21 => some .log2 | 0x22 => some .rcp
  | 0x23 => some .rsq | 0x24 => some .sqrt | 0x25 => some .tanh
  | _ => none

/-! ### The fields of a full word (R192) -/

/-- The fields of a full word, C also serving as F (R197). -/
structure Raw where
  op : Nat
  ps : Nat
  pn : Nat
  d : Nat
  a : Nat
  b : Nat
  c : Nat
  m : Nat
  lit : Option W64
deriving DecidableEq, Repr

/-- The first word of a full instruction (R190, R192). -/
def Raw.word (r : Raw) : Nat :=
  (if r.lit.isSome then 2 else 0) * 2 ^ 62 + r.op * 2 ^ 54 + r.ps * 2 ^ 51 + r.pn * 2 ^ 50 + r.d * 2 ^ 39
    + r.a * 2 ^ 28 + r.b * 2 ^ 17 + r.c * 2 ^ 6 + r.m

/-- Splitting a full word into its fields (R192); `lit` is the literal word of a literal frame. -/
def Raw.ofWord (w : Nat) (lit : Option W64) : Raw :=
  { op := bits w 61 54, ps := bits w 53 51, pn := bits w 50 50, d := bits w 49 39, a := bits w 38 28,
    b := bits w 27 17, c := bits w 16 6, m := bits w 5 0, lit := lit }

/-- What a field is for an instruction (R196, R197). -/
inductive Use
  | unused | src | dst | fn
deriving DecidableEq, Repr

/-- How an instruction uses the fields of its word: `m`: every M bit that it does not define is 0; `sub`: every subfield
of F and M is allocated; `mark`: no operand field holds a code that it marks. -/
structure Layout where
  d : Use
  a : Use
  b : Use
  c : Use
  m : Bool
  sub : Bool
  mark : Bool
  instr : Instr
deriving DecidableEq, Repr

namespace Raw

def hdr (r : Raw) : Hdr := { ps := Fin.ofNat 8 r.ps, pn := decide (r.pn = 1), acc := bit r.m 5, lit := r.lit }
def dOp (r : Raw) : Operand := .ofCode r.d
def aOp (r : Raw) : Operand := .ofCode r.a
def bOp (r : Raw) : Operand := .ofCode r.b
def cOp (r : Raw) : Operand := .ofCode r.c
def m4 (r : Raw) : Bool := bit r.m 4
def m3 (r : Raw) : Bool := bit r.m 3
def m0 (r : Raw) : Bool := bit r.m 0
def m20 (r : Raw) : Nat := bits r.m 2 0
def mode (r : Raw) : Mode := .ofCode r.m20
def order (r : Raw) : Order := .ofCode r.m20
/-- Field F[hi:lo]. -/
def f (r : Raw) (hi lo : Nat) : Nat := bits r.c hi lo
def cv (r : Raw) : CvField := Fin.ofNat 17 (r.f 4 0)
/-- Convergence fields 17 to 31 are not allocated (R40). -/
def cvOk (r : Raw) : Bool := r.f 4 0 ≤ 16
def tile (r : Raw) : Fin 64 := Fin.ofNat 64 (r.f 10 5)

/-- The M bits [4:0] that an instruction does not define are 0: which of [4], [3], [2:0] it defines. -/
def mz (r : Raw) (d4 d3 d0 : Bool) : Bool := (d4 || !r.m4) && (d3 || !r.m3) && (d0 || decide (r.m20 = 0))
/-- The same for an instruction that defines [0] alone of [2:0]. -/
def mz0 (r : Raw) (d4 d3 : Bool) : Bool := (d4 || !r.m4) && (d3 || !r.m3) && decide (r.m20 ≤ 1)

/-- The conditions of R428 in its order: a literal code in frame 0b00 or in D stands in any operand field. -/
def reject (r : Raw) (l : Layout) : Option Reject :=
  let usedCode := fun (u : Use) (n : Nat) => (u = .src || u = .dst) && !codeAllocated n
  let litCode := fun (u : Use) (n : Nat) => !(u = .fn) && decide (n = 0x7FF) && r.lit.isNone
  let idle := fun (u : Use) (n : Nat) => u = .unused && !(decide (n = 0x490))
  if r.ps = 7 && r.pn = 1 then some .guard
  else if usedCode l.d r.d || usedCode l.a r.a || usedCode l.b r.b || usedCode l.c r.c then some .code
  else if litCode l.d r.d || litCode l.a r.a || litCode l.b r.b || litCode l.c r.c || decide (r.d = 0x7FF) then some .literal
  else if l.d = .dst && !r.dOp.dstOk then some .unwritable
  else if idle l.d r.d || idle l.a r.a || idle l.b r.b || idle l.c r.c || !l.m then some .unused
  else if !l.sub then some .subfield
  else if !l.mark then some .mark
  else none

/-! #### Layouts of the families -/

def op0 (r : Raw) (k : Op0 → Instr) : Layout :=
  { d := .unused, a := .unused, b := .unused, c := .unused, m := r.mz false false false, sub := true, mark := true,
    instr := k { h := r.hdr } }
def opA (r : Raw) (k : OpA → Instr) : Layout :=
  { d := .unused, a := .src, b := .unused, c := .unused, m := r.mz false false false, sub := true, mark := true,
    instr := k { h := r.hdr, a := r.aOp } }
def opD (r : Raw) (mark : Bool) (k : OpD → Instr) : Layout :=
  { d := .dst, a := .unused, b := .unused, c := .unused, m := r.mz false false false, sub := true, mark := mark,
    instr := k { h := r.hdr, d := r.dOp } }
def opDA (r : Raw) (mark : Bool) (k : OpDA → Instr) : Layout :=
  { d := .dst, a := .src, b := .unused, c := .unused, m := r.mz false false false, sub := true, mark := mark,
    instr := k { h := r.hdr, d := r.dOp, a := r.aOp } }
def opAB (r : Raw) (k : OpAB → Instr) : Layout :=
  { d := .unused, a := .src, b := .src, c := .unused, m := r.mz false false false, sub := true, mark := true,
    instr := k { h := r.hdr, a := r.aOp, b := r.bOp } }

def intL (r : Raw) (useB useC w64 sat sgn : Bool) (k : IntOps → Instr) : Layout :=
  { d := .dst, a := .src, b := if useB then .src else .unused, c := if useC then .src else .unused,
    m := (w64 || !r.m4) && (sat || !r.m3) && decide (r.m20 ≤ (if sgn then 1 else 0)), sub := true, mark := true,
    instr := k { h := r.hdr, d := r.dOp, a := r.aOp, b := r.bOp, c := r.cOp, w64 := r.m4, sat := r.m3, sgn := r.m0 } }
def floatL (r : Raw) (useC : Bool) (k : FloatOps → Instr) : Layout :=
  { d := .dst, a := .src, b := .src, c := if useC then .src else .unused, m := r.mz false true true,
    sub := r.m20 ≤ 3, mark := true,
    instr := k { h := r.hdr, d := r.dOp, a := r.aOp, b := r.bOp, c := r.cOp, sat := r.m3, mode := r.mode } }
def minMaxL (r : Raw) (k : FMinMaxOps → Instr) : Layout :=
  { d := .dst, a := .src, b := .src, c := .unused, m := r.mz0 false false, sub := true, mark := true,
    instr := k { h := r.hdr, d := r.dOp, a := r.aOp, b := r.bOp, num := r.m0 } }
def fcmpL (r : Raw) (k : FcmpOps → Instr) : Layout :=
  { d := .dst, a := .src, b := .src, c := .fn, m := r.mz false false false, sub := r.c ≤ 6, mark := true,
    instr := k { h := r.hdr, d := r.dOp, a := r.aOp, b := r.bOp, cond := .ofCode r.c } }
def halfL (r : Raw) (useC : Bool) (k : HalfOps → Instr) : Layout :=
  { d := .dst, a := .src, b := .src, c := if useC then .src else .unused, m := true, sub := r.m20 ≤ 3, mark := true,
    instr := k { h := r.hdr, d := r.dOp, a := r.aOp, b := r.bOp, c := r.cOp, f16 := r.m4, sat := r.m3, mode := r.mode } }
def hminMaxL (r : Raw) (k : HMinMaxOps → Instr) : Layout :=
  { d := .dst, a := .src, b := .src, c := .unused, m := r.mz0 true false, sub := true, mark := true,
    instr := k { h := r.hdr, d := r.dOp, a := r.aOp, b := r.bOp, f16 := r.m4, num := r.m0 } }
def narrowL (r : Raw) (k : CvtNarrowOps → Instr) : Layout :=
  { d := .dst, a := .src, b := .src, c := .src, m := true, sub := r.m20 ≤ 4, mark := true,
    instr := k { h := r.hdr, d := r.dOp, a := r.aOp, b := r.bOp, c := r.cOp, alt := r.m4, sat := r.m3, mode := r.mode } }
def group (r : Raw) : GroupOps :=
  { h := r.hdr, d := r.dOp, a := r.aOp, b := r.bOp, fmt := .ofCode (r.f 3 0), sat := r.m3, mode := r.mode }
/-- The format field of MXQ and MXD (R247, R248), and of UNPK (R246). -/
def mxFmtOk (r : Raw) : Bool := (5 ≤ r.f 3 0 && r.f 3 0 ≤ 9) || r.f 3 0 = 11
def unpkFmtOk (r : Raw) : Bool := 1 ≤ r.f 3 0 && r.f 3 0 ≤ 11
def mxqL (r : Raw) : Layout :=
  if bit r.c 4 then
    { d := .dst, a := .src, b := .unused, c := .fn, m := r.mz false true true,
      sub := r.mxFmtOk && decide (r.f 10 5 = 0) && decide (r.m20 ≤ 4), mark := true, instr := .mxqScale r.group }
  else
    { d := .dst, a := .src, b := .src, c := .fn, m := r.mz false true true,
      sub := r.mxFmtOk && decide (r.f 10 5 = 0) && decide (r.m20 ≤ 4),
      mark := r.dOp.groupOk r.group.fmt.groupRegs && r.aOp.groupOk 16, instr := .mxq r.group }
def sumL (r : Raw) (scan : Bool) (k : SumOps → Instr) : Layout :=
  let ty := SumType.ofCode (r.f 6 5)
  { d := .dst, a := .src, b := .unused, c := .fn, m := r.mz scan ty.isFloat ty.isFloat,
    sub := r.cvOk && decide (r.f 10 7 = 0) && decide (r.m20 ≤ 3), mark := true,
    instr := k { h := r.hdr, d := r.dOp, a := r.aOp, cv := r.cv, ty := ty, excl := r.m4, sat := r.m3, mode := r.mode } }

/-- LD and ST (R258, R263). -/
def mem (r : Raw) : MemOps :=
  { h := r.hdr, d := r.dOp, a := r.aOp, b := r.bOp, ty := .ofCode (r.f 3 0), order := r.order, scope := .ofCode (r.f 6 4) }
def memSub (r : Raw) : Bool :=
  r.f 3 0 ≤ 6 && r.f 6 4 ≤ 5 && decide (r.f 10 7 = 0) && r.m20 ≤ 5 && r.mem.formOk
def ldL (r : Raw) (k : MemOps → Instr) : Layout :=
  { d := .dst, a := .src, b := .src, c := .fn, m := r.mz false false true, sub := r.memSub && r.order.ldOk,
    mark := !(r.mem.ty = .b128) || r.dOp.quadOk, instr := k r.mem }
def stL (r : Raw) (k : MemOps → Instr) : Layout :=
  { d := .src, a := .src, b := .src, c := .fn, m := r.mz false false true,
    sub := r.memSub && r.order.stOk && !(r.mem.ty = .s8) && !(r.mem.ty = .s16),
    mark := !(r.mem.ty = .b128) || r.dOp.quadOk || r.dOp.isImm, instr := k r.mem }
def atomL (r : Raw) (k : AtomOps → Instr) : Layout :=
  { d := .dst, a := .src, b := .src, c := .fn, m := r.mz false false true,
    sub := r.f 4 0 ≤ 20 && r.f 7 5 ≤ 5 && decide (r.f 10 8 = 0) && r.m20 ≤ 5 && r.order.rmwOk, mark := true,
    instr := k { h := r.hdr, d := r.dOp, a := r.aOp, b := r.bOp, op := .ofCode (r.f 4 0), order := r.order,
                 scope := .ofCode (r.f 7 5) } }
def casL (r : Raw) (mark : Bool) (k : CasOps → Instr) : Layout :=
  { d := .dst, a := .src, b := .src, c := .fn, m := r.mz false false true,
    sub := decide (r.f 4 0 = 0) && r.f 7 5 ≤ 5 && decide (r.f 10 8 = 0) && r.m20 ≤ 5 && r.order.rmwOk, mark := mark,
    instr := k { h := r.hdr, d := r.dOp, a := r.aOp, b := r.bOp, order := r.order, scope := .ofCode (r.f 7 5) } }
def ctrL (r : Raw) (useB : Bool) (orders : Order → Bool) (k : CtrOps → Instr) : Layout :=
  { d := .dst, a := .src, b := if useB then .src else .unused, c := .fn, m := r.mz false false true,
    sub := r.f 3 1 ≤ 5 && decide (r.f 10 4 = 0) && r.m20 ≤ 5 && orders r.order, mark := true,
    instr := k { h := r.hdr, d := r.dOp, a := r.aOp, b := r.bOp, scratch := bit r.c 0, scope := .ofCode (r.f 3 1),
                 order := r.order } }
def copyL (r : Raw) (sr sat mode : Bool) (k : CopyOps → Instr) : Layout :=
  { d := .unused, a := .src, b := .src, c := .src, m := r.mz true sat mode, sub := r.m20 ≤ (if sr then 4 else 3),
    mark := true,
    instr := k { h := r.hdr, a := r.aOp, b := r.bOp, c := r.cOp, csp := r.m4, sat := r.m3, mode := r.mode } }

/-- Matrix instructions (R292). -/
def mma (r : Raw) (bScr : Bool) : MmaOps :=
  { h := r.hdr, d := r.dOp, a := r.aOp, b := r.bOp, tile := r.tile, cv := r.cv, csp := r.m4, aScr := bit r.m 2, bScr := bScr }
def tileWriteL (r : Raw) (k : TileWriteOps → Instr) : Layout :=
  { d := .unused, a := .src, b := .src, c := .fn, m := r.mz true false true, sub := r.cvOk && r.m20 ≤ 3, mark := true,
    instr := k { h := r.hdr, a := r.aOp, b := r.bOp, tile := r.tile, cv := r.cv, raw := r.m4, mode := r.mode } }
def tileReadL (r : Raw) (k : TileReadOps → Instr) : Layout :=
  { d := .dst, a := .src, b := .unused, c := .fn, m := true, sub := r.cvOk && r.m20 ≤ 3, mark := true,
    instr := k { h := r.hdr, d := r.dOp, a := r.aOp, tile := r.tile, cv := r.cv, raw := r.m4, sat := r.m3, mode := r.mode } }
def tileMoveL (r : Raw) (sat : Bool) (k : TileMoveOps → Instr) : Layout :=
  { d := .src, a := .src, b := .unused, c := .fn, m := r.mz true sat true, sub := decide (r.f 4 2 = 0) && r.m20 ≤ 3,
    mark := r.aOp.scratchOk,
    instr := k { h := r.hdr, d := r.dOp, a := r.aOp, tile := r.tile, fmt := .ofCode (r.f 1 0), csp := r.m4, sat := r.m3,
                 mode := r.mode } }
def swrOps (r : Raw) : SwrOps :=
  { h := r.hdr, sreg := BitVec.ofNat 12 ((if r.m4 then 2048 else 0) + r.c), a := r.aOp }

/-! #### The major opcode map (R203) -/

def control (r : Raw) : Option Layout :=
  match r.op with
  | 0x00 => some (r.op0 .nop)
  | 0x01 => some (r.opA .bra)
  | 0x02 => some (r.opA .brx)
  | 0x03 => some (r.opA .brq)
  | 0x04 => some (r.opDA (callDOk r.dOp) .call)
  | 0x05 => some (r.opA .ret)
  | 0x06 => some { r.op0 .nop with c := .fn, sub := r.f 10 3 = 0, instr := .skip { h := r.hdr, n := Fin.ofNat 8 (r.f 2 0) } }
  | 0x07 => some (r.op0 .exit)
  | 0x08 => some (r.op0 .yield)
  | 0x09 => some { r.op0 .nop with
      d := .dst, c := .fn, sub := decide (r.f 10 5 = 0) && r.cvOk,
      instr := .sign { h := r.hdr, d := r.dOp, cv := r.cv } }
  | 0x0A => some { r.opAB .seed with
      c := .fn, sub := decide (r.f 10 5 = 0) && r.f 4 0 ≤ 15,
      instr := .cvset { h := r.hdr, a := r.aOp, b := r.bOp, cv := Fin.ofNat 16 (r.f 4 0) } }
  | 0x0B => some (r.opA .prio)
  | _ => none

def integer (r : Raw) : Option Layout :=
  match r.op with
  | 0x10 => some (r.intL false false true false false .mov)
  | 0x11 => some (r.intL true true true false false .sel)
  | 0x12 => some (r.intL true false true true true .iadd)
  | 0x13 => some (r.intL true false true true true .isub)
  | 0x14 => some (r.intL true false true true true .imul)
  | 0x15 => some (r.intL true false false false true .imulh)
  | 0x16 => some (r.intL true true true false true .imad)
  | 0x17 => some (r.intL true false true false true .imin)
  | 0x18 => some (r.intL true false true false true .imax)
  | 0x19 => some (r.intL false false true true false .iabs)
  | 0x1A => some (r.intL true false true false false .and)
  | 0x1B => some (r.intL true false true false false .or)
  | 0x1C => some (r.intL true false true false false .xor)
  | 0x1D => some (r.intL true false true false false .shl)
  | 0x1E => some (r.intL true false true false false .shr)
  | 0x1F => some (r.intL true false true false false .sar)
  | 0x20 => some (r.intL false false true false false .popc)
  | 0x21 => some (r.intL false false true false false .clz)
  | 0x22 => some (r.intL false false true false false .brev)
  | 0x23 => some (r.intL true false true false true .bfe)
  | 0x24 => some (r.intL true true true false false .bfi)
  | 0x25 => some { r.intL true false true false true .mov with
      c := .fn, sub := r.c ≤ 5,
      instr := .icmp { h := r.hdr, d := r.dOp, a := r.aOp, b := r.bOp, cond := .ofCode r.c, w64 := r.m4, sgn := r.m0 } }
  | 0x26 => some { r.intL true false false false true .mov with
      c := .fn, sub := r.f 10 3 = 0,
      instr := .lea { h := r.hdr, d := r.dOp, a := r.aOp, b := r.bOp, k := Fin.ofNat 8 (r.f 2 0), sgn := r.m0 } }
  | _ => none

def floating (r : Raw) : Option Layout :=
  match r.op with
  | 0x30 => some (r.floatL false .fadd)
  | 0x31 => some (r.floatL false .fsub)
  | 0x32 => some (r.floatL false .fmul)
  | 0x33 => some (r.floatL true .fma)
  | 0x34 => some (r.minMaxL .fmin)
  | 0x35 => some (r.minMaxL .fmax)
  | 0x36 => some (r.fcmpL .fcmp)
  | 0x37 => some { r.opDA true .exp2 with
      m := r.mz false false true, sub := r.m20 ≤ 3,
      instr := .frnd { h := r.hdr, d := r.dOp, a := r.aOp, mode := r.mode } }
  | 0x38 => some (r.floatL false .dadd)
  | 0x39 => some (r.floatL false .dsub)
  | 0x3A => some (r.floatL false .dmul)
  | 0x3B => some (r.floatL true .dfma)
  | 0x3C => some (r.minMaxL .dmin)
  | 0x3D => some (r.minMaxL .dmax)
  | 0x3E => some (r.fcmpL .dcmp)
  | 0x40 => some (r.halfL false .hadd2)
  | 0x41 => some (r.halfL false .hsub2)
  | 0x42 => some (r.halfL false .hmul2)
  | 0x43 => some (r.halfL true .hfma2)
  | 0x44 => some (r.hminMaxL .hmin2)
  | 0x45 => some (r.hminMaxL .hmax2)
  | 0x46 => some { r.fcmpL .fcmp with
      m := r.mz true false false,
      instr := .hcmp2 { h := r.hdr, d := r.dOp, a := r.aOp, b := r.bOp, f16 := r.m4, cond := .ofCode r.c } }
  | 0x48 => some (r.opDA true .exp2)
  | 0x49 => some (r.opDA true .log2)
  | 0x4A => some (r.opDA true .rcp)
  | 0x4B => some (r.opDA true .rsq)
  | 0x4C => some (r.opDA true .sqrt)
  | 0x4D => some (r.opDA true .tanh)
  | _ => none

def convert (r : Raw) : Option Layout :=
  match r.op with
  | 0x50 => some
      { d := .dst, a := .src, b := .src, c := .fn, m := r.mz false true true,
        sub := r.f 3 0 ≤ 11 && r.f 7 4 ≤ 11 && decide (r.f 10 8 = 0) && r.m20 ≤ 4
                 && (r.f 3 0 ≤ 3 || r.m20 ≤ 3), mark := true,
        instr := .cvt { h := r.hdr, d := r.dOp, a := r.aOp, b := r.bOp, dst := .ofCode (r.f 3 0), src := .ofCode (r.f 7 4),
                        sat := r.m3, mode := r.mode } }
  | 0x51 => some (r.narrowL .cvtF8)
  | 0x52 => some (r.narrowL .cvtF6)
  | 0x53 => some (r.narrowL .cvtF4)
  | 0x54 => some r.mxqL
  | 0x55 => some
      { d := .dst, a := .src, b := .src, c := .fn, m := r.mz false true true,
        sub := r.mxFmtOk && decide (r.f 10 4 = 0) && r.m20 ≤ 3, mark := r.aOp.groupOk r.group.fmt.groupRegs,
        instr := .mxd r.group }
  | 0x56 => some
      { d := .dst, a := .src, b := .src, c := .fn, m := r.mz false false false,
        sub := r.unpkFmtOk && decide (r.f 10 4 = 0), mark := r.aOp.groupOk r.group.fmt.groupRegs, instr := .unpk r.group }
  | 0x57 => some
      { d := .dst, a := .src, b := .src, c := .fn, m := r.mz false true true, sub := r.c ≤ 1 && r.m20 ≤ 3, mark := true,
        instr := .pack { h := r.hdr, d := r.dOp, a := r.aOp, b := r.bOp, f16 := bit r.c 0, sat := r.m3, mode := r.mode } }
  | _ => none

def cross (r : Raw) : Option Layout :=
  match r.op with
  | 0x60 => some
      { d := .dst, a := .src, b := .src, c := .fn, m := r.mz false false false, sub := r.cvOk && decide (r.f 10 6 = 0),
        mark := true, instr := .qx { h := r.hdr, d := r.dOp, a := r.aOp, b := r.bOp, cv := r.cv, xor := bit r.c 5 } }
  | 0x61 => some
      { d := .dst, a := .src, b := .src, c := .fn, m := r.mz false false false, sub := r.cvOk && decide (r.f 10 5 = 0),
        mark := true, instr := .perm { h := r.hdr, d := r.dOp, a := r.aOp, b := r.bOp, cv := r.cv } }
  | 0x62 => some (r.opA .ptld)
  | 0x63 => some
      { d := .dst, a := .src, b := .unused, c := .fn, m := r.mz false false false, sub := r.cvOk && decide (r.f 10 7 = 0),
        mark := true, instr := .vote { h := r.hdr, d := r.dOp, a := r.aOp, cv := r.cv, mode := .ofCode (r.f 6 5) } }
  | 0x64 => some (r.sumL false .wsum)
  | 0x65 => some
      { d := .dst, a := .src, b := .unused, c := .fn, m := r.mz true false false,
        sub := r.cvOk && r.f 7 5 ≤ 5 && decide (r.f 10 8 = 0), mark := true,
        instr := .wmax { h := r.hdr, d := r.dOp, a := r.aOp, cv := r.cv, ty := .ofCode (r.f 7 5), min := r.m4 } }
  | 0x66 => some (r.sumL true .wscan)
  | _ => none

def memory (r : Raw) : Option Layout :=
  match r.op with
  | 0x70 => some (r.ldL .ldG)
  | 0x71 => some (r.ldL .ldS)
  | 0x72 => some (r.stL .stG)
  | 0x73 => some (r.stL .stS)
  | 0x74 => some { r.opAB .seed with
      c := .fn, sub := r.f 1 0 ≤ 2 && decide (r.f 10 2 = 0),
      instr := .pref { h := r.hdr, a := r.aOp, b := r.bOp, kind := .ofCode (r.f 1 0) } }
  | 0x75 => some { r.opAB .seed with d := .dst, instr := .llcLock { h := r.hdr, d := r.dOp, a := r.aOp, b := r.bOp } }
  | 0x76 => some
      (if bit r.c 0 then { r.opD true .llcUnlockAll with c := .fn, sub := r.f 10 1 = 0 }
       else { r.opAB .seed with d := .dst, c := .fn, sub := r.f 10 1 = 0,
                                instr := .llcUnlock { h := r.hdr, d := r.dOp, a := r.aOp, b := r.bOp } })
  | 0x77 => some { r.op0 .nop with
      c := .fn, m := r.mz false false true,
      sub := r.f 2 0 ≤ 5 && decide (r.f 10 3 = 0) && r.m20 ≤ 5 && r.order.fenceOk,
      instr := .fence { h := r.hdr, order := r.order, scope := .ofCode (r.f 2 0) } }
  | _ => none

def atomic (r : Raw) : Option Layout :=
  match r.op with
  | 0x80 => some (r.atomL .atomG)
  | 0x81 => some (r.atomL .atomS)
  | 0x82 => some (r.casL true .atomCasG)
  | 0x83 => some (r.casL true .atomCasS)
  | 0x84 => some (r.casL r.bOp.quadOk .atomCas64G)
  | 0x85 => some (r.casL r.bOp.quadOk .atomCas64S)
  | 0x88 => some { r.opAB .seed with
      c := .fn, m := r.mz false false true,
      sub := r.f 3 1 ≤ 5 && r.m20 ≤ 5 && r.order.initOk,
      instr := .ctrInit { h := r.hdr, a := r.aOp, b := r.bOp, scratch := bit r.c 0, scope := .ofCode (r.f 3 1),
                          pclass := Fin.ofNat 16 (r.f 7 4), rscope := Fin.ofNat 8 (r.f 10 8), order := r.order } }
  | 0x89 => some (r.ctrL true Order.rmwOk .ctrAdd)
  | 0x8A => some (r.ctrL true Order.rmwOk .ctrMax)
  | 0x8B => some (r.ctrL true Order.waitOk .ctrWait)
  | 0x8C => some (r.ctrL false Order.waitOk .ctrRd)
  | 0x8E => some { r.opAB .seed with
      c := .fn, sub := r.f 10 3 = 0,
      instr := .qcfg { h := r.hdr, a := r.aOp, b := r.bOp, port := Fin.ofNat 8 (r.f 2 0) } }
  | 0x90 => some (r.copyL false true true .copyLd)
  | 0x91 => some (r.copyL true true true .copySt)
  | 0x92 => some (r.copyL false false false .copyCp)
  | _ => none

def matrix (r : Raw) : Option Layout :=
  match r.op with
  | 0xA0 => some
      (if r.m4 then { r.op0 .nop with c := .fn, m := r.mz true false false, sub := r.f 4 0 = 0,
                                      instr := .tcfgFree { h := r.hdr, tile := r.tile } }
       else { r.opA .bra with c := .fn, sub := r.f 4 0 = 0, instr := .tcfg { h := r.hdr, a := r.aOp, tile := r.tile } })
  | 0xA1 => some { r.op0 .nop with c := .fn, sub := r.f 4 0 = 0, instr := .tzero { h := r.hdr, tile := r.tile } }
  | 0xA2 => some
      { d := .src, a := .src, b := .src, c := .fn, m := (r.mz true false true && !r.m0), sub := r.cvOk,
        mark := r.aOp.matrixOk (bit r.m 2) && r.bOp.matrixOk (bit r.m 1), instr := .mma (r.mma (bit r.m 1)) }
  | 0xA3 => some
      { d := .src, a := .src, b := .src, c := .fn, m := (r.mz true false true && decide (bits r.m 1 0 = 0)),
        sub := r.cvOk && decide (bits r.c 5 5 = 0), mark := r.aOp.matrixOk (bit r.m 2), instr := .mmd (r.mma false) }
  | 0xA4 => some (r.tileWriteL .twrr)
  | 0xA5 => some (r.tileWriteL .twrc)
  | 0xA6 => some (r.tileReadL .trdr)
  | 0xA7 => some (r.tileReadL .trdc)
  | 0xA8 => some (r.tileMoveL false .tld)
  | 0xA9 => some (r.tileMoveL true .tst)
  | 0xAA => some
      { d := .dst, a := .src, b := .src, c := .fn, m := r.mz false true true, sub := decide (r.f 4 0 = 0) && r.m20 ≤ 3,
        mark := true,
        instr := .tepi { h := r.hdr, d := r.dOp, a := r.aOp, b := r.bOp, tile := r.tile, sat := r.m3, mode := r.mode } }
  | 0xAB => some
      (if r.m4 then { r.opAB .seed with a := .unused, c := .fn, m := r.mz true false false, sub := r.c = 0,
                                        instr := .seedS { h := r.hdr, b := r.bOp } }
       else { r.opAB .seed with c := .fn, sub := r.c = 0 })
  | 0xB0 => some
      { d := .dst, a := .src, b := .src, c := .unused, m := r.mz true false true,
        sub := r.m20 = 0 || (decide (r.m20 = 4) && r.m4), mark := r.dOp.groupOk 3 && r.bOp.hyperOk,
        instr := .adamw { h := r.hdr, d := r.dOp, a := r.aOp, b := r.bOp, bf16 := r.m4, sr := decide (r.m20 = 4) } }
  | 0xB8 => some (r.opAB .kstep)
  | 0xB9 => some { r.opAB .ksig with mark := r.aOp.scratchOk }
  | 0xBA => some (r.opDA (ktestDOk r.dOp) .ktest)
  | 0xBB => some (r.opDA (pairDOk r.dOp) .kreuse)
  | 0xBC => some
      { r.opAB .seed with d := .dst, m := r.mz true false false, mark := r.m4 || pairDOk r.dOp,
                          instr := if r.m4 then .kmapSrc { h := r.hdr, d := r.dOp, a := r.aOp, b := r.bOp }
                                   else .kmap { h := r.hdr, d := r.dOp, a := r.aOp, b := r.bOp } }
  | 0xBD => some { r.op0 .nop with
      d := .src, m := r.mz true false false,
      instr := .kend { h := r.hdr, d := r.dOp, csp := r.m4 } }
  | _ => none

def system (r : Raw) : Option Layout :=
  match r.op with
  | 0xC0 => some (r.opDA true .launch)
  | 0xC1 => some (r.opDA true .taskRange)
  | 0xC2 => some (r.opD (chunkDOk r.dOp) .taskNext)
  | 0xC3 => some (r.opD (chunkDOk r.dOp) .taskGet)
  | 0xC4 => some (r.op0 .taskDone)
  | 0xC5 => some { r.opAB .seed with
      m := r.mz true false false,
      instr := .kindle { h := r.hdr, a := r.aOp, b := r.bOp, region := r.m4 } }
  | 0xD0 => some { r.opAB .seed with
      d := .dst, c := .fn, sub := r.cvOk,
      instr := .svc { h := r.hdr, d := r.dOp, a := r.aOp, b := r.bOp, fn := r.tile, cv := r.cv } }
  | 0xD1 => some (r.opDA true .svcWait)
  | 0xD2 => some (r.opA .trap)
  | 0xD3 => some (r.op0 .eret)
  | 0xD4 => some { r.opD true .taskNext with
      c := .fn, m := r.mz true false false,
      instr := .srd { h := r.hdr, d := r.dOp, sreg := r.swrOps.sreg } }
  | 0xD5 => some { r.opA .bra with c := .fn, m := r.mz true false false, instr := .swr r.swrOps }
  | 0xD6 => some { r.opA .preempt with
      m := r.mz true false false,
      instr := if r.m4 then .preemptRes { h := r.hdr, a := r.aOp } else .preempt { h := r.hdr, a := r.aOp } }
  | 0xD7 => some (r.opA .spark)
  | 0xD8 => some (r.opAB .watch)
  | 0xD9 => some { r.op0 .nop with
      c := .fn, sub := r.f 10 8 = 0,
      instr := .bkpt { h := r.hdr, n := BitVec.ofNat 8 (r.f 7 0) } }
  | _ => none

/-- The layout of an allocated opcode (R203). -/
def layout (r : Raw) : Option Layout :=
  match r.op / 16 with
  | 0x0 => r.control
  | 0x1 | 0x2 => r.integer
  | 0x3 | 0x4 => r.floating
  | 0x5 => r.convert
  | 0x6 => r.cross
  | 0x7 => r.memory
  | 0x8 | 0x9 => r.atomic
  | 0xA | 0xB => r.matrix
  | 0xC | 0xD => r.system
  | _ => none

/-- Decoding the fields of a full word (R204, R428). -/
def decode (r : Raw) : Except Reject Instr :=
  match r.layout with
  | none => .error .opcode
  | some l => match r.reject l with
    | some e => .error e
    | none => .ok l.instr

end Raw

/-! ### Pair words (R199 to R202) -/

/-- A half of a pair word as numbers: OP7, D, S, access bit, M3. -/
structure RawHalf where
  op : Nat
  d : Nat
  s : Nat
  acc : Nat
  m3 : Nat
deriving DecidableEq, Repr

def RawHalf.word (h : RawHalf) : Nat := h.op * 2 ^ 24 + h.d * 2 ^ 14 + h.s * 2 ^ 4 + h.acc * 2 ^ 3 + h.m3
def RawHalf.ofWord (x : Nat) : RawHalf :=
  { op := bits x 30 24, d := bits x 23 14, s := bits x 13 4, acc := bits x 3 3, m3 := bits x 2 0 }
def RawHalf.half (h : RawHalf) (op : HalfOp) : Half :=
  { op := op, d := Fin.ofNat 1024 h.d, s := Fin.ofNat 1024 h.s, m3 := Fin.ofNat 8 h.m3 }
def Half.raw (x : Half) (acc : Bool) : RawHalf :=
  { op := x.op.code, d := x.d.val, s := x.s.val, acc := acc.toNat, m3 := x.m3.val }

/-- Decoding the halves of a pair word (R201, R428 conditions 2, 7, 8, 9). -/
def decodePair (hi lo : RawHalf) : Except Reject Instr :=
  match HalfOp.ofCode hi.op, HalfOp.ofCode lo.op with
  | some ho, some l =>
    let x := hi.half ho
    let y := lo.half l
    let rule := x.nopOk && y.nopOk && pairRule y x && decide (hi.acc = lo.acc)
    if !((ho = .nop || x.bitsOk) && (l = .nop || y.bitsOk)) then .error .unused
    else if !rule then .error .pair
    else if !(x.subOk && y.subOk) then .error .subfield
    else .ok (.pair { acc := decide (hi.acc = 1), hi := x, lo := y })
  | _, _ => .error .opcode

def PairOps.word (x : PairOps) : Nat := 2 ^ 62 + (x.hi.raw x.acc).word * 2 ^ 31 + (x.lo.raw x.acc).word

/-- Decoding a Lenrus word with the word that follows it (R190, R191). -/
def decodeWord (w lit : W64) : Except Reject Instr :=
  match bits w.toNat 63 62 with
  | 0 => (Raw.ofWord w.toNat none).decode
  | 1 => decodePair (.ofWord (bits w.toNat 61 31)) (.ofWord (bits w.toNat 30 0))
  | 2 => (Raw.ofWord w.toNat (some lit)).decode
  | _ => .error .frame

/-- Bytes that an instruction whose first word is `w` occupies (R191). -/
def wordSize (w : W64) : Nat := if bits w.toNat 63 62 = 2 then 16 else 8

/-! ### ZF words (R373) -/

/-- Fields of a ZF word. -/
structure ZfRaw where
  op : Nat
  d : Nat
  a : Nat
  imm : Nat
deriving DecidableEq, Repr

def ZfRaw.word (r : ZfRaw) : Nat := r.op * 2 ^ 26 + r.d * 2 ^ 21 + r.a * 2 ^ 16 + r.imm
def ZfRaw.ofWord (w : Nat) : ZfRaw := { op := bits w 31 26, d := bits w 25 21, a := bits w 20 16, imm := bits w 15 0 }

namespace ZfRaw

def b (r : ZfRaw) : Nat := bits r.imm 15 11
def fn (r : ZfRaw) : Nat := bits r.imm 10 0
def zImm (r : ZfRaw) : ZfImm := { d := Fin.ofNat 32 r.d, a := Fin.ofNat 32 r.a, imm := BitVec.ofNat 16 r.imm }
def regs (r : ZfRaw) : ZfRegs := { d := Fin.ofNat 32 r.d, a := Fin.ofNat 32 r.a, b := Fin.ofNat 32 r.b }
def transfer (r : ZfRaw) : ZfTransfer :=
  { d := Fin.ofNat 32 r.d, a := Fin.ofNat 32 r.a, b := Fin.ofNat 32 r.b, wf := Fin.ofNat 4 (bits r.fn 1 0),
    wbk := Fin.ofNat 4 (bits r.fn 3 2), sr := bit r.fn 4, lf := bit r.fn 5, ownFin := bit r.fn 6, acc := bit r.fn 7 }

/-- A transfer whose flags are all ones it takes, and whose unused fields are zero (R375, R503 kinds 2 and 5). -/
def xfer (r : ZfRaw) (useB sr lf own acc : Bool) (k : ZfTransfer → Instr) : Except Reject Instr :=
  if !(useB || decide (r.b = 0)) || !(decide (bits r.fn 10 8 = 0)) then .error .zfUnused
  else if (r.transfer.sr && !sr) || (r.transfer.lf && !lf) || (r.transfer.ownFin && !own) || (r.transfer.acc && !acc) then
    .error .zfFlag
  else .ok (k r.transfer)

def need (ok : Bool) (i : Instr) : Except Reject Instr := if ok then .ok i else .error .zfUnused

def decode (r : ZfRaw) : Except Reject Instr :=
  match r.op with
  | 0x01 => .ok (.movi r.zImm)
  | 0x02 => .ok (.addi r.zImm)
  | 0x03 => need (r.fn = 0) (.zfAdd r.regs)
  | 0x04 => need (r.fn = 0) (.zfSub r.regs)
  | 0x08 => .ok (.beq r.zImm)
  | 0x09 => .ok (.bne r.zImm)
  | 0x0A => need (decide (r.d = 0) && decide (r.a = 0)) (.zfBra (BitVec.ofNat 16 r.imm))
  | 0x10 => r.xfer true true true true false .xsend
  | 0x11 => r.xfer false false true false true .xrecv
  | 0x12 => r.xfer true true true true false .xred
  | 0x13 => r.xfer false false false false false .xfwd
  | 0x18 => need (decide (r.d = 0) && decide (bits r.fn 10 3 = 0))
      (.cwait { a := Fin.ofNat 32 r.a, b := Fin.ofNat 32 r.b, scope := Fin.ofNat 8 (bits r.fn 2 0) })
  | 0x19 =>
    if bit r.fn 0 then
      if !(decide (bits r.fn 10 5 = 0)) then .error .zfUnused
      else if !(decide (bits r.fn 4 2 = 5)) then .error .zfScope
      else .ok (.cadvRmt { d := Fin.ofNat 32 r.d, a := Fin.ofNat 32 r.a, b := Fin.ofNat 32 r.b, rel := bit r.fn 1 })
    else need (decide (r.d = 0) && decide (bits r.fn 10 5 = 0))
      (.cadv { a := Fin.ofNat 32 r.a, b := Fin.ofNat 32 r.b, rel := bit r.fn 1, scope := Fin.ofNat 8 (bits r.fn 4 2) })
  | 0x1A => need (decide (r.d = 0) && decide (bits r.fn 10 5 = 0) && !bit r.fn 0)
      (.cadd { a := Fin.ofNat 32 r.a, b := Fin.ofNat 32 r.b, rel := bit r.fn 1, scope := Fin.ofNat 8 (bits r.fn 4 2) })
  | 0x20 => need (r.fn = 0) (.embBind r.regs)
  | 0x21 => need (decide (r.d = 0) && decide (bits r.fn 10 1 = 0))
      (.embFold { a := Fin.ofNat 32 r.a, b := Fin.ofNat 32 r.b, lbf16 := bit r.fn 0 })
  | 0x3F => need (decide (r.d = 0) && decide (r.a = 0) && decide (r.imm = 0)) .zfDone
  | _ => .error .zfOpcode

end ZfRaw

/-- Decoding a ZF word (R373, R503). -/
def decodeZf (w : W32) : Except Reject Instr := (ZfRaw.ofWord w.toNat).decode

/-! ### Encoding -/

/-- The fields of a full word with the header and the named fields; the fields left out hold 0x490 (R196). -/
def Hdr.raw (h : Hdr) (op d a b c m : Nat) : Raw :=
  { op := op, ps := h.ps.val, pn := h.pn.toNat, d := d, a := a, b := b, c := c, m := h.acc.toNat * 32 + m, lit := h.lit }

def Op0.fields (x : Op0) (op : Nat) : Raw := x.h.raw op 0x490 0x490 0x490 0x490 0
def OpA.fields (x : OpA) (op m : Nat) : Raw := x.h.raw op 0x490 x.a.code 0x490 0x490 m
def OpD.fields (x : OpD) (op c : Nat) : Raw := x.h.raw op x.d.code 0x490 0x490 c 0
def OpDA.fields (x : OpDA) (op : Nat) : Raw := x.h.raw op x.d.code x.a.code 0x490 0x490 0
def OpAB.fields (x : OpAB) (op c : Nat) : Raw := x.h.raw op 0x490 x.a.code x.b.code c 0
def OpDAB.fields (x : OpDAB) (op c m : Nat) : Raw := x.h.raw op x.d.code x.a.code x.b.code c m
def IntOps.fields (x : IntOps) (op : Nat) : Raw :=
  x.h.raw op x.d.code x.a.code x.b.code x.c.code (x.w64.toNat * 16 + x.sat.toNat * 8 + x.sgn.toNat)
def FloatOps.fields (x : FloatOps) (op : Nat) : Raw :=
  x.h.raw op x.d.code x.a.code x.b.code x.c.code (x.sat.toNat * 8 + x.mode.code)
def FMinMaxOps.fields (x : FMinMaxOps) (op : Nat) : Raw := x.h.raw op x.d.code x.a.code x.b.code 0x490 x.num.toNat
def FcmpOps.fields (x : FcmpOps) (op : Nat) : Raw := x.h.raw op x.d.code x.a.code x.b.code x.cond.code 0
def HalfOps.fields (x : HalfOps) (op : Nat) : Raw :=
  x.h.raw op x.d.code x.a.code x.b.code x.c.code (x.f16.toNat * 16 + x.sat.toNat * 8 + x.mode.code)
def HMinMaxOps.fields (x : HMinMaxOps) (op : Nat) : Raw :=
  x.h.raw op x.d.code x.a.code x.b.code 0x490 (x.f16.toNat * 16 + x.num.toNat)
def CvtNarrowOps.fields (x : CvtNarrowOps) (op : Nat) : Raw :=
  x.h.raw op x.d.code x.a.code x.b.code x.c.code (x.alt.toNat * 16 + x.sat.toNat * 8 + x.mode.code)
def GroupOps.fields (x : GroupOps) (op scale : Nat) : Raw :=
  x.h.raw op x.d.code x.a.code x.b.code (scale * 16 + x.fmt.code) (x.sat.toNat * 8 + x.mode.code)
def SumOps.fields (x : SumOps) (op : Nat) : Raw :=
  x.h.raw op x.d.code x.a.code 0x490 (x.ty.code * 32 + x.cv.val) (x.excl.toNat * 16 + x.sat.toNat * 8 + x.mode.code)
def MemOps.fields (x : MemOps) (op : Nat) : Raw :=
  x.h.raw op x.d.code x.a.code x.b.code (x.scope.code * 16 + x.ty.code) x.order.code
def AtomOps.fields (x : AtomOps) (op : Nat) : Raw :=
  x.h.raw op x.d.code x.a.code x.b.code (x.scope.code * 32 + x.op.code) x.order.code
def CasOps.fields (x : CasOps) (op : Nat) : Raw :=
  x.h.raw op x.d.code x.a.code x.b.code (x.scope.code * 32) x.order.code
def CtrOps.fields (x : CtrOps) (op : Nat) : Raw :=
  x.h.raw op x.d.code x.a.code x.b.code (x.scope.code * 2 + x.scratch.toNat) x.order.code
def CopyOps.fields (x : CopyOps) (op : Nat) : Raw :=
  x.h.raw op 0x490 x.a.code x.b.code x.c.code (x.csp.toNat * 16 + x.sat.toNat * 8 + x.mode.code)
def MmaOps.fields (x : MmaOps) (op : Nat) : Raw :=
  x.h.raw op x.d.code x.a.code x.b.code (x.tile.val * 32 + x.cv.val)
    (x.csp.toNat * 16 + x.aScr.toNat * 4 + x.bScr.toNat * 2)
def TileWriteOps.fields (x : TileWriteOps) (op : Nat) : Raw :=
  x.h.raw op 0x490 x.a.code x.b.code (x.tile.val * 32 + x.cv.val) (x.raw.toNat * 16 + x.mode.code)
def TileReadOps.fields (x : TileReadOps) (op : Nat) : Raw :=
  x.h.raw op x.d.code x.a.code 0x490 (x.tile.val * 32 + x.cv.val) (x.raw.toNat * 16 + x.sat.toNat * 8 + x.mode.code)
def TileMoveOps.fields (x : TileMoveOps) (op : Nat) : Raw :=
  x.h.raw op x.d.code x.a.code 0x490 (x.tile.val * 32 + x.fmt.code) (x.csp.toNat * 16 + x.sat.toNat * 8 + x.mode.code)
def SwrOps.fields (x : SwrOps) : Raw :=
  x.h.raw 0xD5 0x490 x.a.code 0x490 (x.sreg.toNat % 2048) (x.sreg.toNat / 2048 * 16)

/-- The fields of a full instruction's word (R192, R203); none for a pair word, a ZF word, a command or an event. An
SWR that has a row of its own is the word of SWR. -/
def Instr.fields : Instr → Option Raw
  | .nop x => some (x.fields 0x00)
  | .bra x => some (x.fields 0x01 0)
  | .brx x => some (x.fields 0x02 0)
  | .brq x => some (x.fields 0x03 0)
  | .call x => some (x.fields 0x04)
  | .ret x => some (x.fields 0x05 0)
  | .skip x => some (x.h.raw 0x06 0x490 0x490 0x490 x.n.val 0)
  | .exit x => some (x.fields 0x07)
  | .yield x => some (x.fields 0x08)
  | .sign x => some (x.h.raw 0x09 x.d.code 0x490 0x490 x.cv.val 0)
  | .cvset x => some (x.h.raw 0x0A 0x490 x.a.code x.b.code x.cv.val 0)
  | .prio x => some (x.fields 0x0B 0)
  | .mov x => some (x.fields 0x10)
  | .sel x => some (x.fields 0x11)
  | .iadd x => some (x.fields 0x12)
  | .isub x => some (x.fields 0x13)
  | .imul x => some (x.fields 0x14)
  | .imulh x => some (x.fields 0x15)
  | .imad x => some (x.fields 0x16)
  | .imin x => some (x.fields 0x17)
  | .imax x => some (x.fields 0x18)
  | .iabs x => some (x.fields 0x19)
  | .and x => some (x.fields 0x1A)
  | .or x => some (x.fields 0x1B)
  | .xor x => some (x.fields 0x1C)
  | .shl x => some (x.fields 0x1D)
  | .shr x => some (x.fields 0x1E)
  | .sar x => some (x.fields 0x1F)
  | .popc x => some (x.fields 0x20)
  | .clz x => some (x.fields 0x21)
  | .brev x => some (x.fields 0x22)
  | .bfe x => some (x.fields 0x23)
  | .bfi x => some (x.fields 0x24)
  | .icmp x => some (x.h.raw 0x25 x.d.code x.a.code x.b.code x.cond.code (x.w64.toNat * 16 + x.sgn.toNat))
  | .lea x => some (x.h.raw 0x26 x.d.code x.a.code x.b.code x.k.val x.sgn.toNat)
  | .fadd x => some (x.fields 0x30)
  | .fsub x => some (x.fields 0x31)
  | .fmul x => some (x.fields 0x32)
  | .fma x => some (x.fields 0x33)
  | .fmin x => some (x.fields 0x34)
  | .fmax x => some (x.fields 0x35)
  | .fcmp x => some (x.fields 0x36)
  | .frnd x => some (x.h.raw 0x37 x.d.code x.a.code 0x490 0x490 x.mode.code)
  | .dadd x => some (x.fields 0x38)
  | .dsub x => some (x.fields 0x39)
  | .dmul x => some (x.fields 0x3A)
  | .dfma x => some (x.fields 0x3B)
  | .dmin x => some (x.fields 0x3C)
  | .dmax x => some (x.fields 0x3D)
  | .dcmp x => some (x.fields 0x3E)
  | .hadd2 x => some (x.fields 0x40)
  | .hsub2 x => some (x.fields 0x41)
  | .hmul2 x => some (x.fields 0x42)
  | .hfma2 x => some (x.fields 0x43)
  | .hmin2 x => some (x.fields 0x44)
  | .hmax2 x => some (x.fields 0x45)
  | .hcmp2 x => some (x.h.raw 0x46 x.d.code x.a.code x.b.code x.cond.code (x.f16.toNat * 16))
  | .exp2 x => some (x.fields 0x48)
  | .log2 x => some (x.fields 0x49)
  | .rcp x => some (x.fields 0x4A)
  | .rsq x => some (x.fields 0x4B)
  | .sqrt x => some (x.fields 0x4C)
  | .tanh x => some (x.fields 0x4D)
  | .cvt x => some (x.h.raw 0x50 x.d.code x.a.code x.b.code (x.src.code * 16 + x.dst.code) (x.sat.toNat * 8 + x.mode.code))
  | .cvtF8 x => some (x.fields 0x51)
  | .cvtF6 x => some (x.fields 0x52)
  | .cvtF4 x => some (x.fields 0x53)
  | .mxqScale x => some (x.fields 0x54 1)
  | .mxq x => some (x.fields 0x54 0)
  | .mxd x => some (x.fields 0x55 0)
  | .unpk x => some (x.fields 0x56 0)
  | .pack x => some (x.h.raw 0x57 x.d.code x.a.code x.b.code x.f16.toNat (x.sat.toNat * 8 + x.mode.code))
  | .qx x => some (x.h.raw 0x60 x.d.code x.a.code x.b.code (x.xor.toNat * 32 + x.cv.val) 0)
  | .perm x => some (x.h.raw 0x61 x.d.code x.a.code x.b.code x.cv.val 0)
  | .ptld x => some (x.fields 0x62 0)
  | .vote x => some (x.h.raw 0x63 x.d.code x.a.code 0x490 (x.mode.code * 32 + x.cv.val) 0)
  | .wsum x => some (x.fields 0x64)
  | .wmax x => some (x.h.raw 0x65 x.d.code x.a.code 0x490 (x.ty.code * 32 + x.cv.val) (x.min.toNat * 16))
  | .wscan x => some (x.fields 0x66)
  | .ldG x => some (x.fields 0x70)
  | .ldS x => some (x.fields 0x71)
  | .stG x => some (x.fields 0x72)
  | .stS x => some (x.fields 0x73)
  | .pref x => some (x.h.raw 0x74 0x490 x.a.code x.b.code x.kind.code 0)
  | .llcLock x => some (x.fields 0x75 0x490 0)
  | .llcUnlock x => some (x.fields 0x76 0 0)
  | .llcUnlockAll x => some (x.fields 0x76 1)
  | .fence x => some (x.h.raw 0x77 0x490 0x490 0x490 x.scope.code x.order.code)
  | .atomG x => some (x.fields 0x80)
  | .atomS x => some (x.fields 0x81)
  | .atomCasG x => some (x.fields 0x82)
  | .atomCasS x => some (x.fields 0x83)
  | .atomCas64G x => some (x.fields 0x84)
  | .atomCas64S x => some (x.fields 0x85)
  | .ctrInit x => some (x.h.raw 0x88 0x490 x.a.code x.b.code
      (x.rscope.val * 256 + x.pclass.val * 16 + x.scope.code * 2 + x.scratch.toNat) x.order.code)
  | .ctrAdd x => some (x.fields 0x89)
  | .ctrMax x => some (x.fields 0x8A)
  | .ctrWait x => some (x.fields 0x8B)
  | .ctrRd x => some (x.fields 0x8C)
  | .qcfg x => some (x.h.raw 0x8E 0x490 x.a.code x.b.code x.port.val 0)
  | .copyLd x => some (x.fields 0x90)
  | .copySt x => some (x.fields 0x91)
  | .copyCp x => some (x.fields 0x92)
  | .tcfg x => some (x.h.raw 0xA0 0x490 x.a.code 0x490 (x.tile.val * 32) 0)
  | .tcfgFree x => some (x.h.raw 0xA0 0x490 0x490 0x490 (x.tile.val * 32) 16)
  | .tzero x => some (x.h.raw 0xA1 0x490 0x490 0x490 (x.tile.val * 32) 0)
  | .mma x => some (x.fields 0xA2)
  | .mmd x => some (x.fields 0xA3)
  | .twrr x => some (x.fields 0xA4)
  | .twrc x => some (x.fields 0xA5)
  | .trdr x => some (x.fields 0xA6)
  | .trdc x => some (x.fields 0xA7)
  | .tld x => some (x.fields 0xA8)
  | .tst x => some (x.fields 0xA9)
  | .tepi x => some (x.h.raw 0xAA x.d.code x.a.code x.b.code (x.tile.val * 32) (x.sat.toNat * 8 + x.mode.code))
  | .seed x => some (x.fields 0xAB 0)
  | .seedS x => some (x.h.raw 0xAB 0x490 0x490 x.b.code 0 16)
  | .adamw x => some (x.h.raw 0xB0 x.d.code x.a.code x.b.code 0x490 (x.bf16.toNat * 16 + x.sr.toNat * 4))
  | .kstep x => some (x.fields 0xB8 0x490)
  | .ksig x => some (x.fields 0xB9 0x490)
  | .ktest x => some (x.fields 0xBA)
  | .kreuse x => some (x.fields 0xBB)
  | .kmap x => some (x.fields 0xBC 0x490 0)
  | .kmapSrc x => some (x.fields 0xBC 0x490 16)
  | .kend x => some (x.h.raw 0xBD x.d.code 0x490 0x490 0x490 (x.csp.toNat * 16))
  | .launch x => some (x.fields 0xC0)
  | .taskRange x => some (x.fields 0xC1)
  | .taskNext x => some (x.fields 0xC2 0x490)
  | .taskGet x => some (x.fields 0xC3 0x490)
  | .taskDone x => some (x.fields 0xC4)
  | .kindle x => some (x.h.raw 0xC5 0x490 x.a.code x.b.code 0x490 (x.region.toNat * 16))
  | .svc x => some (x.h.raw 0xD0 x.d.code x.a.code x.b.code (x.fn.val * 32 + x.cv.val) 0)
  | .svcWait x => some (x.fields 0xD1)
  | .trap x => some (x.fields 0xD2 0)
  | .eret x => some (x.fields 0xD3)
  | .bkpt x => some (x.h.raw 0xD9 0x490 0x490 0x490 x.n.toNat 0)
  | .srd x => some (x.h.raw 0xD4 x.d.code 0x490 0x490 (x.sreg.toNat % 2048) (x.sreg.toNat / 2048 * 16))
  | .swr x => some (x.fields)
  | .preempt x => some (x.fields 0xD6 0)
  | .preemptRes x => some (x.fields 0xD6 16)
  | .spark x => some (x.fields 0xD7 0)
  | .watch x => some (x.fields 0xD8 0x490)
  | .tlbinvPage x => some (x.fields)
  | .tlbinvContext x => some (x.fields)
  | .tlbinvAll x => some (x.fields)
  | .svcqRingReset x => some (x.fields)
  | .svcdoneReply x => some (x.fields)
  | .spillReplay x => some (x.fields)
  | .spillAbort x => some (x.fields)
  | .sequencerResume x => some (x.fields)
  | .sequencerAbort x => some (x.fields)
  | .wpsClear x => some (x.fields)
  | .pair _ | .tlbinvComplete _ | .movi _ | .addi _ | .zfAdd _ | .zfSub _ | .beq _ | .bne _ | .zfBra _
  | .xsend _ | .xrecv _ | .xred _ | .xfwd _ | .cwait _ | .cadv _ | .cadvRmt _ | .cadd _ | .embBind _
  | .embFold _ | .zfDone | .image _ | .memwr _ | .memrd _ | .ctrmax _ | .ctxnew _ | .rootgo _ | .seqgo _
  | .portcfg _ | .keyload _ | .snaprd _ | .akoonSpark _ | .power _ | .resetDevice _ | .resetContext _
  | .akoonUnknownCommand _ _ | .powerUp | .launchAdmission _ _ | .generationIssue _ | .pathDue _
  | .counterWaitComplete _ | .queueWaitComplete _ | .serviceReplyComplete _ | .serviceSlotFree _
  | .starvationExpiry _ | .kindlingDispatch _ _ | .workerAdmission _ _ | .contextSave _ | .contextResume _
  | .loadValueReturn _ | .pageWalkComplete _ | .llcRequestServe _ | .orientationTurnComplete _
  | .sectorEviction _ | .class3Aging _ _ | .hostFillComplete _ _ | .hostFillTimeout _ | .wbStallRetry _
  | .ownershipRecallComplete _ _ | .ownershipWindow _ | .copyCommandAccept _ | .copyComplete _
  | .matrixOpComplete _ _ | .tileTransferComplete _ _ | .governorWindow _ | .dieBudgetWindow _
  | .kilnOperation _ | .kendComplete _ | .frameSend _ | .frameReceive _ _ | .linkAckSend _ | .linkAckReceive _ _
  | .linkNackReceive _ _ | .retryTimeout _ | .replayDone _ | .keyRollover _ | .keyloadApply _
  | .portMode0Drain _ | .laneLockLoss _ _ | .retrainComplete _ | .retrainTimeout _ | .putPacketReceive _
  | .getRequestReceive _ | .getReplyReceive _ | .remoteAdvanceReceive _ | .transportAckReceive _ _
  | .transportNackReceive _ _ _ | .transportResendTimeout _ _ | .remoteAdvanceSend _ | .cwaitComplete _
  | .sequencerWaitExpiry _ | .coreControlError _ _ | .tileControlError _ _ _ | .notAnInstruction _
  | .fetchFault _ _ | .zfOpcodeNotAllocated _ | .zfWordNotFetched | .creditGrant _ _ _ | .hostWriteAnswer _ _
  | .hostWriteTimeout _ => none

def ZfTransfer.fields (x : ZfTransfer) (op : Nat) : ZfRaw :=
  { op := op, d := x.d.val, a := x.a.val,
    imm := x.b.val * 2048 + x.acc.toNat * 128 + x.ownFin.toNat * 64 + x.lf.toNat * 32 + x.sr.toNat * 16
             + x.wbk.val * 4 + x.wf.val }
def ZfImm.fields (x : ZfImm) (op : Nat) : ZfRaw := { op := op, d := x.d.val, a := x.a.val, imm := x.imm.toNat }
def ZfRegs.fields (x : ZfRegs) (op : Nat) : ZfRaw := { op := op, d := x.d.val, a := x.a.val, imm := x.b.val * 2048 }
def ZfAdv.fields (x : ZfAdv) (op : Nat) : ZfRaw :=
  { op := op, d := 0, a := x.a.val, imm := x.b.val * 2048 + x.scope.val * 4 + x.rel.toNat * 2 }

/-- The fields of a ZF word (R373); none for any other step. -/
def zfFields (i : Instr) : Option ZfRaw :=
  match i with
  | .movi x => some (x.fields 0x01)
  | .addi x => some (x.fields 0x02)
  | .zfAdd x => some (x.fields 0x03)
  | .zfSub x => some (x.fields 0x04)
  | .beq x => some (x.fields 0x08)
  | .bne x => some (x.fields 0x09)
  | .zfBra imm => some { op := 0x0A, d := 0, a := 0, imm := imm.toNat }
  | .xsend x => some (x.fields 0x10)
  | .xrecv x => some (x.fields 0x11)
  | .xred x => some (x.fields 0x12)
  | .xfwd x => some (x.fields 0x13)
  | .cwait x => some { op := 0x18, d := 0, a := x.a.val, imm := x.b.val * 2048 + x.scope.val }
  | .cadv x => some (x.fields 0x19)
  | .cadvRmt x => some { op := 0x19, d := x.d.val, a := x.a.val, imm := x.b.val * 2048 + 20 + x.rel.toNat * 2 + 1 }
  | .cadd x => some (x.fields 0x1A)
  | .embBind x => some (x.fields 0x20)
  | .embFold x => some { op := 0x21, d := 0, a := x.a.val, imm := x.b.val * 2048 + x.lbf16.toNat }
  | .zfDone => some { op := 0x3F, d := 0, a := 0, imm := 0 }
  | _ => none

/-- The words of a step that has an encoding. -/
inductive Words
  | lenrus (w : W64) (lit : Option W64)
  | zf (w : W32)
deriving DecidableEq, Repr

/-- The words of a well-formed instruction (R189 to R203, R373); none for commands and events. -/
def encode (i : Instr) : Option Words :=
  match i with
  | .pair x => some (.lenrus (BitVec.ofNat 64 x.word) none)
  | _ =>
    match i.fields with
    | some r => some (.lenrus (BitVec.ofNat 64 r.word) r.lit)
    | none => (zfFields i).map (fun r => .zf (BitVec.ofNat 32 r.word))

/-- The instruction that words stand for. -/
def decodeWords : Words → Except Reject Instr
  | .lenrus w lit => decodeWord w (lit.getD 0)
  | .zf w => decodeZf w

/-- An SWR that has a row of its own decodes as SWR: which row it is can depend on the value written (R337). -/
def Instr.asWord : Instr → Instr
  | .tlbinvPage x | .tlbinvContext x | .tlbinvAll x | .svcqRingReset x | .svcdoneReply x | .spillReplay x
  | .spillAbort x | .sequencerResume x | .sequencerAbort x | .wpsClear x => .swr x
  | i => i

/-- The instruction in a table word of `nbits` bits: 32 bits are a ZF word (R373); 64 bits a Lenrus word, followed by
zeros where it is a literal frame, and 128 bits a literal frame with its literal word (R190). -/
def decodeTableWord (nbits w : Nat) : Option Instr :=
  let r := if nbits ≤ 32 then decodeZf (BitVec.ofNat 32 (w % 2 ^ nbits))
           else decodeWord (BitVec.ofNat 64 (w % 2 ^ nbits)) (BitVec.ofNat 64 (w % 2 ^ nbits / 2 ^ 64))
  match r with
  | .ok i => some i
  | .error _ => none

end Sys2Proof
end

