-- ==== Sys2Proof/Config.lean ====
section
/-! DEFINITION. Config.lean: what is fixed for the part (R12 to R15, R100) and the free values of the model
(values that the spec leaves open; each is an opaque constant, so nothing can be proved of it). -/

namespace Sys2Proof.Config

/-- Counts of blocks (R12, R14). -/
def cores : Nat := 192
def clusters : Nat := 48
def lanes : Nat := 128
def llcSlices : Nat := 256
def ports : Nat := 36
def seqContexts : Nat := 128
/-- Task records per cluster (R88). -/
def poolSize : Nat := 256
/-- Granules of 64 KiB in a core's SRAM pool (R63). -/
def poolGranules : Nat := 48
def granuleBytes : Nat := 65536
/-- Warps one lane hosts (R24). -/
def warpsPerLane : Nat := 8
/-- Pending launches of a context (R323). -/
def maxPending : Nat := 1024
/-- Commands that a copy engine holds (R281). -/
def copyAccepted : Nat := 64
/-- Operation slots of a group (R101). -/
def groupSlots : Nat := 32

/-- FREE VALUE (log 3): which of its possible values a byte of an accumulator partition holds that no operation has written (R294),
by the group's key and the byte's offset. -/
opaque freeAcc : Nat → Nat → Nat
/-- FREE VALUE (log 3): the bytes that a failed HOST write leaves in the control node's memory (R469). -/
opaque freeHostByte : Nat → Nat → BitVec 8
/-- FREE VALUE (log 3): a byte of an operation slot of a save area, for which the spec gives a content but no layout (R101), by what
the slot holds and the byte's offset. -/
opaque slotByte : List Nat → Nat → BitVec 8
/-- FREE VALUE (log 3): the draw of a uniform stochastic conversion, whose element no rule names (R26, R241), by the
model's counter. -/
opaque freeDraw : Nat → BitVec 16
/-- FREE VALUE (log 3): a reading of a sensor (R391), by the model's counter and the place of the count. -/
opaque freeSensor : Nat → Nat → BitVec 64
/-- FREE VALUE (log 3): the code that LLC.LOCK returns for a sector that another context holds locked (R267), by the model's
counter. -/
opaque freeCode : Nat → BitVec 32
/-- FREE VALUE (log 3): a 64-bit result that the spec does not state, by the model's counter. -/
opaque freeWord : Nat → BitVec 64
/-- FREE VALUE (log 7): the port over which NSCC sends a packet of an RUD peer, by packet number, out of n (R346). -/
opaque nsccChoice : Nat → Nat → Nat

/-- FREE VALUE (log 3): a byte of a stored frame in a retry window or a receive buffer, which is encrypted (R344, R349), by the model's
counter and its offset. -/
opaque freeFrame : Nat → Nat → BitVec 8
/-- FREE VALUE (log 52): units of 64 bytes that an on-die receive buffer holds, and those of a receive buffer of n units that are the
control reserve (R352). -/
opaque rxUnits : Nat
opaque ctlReserve : Nat → Nat

/-- The 32-bit check that the management controller makes of its image (R386), whose polynomial the spec does not give (log 3). -/
opaque imageCrc : List (BitVec 8) → BitVec 32

/-- What tells this device from others in a packet (R345, R498; log 5). -/
opaque self : Nat

end Sys2Proof.Config
end

