-- ==== Sys2Proof/Machine/Store.lean ====
section
/-! DEFINITION. Store.lean: sparse stores as lists of (key, value) pairs in one canonical form: keys strictly
rising, and no value equal to what an unlisted key reads as. -/

namespace Sys2Proof.Machine

variable {α : Type} [DecidableEq α]

/-- What a key reads as; `d` is the value of an unlisted key. -/
def sget (d : α) : List (Nat × α) → Nat → α
  | [], _ => d
  | (k, v) :: t, n => if n = k then v else sget d t n

/-- The store without a key. -/
def sdel : List (Nat × α) → Nat → List (Nat × α)
  | [], _ => []
  | (k, v) :: t, n => if n = k then sdel t n else (k, v) :: sdel t n

/-- The store with one key put before the first higher one. -/
def sput : List (Nat × α) → Nat → α → List (Nat × α)
  | [], n, x => [(n, x)]
  | (k, v) :: t, n, x => if n < k then (n, x) :: (k, v) :: t else (k, v) :: sput t n x

/-- The store with one key written; writing `d` removes the entry. -/
def sset (d : α) (l : List (Nat × α)) (n : Nat) (x : α) : List (Nat × α) := if x = d then sdel l n else sput (sdel l n) n x

/-- Every key of the store is above `n`. -/
def sabove (n : Nat) : List (Nat × α) → Bool
  | [] => true
  | (k, _) :: _ => n < k

/-- The canonical form. -/
def swf (d : α) : List (Nat × α) → Bool
  | [] => true
  | (k, v) :: t => !(decide (v = d)) && sabove k t && swf d t

/-- A set of numbers in canonical form: strictly rising. -/
def setMem : List Nat → Nat → Bool
  | [], _ => false
  | k :: t, n => if n = k then true else setMem t n

def setIns : List Nat → Nat → List Nat
  | [], n => [n]
  | k :: t, n => if n = k then k :: t else if n < k then n :: k :: t else k :: setIns t n

def setDel : List Nat → Nat → List Nat
  | [], _ => []
  | k :: t, n => if n = k then setDel t n else k :: setDel t n

/-- Put a number in or take it out. -/
def setPut (l : List Nat) (n : Nat) (b : Bool) : List Nat := if b then setIns l n else setDel l n

def setwf : List Nat → Bool
  | [] => true
  | [_] => true
  | a :: b :: t => a < b && setwf (b :: t)

/-- The first element that satisfies `p`, with its index. -/
def findIdx' {β : Type} (p : β → Bool) : List β → Nat → Option (Nat × β)
  | [], _ => none
  | x :: t, i => if p x then some (i, x) else findIdx' p t (i + 1)

/-- Replace every element that satisfies `p`. -/
def mapIf {β : Type} (p : β → Bool) (f : β → β) (l : List β) : List β := l.map (fun x => if p x then f x else x)

end Sys2Proof.Machine
end

