-- ==== Sys2Proof/Machine/State.lean ====
section
/-! DEFINITION. State.lean: everything the spec gives the machine, as plain data, and the state after reset (R386).
Lists of numbered things that are mostly at their reset value are sparse stores in the canonical form of Store.lean. -/

namespace Sys2Proof.Machine

/-! ### Threads, paths and convergence -/

/-- A 32-bit register word with its poison tag (R113, R415). -/
structure Reg where
  val : W32
  bad : Bool
deriving DecidableEq, Repr

/-- A register at group start (R87). -/
def Reg.zero : Reg := ⟨0, false⟩

/-- Live, helper, parked or ended (R49 to R52). -/
inductive Life
  | live | helper | parked | ended
deriving DecidableEq, Repr

/-- A thread (R21, R30): registers, predicates and their tags, queues of a .dae launch, level (R320). -/
structure Thread where
  v : List (Nat × Reg)
  p : BitVec 7
  pBad : BitVec 7
  life : Life
  /-- Its execute and its access stream have executed EXIT (R57); outside .dae only the first is used. -/
  exitE : Bool
  exitA : Bool
  /-- sv.iter (R29). -/
  iter : W32
  /-- Data queues q0 to q7, first entry first (R55). -/
  q : List (Nat × List Reg)
  /-- Branch queue (R56): each entry with its poison tag (R415). -/
  br : List (Bool × Bool)
  /-- Supervisor level (R320). -/
  super : Bool
  /-- It has entered by a trap and not returned (R335, R447). -/
  trapped : Bool
deriving DecidableEq, Repr

/-- A thread at group start (R87). -/
def Thread.start (super : Bool) : Thread :=
  { v := [], p := 0, pBad := 0, life := .live, exitE := false, exitA := false, iter := 0, q := [], br := [],
    super := super, trapped := false }

/-- States of a path (R32). -/
inductive PathSt
  | ready | signed | counterWait | queueWait | serviceWait
deriving DecidableEq, Repr

/-- One test of a counter wait (R275): position, address, the counter's place (physical, or a scratchpad offset), target. -/
structure CtrTest where
  pos : Nat
  addr : W64
  phys : Option Nat
  target : W64
deriving DecidableEq, Repr

/-- What an instruction needs of a port (R55, R56, R58): port 0 to 15, or 16 for the branch queue; entries for each thread;
of a push, entries that the same instruction pops there. -/
structure Need where
  port : Nat
  push : Bool
  n : Nat
  less : Nat
  ts : List Nat
deriving DecidableEq, Repr

/-- What a waiting path waits on (R32): the instruction, its size in bytes and what it captured. -/
structure Wait where
  instr : Instr
  size : Nat
  tests : List CtrTest
  /-- Taking threads of SVC.WAIT with their tickets (R332). -/
  tickets : List (Nat × W32)
  /-- What a queue wait needs. -/
  needs : List Need
  /-- Wait kind of R434 and the address concerned. -/
  kind : Nat
  addr : W64
deriving DecidableEq, Repr

/-- A path-table entry (R31), with the model's own fields: the wait's captured operands, the yield mark (R226), and
whether its own instruction occupies the lane (R74). -/
structure Path where
  st : PathSt
  skn : Nat
  age : Nat
  cvi : CvField
  access : Bool
  pc : W64
  skmask : W64
  tmask : W64
  timer : Nat
  yielded : Bool
  own : Bool
  /-- Threads that have still to perform the instruction that the others have performed (R157); 0 for none. -/
  redo : W64
  wait : Option Wait
deriving DecidableEq, Repr

/-- A signature in an armed generation (R44, R45): warp, position, whether its guard was true, whether it was poisoned
(R517). -/
structure Signer where
  w : Nat
  pos : Nat
  taking : Bool
  bad : Bool
deriving DecidableEq, Repr

/-- A convergence register (R41), with the signed instruction and its signers while it is armed. -/
structure Conv where
  gen : W32
  pend : Nat
  armed : Bool
  spc : W64
  wmask : W64
  tmask : W64
  instr : Option Instr
  size : Nat
  signers : List Signer
  /-- The issue is delayed and waits for an operation slot, a queue port or a service slot (R250, R298, R331). -/
  svcWait : Bool
  /-- The issue is held back, by a page at WB (R157), by earlier tile operations (R291) or by memory: its members are in no wait. -/
  stalled : Bool
  /-- Its place among the operations on its tiles, once every member has signed (R291); 0 for none. -/
  place : Nat
deriving DecidableEq, Repr

def Conv.idle : Conv :=
  { gen := 0, pend := 0, armed := false, spc := 0, wmask := 0, tmask := 0, instr := none, size := 0, signers := [],
    svcWait := false, stalled := false, place := 0 }

/-- A region that KINDLE has staged, or that a task record carries (R328, R329, R89). -/
structure Region where
  base : W64
  str : W32
  ext : BitVec 16
  soff : BitVec 16
deriving DecidableEq, Repr

def Region.none : Region := ⟨0, 0, 0, 0⟩

/-- A warp (R21, R24, R102). `threads` holds the positions that exist (R22); `slot` is its warp slot of the lane (R63, R73);
`occ` is what is left of the occupation of its lane (R25). -/
structure Warp where
  wid : Nat
  lane : Nat
  slot : Nat
  w : List (Nat × Reg)
  cvw : Conv
  paths : List Path
  threads : List Thread
  reg0 : Region
  reg1 : Region
  poisonOrigin : W64
  occ : Nat
deriving DecidableEq, Repr

/-! ### Groups, launches, tasks -/

/-- Progress classes (R60). -/
inductive Cls
  | c | p | w
deriving DecidableEq, Repr

/-- Views of an accumulator tile (R109, R293). -/
inductive View
  | a56 | fp32 | n12
deriving DecidableEq, Repr

/-- A bound tile (R290, R293). -/
structure Tile where
  unit : Nat
  rows : Nat
  cols : Nat
  view : View
  k : Nat
  fa : Fmt
  fb : Fmt
  sa : Bool
  sb : Bool
  /-- Partition offset in 8-byte elements. -/
  off : Nat
  dirty : Bool
deriving DecidableEq, Repr

/-- An accumulator element (R290, R415): its 8 bytes, none until an operation writes it (R294), and its tag. -/
structure AccEl where
  val : Option W64
  bad : Bool
deriving DecidableEq, Repr

def AccEl.unwritten : AccEl := ⟨none, false⟩

/-- A matrix operand as captured at issue (R296, R297, R186). -/
inductive MatSrc
  | regs (runs : List (List Reg))
  | scratch (base rp tpitch rot : Nat) (scaled : Bool)
  /-- An operand that the operation does not have. -/
  | absent
deriving DecidableEq, Repr

/-- The asynchronous tile operations (R298, R302, R306). -/
inductive MatKind
  | mma | mmd | tld | tst
deriving DecidableEq, Repr

/-- A tile operation in a slot (R101, R298): its captured operands, key and stream, its binding and its remaining cost. -/
structure MatOp where
  slot : Nat
  kind : MatKind
  pc : W64
  tile : Nat
  bind : Tile
  bind2 : Option Tile
  a : MatSrc
  b : MatSrc
  /-- Tensor descriptors of MMD (R302): the captured 32 bytes of W and of X. -/
  desc : List Byte
  ctr : Option W64
  csp : Bool
  fmt : TileFmt
  sat : Bool
  mode : Mode
  key : W64
  stream : W32
  /-- The captured key or stream was found bad later (R480). -/
  badGen : Bool
  /-- Order of issue (R291). -/
  stamp : Nat
  left : Nat
  /-- Toggle estimate E (R388). -/
  toggle : Nat
  /-- Chunks of depth 64 that have been performed (R81, R122). -/
  chunk : Nat
  /-- A reserved code that it met has been reported (R479). -/
  said : Bool
  /-- Lines of W and X that MMD has read (R184, R302). -/
  srcW : List (Nat × List (Byte × Bool))
  srcX : List (Nat × List (Byte × Bool))
deriving DecidableEq, Repr

/-- A line of a version (R97): address, byte mask, bytes, poisoned 8-byte words, words that one store replaced whole (R417). -/
structure VLine where
  line : Nat
  mask : W32
  bytes : List Byte
  bad : BitVec 4
  full : BitVec 4
deriving DecidableEq, Repr

/-- A kiln binding of a group (R313, R319), with the fields of its record as the unit holds them (R311, bits 447 to 0). -/
structure KilnBind where
  record : W64
  step : W32
  fields : BitVec 448
deriving DecidableEq, Repr

/-- A group (R21, R101): its identity, its resources, its registers and everything R101 saves of it. -/
structure Group where
  key : Nat
  ctx : Nat
  /-- Unique key of its launch; of a worker group, of the launch that created its family. -/
  launch : Nat
  launchId : Nat
  index : Nat
  x : Nat
  y : Nat
  z : Nat
  ndx : W32
  ndy : W32
  ndz : W32
  core : Nat
  cid : Nat
  /-- Keys of the groups of its cluster in order of sv.cid, itself included (R137). -/
  mates : List Nat
  handle : Nat
  cls : Cls
  width : Nat
  size : Nat
  nreg : Nat
  dae : Bool
  daew : W32
  rfg : Nat
  spg : Nat
  acg : Nat
  band : Nat
  prio : Nat
  key64 : W64
  stream : W32
  keyBad : Bool
  streamBad : Bool
  scratch : List Host.Cell
  scratchBad : List Nat
  acc : List (Nat × AccEl)
  /-- What a byte of its accumulator partition that nothing has written may hold beside zero (R294). -/
  leftover : List Nat
  /-- Where its accumulator image stands in memory since the last restore (R103). -/
  place : Option Nat
  tiles : List (Nat × Option Tile)
  cv : List (Nat × Conv)
  /-- Ring offset and k of a bound port q8 to q15 (R277). -/
  ring : List (Nat × Option (Nat × Nat))
  kiln : Option KilnBind
  ops : List MatOp
  versioned : Bool
  vlines : List VLine
  oor : Option Nat
  /-- Task record of a worker group (R90): cluster and index. -/
  task : Option (Nat × Nat)
  segments : List (W64 × W64)
  /-- Its gang stops: it issues nothing more (R413). -/
  stop : Bool
  /-- What its warps last wrote of it, by register, with the cycle and the warp (R77, R228, R291, R295). -/
  wrote : List (Nat × Nat × Nat)
  warps : List Warp
deriving DecidableEq, Repr

/-- The fields of a launch record (R82). -/
structure LaunchRec where
  entry : W64
  args : W64
  gx : Nat
  gy : Nat
  gz : Nat
  gsz : Nat
  ww : Nat
  cls : Nat
  band : Nat
  prio : Nat
  dae : Bool
  nreg : Nat
  ver : Bool
  rfg : Nat
  spg : Nat
  acg : Nat
  daew : W32
  seed : W64
  cctr : W64
  cinc : W64
deriving DecidableEq, Repr

/-- An accepted launch (R65, R85, R323). `started` and `exited` count its groups. -/
structure Launch where
  key : Nat
  ctx : Nat
  id : Nat
  record : LaunchRec
  band : Nat
  started : Nat
  exited : Nat
  /-- It lost a gang; its completion add is not made (R413). -/
  broken : Bool
deriving DecidableEq, Repr

/-- A range-task record (R89), with its creation order and its creator's launch. -/
structure Task where
  cluster : Nat
  index : Nat
  ctx : Nat
  /-- Unique key of its family. -/
  family : Nat
  /-- The last cycle in which an operation on its family took effect, and that operation's place in the order of R93. -/
  acted : Nat × Nat
  state : Nat
  fidx : Nat
  nw : Nat
  stream : W32
  seed : W64
  r0 : Region
  r1 : Region
  doneCnt : W64
  rem : W64
  band : Nat
  prio : Nat
  rootCluster : Nat
  rootIndex : Nat
  rt : Bool
  ver : Bool
  cont : W64
  cctr : W64
  resw : W32
  grain : W32
  hi : W64
  lo : W64
  args : W64
  entry : W64
  stamp : Nat
  launch : Nat
  launchId : Nat
  /-- The captured key or stream was bad (R480). -/
  keyBad : Bool
  streamBad : Bool
deriving DecidableEq, Repr

/-- A kindling slot that holds a record (R95, R96): its loads outstanding (request numbers) and the bytes loaded so far. -/
structure Kindle where
  core : Nat
  slot : Nat
  cluster : Nat
  index : Nat
  loads : List Nat
  bytes : List Host.Cell
  bad : List Nat
deriving DecidableEq, Repr

/-! ### Memory -/

/-- Where a translation is held (R152): the micro-TLB of a core, or the TLB of a cluster. -/
inductive TlbPlace
  | core (n : Nat)
  | cluster (n : Nat)
deriving DecidableEq, Repr

/-- A translation (R152): context, first virtual address, size, frame address and attributes [8:0]. -/
structure TlbEntry where
  ctx : Nat
  va : Nat
  size : Nat
  frame : Nat
  attr : BitVec 9
deriving DecidableEq, Repr

/-- Orientation of a sector in the LLC (R143). -/
inductive Orient
  | absent | row | col | turnRow | turnCol
deriving DecidableEq, Repr

/-- The tag of an LLC sector (R143, R146). -/
structure SectorTag where
  orient : Orient
  valid : BitVec 32
  dirty : BitVec 32
  lock : Option Nat
  /-- Cycles left of a turn. -/
  turn : Nat
deriving DecidableEq, Repr

def SectorTag.none : SectorTag := ⟨.absent, 0, 0, Option.none, 0⟩

/-- What a part of a memory operation does where it is served. -/
inductive AccessKind
  | load | store
  | atom (op : AtomOp)
  | cas | cas64
  | ctrInit (attr : W64)
  | ctrAdd | ctrMax | ctrRd
deriving DecidableEq, Repr

/-- One thread's access of a memory instruction (R259): position (none for a uniform instance), addresses, data. `attr` is
the page's attributes. -/
structure Part where
  pos : Option Nat
  va : W64
  pa : Nat
  attr : BitVec 9
  /-- Data words, lowest address first: 128 bits; for cas64 the compare value then the new value. -/
  data : BitVec 128
  bad : Bool
  /-- Its page is of 64 KiB. -/
  small : Bool
  /-- Pieces that have been served (R166). -/
  got : BitVec 4
  served : Bool
  val : BitVec 128
  vbad : BitVec 4
  /-- Its operation faulted where it was served (R458 kind 4). -/
  fault : Bool
  /-- The watchpoint that it hit (R341). -/
  hit : Option Nat
deriving DecidableEq, Repr

/-- A memory instruction that has issued and has parts to serve or a reply to return (R260). -/
structure MemOp where
  id : Nat
  g : Nat
  w : Nat
  access : Bool
  pc : W64
  kind : AccessKind
  ty : MemType
  /-- Bytes of one access. -/
  size : Nat
  order : Order
  scope : Scope
  d : Operand
  /-- The taking threads. -/
  tmask : W64
  /-- The ring that D names, as bound at the issue (R280). -/
  ring : Option (Nat × Nat)
  /-- What it releases (R167 to R169): scopes, and the earlier operations that their agents must see before it. -/
  after : List (Scope × List Nat)
  parts : List Part
deriving DecidableEq, Repr

/-- A release that some of its thread's earlier accesses do not yet precede (R169): the bytes, the scope, the releasing threads, and
the operations. The agents of the scope's instance do not read the bytes until those are served. -/
structure Veil where
  pa : Nat
  len : Nat
  scope : Scope
  g : Nat
  w : Nat
  tmask : W64
  after : List Nat
deriving DecidableEq, Repr

/-- A FENCE.rel or FENCE.ar that some earlier accesses still precede (R168): later stores and read-modify-writes of the threads
release at its scope. -/
structure FenceMark where
  g : Nat
  w : Nat
  access : Bool
  tmask : W64
  scope : Scope
  after : List Nat
deriving DecidableEq, Repr

/-- A request that waits at a sector (R79, R80, R144): of piece `piece` of a memory operation `op`, a load of `len` bytes at `pa` for
a kindling slot or for a prefetch, or the place in line of an agent whose own event reaches the sector (`eng`, by kind and key). -/
structure Req where
  id : Nat
  sector : Nat
  cls : Nat
  arrived : Nat
  op : Option Nat
  kindle : Option (Nat × Nat)
  pa : Nat
  len : Nat
  dst : Nat
  /-- It caused the last turn of its sector and is served next (R143). -/
  turned : Bool
  /-- A request of column lines (R142). -/
  col : Bool
  eng : Option (Nat × Nat)
  piece : Nat
  /-- The translation of a load without operation (R154). -/
  tr : Option TlbEntry
deriving DecidableEq, Repr

/-- A page walk in progress for threads of a path (R449). -/
structure Walk where
  id : Nat
  g : Nat
  w : Nat
  access : Bool
  pc : W64
  va : W64
  write : Bool
  /-- Positions that wait for it; empty for a walk of the whole path. -/
  tmask : W64
deriving DecidableEq, Repr

/-- A write stalled at a WB page (R157, R454): who made it. -/
inductive Stalled
  | thread (g w : Nat) (access : Bool) (pc : W64) (tmask : W64)
  | copy (cmd : Nat)
  | packet (i : Nat)
  /-- A write of the device itself (a record, a notification, a counter's attribute), whether it then raises PNQHEAD, and the
  counter that it then advances. -/
  | device (bytes : List Byte) (raise : Bool) (then_ : Option W64)
  /-- An advance by an engine: the operand, and the adder's class and number. -/
  | add (value : W64) (acls agent : Nat)
deriving DecidableEq, Repr

/-- A stalled write (R157): `ready` once a covering TLBINV has completed. -/
structure Stall where
  id : Nat
  ctx : Nat
  va : W64
  by_ : Stalled
  ready : Bool
deriving DecidableEq, Repr

/-- A TLBINV whose SWR has not completed (R153). -/
structure Inval where
  id : Nat
  form : Nat
  ctx : Nat
  page : Nat
  g : Nat
  w : Nat
  access : Bool
  tmask : W64
deriving DecidableEq, Repr

/-- A HOST line fill in flight (R154, R469). -/
structure Fill where
  id : Nat
  pa : Nat
  ctx : Nat
  va : Nat
  core : Nat
  attr : BitVec 9
  /-- Its page is of 64 KiB. -/
  small : Bool
  age : Nat
deriving DecidableEq, Repr

/-- A HOST write in flight (R469): the physical bytes that it carries. -/
structure HostWrite where
  id : Nat
  pa : Nat
  len : Nat
  ctx : Nat
  age : Nat
deriving DecidableEq, Repr

/-- The memory of the module and what is under way in it. `cells` lists the physical bytes of HBM4E and of the control
node's memory that differ from what an unlisted byte reads as (log 2). -/
structure Memory where
  cells : List Host.Cell
  /-- 8-byte words that carry a poison tag (R415). -/
  bad : List Nat
  /-- 8-byte words whose copy in the LLC alone carries a poison tag (R415). -/
  llcBad : List Nat
  /-- MASK and OFF of sector headers (R148). -/
  mask : List (Nat × BitVec 32)
  off : List (Nat × BitVec 5)
  /-- Sectors whose header is uncorrectable, and those of them already reported (R468). -/
  badHdr : List Nat
  saidHdr : List Nat
  llc : List (Nat × SectorTag)
  /-- Row lines that the L0 caches hold: core and line (R145). -/
  l0 : List (Nat × Nat)
  reqs : List Req
  /-- Sectors that the event under way reaches, in order, and whether by column lines; empty between steps. -/
  touched : List (Nat × Bool)
  /-- HOST lines that the event under way reaches and the LLC does not hold; empty between steps. -/
  misses : List Fill
  ops : List MemOp
  veils : List Veil
  marks : List FenceMark
  walks : List Walk
  tlb : List (TlbPlace × TlbEntry)
  stalls : List Stall
  invals : List Inval
  fills : List Fill
  hwrites : List HostWrite
deriving DecidableEq, Repr

/-- What a byte of memory that nothing has written reads as (log 2). -/
def Memory.unlisted : Byte := 0

/-- The memory's canonical form. -/
def Memory.wf (m : Memory) : Bool := swf Memory.unlisted m.cells && setwf m.bad && setwf m.llcBad && swf 0xFFFFFFFF m.mask && swf 0 m.off

def Memory.empty : Memory :=
  { cells := [], bad := [], llcBad := [], mask := [], off := [], badHdr := [], saidHdr := [], llc := [], l0 := [], reqs := [],
    touched := [], misses := [], ops := [], veils := [], marks := [], walks := [], tlb := [],
    stalls := [], invals := [], fills := [], hwrites := [] }

/-! ### Engines -/

/-- How far a copy command has come (R281, R182, R466). -/
inductive CmdSt
  | queued | running
  | paused
  /-- Stopped for a reason of R466, at the record's ticket. -/
  | stopped (reason : Nat)
deriving DecidableEq, Repr

inductive CopyKind
  | ld | st | cp
deriving DecidableEq, Repr

/-- A destination line of a transfer (R182): of global memory (by virtual address div 32) or of scratchpad (by the key of
Operands.lean), the bits that the transfer writes, their values, the 8-byte words that carry poison. -/
structure DLine where
  glob : Bool
  at_ : Nat
  mask : BitVec 256
  data : BitVec 256
  bad : BitVec 4
deriving DecidableEq, Repr

/-- A copy command (R281): its captured descriptors and words, its destination progress in windows of 64 KiB (R182). -/
structure Cmd where
  id : Nat
  engine : Nat
  ctx : Nat
  g : Nat
  slot : Nat
  pc : W64
  kind : CopyKind
  /-- Destination (COPY.ST, COPY.CP) or source (COPY.LD) descriptor, then the second descriptor of COPY.CP. -/
  desc : List Byte
  desc2 : List Byte
  word : W64
  ctr : Option W64
  csp : Bool
  sat : Bool
  mode : Mode
  key : W64
  stream : W32
  st : CmdSt
  /-- The transfer's destination lines; with their data once the source has been read (`read`, R184). -/
  image : List DLine
  read : Bool
  /-- Source lines read so far (R184), by their keys: row lines and column lines of memory, or lines of scratchpad. -/
  src : List (Nat × List (Byte × Bool))
  /-- The rows that it takes, once they are known (R283). -/
  list : Option (List Nat)
  /-- Classes of what a dequantise step has reported already (R479, R506). -/
  noted : List Nat
  /-- The first line that the source does not give, with the reason and address of R466. -/
  halt : Option (Nat × Nat × Nat)
  /-- Place in `image` of the current window. -/
  lines : Nat
  /-- Lines of the current window not yet written (R182): place in `image`, and the line's key: twice PA div 32
  for a global line, an odd number for a line of scratchpad, 0 for a line with no translation. -/
  owned : List (Nat × Nat)
  /-- Ticket of its open record of class 0x29 (R462). -/
  ticket : Option Nat
  /-- Ticket of its record of class 0x2A (R466). -/
  stopTicket : Option Nat
  /-- Lines that stand in the spill area (R462). -/
  spilled : Nat
  /-- Spill entries that a replay has not yet written (R464). -/
  again : List Nat
  /-- Bytes that it counts, once its source has been read (R288). -/
  count : Nat
  /-- When it took its window: a later number is a later ownership (R183). -/
  taken : Nat
deriving DecidableEq, Repr

/-- A kiln instruction queued at a kiln unit (R310). -/
structure KOp where
  id : Nat
  die : Nat
  g : Nat
  w : Nat
  pc : W64
  slot : Option Nat
  instr : Instr
  /-- The binding that it was issued under. -/
  bind : Option KilnBind
  tmask : W64
  /-- Positions that take it with their operand values; a uniform one has none as position. -/
  args : List (Option Nat × W64 × W64)
deriving DecidableEq, Repr

/-- What the matrix units of a core hold for the governor (R307, R388). -/
structure UnitSt where
  /-- Unit cycles granted by the die for the window; none before the first grant. -/
  grant : Option Nat
  /-- Windows held in a row. -/
  held : Nat
deriving DecidableEq, Repr

/-! ### Fabric -/

/-- A key slot (R347). -/
structure KeySlot where
  sak : BitVec 256
  salt : BitVec 96
  ssci : W32
  nextPn : W64
  valid : Bool
deriving DecidableEq, Repr

def KeySlot.reset : KeySlot := ⟨0, 0, 0, 1, false⟩

/-- A stored frame (R349, R351), with the station address, the channel and the key slot under which it was framed (R343, R347). -/
structure Stored where
  lsn : W32
  an : Nat
  pn : W64
  mac : BitVec 48
  sci : W64
  sa : KeySlot
  control : Bool
  len : Nat
  packet : Packet
  bad : Bool
deriving DecidableEq, Repr

inductive TxSt
  | open_ | full | replaying
deriving DecidableEq, Repr

/-- A fabric port (R343, R347, R350, R352): configuration, keys, transmitter, receiver. -/
structure Port where
  rwBase : W64
  rxBase : W64
  rwSize : Nat
  rxSize : Nat
  rto : Nat
  mac : BitVec 48
  ip : BitVec 128
  sci : W64
  txan : Nat
  mode : Nat
  keys : List (Nat × KeySlot)
  tx : TxSt
  nextLsn : W32
  store : List Stored
  timer : Nat
  /-- Resends of the oldest unacknowledged frame (R492). -/
  resends : Nat
  /-- Next expected number at the receiver; a NACK has been sent for it; an acknowledgement is due for the number. -/
  rxLsn : W32
  nacked : Bool
  /-- Of an association number, the lowest packet number that the replay check takes (R347). -/
  rxPn : List (Nat × W64)
  /-- Credits that the receiver has granted and that are not used, and units of its buffer that frames hold, by class (R352). -/
  grantCtl : Nat
  grantDat : Nat
  heldCtl : Nat
  heldDat : Nat
  ackDue : Option W32
  ackAge : Nat
  /-- Consecutive frames that failed verification (R493). -/
  badFrames : Nat
  ctlCredits : Nat
  datCredits : Nat
  /-- Packets handed to the port and not yet framed, control and data. -/
  ctlQ : List Packet
  datQ : List Packet
  /-- A key load that waits (R348): its command's tag, its slot and its switch flag; a switch that was asked for. -/
  load : Option (W32 × Nat × KeySlot × Bool)
  switch_ : Bool
  rolled : Bool
  /-- The class of R490 to R495 that failed it. -/
  failed : Bool
  mode0 : Option W32
  /-- Cycles of a retrain in progress, and the lanes that lost lock (R491). -/
  retrain : Option Nat
  lost : BitVec 4
deriving DecidableEq, Repr

/-- A port after reset (R343, R347, R386; log 5). -/
def Port.reset : Port :=
  { rwBase := 0, rxBase := 0, rwSize := 0, rxSize := 0, rto := 8192, mac := 0, ip := 0, sci := 0, txan := 0, mode := 0,
    keys := [], tx := .open_, nextLsn := 0, store := [], timer := 0, resends := 0, rxLsn := 0,
    nacked := false, rxPn := [], grantCtl := 0, grantDat := 0, heldCtl := 0, heldDat := 0, ackDue := none, ackAge := 0, badFrames := 0, ctlCredits := 0, datCredits := 0,
    ctlQ := [], datQ := [], load := none, switch_ := false, rolled := false, failed := false, mode0 := none,
    retrain := none, lost := 0 }

/-- A packet that its sender has not seen acknowledged (R497, R498): the ports of its peer, the port that has it, and whether
its context has been stopped for it. -/
structure Unacked where
  packet : Packet
  ports : Nat
  port : Option Nat
  resends : Nat
  age : Nat
  said : Bool
deriving DecidableEq, Repr

/-- The sender's side of a packet delivery context (R498): one per context and peer. -/
structure Pdc where
  id : Nat
  ctx : Nat
  peer : Nat
  nextPsn : W32
  unacked : List Unacked
deriving DecidableEq, Repr

/-- The target's side (R498): who sends, the PSN below which all is delivered, the delivered numbers above it, and those that
were refused, with their kinds (R500). -/
structure Delivery where
  src : Nat
  pdc : Nat
  base : W32
  above : List W32
  refused : List (W32 × Nat)
deriving DecidableEq, Repr

/-- An entry of a peer table (R346). -/
structure Peer where
  ip : BitVec 128
  ports : Nat
  rod : Bool
  jobId : BitVec 24
deriving DecidableEq, Repr

/-- A remote operation in flight (R353, R355): a put, a get, or a remote advance; `prog` is the program that issued it. -/
structure RemoteOp where
  id : Nat
  prog : Nat
  ctx : Nat
  /-- Address of its ZF word (R501). -/
  pc : W64
  peer : Nat
  entry : Peer
  pdc : Nat
  /-- Packets not yet acknowledged (a put, an advance) or bytes not yet written (a get). -/
  left : Nat
  /-- Its issue has handed over every packet. -/
  sent : Bool
  get : Bool
  /-- The local completion counter, if it has one. -/
  ctr : Option W64
  bytes : Nat
  /-- A release advance held back: its packet and the puts it waits for. -/
  advance : Option Packet
  covers : List Nat
  /-- Packets refused by the target (R500), sent again when its context resumes. -/
  refused : List Packet
  /-- The sequencer context that issued it. -/
  agent : Nat
  /-- Its completion add is withheld while its context is stopped for it, or dropped (R501, R502). -/
  withheld : Bool
  dropped : Bool
deriving DecidableEq, Repr

/-- A packet of the transport that has arrived in sequence and verified and is not yet applied (R349, R354). -/
structure Arrived where
  i : Nat
  port : Nat
  packet : Packet
  /-- Its frame's class, length, and place in a long-reach receive buffer (R344, R352). -/
  control : Bool
  len : Nat
  buf : Option Nat
deriving DecidableEq, Repr

/-- What a link partner sees leave the device (R350): frames and link control. -/
inductive Sent
  | frame (port : Nat) (f : Stored)
  | linkAck (port : Nat) (n : W32)
  | linkNack (port : Nat) (n : W32)
  | grant (port : Nat) (control : Bool) (units : Nat)
deriving DecidableEq, Repr

/-- The transport of the device. -/
structure Net where
  pdcs : List Pdc
  deliveries : List Delivery
  remote : List RemoteOp
  arrived : List Arrived
  sent : List Sent
deriving DecidableEq, Repr

/-- An entry of an ember table (R365) and its address. -/
structure Ember where
  va : Nat
  handle : Nat
  base : Nat
  nelem : Nat
  elo : Nat
  version : W32
  coll : Nat
  chunk : Nat
  stage : Nat
  seqctx : Nat
  bf16 : Bool
  state : Nat
deriving DecidableEq, Repr

/-- A transfer in progress (R375): what it read at its start, its packets' bytes not yet handed over, the lines that it has read
(R184), the bytes of lines that it has not yet written (by address), the lines that it owns with the number at which it took them
and the block at which it takes the next ones (R182), and which records of R506 and R507 it has written. -/
structure Xfer where
  peer : Option (Nat × Peer)
  ember : Option Ember
  op : Option Nat
  wire : List (Byte × Bool)
  src : List (Nat × List (Byte × Bool))
  pend : List (Nat × Byte × Bool)
  owned : List Nat
  taken : Nat
  until_ : Nat
  noted4B : Bool
  noted4D : Bool
deriving DecidableEq, Repr

/-- A sequencer context in use (R370, R372). `key` is the program's own. -/
structure Seq where
  key : Nat
  ctx : Nat
  x : List (Nat × W64)
  pc : W64
  /-- A CWAIT in place: counter address and bound, with its timer (R371). -/
  wait : Option (W64 × W64)
  timer : Nat
  /-- Blocks of the current transfer already processed, packets already handed to ports (R372). -/
  blocks : Nat
  packets : Nat
  xfer : Option Xfer
  /-- Stopped by a fault: the ticket of its record, when one was written to the queue (R501). -/
  stopped : Option (Option Nat)
deriving DecidableEq, Repr

/-! ### Contexts -/

/-- A watchpoint (R340). -/
structure Watch where
  kind : Nat
  sz : Nat
  base : Nat
  hit : Bool
  cls : Nat
  agent : Nat
  count : Nat
  off : Nat
deriving DecidableEq, Repr

def Watch.off0 : Watch := ⟨0, 0, 0, false, 0, 0, 0, 0⟩

/-- Positions of a record's MASK that have neither completed SVC.WAIT nor exited (R332), and whose warp they are. -/
structure SlotTrack where
  slot : Nat
  g : Nat
  w : Nat
  left : W64
deriving DecidableEq, Repr

/-- Whether a context runs (R98, R99, R413). -/
inductive Running
  | running | stopping | saved | contained
deriving DecidableEq, Repr

/-- What a pre-emption saved beside the bytes of the save area (R98 to R103). -/
structure Saved where
  groups : List Group
  launches : List Launch
  tasks : List Task
  copies : List Cmd
  seqs : List (Nat × Seq)
deriving DecidableEq, Repr

/-- A context (R382) with the per-context registers of R337. -/
structure Ctx where
  num : Nat
  super : Bool
  run : Running
  ageLim : List Nat
  bandCap : Nat
  starvLim : Nat
  llcQuota : W64
  ptRoot : W64
  ctxSave : W64
  saveCtr : W64
  pctBase : W64
  pctVa : W64
  pctLen : W64
  pctHr : W64
  pnqBase : W64
  pnqSize : W64
  pnqHead : W64
  pnqTail : W64
  pnqCtr : W64
  svcqBase : W64
  svcqSize : W64
  svcqHead : W64
  svcqTail : W64
  svcqCtr : W64
  svcqCls : W64
  trapVec : W64
  dbgEn : W64
  sctx : W64
  score : W64
  watch : List Watch
  jobId : BitVec 24
  peerBase : W64
  npeer : Nat
  embBase : W64
  nemb : Nat
  slots : List SlotTrack
  /-- Next group handle and launch id (R177, R323). -/
  nextHandle : Nat
  nextLaunch : Nat
  /-- PREEMPT requests not yet performed, oldest first: true asks for a resume (R338). -/
  requests : List Bool
  /-- CTXSAVE at the last restore (R103). -/
  restoredAt : W64
  /-- CTXSAVE where the live spill entries stand (R465). -/
  spillAt : W64
  saved : Option Saved
  /-- The record under which it is contained, by ticket, and the errors folded into it (R422). -/
  record : Option Nat
  ovf : Nat
  /-- Values of bytes that its groups have left in accumulator partitions (R294). -/
  leftover : List Nat
deriving DecidableEq, Repr

/-- The registers of a context that CTXNEW creates (R337, R382). -/
def Ctx.start (num : Nat) (super : Bool) : Ctx :=
  { num := num, super := super, run := .running, ageLim := [4096, 4096, 4096, 4096], bandCap := 3, starvLim := 31,
    llcQuota := 0, ptRoot := 0, ctxSave := 0, saveCtr := 0, pctBase := 0, pctVa := 0, pctLen := 0, pctHr := 0,
    pnqBase := 0, pnqSize := 16, pnqHead := 0, pnqTail := 0, pnqCtr := 0, svcqBase := 0, svcqSize := 16, svcqHead := 0,
    svcqTail := 0, svcqCtr := 0, svcqCls := 6, trapVec := 0, dbgEn := 0, sctx := BitVec.ofNat 64 num, score := 0,
    watch := List.replicate 8 Watch.off0, jobId := 0, peerBase := 0, npeer := 0, embBase := 0, nemb := 0, slots := [],
    nextHandle := 1, nextLaunch := 1, requests := [], restoredAt := 0, spillAt := 0, saved := none, record := none, ovf := 0, leftover := [] }

/-! ### Management -/

/-- A held spark (R390): its number, sources, tag, the counts and the clocks at the latch; `sense` is what the sensors' free
values are applied to (log 3). -/
structure Snap where
  no : W32
  src : BitVec 5
  tag : BitVec 16
  counts : List (Nat × Nat)
  sense : Nat
  coreClock : Nat
  fabricClock : Nat
  lead : List (Nat × Nat)
  /-- Power states in force at the latch: that of the last POWER and those of the dies' windows (R387). -/
  power : List Nat
deriving DecidableEq, Repr

/-- An Akoon reply (R382). -/
structure Reply where
  tag : W32
  status : Nat
  value : Nat
  bytes : List Byte
deriving DecidableEq, Repr

/-- An error record in its fields (R418); SEQ, STATE and CN are set where it is written. -/
structure ErrRec where
  addr : W64
  pc : W64
  tmask : W64
  lcyc : Nat
  cls : Nat
  domain : Nat
  phys : Bool
  wid : Nat
  launch : Nat
  group : Nat
  ctx : Nat
  spark : W32
  acls : Nat
  agent : Nat
  ovf : Nat
  detail : Nat
  /-- What the slot holds from +0x40 (R443, R501). -/
  extra : List Byte
deriving DecidableEq, Repr

/-- A gang that stops (R413 codes 2 and 3): its groups, and the record that is written once they have stopped; later errors
of the gang raise its OVF (R422). -/
structure GangStop where
  groups : List Nat
  err : ErrRec
deriving DecidableEq, Repr

/-- The management controller and the device as a whole. -/
structure Device where
  power : Nat
  /-- Under containment of domain 5 (R413). -/
  contained : Bool
  spark : W32
  /-- Core clock at the last spark that started one (R390). -/
  sparkAt : Option Nat
  snaps : List Snap
  /-- Counts of R391 since power-up, by class × 2^20 + block × 2^4 + place. -/
  counts : List (Nat × Nat)
  replies : List Reply
  /-- Commands that have arrived and are not yet performed, in order of arrival, each with the context that it names (R383). -/
  inbox : List (Nat × Instr)
  /-- The image that the management controller holds since the last power-up, and how many it has turned down for their check and
  requested again (R386 step 2). -/
  image : Option (List Byte)
  badImages : Nat
  /-- Error messages sent to the control node: the 64 bytes of each record (R420). -/
  messages : List (List Byte)
  /-- Ready messages sent (R386 step 5). -/
  readies : Nat
  /-- Errors folded into the device's record (R422). -/
  ovf : Nat
deriving DecidableEq, Repr

/-- The cores as far as no group owns it: marks of failure (R442), MGOV.CAP and MGOV.STALL (R307), matrix units. -/
structure Cores where
  failed : List Nat
  cap : List (Nat × Nat)
  stall : List (Nat × W64)
  units : List (Nat × UnitSt)
  /-- Windows of 64 cycles that have passed at the governor of a core and at a die's arbiter (R307, R388), and the power state in
  which a die's last window began (R387). -/
  coreWindow : List (Nat × Nat)
  dieWindow : List (Nat × Nat)
  diePower : List (Nat × Nat)
  /-- Reservations of a pending C launch (R65): launch key, core, and how many of its groups are reserved there. -/
  reserved : List (Nat × Nat × Nat)
deriving DecidableEq, Repr

/-! ### Turns -/

/-- A physical upset (R415, R441, R442, R445, R467, R468, R478, R480): what an uncorrectable error hits. -/
inductive Upset
  | memWord (pa : Nat)
  | llcWord (pa : Nat)
  | header (sector : Nat)
  | tag (sector : Nat)
  | scratchWord (g off : Nat)
  | vreg (g w t n : Nat)
  | wreg (g w n : Nat)
  | pred (g w t n : Nat)
  | queueEntry (g w t port i : Nat)
  | branchEntry (g w t i : Nat)
  | accEl (g i : Nat)
  | genKey (g : Nat)
  | genStream (g : Nat)
  | slotGen (g slot : Nat)
  | storedFrame (port i : Nat)
  | areaWrite (ctx pa : Nat)
deriving DecidableEq, Repr

/-- What happens next (log 1): an event of the table, an issue slot of a lane (R35), an issue slot of a sequencer (R371), cycles
of a domain, or of one block alone (R389), a TLB entry or an L0 line dropped (R152, R145), a K chunk of a matrix operation (R81),
a source line of a copy (R184), credits that a port grants (R352), a request that arrives later (R144), an image that the control node sends, with its check
(R386), a fabric event that raises a spark (R390), or an upset. -/
inductive Turn
  | event (i : Instr)
  | lane (core lane : Nat)
  | seq (sequencer : Nat)
  | coreCycles (n : Nat)
  | fabricCycles (n : Nat)
  | blockCycles (acls block n : Nat)
  | tlbDrop (place : TlbPlace) (ctx va : Nat)
  | l0Drop (core line : Nat)
  | chunk (g slot : Nat)
  | source (cmd : Nat)
  | grant (port : Nat) (control : Bool) (units : Nat)
  | late (req : Nat)
  | image (bytes : List Byte) (check : W32)
  | fabricEvent
  | upset (u : Upset)
deriving DecidableEq, Repr

/-- Who issues within a step (log 1): a path with the bytes of its instruction, or a sequencer context. -/
inductive Cursor
  | path (r : PathRef) (size : Nat)
  | seq (n : Nat)
deriving DecidableEq, Repr

/-- Bring-up (R386) or ready for commands. -/
inductive Phase
  | bringUp | ready
deriving DecidableEq, Repr

/-- The GD960. `agenda`, `cur`, `held`, `ticks` and `stamp` are the model's own (logs 1 and 3): what happens next, who
issues, whether the issue was put off, the counter that free values are applied to, and the source of unique keys.
`lead` holds how far the count of a block, by agent class × 2^16 + number, is ahead of the clock of its domain (R389). -/
structure State where
  phase : Phase
  agenda : List Turn
  cur : Option Cursor
  held : Bool
  ticks : Nat
  stamp : Nat
  coreClock : Nat
  fabricClock : Nat
  lead : List (Nat × Nat)
  mem : Memory
  ctxs : List Ctx
  launches : List Launch
  groups : List Group
  tasks : List Task
  kindles : List Kindle
  copies : List Cmd
  kops : List KOp
  ports : List (Nat × Port)
  net : Net
  seqs : List (Nat × Seq)
  /-- Slot of the context that each sequencer issued last (R371). -/
  seqLast : List (Nat × Nat)
  cores : Cores
  dev : Device
  stops : List GangStop
deriving DecidableEq, Repr

/-- The machine right after reset (R386): the module before bring-up, no context, every port in MODE 0. -/
def State.reset : State :=
  { phase := .bringUp, agenda := [], cur := none, held := false, ticks := 0, stamp := 1, coreClock := 0, fabricClock := 0, lead := [],
    mem := Memory.empty, ctxs := [], launches := [], groups := [], tasks := [], kindles := [], copies := [], kops := [],
    ports := [], net := { pdcs := [], deliveries := [], remote := [], arrived := [], sent := [] }, seqs := [], seqLast := [],
    cores := { failed := [], cap := [], stall := [], units := [], coreWindow := [], dieWindow := [], diePower := [], reserved := [] },
    dev := { power := 0, contained := false, spark := 0, sparkAt := none, snaps := [], counts := [], replies := [], inbox := [], image := none, badImages := 0,
             messages := [], readies := 0, ovf := 0 },
    stops := [] }

/-! ### Stops -/

/-- Reasons of the model to stop. Every failure that the spec describes is a next state, and an event whose conditions do not hold does
nothing (log 1). -/
inductive Fault
  /-- Raised by a meaning of an instruction that no path or sequencer context issues; safe: nothing is claimed of it. -/
  | noIssue
deriving DecidableEq, Repr

/-- Instructions without a meaning. -/
inductive Refusal
  /-- Raised by the dispatch for an instruction that is not modelled; safe: nothing is claimed of it. -/
  | notModelled (mnemonic : String)
deriving DecidableEq, Repr

/-- The outcome of a meaning. -/
abbrev Result := Host.Outcome State Fault Refusal

end Sys2Proof.Machine
end

