-- ==== Sys2Proof/Machine/Num.lean ====
section
/-! DEFINITION. Num.lean: exact values, the element formats (R104, R109) and the one rule of rounding (R114 to R117). -/

namespace Sys2Proof.Machine

/-- A value of a floating format (R105): NaN, an infinity, or ±m·2^e. -/
inductive FVal
  | nan
  | inf (neg : Bool)
  | fin (neg : Bool) (m : Nat) (e : Int)
deriving DecidableEq, Repr

/-- A positive exact value num/den·2^e with its sign, as it enters rounding. -/
structure Exact where
  neg : Bool
  num : Nat
  den : Nat
  e : Int
deriving DecidableEq, Repr

/-- x·2^k rounded down, for any k. -/
def shiftInt (x : Nat) (k : Int) : Nat := if 0 ≤ k then x <<< k.toNat else x >>> (-k).toNat

/-- floor(log2 (num/den)) for num, den > 0. -/
def log2Ratio (num den : Nat) : Int :=
  let l : Int := (num.log2 : Int) - (den.log2 : Int)
  let le := if 0 ≤ l then decide (den <<< l.toNat ≤ num) else decide (den ≤ num <<< (-l).toNat)
  if le then l else l - 1

/-- A floating format (R104, R109): fraction bits, exponent bits, bias, least exponent, infinity, the canonical NaN code, and
the largest finite value maxM·2^maxE. -/
structure FSpec where
  p : Nat
  ew : Nat
  bias : Int
  emin : Int
  inf : Bool
  nan : Option Nat
  maxM : Nat
  maxE : Int
deriving DecidableEq, Repr

/-- An IEEE-like format with infinities (R104, R109). -/
def FSpec.ieee (p ew : Nat) : FSpec :=
  { p := p, ew := ew, bias := 2 ^ (ew - 1) - 1, emin := 2 - 2 ^ (ew - 1), inf := true,
    nan := some ((2 ^ ew - 1) * 2 ^ p + 2 ^ (p - 1)), maxM := 2 ^ (p + 1) - 1, maxE := 2 ^ (ew - 1) - 1 - (p : Int) }

def FSpec.fp32 : FSpec := .ieee 23 8
def FSpec.bf16 : FSpec := .ieee 7 8
def FSpec.fp16 : FSpec := .ieee 10 5
def FSpec.fp64 : FSpec := .ieee 52 11
def FSpec.e5m2 : FSpec := .ieee 2 5
def FSpec.a56 : FSpec := .ieee 45 10
def FSpec.n12 : FSpec := .ieee 12 8
def FSpec.e4m3 : FSpec :=
  { p := 3, ew := 4, bias := 7, emin := -6, inf := false, nan := some 0x7F, maxM := 14, maxE := 5 }
def FSpec.e3m2 : FSpec := { p := 2, ew := 3, bias := 3, emin := -2, inf := false, nan := none, maxM := 7, maxE := 2 }
def FSpec.e2m3 : FSpec := { p := 3, ew := 2, bias := 1, emin := 0, inf := false, nan := none, maxM := 15, maxE := -1 }
def FSpec.e2m1 : FSpec := { p := 1, ew := 2, bias := 1, emin := 0, inf := false, nan := none, maxM := 3, maxE := 1 }
/-- MXT2 rounds with emax 0 into −1, 0 and +1 (R104, R118). -/
def FSpec.mxt2 : FSpec := { p := 0, ew := 0, bias := 0, emin := 0, inf := false, nan := none, maxM := 1, maxE := 0 }

/-- Sign bit's place. -/
def FSpec.signBit (f : FSpec) : Nat := f.p + f.ew

/-- The value of a code (R105). -/
def FSpec.decode (f : FSpec) (x : Nat) : FVal :=
  let neg := bit x f.signBit
  let e := (x / 2 ^ f.p) % 2 ^ f.ew
  let m := x % 2 ^ f.p
  if f.inf && e = 2 ^ f.ew - 1 then (if m = 0 then .inf neg else .nan)
  else if !f.inf && f.nan.isSome && e = 2 ^ f.ew - 1 && m = 2 ^ f.p - 1 then .nan
  else if e = 0 then .fin neg m (f.emin - f.p)
  else .fin neg (2 ^ f.p + m) ((e : Int) - f.bias - f.p)

/-- The value of an MXT2 code; 0b10 is used as 0 (R104, R479). -/
def mxt2Decode (x : Nat) : FVal :=
  match x % 4 with
  | 1 => .fin false 1 0
  | 3 => .fin true 1 0
  | _ => .fin false 0 0

/-- The code of ±n·2^q with n·2^q at most the largest finite value and n = 0 or n·2^q on the format's grid. -/
def FSpec.code (f : FSpec) (neg : Bool) (n : Nat) (q : Int) : Nat :=
  let s := neg.toNat * 2 ^ f.signBit
  if n < 2 ^ f.p then s + n
  else
    let (n, q) := if n = 2 ^ (f.p + 1) then (2 ^ f.p, q + 1) else (n, q)
    s + ((q + f.p + f.bias).toNat) * 2 ^ f.p + (n - 2 ^ f.p)

/-- n + 1 or n, as the mode and the rest of the division num = n·den + rem decide (R115); `d` is the draw of SR. -/
def roundUp (mode : Mode) (d : Nat) (neg : Bool) (n rem den : Nat) : Nat :=
  match mode with
  | .rne => if den < 2 * rem || (2 * rem = den && n % 2 = 1) then n + 1 else n
  | .rtz => n
  | .rup => if rem ≠ 0 && !neg then n + 1 else n
  | .rdn => if rem ≠ 0 && neg then n + 1 else n
  | .sr => if rem * 65536 / den + d ≥ 65536 then n + 1 else n

/-- |v|/q rounded to an integer by R115. -/
def roundQuot (mode : Mode) (d : Nat) (x : Exact) (q : Int) : Nat :=
  let k := x.e - q
  let num := if 0 ≤ k then x.num <<< k.toNat else x.num
  let den := if 0 ≤ k then x.den else x.den <<< (-k).toNat
  roundUp mode d x.neg (num / den) (num % den) den

/-- What an overflow gives before SAT (R116): the largest finite value, or the infinite or NaN outcome. -/
def overflowsToInf (mode : Mode) (neg : Bool) : Bool :=
  match mode with
  | .rne | .sr => true
  | .rtz => false
  | .rup => !neg
  | .rdn => neg

def FSpec.maxCode (f : FSpec) (neg : Bool) : Nat :=
  if f.ew = 0 then (if neg then 3 else 1) else f.code neg f.maxM f.maxE
/-- The infinity of a sign; in E4M3, which has none, its canonical NaN (R116, R117, R244). -/
def FSpec.infCode (f : FSpec) (neg : Bool) : Nat :=
  if f.inf then neg.toNat * 2 ^ f.signBit + (2 ^ f.ew - 1) * 2 ^ f.p else f.nan.getD 0

/-- The outcome for an infinite result, or one above the range, by R116. -/
def FSpec.beyond (f : FSpec) (mode : Mode) (sat neg : Bool) : Nat :=
  if sat || !(overflowsToInf mode neg) || f.nan.isNone then f.maxCode neg else f.infCode neg

/-- The canonical NaN, or code 0 in a format that has none (R116, R117). -/
def FSpec.nanCode (f : FSpec) : Nat := f.nan.getD 0

/-- Rounding a finite exact value into a format (R115, R116). -/
def FSpec.roundExact (f : FSpec) (mode : Mode) (d : Nat) (sat : Bool) (x : Exact) : Nat :=
  if x.num = 0 then (if f.ew = 0 then 0 else f.code x.neg 0 0)
  else
    let e := max (log2Ratio x.num x.den + x.e) f.emin
    let q := e - f.p
    let n := roundQuot mode d x q
    if f.ew = 0 then (if n = 0 then 0 else f.maxCode x.neg)
    else
      let big := if f.maxE ≤ q then decide (f.maxM < n <<< (q - f.maxE).toNat) else decide (f.maxM <<< (f.maxE - q).toNat < n)
      if big then f.beyond mode sat x.neg else f.code x.neg n q

/-- Rounding a value into a format: an infinite input becomes the largest value under SAT, and overflows in a format
without infinity (R116, R244). -/
def FSpec.round (f : FSpec) (mode : Mode) (d : Nat) (sat : Bool) : FVal → Nat
  | .nan => f.nanCode
  | .inf neg => if sat || f.nan.isNone then f.maxCode neg else f.infCode neg
  | .fin neg m e => f.roundExact mode d sat ⟨neg, m, 1, e⟩

/-- An infinite value rounded into a format without infinity follows R116 as an overflow in the mode (R244). -/
def FSpec.roundOver (f : FSpec) (mode : Mode) (d : Nat) (sat : Bool) : FVal → Nat
  | .inf neg => if f.inf then (if sat then f.maxCode neg else f.infCode neg) else f.beyond mode sat neg
  | v => f.round mode d sat v

/-- The parameters of a floating element format (R104). -/
def fspec : Fmt → FSpec
  | .fp32 => .fp32
  | .bf16 => .bf16
  | .fp16 => .fp16
  | .e4m3 | .mxe4m3 => .e4m3
  | .e5m2 | .mxe5m2 => .e5m2
  | .e3m2 => .e3m2
  | .e2m3 => .e2m3
  | .e2m1 => .e2m1
  | .mxt2 => .mxt2
  | .fp64 => .fp64
  | .int8 | .s1b | .t5b => .fp32

/-- An integer as a value. -/
def FVal.ofInt (x : Int) : FVal := .fin (decide (x < 0)) x.natAbs 0

/-- The signed value of an n-bit code (R113). -/
def sval (n x : Nat) : Int := let y := x % 2 ^ n; if 2 ^ n ≤ 2 * y then (y : Int) - 2 ^ n else y

/-- The low n bits of an integer in two's complement. -/
def wrapInt (n : Nat) (x : Int) : Nat := (x % (2 ^ n : Nat)).toNat

/-- The value of an element code of a format of R104; the wire formats have no codes of one element. -/
def fmtValue (f : Fmt) (x : Nat) : FVal :=
  match f with
  | .int8 => .ofInt (sval 8 x)
  | .mxt2 => mxt2Decode x
  | .s1b | .t5b => .fin false 0 0
  | f => (fspec f).decode x

/-- Rounding a value to an integer and clamping it (R115 with q = 1, R116, R243). -/
def roundInt (mode : Mode) (d : Nat) (lo hi : Int) : FVal → Int
  | .nan => 0
  | .inf neg => if neg then lo else hi
  | .fin neg m e =>
    let n : Int := roundQuot mode d ⟨neg, m, 1, e⟩ 0
    max lo (min hi (if neg then -n else n))

/-- Rounding into any element format of R104 (R115 to R117). -/
def fmtRound (f : Fmt) (mode : Mode) (d : Nat) (sat : Bool) (v : FVal) : Nat :=
  match f with
  | .int8 => wrapInt 8 (roundInt mode d (-128) 127 v)
  | f => (fspec f).roundOver mode d sat v

/-! ### Exact arithmetic -/

/-- A dyadic number s·2^e. -/
structure Dyad where
  s : Int
  e : Int
deriving DecidableEq, Repr

def Dyad.add (a b : Dyad) : Dyad :=
  if a.e ≤ b.e then ⟨a.s + b.s * (2 : Int) ^ (b.e - a.e).toNat, a.e⟩
  else ⟨a.s * (2 : Int) ^ (a.e - b.e).toNat + b.s, b.e⟩

/-- The finite value of a dyadic number; `neg` is the sign of a zero. -/
def Dyad.val (x : Dyad) (neg : Bool) : FVal := .fin (if x.s = 0 then neg else decide (x.s < 0)) x.s.natAbs x.e

def FVal.isNan : FVal → Bool
  | .nan => true
  | _ => false
def FVal.isInf : FVal → Bool
  | .inf _ => true
  | _ => false
def FVal.isZero : FVal → Bool
  | .fin _ m _ => m = 0
  | _ => false
def FVal.sign : FVal → Bool
  | .nan => false
  | .inf n => n
  | .fin n _ _ => n
def FVal.neg : FVal → FVal
  | .nan => .nan
  | .inf n => .inf !n
  | .fin n m e => .fin (!n) m e
def FVal.abs : FVal → FVal
  | .nan => .nan
  | .inf _ => .inf false
  | .fin _ m e => .fin false m e
def FVal.dyad : FVal → Dyad
  | .fin n m e => ⟨if n then -(m : Int) else m, e⟩
  | _ => ⟨0, 0⟩
/-- x·2^k. -/
def FVal.scale (k : Int) : FVal → FVal
  | .fin n m e => .fin n m (e + k)
  | v => v

/-- The exact product (R123, R235). -/
def FVal.mul : FVal → FVal → FVal
  | .nan, _ | _, .nan => .nan
  | .inf a, .inf b => .inf (a != b)
  | .inf a, .fin b m _ | .fin b m _, .inf a => if m = 0 then .nan else .inf (a != b)
  | .fin a m e, .fin b n k => .fin (a != b) (m * n) (e + k)

/-- The exact sum of terms (R117, R123): NaN, infinities, and the sign of a zero sum by the mode. -/
def sumExact (mode : Mode) (ts : List FVal) : FVal :=
  if ts.any FVal.isNan then .nan
  else if ts.any (fun t => t.isInf && t.sign) then (if ts.any (fun t => t.isInf && !t.sign) then .nan else .inf true)
  else if ts.any FVal.isInf then .inf false
  else
    let s : Dyad := ts.foldl (fun acc t => Dyad.add acc t.dyad) ⟨0, 0⟩
    let zneg := if ts.all FVal.isZero then (!ts.isEmpty && ts.all FVal.sign) else decide (mode = .rdn)
    s.val zneg

/-- a + b, a − b and a·b + c exactly (R235). -/
def FVal.add (mode : Mode) (a b : FVal) : FVal := sumExact mode [a, b]
def FVal.sub (mode : Mode) (a b : FVal) : FVal := sumExact mode [a, b.neg]
def FVal.fma (mode : Mode) (a b c : FVal) : FVal := sumExact mode [a.mul b, c]

/-- The order of finite values and infinities; −0 is below +0 only where `signedZero` (R128, R236, R237). -/
def FVal.lt (signedZero : Bool) : FVal → FVal → Bool
  | .nan, _ | _, .nan => false
  | .inf a, .inf b => a && !b
  | .inf a, _ => a
  | _, .inf b => !b
  | .fin a m e, .fin b n k =>
    if m = 0 && n = 0 then signedZero && a && !b
    else
      let x := (Dyad.add ⟨if a then -(m : Int) else m, e⟩ ⟨if b then (n : Int) else -n, k⟩).s
      decide (x < 0)

/-- The conditions of FCMP (R237). -/
def FVal.cond (c : Cond) (a b : FVal) : Bool :=
  let un := a.isNan || b.isNan
  match c with
  | .eq => !un && !(a.lt false b) && !(b.lt false a)
  | .ne => un || a.lt false b || b.lt false a
  | .lt => a.lt false b
  | .le => !un && !(b.lt false a)
  | .gt => b.lt false a
  | .ge => !un && !(a.lt false b)
  | .un => un

/-- The quotient a/b entering one rounding (R309, R131): a quotient by zero as RCP gives it. -/
def FSpec.div (f : FSpec) (mode : Mode) (a b : FVal) : Nat :=
  match a, b with
  | .nan, _ | _, .nan => f.nanCode
  | .inf _, .inf _ => f.nanCode
  | .inf s, .fin t _ _ => f.infCode (s != t)
  | .fin s _ _, .inf t => f.code (s != t) 0 0
  | .fin s m e, .fin t n k =>
    if n = 0 then (if m = 0 then f.nanCode else f.infCode (s != t))
    else f.roundExact mode 0 false ⟨s != t, m, n, e - k⟩

end Sys2Proof.Machine
end

