-- ==== Sys2Proof/Machine/Phys.lean ====
section
/-! DEFINITION. Phys.lean: bytes and poison tags of physical memory, sector headers and tags, page-table walks and the
scratchpad's addressing (R132 to R153, R415 to R417, R467, R468). -/

namespace Sys2Proof.Machine

/-! ### Bytes and tags -/

/-- Physical addresses with a target (R134). -/
def hostPa (pa : Nat) : Bool := 2 ^ 51 ≤ pa && pa < 2 ^ 52
def hbmPa (pa : Nat) : Bool := pa < 2 ^ 39
def backed (pa : Nat) : Bool := hbmPa pa || hostPa pa

def Memory.byte (m : Memory) (pa : Nat) : Byte := sget Memory.unlisted m.cells pa

def Memory.bytes (m : Memory) (pa n : Nat) : List Byte := (List.range n).map (fun i => m.byte (pa + i))

def Memory.nat (m : Memory) (pa n : Nat) : Nat := leNat (m.bytes pa n)

/-- The word at `pa` reads as poisoned: its own tag, that of its copy in the LLC, or its sector's header (R415, R468). -/
def Memory.isBad (m : Memory) (pa : Nat) : Bool := setMem m.bad (pa / 8) || setMem m.llcBad (pa / 8) || setMem m.badHdr (pa / 1024)

def Memory.anyBad (m : Memory) (pa n : Nat) : Bool := (List.range n).any (fun i => m.isBad (pa + i))

/-- Put bytes at ascending addresses. -/
def putCells (cells : List Host.Cell) (pa : Nat) : List Byte → List Host.Cell
  | [] => cells
  | b :: bs => putCells (sset Memory.unlisted cells pa b) (pa + 1) bs

/-- The words, 8 bytes each, that n bytes at `a` touch. -/
def wordsOf (a n : Nat) : List Nat := if n = 0 then [] else List.range' (a / 8) ((a + n - 1) / 8 + 1 - a / 8)
/-- The lines, 32 bytes each, that n bytes at `a` touch. -/
def linesOf (a n : Nat) : List Nat := if n = 0 then [] else List.range' (a / 32) ((a + n - 1) / 32 + 1 - a / 32)
/-- The sectors, 1 KiB each, that n bytes at `a` touch. -/
def sectorsOf (a n : Nat) : List Nat := if n = 0 then [] else List.range' (a / 1024) ((a + n - 1) / 1024 + 1 - a / 1024)

/-- Tags after a write of n bytes at `a` (R416, R417): poisoned data tags every word it touches; other data clears the words
that it replaces whole. -/
def putTags (tags : List Nat) (a n : Nat) (bad : Bool) : List Nat :=
  (wordsOf a n).foldl (fun t w => if bad then setIns t w else if a ≤ 8 * w && 8 * w + 8 ≤ a + n then setDel t w else t) tags

/-! ### Sector headers (R148, R149) -/

/-- MASK of a sector as its bytes stand: the lines that hold a nonzero byte. -/
def Memory.maskNow (m : Memory) (x : Nat) : BitVec 32 :=
  m.cells.foldl (fun (a : BitVec 32) (c : Host.Cell) => if c.1 / 1024 = x && c.2 != 0#8 then a ||| ((1 : BitVec 32) <<< (c.1 / 32 % 32)) else a) 0

/-- The header of one sector as its lines stand: MASK of every line, and OFF 0 (R148). -/
def Memory.header1 (m : Memory) (x : Nat) : Memory :=
  { m with mask := sset 0xFFFFFFFF m.mask x (m.maskNow x), off := sset 0 m.off x 0 }

/-- The headers of the sectors that a write touched. -/
def Memory.header (m : Memory) (a n : Nat) : Memory := (sectorsOf a n).foldl Memory.header1 m

def Memory.maskOf (m : Memory) (x : Nat) : BitVec 32 := sget 0xFFFFFFFF m.mask x
def Memory.offOf (m : Memory) (x : Nat) : BitVec 5 := sget 0 m.off x

/-- Where the array holds line r of a sector: the offset in the sector's slot, behind the nonzero lines below it; none for a
line of zeros, which is not in the array (R148). -/
def Memory.packedAt (m : Memory) (x r : Nat) : Option Nat :=
  if (m.maskOf x).getLsbD r then some (32 * ((m.offOf x).toNat + ((List.range r).filter (fun j => (m.maskOf x).getLsbD j)).length)) else none

/-- Lines that a read of line r takes from the array: itself alone with the CMP attribute, else the whole sector (R149). -/
def Memory.arrayLines (m : Memory) (cmp : Bool) (x r : Nat) : List Nat :=
  (if cmp then [r] else List.range 32).filter (fun j => (m.packedAt x j).isSome)

/-- A byte as a read finds it: in a line whose MASK bit is 0 it is zero without a look at the array (R149). -/
def Memory.read (m : Memory) (pa : Nat) : Byte :=
  if hbmPa pa && (m.packedAt (pa / 1024) (pa / 32 % 32)).isNone then 0 else m.byte pa

/-- A write that covers a whole sector rebuilds its header (R468). -/
def Memory.rebuild (m : Memory) (a n : Nat) : Memory :=
  let full := (sectorsOf a n).filter (fun x => a ≤ 1024 * x && 1024 * x + 1024 ≤ a + n)
  { m with
    badHdr := full.foldl setDel m.badHdr
    saidHdr := full.foldl setDel m.saidHdr }

/-- Write bytes with one tag for all of them. -/
def Memory.write (m : Memory) (pa : Nat) (bs : List Byte) (bad : Bool) : Memory :=
  let m := { m with
    cells := putCells m.cells pa bs
    bad := putTags m.bad pa bs.length bad
    llcBad := putTags m.llcBad pa bs.length false }
  if hbmPa pa then (m.header pa bs.length).rebuild pa bs.length else m

/-! ### LLC tags -/

def Memory.sector (m : Memory) (x : Nat) : SectorTag := sget SectorTag.none m.llc x
def Memory.setSector (m : Memory) (x : Nat) (t : SectorTag) : Memory := { m with llc := sset SectorTag.none m.llc x t }

/-- Home slice and set of a sector (R140). -/
def sliceOf (x : Nat) : Nat :=
  bits x 7 0 ^^^ bits x 15 8 ^^^ bits x 23 16 ^^^ bits x 31 24 ^^^ bits x 39 32 ^^^ bits x 41 40
def setOf (x : Nat) : Nat := bits x 13 8 ^^^ bits x 19 14

/-- Some turn of the sector's orientation is in progress (R143). -/
def SectorTag.turning (t : SectorTag) : Bool := t.orient = .turnRow || t.orient = .turnCol

/-- The sectors that a set of a slice holds (R140). -/
def Memory.heldIn (m : Memory) (x : Nat) : List (Nat × SectorTag) :=
  m.llc.filter (fun e => sliceOf e.1 = sliceOf x && setOf e.1 = setOf x && e.2.orient != .absent)

/-- A sector leaves the LLC: its dirty lines are written back with their tags, the others are forgotten (R143, R415). -/
def Memory.dropSector (m : Memory) (x : Nat) : Memory :=
  let mine := m.llcBad.filter (fun w => w / 128 = x)
  let back := mine.filter (fun w => (m.sector x).dirty.getLsbD (w / 4 % 32))
  { m.setSector x SectorTag.none with
    bad := back.foldl setIns m.bad
    llcBad := mine.foldl setDel m.llcBad }

/-- The sector that makes room in a full set: one that is neither locked nor turning (R143, R146; log 6). -/
def Memory.victim (m : Memory) (x : Nat) : Option Nat :=
  ((m.heldIn x).find? (fun e => e.2.lock = Option.none && !e.2.turning)).map (·.1)

/-- The LLC holds the sector, or can: a way of its set is free or can be freed. -/
def Memory.fits (m : Memory) (x : Nat) : Bool :=
  (m.sector x).orient != .absent || decide ((m.heldIn x).length < 16) || (m.victim x).isSome

/-- Room for one more sector: when 16 ways are held, one of them is evicted. -/
def Memory.makeRoom (m : Memory) (x : Nat) : Memory :=
  if (m.sector x).orient = .absent && 16 ≤ (m.heldIn x).length then
    match m.victim x with
    | some y => m.dropSector y
    | Option.none => m
  else m

/-- The L0 caches drop lines; that of core `keep` does not (R145). -/
def Memory.dropL0 (m : Memory) (keep : Option Nat) (p : Nat → Bool) : Memory :=
  { m with l0 := m.l0.filter (fun e => !(p e.2) || keep = some e.1) }

/-- A row access to a line, after any turn (R143): the line is valid, and dirty after a write, which every other L0 drops (R145).
A sector for which no way can be freed passes the LLC by. -/
def Memory.touchRow (m : Memory) (line : Nat) (write : Bool) (core : Option Nat := none) : Memory :=
  let x := line / 32
  let m := m.makeRoom x
  let one : BitVec 32 := 1 <<< (line % 32)
  let t := m.sector x
  let m := if !(m.fits x) then m else m.setSector x { t with
    orient := .row
    valid := t.valid ||| one
    dirty := if write then t.dirty ||| one else t.dirty
    turn := 0 }
  if write then m.dropL0 core (· = line) else m

/-- A column access to a sector, after any turn (R143): the whole sector is valid; no L0 holds a line of it (R145). -/
def Memory.touchCol (m : Memory) (x : Nat) (write : Bool) : Memory :=
  let m := m.makeRoom x
  let t := m.sector x
  let m := if !(m.fits x) then m else m.setSector x { t with
    orient := .col
    valid := 0xFFFFFFFF
    dirty := if write then 0xFFFFFFFF else t.dirty
    turn := 0 }
  m.dropL0 none (fun l => l / 32 = x)

/-- The event under way reaches a sector, by column lines or by row lines. -/
def Memory.reach (m : Memory) (x : Nat) (col : Bool) : Memory :=
  if m.touched.any (fun t => t.1 = x) then m else { m with touched := m.touched ++ [(x, col)] }

/-- A request of a row line. Answers whether its sector was held by columns. -/
def Memory.rowLine (m : Memory) (line : Nat) (write : Bool) (core : Option Nat := none) : Memory × Bool :=
  let o := (m.sector (line / 32)).orient
  ((m.reach (line / 32) false).touchRow line write core, o = .col || o = .turnCol)

/-- A request of column lines of a sector. Answers whether it was held by rows. -/
def Memory.colSector (m : Memory) (x : Nat) (write : Bool) : Memory × Bool :=
  let o := (m.sector x).orient
  ((m.reach x true).touchCol x write, o = .row || o = .turnRow)

/-- The L0 of a core holds a line from a fill (R145). -/
def Memory.fillL0 (m : Memory) (core line : Nat) : Memory :=
  if m.l0.contains (core, line) then m else { m with l0 := m.l0 ++ [(core, line)] }

/-- Bytes that the device itself writes pass the LLC by: a line that it holds is dirty, no L0 holds it any more, and no sector
changes its orientation (log 46). -/
def Memory.through (m : Memory) (pa n : Nat) : Memory :=
  (linesOf pa n).foldl (fun m l =>
    let t := m.sector (l / 32)
    let one : BitVec 32 := 1 <<< (l % 32)
    let m := if t.valid.getLsbD (l % 32) then m.setSector (l / 32) { t with dirty := t.dirty ||| one } else m
    m.dropL0 none (· = l)) m

/-! ### Translation (R150, R151, R451) -/

/-- Why a walk fails: an entry with V = 0 at a level; an entry that breaks R151, with its level, kind and address. -/
inductive WalkErr
  | invalid (level : Nat)
  | malformed (level kind pa : Nat)
deriving DecidableEq, Repr

def pteFrame (e : Nat) : Nat := bits e 51 16 * 65536

/-- Kind of R451 that a valid entry breaks, if any; `leaf` says that it is read as a leaf. -/
def pteBreaks (level : Nat) (e : Nat) : Option Nat :=
  let leaf := level = 2 || (level = 1 && bit e 9)
  let fr := pteFrame e
  if bits e 63 52 ≠ 0 || bits e 15 10 ≠ 0 then some 0
  else if (level = 0 && bit e 9) || (level = 1 && bit e 9 && bits e 28 16 ≠ 0) then some 1
  else if !backed fr || (leaf && bit e 6 != hostPa fr) then some 2
  else none

/-- Read one entry of the table at `table` (R150, R451). -/
def Memory.pte (m : Memory) (table level index : Nat) : Except WalkErr Nat :=
  let pa := table + 8 * index
  let e := m.nat pa 8
  if !backed pa then .error (.invalid level)
  else if m.isBad pa then .error (.malformed level 3 pa)
  else if !bit e 0 then .error (.invalid level)
  else match pteBreaks level e with
    | some k => .error (.malformed level k pa)
    | none => .ok e

/-- Walk the tables at `root` for the virtual address `va` (R150). -/
def Memory.walk (m : Memory) (ctx root va : Nat) : Except WalkErr TlbEntry :=
  match m.pte root 0 (bits va 54 42) with
  | .error e => .error e
  | .ok e0 =>
    match m.pte (pteFrame e0) 1 (bits va 41 29) with
    | .error e => .error e
    | .ok e1 =>
      if bit e1 9 then
        .ok { ctx := ctx, va := va / 2 ^ 29 * 2 ^ 29, size := 2 ^ 29, frame := pteFrame e1, attr := BitVec.ofNat 9 e1 }
      else
        match m.pte (pteFrame e1) 2 (bits va 28 16) with
        | .error e => .error e
        | .ok e2 =>
          .ok { ctx := ctx, va := va / 65536 * 65536, size := 65536, frame := pteFrame e2, attr := BitVec.ofNat 9 e2 }

def TlbEntry.covers (e : TlbEntry) (ctx va : Nat) : Bool := e.ctx = ctx && e.va ≤ va && va < e.va + e.size
def TlbEntry.pa (e : TlbEntry) (va : Nat) : Nat := e.frame + (va - e.va)
def attrW (a : BitVec 9) : Bool := a.getLsbD 1
def attrX (a : BitVec 9) : Bool := a.getLsbD 2
def attrCtr (a : BitVec 9) : Bool := a.getLsbD 3
def attrCmp (a : BitVec 9) : Bool := a.getLsbD 5
def attrEmb (a : BitVec 9) : Bool := a.getLsbD 4
def attrHost (a : BitVec 9) : Bool := a.getLsbD 6
def attrWb (a : BitVec 9) : Bool := a.getLsbD 7
def attrCount (a : BitVec 9) : Bool := a.getLsbD 8

/-- The translation that one TLB holds. -/
def Memory.tlbAt (m : Memory) (p : TlbPlace) (ctx va : Nat) : Option TlbEntry :=
  (m.tlb.find? (fun e => e.1 = p && e.2.covers ctx va)).map (·.2)

/-- The translation that a core finds: in its micro-TLB, or in the TLB of its cluster (R152). -/
def Memory.tlbFind (m : Memory) (core ctx va : Nat) : Option TlbEntry :=
  match m.tlbAt (.core core) ctx va with
  | some e => some e
  | none => m.tlbAt (.cluster (core / 4)) ctx va

/-- The translation that an agent finds held: a core; an engine in the TLB of the issuing cluster; none for an agent that
translates by a walker (R152). -/
def Memory.tlbLook (m : Memory) (via : Option TlbPlace) (ctx va : Nat) : Option TlbEntry :=
  match via with
  | some (.core n) => m.tlbFind n ctx va
  | some (.cluster n) => m.tlbAt (.cluster n) ctx va
  | none => none

/-- A translation that a TLB holds, or the walk's (R152). -/
def Memory.translate (m : Memory) (via : Option TlbPlace) (ctx root va : Nat) : Except WalkErr TlbEntry :=
  match m.tlbLook via ctx va with
  | some e => .ok e
  | none => m.walk ctx root va

/-- Translations that a TLB holds at most (R152). -/
def TlbPlace.size : TlbPlace → Nat
  | .core _ => 64
  | .cluster _ => 4096

/-- Drop the oldest translations of a TLB beyond its size. -/
def trimTlb (p : TlbPlace) : Nat → List (TlbPlace × TlbEntry) → List (TlbPlace × TlbEntry)
  | _, [] => []
  | n, e :: l => if e.1 = p then (match n with | 0 => trimTlb p 0 l | k + 1 => e :: trimTlb p k l) else e :: trimTlb p n l

def Memory.holdAt (m : Memory) (p : TlbPlace) (e : TlbEntry) : Memory :=
  if (p, e) ∈ m.tlb then m else { m with tlb := trimTlb p p.size ((p, e) :: m.tlb) }

/-- Hold a translation where an agent looks for it: for a core in its micro-TLB and in the TLB of its cluster (R152). -/
def Memory.hold (m : Memory) (via : Option TlbPlace) (e : TlbEntry) : Memory :=
  match via with
  | some (.core n) => (m.holdAt (.core n) e).holdAt (.cluster (n / 4)) e
  | some (.cluster n) => m.holdAt (.cluster n) e
  | none => m

/-- The addresses of the entries that a walk reads (R150). -/
def Memory.walkReads (m : Memory) (root va : Nat) : List Nat :=
  let a0 := root + 8 * bits va 54 42
  match m.pte root 0 (bits va 54 42) with
  | .error _ => [a0]
  | .ok e0 =>
    let a1 := pteFrame e0 + 8 * bits va 41 29
    match m.pte (pteFrame e0) 1 (bits va 41 29) with
    | .error _ => [a0, a1]
    | .ok e1 => if bit e1 9 then [a0, a1] else [a0, a1, pteFrame e1 + 8 * bits va 28 16]

/-- Pieces of a virtual range that lie in one 64 KiB page each. -/
def pieces : Nat → Nat → Nat → List (Nat × Nat)
  | 0, _, _ => []
  | _, _, 0 => []
  | fuel + 1, va, n =>
    let k := min n (65536 - va % 65536)
    (va, k) :: pieces fuel (va + k) (n - k)

def piecesOf (va n : Nat) : List (Nat × Nat) := pieces (n / 65536 + 2) va n

/-! ### Scratchpad (R137, R138) -/

/-- The physical local offset that an access with rotation code k reaches (R138). -/
def rotate (k l : Nat) : Nat :=
  let row := l / 512
  let c := l / 16 % 32
  let b := if k = 0 then c else (c + row / 2 ^ (k - 1)) % 32
  row * 512 + 16 * b + l % 16

end Sys2Proof.Machine
end

