-- ==== Sys2Proof/Machine/Ops.lean ====
section
/-! DEFINITION. Ops.lean: the named operations over the state: looking up and changing its parts, registers, records and
sparks, counters, containment, taking an exception and returning from it, paths. -/

namespace Sys2Proof.Machine

/-! ### Sets of positions -/

def maskList (m : W64) : List Nat := (List.range 64).filter (fun t => m.getLsbD t)
def maskOf (ts : List Nat) : W64 := ts.foldl (fun a t => a ||| ((1 : W64) <<< t)) 0
def maskCount (m : W64) : Nat := (maskList m).length
/-- Position of the lowest set bit; 64 for none. -/
def maskLow (m : W64) : Nat := ((maskList m).head?).getD 64

/-! ### Looking up and changing parts -/

def State.ctx? (s : State) (n : Nat) : Option Ctx := s.ctxs.find? (fun c => c.num = n)
def State.updCtx (s : State) (n : Nat) (f : Ctx → Ctx) : State := { s with ctxs := mapIf (fun c => c.num = n) f s.ctxs }
def State.group? (s : State) (k : Nat) : Option Group := s.groups.find? (fun g => g.key = k)
def State.updGroup (s : State) (k : Nat) (f : Group → Group) : State := { s with groups := mapIf (fun g => g.key = k) f s.groups }
def Group.updWarp (g : Group) (w : Nat) (f : Warp → Warp) : Group := { g with warps := g.warps.modify w f }
def State.updWarp (s : State) (k w : Nat) (f : Warp → Warp) : State := s.updGroup k (fun g => g.updWarp w f)
def Warp.updThread (w : Warp) (t : Nat) (f : Thread → Thread) : Warp := { w with threads := w.threads.modify t f }
def State.updThread (s : State) (k w t : Nat) (f : Thread → Thread) : State := s.updWarp k w (fun x => x.updThread t f)
def Warp.updPath (w : Warp) (p : Nat) (f : Path → Path) : Warp := { w with paths := w.paths.modify p f }
def State.updPath (s : State) (r : PathRef) (f : Path → Path) : State := s.updWarp r.g r.w (fun w => w.updPath r.p f)
def State.warp? (s : State) (k w : Nat) : Option Warp := (s.group? k).bind (fun g => g.warps[w]?)
def State.path? (s : State) (r : PathRef) : Option Path := (s.warp? r.g r.w).bind (fun w => w.paths[r.p]?)
def State.launch? (s : State) (k : Nat) : Option Launch := s.launches.find? (fun l => l.key = k)
def State.updLaunch (s : State) (k : Nat) (f : Launch → Launch) : State :=
  { s with launches := mapIf (fun l => l.key = k) f s.launches }
def State.task? (s : State) (c i : Nat) : Option Task := s.tasks.find? (fun t => t.cluster = c && t.index = i)
def State.updTask (s : State) (c i : Nat) (f : Task → Task) : State :=
  { s with tasks := mapIf (fun t => t.cluster = c && t.index = i) f s.tasks }
def State.port (s : State) (n : Nat) : Port := sget Port.reset s.ports n
def State.updPort (s : State) (n : Nat) (f : Port → Port) : State := { s with ports := sset Port.reset s.ports n (f (s.port n)) }
/-- A number that no key has had. -/
def State.fresh (s : State) : State × Nat := ({ s with stamp := s.stamp + 1 }, s.stamp)

/-- The compute die and the cluster of a core (R12). -/
def clusterOf (core : Nat) : Nat := core / 4
def dieOf (core : Nat) : Nat := core / 48

/-- A group works while neither its gang nor its context is stopped (R413, R98). -/
def State.working (s : State) (g : Group) : Bool :=
  !g.stop && match s.ctx? g.ctx with | some c => decide (c.run = .running) | none => false

/-! ### Agents and scopes (R164, R165) -/

/-- Who makes an access: a thread, or an engine that acts on its command, which belongs to every instance that holds the thread; a
fabric receive or a sequencer, or the device itself; the control node. -/
inductive Agent
  | thread (g w t : Nat)
  | fabric
  | node
deriving DecidableEq, Repr

/-- Agent b is in the instance of a scope that holds the threads m of warp w of group g. The groups of a cluster share an instance,
but for those of a W launch and for range-task workers. -/
def State.inScope (s : State) (sc : Scope) (g w : Nat) (m : W64) (b : Agent) : Bool :=
  match sc, b with
  | .thr, .thread h v t => g = h && w = v && m.getLsbD t
  | .wrp, .thread h v _ => g = h && w = v
  | .grp, .thread h _ _ => g = h
  | .clu, .thread h _ _ => g = h || (match s.group? g with | some q => q.cls != .w && q.task.isNone && q.mates.contains h | none => false)
  | .dev, .node => false
  | .dev, _ => true
  | .sys, _ => true
  | _, _ => false

/-- Agent a is in the instance of a scope that holds agent b. -/
def State.holdsAgent (s : State) (sc : Scope) (b a : Agent) : Bool :=
  match b with
  | .thread g w t => s.inScope sc g w ((1 : W64) <<< t) a
  | .fabric => a = b || sc = .sys || (sc = .dev && a != .node)
  | .node => a = b || sc = .sys

/-- Some access of these is not yet served. -/
def State.unserved (s : State) (ids : List Nat) : Bool := s.mem.ops.any (fun o => ids.contains o.id && o.parts.any (fun p => !p.served))

/-- A read of n bytes waits for what a release of them covers (R169): the reader is in the releasing scope's instance, and its own
scope, if it has one, holds the releasing threads. -/
def State.veiled (s : State) (b : Agent) (y : Option Scope) (pa n : Nat) : Bool :=
  s.mem.veils.any (fun v => v.pa < pa + n && pa < v.pa + v.len && s.inScope v.scope v.g v.w v.tmask b && s.unserved v.after &&
    (match y with
     | some sc => (maskList v.tmask).any (fun t => s.holdsAgent sc b (.thread v.g v.w t))
     | none => true))

/-! ### Counts since power-up (R391) -/

/-- Add to a count: class of block, number of block, place of the count. -/
def State.count (s : State) (cls block place n : Nat) : State :=
  let k := cls * 2 ^ 20 + block * 2 ^ 4 + place
  { s with dev := { s.dev with counts := sset 0 s.dev.counts k (sget 0 s.dev.counts k + n) } }

/-- A request of a class served at a slice, and a turn of its sector (R391). -/
def State.served (s : State) (x cls : Nat) (turned : Bool) : State :=
  let s := s.count 1 (sliceOf x) cls 1
  if turned then s.count 1 (sliceOf x) 4 1 else s

/-! ### Registers (R113, R194) -/

def Thread.reg (t : Thread) (n : Nat) : Reg := sget Reg.zero t.v n
def Thread.setReg (t : Thread) (n : Nat) (r : Reg) : Thread := { t with v := sset Reg.zero t.v n r }
def Warp.reg (w : Warp) (n : Nat) : Reg := sget Reg.zero w.w n
def Warp.setReg (w : Warp) (n : Nat) (r : Reg) : Warp := { w with w := sset Reg.zero w.w n r }
def Thread.pred (t : Thread) (n : Nat) : Bool := t.p.getLsbD n
def Thread.predBad (t : Thread) (n : Nat) : Bool := t.pBad.getLsbD n
def Thread.setPred (t : Thread) (n : Nat) (v bad : Bool) : Thread :=
  let one : BitVec 7 := 1 <<< n
  { t with
    p := if v then t.p ||| one else t.p &&& ~~~one
    pBad := if bad then t.pBad ||| one else t.pBad &&& ~~~one }

/-- Registers per thread (R82). -/
def Group.nregs (g : Group) : Nat := 16 * (g.nreg + 1)
def Reg.ofNat (x : Nat) (bad : Bool) : Reg := ⟨BitVec.ofNat 32 x, bad⟩
/-- The words of a value, lowest first. -/
def regsOf : Nat → Nat → Bool → List Reg
  | 0, _, _ => []
  | n + 1, x, bad => Reg.ofNat x bad :: regsOf n (x / 2 ^ 32) bad
/-- The value of words, lowest first. -/
def regsNat : List Reg → Nat
  | [] => 0
  | r :: rs => r.val.toNat + 2 ^ 32 * regsNat rs
def regsBad (rs : List Reg) : Bool := rs.any (·.bad)

/-! ### Cluster scratchpad (R137, R138) -/

/-- The group and the local offset that a cluster offset names. -/
def Group.locate (g : Group) (o : Nat) : Option (Nat × Nat) :=
  let sz := g.spg * 65536
  if sz = 0 then none else (g.mates[o / sz]?).map (fun k => (k, o % sz))

/-- A byte of cluster scratchpad by rotation code, with its tag; none out of range. -/
def State.scratchByte (s : State) (g : Group) (k o : Nat) : Option (Byte × Bool) :=
  (g.locate o).bind (fun (m, l) => (s.group? m).map (fun q => (sget 0 q.scratch (rotate k l), setMem q.scratchBad (rotate k l / 8))))

/-- Bytes of cluster scratchpad; those out of range read zero and unpoisoned (R456). -/
def State.scratchBytes (s : State) (g : Group) (k o n : Nat) : List (Byte × Bool) :=
  (List.range n).map (fun i => (s.scratchByte g k (o + i)).getD (0, false))

/-- The first offset of n bytes that is out of range. -/
def State.scratchOut (s : State) (g : Group) (o n : Nat) : Option Nat :=
  ((List.range n).map (o + ·)).find? (fun a => (s.scratchByte g 0 a).isNone)

/-- Write one byte; `clear` says that its whole word is replaced by unpoisoned data (R417). -/
def State.putScratchByte (s : State) (g : Group) (k o : Nat) (b : Byte) (bad clear : Bool) : State :=
  match g.locate o with
  | none => s
  | some (m, l) =>
    let a := rotate k l
    s.updGroup m (fun q => { q with
      scratch := sset 0 q.scratch a b
      scratchBad := if bad then setIns q.scratchBad (a / 8) else if clear then setDel q.scratchBad (a / 8) else q.scratchBad })

/-- Write bytes from cluster offset o; bytes out of range are dropped (R456). The rotation moves 16-byte units whole, so a
word is replaced whole under every code when it is under code 0. -/
def State.putScratch (s : State) (g : Group) (k o : Nat) (bs : List Byte) (bad : Bool) : State :=
  let n := bs.length
  (bs.zipIdx).foldl (fun s (b, i) =>
    let w := (o + i) / 8 * 8
    s.putScratchByte g k (o + i) b bad (o ≤ w && w + 8 ≤ o + n)) s

/-! ### Clocks (R15, R389) -/

/-- The cycle count of a block, by agent class and number (R418): the clock of its domain, with what its own count is ahead. Ports
and sequencers count in the fabric clock. R15 names no domain for the base die (class 9), which counts in the fabric clock here,
nor for the management controller (class 11), which counts in the core clock here; DESIGN CHOICE, log 44. -/
def lcycOf (core fabric : Nat) (lead : List (Nat × Nat)) (acls block : Nat) : Nat :=
  ((if acls = 5 || acls = 8 || acls = 9 then fabric else core) + sget 0 lead (acls * 2 ^ 16 + block)) % 2 ^ 64

def State.lcyc (s : State) (acls block : Nat) : Nat := lcycOf s.coreClock s.fabricClock s.lead acls block

/-! ### Sparks (R390) -/

/-- The counts that a spark latches. -/
def State.latch (s : State) : List (Nat × Nat) :=
  s.cores.stall.foldl (fun c (core, n) => sset 0 c (core * 2 ^ 4 + 1) n.toNat) s.dev.counts

/-- Raise a spark from a source; a spark raised within 32 cycles of the one before merges into it. Answers its number. -/
def State.spark (s : State) (src : Nat) (tag : Nat) : State × W32 :=
  let one : BitVec 5 := 1 <<< src
  let merge : Bool := match s.dev.sparkAt with | some at_ => s.coreClock ≤ at_ + 32 | none => false
  let fresh : Snap := { no := s.dev.spark, src := one, tag := BitVec.ofNat 16 tag, counts := s.latch, sense := s.ticks,
                        coreClock := s.coreClock, fabricClock := s.fabricClock, lead := s.lead,
                        power := s.dev.power :: (List.range 4).map (sget 0 s.cores.diePower) }
  match if merge then s.dev.snaps.head? else none with
  | some h => ({ s with dev := { s.dev with snaps := { h with src := h.src ||| one } :: s.dev.snaps.tail } }, h.no)
  | none =>
    ({ s with
        ticks := s.ticks + 1
        dev := { s.dev with
          spark := s.dev.spark + 1
          sparkAt := some s.coreClock
          snaps := (fresh :: s.dev.snaps).take 4 } }, s.dev.spark)

/-! ### Watchpoints (R340, R341) -/

def Watch.watches (w : Watch) (read write : Bool) (pa n : Nat) : Bool :=
  ((write && bit w.kind 0) || (read && bit w.kind 1)) && decide (w.base < pa + n) && decide (pa < w.base + 2 ^ w.sz)

/-- A hit: COUNT rises; the first sets the other fields. -/
def Watch.take (w : Watch) (pa cls agent : Nat) : Watch :=
  let w' := { w with count := min 0xFFFF (w.count + 1) }
  if w.hit then w'
  else { w' with
    hit := true
    cls := cls
    agent := agent
    off := max pa w.base - w.base }

/-- Test an access of several runs of bytes against every watchpoint; the least index that it hits. -/
def State.watchAny (s : State) (read write : Bool) (ps : List (Nat × Nat)) (cls agent : Nat) : State × Option Nat :=
  s.ctxs.foldl (fun (s, hit) c =>
    c.watch.zipIdx.foldl (fun (s, hit) (w, i) =>
      match ps.find? (fun p => w.watches read write p.1 p.2) with
      | some p =>
        let s := s.updCtx c.num (fun c => { c with watch := c.watch.modify i (fun w => w.take p.1 cls agent) })
        let s := if w.hit then s else (s.spark 1 0).1
        (s, match hit with | some j => some (min i j) | none => some i)
      | none => (s, hit)) (s, hit)) (s, none)

/-- Test an access of n bytes. -/
def State.watch (s : State) (read write : Bool) (pa n cls agent : Nat) : State × Option Nat := s.watchAny read write [(pa, n)] cls agent

/-- Some watchpoint would be hit. -/
def State.watched (s : State) (read write : Bool) (pa n : Nat) : Bool :=
  s.ctxs.any (fun c => c.watch.any (fun w => w.watches read write pa n))

/-- Class by which a watchpoint names the agent of a counter's advance (R340): the agent class of a record, sequencers as
fabric receives; none for the device itself. -/
def watchClass (acls : Nat) : Option Nat := if acls = 8 then some 5 else if acls ≤ 7 then some acls else none

/-- Request class of an agent's access (R79), by its agent class: a port, a sequencer or a remote device has class 1, a copy engine
class 3; cores, matrix units and kiln units have class 2 (DESIGN CHOICE, log 46, for kiln units and the control node). -/
def reqClass (acls : Nat) : Nat := if acls = 5 || acls = 6 || acls = 8 then 1 else if acls = 2 then 3 else 2

/-! ### The device's own accesses to virtual memory -/

/-- A translation for an agent that looks in the TLBs of `via` (R152), or by a walk. -/
def State.translate (s : State) (c : Ctx) (va : Nat) (via : Option TlbPlace := none) : Except WalkErr TlbEntry :=
  if 2 ^ 55 ≤ va then .error (.invalid 0) else s.mem.translate via c.num c.ptRoot.toNat va

/-- A walk reads its entries as row requests of class 0 (R79, R143, R152). -/
def State.walkRead (s : State) (c : Ctx) (va : Nat) : State :=
  ((s.mem.walkReads c.ptRoot.toNat va).filter backed).foldl (fun s pa =>
    ({ s with mem := (s.mem.rowLine (pa / 32) false).1 }).served (pa / 1024) 0 false) s

/-- The walk of an agent that does not hold a translation that it uses (R152). -/
def State.walked (s : State) (via : Option TlbPlace) (e : TlbEntry) : State :=
  match s.mem.tlbLook via e.ctx e.va, s.ctx? e.ctx with
  | none, some c => s.walkRead c e.va
  | _, _ => s

/-- The physical pieces of a virtual range whose translations satisfy `ok`; none when one fails. -/
def State.range? (s : State) (c : Ctx) (ok : BitVec 9 → Bool) (via : Option TlbPlace) : List (Nat × Nat) → Option (List (Nat × Nat))
  | [] => some []
  | (va, n) :: rest =>
    match s.translate c va via with
    | .error _ => none
    | .ok e => if ok e.attr then (s.range? c ok via rest).map (fun l => (e.pa va, n) :: l) else none

/-- The translations of a virtual range, held from then on in the TLBs of the agent (R152). -/
def State.holdRange (s : State) (c : Ctx) (va n : Nat) (via : Option TlbPlace := none) : State :=
  (piecesOf va n).foldl (fun s p =>
    match s.translate c p.1 via with
    | .error _ => s
    | .ok e => { s with mem := s.mem.hold via e }) s

/-- Some page of the range stands at WB (R157). -/
def State.wbRange (s : State) (c : Ctx) (va n : Nat) (via : Option TlbPlace := none) : Bool :=
  (piecesOf va n).any (fun p => match s.translate c p.1 via with | .ok e => attrWb e.attr | .error _ => false)

def State.readPieces (s : State) (ps : List (Nat × Nat)) : List Byte := ps.flatMap (fun p => s.mem.bytes p.1 p.2)
def State.badPieces (s : State) (ps : List (Nat × Nat)) : Bool := ps.any (fun p => s.mem.anyBad p.1 p.2)

/-- Write bytes of the device over physical pieces. -/
def State.writePieces (s : State) : List (Nat × Nat) → List Byte → Bool → State
  | [], _, _ => s
  | (pa, n) :: rest, bs, bad =>
    let s := { s with mem := (s.mem.write pa (bs.take n) bad).through pa n }
    s.writePieces rest (bs.drop n) bad

/-- Read n bytes of a context's memory for the device; none when a page has no valid translation. The flag says whether a
word is poisoned. -/
def State.readVirt (s : State) (c : Ctx) (va n : Nat) (via : Option TlbPlace := none) : Option (List Byte × Bool) :=
  (s.range? c (fun _ => true) via (piecesOf va n)).map (fun ps => (s.readPieces ps, s.badPieces ps))

/-- Pages that the device writes: V, W and no CTR (R330). -/
def plainW (a : BitVec 9) : Bool := attrW a && !attrCtr a

/-! ### Records (R418 to R421) -/

def ErrRec.none : ErrRec :=
  { addr := 0, pc := 0, tmask := 0, lcyc := 0, cls := 0, domain := 0, phys := false, wid := 0xFF, launch := 0, group := 0,
    ctx := 0, spark := 0, acls := 11, agent := 0, ovf := 0, detail := 0, extra := [] }

/-- The 512 bits of a record (R418). -/
def ErrRec.code (e : ErrRec) (seq : Nat) (cn : Bool) : Nat :=
  e.detail % 2 ^ 28 + e.ovf % 2 ^ 16 * 2 ^ 28 + e.agent % 2 ^ 16 * 2 ^ 44 + e.acls % 2 ^ 4 * 2 ^ 60
  + e.spark.toNat * 2 ^ 64 + e.ctx % 2 ^ 32 * 2 ^ 96 + e.group % 2 ^ 24 * 2 ^ 144 + e.launch % 2 ^ 24 * 2 ^ 168
  + e.wid % 2 ^ 8 * 2 ^ 192 + cn.toNat * 2 ^ 203 + e.phys.toNat * 2 ^ 204 + e.domain % 8 * 2 ^ 205
  + e.cls % 2 ^ 8 * 2 ^ 208 + 3 * 2 ^ 216 + seq % 2 ^ 32 * 2 ^ 224 + e.lcyc % 2 ^ 64 * 2 ^ 256
  + e.tmask.toNat * 2 ^ 320 + e.pc.toNat * 2 ^ 384 + e.addr.toNat * 2 ^ 448

/-- The address of a ticket's slot (R330). -/
def Ctx.slotVa (c : Ctx) (ticket : Nat) : Nat := (c.svcqBase.toNat + 544 * (ticket % c.svcqSize.toNat)) % 2 ^ 64

/-- Bytes of a slot for the device, under the checks of R330. -/
def State.slotPieces (s : State) (c : Ctx) (va n : Nat) : Option (List (Nat × Nat)) := s.range? c plainW none (piecesOf va n)

/-- The slot that the next record of n bytes takes, with its ticket; none when no slot is free (R330, R331, R420). -/
def State.freeSlot (s : State) (c : Ctx) (n : Nat) : Option (Nat × List (Nat × Nat)) :=
  let head := c.svcqHead.toNat
  if c.svcqBase = 0 || c.svcqHead - c.svcqTail = c.svcqSize then none
  else
    match s.slotPieces c (c.slotVa head) n with
    | none => none
    | some ps => if (s.readPieces ps).getD 27 0 = 0 then some (head, ps) else none

/-- The location of a counter (R133). -/
inductive CtrLoc
  | phys (pa : Nat)
  | scratch (g l : Nat)
deriving DecidableEq, Repr

/-- VALUE and attribute word of a counter, and whether a word of it is poisoned. -/
def State.ctrGet (s : State) : CtrLoc → Nat × Nat × Bool
  | .phys pa => (s.mem.nat pa 8, s.mem.nat (pa + 8) 8, s.mem.anyBad pa 8)
  | .scratch g l =>
    match s.group? g with
    | none => (0, 0, false)
    | some q =>
      let byte := fun i => sget (0 : Byte) q.scratch (l + i)
      (leNat ((List.range 8).map byte), leNat ((List.range 8).map (fun i => byte (i + 8))), setMem q.scratchBad (l / 8))

/-- Write bytes of a counter object at offset o of it. -/
def State.ctrPut (s : State) (c : CtrLoc) (o : Nat) (bs : List Byte) (bad : Bool) : State :=
  match c with
  | .phys pa => { s with mem := ((s.mem.write (pa + o) bs bad).rowLine ((pa + o) / 32) true).1 }
  | .scratch g l => s.updGroup g (fun q => { q with
      scratch := putCells q.scratch (l + o) bs
      scratchBad := putTags q.scratchBad (l + o) bs.length bad })

/-- The place of a counter on a global page for an advance by an engine, or the kind of R459. -/
def State.engineCtr (s : State) (c : Ctx) (va : Nat) (via : Option TlbPlace := none) : Except Nat CtrLoc :=
  match s.translate c (va / 16 * 16) via with
  | .error _ => .error 2
  | .ok e => if attrCtr e.attr && attrW e.attr then .ok (.phys (e.pa (va / 16 * 16))) else .error 3

/-- Add to a counter as an engine does; a sum beyond 64 bits saturates and answers kind 1 (R459). -/
def State.ctrAdd (s : State) (l : CtrLoc) (v : Nat) : State × Option Nat :=
  let (old, _, bad) := s.ctrGet l
  if 2 ^ 64 ≤ old + v then (s.ctrPut l 0 (leBytes 8 (2 ^ 64 - 1)) bad, some 1) else (s.ctrPut l 0 (leBytes 8 (old + v)) bad, none)

/-- An advance of the device at a virtual address; one on a page at WB is stalled (R157). Answers the kind of R459. -/
def State.deviceAdd (s : State) (ctx va v acls agent : Nat) (via : Option TlbPlace := none) : State × Option Nat :=
  match s.ctx? ctx with
  | none => (s, none)
  | some c =>
    match s.engineCtr c va via with
    | .error k => (s, some k)
    | .ok l =>
      if s.wbRange c (va / 16 * 16) 16 via then
        let (s, id) := s.fresh
        ({ s with mem := { s.mem with stalls := s.mem.stalls ++ [{ id := id, ctx := ctx, va := BitVec.ofNat 64 va, by_ := .add (BitVec.ofNat 64 v) acls agent, ready := false }] } }, none)
      else
        let (s, k) := (s.holdRange c va 16 via).ctrAdd l v
        match l, watchClass acls with
        | .phys pa, some cls => (((s.served (pa / 1024) (reqClass acls) false).watch true true pa 8 cls agent).1, k)
        | _, _ => (s, k)

/-- A write of the device to some of these bytes is stalled (R157). -/
def State.deviceStalled (s : State) (c : Ctx) (va n : Nat) : Bool :=
  s.mem.stalls.any (fun x => x.ctx = c.num && match x.by_ with
    | .device bs _ _ => decide (x.va.toNat < va + n && va < x.va.toNat + bs.length)
    | _ => false)

/-- Make a write of the device, raise PNQHEAD if it is a notification (R156), then advance a counter. -/
def State.deviceStore (s : State) (c : Ctx) (va : Nat) (bs : List Byte) (then_ : Option W64) (raise : Bool := false) : State × Option Nat :=
  let s := match s.range? c plainW none (piecesOf va bs.length) with
    | none => s
    | some ps => s.writePieces ps bs false
  let s := if raise then s.updCtx c.num (fun c => { c with pnqHead := c.pnqHead + 1 }) else s
  match then_ with
  | none => (s, none)
  | some a => s.deviceAdd c.num a.toNat 1 11 0

/-- Write bytes of the device over a slot or ring, then advance a counter; on a page at WB both wait (R157, R330), and behind a
write that waits there. -/
def State.deviceWrite (s : State) (c : Ctx) (va : Nat) (bs : List Byte) (then_ : Option W64) (raise : Bool := false) : State × Option Nat :=
  let wb := s.wbRange c va bs.length
  if wb || s.deviceStalled c va bs.length then
    let (s, id) := s.fresh
    ({ s with mem := { s.mem with stalls := s.mem.stalls ++ [{ id := id, ctx := c.num, va := BitVec.ofNat 64 va, by_ := .device bs raise then_, ready := !wb }] } }, none)
  else s.deviceStore c va bs then_ raise

/-- Write a record to the context's queue, or send it, or both (R419, R420). Answers its ticket and, when the advance of
SVCQCTR failed, the kind of R459. -/
def State.putRecord (s : State) (e : ErrRec) : State × Option Nat × Option Nat :=
  let (s, no) := s.spark 2 0
  let e := { e with spark := no }
  let forNode := e.ctx = 0 || e.domain = 4 || e.domain = 5 || e.domain = 6
  let send := fun (s : State) (seq : Nat) => { s with dev := { s.dev with messages := s.dev.messages ++ [leBytes 64 (e.code seq true)] } }
  match s.ctx? e.ctx with
  | none => (send s 0, none, none)
  | some c =>
    match s.freeSlot c (64 + e.extra.length) with
    | none => (send s 0, none, none)
    | some (ticket, _) =>
      let s := s.updCtx c.num (fun c => { c with svcqHead := c.svcqHead + 1 })
      let bs := leBytes 64 (e.code ticket forNode) ++ e.extra
      let (s, k) := s.deviceWrite c (c.slotVa ticket) bs (if c.svcqCtr = 0 then none else some c.svcqCtr)
      (if forNode then send s ticket else s, some ticket, k)

/-- Report an error; a failed advance of SVCQCTR is itself reported once (R459). Answers the ticket. -/
def State.emit (s : State) (e : ErrRec) : State × Option Nat :=
  let (s, ticket, k) := s.putRecord e
  match k, s.ctx? e.ctx with
  | some kind, some c =>
    let e := { ErrRec.none with addr := c.svcqCtr, cls := 0x27, ctx := c.num, lcyc := s.lcyc 11 0, detail := kind + 11 * 16 }
    ((s.putRecord e).1, ticket)
  | _, _ => (s, ticket)

/-- Change the bits of a record that still stands in its slot (R422, R462). -/
def State.patch (s : State) (ctx ticket : Nat) (f : Nat → Nat) : State :=
  match s.ctx? ctx with
  | none => s
  | some c =>
    match (if c.svcqBase = 0 then none else s.slotPieces c (c.slotVa ticket) 64) with
    | none => s
    | some ps =>
      let x := leNat (s.readPieces ps)
      if bits x 223 216 = 3 && bits x 255 224 = ticket % 2 ^ 32 then s.writePieces ps (leBytes 64 (f x)) false else s

/-- One more error folded into a record (R418, R422). -/
def foldOvf (x : Nat) : Nat := if bits x 43 28 = 0xFFFF then x else x + 2 ^ 28

/-- A context under containment, or the device, takes an error into its record (R422). -/
def State.folds (s : State) (ctx : Nat) : Option State :=
  if s.dev.contained then some { s with dev := { s.dev with ovf := min 0xFFFF (s.dev.ovf + 1) } }
  else
    match s.ctx? ctx with
    | some c =>
      if c.run = .contained then
        let s := s.updCtx ctx (fun c => { c with ovf := min 0xFFFF (c.ovf + 1) })
        match c.record with
        | some t => some (s.patch ctx t foldOvf)
        | none => some s
      else none
    | none => none

/-- Report an error of domain thread, path or link, or one whose containment is done (R413, R419, R422). -/
def State.report (s : State) (e : ErrRec) : State :=
  match s.folds e.ctx with
  | some s => s
  | none => (s.emit e).1

/-- An advance by an agent that is not a thread, with its failure reported (R459). -/
def State.advance (s : State) (ctx va v acls agent : Nat) (via : Option TlbPlace := none) : State :=
  let (s, k) := s.deviceAdd ctx va v acls agent via
  match k with
  | none => s
  | some kind => s.report { ErrRec.none with addr := BitVec.ofNat 64 va, cls := 0x27, ctx := ctx, lcyc := s.lcyc acls agent, acls := acls,
                                             agent := agent, detail := kind + acls * 16 }

/-- An advance of a counter by an engine: on a global page, or of a cluster's scratchpad (R281, R299, R459). -/
def State.advanceOf (s : State) (g : Group) (csp : Bool) (a : W64) (v acls agent : Nat) : State :=
  if csp then
    let o := a.toNat % 2 ^ 32 / 16 * 16
    let bad := fun (s : State) kind => s.report { ErrRec.none with addr := BitVec.ofNat 64 o, cls := 0x27, ctx := g.ctx, lcyc := s.lcyc acls agent,
                                                                   acls := acls, agent := agent, launch := g.launchId, group := g.handle,
                                                                   detail := kind + acls * 16 }
    match g.locate o with
    | none => bad s 4
    | some (m, l) =>
      match s.ctrAdd (.scratch m l) v with
      | (s, none) => s
      | (s, some kind) => bad s kind
  else s.advance g.ctx a.toNat v acls agent (some (.cluster (clusterOf g.core)))

/-! ### Containment (R413) -/

/-- The keys of the gang of a group (R61). -/
def State.gangOf (s : State) (g : Group) : List Nat :=
  match g.cls with
  | .c => (s.groups.filter (fun q => q.launch = g.launch && q.cls = .c)).map (·.key)
  | _ => [g.key]

/-- Stop groups as one gang: they issue nothing more; their record follows when they have stopped (R413, R422). -/
def State.stopGang (s : State) (keys : List Nat) (e : ErrRec) : State :=
  match s.folds e.ctx with
  | some s => s
  | none =>
    if s.stops.any (fun x => x.groups.any (fun k => k ∈ keys)) then
      let raise := fun (x : GangStop) => { x with err := { x.err with ovf := min 0xFFFF (x.err.ovf + 1) } }
      { s with stops := mapIf (fun x => x.groups.any (fun k => k ∈ keys)) raise s.stops }
    else
      { s with
        stops := s.stops ++ [{ groups := keys, err := e }]
        groups := mapIf (fun g => g.key ∈ keys) (fun g => { g with stop := true }) s.groups }

/-- Steps 1 to 3 of R98: the context stops and its kindling slots are discarded. -/
def State.haltCtx (s : State) (ctx : Nat) (run : Running) : State :=
  let mine := s.kindles.filter (fun k => match s.task? k.cluster k.index with | some t => t.ctx = ctx | none => false)
  let s := mine.foldl (fun s k => s.updTask k.cluster k.index (fun t => { t with state := 1 })) s
  let gone := mine.flatMap (·.loads)
  let s := { s with
    kindles := s.kindles.filter (fun k => !(mine.any (fun m => m.core = k.core && m.slot = k.slot)))
    mem := { s.mem with reqs := s.mem.reqs.filter (fun r => !(r.id ∈ gone)) } }
  s.updCtx ctx (fun c => { c with run := run })

/-- Contain a context (R413 code 4). -/
def State.containCtx (s : State) (ctx : Nat) (e : ErrRec) : State :=
  match s.folds ctx with
  | some s => s
  | none =>
    let s := s.haltCtx ctx .contained
    let (s, ticket) := s.emit { e with domain := 4 }
    s.updCtx ctx (fun c => { c with record := ticket, ovf := 0 })

/-- Contain the device (R413 code 5). -/
def State.containDevice (s : State) (e : ErrRec) : State :=
  match s.folds 0 with
  | some s => s
  | none =>
    let s := s.ctxs.foldl (fun s c => s.haltCtx c.num .contained) s
    let s := { s with dev := { s.dev with contained := true, ovf := 0 } }
    (s.emit { e with domain := 5 }).1

/-! ### Paths (R31 to R34) -/

def Path.start (access : Bool) (pc tmask : W64) : Path :=
  { st := .ready, skn := 0, age := 0, cvi := 0, access := access, pc := pc, skmask := 0, tmask := tmask, timer := 0,
    yielded := false, own := false, redo := 0, wait := none }

/-- A thread that has executed EXIT in one stream of a .dae launch and waits for the other (R57). -/
def Warp.parkedAt (w : Warp) (access : Bool) (t : Nat) : Bool :=
  match w.threads[t]? with
  | some th => if access then th.exitA else th.exitE
  | none => false

def Warp.parkedPath (w : Warp) (p : Path) : Bool := (maskList p.tmask).any (w.parkedAt p.access)

/-- Two paths merge (R34). -/
def Warp.merges (w : Warp) (a b : Path) : Bool :=
  a.pc = b.pc && a.access = b.access && a.st = b.st && (a.st = .ready || (a.st = .signed && a.cvi = b.cvi)) &&
  a.skn = 0 && b.skn = 0 && a.redo = 0 && b.redo = 0 && w.parkedPath a = w.parkedPath b

def Path.merge (a b : Path) : Path :=
  { a with
    tmask := a.tmask ||| b.tmask
    age := max a.age b.age
    timer := max a.timer b.timer
    yielded := a.yielded && b.yielded
    own := a.own || b.own }

/-- Put a path into a list whose paths do not merge with each other. -/
def Warp.mergeInto (w : Warp) (p : Path) : List Path → List Path
  | [] => [p]
  | q :: rest => if w.merges q p then q.merge p :: rest else q :: w.mergeInto p rest

/-- Remove paths without threads and merge the others (R30, R34). -/
def Warp.settle (w : Warp) : Warp :=
  { w with paths := (w.paths.filter (fun p => p.tmask != 0)).foldl (fun ps p => w.mergeInto p ps) [] }

def State.settle (s : State) (k w : Nat) : State := s.updWarp k w Warp.settle

/-- Words of an instruction in a skip region (R37). -/
def wordsIn (size : Nat) : Nat := size / 8

/-- A path moved past an instruction: the region shrinks by its words and is cleared at 0 (R37). -/
def Path.pass (p : Path) (size : Nat) : Path :=
  let n := p.skn - wordsIn size
  { p with
    pc := p.pc + BitVec.ofNat 64 size
    skn := n
    skmask := if n = 0 then 0 else p.skmask
    st := .ready
    age := 0
    timer := 0
    redo := 0
    wait := none }

/-- A path before an instruction that a region cannot take in whole: the region is over (R37). -/
def Path.trim (p : Path) (size : Nat) : Path := if p.skn < wordsIn size then { p with skn := 0, skmask := 0 } else p

/-- Take positions out of a path. -/
def Path.without (p : Path) (m : W64) : Path :=
  { p with
    tmask := p.tmask &&& ~~~m
    skmask := p.skmask &&& ~~~m
    redo := p.redo &&& ~~~m }

/-- The distinct targets of a list, first occurrence first. -/
def targetsOf : List (Nat × W64) → List W64
  | [] => []
  | (_, a) :: rest => a :: (targetsOf rest).filter (· != a)

/-- Finish an instruction of a path: threads with a target other than the next word leave on paths of their own (R33, R39),
the others pass it; then paths merge (R34). -/
def State.finish (s : State) (r : PathRef) (size : Nat) (moves : List (Nat × W64)) : State :=
  s.updWarp r.g r.w (fun w =>
    match w.paths[r.p]? with
    | none => w
    | some p =>
      let next := p.pc + BitVec.ofNat 64 size
      let away := moves.filter (fun m => m.2 != next && p.tmask.getLsbD m.1)
      let stay := (p.without (maskOf (away.map (·.1)))).pass size
      let new := (targetsOf away).map (fun a => Path.start p.access a (maskOf ((away.filter (fun m => m.2 = a)).map (·.1))))
      ({ w with paths := w.paths.set r.p { stay with own := true } ++ new }).settle)

/-! ### Taking an exception, and the return from it (R334, R335, R423, R424, R447) -/

/-- Write a thread's trap entry frame and raise its level (R423). -/
def Thread.enter (t : Thread) (nregs : Nat) (ret : W64) (cause : Nat) (fault : Bool) : Thread :=
  let last := t.super.toNat + 2 * fault.toNat
  let t := t.setReg (nregs - 4) ⟨lowWord ret, false⟩
  let t := t.setReg (nregs - 3) ⟨highWord ret, false⟩
  let t := t.setReg (nregs - 2) ⟨BitVec.ofNat 32 cause, false⟩
  let t := t.setReg (nregs - 1) ⟨BitVec.ofNat 32 last, false⟩
  { t with
    super := true
    trapped := true }

/-- Restore a thread's level from its frame (R335). -/
def Thread.leave (t : Thread) (nregs : Nat) : Thread :=
  { t with
    super := (t.reg (nregs - 1)).val.getLsbD 0
    trapped := false }

/-- The return address of a frame. Bits outside [54:3] of a program counter do not exist (R31). -/
def Thread.frameReturn (t : Thread) (nregs : Nat) : W64 :=
  pairOf (t.reg (nregs - 4)).val (t.reg (nregs - 3)).val &&& 0x007FFFFFFFFFFFF8

/-- Some thread of the mask is in a handler (R447). -/
def State.nested (s : State) (k w : Nat) (m : W64) : Bool :=
  match s.group? k with
  | none => false
  | some g =>
    (match s.ctx? g.ctx with | some c => c.super | none => false) ||
    (match g.warps[w]? with
     | some x => (maskList m).any (fun t => match x.threads[t]? with | some th => th.trapped | none => false)
     | none => false)

/-- TAKE AN EXCEPTION: the threads `m` of a path enter their handler with return address `ret` and a cause code (R334,
R423). Nested entries contain the context (R447). `skip` keeps the open region for them (R430 kind 10). -/
def State.enter (s : State) (r : PathRef) (m : W64) (ret : W64) (cause : Nat) (fault skip : Bool) : State :=
  match s.group? r.g, s.path? r with
  | some g, some p =>
    if s.nested r.g r.w m then
      s.containCtx g.ctx { ErrRec.none with
        pc := p.pc
        tmask := m
        lcyc := s.lcyc 1 g.core
        cls := 0x1F
        wid := r.w
        launch := g.launchId
        group := g.handle
        ctx := g.ctx
        acls := 1
        agent := g.core
        ovf := fault.toNat
        detail := cause % 2 ^ 16 }
    else
      let vec : W64 := match s.ctx? g.ctx with | some c => c.trapVec | none => 0
      s.updWarp r.g r.w (fun w =>
        let w := (maskList m).foldl (fun w t => w.updThread t (fun th => th.enter g.nregs ret cause fault)) w
        let new := Path.start p.access (vec &&& 0x007FFFFFFFFFFFF8) m
        let new := if skip then { new with skn := p.skn, skmask := p.skmask &&& m } else new
        { (w.updPath r.p (fun p => p.without m)) with paths := (w.paths.modify r.p (fun p => p.without m)) ++ [new] })
  | _, _ => s

/-- The record of an error of threads of a path; its address is physical for class 0x24 (R418, R451). -/
def State.pathErr (s : State) (r : PathRef) (m : W64) (cls domain : Nat) (addr : Nat) (detail : Nat) : ErrRec :=
  match s.group? r.g, s.path? r with
  | some g, some p =>
    { ErrRec.none with
      addr := BitVec.ofNat 64 addr
      pc := p.pc
      tmask := m
      lcyc := s.lcyc 1 g.core
      cls := cls
      domain := domain
      phys := cls = 0x24
      wid := r.w
      launch := g.launchId
      group := g.handle
      ctx := g.ctx
      acls := 1
      agent := g.core
      detail := detail }
  | _, _ => ErrRec.none

/-- A FAULT of domain thread or path: the threads `m` trap at their instruction, and a record follows (R413, R429); without
a handler their gang is contained instead (R424). -/
def State.faultAt (s : State) (r : PathRef) (m : W64) (ret : W64) (cls domain addr detail : Nat) (skip : Bool) : State :=
  if m = 0 then s
  else
    match s.group? r.g with
    | none => s
    | some g =>
      let e := s.pathErr r m cls domain addr detail
      let vec : W64 := match s.ctx? g.ctx with | some c => c.trapVec | none => 0
      if vec = 0 then s.stopGang (s.gangOf g) { e with domain := 2 }
      else
        let nested := s.nested r.g r.w m
        let s := s.enter r m ret (0x30000 + cls) true skip
        if nested then s else s.report e

def State.fault (s : State) (r : PathRef) (m : W64) (cls domain addr detail : Nat) : State :=
  match s.path? r with
  | some p => s.faultAt r m p.pc cls domain addr detail false
  | none => s

/-- RETURN FROM AN EXCEPTION for the threads `m` of a path: each continues at its frame's address at its frame's level
(R335). Answers where each goes. -/
def State.leave (s : State) (r : PathRef) (m : W64) : State × List (Nat × W64) :=
  match s.group? r.g with
  | none => (s, [])
  | some g =>
    match g.warps[r.w]? with
    | none => (s, [])
    | some w =>
      let moves := (maskList m).filterMap (fun t => (w.threads[t]?).map (fun th => (t, th.frameReturn g.nregs)))
      (s.updWarp r.g r.w (fun w => (maskList m).foldl (fun w t => w.updThread t (fun th => th.leave g.nregs)) w), moves)

/-! ### Who issues -/

/-- An instruction at issue: the path, the size of its word, and the path's group, warp and context as they stand. -/
structure Iss where
  r : PathRef
  size : Nat
  g : Group
  w : Warp
  p : Path
  c : Ctx
deriving DecidableEq, Repr

/-- The issuing path, if a path issues. -/
def State.iss? (s : State) : Option Iss :=
  match s.cur with
  | some (.path r size) =>
    (s.group? r.g).bind (fun g => (g.warps[r.w]?).bind (fun w => (w.paths[r.p]?).bind (fun p =>
      (s.ctx? g.ctx).map (fun c => { r := r, size := size, g := g, w := w, p := p, c := c }))))
  | _ => none

/-- The threads of the path that do not skip an open region (R37). -/
def Iss.active (x : Iss) : W64 := x.p.tmask &&& ~~~x.p.skmask
/-- The address of the next instruction in program order (R224). -/
def Iss.next (x : Iss) : W64 := x.p.pc + BitVec.ofNat 64 x.size
def Iss.thread (x : Iss) (t : Nat) : Thread := (x.w.threads[t]?).getD (Thread.start false)
def Iss.helpers (x : Iss) : W64 := maskOf ((maskList x.p.tmask).filter (fun t => (x.thread t).life = .helper))

/-- Run the meaning of an instruction that a path issues. -/
def withIssue (s : State) (f : Iss → Result) : Result :=
  match s.iss? with
  | some x => f x
  | none => .fault .noIssue

/-- The issue is put off: nothing has changed but the mark. -/
def State.putOff (s : State) : State := { s with held := true }

/-- Nothing happens: what an event needs does not hold in the state (log 1). -/
def notNow (s : State) : Result := .next s.putOff

/-! ### Writes of one group register by several warps in one cycle (R77, R228, R291, R295) -/

/-- What such a register is: the priority, the generator key, the stream, a convergence register, or a tile's place in order. -/
inductive Shared
  | prio | key | stream | cv (n : Nat) | tile (n : Nat)
deriving DecidableEq, Repr

def Shared.number : Shared → Nat
  | .prio => 0 | .key => 1 | .stream => 2 | .cv n => 3 + n | .tile n => 32 + n

/-- A write by warp `wid` in this cycle prevails over one by a lower warp, and not over one by a higher warp. -/
def Group.wins (g : Group) (clock : Nat) (what : Shared) (wid : Nat) : Bool :=
  g.wrote.all (fun (k, c, w) => k ≠ what.number || c ≠ clock || w ≤ wid)

/-- A warp writes such a register of its group. -/
def State.updShared (s : State) (k : Nat) (what : Shared) (wid : Nat) (f : Group → Group) : State :=
  s.updGroup k (fun g =>
    if g.wins s.coreClock what wid then
      { f g with wrote := (what.number, s.coreClock, wid) :: g.wrote.filter (fun (n, _, _) => n ≠ what.number) }
    else g)

/-- The lane is occupied by an instruction of the path for n cycles (R25, R74). -/
def State.occupy (s : State) (r : PathRef) (n : Nat) : State := s.updWarp r.g r.w (fun w => { w with occ := max w.occ n })

end Sys2Proof.Machine
end

