-- ==== Sys2Proof/Machine/Operands.lean ====
section
/-! DEFINITION. Operands.lean: operand forms and the checks at issue: guards, skip regions, uniform instructions, queue
ports, register dependencies, illegal operand uses and poison (R26 to R29, R37, R55 to R58, R71, R193 to R195, R279, R430, R517). -/

namespace Sys2Proof.Machine

/-! ### Operand positions -/

/-- How an inline integer becomes a value of the operand's format (R195). -/
inductive Inline
  | int | f32 | f64 | bf16x2 | f16x2
deriving DecidableEq, Repr

/-- A source position: its field (1 D, 2 A, 3 B, 4 C), its code, its words; `group`: consecutive vector registers without
alignment (R245); `strict`: it cannot carry poison (R517); `uni`: a uniform position (R430 kind 5). -/
structure Src where
  field : Nat
  op : Operand
  n : Nat := 1
  inl : Inline := .int
  group : Bool := false
  strict : Bool := false
  uni : Bool := false
deriving DecidableEq, Repr

/-- A destination position. -/
structure Dst where
  op : Operand
  n : Nat := 1
  group : Bool := false
deriving DecidableEq, Repr

/-- The operands of an instruction, in the order in which queue ports are popped; `suppress`: R50 suppresses it for helpers;
`execOnly`: it belongs to the execute stream, and `daeOnly`: to a .dae launch (R430 kind 7); `load`: an LD (kind 6); `flat`: it
occupies the lane for 1 cycle when its sources are uniform (R220); `branch`: it pushes (1) or pops (2) the branch queue of
every active thread (R56, R225); `uni`: whether it is uniform, where that does not follow R26; `always`: it acts for the path also
when no guard is true (R37). -/
structure Shape where
  srcs : List Src
  dst : Option Dst := none
  suppress : Bool := false
  execOnly : Bool := false
  daeOnly : Bool := false
  load : Bool := false
  flat : Bool := false
  branch : Nat := 0
  uni : Option Bool := none
  gen : Bool := false
  always : Bool := false
deriving DecidableEq, Repr

/-- The words that one source code supplies when it is not a queue port (R195). -/
def inlineNat (k : Inline) (n : Nat) (i : Int) : Nat :=
  let v := FVal.ofInt i
  match k with
  | .int => wrapInt (32 * n) i
  | .f32 => FSpec.fp32.round .rne 0 false v
  | .f64 => FSpec.fp64.round .rne 0 false v
  | .bf16x2 => FSpec.bf16.round .rne 0 false v * 65537
  | .f16x2 => FSpec.fp16.round .rne 0 false v * 65537

/-- A special value (R29). -/
def Iss.special (x : Iss) (t : Nat) : SpecialValue → Nat
  | .tid => t
  | .wid => x.w.wid
  | .gtid => x.w.wid * x.g.width + t
  | .gidX => x.g.x
  | .gidY => x.g.y
  | .gidZ => x.g.z
  | .cid => x.g.cid
  | .quad => t / 4
  | .width => x.g.width
  | .ndimX => x.g.ndx.toNat
  | .ndimY => x.g.ndy.toNat
  | .ndimZ => x.g.ndz.toNat
  | .iter => (x.thread t).iter.toNat
  | .core => x.g.core
  | .lane => x.w.lane

/-- The words of a source of position t; a queue port is not read here. -/
def Iss.words (x : Iss) (h : Hdr) (src : Src) (t : Nat) : List Reg :=
  match src.op with
  | .v n => (List.range src.n).map (fun i => (x.thread t).reg (n.val + i))
  | .w n => (List.range src.n).map (fun i => x.w.reg (n.val + i))
  | .q _ => regsOf src.n 0 false
  | .vz => regsOf src.n 0 false
  | .sv k => regsOf src.n (x.special t k) false
  | .p n => regsOf src.n ((x.thread t).pred n.val).toNat ((x.thread t).predBad n.val)
  | .imm n => regsOf src.n (inlineNat src.inl src.n (n.val - 256 : Int)) false
  | .lit => regsOf src.n ((h.lit.getD 0).toNat % 2 ^ (32 * src.n)) false

/-! ### Taking threads (R193, R37) -/

def Iss.guard (x : Iss) (h : Hdr) (t : Nat) : Bool :=
  if h.ps.val = 7 then !h.pn else (x.thread t).pred h.ps.val != h.pn

/-- Active threads whose guard is poisoned (R517). -/
def Iss.badGuard (x : Iss) (h : Hdr) : W64 :=
  if h.ps.val = 7 then 0 else maskOf ((maskList x.active).filter (fun t => (x.thread t).predBad h.ps.val))

/-- Active threads whose guard is true; after a part of them has performed the instruction, the others (R157). -/
def Iss.taking (x : Iss) (h : Hdr) : W64 :=
  maskOf ((maskList x.active).filter (fun t => x.guard h t && (x.p.redo = 0 || x.p.redo.getLsbD t)))

/-- Uniform operand codes for R26. -/
def Src.uniform (a : Src) : Bool := a.op.uniform
def Dst.uniform (d : Dst) : Bool :=
  match d.op with
  | .w _ | .vz | .p _ => true
  | _ => false

/-- An instruction is uniform (R26). -/
def Shape.isUniform (sh : Shape) : Bool :=
  match sh.uni with
  | some b => b
  | none => sh.srcs.all Src.uniform && match sh.dst with | some d => d.uniform | none => true

/-! ### Illegal operand uses (R430) -/

/-- The side of a register in a .dae launch (R54, R84): true for the access side; none for codes of both. -/
def sideOf (daew : W32) : Operand → Option Bool
  | .v n => some (!daew.getLsbD 4 && 16 * bits daew.toNat 31 26 ≤ n.val && n.val < 16 * (bits daew.toNat 25 20 + 1))
  | .w n => some (!daew.getLsbD 3 && 8 * bits daew.toNat 19 16 ≤ n.val && n.val < 8 * (bits daew.toNat 15 12 + 1))
  | .p n => some (daew.getLsbD (5 + n.val))
  | _ => none

/-- The codes of the registers that an operand of n words names. -/
def spanOf (n : Nat) : Operand → List Operand
  | .v k => (List.range n).map (fun i => .v (Fin.ofNat 1024 (k.val + i)))
  | .w k => (List.range n).map (fun i => .w (Fin.ofNat 128 (k.val + i)))
  | o => [o]

/-- A field as R430 sees it. -/
structure FieldUse where
  field : Nat
  op : Operand
  n : Nat
  group : Bool
  write : Bool
  uni : Bool
deriving DecidableEq, Repr

def Src.use (a : Src) : FieldUse := { field := a.field, op := a.op, n := a.n, group := a.group, write := false, uni := a.uni }
def Dst.use (d : Dst) : FieldUse := { field := 1, op := d.op, n := d.n, group := d.group, write := true, uni := false }
def Shape.fields (sh : Shape) : List FieldUse :=
  let all := (match sh.dst with | some d => [d.use] | none => []) ++ sh.srcs.map Src.use
  [1, 2, 3, 4].flatMap (fun k => all.filter (fun u => u.field = k))

/-- Entries of 2^k that a bound port holds; none when the port is not bound (R277). -/
def Group.ringOf (g : Group) (port : Nat) : Option (Nat × Nat) := sget none g.ring port

/-- Kind 1: a register at or above the launch's count, or past the last uniform register. -/
def FieldUse.kind1 (u : FieldUse) (x : Iss) : Bool :=
  match u.op with
  | .v n => decide (x.g.nregs < n.val + u.n)
  | .w n => decide (128 < n.val + u.n)
  | .p n => u.group && decide (7 < n.val + u.n)
  | _ => false
/-- Kind 2: an odd register in a 64-bit position. -/
def FieldUse.kind2 (u : FieldUse) : Bool :=
  match u.op with
  | .v n => !u.group && decide (1 < u.n) && decide (n.val % 2 = 1)
  | .w n => !u.group && decide (1 < u.n) && decide (n.val % 2 = 1)
  | _ => false
/-- Kind 3: q0 to q7 outside .dae or pushed from the wrong stream; a register of the other side. A guard is no operand field: a guard
predicate of the other side is read as any predicate is (DESIGN CHOICE, log 54). -/
def FieldUse.kind3 (u : FieldUse) (x : Iss) : Bool :=
  match u.op with
  | .q n => decide (n.val < 8) && (!x.g.dae || (u.write && (if n.val < 6 then !x.p.access else x.p.access)))
  | o => x.g.dae && (spanOf u.n o).any (fun r => match sideOf x.g.daew r with | some b => b != x.p.access | none => false)
/-- Kind 4: q8 to q15 not bound, or more entries than the ring holds at once. -/
def FieldUse.kind4 (u : FieldUse) (x : Iss) (sh : Shape) (taking : Nat) : Bool :=
  match u.op with
  | .q n =>
    decide (8 ≤ n.val) &&
    match x.g.ringOf n.val with
    | none => true
    | some (_, k) =>
      let per := if u.write then u.n else (sh.srcs.filter (fun a => a.op = .q n)).foldl (fun t a => t + a.n) 0
      decide (2 ^ k < per * taking)
  | _ => false
/-- Kind 5: a non-uniform code in a uniform position. -/
def FieldUse.kind5 (u : FieldUse) : Bool := u.uni && !u.op.uniform

/-- Kind 6: a uniform D written by a non-uniform LD. -/
def FieldUse.kind6 (u : FieldUse) (sh : Shape) : Bool :=
  match u.op with
  | .w _ => sh.load && u.write && !sh.isUniform
  | _ => false

/-- The kinds of R430 that a field breaks, lowest first. -/
def FieldUse.kinds (u : FieldUse) (x : Iss) (sh : Shape) (taking : Nat) : List Nat :=
  (if u.kind1 x then [1] else []) ++ (if u.kind2 then [2] else []) ++ (if u.kind3 x then [3] else []) ++
  (if u.kind4 x sh taking then [4] else []) ++ (if u.kind5 then [5] else []) ++ (if u.kind6 sh then [6] else [])

/-- DETAIL of the illegal operand use of an instruction, if it makes one: its lowest kind, and the code of its first field
that breaks a rule (R430, R518). -/
def Shape.illegal (sh : Shape) (x : Iss) (taking : Nat) : Option Nat :=
  let broken := sh.fields.filter (fun u => u.kinds x sh taking != [])
  match broken.head? with
  | some u =>
    let k := (broken.flatMap (fun u => u.kinds x sh taking)).foldl min 15
    some (k + u.op.code * 16)
  | none => if (sh.execOnly && x.g.dae && x.p.access) || (sh.daeOnly && !x.g.dae) then some 7 else none

/-! ### Register dependencies (R27, R260) -/

/-- Words that a memory operation writes to D. -/
def MemOp.words (o : MemOp) : Nat :=
  match o.kind with
  | .load => match o.ty with | .b64 => 2 | .b128 => 4 | _ => 1
  | .store => 0
  | .cas => 1
  | .cas64 => 2
  | .atom _ => if o.size = 8 then 2 else 1
  | .ctrInit _ => 0
  | _ => 2

def overlaps (a : Operand) (n : Nat) (b : Operand) (m : Nat) : Bool :=
  match a, b with
  | .v i, .v j => i.val < j.val + m && j.val < i.val + n
  | .w i, .w j => i.val < j.val + m && j.val < i.val + n
  | .p i, .p j => i = j
  | .q i, .q j => i = j
  | _, _ => false

/-- The instruction reads or writes a register of a destination of n words that threads `m` still wait for. -/
def Iss.waitsFor (x : Iss) (sh : Shape) (h : Hdr) (d : Operand) (n : Nat) (m : W64) : Bool :=
  n != 0 &&
  (sh.fields.any (fun u => overlaps u.op u.n d n) || (h.ps.val < 7 && overlaps (.p (Fin.ofNat 7 h.ps.val)) 1 d n)) &&
  (match d with
   | .w _ => true
   | _ => m &&& x.p.tmask != 0)

/-- A memory operation or a kiln test of the warp has not yet written a register that the instruction reads or writes. -/
def State.dependency (s : State) (x : Iss) (sh : Shape) (h : Hdr) : Bool :=
  s.mem.ops.any (fun o => o.g = x.r.g && o.w = x.r.w && x.waitsFor sh h o.d o.words o.tmask) ||
  s.kops.any (fun o => o.g = x.r.g && o.w = x.r.w && (match o.instr with
    | .ktest y => x.waitsFor sh h y.d 1 o.tmask
    | _ => false))

/-! ### Lines that an engine owns (R182) -/

def phys32 (pa : Nat) : Nat := 2 * (pa / 32)
def scratch32 (g l : Nat) : Nat := 2 * (g * 2 ^ 17 + l / 32) + 1
/-- A line that a copy command or a transfer of a sequencer owns, taken before number n if one is given. -/
def State.ownedBy (s : State) (n : Option Nat) (key : Nat) : Bool :=
  let sooner := fun (taken : Nat) => match n with | some n => decide (taken < n) | none => true
  s.copies.any (fun c => sooner c.taken && c.owned.any (fun o => o.2 = key)) ||
  s.seqs.any (fun (q : Nat × Seq) => match q.2.xfer with | some x => sooner x.taken && x.owned.contains key | none => false)
def State.owned (s : State) (key : Nat) : Bool := s.ownedBy none key

/-- The 512-byte rows of scratchpad that a tile store writes, as cluster offsets (R306). -/
def MatOp.writes (o : MatOp) : Option (Nat × Nat) :=
  match o.kind, o.a with
  | .tst, .scratch base rp _ _ _ => some (base / 512 * 512, base + 16 * rp * o.bind.rows + 512)
  | _, _ => none

/-- Some of n bytes of cluster scratchpad belong to an engine: an access waits for the recall. -/
def State.scratchBusy (s : State) (g : Group) (o n : Nat) : Bool :=
  (s.copies.any (fun c => c.owned != []) &&
    (List.range n).any (fun i => match g.locate (o + i) with | some (m, l) => s.owned (scratch32 m l) | none => false)) ||
  g.mates.any (fun m => match s.group? m with
    | some q => q.ops.any (fun op => match op.writes with | some (a, b) => a < o + n && o < b | none => false)
    | none => false)

/-! ### Queue ports -/

/-- HEAD and TAIL of a ring (R278). -/
def State.ringHead (s : State) (g : Group) (base : Nat) : Nat := leNat ((s.scratchBytes g 0 base 4).map (·.1))
def State.ringTail (s : State) (g : Group) (base : Nat) : Nat := leNat ((s.scratchBytes g 0 (base + 4) 4).map (·.1))
def State.ringCount (s : State) (g : Group) (base : Nat) : Nat :=
  (s.ringTail g base + 2 ^ 32 - s.ringHead g base) % 2 ^ 32

/-- Pop m entries of a ring, in order (R279). -/
def State.ringPop (s : State) (g : Group) (base k m : Nat) : State × List Reg :=
  let head := s.ringHead g base
  let entry := fun i =>
    let bs := s.scratchBytes g 0 (base + 16 + 4 * ((head + i) % 2 ^ k)) 4
    Reg.ofNat (leNat (bs.map (·.1))) (bs.any (·.2))
  (s.putScratch g 0 base (leBytes 4 ((head + m) % 2 ^ 32)) false, (List.range m).map entry)

/-- Push entries to a ring, in order (R279). -/
def State.ringPush (s : State) (g : Group) (base k : Nat) (rs : List Reg) : State :=
  let tail := s.ringTail g base
  let s := rs.zipIdx.foldl (fun s (r, i) => s.putScratch g 0 (base + 16 + 4 * ((tail + i) % 2 ^ k)) (leBytes 4 r.val.toNat) r.bad) s
  s.putScratch g 0 (base + 4) (leBytes 4 ((tail + rs.length) % 2 ^ 32)) false

/-- Take n entries from the head of a thread's data queue. -/
def Thread.pop (t : Thread) (port n : Nat) : Thread × List Reg :=
  let l := sget [] t.q port
  ({ t with q := sset [] t.q port (l.drop n) }, l.take n)
def Thread.push (t : Thread) (port : Nat) (rs : List Reg) : Thread := { t with q := sset [] t.q port (sget [] t.q port ++ rs) }
/-- Entries of a data queue (R55). -/
def queueDepth : Nat := 16

/-- What a path waits for at a port: wait kind of R434, and the address of a ring. -/
structure PortWait where
  kind : Nat
  ring : Option Nat
deriving DecidableEq, Repr

/-- Words that each thread takes from a port. -/
def popsOf (srcs : List Src) (op : Operand) : Nat := (srcs.filter (fun a => a.op = op)).foldl (fun t a => t + a.n) 0

/-- What the ports must give and take for the threads `ts` (R55, R58), and the branch queue for the active threads (R56): the
branch queue first, then pops in the order of the sources, then the push. -/
def Shape.needs (sh : Shape) (active ts : List Nat) : List Need :=
  let br : List Need := if sh.branch = 0 then [] else [{ port := 16, push := sh.branch = 1, n := 1, less := 0, ts := active }]
  if ts = [] then br
  else
    let pops := sh.srcs.filterMap (fun a => match a.op with
      | .q n => some ({ port := n.val, push := false, n := popsOf sh.srcs a.op, less := 0, ts := ts } : Need)
      | _ => none)
    br ++ pops ++ (match sh.dst with
      | some { op := .q n, n := k, .. } => [{ port := n.val, push := true, n := k, less := popsOf sh.srcs (.q n), ts := ts }]
      | _ => [])

/-- A port gives or takes what is needed of it now. -/
def State.meets (s : State) (g : Group) (w : Nat) (d : Need) : Bool :=
  let each := fun (f : Thread → Nat) => d.ts.all (fun t =>
    match (g.warps[w]?).bind (fun x => x.threads[t]?) with
    | some th => if d.push then f th - d.less + d.n ≤ queueDepth else d.n ≤ f th
    | none => true)
  if d.port = 16 then each (fun th => th.br.length)
  else if d.port < 8 then each (fun th => (sget [] th.q d.port).length)
  else match g.ringOf d.port with
    | none => false
    | some (base, k) =>
      let m := d.ts.length
      if d.push then s.ringCount g base - d.less * m + d.n * m ≤ 2 ^ k else d.n * m ≤ s.ringCount g base

/-- The first need that is not met: its wait kind, and the address of a ring. -/
def State.portWait (s : State) (g : Group) (w : Nat) (l : List Need) : Option PortWait :=
  (l.find? (fun d => !(s.meets g w d))).map (fun d =>
    { kind := if d.push then 2 else 1, ring := if d.port < 8 || d.port = 16 then none else (g.ringOf d.port).map (·.1) })

/-- Some ring that the instruction uses lies in lines that an engine owns. -/
def State.ringBusy (s : State) (x : Iss) (sh : Shape) : Bool :=
  sh.fields.any (fun u => match u.op with
    | .q n => match (if n.val < 8 then none else x.g.ringOf n.val) with
      | some (base, k) => s.scratchBusy x.g base (16 + 4 * 2 ^ k)
      | none => false
    | _ => false)

/-! ### Reading and writing operands -/

/-- One source for every taking thread, in ascending position; queue ports are popped (R55, R58). A read of q0 to q7 by the stream that
pushes there pops the same queue (DESIGN CHOICE, log 54: R55 names only the other stream's reads). -/
def State.readSrc (s : State) (x : Iss) (h : Hdr) (a : Src) (ts : List Nat) : State × List (List Reg) :=
  match a.op with
  | .q n =>
    if n.val < 8 then
      ts.foldl (fun (s, acc) t =>
        match (s.warp? x.r.g x.r.w).bind (fun w => w.threads[t]?) with
        | none => (s, acc ++ [regsOf a.n 0 false])
        | some th => (s.updThread x.r.g x.r.w t (fun th => (th.pop n.val a.n).1), acc ++ [(th.pop n.val a.n).2])) (s, [])
    else
      match x.g.ringOf n.val with
      | none => (s, ts.map (fun _ => regsOf a.n 0 false))
      | some (base, k) =>
        let (s, rs) := s.ringPop x.g base k (a.n * ts.length)
        (s, (List.range ts.length).map (fun i => (rs.drop (i * a.n)).take a.n))
  | _ => (s, ts.map (fun t => x.words h a t))

/-- All sources; for each taking thread its values in the order of the sources. -/
def State.readSrcs (s : State) (x : Iss) (h : Hdr) (srcs : List Src) (ts : List Nat) : State × List (Nat × List (List Reg)) :=
  let (s, cols) := srcs.foldl (fun (s, acc) a => let (s, c) := s.readSrc x h a ts; (s, acc ++ [c])) (s, [])
  (s, ts.zipIdx.map (fun (t, i) => (t, cols.map (fun c => c.getD i []))))

/-- Write a destination for position t (R194, R195); `preds` are the positions whose predicate a predicate code sets. -/
def State.writeDst (s : State) (g w : Nat) (gr : Group) (d : Dst) (t : Nat) (preds : List Nat) (rs : List Reg) : State :=
  match d.op with
  | .v n => s.updThread g w t (fun th => rs.zipIdx.foldl (fun th (r, i) => th.setReg (n.val + i) r) th)
  | .w n => s.updWarp g w (fun x => rs.zipIdx.foldl (fun x (r, i) => x.setReg (n.val + i) r) x)
  | .q n =>
    if n.val < 8 then s.updThread g w t (fun th => th.push n.val rs)
    else
      match gr.ringOf n.val with
      | some (base, k) => s.ringPush gr base k rs
      | none => s
  | .p n => preds.foldl (fun s u => s.updThread g w u (fun th => th.setPred n.val (rs.any (fun r => r.val != 0)) (regsBad rs))) s
  | _ => s

/-! ### The common course of an issue -/

/-- What an instruction's body sees: the positions that take it and, for each (for a uniform instruction once, at the lowest
position), the values of its sources. -/
structure Taken where
  uni : Bool
  ts : List Nat
  vals : List (Nat × List (List Reg))
deriving DecidableEq, Repr

/-- How a body ends: the path passes the instruction, threads with a target elsewhere leaving it; or the path stays at it; or it waits at it,
having occupied its lane. -/
inductive Flow
  | next (moves : List (Nat × W64))
  | stay
  | wait
deriving DecidableEq, Repr

/-- Thread-cycles of an issue (R25, R220): `per` for each thread that is active, 1 for a uniform one; none for a word that every
thread skips (R38). -/
def Iss.cost (x : Iss) (uni : Bool) (per : Nat) : Nat :=
  if x.active = 0 then 0 else if uni then 1 else per * maskCount x.active

/-- Traps of the taking threads whose operand that cannot carry poison is poisoned (R517): each with the first such field. -/
def strictFault (sh : Shape) (v : List (List Reg)) : Option Nat :=
  let bad := (sh.srcs.zip v).filter (fun (a, rs) => a.strict && regsBad rs)
  ([1, 2, 3, 4].findSome? (fun k => bad.find? (fun (a, _) => a.field = k))).map (fun (a, _) => a.op.code + a.field * 2 ^ 11)

/-- The threads that trap so. A poisoned entry of a ring, and a poisoned operand of a uniform instruction, concern every
taking thread (R58, R517). -/
def strictHurt (sh : Shape) (doing : List Nat) (uni : Bool) (vals : List (Nat × List (List Reg))) : List (Nat × Nat) :=
  let bad := vals.filterMap (fun (t, v) => (strictFault sh v).map (fun d => (t, d)))
  match bad.head? with
  | none => []
  | some (_, d) =>
    let ring := sh.srcs.any (fun a => match a.op with | .q n => a.strict && decide (8 ≤ n.val) | _ => false)
    if uni || ring then doing.map (fun t => (t, d)) else bad

/-- A thread's error: position, class, ADDR, DETAIL. -/
structure ThreadErr where
  t : Nat
  cls : Nat
  addr : Nat
  detail : Nat
deriving DecidableEq, Repr

/-- Trap threads (R413): those of one class together, with one record that holds ADDR and DETAIL of the lowest position;
classes in ascending order (R422). -/
def State.trapAll (s : State) (r : PathRef) (bad : List ThreadErr) : State :=
  (List.range' 0x10 0x60).foldl (fun s cls =>
    match (List.range 64).findSome? (fun t => bad.find? (fun b => b.cls = cls && b.t = t)) with
    | none => s
    | some e => s.fault r (maskOf ((bad.filter (fun b => b.cls = cls)).map (·.t))) cls 0 e.addr e.detail) s

/-- Class, ADDR and DETAIL of a failed walk of a data access (R448, R451). -/
def walkFault (va : Nat) (write : Bool) : WalkErr → Nat × Nat × Nat
  | .invalid level => (0x22, va, write.toNat + level * 2)
  | .malformed level kind pa => (0x24, pa, level + kind * 4)

/-- The domain of a class that traps every thread of a path: thread for 0x33 (R473), else path. -/
def trapDomain (cls : Nat) : Nat := if cls = 0x33 then 0 else 1

/-- Every thread of the issuing path traps (R413 codes 0 and 1). -/
def State.faultPath (s : State) (x : Iss) (cls addr detail : Nat) : State :=
  (s.fault x.r x.p.tmask cls (trapDomain cls) addr detail).settle x.r.g x.r.w

/-- Code of a progress class (R60). -/
def Cls.code : Cls → Nat
  | .c => 0 | .p => 1 | .w => 2

/-- DETAIL of a bad generator key or stream (R480). -/
def Group.genBad (g : Group) : Nat := g.keyBad.toNat + 2 * g.streamBad.toNat

/-- Accesses of threads of a warp, in one stream, that have not been performed. -/
def State.underWay (s : State) (g w : Nat) (access : Bool) (m : W64) : Bool :=
  s.mem.ops.any (fun o => o.g = g && o.w = w && o.access = access && o.tmask &&& m != 0)

/-- Accesses of the path's threads that have not been performed. -/
def State.outstanding (s : State) (x : Iss) : Bool := s.underWay x.r.g x.r.w x.p.access x.p.tmask

/-- An issue made some thread of the warp enter its handler, or stopped its gang or its context. -/
def Iss.trapped (x : Iss) (s : State) : Bool :=
  match s.group? x.r.g with
  | none => false
  | some g =>
    (g.stop && !x.g.stop) || (match s.ctx? g.ctx with | some c => c.run != x.c.run | none => true) ||
    match g.warps[x.r.w]? with
    | none => false
    | some w => (w.threads.zip x.w.threads).any (fun (a, b) => a.trapped && !b.trapped)

/-- A trap entry follows every access that precedes it in program order (R334, R429): until then the issue is put off. -/
def Iss.orderly (x : Iss) (s : State) (r : Result) : Result :=
  match r with
  | .next t => if s.outstanding x && x.trapped t then .next s.putOff else .next t
  | r => r

/-- Threads that trap on an error take nothing from a queue: what they popped is put back (R413, R433); TRAP keeps what it took. A
ring gives its entries back when every taking thread traps so. -/
def Iss.unpop (x : Iss) (sh : Shape) (ts : List Nat) (s0 s : State) : State :=
  match s.warp? x.r.g x.r.w with
  | none => s
  | some w =>
    let hit := (List.range w.threads.length).filter (fun t => match w.threads[t]? with
      | some th => th.trapped && !(x.thread t).trapped && (th.reg (x.g.nregs - 1)).val.getLsbD 1
      | none => false)
    if hit.isEmpty then s
    else
      let s := hit.foldl (fun s t => s.updThread x.r.g x.r.w t (fun th => { th with
        q := (x.thread t).q
        br := (x.thread t).br })) s
      if ts.all (fun t => hit.contains t) then
        sh.srcs.foldl (fun s a => match a.op with
          | .q n => match (if n.val < 8 then none else x.g.ringOf n.val) with
            | some (base, _) => s.putScratch x.g 0 base (leBytes 4 (s0.ringHead x.g base)) false
            | none => s
          | _ => s) s
      else s

/-- What an instruction does once the common checks of its issue have passed. -/
abbrev Body := Iss → Taken → State → State × Flow

/-- Active threads whose guard is true and not poisoned. -/
def Iss.sound (x : Iss) (h : Hdr) : W64 := x.taking h &&& ~~~x.badGuard h

/-- The positions whose effect is suppressed: helpers, at the instructions that R50 names and at ring ports. -/
def Iss.quiet (x : Iss) (sh : Shape) : W64 :=
  if sh.suppress then x.helpers
  else if sh.fields.any (fun u => match u.op with | .q n => decide (8 ≤ n.val) | _ => false) then x.helpers else 0

/-- The positions that perform the instruction, in ascending order. -/
def Iss.doing (x : Iss) (h : Hdr) (sh : Shape) : List Nat := maskList (x.sound h &&& ~~~x.quiet sh)

/-- Of these the ones that supply operands: the lowest alone when the instruction is uniform (R26). -/
def Shape.readers (sh : Shape) (ts : List Nat) : List Nat := if sh.isUniform then ts.take 1 else ts

/-- An instruction acts for the positions `ts`: its operands are read, its body acts, its lane is occupied (R25) and its path
passes it (R33, R34, R37); `per` thread-cycles for each active thread. -/
def State.act (s : State) (x : Iss) (h : Hdr) (sh : Shape) (per : Nat) (ts : List Nat) (body : Body) : State :=
  let one := sh.isUniform || (sh.flat && sh.srcs.all Src.uniform)
  if ts = [] && sh.branch = 0 && !(sh.always && x.active != 0) then (s.occupy x.r (x.cost one per)).finish x.r x.size []
  else
    let read := s.readSrcs x h sh.srcs (sh.readers ts)
    let done := body x { uni := sh.isUniform, ts := ts, vals := read.2 } read.1
    let t := x.unpop sh ts s done.1
    match done.2 with
    | .next moves => (t.occupy x.r (x.cost one per)).finish x.r x.size moves
    | .stay => t
    | .wait => t.occupy x.r (x.cost one per)

/-- What the queue ports must give and take at the issue. -/
def Iss.needs (x : Iss) (h : Hdr) (sh : Shape) : List Need := sh.needs (maskList x.active) (sh.readers (x.doing h sh))

/-- Poisoned operands that cannot carry poison. -/
def State.hurt (s : State) (x : Iss) (h : Hdr) (sh : Shape) : List (Nat × Nat) :=
  strictHurt sh (x.doing h sh) sh.isUniform (s.readSrcs x h sh.srcs (sh.readers (x.doing h sh))).2

/-- Active threads whose next entry of the branch queue is poisoned, at an instruction that pops it: they trap as for a poisoned guard
(R415, R517; DESIGN CHOICE, log 41: the entry has no operand code, 0x4A7 stands for it). -/
def Iss.badBranch (x : Iss) (sh : Shape) : List Nat :=
  if sh.branch = 2 then (maskList x.active).filter (fun t => ((x.thread t).br.head?.map (·.2)).getD false) else []

/-- A push to a ring is a release, and a pop an acquire, of the header (R279): earlier accesses of the threads stand before it (R167,
R174). The push of a load's or atomic's reply follows them where it is made. -/
def State.ringWaits (s : State) (x : Iss) (h : Hdr) (sh : Shape) : Bool :=
  let ring := fun (o : Operand) => match o with | .q n => decide (8 ≤ n.val) | _ => false
  let push := !sh.load && (match sh.dst with | some d => ring d.op | none => false)
  (push || sh.srcs.any (fun a => ring a.op)) &&
  s.mem.ops.any (fun o => o.g = x.r.g && o.w = x.r.w && o.access = x.p.access && o.tmask &&& x.taking h != 0 && o.parts.any (fun p => !p.served) &&
    (push || o.kind = .load || o.kind = .ctrRd || o.order = .acq || o.order = .ar))

/-- An illegal operand use by an instruction that some thread takes (R430). -/
def Iss.illegal (x : Iss) (h : Hdr) (sh : Shape) : Option Nat :=
  if x.sound h = 0 then none else sh.illegal x (maskCount (x.sound h &&& ~~~x.quiet sh))

/-- The wait at a ring that is not legal for the group's class, whatever else the path waits for (R71). -/
def State.ringStop (s : State) (x : Iss) (needs : List Need) : Option PortWait :=
  if x.g.cls = .w then s.portWait x.g x.r.w (needs.filter (fun d => 8 ≤ d.port && d.port < 16)) else none

/-- The path waits at a queue port, or traps where the wait would not be legal (R55, R58, R71). -/
def State.portStop (s : State) (x : Iss) (i : Instr) (pw : PortWait) (needs : List Need) : State :=
  match s.ringStop x needs with
  | some q => s.faultPath x 0x14 (q.ring.getD 0) (q.kind + x.g.cls.code * 8 + 15 * 128)
  | none =>
    let wait : Wait := { instr := i, size := x.size, tests := [], tickets := [], needs := needs, kind := pw.kind,
                         addr := BitVec.ofNat 64 (pw.ring.getD 0) }
    s.updPath x.r (fun p => { p with st := .queueWait, timer := 0, age := 0, wait := some wait })

/-- The checks common to every instruction of a path, in this order: register dependencies (R27) and lines that an engine owns
(R182), illegal operand uses (R430), a bad generator (R480), queue ports (R55, R58, R71), poisoned guards and operands (R517);
then the body. -/
def issueAt (i : Instr) (h : Hdr) (sh : Shape) (per : Nat) (s : State) (body : Body) (x : Iss) : Result :=
  if s.dependency x sh h || s.ringBusy x sh || s.ringWaits x h sh then .next s.putOff
  else
    match x.illegal h sh with
    | some detail => .next (s.faultPath x 0x11 0 detail)
    | none =>
      if sh.gen && !(x.doing h sh).isEmpty && decide (x.g.genBad ≠ 0) then .next (s.faultPath x 0x36 0 x.g.genBad)
      else
        match s.portWait x.g x.r.w (x.needs h sh) with
        | some pw => .next (s.portStop x i pw (x.needs h sh))
        | none =>
          let hurt := s.hurt x h sh
          let t := s.trapAll x.r ((maskList (x.badGuard h)).map (fun t => ⟨t, 0x60, 0, 0x4A0 + h.ps.val⟩) ++
            (x.badBranch sh).map (fun t => ⟨t, 0x60, 0, 0x4A7⟩) ++ hurt.map (fun b => ⟨b.1, 0x60, 0, b.2⟩))
          .next (t.act x h sh per ((x.doing h sh).filter (fun t => !((x.badBranch sh).contains t) && !(hurt.any (fun b => b.1 = t)))) body)

/-- ISSUE an instruction of a path: the common checks and its body. -/
def issue (i : Instr) (h : Hdr) (sh : Shape) (per : Nat) (s : State) (body : Body) : Result :=
  withIssue s fun x => x.orderly s (issueAt i h sh per s body x)

/-- The body of an instruction that writes D from the values of its sources and has no other effect: every destination word is
poisoned when a source is (R416). -/
def writes (sh : Shape) (f : Iss → Nat → List Nat → Nat) : Body := fun x k s =>
  match sh.dst with
  | none => (s, .next [])
  | some d =>
    (k.vals.foldl (fun s v => s.writeDst x.r.g x.r.w x.g d v.1 (if k.uni then k.ts else [v.1])
      (regsOf d.n (f x v.1 (v.2.map regsNat)) (v.2.any regsBad))) s, .next [])

/-- An instruction that computes its destination from its sources. -/
def compute (i : Instr) (h : Hdr) (sh : Shape) (per : Nat) (s : State) (f : Iss → Nat → List Nat → Nat) : Result :=
  issue i h sh per s (writes sh f)

end Sys2Proof.Machine
end

