-- ==== Sys2Proof/Machine/Work.lean ====
section
/-! DEFINITION. Work.lean: accepting launches, threads that exit, groups and launches that finish, task records that retire,
versions that commit, and gangs that stop (R49 to R52, R65, R82 to R85, R88 to R94, R97, R413, R438). -/

namespace Sys2Proof.Machine

/-! ### Launch records (R82 to R84, R438) -/

def W64.ofBits (x hi lo : Nat) : W64 := BitVec.ofNat 64 (bits x hi lo)

/-- The fields of a record of 64 bytes (R82, R135). -/
def LaunchRec.ofNat (x : Nat) : LaunchRec :=
  { entry := W64.ofBits x 63 0
    args := W64.ofBits x 127 64
    gx := bits x 159 128
    gy := bits x 191 160
    gz := bits x 223 192
    gsz := bits x 234 224
    ww := bits x 236 235
    cls := bits x 238 237
    band := bits x 240 239
    prio := bits x 244 241
    dae := bit x 245
    nreg := bits x 251 246
    ver := bit x 252
    rfg := bits x 287 282
    spg := bits x 281 276
    acg := bits x 275 270
    daew := BitVec.ofNat 32 (bits x 319 288)
    seed := W64.ofBits x 383 320
    cctr := W64.ofBits x 447 384
    cinc := W64.ofBits x 511 448 }

/-- The 512 bits of a record (R82), for the save area (R100). -/
def LaunchRec.code (r : LaunchRec) : Nat :=
  r.entry.toNat + r.args.toNat * 2 ^ 64 + r.gx * 2 ^ 128 + r.gy * 2 ^ 160 + r.gz * 2 ^ 192 + r.gsz * 2 ^ 224
  + r.ww * 2 ^ 235 + r.cls * 2 ^ 237 + r.band * 2 ^ 239 + r.prio * 2 ^ 241 + r.dae.toNat * 2 ^ 245 + r.nreg * 2 ^ 246
  + r.ver.toNat * 2 ^ 252 + (r.rfg * 2 ^ 26 + r.spg * 2 ^ 20 + r.acg * 2 ^ 14) * 2 ^ 256 + r.daew.toNat * 2 ^ 288
  + r.seed.toNat * 2 ^ 320 + r.cctr.toNat * 2 ^ 384 + r.cinc.toNat * 2 ^ 448

def LaunchRec.width (r : LaunchRec) : Nat := 8 * 2 ^ r.ww
def LaunchRec.warps (r : LaunchRec) : Nat := (r.gsz + 1 + r.width - 1) / r.width
def LaunchRec.demand (r : LaunchRec) : Nat := r.rfg + r.spg + r.acg
def LaunchRec.groups (r : LaunchRec) : Nat := (r.gx + 1) * (r.gy + 1) * (r.gz + 1)
/-- Warps of one group that a lane hosts (R24). -/
def warpsOfLane (rfg width nreg : Nat) : Nat := min 8 (rfg * 512 / (width * (16 * (nreg + 1)) * 4))
def LaunchRec.perLane (r : LaunchRec) : Nat := warpsOfLane r.rfg r.width r.nreg

/-- Groups of a demand that one free core holds (R63). -/
def coreHolds (demand warps perLane : Nat) : Nat :=
  if demand = 0 || perLane * Config.lanes < warps then 0
  else min (Config.poolGranules / demand) (Config.lanes * Config.warpsPerLane / max 1 warps)

/-- Cores of a hardware cluster that are not marked failed (R442). -/
def State.healthy (s : State) (cluster : Nat) : Nat := ((List.range' (4 * cluster) 4).filter (fun c => !(setMem s.cores.failed c))).length

/-- The device's cores that have not failed hold the whole grid of a C launch (R64, R438 reason 6). -/
def State.gridFits (s : State) (r : LaunchRec) : Bool :=
  let k := coreHolds r.demand r.warps r.perLane
  let whole := (List.range Config.clusters).filter (fun c => s.healthy c = 4)
  let full := r.groups / 4
  let rest := r.groups % 4
  if rest = 0 then full ≤ whole.length * k
  else full < whole.length * k ||
    (full ≤ whole.length * k && 1 ≤ k && (List.range Config.clusters).any (fun c => s.healthy c < 4 && rest ≤ s.healthy c))

/-- DAEW broken (R84, R438 reason 8). -/
def daewBad (r : LaunchRec) : Bool :=
  let d := r.daew.toNat
  r.dae &&
  (bits d 2 0 ≠ 0 || (bit d 4 && bits d 31 20 ≠ 0) || (bit d 3 && bits d 19 12 ≠ 0) ||
   (!bit d 4 && (bits d 25 20 < bits d 31 26 || r.nreg < bits d 25 20)) || (!bit d 3 && bits d 15 12 < bits d 19 16))

/-- The reason of R438 for which a record is refused, the lowest first but for a poisoned word (R518). -/
def State.launchRefused (s : State) (r : LaunchRec) (poisoned : Bool) : Option Nat :=
  if poisoned then some 9
  else if r.cls = 3 then some 1
  else if r.ver && r.cls ≠ 2 then some 2
  else if 64 < r.warps then some 3
  else if r.perLane = 0 then some 4
  else if r.rfg = 0 || Config.poolGranules < r.demand then some 5
  else if r.cls = 0 && !s.gridFits r then some 6
  else if r.cls ≠ 0 && coreHolds r.demand r.warps r.perLane = 0 then some 7
  else if bits r.entry.toNat 63 55 ≠ 0 || bits r.entry.toNat 2 0 ≠ 0 || daewBad r then some 8
  else none

/-- The address of a launch record or of a range descriptor can be read (R438, R439 reason 10). -/
def recordAddr (a : W64) : Bool := a.toNat % 8 = 0 && a.toNat < 2 ^ 55

/-- The record that the bytes read are, unless a check of R438 refuses it. -/
def State.checkLaunch (s : State) (bs : List Byte) (bad : Bool) : Except Nat LaunchRec :=
  let r := LaunchRec.ofNat (leNat bs)
  match s.launchRefused r bad with
  | some k => .error k
  | none => .ok r

/-- The device reads a record at a virtual address; or the reason of R438. -/
def State.readLaunch (s : State) (c : Ctx) (a : W64) : Except Nat LaunchRec :=
  match (if recordAddr a then s.readVirt c a.toNat 64 else none) with
  | none => .error 10
  | some (bs, bad) => s.checkLaunch bs bad

/-- Launches of a context, those of a saved one among them. -/
def State.launchesOf (s : State) (ctx : Nat) : List Launch :=
  (match (s.ctx? ctx).bind (·.saved) with | some v => v.launches | none => []) ++ s.launches.filter (fun l => l.ctx = ctx)

/-- Launches of a context that still have groups to admit (R323). -/
def State.pending (s : State) (ctx : Nat) : List Launch := (s.launchesOf ctx).filter (fun l => l.started < l.record.groups)

/-- A launch id that no live launch of the context holds (R323). -/
def State.launchIdFrom (s : State) (ctx first : Nat) : Nat :=
  let saved := match (s.ctx? ctx).bind (·.saved) with | some v => v.tasks | none => []
  let used := (s.launchesOf ctx).map (·.id) ++ (saved ++ s.tasks.filter (fun t => t.ctx = ctx)).map (·.launchId)
  (((List.range (used.length + 1)).map (fun i => (first + i - 1) % (2 ^ 24 - 1) + 1)).find? (fun i => !(i ∈ used))).getD 0

/-- Write the attribute word of a counter; on a page at WB the write is stalled (R157). -/
def State.putAttr (s : State) (c : Ctx) (a : Nat) (bs : List Byte) (l : CtrLoc) : State :=
  if s.wbRange c a 16 then
    let (s, id) := s.fresh
    let st : Stall := { id := id, ctx := c.num, va := BitVec.ofNat 64 (a + 8), by_ := .device bs false none, ready := false }
    { s with mem := { s.mem with stalls := s.mem.stalls ++ [st] } }
  else s.ctrPut l 8 bs false

/-- Write the producer class and scope launch of a completion counter; RSCOPE and the other bits stay (R85, R459). -/
def State.markCounter (s : State) (ctx : Nat) (va : W64) (cls id : Nat) : State :=
  match s.ctx? ctx with
  | none => s
  | some c =>
    let a := va.toNat / 16 * 16
    match s.engineCtr c a with
    | .error k => s.report { ErrRec.none with
        addr := va
        cls := 0x27
        ctx := ctx
        lcyc := s.lcyc 11 0
        detail := k + 11 * 16 }
    | .ok l =>
      let old := (s.ctrGet l).2.1
      let new := bits old 7 0 + cls * 2 ^ 8 + bits old 15 12 * 2 ^ 12 + id * 2 ^ 40
      s.putAttr c a (leBytes 8 new) l
/-- The counter class of a launch's progress class (R85): C, P-launch or W. -/
def ctrClassOf (cls : Nat) : Nat := if cls = 0 then 0 else if cls = 1 then 2 else 3

/-- ACCEPT A LAUNCH (R65, R85, R323): it is queued and gets its id; 0 when the context holds 1,024 pending launches. Its band is that
of its record under the ceiling of this moment; a later change of BANDCAP leaves it (DESIGN CHOICE, log 51: R76 does not say). -/
def State.accept (s : State) (ctx : Nat) (r : LaunchRec) : State × Nat :=
  match s.ctx? ctx with
  | none => (s, 0)
  | some c =>
    if Config.maxPending ≤ (s.pending ctx).length then (s, 0)
    else
      let id := s.launchIdFrom ctx c.nextLaunch
      let (s, key) := s.fresh
      let l : Launch := { key := key, ctx := ctx, id := id, record := r, band := min r.band c.bandCap, started := 0, exited := 0,
                          broken := false }
      let s := { s with launches := s.launches ++ [l] }
      let s := s.updCtx ctx (fun c => { c with nextLaunch := id % (2 ^ 24 - 1) + 1 })
      (if r.cctr = 0 then s else s.markCounter ctx r.cctr (ctrClassOf r.cls) id, id)

/-! ### Versions (R97) -/

/-- The span of the bytes that a held line writes: offset and length. -/
def VLine.span (l : VLine) : Nat × Nat :=
  match (List.range 32).filter (fun i => l.mask.getLsbD i) with
  | [] => (0, 0)
  | i :: is => (i, (is.getLastD i) + 1 - i)

/-- Put the written bytes of a held line into memory, as a store of the group's core. A word that no store replaced whole keeps its
tag (R417). -/
def State.commitLine (s : State) (core : Nat) (l : VLine) : State :=
  let bs := l.bytes.zipIdx
  let m := bs.foldl (fun (m : Memory) (b, i) =>
    if l.mask.getLsbD i then
      let w := 4 * l.line + i / 8
      { m with
        cells := sset Memory.unlisted m.cells (32 * l.line + i) b
        bad := if l.bad.getLsbD (i / 8) then setIns m.bad w else if l.full.getLsbD (i / 8) then setDel m.bad w else m.bad
        llcBad := if l.full.getLsbD (i / 8) then setDel m.llcBad w else m.llcBad }
    else m) s.mem
  let m := if hbmPa (32 * l.line) then m.header (32 * l.line) 32 else m
  let s := ({ s with mem := (m.rowLine l.line true (some core)).1 } : State).served (l.line / 32) 2 false
  (s.watch false true (32 * l.line + l.span.1) l.span.2 1 core).1

def State.commit (s : State) (k : Nat) : State :=
  match s.group? k with
  | none => s
  | some g => (g.vlines.foldl (fun s l => s.commitLine g.core l) s).updGroup k (fun g => { g with vlines := [] })

/-- n bytes as a thread of a group reads them: those of memory, but for the bytes that its version holds (R97). The flag
says that a word is poisoned. -/
def State.seen (s : State) (g : Group) (pa n : Nat) : List (Byte × Bool) :=
  (List.range n).map (fun i =>
    let a := pa + i
    match g.vlines.find? (fun l => l.line = a / 32 && l.mask.getLsbD (a % 32)) with
    | some l => (l.bytes.getD (a % 32) 0, l.bad.getLsbD (a % 32 / 8) || (!(l.full.getLsbD (a % 32 / 8)) && s.mem.isBad a))
    | none => (s.mem.read a, s.mem.isBad a))

/-! ### Launches and records that finish -/

/-- A launch whose groups have all exited ends; an unbroken one adds CINC to its counter (R85, R413). -/
def State.endLaunch (s : State) (key : Nat) : State :=
  match s.launch? key with
  | none => s
  | some l =>
    if l.started = l.record.groups && l.exited = l.record.groups then
      let s := { s with launches := s.launches.filter (fun l => l.key ≠ key) }
      if l.broken || l.record.cctr = 0 then s else s.advance l.ctx l.record.cctr.toNat l.record.cinc.toNat 11 0
    else s

/-- One group of a launch has exited, or its gang has ended (`broken`). -/
def State.groupLeft (s : State) (key : Nat) (broken : Bool) : State :=
  (s.updLaunch key (fun l => { l with
    exited := l.exited + 1
    broken := l.broken || broken })).endLaunch key

def State.freeTask (s : State) (c i : Nat) : State := { s with tasks := s.tasks.filter (fun t => !(t.cluster = c && t.index = i)) }

/-- The root record of a family, while it is held (R89, R91). -/
def State.root? (s : State) (family : Nat) : Option Task := s.tasks.find? (fun t => t.family = family && t.rt)

def State.updFamily (s : State) (family : Nat) (f : Task → Task) : State := { s with tasks := mapIf (fun t => t.family = family) f s.tasks }

/-- Queue the continuation of a family (R94); a refused record is reported and traps no thread (R438). -/
def State.continue_ (s : State) (t : Task) : State :=
  match s.ctx? t.ctx with
  | none => s
  | some c =>
    match s.readLaunch c t.cont with
    | .ok r => (s.accept t.ctx r).1
    | .error k => s.report { ErrRec.none with
        addr := t.cont
        cls := 0x16
        ctx := t.ctx
        lcyc := s.lcyc 11 0
        launch := t.launchId
        detail := k }

/-- A family of a retiring record is over: its REM has reached 0 with this record (R94), or it never had an iteration and this record
is the last of its records (R325). `t` is the record, `rem` what REM is now. -/
def State.familyOver (s : State) (t : Task) (rem : W64) : Bool :=
  rem = 0 && (t.doneCnt ≠ 0 || !(s.tasks.any (fun u => u.family = t.family && !(u.cluster = t.cluster && u.index = t.index))))

/-- RETIRE A RECORD (R91, R94): DONE goes to CCTR, unless `quiet` (R443), and off the root's REM. The root stays, in state 4, while
REM is above 0. When the family is over its continuation is queued, once. -/
def State.retire (s : State) (c i : Nat) (quiet : Bool) : State :=
  match s.task? c i with
  | none => s
  | some t =>
    let rem := ((s.root? t.family).map (fun r => r.rem - t.doneCnt)).getD 0
    let ends := s.familyOver t rem
    let s := if quiet || t.cctr = 0 then s else s.advance t.ctx t.cctr.toNat t.doneCnt.toNat 11 0
    let s := s.updFamily t.family (fun r => if r.rt then { r with rem := rem } else r)
    let s := if t.rt && rem ≠ 0 then s.updTask c i (fun t => { t with state := 4 }) else s.freeTask c i
    let s := if rem = 0 then { s with tasks := s.tasks.filter (fun u => !(u.family = t.family && u.rt && u.state = 4)) } else s
    if ends && t.cont ≠ 0 then (s.updFamily t.family (fun u => { u with cont := 0 })).continue_ t else s

/-! ### Groups that finish -/

/-- Every thread of the group has ended. -/
def Group.allEnded (g : Group) : Bool := g.warps.all (fun w => w.threads.all (fun t => t.life = .ended))

/-- A byte of an accumulator partition that nothing has written: zero, or a value that is left over there (R294, log 3). -/
def Group.freeByte (g : Group) (o : Nat) : Nat :=
  let l := 0 :: g.leftover
  l.getD (Config.freeAcc g.key o % l.length) 0

/-- An accumulator element's 8 bytes; those of one that nothing has written are free. -/
def Group.accEl (g : Group) (o : Nat) : W64 × Bool :=
  let e := sget AccEl.unwritten g.acc o
  (e.val.getD (BitVec.ofNat 64 (leNat ((List.range 8).map (fun i => BitVec.ofNat 8 (g.freeByte (8 * o + i)))))), e.bad)

/-- Values of bytes that stand in an accumulator partition: those left over there, and those of written elements. -/
def Group.accBytes (g : Group) : List Nat :=
  g.acc.foldl (fun l e => match e.2.val with
    | some v => (leBytes 8 v.toNat).foldl (fun l b => setIns l b.toNat) l
    | none => l) g.leftover

/-- Nothing that the group issued is still under way: its residency can be released (R66, R85). -/
def State.quietGroup (s : State) (k : Nat) : Bool :=
  match s.group? k with
  | none => true
  | some g =>
    g.ops = [] && !(s.copies.any (fun c => c.g = k)) && !(s.kops.any (fun o => o.g = k)) && !(s.mem.ops.any (fun o => o.g = k))

/-- What a group that is gone leaves in its accumulator partition, later groups of its context may find (R87, R294). -/
def State.leaveOver (s : State) (k : Nat) : State :=
  match s.group? k with
  | none => s
  | some g => s.updCtx g.ctx (fun c => { c with leftover := g.accBytes.foldl setIns c.leftover })

/-- Drop what the device holds for a group that is gone. -/
def State.dropGroup (s : State) (k : Nat) : State :=
  let s := s.leaveOver k
  { s with
    groups := s.groups.filter (fun g => g.key ≠ k)
    mem := { s.mem with
      ops := s.mem.ops.filter (fun x => x.g ≠ k)
      marks := s.mem.marks.filter (fun x => x.g ≠ k)
      walks := s.mem.walks.filter (fun x => x.g ≠ k)
      invals := s.mem.invals.filter (fun x => x.g ≠ k)
      stalls := s.mem.stalls.filter (fun x => match x.by_ with | .thread g .. => g ≠ k | _ => true) } }

/-- A group whose threads have all ended, and for which nothing is under way, exits: its version commits, its residency is
released, its launch or record goes on (R66, R85, R94, R97). -/
def State.tryEnd (s : State) (k : Nat) : State :=
  match s.group? k with
  | none => s
  | some g =>
    if g.allEnded && !g.stop && s.quietGroup k then
      let s := (s.commit k).dropGroup k
      match g.task with
      | some (c, i) => s.retire c i false
      | none => s.groupLeft g.launch false
    else s

/-! ### Threads that exit (R49 to R52, R57) -/

/-- Positions that leave a slot's set (R332); a replied slot whose set empties becomes free. -/
def State.slotLeave (s : State) (ctx : Nat) (slot : Nat) : State :=
  match s.ctx? ctx with
  | none => s
  | some c =>
    let va := c.svcqBase.toNat + 544 * slot
    let s := s.updCtx ctx (fun c => { c with slots := c.slots.filter (fun t => !(t.slot = slot && t.left = 0)) })
    match (if c.svcqBase = 0 then none else s.slotPieces c va 32) with
    | none => s
    | some ps => if (s.readPieces ps).getD 27 0 = 2 then (s.deviceWrite c (va + 27) [0] none).1 else s

/-- Threads that count as exited for the service slots (R332). -/
def State.slotsForget (s : State) (ctx k w : Nat) (m : W64) : State :=
  match s.ctx? ctx with
  | none => s
  | some c =>
    let hit := c.slots.filter (fun t => t.g = k && t.w = w && t.left &&& m != 0)
    let s := s.updCtx ctx (fun c => { c with slots := mapIf (fun t => t.g = k && t.w = w) (fun t => { t with left := t.left &&& ~~~m }) c.slots })
    hit.foldl (fun s t => if t.left &&& ~~~m = 0 then s.slotLeave ctx t.slot else s) s

/-- Position t of warp w is in the set of a convergence register, by its masks alone (R40, R42). -/
def Conv.names (c : Conv) (w t : Nat) : Bool := c.wmask.getLsbD w && c.tmask.getLsbD t
def Conv.signed (c : Conv) (w t : Nat) : Bool := c.signers.any (fun x => x.w = w && x.pos = t)

/-- Unsigned members that end or park leave PEND (R44). -/
def Conv.leave (c : Conv) (own : Bool) (w : Nat) (ts : List Nat) : Conv :=
  if c.armed then
    { c with pend := c.pend - (ts.filter (fun t => (own || c.names w t) && !c.signed w t)).length }
  else c

def Group.leaveSets (g : Group) (w : Nat) (ts : List Nat) : Group :=
  let g := g.updWarp w (fun x => { x with cvw := x.cvw.leave true w ts })
  { g with cv := g.cv.foldl (fun l (n, c) => sset Conv.idle l n (c.leave false w ts)) g.cv }

/-- Threads of a warp that have executed EXIT in every stream: live ones become helpers, helpers park, and a quad without
a live thread ends (R49, R52). -/
def Warp.exit (w : Warp) (ts : List Nat) : Warp :=
  let w := ts.foldl (fun w t => w.updThread t (fun th => { th with
    life := match th.life with | .live => .helper | .helper => .parked | l => l
    exitE := false
    exitA := false })) w
  let dead := fun t => (List.range' (t / 4 * 4) 4).all (fun u => match w.threads[u]? with | some th => th.life != .live | none => true)
  { w with threads := w.threads.zipIdx.map (fun (th, t) => if dead t then { th with life := .ended } else th) }

/-- EXIT for positions of a warp whose every stream has executed it. -/
def State.exitNow (s : State) (k w : Nat) (ts : List Nat) : State :=
  match s.group? k, s.warp? k w with
  | some g, some before =>
    let after := before.exit ts
    let life := fun (x : Warp) t => match x.threads[t]? with | some th => th.life | none => .ended
    let runs := fun (l : Life) => l = .live || l = .helper
    let gone := (List.range before.threads.length).filter (fun t => runs (life before t) && !(runs (life after t)))
    let m := maskOf gone
    let s := s.updWarp k w (fun x =>
      let x := x.exit ts
      { x with paths := x.paths.map (fun p => p.without m) })
    let s := s.updGroup k (fun g => g.leaveSets w gone)
    s.slotsForget g.ctx k w (maskOf ts ||| m)
  | _, _ => s

/-- Threads that park at an EXIT leave their path for one of their own, which goes on at the next word if they become helpers. -/
def State.parkAt (s : State) (r : PathRef) (access : Bool) (next : W64) (m : W64) : State :=
  if m = 0 then s
  else s.updWarp r.g r.w (fun w => { w with paths := w.paths.modify r.p (fun p => p.without m) ++ [Path.start access next m] })

/-- EXIT by threads of one stream (R57): in a .dae launch the stream that arrives first parks at its EXIT; the other threads of
its path go on. -/
def State.exitThreads (s : State) (r : PathRef) (access : Bool) (next : W64) (ts : List Nat) : State :=
  match s.group? r.g with
  | none => s
  | some g =>
    if g.dae then
      let s := ts.foldl (fun s t => s.updThread r.g r.w t (fun th => if access then { th with exitA := true } else { th with exitE := true })) s
      match s.warp? r.g r.w with
      | none => s
      | some x =>
        let both := fun t => match x.threads[t]? with | some th => th.exitA && th.exitE | none => false
        (s.parkAt r access next (maskOf (ts.filter (fun t => !both t)))).exitNow r.g r.w (ts.filter both)
    else s.exitNow r.g r.w ts

/-! ### Gangs that stop (R413 codes 2 and 3, R442, R443) -/

/-- One group of a stopped gang ends: its version is discarded, its work in slots and engines too, and nothing is advanced on
its behalf. The record of a worker group retires without an add (R443). -/
def State.endGroup (s : State) (k : Nat) : State :=
  match s.group? k with
  | none => s
  | some g =>
    let s := { s with
      copies := s.copies.filter (fun c => c.g ≠ k)
      kops := s.kops.filter (fun o => o.g ≠ k) }
    let s := g.warps.foldl (fun s w => s.slotsForget g.ctx k w.wid (maskOf (List.range 64))) s
    let s := s.dropGroup k
    match g.task with
    | some (c, i) => s.retire c i true
    | none => s.groupLeft g.launch true

/-- The accesses that the groups of a gang have issued are performed. -/
def State.settled (s : State) (x : GangStop) : Bool := !(s.mem.ops.any (fun o => o.g ∈ x.groups && o.parts.any (fun p => !p.served)))

/-- The gangs that are to stop, and whose accesses are performed, have stopped: their groups end, and their records are written
(R413). -/
def State.finishStops (s : State) : State :=
  let todo := s.stops.filter s.settled
  let s := todo.foldl (fun s x => x.groups.foldl State.endGroup s) { s with stops := s.stops.filter (fun x => !s.settled x) }
  todo.foldl (fun s x => s.report x.err) s

end Sys2Proof.Machine
end

