-- ==== Sys2Proof/Machine/Access.lean ====
section
/-! DEFINITION. Access.lean: what every access of memory does beside moving bytes: sector headers
(R468), access counting and notifications (R154 to R156, R470), HOST writes (R469), and the ways and orientation of sectors
(R140, R143, R146); the accesses of engines. -/

namespace Sys2Proof.Machine

/-! ### Sector headers (R468) -/

/-- The stack of a sector (R147). -/
def stackOf (x : Nat) : Nat := bits x 2 0 ^^^ bits x 5 3

/-- The first read of a sector whose header is uncorrectable is reported. -/
def State.noteHeader (s : State) (ctx pa n : Nat) : State :=
  (sectorsOf pa n).foldl (fun s x =>
    if setMem s.mem.badHdr x && !(setMem s.mem.saidHdr x) then
      let s := { s with mem := { s.mem with saidHdr := setIns s.mem.saidHdr x } }
      s.report { ErrRec.none with
        addr := BitVec.ofNat 64 (1024 * x)
        cls := 0x2C
        phys := true
        ctx := ctx
        lcyc := s.lcyc 9 (stackOf x)
        acls := 9
        agent := stackOf x
        detail := stackOf x }
    else s) s

/-! ### Access counting (R154 to R156, R470) -/

/-- Notification records whose write is stalled (R157): PNQHEAD has not risen for them yet. -/
def State.pnqWaiting (s : State) (ctx : Nat) : Nat :=
  (s.mem.stalls.filter (fun x => x.ctx = ctx && match x.by_ with | .device _ r _ => r | _ => false)).length

/-- Write a notification record; PNQHEAD rises once it stands (R156). -/
def State.notify (s : State) (c : Ctx) (va core count : Nat) : State :=
  let page := va / 65536 * 65536
  let head := c.pnqHead + BitVec.ofNat 64 (s.pnqWaiting c.num)
  if head - c.pnqTail = c.pnqSize then
    s.report { ErrRec.none with
      addr := BitVec.ofNat 64 page
      cls := 0x2E
      ctx := c.num
      lcyc := s.lcyc 11 0 }
  else
    let at_ := c.pnqBase.toNat + 16 * (head.toNat % c.pnqSize.toNat)
    let record := bits va 63 16 * 2 ^ 16 + count % 2 ^ 16 * 2 ^ 64 + core % 2 ^ 16 * 2 ^ 80 + c.num % 2 ^ 32 * 2 ^ 96
    let (s, bad) := s.deviceWrite c at_ (leBytes 16 record) (if c.pnqCtr = 0 then none else some c.pnqCtr) true
    match bad with
    | none => s
    | some kind => s.report { ErrRec.none with
        addr := c.pnqCtr
        cls := 0x27
        ctx := c.num
        lcyc := s.lcyc 11 0
        detail := kind + 11 * 16 }

/-- A fill of a line of a HOST page that counts. -/
def State.countFill (s : State) (ctx va core : Nat) : State :=
  match s.ctx? ctx with
  | none => s
  | some c =>
    let lo := c.pctVa.toNat
    if va < lo || lo + 65536 * c.pctLen.toNat ≤ va then s
    else
      let at_ := (c.pctBase.toNat + 2 * ((va - lo) / 65536)) % 2 ^ 64
      match s.readVirt c at_ 2 with
      | none => s
      | some (bs, _) =>
        let old := leNat bs
        let new := min 0xFFFF (old + 1)
        let s := (s.deviceWrite c at_ (leBytes 2 new) none).1
        let hr := c.pctHr.toNat
        if hr ≠ 0 && old < hr && hr ≤ new then s.notify c va core new else s

/-- An access by an agent of core `core` reaches a line: a HOST line that the LLC does not hold, and can hold, is missing (R154). -/
def State.fillLine (s : State) (e : TlbEntry) (line core : Nat) : State :=
  let t := s.mem.sector (line / 32)
  if hostPa (32 * line) && !(t.valid.getLsbD (line % 32)) && s.mem.fits (line / 32) && !(s.mem.misses.any (fun f => f.pa = 32 * line)) then
    { s with mem := { s.mem with misses := s.mem.misses ++ [{ id := 0, pa := 32 * line, ctx := e.ctx, va := e.va + (32 * line - e.frame),
                                                              core := core, attr := e.attr, small := e.size = 65536, age := 0 }] } }
  else s

/-- Every line of a sector that column lines bring in (R143). -/
def State.fillSector (s : State) (e : TlbEntry) (x core : Nat) : State :=
  (List.range' (32 * x) 32).foldl (fun s l => s.fillLine e l core) s

/-! ### Accesses that an agent's own event makes (R79, R80, R143, R144)

An event that reaches sectors takes its turn at each: it waits while a sector turns or an earlier or higher request waits there, it
turns a sector that is held in the other orientation, and it asks for HOST lines that the LLC does not hold. It happens once all of
them are in reach; until then its place in each line is a request of the memory. -/

/-- A class-3 request that has waited 4,096 cycles (R80). -/
def State.aged (s : State) (r : Req) : Bool := r.cls = 3 && r.arrived + 4096 ≤ s.coreClock

def AccessKind.reads : AccessKind → Bool
  | .store | .ctrInit _ => false
  | _ => true
def AccessKind.writes : AccessKind → Bool
  | .load | .ctrRd => false
  | _ => true

/-- The reading agent of a part. -/
def MemOp.agent (o : MemOp) (p : Part) : Agent := .thread o.g o.w (p.pos.getD (maskLow o.tmask))
/-- The scope of a strong access. -/
def MemOp.strong (o : MemOp) : Option Scope := if o.order = .weak then none else some o.scope

/-- Lines that a request touches in its sector. -/
def State.reqLines (s : State) (r : Req) : List Nat :=
  match r.op with
  | some id => match s.mem.ops.find? (fun o => o.id = id) with
    | some o => ((o.parts.filter (fun p => p.pa / 1024 = r.sector)).map (fun p => p.pa / 32)).eraseDups
    | none => []
  | none => linesOf r.pa r.len

/-- An engine has owned a line since before a number (R182). -/
def State.ownedSince (s : State) (n key : Nat) : Bool := s.ownedBy (some n) key

/-- A request of an operation waits outside its line: it would read what a release stands before (R169), or it touches a line that
an engine has owned since before it arrived (R182). -/
def State.blocked (s : State) (r : Req) : Bool :=
  match r.op.bind (fun id => s.mem.ops.find? (fun o => o.id = id)) with
  | some o =>
    (o.kind.reads && o.parts.any (fun p => p.pa / 1024 = r.sector && !p.served && s.veiled (o.agent p) o.strong p.pa o.size)) ||
    (s.reqLines r).any (fun l => s.ownedSince r.id (2 * l))
  | none => (s.reqLines r).any (fun l => r.eng.isNone && s.ownedSince r.id (2 * l))

/-- The order of service: the request that caused a turn, then by class, oldest first; an aged request of class 3 takes its
place among those of class 2. -/
def State.before (s : State) (a b : Req) : Bool :=
  let cls := fun (r : Req) => if s.aged r then 2 else r.cls
  if a.turned != b.turned then a.turned
  else if cls a ≠ cls b then cls a < cls b
  else if a.arrived ≠ b.arrived then a.arrived < b.arrived else a.id < b.id

/-- Places in line of an event. -/
def Memory.places (m : Memory) (key : Nat × Nat) : List Req := m.reqs.filter (fun r => r.eng = some key)

def Memory.leaveLine (m : Memory) (key : Nat × Nat) : Memory := { m with reqs := m.reqs.filter (fun r => r.eng ≠ some key) }

/-- An event is in reach of a sector: no turn is in progress, the sector has the orientation or is absent, and no other request goes
before it; `mine` is its place in line, if it has one. -/
def State.inReach (s : State) (cls : Nat) (mine : Option Req) (x : Nat) (col : Bool) : Bool :=
  let t := s.mem.sector x
  let me : Req := mine.getD { id := s.stamp, sector := x, cls := cls, arrived := s.coreClock, op := none, kindle := none, pa := 1024 * x,
                              len := 0, dst := 0, turned := false, col := col, eng := none, piece := 0, tr := none }
  (t.orient = .absent || t.orient = (if col then .col else .row)) &&
  s.mem.reqs.all (fun r => r.sector ≠ x || r.id = me.id || s.blocked r || !(s.before r me))

/-- An event is in reach of every sector. -/
def State.reachAll (s : State) (key : Nat × Nat) (cls : Nat) (needs : List (Nat × Bool)) : Bool :=
  needs.all (fun n => s.inReach cls ((s.mem.places key).find? (fun r => r.sector = n.1)) n.1 n.2)

/-- Take a place in every line, anew when the sectors are others than before. -/
def State.standInLine (s : State) (key : Nat × Nat) (cls : Nat) (needs : List (Nat × Bool)) : State :=
  if (s.mem.places key).map (fun r => (r.sector, r.col)) = needs then s
  else
    needs.foldl (fun s n =>
      let (s, id) := s.fresh
      let r : Req := { id := id, sector := n.1, cls := cls, arrived := s.coreClock, op := none, kindle := none, pa := 1024 * n.1, len := 0,
                       dst := 0, turned := false, col := n.2, eng := some key, piece := 0, tr := none }
      { s with mem := { s.mem with reqs := s.mem.reqs ++ [r] } }) { s with mem := s.mem.leaveLine key }

/-- The request that a sector serves next. -/
def State.nextReq (s : State) (x : Nat) : Option Req :=
  (s.mem.reqs.filter (fun r => r.sector = x && !(s.blocked r))).foldl (fun best r => match best with
    | none => some r
    | some b => if s.before r b then some r else some b) none

/-- A request starts a turn of its sector: 16 cycles, after which it is served first (R143). -/
def State.startTurn (s : State) (r : Req) : State :=
  let t := s.mem.sector r.sector
  let s := { s with mem := { s.mem.setSector r.sector { t with orient := if r.col then .turnCol else .turnRow, turn := 16 } with
    reqs := mapIf (fun q => q.id = r.id) (fun q => { q with turned := true }) s.mem.reqs } }
  s.count 1 (sliceOf r.sector) 4 1

/-- Turn the sectors where an event is first in line and the orientation is the other one. -/
def State.turnFor (s : State) (key : Nat × Nat) : State :=
  (s.mem.places key).foldl (fun s r =>
    let t := s.mem.sector r.sector
    if ((r.col && t.orient = .row) || (!r.col && t.orient = .col)) && (s.nextReq r.sector).map (·.id) = some r.id then s.startTurn r else s) s

/-- Ask the control node for HOST lines that are not yet asked for. -/
def State.askLines (s : State) (fs : List Fill) : State :=
  fs.foldl (fun s f =>
    if s.mem.fills.any (fun g => g.pa = f.pa) then s
    else
      let (s, id) := s.fresh
      { s with mem := { s.mem with fills := s.mem.fills ++ [{ f with id := id }] } }) s

/-- What an event leaves that has reached its sectors. -/
def State.arrive (s : State) (key : Nat × Nat) : State := { s with mem := { s.mem.leaveLine key with touched := [], misses := [] } }

/-- What would lead to `t` happens in `s` when all sectors that it reaches are in reach and no HOST line is missing; else it stands
in line, turns and asks, or, where it does so already, is put off. -/
def State.reaching (s : State) (key : Nat × Nat) (cls : Nat) (t : State) : Except State State :=
  if s.reachAll key cls t.mem.touched && t.mem.misses.isEmpty then .ok (t.arrive key)
  else
    let u := ((s.standInLine key cls t.mem.touched).turnFor key).askLines t.mem.misses
    .error (if u.stamp = s.stamp && u.mem.llc = s.mem.llc then s.putOff else u)

/-- AN EVENT THAT REACHES SECTORS. -/
def State.attempt (s : State) (key : Nat × Nat) (cls : Nat) (run : State → Result) : Result :=
  match run s with
  | .next t =>
    if t.held then notNow s
    else match s.reaching key cls t with
      | .ok t => .next t
      | .error u => .next u
  | r => r

/-- What a path's issue comes to, when it reaches sectors: in reach, or its path waits. -/
def State.reached (s : State) (key : Nat × Nat) (cls : Nat) (r : State × Flow) : State × Flow :=
  if r.1.held then r
  else match s.reaching key cls r.1 with
    | .ok t => (t, r.2)
    | .error u => (u, .stay)

/-- Where a core looks for translations, and where the engines that it issues to do (R152). -/
def Group.via (g : Group) : Option TlbPlace := some (.core g.core)
def Group.viaEngine (g : Group) : Option TlbPlace := some (.cluster (clusterOf g.core))

/-! ### The accesses of engines -/

/-- The core that a notification names for a fill that an agent causes (R155): a core itself, else the first core that the engine
serves (DESIGN CHOICE, log 46). -/
def coreOf (cls agent : Nat) : Nat :=
  match cls with
  | 1 => agent | 2 => 4 * agent | 3 => agent / 4 | 4 => 48 * agent | _ => 0

/-- A piece of a page: the translation, the physical address and the length, and where the agent holds translations. -/
structure Piece where
  e : TlbEntry
  pa : Nat
  n : Nat
  via : Option TlbPlace
deriving DecidableEq, Repr

/-- The pieces of a virtual range, or the first address whose translation fails. -/
def State.piecesAt (s : State) (c : Ctx) (via : Option TlbPlace) : List (Nat × Nat) → Except (Nat × WalkErr) (List Piece)
  | [] => .ok []
  | (va, n) :: rest =>
    match s.translate c va via with
    | .error w => .error (va, w)
    | .ok e =>
      match s.piecesAt c via rest with
      | .error w => .error w
      | .ok l => .ok ({ e := e, pa := e.pa va, n := n, via := via } :: l)

/-- Bytes as a read finds them (R149), with their tags. -/
def Memory.readAt (m : Memory) (pa n : Nat) : List (Byte × Bool) := (List.range n).map (fun i => (m.read (pa + i), m.isBad (pa + i)))

/-- Bytes that an agent reads by row lines, with their tags. -/
def State.agentRead (s : State) (req cls agent : Nat) (p : Piece) : State × List (Byte × Bool) :=
  let s := s.walked p.via p.e
  let s := { s with mem := s.mem.hold p.via p.e }
  let s := (linesOf p.pa p.n).foldl (fun s l =>
    let s := s.fillLine p.e l (coreOf cls agent)
    let (m, turned) := s.mem.rowLine l false
    ({ s with mem := m }).served (l / 32) req turned) s
  let s := (s.watch true false p.pa p.n cls agent).1
  let s := s.noteHeader p.e.ctx p.pa p.n
  (s, s.mem.readAt p.pa p.n)

/-- A HOST write goes to the control node (R469). -/
def State.hostWrite (s : State) (ctx pa n : Nat) : State :=
  if hostPa pa then
    let (s, id) := s.fresh
    { s with mem := { s.mem with hwrites := s.mem.hwrites ++ [{ id := id, pa := pa, len := n, ctx := ctx, age := 0 }] } }
  else s

/-- Bytes that an agent writes by row lines; each with its tag. -/
def State.agentWrite (s : State) (req cls agent : Nat) (p : Piece) (bs : List (Byte × Bool)) : State :=
  let s := s.walked p.via p.e
  let s := { s with mem := s.mem.hold p.via p.e }
  let s := (linesOf p.pa p.n).foldl (fun s l =>
    let (m, turned) := s.mem.rowLine l true
    ({ s with mem := m }).served (l / 32) req turned) s
  let m := s.mem.write p.pa (bs.map (·.1)) false
  let bad := (bs.zipIdx.filter (fun b => b.1.2)).map (fun b => (p.pa + b.2) / 8)
  let keep := (wordsOf p.pa p.n).filter (fun w => s.mem.bad.contains w && !(decide (p.pa ≤ 8 * w) && decide (8 * w + 8 ≤ p.pa + p.n)))
  let s := { s with mem := { m with bad := (bad ++ keep).foldl setIns m.bad } }
  (s.watch false true p.pa p.n cls agent).1.hostWrite p.e.ctx p.pa p.n

/-- Bytes of a virtual range for an agent; none when a page has no valid translation. -/
def State.engineRead (s : State) (c : Ctx) (va n req cls agent : Nat) (via : Option TlbPlace := none) : Option (State × List (Byte × Bool)) :=
  match s.piecesAt c via (piecesOf va n) with
  | .error _ => none
  | .ok ps => some (ps.foldl (fun (s, acc) p => let (s, b) := s.agentRead req cls agent p; (s, acc ++ b)) (s, []))

/-- Write a virtual range for an agent. -/
def State.engineWrite (s : State) (req cls agent : Nat) : List Piece → List (Byte × Bool) → State
  | [], _ => s
  | p :: ps, bs => (s.agentWrite req cls agent p (bs.take p.n)).engineWrite req cls agent ps (bs.drop p.n)

end Sys2Proof.Machine
end

