-- ==== Sys2Proof/Machine/Control.lean ====
section
/-! DEFINITION. Control.lean: the control instructions (R222 to R229), and the fetch of a word that is not an instruction or
cannot be fetched (R428, R453). SIGN and CVSET stand in Cross.lean. -/

namespace Sys2Proof.Machine

def srcA (op : Operand) (n : Nat) : Src := { field := 2, op := op, n := n }
def srcB (op : Operand) (n : Nat) : Src := { field := 3, op := op, n := n }
def srcC (op : Operand) (n : Nat) : Src := { field := 4, op := op, n := n }

/-- NOP has no effect (R226). -/
def execNop (x : Op0) (s : State) : Result :=
  issue (.nop x) x.h { srcs := [], flat := true } 1 s fun _ _ s => (s, .next [])

/-- A branch target with a nonzero bit in [2:0] or [63:55] (R224, R430 kind 8). -/
def badTarget (a : W64) : Bool := bits a.toNat 2 0 != 0 || bits a.toNat 63 55 != 0

/-- Branch: threads with a bad target trap at the branch, each for itself (R430 kind 8); the others go to their targets. -/
def State.branch (s : State) (x : Iss) (a : Operand) (goals : List (Nat × W64)) : State × Flow :=
  let bad := goals.filter (fun m => badTarget m.2)
  (s.trapAll x.r (bad.map (fun m => ⟨m.1, 0x11, 0, 8 + a.code * 16⟩)), .next (goals.filter (fun m => !badTarget m.2)))

/-- PC + 8 × A with A read as signed 32-bit (R224). -/
def relative (x : Iss) (v : List (List Reg)) : W64 := x.p.pc + BitVec.ofInt 64 (8 * sval 32 (regsNat (v.headD [])))
def absolute (v : List (List Reg)) : W64 := BitVec.ofNat 64 (regsNat (v.headD []))

/-- The values of a uniform operand hold for every thread of a per-thread instruction. -/
def Taken.each (k : Taken) (f : List (List Reg) → W64) : List (Nat × W64) := k.vals.map (fun m => (m.1, f m.2))

/-- Append to the branch queue of each thread that is still at the instruction and skips nothing (R56, R225). -/
def State.pushBranch (s : State) (x : Iss) (taken : List Nat) : State :=
  match s.path? x.r with
  | none => s
  | some p => (maskList (p.tmask &&& ~~~p.skmask)).foldl (fun s t =>
      s.updThread x.r.g x.r.w t (fun th => { th with br := th.br ++ [(decide (t ∈ taken), false)] })) s

/-- BRA (R223 to R225). On the access side of a .dae launch it also pushes to the branch queue. -/
def execBra (x : OpA) (s : State) : Result :=
  let acc := match s.iss? with | some i => i.g.dae && i.p.access | none => false
  issue (.bra x) x.h { srcs := [{ srcA x.a 1 with strict := true }], uni := some false, flat := true, branch := acc.toNat } 1 s
    fun i k s =>
      let s := if acc then s.pushBranch i k.ts else s
      s.branch i x.a (k.each (relative i))

/-- BRX (R223, R224). -/
def execBrx (x : OpA) (s : State) : Result :=
  issue (.brx x) x.h { srcs := [{ srcA x.a 2 with strict := true }], uni := some false, flat := true } 1 s
    fun i k s => s.branch i x.a (k.each absolute)

/-- BRQ pops one entry for each thread that skips nothing; those that popped 1 and whose guard is true branch (R225). -/
def execBrq (x : OpA) (s : State) : Result :=
  issue (.brq x) x.h { srcs := [{ srcA x.a 1 with strict := true }], uni := some false, flat := true, branch := 2, execOnly := true,
                       daeOnly := true } 1 s
    fun i k s =>
      let here := match s.path? i.r with | some p => maskList (p.tmask &&& ~~~p.skmask) | none => []
      let s := here.foldl (fun s t => s.updThread i.r.g i.r.w t (fun th => { th with br := th.br.drop 1 })) s
      let hit := (k.each (relative i)).filter (fun m => ((i.thread m.1).br.headD (false, false)).1)
      s.branch i x.a hit

/-- CALL: the return address goes to D, per thread (R224). -/
def execCall (x : OpDA) (s : State) : Result :=
  issue (.call x) x.h { srcs := [{ srcA x.a 1 with strict := true }], dst := some { op := x.d, n := 2 }, uni := some false, flat := true } 1 s
    fun i k s =>
      let goals := k.each (relative i)
      let s := (goals.filter (fun m => !badTarget m.2)).foldl (fun s m =>
        s.writeDst i.r.g i.r.w i.g { op := x.d, n := 2 } m.1 [m.1] (regsOf 2 i.next.toNat false)) s
      s.branch i x.a goals

/-- RET (R223, R224). -/
def execRet (x : OpA) (s : State) : Result :=
  issue (.ret x) x.h { srcs := [{ srcA x.a 2 with strict := true }], uni := some false, flat := true } 1 s
    fun i k s => s.branch i x.a (k.each absolute)

/-- SKIP opens a region over the next n words (R37, R226); inside an open region it is an illegal use that leaves the region
open (R39, R430 kind 10). -/
def execSkip (x : SkipOps) (s : State) : Result :=
  issue (.skip x) x.h { srcs := [], uni := some false, flat := true, always := true } 1 s fun i k s =>
    if i.p.skn ≠ 0 then
      ((s.faultAt i.r i.p.tmask i.p.pc 0x11 1 0 10 true).settle i.r.g i.r.w, .stay)
    else
      let n := x.n.val + 1
      (s.updPath i.r (fun p => { p with
        skn := n + wordsIn i.size
        skmask := maskOf k.ts }), .next [])

/-- EXIT (R49 to R52, R57). -/
def execExit (x : Op0) (s : State) : Result :=
  match issue (.exit x) x.h { srcs := [], uni := some false, flat := true } 1 s
    (fun i k s => (s.exitThreads i.r i.p.access i.next k.ts, .next [])) with
  | .next s => .next (match s.cur with | some (.path r _) => s.tryEnd r.g | _ => s)
  | r => r

/-- YIELD changes no state: it marks the path for the lane's next choice (R226). -/
def execYield (x : Op0) (s : State) : Result :=
  issue (.yield x) x.h { srcs := [], uni := some false, flat := true } 1 s fun i _ s =>
    (s.updPath i.r (fun p => { p with yielded := true }), .next [])

/-- PRIO is uniform and sets the group's priority; a value above 15 acts as 15 (R229). Of the warps that issue it in one cycle the
highest prevails (R77). A per-thread A is read at the lowest taking position (DESIGN CHOICE, log 45). -/
def execPrio (x : OpA) (s : State) : Result :=
  issue (.prio x) x.h { srcs := [srcA x.a 1], uni := some true } 1 s fun i k s =>
    (k.vals.foldl (fun s m => s.updShared i.r.g .prio i.w.wid (fun g => { g with prio := min 15 (regsNat (m.2.headD [])) })) s, .next [])

/-- A word that is not an instruction (R428): every thread of the path traps, unless all of them skip the word. -/
def execNotAnInstruction (cond : Fin 16) (s : State) : Result :=
  withIssue s fun x =>
    x.orderly s (if x.active = 0 then .next (s.finish x.r x.size []) else .next (s.faultPath x 0x10 0 cond.val))

/-- A word that cannot be fetched (R451, R453): every thread of the path traps, also inside a skip region. -/
def execFetchFault (detail : Nat) (addr : W64) (s : State) : Result :=
  withIssue s fun x => x.orderly s (.next (s.faultPath x 0x25 addr.toNat detail))

end Sys2Proof.Machine
end

