-- ==== Sys2Proof/Machine/Memory.lean ====
section
/-! DEFINITION. Memory.lean: loads, stores, prefetches, sector locks and fences (R163 to R176, R210, R258 to R268, R449 to R456,
R471), and the events that carry a global access: walks, requests at sectors, turns, evictions, fills, replies (R79, R80,
R143, R144, R154, R157, R469). -/

namespace Sys2Proof.Machine

/-! ### Addresses (R210, R132) and accesses at issue -/

/-- The address of a global operand. -/
def globalVa (a b : Nat) : Nat := wrapInt 64 ((a : Int) + sval 32 b)
/-- The offset of a scratchpad operand. -/
def scratchVa (a b : Nat) : Nat := (a + b) % 2 ^ 32

/-- One thread's access as an instruction forms it; a uniform instance has no position (R259). -/
structure Want where
  pos : Option Nat
  va : Nat
  data : Nat
  bad : Bool
deriving DecidableEq, Repr

/-- What an instruction does to memory, for its checks: a write of any kind, an access that is not a counter's, a counter
instruction, a counter advance (R452). -/
structure Doing where
  code : Nat
  size : Nat
  write : Bool := false
  plain : Bool := false
  counter : Bool := false
  advance : Bool := false
deriving DecidableEq, Repr

/-- Kind of R452 that an access breaks. -/
def Doing.denied (d : Doing) (a : BitVec 9) : Option Nat :=
  if d.write && d.plain && !attrW a then some 1
  else if d.plain && attrCtr a then some 2
  else if d.counter && !attrCtr a then some 3
  else if d.advance && !attrW a then some 4
  else none

/-- The outcome of the checks of R450. -/
inductive Checked
  | ok (e : TlbEntry)
  | bad (cls addr detail : Nat)
  | walk
deriving DecidableEq, Repr

/-- The checks of a core's access, with the translation that it finds held. -/
def State.checkGlobal (s : State) (g : Group) (d : Doing) (va : Nat) : Checked :=
  if 2 ^ 55 ≤ va then .bad 0x20 va d.code
  else if va % d.size ≠ 0 then .bad 0x21 va d.size
  else
    match s.mem.tlbFind g.core g.ctx va with
    | none => .walk
    | some e => match d.denied e.attr with
      | some k => .bad 0x23 va k
      | none => .ok e

/-- Positions of an access: its own, or every taking thread's. -/
def Want.who (w : Want) (ts : List Nat) : List Nat := match w.pos with | some t => [t] | none => ts

/-- The issuing path waits for walks of the pages that are not translated (R449): nothing else has happened. -/
def State.askWalks (s : State) (i : Iss) (d : Doing) (ts : List Nat) (ws : List Want) : State :=
  let missing := ws.filter (fun w => match s.checkGlobal i.g d w.va with | .walk => true | _ => false)
  let pages := (missing.map (fun w => w.va / 65536)).eraseDups
  pages.foldl (fun s page =>
    let mine := missing.filter (fun w => w.va / 65536 = page)
    let (s, id) := s.fresh
    let walk : Walk := { id := id, g := i.r.g, w := i.r.w, access := i.p.access, pc := i.p.pc,
                         va := BitVec.ofNat 64 (match mine.head? with | some w => w.va | none => 0), write := d.write || d.advance,
                         tmask := maskOf (mine.flatMap (fun w => w.who ts)) }
    { s with mem := { s.mem with walks := s.mem.walks ++ [walk] } }) s

/-- A write of threads of the issuing path meets a WB page and stalls (R157). -/
def State.askWb (s : State) (i : Iss) (m : W64) (va : Nat) : State :=
  let (s, id) := s.fresh
  let st : Stall := { id := id, ctx := i.g.ctx, va := BitVec.ofNat 64 va, by_ := .thread i.r.g i.r.w i.p.access i.p.pc m, ready := false }
  { s with mem := { s.mem with stalls := s.mem.stalls ++ [st] } }

/-! ### Order (R167 to R170, R174) -/

/-- The operation belongs to threads of a path's stream. -/
def MemOp.ofPath (o : MemOp) (x : Iss) (m : W64) : Bool := o.g = x.r.g && o.w = x.r.w && o.access = x.p.access && o.tmask &&& m != 0

/-- Unserved accesses of the taking threads. -/
def State.earlier (s : State) (x : Iss) (h : Hdr) : List MemOp :=
  s.mem.ops.filter (fun o => o.ofPath x (x.taking h) && o.parts.any (fun p => !p.served))

/-- Fences that some accesses of the taking threads still precede (R168). -/
def State.fencesOf (s : State) (x : Iss) (h : Hdr) : List FenceMark :=
  s.mem.marks.filter (fun f => f.g = x.r.g && f.w = x.r.w && f.access = x.p.access && f.tmask &&& x.taking h != 0 && s.unserved f.after)

def acquires (o : Order) : Bool := o = .acq || o = .ar
def releases (o : Order) : Bool := o = .rel || o = .ar

/-- An access of a thread waits for earlier ones of its stream: after an acquire; a store or read-modify-write after loads and
counter reads (R167, R174). In scratchpad, which serves an access at once, a release and a write after a releasing fence wait
too. `kind`: 0 load, 1 store, 2 read-modify-write. -/
def State.mustWait (s : State) (x : Iss) (h : Hdr) (kind : Nat) (order : Order) (scratch : Bool) : Bool :=
  (s.earlier x h).any (fun o => acquires o.order || (scratch && releases order) || (decide (1 ≤ kind) && (o.kind = .load || o.kind = .ctrRd))) ||
  (scratch && decide (1 ≤ kind) && !(s.fencesOf x h).isEmpty)

/-- What a global write releases: with its own order at its scope, and behind a fence at the fence's (R168, R169). -/
def State.releasing (s : State) (x : Iss) (h : Hdr) (writes : Bool) (order : Order) (scope : Scope) : List (Scope × List Nat) :=
  (if releases order && !(s.earlier x h).isEmpty then [(scope, (s.earlier x h).map (·.id))] else []) ++
  (if writes then (s.fencesOf x h).map (fun f => (f.scope, f.after)) else [])

/-- `issue` for an access, put off while order demands it. -/
def issueMem (i : Instr) (h : Hdr) (sh : Shape) (per : Nat) (kind : Nat) (order : Order) (scratch : Bool) (s : State)
    (body : Iss → Taken → State → State × Flow) : Result :=
  withIssue s fun x => if s.mustWait x h kind order scratch then .next s.putOff else issue i h sh per s body

/-! ### Global operations in flight -/

/-- Pieces that are accesses of their own: the aligned 4-byte pieces of a wider weak load or store (R166). -/
def MemOp.pieces (o : MemOp) : Nat := if o.order = .weak && (o.kind = .load || o.kind = .store) && 4 < o.size then o.size / 4 else 1
/-- Bytes of one piece. -/
def MemOp.unit (o : MemOp) : Nat := o.size / o.pieces
/-- A part of a load finds its line in the core's L0 (R145): no engine owns the line, no earlier write of the warp to it is under
way, and no release stands before the read. -/
def State.hitsL0 (s : State) (core : Nat) (o : MemOp) (p : Part) : Bool :=
  o.kind = .load && s.mem.l0.contains (core, p.pa / 32) && !(s.owned (phys32 p.pa)) && !(s.veiled (o.agent p) o.strong p.pa o.size) &&
  !(s.mem.ops.any (fun q => q.g = o.g && q.w = o.w && q.kind.writes && q.parts.any (fun r => !r.served && r.pa / 32 = p.pa / 32)))

/-- The ring that D names, as it is bound now (R280). -/
def Group.ringAt (g : Group) (d : Operand) : Option (Nat × Nat) :=
  match d with
  | .q n => if n.val < 8 then none else g.ringOf n.val
  | _ => none

def partOf (w : Want) (e : TlbEntry) : Part :=
  { pos := w.pos, va := BitVec.ofNat 64 w.va, pa := e.pa w.va, attr := e.attr, data := BitVec.ofNat 128 w.data, bad := w.bad,
    small := e.size = 65536, got := 0, served := false, val := 0, vbad := 0, fault := false, hit := none }

/-- What a global memory instruction is, beside its accesses. -/
structure OpForm where
  kind : AccessKind
  ty : MemType
  order : Order
  scope : Scope
  d : Operand
deriving DecidableEq, Repr

/-- The accesses of an instruction after the checks of R450: threads that trap, accesses that stall at a WB page (R157), and
those that are made. -/
structure Sifted where
  walk : Bool
  errs : List ThreadErr
  wb : List (Want × TlbEntry)
  run : List (Want × TlbEntry)
deriving DecidableEq, Repr

def State.sift (s : State) (i : Iss) (k : Taken) (d : Doing) (ws : List Want) : Sifted :=
  let checks := ws.map (fun w => (w, s.checkGlobal i.g d w.va))
  let oks := checks.filterMap (fun (w, c) => match c with | .ok e => some (w, e) | _ => none)
  let stalls := fun (c : Want × TlbEntry) => (d.write || d.advance) && attrWb c.2.attr
  { walk := checks.any (fun c => c.2 = .walk)
    errs := checks.flatMap (fun (w, c) => match c with
      | .bad cls addr detail => (w.who k.ts).map (fun t => ({ t := t, cls := cls, addr := addr, detail := detail } : ThreadErr))
      | _ => [])
    wb := oks.filter stalls
    run := oks.filter (fun c => !stalls c) }

/-- What threads took from their data queues is put back. -/
def State.giveBack (s : State) (i : Iss) (m : W64) : State :=
  (maskList m).foldl (fun s t => s.updThread i.r.g i.r.w t (fun th => { th with q := (i.thread t).q })) s

def Shape.usesRing (sh : Shape) : Bool := sh.fields.any (fun u => match u.op with | .q n => decide (8 ≤ n.val) | _ => false)

/-- ACCESSES OF THE TAKING THREADS (R449, R450, R157); `s0` is the state before the issue. A missing translation puts the whole path
off. Else threads whose access fails trap, those whose write meets a WB page stall at the instruction, and the others'
accesses are made by `make`. An instruction that uses a ring stalls whole. -/
def State.goEach (s s0 : State) (i : Iss) (sh : Shape) (k : Taken) (d : Doing) (ws : List Want)
    (make : State → List (Want × TlbEntry) → State) : State × Flow :=
  let x := s.sift i k d ws
  let who := fun (l : List (Want × TlbEntry)) => maskOf (l.flatMap (fun c => c.1.who k.ts))
  let at_ := match x.wb.head? with | some c => c.1.va | none => 0
  if x.walk then (s0.askWalks i d k.ts ws, .stay)
  else if !x.wb.isEmpty && sh.usesRing then (s0.askWb i (maskOf k.ts) at_, .stay)
  else
    let s := s.trapAll i.r x.errs
    let s := if x.run.isEmpty then s else make s x.run
    if x.wb.isEmpty then (s, .next [])
    else
      let m := who x.wb
      let s := ((s.giveBack i m).askWb i m at_).updPath i.r (fun p => { p with redo := m })
      (s.settle i.r.g i.r.w, .wait)

/-- The parts of an operation at a sector wait there as one request for each piece (R144, R166, R262); those that the L0 holds
are served at once. -/
def State.launchOp (s : State) (core : Nat) (o : MemOp) (serve : State → MemOp → Part → State × Part) : State :=
  let (s, parts) := o.parts.foldl (fun (s, acc) p =>
    if s.hitsL0 core o p then let (s, p) := serve s o p; (s, acc ++ [p]) else (s, acc ++ [p])) (s, [])
  let sectors := ((parts.filter (fun p => !p.served)).map (fun p => p.pa / 1024)).eraseDups
  let s := { s with mem := { s.mem with ops := s.mem.ops ++ [{ o with parts := parts }] } }
  sectors.foldl (fun s x => (List.range o.pieces).foldl (fun s j =>
    let (s, id) := s.fresh
    let r : Req := { id := id, sector := x, cls := 2, arrived := s.coreClock, op := some o.id, kindle := none, pa := 1024 * x, len := 0,
                     dst := 0, turned := false, col := false, eng := none, piece := j, tr := none }
    { s with mem := { s.mem with reqs := s.mem.reqs ++ [r] } }) s) s

/-! ### Serving a part (R144, R171, R262) -/

/-- The new value of ATOM (R269, R270). -/
def atomValue (op : AtomOp) (old b : Nat) : Nat :=
  let add16 := fun (f : FSpec) => (List.range 2).foldl (fun acc j =>
    acc + f.round .rne 0 false ((f.decode (bits old (16 * j + 15) (16 * j))).add .rne (f.decode (bits b (16 * j + 15) (16 * j)))) * 2 ^ (16 * j)) 0
  let sel := fun (n : Nat) (sgn min : Bool) =>
    let x := if sgn then sval n old else (old : Int)
    let y := if sgn then sval n b else (b : Int)
    if min then (if y < x then b else old) else (if x < y then b else old)
  match op with
  | .add => (old + b) % 2 ^ 32
  | .add64 => (old + b) % 2 ^ 64
  | .minS => sel 32 true true
  | .minN => sel 32 false true
  | .maxS => sel 32 true false
  | .maxN => sel 32 false false
  | .minS64 => sel 64 true true
  | .minN64 => sel 64 false true
  | .maxS64 => sel 64 true false
  | .maxN64 => sel 64 false false
  | .and | .and64 => old &&& b
  | .or | .or64 => old ||| b
  | .xor | .xor64 => old ^^^ b
  | .exch | .exch64 => b
  | .faddF32 => FSpec.fp32.round .rne 0 false ((FSpec.fp32.decode old).add .rne (FSpec.fp32.decode b))
  | .faddBf16x2 => add16 .bf16
  | .faddF16x2 => add16 .fp16

/-- What one access reads and leaves: the value read, what it writes at which offset with which tag, and whether it is an add
that passes 64 bits (R458). The bytes are those at its address, `bad` the tag of each 4-byte word of them. -/
structure Effect where
  val : Nat
  vbad : Nat → Bool
  put : Option (Nat × List Byte × Bool)
  wraps : Bool

def effectOf (kind : AccessKind) (size data : Nat) (dbad : Bool) (x : Nat) (bad : Nat → Bool) : Effect :=
  let anyBad := (List.range ((size + 3) / 4)).any bad
  match kind with
  | .load => { val := x, vbad := bad, put := none, wraps := false }
  | .store => { val := 0, vbad := fun _ => false, put := some (0, leBytes size data, dbad), wraps := false }
  | .atom op =>
    let tag := match op with | .exch | .exch64 => false | _ => anyBad
    { val := x, vbad := bad, put := some (0, leBytes size (atomValue op x (data % 2 ^ (8 * size))), tag), wraps := false }
  | .cas | .cas64 =>
    let cmp := data % 2 ^ (8 * size)
    let new := data / 2 ^ (8 * size)
    { val := x, vbad := bad, put := if !anyBad && x = cmp then some (0, leBytes size new, false) else none, wraps := false }
  | .ctrInit attr => { val := 0, vbad := fun _ => false, put := some (0, leBytes 8 data ++ leBytes 8 attr.toNat, false), wraps := false }
  | .ctrAdd =>
    let old := x % 2 ^ 64
    let b := data % 2 ^ 64
    { val := old, vbad := bad, put := if 2 ^ 64 ≤ old + b then none else some (0, leBytes 8 (old + b), bad 0), wraps := decide (2 ^ 64 ≤ old + b) }
  | .ctrMax =>
    let old := x % 2 ^ 64
    { val := old, vbad := bad, put := some (0, leBytes 8 (max old (data % 2 ^ 64)), bad 0), wraps := false }
  | .ctrRd => { val := x % 2 ^ 64, vbad := bad, put := none, wraps := false }

/-- What an access writes reaches memory, and the control node where the page is host memory (R147). -/
def State.putAt (s : State) (g : Group) (pa : Nat) (put : Option (Nat × List Byte × Bool)) : State :=
  match put with
  | none => s
  | some (off, bs, bad) => ({ s with mem := s.mem.write (pa + off) bs bad }).hostWrite g.ctx (pa + off) bs.length

/-- The home slice serves a row line (R142), and a load that missed brings its line into the core's L0 (R145, R391). -/
def State.lineOf (s : State) (g : Group) (o : MemOp) (pa j : Nat) (wrote : Bool) : State :=
  let s := { s with mem := (s.mem.rowLine (pa / 32) wrote (some g.core)).1 }
  if o.kind = .load then ({ s with mem := s.mem.fillL0 g.core (pa / 32) }).count 0 g.core 2 (if j = 0 then 1 else 0) else s

/-- What the device notes of an access: a header page that it reads (R149) and the watches that it meets (R341). -/
def State.noteAccess (s : State) (g : Group) (o : MemOp) (pa : Nat) (wraps : Bool) : State × Option Nat :=
  let s := if o.kind.reads then s.noteHeader g.ctx pa o.unit else s
  if wraps then (s, none) else s.watch o.kind.reads o.kind.writes pa o.unit 1 g.core

/-- What a release keeps from readers of its scope: the accesses before it that are not served yet (R168, R169). -/
def State.veilsOf (s : State) (o : MemOp) (pa : Nat) : List Veil :=
  o.after.filterMap (fun (sc, ids) =>
    if s.unserved ids then some { pa := pa, len := o.unit, scope := sc, g := o.g, w := o.w, tmask := o.tmask, after := ids } else none)

/-- The piece j of a store of clean data is the second of an aligned word: the word has then been replaced whole, though by pieces
(R166, R510). -/
def MemOp.replaces (o : MemOp) (p : Part) (got : BitVec 4) (j : Nat) : Bool :=
  o.kind = .store && decide (1 < o.pieces) && !p.bad && got.getLsbD (j / 2 * 2) && got.getLsbD (j / 2 * 2 + 1)

/-- A word's tag is cleared (R417). -/
def Memory.clearWord (m : Memory) (w : Nat) : Memory :=
  { m with
    bad := setDel m.bad w
    llcBad := setDel m.llcBad w }

/-- Serve one piece of a part: by its home slice, or by the core's L0 (`hit`). -/
def State.servePiece (s : State) (o : MemOp) (p : Part) (j : Nat) (hit : Bool) : State × Part :=
  let got : BitVec 4 := p.got ||| (1 <<< j)
  let done : Bool := (List.range o.pieces).all (fun i => got.getLsbD i)
  match s.group? o.g with
  | none => (s, { p with got := got, served := done })
  | some g =>
    let n := o.unit
    let pa := p.pa + 4 * j
    let cells := if o.kind = .load then s.seen g pa n else s.mem.readAt pa n
    let e := effectOf o.kind n (p.data.toNat / 2 ^ (32 * j)) p.bad (leNat (cells.map (·.1))) (fun i => ((cells.drop (4 * i)).take 4).any (·.2))
    let s := s.putAt g pa e.put
    let s : State := if o.replaces p got j then { s with mem := s.mem.clearWord (pa / 8) } else s
    let s := if hit then s else s.lineOf g o pa j e.put.isSome
    let (s, watched) := s.noteAccess g o pa e.wraps
    let vbad := (List.range 4).foldl (fun (m : BitVec 4) i => if e.vbad i then m ||| (1 <<< (i + j)) else m) 0
    let veils := if e.put.isSome then s.veilsOf o pa else []
    ({ s with mem := { s.mem with veils := s.mem.veils.filter (fun v => s.unserved v.after) ++ veils } },
      { p with
        got := got
        served := done
        val := p.val ||| BitVec.ofNat 128 (e.val * 2 ^ (32 * j))
        vbad := p.vbad ||| vbad
        fault := e.wraps
        hit := match p.hit, watched with | some a, some b => some (min a b) | some a, none => some a | none, b => b })

/-- Every piece of a part, from the L0. -/
def State.serveHit (s : State) (o : MemOp) (p : Part) : State × Part :=
  (List.range o.pieces).foldl (fun (s, p) j => s.servePiece o p j true) (s, p)

/-- ISSUE OF GLOBAL ACCESSES: they are under way. -/
def State.goGlobal (s s0 : State) (i : Iss) (h : Hdr) (sh : Shape) (k : Taken) (d : Doing) (ws : List Want) (f : OpForm) : State × Flow :=
  s.goEach s0 i sh k d ws fun s run =>
    let (s, id) := s.fresh
    let o : MemOp := { id := id, g := i.r.g, w := i.r.w, access := i.p.access, pc := i.p.pc, kind := f.kind, ty := f.ty, size := d.size,
                       order := f.order, scope := f.scope, d := f.d, tmask := maskOf (run.flatMap (fun c => c.1.who k.ts)),
                       ring := i.g.ringAt f.d, after := s0.releasing i h f.kind.writes f.order f.scope,
                       parts := run.map (fun c => partOf c.1 c.2) }
    s.launchOp i.g.core o State.serveHit

/-- The accesses that the taking threads form; `va` and `data` from the values of the sources. -/
def wants (k : Taken) (va data : List (List Reg) → Nat) (bad : List (List Reg) → Bool) : List Want :=
  k.vals.map (fun (t, v) => { pos := if k.uni then none else some t, va := va v, data := data v, bad := bad v })

/-! ### Access types (R263) -/

def typeBytes : MemType → Nat
  | .b8 | .s8 => 1
  | .b16 | .s16 => 2
  | .b32 => 4
  | .b64 => 8
  | .b128 => 16
def typeWords : MemType → Nat
  | .b64 => 2
  | .b128 => 4
  | _ => 1

/-- The value that D receives from the bytes read. -/
def extend (ty : MemType) (x : Nat) : Nat :=
  match ty with
  | .s8 => wrapInt 32 (sval 8 x)
  | .s16 => wrapInt 32 (sval 16 x)
  | _ => x

/-- The words of D with their tags, from 4 words and their tags. -/
def replyRegs (n : Nat) (x : Nat) (bad : Nat → Bool) : List Reg := (List.range n).map (fun i => Reg.ofNat (x / 2 ^ (32 * i)) (bad i))

def strictA (op : Operand) (n : Nat) : Src := { field := 2, op := op, n := n, strict := true }
def strictB (op : Operand) (n : Nat) : Src := { field := 3, op := op, n := n, strict := true }
def memPer (ty : MemType) : Nat := if ty = .b128 then 2 else 1

def MemOps.ldShape (x : MemOps) (scratch : Bool) : Shape :=
  { srcs := [strictA x.a (if scratch then 1 else 2), strictB x.b 1], dst := some { op := x.d, n := typeWords x.ty }, load := true }
def MemOps.stShape (x : MemOps) (scratch : Bool) : Shape :=
  { srcs := [strictA x.a (if scratch then 1 else 2), strictB x.b 1, { field := 1, op := x.d, n := typeWords x.ty }], suppress := true }

def vaG (v : List (List Reg)) : Nat := globalVa (regsNat (v.getD 0 [])) (regsNat (v.getD 1 []))
def vaS (v : List (List Reg)) : Nat := scratchVa (regsNat (v.getD 0 [])) (regsNat (v.getD 1 []))

/-! ### LD (R264) -/

/-- LD from global memory. -/
def execLdG (x : MemOps) (s : State) : Result :=
  issueMem (.ldG x) x.h (MemOps.ldShape x false) (memPer x.ty) 0 x.order false s fun i k s' =>
    s'.goGlobal s i x.h (MemOps.ldShape x false) k { code := x.a.code, size := typeBytes x.ty, plain := true } (wants k vaG (fun _ => 0) (fun _ => false))
      { kind := .load, ty := x.ty, order := x.order, scope := x.scope, d := x.d }

/-- The first out-of-range access of a group after its start is recorded (R456). -/
def State.noteOut (s : State) (g : Nat) (off : Nat) (e : ErrRec) : State :=
  match s.group? g with
  | none => s
  | some q => if q.oor.isSome then s else (s.updGroup g (fun q => { q with oor := some off })).report e

/-- Threads whose scratchpad address is not a multiple of the size trap (R261, R450). -/
def misaligned (k : Taken) (size : Nat) (ws : List Want) : List ThreadErr :=
  (ws.filter (fun w => w.va % size ≠ 0)).flatMap (fun w => (w.who k.ts).map (fun t => { t := t, cls := 0x21, addr := w.va, detail := size }))

/-- LD from scratchpad. -/
def execLdS (x : MemOps) (s : State) : Result :=
  issueMem (.ldS x) x.h (MemOps.ldShape x true) (memPer x.ty) 0 x.order true s fun i k s' =>
    let size := typeBytes x.ty
    let ws := wants k vaS (fun _ => 0) (fun _ => false)
    if ws.any (fun w => s.scratchBusy i.g w.va size) then (s.putOff, .stay)
    else
      let s' := s'.trapAll i.r (misaligned k size ws)
      let ok := ws.filter (fun w => w.va % size = 0)
      (ok.foldl (fun s w =>
        let s := match s.scratchOut i.g w.va size with
          | some o => s.noteOut i.r.g o (s.pathErr i.r 0 0x2B 0 o 0)
          | none => s
        let bs := s.scratchBytes i.g 0 w.va size
        let val := extend x.ty (leNat (bs.map (·.1)))
        let t := match w.pos with | some t => t | none => k.ts.headD 0
        s.writeDst i.r.g i.r.w i.g { op := x.d, n := typeWords x.ty } t (w.who k.ts)
          (replyRegs (typeWords x.ty) val (fun j => ((bs.drop (4 * j)).take 4).any (·.2)))) s', .next [])

/-! ### ST (R265) -/

/-- Threads that store part of a poisoned register word trap (R441). -/
def partData (x : MemOps) (k : Taken) : List ThreadErr :=
  if typeBytes x.ty < 4 then
    k.vals.flatMap (fun (t, v) =>
      let err := fun t => (⟨t, 0x19, 0, x.d.code + (8 * typeBytes x.ty - 1) * 2 ^ 16⟩ : ThreadErr)
      if regsBad (v.getD 2 []) then (if k.uni then k.ts else [t]).map err else [])
  else []

/-- The taking threads without some that trapped. -/
def Taken.without (k : Taken) (bad : List ThreadErr) : Taken :=
  { k with
    ts := k.ts.filter (fun t => !(bad.any (fun b => b.t = t)))
    vals := k.vals.filter (fun m => !(bad.any (fun b => b.t = m.1))) }

def storeWants (k : Taken) (x : MemOps) (va : List (List Reg) → Nat) : List Want :=
  wants k va (fun v => regsNat (v.getD 2 []) % 2 ^ (8 * typeBytes x.ty)) (fun v => regsBad (v.getD 2 []))

/-- Put bytes into a version's line (R97). -/
def VLine.put (l : VLine) (o : Nat) (bs : List Byte) (bad : Bool) : VLine :=
  let n := bs.length
  let at_ := fun i => decide (o ≤ i) && decide (i < o + n)
  { l with
    mask := (List.range 32).foldl (fun m i => if at_ i then m ||| ((1 : W32) <<< i) else m) l.mask
    bytes := (List.range 32).map (fun i => if at_ i then bs.getD (i - o) 0 else l.bytes.getD i 0)
    bad := (List.range 4).foldl (fun m w =>
      let one : BitVec 4 := 1 <<< w
      let touches := decide (o < 8 * w + 8) && decide (8 * w < o + n)
      let whole := decide (o ≤ 8 * w) && decide (8 * w + 8 ≤ o + n)
      if bad && touches then m ||| one else if whole then m &&& ~~~one else m) l.bad
    full := (List.range 4).foldl (fun m w =>
      if decide (o ≤ 8 * w) && decide (8 * w + 8 ≤ o + n) then m ||| ((1 : BitVec 4) <<< w) else m) l.full }

/-- A weak store of a versioned group is held (R97); the 513th line is not held, and the version overflows (R443). -/
def State.holdStore (s : State) (i : Iss) (pa : Nat) (bs : List Byte) (bad : Bool) : State :=
  match s.group? i.r.g with
  | none => s
  | some g =>
    if g.stop then s
    else
      let line := pa / 32
      match g.vlines.find? (fun l => l.line = line) with
      | some _ => s.updGroup i.r.g (fun g => { g with vlines := mapIf (fun l => l.line = line) (fun l => l.put (pa % 32) bs bad) g.vlines })
      | none =>
        if 512 ≤ g.vlines.length then
          let pairs := g.segments.flatMap (fun p => leBytes 8 p.1.toNat ++ leBytes 8 p.2.toNat)
          let cell := match g.task with | some (c, j) => c * 2 ^ 8 + j | none => 0
          (s.updGroup i.r.g (fun g => { g with vlines := [] })).stopGang [i.r.g]
            { s.pathErr i.r i.p.tmask 0x1A 3 cell g.segments.length with extra := pairs }
        else
          let l : VLine := { line := line, mask := 0, bytes := List.replicate 32 0, bad := 0, full := 0 }
          s.updGroup i.r.g (fun g => { g with vlines := g.vlines ++ [l.put (pa % 32) bs bad] })

/-- ST to global memory. In a versioned group a weak store is held. -/
def execStG (x : MemOps) (s : State) : Result :=
  issueMem (.stG x) x.h (MemOps.stShape x false) (memPer x.ty) 1 x.order false s fun i k s' =>
    let part := partData x k
    let s1 := s'.trapAll i.r part
    let k := if k.uni && !part.isEmpty then { k with ts := [], vals := [] } else k.without part
    let d : Doing := { code := x.a.code, size := typeBytes x.ty, write := true, plain := true }
    let ws := storeWants k x vaG
    if i.g.versioned && x.order = .weak then
      s1.goEach s i (MemOps.stShape x false) k d ws fun s run =>
        run.foldl (fun s (w, e) => s.holdStore i (e.pa w.va) (leBytes (typeBytes x.ty) w.data) w.bad) s
    else
      s1.goGlobal s i x.h (MemOps.stShape x false) k d ws { kind := .store, ty := x.ty, order := x.order, scope := x.scope, d := .vz }

/-- ST to scratchpad. -/
def execStS (x : MemOps) (s : State) : Result :=
  issueMem (.stS x) x.h (MemOps.stShape x true) (memPer x.ty) 1 x.order true s fun i k s' =>
    let size := typeBytes x.ty
    let part := partData x k
    let k := if k.uni && !part.isEmpty then { k with ts := [], vals := [] } else k.without part
    let ws := storeWants k x vaS
    if ws.any (fun w => s.scratchBusy i.g w.va size) then (s.putOff, .stay)
    else
      let s' := s'.trapAll i.r (part ++ misaligned k size ws)
      (ws.foldl (fun s w =>
        if w.va % size ≠ 0 then s
        else
          let s := match s.scratchOut i.g w.va size with
            | some o => s.noteOut i.r.g o (s.pathErr i.r 0 0x2B 0 o 1)
            | none => s
          s.putScratch i.g 0 w.va (leBytes size w.data) w.bad) s', .next [])

/-! ### PREF (R266) -/

/-- A prefetch of n bytes is a row request of class 2 that returns nothing; `l0` brings its line into the core's L0 too. -/
def State.askPrefetch (s : State) (core : Nat) (e : TlbEntry) (pa n : Nat) (l0 : Bool) : State :=
  let (s, id) := s.fresh
  let r : Req := { id := id, sector := pa / 1024, cls := 2, arrived := s.coreClock, op := none, kindle := none, pa := pa, len := n,
                   dst := if l0 then core + 1 else 0, turned := false, col := false, eng := none, piece := 0, tr := some e }
  { s with mem := { s.mem with reqs := s.mem.reqs ++ [r] } }

/-- One prefetch (R266). `.sec` fills the sector in its present orientation. -/
def State.prefetch (s : State) (i : Iss) (kind : PrefKind) (va : Nat) : State :=
  if 2 ^ 55 ≤ va then s
  else
    match s.translate i.c va i.g.via with
    | .error _ => s
    | .ok e =>
      if attrHost e.attr || attrCtr e.attr then s
      else
        let s := { s.walked i.g.via e with mem := ((s.walked i.g.via e).mem.hold i.g.via e) }
        let pa := e.pa va
        match kind with
        | .sec =>
          if (s.mem.sector (pa / 1024)).orient = .col then s.served (pa / 1024) 2 false
          else s.askPrefetch i.g.core e (pa / 1024 * 1024) 1024 false
        | .llc => s.askPrefetch i.g.core e (pa / 32 * 32) 32 false
        | .l0 => s.askPrefetch i.g.core e (pa / 32 * 32) 32 true

/-- PREF changes no architectural state: it fills lines of the LLC and of the L0. -/
def execPref (x : PrefOps) (s : State) : Result :=
  issue (.pref x) x.h { srcs := [strictA x.a 2, strictB x.b 1] } 1 s fun i k s =>
    (k.vals.foldl (fun s m => s.prefetch i x.kind (vaG m.2)) s, .next [])

/-- PTLD fetches a pattern table and changes no architectural state (R253). A table address that is misaligned or cannot be read is
dealt with as PERM's is, for the path that names it (DESIGN CHOICE, log 47). -/
def execPtld (x : OpA) (s : State) : Result :=
  issue (.ptld x) x.h { srcs := [{ field := 2, op := x.a, n := 2, strict := true, uni := true }], uni := some true } 1 s fun i k s' =>
    let va := regsNat (((k.vals.headD (0, [])).2).headD [])
    let d : Doing := { code := x.a.code, size := 64, plain := true }
    if va % 64 ≠ 0 then (s'.faultPath i 0x11 0 (9 + x.a.code * 16), .stay)
    else match s'.checkGlobal i.g d va with
      | .walk => (s.askWalks i d k.ts [{ pos := none, va := va, data := 0, bad := false }], .stay)
      | .bad cls addr detail => (s'.trapAll i.r (k.ts.map (fun t => ⟨t, cls, addr, detail⟩)), .next [])
      | .ok e => (s'.askPrefetch i.g.core e (e.pa va) 64 false, .next [])

/-! ### LLC.LOCK and LLC.UNLOCK (R146, R267, R471) -/

/-- Sectors that a context holds locked. -/
def Memory.locks (m : Memory) (ctx : Nat) : Nat := (m.llc.filter (fun e => e.2.lock = some ctx)).length

/-- The LLC holds a sector whole; its HOST lines are asked of the control node, and are valid once it answers (R154). -/
def State.fillWhole (s : State) (core : Nat) (e : TlbEntry) (x : Nat) : State :=
  let t := s.mem.sector x
  let o : Orient := if t.orient = .absent then .row else t.orient
  if hostPa (1024 * x) then
    let s := { s with mem := s.mem.setSector x { t with orient := o } }
    let want := (s.fillSector e x core).mem.misses
    s.askLines want
  else { s with mem := s.mem.setSector x { t with
    orient := o
    valid := 0xFFFFFFFF } }

/-- Lock a sector; the code of R267. A sector that another context holds gives an open code (log 3). -/
def State.lockSector (s : State) (i : Iss) (e : TlbEntry) (x : Nat) : State × W32 :=
  let c := i.c
  let t := s.mem.sector x
  match t.lock with
  | some n => if n = c.num then (s, 1) else ({ s with ticks := s.ticks + 1 }, Config.freeCode s.ticks)
  | none =>
    if 14 ≤ ((s.mem.heldIn x).filter (fun e => e.2.lock.isSome)).length then (s, 2)
    else if c.llcQuota.toNat ≤ s.mem.locks c.num then (s, 3)
    else
      let s := ({ s with mem := s.mem.makeRoom x }).fillWhole i.g.core e x
      ({ s with mem := s.mem.setSector x { s.mem.sector x with lock := some c.num } }, 0)

def State.unlockSector (s : State) (i : Iss) (_ : TlbEntry) (x : Nat) : State × W32 :=
  let t := s.mem.sector x
  if t.lock = some i.c.num then ({ s with mem := s.mem.setSector x { t with lock := none } }, 0) else (s, 1)

/-- What the instruction does at one address; an address with no translation answers 4 (R267). -/
def State.lockAt (s : State) (i : Iss) (va : Nat) (f : State → Iss → TlbEntry → Nat → State × W32) : State × W32 :=
  if 2 ^ 55 ≤ va then (s, 4)
  else
    match s.translate i.c va i.g.via with
    | .error _ => (s, 4)
    | .ok e => let s := s.walked i.g.via e; f { s with mem := s.mem.hold i.g.via e } i e (e.pa va / 1024)

/-- Codes for each access, lowest position first. -/
def State.lockAll (s : State) (i : Iss) (k : Taken) (d : Operand) (f : State → Iss → TlbEntry → Nat → State × W32) : State :=
  k.vals.foldl (fun s (t, v) =>
    let (s, code) := s.lockAt i (vaG v) f
    s.writeDst i.r.g i.r.w i.g { op := d } t (if k.uni then k.ts else [t]) [⟨code, false⟩]) s

def lockShape (x : OpDAB) : Shape := { srcs := [strictA x.a 2, strictB x.b 1], dst := some { op := x.d } }

/-- LLC.LOCK (R267). -/
def execLlcLock (x : OpDAB) (s : State) : Result :=
  issue (.llcLock x) x.h (lockShape x) 1 s fun i k s => (s.lockAll i k x.d State.lockSector, .next [])

/-- LLC.UNLOCK (R267). -/
def execLlcUnlock (x : OpDAB) (s : State) : Result :=
  issue (.llcUnlock x) x.h (lockShape x) 1 s fun i k s => (s.lockAll i k x.d State.unlockSector, .next [])

/-- LLC.UNLOCK.ALL acts once for the path and writes the number of locks cleared (R267). -/
def execLlcUnlockAll (x : OpD) (s : State) : Result :=
  issue (.llcUnlockAll x) x.h { srcs := [], dst := some { op := x.d } } 1 s fun i k s =>
    let n := s.mem.locks i.c.num
    let mine := (s.mem.llc.filter (fun e => e.2.lock = some i.c.num)).map (·.1)
    let s := { s with mem := mine.foldl (fun m a => m.setSector a { m.sector a with lock := none }) s.mem }
    (k.vals.foldl (fun s (t, _) =>
      s.writeDst i.r.g i.r.w i.g { op := x.d } t (if k.uni then k.ts else [t]) (regsOf 1 n false)) s, .next [])

/-! ### FENCE (R168, R175, R268) -/

/-- Accesses of the taking threads that stand before something of the order: all before FENCE.sc, reads before an acquire; a release
waits for none, it marks what follows (R168). -/
def State.fenceWaits (s : State) (x : Iss) (h : Hdr) (order : Order) : Bool :=
  s.mem.ops.any (fun o => o.ofPath x (x.taking h) && (order = .sc || (acquires order && o.kind.reads)))

/-- A releasing fence behind which accesses of the taking threads are still under way. -/
def State.markFence (s : State) (x : Iss) (h : Hdr) (scope : Scope) : State :=
  let before := (s.earlier x h).map (·.id)
  let live := s.mem.marks.filter (fun f => s.unserved f.after)
  { s with mem := { s.mem with marks := if before.isEmpty then live else
      live ++ [{ g := x.r.g, w := x.r.w, access := x.p.access, tmask := x.taking h, scope := scope, after := before }] } }

/-- FENCE ends once the reads before an acquire, or all accesses before FENCE.sc, have been performed; a releasing fence orders
those before it and later writes, at its scope. -/
def execFence (x : FenceOps) (s : State) : Result :=
  withIssue s fun i =>
    if s.fenceWaits i x.h x.order then .next s.putOff
    else issue (.fence x) x.h { srcs := [] } 1 s fun y _ s => (if releases x.order then s.markFence y x.h x.scope else s, .next [])

/-! ### Serving requests (R144, R171, R262) -/

/-- Nothing is to return for an operation: no destination, no trap. -/
def MemOp.silent (o : MemOp) : Bool :=
  (o.words = 0 || o.d = .vz) && o.parts.all (fun p => !p.fault && p.hit.isNone)

def MemOp.done (o : MemOp) : Bool := o.parts.all (·.served)

/-- Put an operation's new parts back; one with nothing to return is over. -/
def State.keepOp (s : State) (o : MemOp) : State :=
  if o.done && o.silent then ({ s with mem := { s.mem with ops := s.mem.ops.filter (fun q => q.id ≠ o.id) } }).tryEnd o.g
  else { s with mem := { s.mem with ops := mapIf (fun q => q.id = o.id) (fun _ => o) s.mem.ops } }

/-- Serve one piece of every part of an operation at a sector, lowest position first (R262). -/
def State.serveOp (s : State) (id x piece : Nat) : State :=
  match s.mem.ops.find? (fun o => o.id = id) with
  | none => s
  | some o =>
    let (s, parts) := o.parts.foldl (fun (s, acc) p =>
      if p.pa / 1024 = x && !p.served && !(p.got.getLsbD piece) then let (s, p) := s.servePiece o p piece false; (s, acc ++ [p])
      else (s, acc ++ [p])) (s, [])
    s.keepOp { o with parts := parts }

/-- Row lines of a load without operation are served. -/
def State.serveRows (s : State) (r : Req) : State :=
  { s with mem := (linesOf r.pa r.len).foldl (fun m l => (m.rowLine l false).1) s.mem }

/-- Serve a kindling load (R96). -/
def State.serveKindle (s : State) (r : Req) (core slot : Nat) : State :=
  let bs := (s.mem.readAt r.pa r.len).map (·.1)
  let bad := (wordsOf r.pa r.len).filter (fun w => s.mem.isBad (8 * w))
  let s := (s.serveRows r).watch true false r.pa r.len 1 core |>.1
  let s := { s with
    kindles := mapIf (fun k => k.core = core && k.slot = slot) (fun k => { k with
      loads := k.loads.filter (fun l => l ≠ r.id)
      bytes := putCells k.bytes r.dst bs
      bad := bad.foldl (fun l w => setIns l ((r.dst + (8 * w - r.pa)) / 8)) k.bad }) s.kindles }
  s.noteHeader 0 r.pa r.len

/-- Serve a prefetch; one for the L0 names its core. -/
def State.servePrefetch (s : State) (r : Req) : State :=
  let s := s.serveRows r
  if r.dst = 0 then s else { s with mem := s.mem.fillL0 (r.dst - 1) (r.pa / 32) }

/-! ### Requests at a sector (R79, R80, R143, R144) -/

/-- HOST lines of a request that the LLC does not hold (R154). -/
def State.missing (s : State) (r : Req) : List Nat :=
  (s.reqLines r).filter (fun l => hostPa (32 * l) && !((s.mem.sector (l / 32)).valid.getLsbD (l % 32)))

/-- What is asked of the control node for a missing line of a request. -/
def State.fillOf (s : State) (r : Req) (l : Nat) : Fill :=
  let blank : Fill := { id := 0, pa := 32 * l, ctx := 0, va := 0, core := 0, attr := 0, small := false, age := 0 }
  match r.op.bind (fun id => s.mem.ops.find? (fun o => o.id = id)), r.tr with
  | some o, _ => match s.group? o.g, o.parts.find? (fun p => p.pa / 32 = l) with
    | some g, some p => { blank with
        ctx := g.ctx
        va := p.va.toNat
        core := g.core
        attr := p.attr
        small := p.small }
    | _, _ => blank
  | none, some e => { blank with
      ctx := e.ctx
      va := e.va + (32 * l - e.frame)
      core := (match r.kindle with | some (core, _) => core | none => 0)
      attr := e.attr
      small := e.size = 65536 }
  | none, none => blank

/-- Serve a request that nothing delays. -/
def State.perform (s : State) (r : Req) : State :=
  let s := { s with mem := { s.mem with reqs := s.mem.reqs.filter (fun q => q.id ≠ r.id) } }
  let s := s.served r.sector r.cls false
  match r.op, r.kindle with
  | some id, _ => s.serveOp id r.sector r.piece
  | none, some (core, slot) => s.serveKindle r core slot
  | none, none => s.servePrefetch r

/-- One request at its turn of service: missing HOST lines are asked for, a sector held by columns turns, else it is served. None
when nothing can happen; the place of an agent's own event waits for that event. -/
def State.tryServe (s : State) (r : Req) : Option State :=
  let t := s.mem.sector r.sector
  if t.turning || r.eng.isSome then none
  else
    let miss := s.missing r
    if !miss.isEmpty then
      let ask := miss.filter (fun l => !(s.mem.fills.any (fun f => f.pa = 32 * l)))
      if ask.isEmpty then none else some (s.askLines (ask.map (s.fillOf r)))
    else if t.orient = .col then some (s.startTurn r)
    else some (s.perform r)

/-- LLC_REQUEST_SERVE (R144). -/
def execLlcRequestServe (sector : Nat) (s : State) : Result :=
  match s.nextReq sector with
  | none => notNow s
  | some r =>
    if s.aged r then notNow s
    else match s.tryServe r with
      | some s => .next s
      | none => notNow s

/-- CLASS3_AGING: an aged request of class 3 is served before later ones of class 2 (R80). -/
def execClass3Aging (sector req : Nat) (s : State) : Result :=
  match s.nextReq sector with
  | none => notNow s
  | some r =>
    if r.id = req && s.aged r then
      match s.tryServe r with
      | some s => .next s
      | none => notNow s
    else notNow s

/-- ORIENTATION_TURN_COMPLETE: the sector is held in its new orientation, wholly valid when by columns, and the request that turned
it is served, or has its sector in reach (R143). -/
def execOrientationTurnComplete (sector : Nat) (s : State) : Result :=
  let t := s.mem.sector sector
  if t.turn = 0 && t.turning then
    let m := if t.orient = .turnRow then s.mem.setSector sector { t with orient := .row } else s.mem.touchCol sector false
    let s : State := { s with mem := m }
    match s.mem.reqs.find? (fun r => r.sector = sector && r.turned && r.eng.isNone) with
    | some r => .next (s.perform r)
    | none => .next s
  else notNow s

/-- SECTOR_EVICTION: an unlocked sector leaves the LLC; its dirty bytes are written back, so no byte changes (R143, R146). -/
def execSectorEviction (sector : Nat) (s : State) : Result :=
  let t := s.mem.sector sector
  if (t.orient = .row || t.orient = .col) && t.lock = none then .next { s with mem := s.mem.dropSector sector }
  else notNow s

/-! ### HOST fills and writes (R154, R469) -/

/-- The line of a fill is valid, and its page's access is counted. -/
def State.endFill (s : State) (f : Fill) : State :=
  let m := s.mem.makeRoom (f.pa / 1024)
  let t := m.sector (f.pa / 1024)
  let one : BitVec 32 := 1 <<< (f.pa / 32 % 32)
  let s := if m.fits (f.pa / 1024) then { s with mem := m.setSector (f.pa / 1024) { t with
    orient := if t.orient = .absent then .row else t.orient
    valid := t.valid ||| one } } else s
  if attrHost f.attr && attrCount f.attr && f.small then s.countFill f.ctx f.va f.core else s

/-- A fill that fails leaves its line poisoned (R469). -/
def State.failFill (s : State) (f : Fill) : State :=
  let m := s.mem
  let s := ({ s with mem := { m with
    fills := m.fills.filter (fun q => q.id ≠ f.id)
    bad := (wordsOf f.pa 32).foldl setIns m.bad } }).endFill f
  s.report { ErrRec.none with
    addr := BitVec.ofNat 64 f.pa
    cls := 0x2D
    phys := true
    ctx := f.ctx
    lcyc := s.lcyc 11 0 }

/-- HOST_FILL_COMPLETE: the control node answers with the line's 32 bytes, or with an error. -/
def execHostFillComplete (fill : Nat) (answer : Option (List Byte)) (s : State) : Result :=
  match s.mem.fills.find? (fun f => f.id = fill), answer with
  | some f, none => .next (s.failFill f)
  | some f, some bs =>
    if bs.length = 32 then
      let m := s.mem
      .next (({ s with mem := { m with
        fills := m.fills.filter (fun q => q.id ≠ f.id)
        cells := putCells m.cells f.pa bs
        bad := putTags m.bad f.pa 32 false } }).endFill f)
    else notNow s
  | none, _ => notNow s

/-- HOST_FILL_TIMEOUT. -/
def execHostFillTimeout (fill : Nat) (s : State) : Result :=
  match s.mem.fills.find? (fun f => f.id = fill) with
  | some f => if 2 ^ 24 ≤ f.age then .next (s.failFill f) else notNow s
  | none => notNow s

def State.dropWrite (s : State) (id : Nat) : State := { s with mem := { s.mem with hwrites := s.mem.hwrites.filter (fun w => w.id ≠ id) } }

/-- A HOST write that fails: the bytes of the control node's memory are free values (R469, log 3). -/
def State.failWrite (s : State) (w : HostWrite) : State :=
  let bs := (List.range w.len).map (Config.freeHostByte s.ticks)
  let s := (s.dropWrite w.id)
  let s := { s with
    ticks := s.ticks + 1
    mem := { s.mem with cells := putCells s.mem.cells w.pa bs } }
  s.report { ErrRec.none with
    addr := BitVec.ofNat 64 w.pa
    cls := 0x2D
    phys := true
    ctx := w.ctx
    lcyc := s.lcyc 11 0
    detail := 1 }

/-- HOST_WRITE_ANSWER. -/
def execHostWriteAnswer (write : Nat) (ok : Bool) (s : State) : Result :=
  match s.mem.hwrites.find? (fun w => w.id = write) with
  | some w => .next (if ok then s.dropWrite write else s.failWrite w)
  | none => notNow s

/-- HOST_WRITE_TIMEOUT. -/
def execHostWriteTimeout (write : Nat) (s : State) : Result :=
  match s.mem.hwrites.find? (fun w => w.id = write) with
  | some w => if 2 ^ 24 ≤ w.age then .next (s.failWrite w) else notNow s
  | none => notNow s

/-! ### Replies (R260, R341, R458) -/

/-- The path of a warp that holds some of the threads, in a stream. -/
def State.pathOf (s : State) (g w : Nat) (access : Bool) (m : W64) : Option PathRef :=
  (s.warp? g w).bind (fun x => (findIdx' (fun (p : Path) => p.access = access && p.tmask &&& m != 0) x.paths 0).map (fun p => ⟨g, w, p.1⟩))

/-- Set threads of a path apart at an address, so that they trap there; the new path's place. -/
def State.apart (s : State) (r : PathRef) (m : W64) (pc : W64) : State × PathRef :=
  match s.warp? r.g r.w, s.path? r with
  | some w, some p =>
    (s.updWarp r.g r.w (fun w => { w with paths := (w.paths.modify r.p (fun p => p.without m)) ++ [Path.start p.access pc m] }),
      { r with p := w.paths.length })
  | _, _ => (s, r)

/-- Room for what threads push to a destination port. -/
def State.dstRoom (s : State) (g : Group) (w : Nat) (d : Dst) (ts : List Nat) : Bool :=
  match d.op with
  | .q n =>
    if n.val < 8 then
      ts.all (fun t => match (g.warps[w]?).bind (fun x => x.threads[t]?) with
        | some th => (sget [] th.q n.val).length + d.n ≤ queueDepth
        | none => true)
    else match g.ringOf n.val with
      | some (base, k) => s.ringCount g base + d.n * ts.length ≤ 2 ^ k && !(s.scratchBusy g base (16 + 4 * 2 ^ k))
      | none => true
  | _ => true

/-- The first load that brings poison to a register gives the warp its poison origin (R481). -/
def State.originate (s : State) (o : MemOp) : State :=
  match o.parts.find? (fun p => p.vbad != 0) with
  | some p => if o.kind = .load then s.updWarp o.g o.w (fun w => if w.poisonOrigin = 0 then { w with poisonOrigin := p.va } else w) else s
  | none => s

/-- Threads of an operation trap where it returns: an add that passed 64 bits (R458), a watchpoint (R341). -/
def State.lateTraps (s : State) (o : MemOp) : State :=
  let ts := fun (p : Part) => match p.pos with | some t => [t] | none => maskList o.tmask
  let wrapped : List ThreadErr := (o.parts.filter (·.fault)).flatMap (fun p =>
    (ts p).map (fun t => { t := t, cls := 0x26, addr := p.va.toNat, detail := 4 }))
  let m := maskOf (wrapped.map ThreadErr.t)
  let s := match s.pathOf o.g o.w o.access m with
    | some r => let (s, r) := s.apart r m o.pc; s.trapAll r wrapped
    | none => s
  let hits := (List.range 8).map (fun i => (i, maskOf ((o.parts.filter (fun p => p.hit = some i)).flatMap ts)))
  let s := hits.foldl (fun s (i, m) =>
    if m = 0 then s
    else match s.pathOf o.g o.w o.access m with
      | some r => match s.path? r with
        | some p => s.enter r m p.pc (0x20000 + i) false false
        | none => s
      | none => s) s
  s.settle o.g o.w

/-- Threads of an operation are to trap, and earlier accesses of theirs have not been performed: a trap follows them (R334, R429). -/
def State.trapsEarly (s : State) (o : MemOp) : Bool :=
  o.parts.any (fun p => p.fault || p.hit.isSome) &&
  s.mem.ops.any (fun q => q.id < o.id && q.g = o.g && q.w = o.w && q.access = o.access && q.tmask &&& o.tmask != 0)

/-- A group with a port of an operation bound as it was at the issue (R280). -/
def Group.boundAs (g : Group) (d : Operand) (ring : Option (Nat × Nat)) : Group :=
  match d with
  | .q n => if n.val < 8 then g else { g with ring := sset none g.ring n.val ring }
  | _ => g

/-- LOAD_VALUE_RETURN: the reply of a served operation writes its destination. -/
def execLoadValueReturn (op : Nat) (s : State) : Result :=
  match s.mem.ops.find? (fun o => o.id = op) with
  | none => notNow s
  | some o =>
    match s.group? o.g with
    | none => notNow s
    | some now =>
      let g := now.boundAs o.d o.ring
      let n := o.words
      let d : Dst := { op := o.d, n := n }
      let good := o.parts.filter (fun p => !p.fault)
      let ts := good.filterMap (·.pos)
      if !o.done || s.trapsEarly o || (o.ring.isSome && s.mem.ops.any (fun q => q.id < o.id && q.g = o.g && q.w = o.w && q.tmask &&& o.tmask != 0 && !q.done)) || (n ≠ 0 && !(s.dstRoom g o.w d (if ts.isEmpty then (maskList o.tmask).take 1 else ts))) then notNow s
      else
        let s := if n = 0 then s else good.foldl (fun s p =>
          let val := if o.kind = .load then extend o.ty p.val.toNat else p.val.toNat
          s.writeDst o.g o.w g d (match p.pos with | some t => t | none => maskLow o.tmask)
            (match p.pos with | some t => [t] | none => maskList o.tmask) (replyRegs n val (fun j => p.vbad.getLsbD j))) s
        let s := if n = 0 || o.d = .vz then s else s.originate { o with parts := good }
        let s := { s with mem := { s.mem with ops := s.mem.ops.filter (fun q => q.id ≠ op) } }
        .next ((s.lateTraps o).tryEnd o.g)

/-! ### Walks and WB stalls (R157, R449, R454) -/

/-- A walk has one of the 32 walkers of its compute die (R12, R152): the oldest walks do. -/
def State.hasWalker (s : State) (w : Walk) (die : Nat) : Bool :=
  ((s.mem.walks.takeWhile (fun q => q.id ≠ w.id)).filter (fun q => match s.group? q.g with | some g => dieOf g.core = die | none => false)).length < 32

/-- The end of a walk: the translation is held, and the access is tried again; or the threads that wait for it trap, once their
earlier accesses have been performed (R429, R449). -/
def State.endWalk (s : State) (w : Walk) : State :=
  let s := { s with mem := { s.mem with walks := s.mem.walks.filter (fun q => q.id ≠ w.id) } }
  match s.group? w.g with
  | none => s
  | some g =>
    match s.ctx? g.ctx with
    | none => s
    | some c =>
      let s := s.walkRead c w.va.toNat
      match s.mem.walk c.num c.ptRoot.toNat w.va.toNat with
      | .ok e => { s with mem := s.mem.hold g.via e }
      | .error err =>
        match s.pathOf w.g w.w w.access w.tmask with
        | none => s
        | some r =>
          let (cls, addr, detail) := walkFault w.va.toNat w.write err
          if s.underWay w.g w.w w.access w.tmask then s.putOff else (s.fault r w.tmask cls 0 addr detail).settle w.g w.w

/-- PAGE_WALK_COMPLETE: a walker reads the entries as class-0 requests in their turn (R152). -/
def execPageWalkComplete (walk : Nat) (s : State) : Result :=
  match s.mem.walks.find? (fun w => w.id = walk) with
  | none => notNow s
  | some w =>
    match s.group? w.g with
    | some g => if s.hasWalker w (dieOf g.core) then s.attempt (0, walk) 0 (fun s => .next (s.endWalk w)) else notNow s
    | none => .next (s.endWalk w)

/-- An earlier stalled write of the device to the same bytes goes first. -/
def Stall.behind (x : Stall) (l : List Stall) : Bool :=
  match x.by_ with
  | .device bs _ _ => (l.takeWhile (fun y => y.id ≠ x.id)).any (fun y => y.ctx = x.ctx && match y.by_ with
    | .device cs _ _ => decide (y.va.toNat < x.va.toNat + bs.length && x.va.toNat < y.va.toNat + cs.length)
    | _ => false)
  | _ => false

/-- WB_STALL_RETRY: a stalled write is tried again after a covering TLBINV; an engine's or the device's own is made, or
stalls anew. -/
def execWbStallRetry (id : Nat) (s : State) : Result :=
  match s.mem.stalls.find? (fun x => x.id = id) with
  | none => notNow s
  | some x =>
    if !x.ready || x.behind s.mem.stalls then notNow s
    else
      let drop : State := { s with mem := { s.mem with stalls := s.mem.stalls.filter (fun y => y.id ≠ id) } }
      match x.by_, s.ctx? x.ctx with
      | .device bs raise then_, some c =>
        if s.wbRange c x.va.toNat bs.length then
          .next { s with mem := { s.mem with stalls := mapIf (fun y => y.id = id) (fun y => { y with ready := false }) s.mem.stalls } }
        else
          let (s, bad) := drop.deviceStore c x.va.toNat bs then_ raise
          match bad with
          | none => .next s
          | some kind => .next (s.report { ErrRec.none with
              addr := then_.getD 0
              cls := 0x27
              ctx := x.ctx
              lcyc := s.lcyc 11 0
              detail := kind + 11 * 16 })
      | .add v acls agent, some _ => .next (drop.advance x.ctx x.va.toNat v.toNat acls agent)
      | _, _ => .next drop

end Sys2Proof.Machine
end

