-- ==== Sys2Proof/Machine/Atomic.lean ====
section
/-! DEFINITION. Atomic.lean: atomics (R269 to R271), counter instructions and their waits (R67 to R72, R178, R272 to R276,
R433, R434, R458), ring queues (R277 to R280) and the end of counter and queue waits. -/

namespace Sys2Proof.Machine

/-! ### Read-modify-writes of scratchpad -/

/-- Threads whose scratchpad access cannot be made (R261, R456): out of range, then misaligned. -/
def State.scratchErrs (s : State) (g : Group) (k : Taken) (d : Doing) (ws : List Want) : List ThreadErr :=
  ws.flatMap (fun w =>
    if (s.scratchOut g w.va d.size).isSome then (w.who k.ts).map (fun t => ⟨t, 0x20, w.va, d.code⟩)
    else if w.va % d.size ≠ 0 then (w.who k.ts).map (fun t => ⟨t, 0x21, w.va, d.size⟩)
    else [])

/-- One access of scratchpad, with what it returns to a destination of n words. -/
def State.scratchDo (s : State) (i : Iss) (k : Taken) (kind : AccessKind) (d : Dst) (size : Nat) (w : Want) : State :=
  let bs := s.scratchBytes i.g 0 w.va size
  let e := effectOf kind size w.data w.bad (leNat (bs.map (·.1))) (fun j => ((bs.drop (4 * j)).take 4).any (·.2))
  let s := match e.put with
    | none => s
    | some (off, bytes, bad) => s.putScratch i.g 0 (w.va + off) bytes bad
  let t := match w.pos with | some t => t | none => k.ts.headD 0
  s.writeDst i.r.g i.r.w i.g d t (w.who k.ts) (replyRegs d.n e.val e.vbad)

/-- Accesses of scratchpad by the taking threads, lowest position first (R262); an add that passes 64 bits traps its thread
(R458). -/
def State.goScratch (s s0 : State) (i : Iss) (k : Taken) (d : Doing) (kind : AccessKind) (dst : Dst) (ws : List Want) : State × Flow :=
  if ws.any (fun w => s0.scratchBusy i.g w.va d.size) then (s0.putOff, .stay)
  else
    let errs := s.scratchErrs i.g k d ws
    let s := s.trapAll i.r errs
    let hurt := fun (w : Want) => (w.who k.ts).any (fun t => errs.any (fun b => b.t = t))
    let s := (ws.filter (fun w => !(hurt w))).foldl (fun s w =>
      let bs := s.scratchBytes i.g 0 w.va d.size
      let e := effectOf kind d.size w.data w.bad (leNat (bs.map (·.1))) (fun _ => false)
      if e.wraps then s.trapAll i.r ((w.who k.ts).map (fun t => ⟨t, 0x26, w.va, 4⟩)) else s.scratchDo i k kind dst d.size w) s
    (s, .next [])

/-! ### ATOM (R269, R270) -/

def atomWide : AtomOp → Bool
  | .add64 | .minS64 | .minN64 | .maxS64 | .maxN64 | .and64 | .or64 | .xor64 | .exch64 => true
  | _ => false
def atomInline : AtomOp → Inline
  | .faddF32 => .f32
  | .faddBf16x2 => .bf16x2
  | .faddF16x2 => .f16x2
  | _ => .int
def atomWords (op : AtomOp) : Nat := if atomWide op then 2 else 1

def AtomOps.shape (x : AtomOps) (scratch : Bool) : Shape :=
  { srcs := [strictA x.a (if scratch then 1 else 2), { field := 3, op := x.b, n := atomWords x.op, inl := atomInline x.op, strict := true }],
    dst := some { op := x.d, n := atomWords x.op }, suppress := true }

/-- Accesses of A-addr with a value in B (R258). -/
def wantsB (k : Taken) (scratch : Bool) : List Want :=
  wants k (fun v => regsNat (v.getD 0 []) % (if scratch then 2 ^ 32 else 2 ^ 64)) (fun v => regsNat (v.getD 1 [])) (fun _ => false)

/-- ATOM on global memory. -/
def execAtomG (x : AtomOps) (s : State) : Result :=
  issueMem (.atomG x) x.h (AtomOps.shape x false) 1 2 x.order false s fun i k s' =>
    s'.goGlobal s i x.h (AtomOps.shape x false) k { code := x.a.code, size := 4 * atomWords x.op, write := true, plain := true } (wantsB k false)
      { kind := .atom x.op, ty := .b32, order := x.order, scope := x.scope, d := x.d }

/-- ATOM on scratchpad. -/
def execAtomS (x : AtomOps) (s : State) : Result :=
  issueMem (.atomS x) x.h (AtomOps.shape x true) 1 2 x.order true s fun i k s' =>
    s'.goScratch s i k { code := x.a.code, size := 4 * atomWords x.op } (.atom x.op) { op := x.d, n := atomWords x.op } (wantsB k true)

/-- ATOM.CAS and ATOM.CAS64: `n` words of the reply (R271). -/
def CasOps.shape (x : CasOps) (scratch : Bool) (n : Nat) : Shape :=
  { srcs := [strictA x.a (if scratch then 1 else 2), { field := 3, op := x.b, n := 2 * n, strict := true }],
    dst := some { op := x.d, n := n }, suppress := true }

def casForm (x : CasOps) (kind : AccessKind) : OpForm := { kind := kind, ty := .b32, order := x.order, scope := x.scope, d := x.d }

/-- ATOM.CAS on global memory. -/
def execAtomCasG (x : CasOps) (s : State) : Result :=
  issueMem (.atomCasG x) x.h (CasOps.shape x false 1) 1 2 x.order false s fun i k s' =>
    s'.goGlobal s i x.h (CasOps.shape x false 1) k { code := x.a.code, size := 4, write := true, plain := true } (wantsB k false) (casForm x .cas)

/-- ATOM.CAS on scratchpad. -/
def execAtomCasS (x : CasOps) (s : State) : Result :=
  issueMem (.atomCasS x) x.h (CasOps.shape x true 1) 1 2 x.order true s fun i k s' =>
    s'.goScratch s i k { code := x.a.code, size := 4 } .cas { op := x.d } (wantsB k true)

/-- ATOM.CAS64 on global memory. -/
def execAtomCas64G (x : CasOps) (s : State) : Result :=
  issueMem (.atomCas64G x) x.h (CasOps.shape x false 2) 1 2 x.order false s fun i k s' =>
    s'.goGlobal s i x.h (CasOps.shape x false 2) k { code := x.a.code, size := 8, write := true, plain := true } (wantsB k false) (casForm x .cas64)

/-- ATOM.CAS64 on scratchpad. -/
def execAtomCas64S (x : CasOps) (s : State) : Result :=
  issueMem (.atomCas64S x) x.h (CasOps.shape x true 2) 1 2 x.order true s fun i k s' =>
    s'.goScratch s i k { code := x.a.code, size := 8 } .cas64 { op := x.d, n := 2 } (wantsB k true)

/-! ### Counters (R272 to R276) -/

/-- The checks of a counter access: an advance, or a read. -/
def ctrDoing (a : Operand) (advance : Bool) : Doing := { code := a.code, size := 16, counter := true, advance := advance }

/-- The attribute word that CTR.INIT writes (R177, R273). -/
def ctrAttr (g : Group) (cls rscope : Nat) : W64 :=
  BitVec.ofNat 64 (rscope + cls * 2 ^ 8 + (if cls = 1 then g.handle * 2 ^ 16 else 0) + (if cls ≤ 3 then g.launchId * 2 ^ 40 else 0))

def ctrSrcA (a : Operand) (scratch : Bool) : Src := strictA a (if scratch then 1 else 2)

/-- CTR.INIT (R273); a producer class from 7 or a release scope from 6 traps (R458). -/
def execCtrInit (x : CtrInitOps) (s : State) : Result :=
  let sh : Shape := { srcs := [ctrSrcA x.a x.scratch, strictB x.b 2], suppress := true }
  issueMem (.ctrInit x) x.h sh 1 1 x.order x.scratch s fun i k s' =>
    let kind := if 7 ≤ x.pclass.val then 1 else if 6 ≤ x.rscope.val then 2 else 0
    let attr := ctrAttr i.g x.pclass.val x.rscope.val
    let ws := wantsB k x.scratch
    let bad := fun (errs : List ThreadErr) => ws.flatMap (fun w =>
      ((w.who k.ts).filter (fun t => !(errs.any (fun b => b.t = t)))).map (fun t => (⟨t, 0x26, w.va, kind⟩ : ThreadErr)))
    if x.scratch then
      if kind = 0 then s'.goScratch s i k (ctrDoing x.a true) (.ctrInit attr) { op := .vz } ws
      else
        let errs := s'.scratchErrs i.g k (ctrDoing x.a true) ws
        (s'.trapAll i.r (errs ++ bad errs), .next [])
    else if kind = 0 then
      s'.goGlobal s i x.h sh k (ctrDoing x.a true) ws { kind := .ctrInit attr, ty := .b32, order := x.order, scope := x.scope, d := .vz }
    else
      let checks := ws.map (fun w => (w, s'.checkGlobal i.g (ctrDoing x.a true) w.va))
      if checks.any (fun c => c.2 = .walk) then (s.askWalks i (ctrDoing x.a true) k.ts ws, .stay)
      else
        let errs := checks.flatMap (fun (w, c) => match c with
          | .bad cls addr detail => (w.who k.ts).map (fun t => (⟨t, cls, addr, detail⟩ : ThreadErr))
          | _ => [])
        (s'.trapAll i.r (errs ++ bad errs), .next [])

def CtrOps.rmw (x : CtrOps) : Shape :=
  { srcs := [ctrSrcA x.a x.scratch, strictB x.b 2], dst := some { op := x.d, n := 2 }, suppress := true }

/-- An advance of a counter: its place, its kind. -/
def ctrRun (i : Instr) (x : CtrOps) (kind : AccessKind) (s : State) : Result :=
  issueMem i x.h (CtrOps.rmw x) 1 2 x.order x.scratch s fun y k s' =>
    let d := ctrDoing x.a true
    if x.scratch then s'.goScratch s y k d kind { op := x.d, n := 2 } (wantsB k true)
    else s'.goGlobal s y x.h (CtrOps.rmw x) k d (wantsB k false) { kind := kind, ty := .b32, order := x.order, scope := x.scope, d := x.d }

/-- CTR.ADD (R274). -/
def execCtrAdd (x : CtrOps) (s : State) : Result := ctrRun (.ctrAdd x) x .ctrAdd s
/-- CTR.MAX (R274). -/
def execCtrMax (x : CtrOps) (s : State) : Result := ctrRun (.ctrMax x) x .ctrMax s

/-- CTR.RD (R276). -/
def execCtrRd (x : CtrOps) (s : State) : Result :=
  let sh : Shape := { srcs := [ctrSrcA x.a x.scratch], dst := some { op := x.d, n := 2 }, suppress := true }
  issueMem (.ctrRd x) x.h sh 1 0 x.order x.scratch s fun i k s' =>
    let d := ctrDoing x.a false
    if x.scratch then s'.goScratch s i k d .ctrRd { op := x.d, n := 2 } (wantsB k true)
    else s'.goGlobal s i x.h sh k d (wantsB k false) { kind := .ctrRd, ty := .b32, order := x.order, scope := x.scope, d := x.d }

/-! ### CTR.WAIT (R70, R275) -/

/-- A launch is admitted from its admission until its last group has exited (R70). -/
def State.admitted (s : State) (ctx id : Nat) : Bool := s.launches.any (fun l => l.ctx = ctx && l.id = id && decide (0 < l.started))

/-- A wait on a counter with an attribute word is legal for a group (R70). -/
def State.legalWait (s : State) (g : Group) (attr : Nat) : Bool :=
  let cls := bits attr 11 8
  let launch := bits attr 63 40
  let group := bits attr 39 16
  match g.cls with
  | .c => (cls = 0 && s.admitted g.ctx launch) || cls = 4 || cls = 5 || cls = 6
  | .p => (cls = 1 && launch = g.launchId && group = g.handle) || (cls = 0 && s.admitted g.ctx launch) || cls = 4 || cls = 5
  | .w => cls = 4 || cls = 5

/-- The place of a test's counter. -/
def CtrTest.loc (t : CtrTest) (g : Group) : Option CtrLoc :=
  match t.phys with
  | some pa => some (.phys pa)
  | none => (g.locate t.addr.toNat).map (fun (m, l) => .scratch m l)

/-- VALUE, attribute and tag of a test's counter. -/
def State.testRead (s : State) (g : Group) (t : CtrTest) : Nat × Nat × Bool :=
  match t.loc g with
  | some l => s.ctrGet l
  | none => (0, 0, false)

def State.testHolds (s : State) (g : Group) (t : CtrTest) : Bool := decide (t.target.toNat ≤ (s.testRead g t).1)

/-- Each test's D receives VALUE as its completing read gave it; `ts` are the taking positions of a uniform instance. -/
def State.testsDone (s : State) (r : PathRef) (g : Group) (d : Operand) (uni : Bool) (ts : List Nat) (l : List CtrTest) : State :=
  l.foldl (fun s t =>
    let (v, _, bad) := s.testRead g t
    let s := match t.phys with
      | some pa => ((({ s with mem := (s.mem.rowLine (pa / 32) false).1 } : State).served (pa / 1024) 2 false).watch true false pa 16 1 g.core).1
      | none => s
    s.writeDst r.g r.w g { op := d, n := 2 } t.pos (if uni then ts else [t.pos]) (regsOf 2 v bad)) s

/-- The key of a path whose wait reads counters. -/
def PathRef.waitKey (r : PathRef) (p : Path) : Nat × Nat := (8, ((r.g * 64 + r.w) * 64 + maskLow p.tmask) * 2 + p.access.toNat)

/-- A release that the read of a test must follow (R169). -/
def State.testVeiled (s : State) (r : PathRef) (sc : Scope) (t : CtrTest) : Bool :=
  match t.phys with
  | some pa => s.veiled (.thread r.g r.w t.pos) (some sc) pa 16
  | none => false

/-- A pending access that the wait's read must follow (R167, R171). -/
def State.waitFirst (s : State) (x : Iss) (h : Hdr) : Bool :=
  s.mem.ops.any (fun o => o.g = x.r.g && o.w = x.r.w && o.access = x.p.access && o.tmask &&& x.taking h != 0 && o.kind != .load && !o.done)

def CtrOps.waitShape (x : CtrOps) : Shape :=
  { srcs := [ctrSrcA x.a x.scratch, strictB x.b 2], dst := some { op := x.d, n := 2 }, suppress := true }

/-- The tests of a wait, and the threads whose counter cannot be reached. -/
def State.ctrTests (s : State) (i : Iss) (k : Taken) (x : CtrOps) : List (Want × Except (Nat × Nat × Nat) CtrTest) :=
  (k.vals.zip (wantsB k x.scratch)).map (fun ((t, _), w) =>
    let test := fun (phys : Option Nat) => ({ pos := t, addr := BitVec.ofNat 64 w.va, phys := phys, target := BitVec.ofNat 64 w.data } : CtrTest)
    if x.scratch then
      if (s.scratchOut i.g w.va 16).isSome then (w, .error (0x20, w.va, x.a.code))
      else if w.va % 16 ≠ 0 then (w, .error (0x21, w.va, 16))
      else (w, .ok (test none))
    else match s.checkGlobal i.g (ctrDoing x.a false) w.va with
      | .ok e => (w, .ok (test (some (e.pa w.va))))
      | .bad cls addr detail => (w, .error (cls, addr, detail))
      | .walk => (w, .error (0, 0, 0)))

/-- CTR.WAIT (R275): it completes when every test holds; a failing test whose producer is not legal traps (R433); otherwise the
path waits. -/
def execCtrWait (x : CtrOps) (s : State) : Result :=
  withIssue s fun y =>
    if s.waitFirst y x.h then .next s.putOff
    else issueMem (.ctrWait x) x.h (CtrOps.waitShape x) 1 0 x.order x.scratch s fun i k s' =>
      let all := s'.ctrTests i k x
      if !x.scratch && all.any (fun c => match c.2 with | .error (0, _, _) => true | _ => false) then
        (s.askWalks i (ctrDoing x.a false) k.ts (all.map (·.1)), .stay)
      else if x.scratch && all.any (fun c => s.scratchBusy i.g c.1.va 16) then (s.putOff, .stay)
      else
        let errs := all.flatMap (fun (w, c) => match c with
          | .error (cls, addr, detail) => (w.who k.ts).map (fun t => (⟨t, cls, addr, detail⟩ : ThreadErr))
          | .ok _ => [])
        let tests := all.filterMap (fun (_, c) => c.toOption)
        let failing := tests.filter (fun t => !(s'.testHolds i.g t))
        if failing.isEmpty then
          if tests.any (s.testVeiled i.r x.scope) then (s.putOff, .stay)
          else match s.reaching (PathRef.waitKey i.r i.p) 2 ((s'.trapAll i.r errs).testsDone i.r i.g x.d k.uni k.ts tests) with
            | .ok t => (t, .next [])
            | .error u => (u, .stay)
        else
          let cls := fun (t : CtrTest) => bits (s'.testRead i.g t).2.1 11 8
          match failing.find? (fun t => cls t < 7 && !(s'.legalWait i.g (s'.testRead i.g t).2.1)) with
          | some t => (s.faultPath i 0x14 t.addr.toNat (i.g.cls.code * 8 + cls t * 128), .stay)
          | none =>
            let none7 := failing.filter (fun t => 7 ≤ cls t)
            if !none7.isEmpty then
              let errs := errs ++ none7.flatMap (fun t => (if k.uni then k.ts else [t.pos]).map (fun p => (⟨p, 0x26, t.addr.toNat, 3⟩ : ThreadErr)))
              ((s.trapAll i.r errs).settle i.r.g i.r.w, .stay)
            else if !errs.isEmpty then ((s.trapAll i.r errs).settle i.r.g i.r.w, .stay)
            else
              let wait : Wait := { instr := .ctrWait x, size := i.size, tests := tests, tickets := k.ts.map (fun t => (t, 0)), needs := [], kind := 0,
                                   addr := match failing.head? with | some t => t.addr | none => 0 }
              (s'.updPath i.r (fun p => { p with
                st := .counterWait
                timer := 0
                age := 0
                wait := some wait }), .wait)

/-- A waiting path of a working group: its group, its path and what it waits for. -/
def State.waiting (s : State) (r : PathRef) (st : PathSt) : Option (Group × Path × Wait) :=
  (s.group? r.g).bind (fun g => (s.path? r).bind (fun p =>
    if s.working g && p.st = st then p.wait.map (fun w => (g, p, w)) else none))

/-- COUNTER_WAIT_COMPLETE: every test of a waiting path holds (R275, R179). -/
def execCounterWaitComplete (r : PathRef) (s : State) : Result :=
  match s.waiting r .counterWait with
  | none => notNow s
  | some (g, p, w) =>
    match w.instr with
    | .ctrWait x =>
      let ts := w.tickets.map (·.1)
      let uni : Bool := (CtrOps.waitShape x).isUniform
      if w.tests.all (s.testHolds g) && !(w.tests.any (s.testVeiled r x.scope)) && s.dstRoom g r.w { op := x.d, n := 2 } (w.tests.map (·.pos)) then
        s.attempt (PathRef.waitKey r p) 2 (fun s => .next ((s.testsDone r g x.d uni ts w.tests).finish r w.size []))
      else notNow s
    | _ => notNow s

/-- QUEUE_WAIT_COMPLETE: the ports meet what the instruction needs, under the binding in force (R280); its path is ready, and the lane
chooses when it issues (R73). -/
def execQueueWaitComplete (r : PathRef) (s : State) : Result :=
  match s.waiting r .queueWait with
  | none => notNow s
  | some (g, _, w) =>
    if w.needs.all (s.meets g r.w) then
      .next (s.updPath r (fun p => { p with
        st := .ready
        wait := none }))
    else notNow s

/-! ### QCFG (R277, R278) -/

/-- QCFG binds or unbinds a ring port; a misaligned ring or a size from 2^17 is an illegal use (R430 kind 9), and a ring that
passes the end of scratchpad traps with class 0x20 (R456). -/
def execQcfg (x : QcfgOps) (s : State) : Result :=
  let src := fun f (o : Operand) => ({ field := f, op := o, strict := true, uni := true } : Src)
  issue (.qcfg x) x.h { srcs := [src 2 x.a, src 3 x.b], uni := some true } 1 s fun i k s' =>
    let v := (k.vals.headD (0, [])).2
    let off := regsNat (v.getD 0 [])
    let b := regsNat (v.getD 1 [])
    let e := bits b 4 0
    let port := 8 + x.port.val
    if off % 16 ≠ 0 then (s'.faultPath i 0x11 0 (9 + x.a.code * 16), .stay)
    else if 17 ≤ e then (s'.faultPath i 0x11 0 (9 + x.b.code * 16), .stay)
    else if e ≠ 0 && (s'.scratchOut i.g off (16 + 4 * 2 ^ e)).isSome then
      (s'.trapAll i.r (k.ts.map (fun t => ⟨t, 0x20, off, x.a.code⟩)), .next [])
    else if e ≠ 0 && bit b 8 && s.scratchBusy i.g off 8 then (s.putOff, .stay)
    else
      let s' := if e ≠ 0 && bit b 8 then s'.putScratch i.g 0 off (leBytes 8 0) false else s'
      (s'.updGroup i.r.g (fun g => { g with ring := sset none g.ring port (if e = 0 then none else some (off, e)) }), .next [])

end Sys2Proof.Machine
end

