-- ==== Sys2Proof/Machine/Flags.lean ====
section
/-! DEFINITION. Flags.lean: conditions and comparisons (R230, R233, R236, R237, R239). The GD960 has no flags register
(R488): a comparison writes 1 or 0 to its destination, and a predicate is set when the result is not zero (R194). -/

namespace Sys2Proof.Machine

/-- A condition of ICMP on two integers (R230). -/
def condInt (c : Cond) (a b : Int) : Bool :=
  match c with
  | .eq => a = b
  | .ne => a ≠ b
  | .lt => a < b
  | .le => a ≤ b
  | .gt => b < a
  | .ge => b ≤ a
  | .un => false

/-- An N-bit operand as an integer (R231). -/
def intOf (n : Nat) (sgn : Bool) (x : Nat) : Int := if sgn then sval n x else (x % 2 ^ n : Nat)

/-- The lesser or greater operand, bits unchanged; `num`: one NaN gives the other operand (R236). -/
def floatMinMax (f : FSpec) (min num : Bool) (a b : Nat) : Nat :=
  let x := f.decode a
  let y := f.decode b
  match x.isNan, y.isNan with
  | true, true => f.nanCode
  | true, false => if num then b else f.nanCode
  | false, true => if num then a else f.nanCode
  | false, false => if min then (if y.lt true x then b else a) else (if x.lt true y then b else a)

/-- A condition of FCMP and DCMP (R237). -/
def floatCond (f : FSpec) (c : Cond) (a b : Nat) : Bool := FVal.cond c (f.decode a) (f.decode b)

end Sys2Proof.Machine
end

