-- ==== Sys2Proof/Machine/Integer.lean ====
section
/-! DEFINITION. Integer.lean: the integer and address instructions (R230 to R233). -/

namespace Sys2Proof.Machine

/-! ### Results on N bits (R231, R232) -/

/-- The range of N-bit integers, signed or unsigned. -/
def intLo (n : Nat) (sgn : Bool) : Int := if sgn then -(2 ^ (n - 1) : Nat) else 0
def intHi (n : Nat) (sgn : Bool) : Int := if sgn then (2 ^ (n - 1) : Nat) - 1 else (2 ^ n : Nat) - 1
def clampInt (lo hi x : Int) : Int := if x < lo then lo else if hi < x then hi else x
/-- D of IADD, ISUB and IMUL: clamped under .sat, else modulo 2^N. -/
def intResult (n : Nat) (sat sgn : Bool) (x : Int) : Nat := wrapInt n (if sat then clampInt (intLo n sgn) (intHi n sgn) x else x)
def intMin (n : Nat) (sgn : Bool) (a b : Nat) : Nat := if intOf n sgn b < intOf n sgn a then b else a
def intMax (n : Nat) (sgn : Bool) (a b : Nat) : Nat := if intOf n sgn a < intOf n sgn b then b else a
def intAbs (n : Nat) (sat : Bool) (a : Nat) : Nat :=
  let x := (sval n a).natAbs
  if sat then min x (2 ^ (n - 1) - 1) else x % 2 ^ n
def shlN (n a s : Nat) : Nat := if n ≤ s then 0 else (a * 2 ^ s) % 2 ^ n
def shrN (n a s : Nat) : Nat := if n ≤ s then 0 else a % 2 ^ n / 2 ^ s
def sarN (n a s : Nat) : Nat := wrapInt n (sval n a / (2 ^ min s n : Nat))
def popcN (n a : Nat) : Nat := ((List.range n).filter (fun i => bit a i)).length
def clzN (n a : Nat) : Nat := if a % 2 ^ n = 0 then n else n - 1 - (a % 2 ^ n).log2
def brevN (n a : Nat) : Nat := (List.range n).foldl (fun r i => r + (bit a i).toNat * 2 ^ (n - 1 - i)) 0
/-- The field of BFE (R232). -/
def bfeN (n : Nat) (sgn : Bool) (a b : Nat) : Nat :=
  let pos := bits b 7 0
  let len := bits b 15 8
  if len = 0 || n ≤ pos then 0
  else
    let w := min (pos + len) n - pos
    let f := a / 2 ^ pos % 2 ^ w
    if sgn then wrapInt n (sval w f) else f
/-- The insertion of BFI (R232). -/
def bfiN (n a b c : Nat) : Nat :=
  let pos := bits c 7 0
  let len := bits c 15 8
  if len = 0 || n ≤ pos then a
  else
    let w := min (pos + len) n - pos
    let old := a / 2 ^ pos % 2 ^ w
    a - old * 2 ^ pos + b % 2 ^ w * 2 ^ pos
/-- LEA (R232). -/
def leaN (sgn : Bool) (k a b : Nat) : Nat := wrapInt 64 ((a : Int) + intOf 32 sgn b * (2 ^ k : Nat))

/-! ### Operand shapes -/

def nWords (w64 : Bool) : Nat := if w64 then 2 else 1
def nBits (w64 : Bool) : Nat := if w64 then 64 else 32
/-- D and A of the operation's width. -/
def IntOps.one (x : IntOps) : Shape := { srcs := [srcA x.a (nWords x.w64)], dst := some { op := x.d, n := nWords x.w64 } }
/-- D, A and B of the operation's width. -/
def IntOps.two (x : IntOps) : Shape :=
  { srcs := [srcA x.a (nWords x.w64), srcB x.b (nWords x.w64)], dst := some { op := x.d, n := nWords x.w64 } }
/-- B a 32-bit count. -/
def IntOps.shift (x : IntOps) : Shape := { srcs := [srcA x.a (nWords x.w64), srcB x.b 1], dst := some { op := x.d, n := nWords x.w64 } }

/-- An operand's value by its place in the list. -/
def arg (v : List Nat) (i : Nat) : Nat := v.getD i 0

/-! ### Meanings -/

/-- MOV (R231). -/
def execMov (x : IntOps) (s : State) : Result := compute (.mov x) x.h (IntOps.one x) 1 s fun _ _ v => arg v 0
/-- SEL (R231); C is 32-bit. -/
def execSel (x : IntOps) (s : State) : Result :=
  compute (.sel x) x.h { srcs := [srcA x.a (nWords x.w64), srcB x.b (nWords x.w64), srcC x.c 1], dst := some { op := x.d, n := nWords x.w64 } } 1 s
    fun _ _ v => if arg v 2 ≠ 0 then arg v 0 else arg v 1
/-- IADD (R231). -/
def execIadd (x : IntOps) (s : State) : Result :=
  compute (.iadd x) x.h (IntOps.two x) 1 s fun _ _ v =>
    intResult (nBits x.w64) x.sat x.sgn (intOf (nBits x.w64) x.sgn (arg v 0) + intOf (nBits x.w64) x.sgn (arg v 1))
/-- ISUB (R231). -/
def execIsub (x : IntOps) (s : State) : Result :=
  compute (.isub x) x.h (IntOps.two x) 1 s fun _ _ v =>
    intResult (nBits x.w64) x.sat x.sgn (intOf (nBits x.w64) x.sgn (arg v 0) - intOf (nBits x.w64) x.sgn (arg v 1))
/-- IMUL (R231). -/
def execImul (x : IntOps) (s : State) : Result :=
  compute (.imul x) x.h (IntOps.two x) 1 s fun _ _ v =>
    intResult (nBits x.w64) x.sat x.sgn (intOf (nBits x.w64) x.sgn (arg v 0) * intOf (nBits x.w64) x.sgn (arg v 1))
/-- IMULH (R231). -/
def execImulh (x : IntOps) (s : State) : Result :=
  compute (.imulh x) x.h (IntOps.two x) 1 s fun _ _ v =>
    wrapInt 32 (intOf 32 x.sgn (arg v 0) * intOf 32 x.sgn (arg v 1) / (2 ^ 32 : Nat))
/-- IMAD (R231): under .64, A and B are 32-bit and C and D are pairs. -/
def execImad (x : IntOps) (s : State) : Result :=
  compute (.imad x) x.h { srcs := [srcA x.a 1, srcB x.b 1, srcC x.c (nWords x.w64)], dst := some { op := x.d, n := nWords x.w64 } } 1 s
    fun _ _ v => wrapInt (nBits x.w64) (intOf 32 x.sgn (arg v 0) * intOf 32 x.sgn (arg v 1) + (arg v 2 : Nat))
/-- IMIN (R231). -/
def execImin (x : IntOps) (s : State) : Result :=
  compute (.imin x) x.h (IntOps.two x) 1 s fun _ _ v => intMin (nBits x.w64) x.sgn (arg v 0) (arg v 1)
/-- IMAX (R231). -/
def execImax (x : IntOps) (s : State) : Result :=
  compute (.imax x) x.h (IntOps.two x) 1 s fun _ _ v => intMax (nBits x.w64) x.sgn (arg v 0) (arg v 1)
/-- IABS (R231). -/
def execIabs (x : IntOps) (s : State) : Result :=
  compute (.iabs x) x.h (IntOps.one x) 1 s fun _ _ v => intAbs (nBits x.w64) x.sat (arg v 0)
/-- AND (R231). -/
def execAnd (x : IntOps) (s : State) : Result := compute (.and x) x.h (IntOps.two x) 1 s fun _ _ v => arg v 0 &&& arg v 1
/-- OR (R231). -/
def execOr (x : IntOps) (s : State) : Result := compute (.or x) x.h (IntOps.two x) 1 s fun _ _ v => arg v 0 ||| arg v 1
/-- XOR (R231). -/
def execXor (x : IntOps) (s : State) : Result := compute (.xor x) x.h (IntOps.two x) 1 s fun _ _ v => arg v 0 ^^^ arg v 1
/-- SHL (R232). -/
def execShl (x : IntOps) (s : State) : Result :=
  compute (.shl x) x.h (IntOps.shift x) 1 s fun _ _ v => shlN (nBits x.w64) (arg v 0) (arg v 1)
/-- SHR (R232). -/
def execShr (x : IntOps) (s : State) : Result :=
  compute (.shr x) x.h (IntOps.shift x) 1 s fun _ _ v => shrN (nBits x.w64) (arg v 0) (arg v 1)
/-- SAR (R232). -/
def execSar (x : IntOps) (s : State) : Result :=
  compute (.sar x) x.h (IntOps.shift x) 1 s fun _ _ v => sarN (nBits x.w64) (arg v 0) (arg v 1)
/-- POPC (R232); D is 32-bit. -/
def execPopc (x : IntOps) (s : State) : Result :=
  compute (.popc x) x.h { srcs := [srcA x.a (nWords x.w64)], dst := some { op := x.d } } 1 s fun _ _ v => popcN (nBits x.w64) (arg v 0)
/-- CLZ (R232); D is 32-bit. -/
def execClz (x : IntOps) (s : State) : Result :=
  compute (.clz x) x.h { srcs := [srcA x.a (nWords x.w64)], dst := some { op := x.d } } 1 s fun _ _ v => clzN (nBits x.w64) (arg v 0)
/-- BREV (R232). -/
def execBrev (x : IntOps) (s : State) : Result :=
  compute (.brev x) x.h (IntOps.one x) 1 s fun _ _ v => brevN (nBits x.w64) (arg v 0)
/-- BFE (R232). -/
def execBfe (x : IntOps) (s : State) : Result :=
  compute (.bfe x) x.h (IntOps.shift x) 1 s fun _ _ v => bfeN (nBits x.w64) x.sgn (arg v 0) (arg v 1)
/-- BFI (R232). -/
def execBfi (x : IntOps) (s : State) : Result :=
  compute (.bfi x) x.h { srcs := [srcA x.a (nWords x.w64), srcB x.b (nWords x.w64), srcC x.c 1], dst := some { op := x.d, n := nWords x.w64 } } 1 s
    fun _ _ v => bfiN (nBits x.w64) (arg v 0) (arg v 1) (arg v 2)
/-- ICMP (R230, R233); D is 32-bit. -/
def execIcmp (x : IcmpOps) (s : State) : Result :=
  compute (.icmp x) x.h { srcs := [srcA x.a (nWords x.w64), srcB x.b (nWords x.w64)], dst := some { op := x.d } } 1 s
    fun _ _ v => (condInt x.cond (intOf (nBits x.w64) x.sgn (arg v 0)) (intOf (nBits x.w64) x.sgn (arg v 1))).toNat
/-- LEA (R232); D and A are pairs, B is 32-bit. -/
def execLea (x : LeaOps) (s : State) : Result :=
  compute (.lea x) x.h { srcs := [srcA x.a 2, srcB x.b 1], dst := some { op := x.d, n := 2 } } 1 s
    fun _ _ v => leaN x.sgn x.k.val (arg v 0) (arg v 1)

end Sys2Proof.Machine
end

