-- ==== Sys2Proof/Machine/Special.lean ====
section
/-! DEFINITION. Special.lean: the special functions of R130 and R131, and the counter-based generator (R125, R126).
EXP2, LOG2 and TANH are evaluated in fixed point to 256 fraction bits and then rounded once (log 8). -/

namespace Sys2Proof.Machine

/-- Bits of the square root of `n`, from bit `k` down. -/
def isqrtFrom : Nat → Nat → Nat → Nat
  | 0, _, r => r
  | k + 1, n, r => let t := r + 2 ^ k; isqrtFrom k n (if t * t ≤ n then t else r)

/-- floor of the square root of `n`. -/
def isqrt (n : Nat) : Nat := isqrtFrom (n.log2 / 2 + 1) n 0

/-- Fraction bits of the fixed-point series. -/
def fixBits : Nat := 256

/-- Sum of the series t·Σ x^(2k+1)/(2k+1) for x = num/den: atanh, over `fuel` terms, with power and squared ratio in
fixed point. -/
def atanhLoop : Nat → Nat → Nat → Nat → Nat → Nat
  | 0, _, _, _, acc => acc
  | fuel + 1, k, pw, sq, acc => atanhLoop fuel (k + 2) ((pw * sq) >>> fixBits) sq (acc + pw / k)

/-- atanh(num/den) in fixed point, for num/den at most 1/3. -/
def atanhFix (num den : Nat) : Nat :=
  let x := (num <<< fixBits) / den
  atanhLoop 84 1 x ((x * x) >>> fixBits) 0

/-- ln 2 in fixed point. -/
def ln2Fix : Nat := 2 * atanhFix 1 3

def expLoop : Nat → Nat → Nat → Nat → Nat → Nat
  | 0, _, _, _, acc => acc
  | fuel + 1, k, term, x, acc => let t := ((term * x) >>> fixBits) / k; expLoop fuel (k + 1) t x (acc + t)

/-- exp(x) in fixed point, for x from 0 to 1. -/
def expFix (x : Nat) : Nat := expLoop 64 1 (2 ^ fixBits) x (2 ^ fixBits)

/-- 2^(f/2^fixBits) in fixed point, for f below 2^fixBits. -/
def exp2Fix (f : Nat) : Nat := expFix ((f * ln2Fix) >>> fixBits)

/-- The bits of an FP32 result from an exact value. -/
def toF32 (v : FVal) : W32 := BitVec.ofNat 32 (FSpec.fp32.round .rne 0 false v)
def exactF32 (x : Exact) : W32 := BitVec.ofNat 32 (FSpec.fp32.roundExact .rne 0 false x)
def f32 (x : W32) : FVal := FSpec.fp32.decode x.toNat
def nanF32 : W32 := 0x7FC00000

/-- RCP (R130, R131). -/
def rcpF (x : W32) : W32 := BitVec.ofNat 32 (FSpec.fp32.div .rne (.fin false 1 0) (f32 x))

/-- SQRT (R130, R131): the root of m·2^e with a sticky bit below any FP32 quantum. -/
def sqrtF (x : W32) : W32 :=
  match f32 x with
  | .nan => nanF32
  | .inf n => if n then nanF32 else x
  | .fin n m e =>
    if m = 0 then x else if n then nanF32
    else
      let (m, e) := if e % 2 = 0 then (m, e) else (2 * m, e - 1)
      let r := isqrt (m <<< 80)
      exactF32 ⟨false, 2 * r + (if r * r = m <<< 80 then 0 else 1), 1, e / 2 - 41⟩

/-- RSQ (R130, R131): the root of 1/(m·2^e) likewise. -/
def rsqF (x : W32) : W32 :=
  match f32 x with
  | .nan => nanF32
  | .inf n => if n then nanF32 else 0
  | .fin n m e =>
    if m = 0 then toF32 (.inf n) else if n then nanF32
    else
      let (m, e) := if e % 2 = 0 then (m, e) else (2 * m, e - 1)
      let r := isqrt (2 ^ 160 / m)
      exactF32 ⟨false, 2 * r + (if r * r * m = 2 ^ 160 then 0 else 1), 1, -(e / 2) - 81⟩

/-- EXP2 (R130, R131): 2^(n + f) with n an integer and f in [0, 1). -/
def exp2F (x : W32) : W32 :=
  match f32 x with
  | .nan => nanF32
  | .inf n => if n then 0 else x
  | v =>
    if v.lt false (.ofInt (-150)) then 0
    else if !(v.lt false (.ofInt 128)) then toF32 (.inf false)
    else
      let fx := v.dyad.s * 2 ^ (fixBits + v.dyad.e).toNat / 2 ^ (-(fixBits + v.dyad.e)).toNat
      let n := fx / (2 ^ fixBits : Int)
      exactF32 ⟨false, exp2Fix (fx % (2 ^ fixBits : Int)).toNat, 1, n - fixBits⟩

/-- LOG2 (R130, R131): k + ln(y)/ln 2 with x = y·2^k and y in [1, 2). -/
def log2F (x : W32) : W32 :=
  match f32 x with
  | .nan => nanF32
  | .inf n => if n then nanF32 else x
  | .fin n m e =>
    if m = 0 then toF32 (.inf true) else if n then nanF32
    else
      let one := 2 ^ m.log2
      let k : Int := m.log2 + e
      let lnY := 2 * atanhFix (m - one) (m + one)
      let y : Int := k * 2 ^ fixBits + (((lnY <<< fixBits) / ln2Fix : Nat) : Int)
      exactF32 ⟨decide (y < 0), y.natAbs, 1, -fixBits⟩

/-- TANH (R130, R131): (E − 1)/(E + 1) with E = exp(2|x|). -/
def tanhF (x : W32) : W32 :=
  match f32 x with
  | .nan => nanF32
  | .inf n => if n then 0xBF800000 else 0x3F800000
  | .fin n m e =>
    let v := FVal.fin false m e
    if !((FVal.fin false 1 (-12)).lt false v) then x
    else if !(v.lt false (.ofInt 10)) then (if n then 0xBF800000 else 0x3F800000)
    else
      -- 2|x| / ln 2 = k + f: E = 2^k · 2^f
      let fx := shiftInt m (e + 1 + fixBits)
      let q := (fx <<< fixBits) / ln2Fix
      let big := exp2Fix (q % 2 ^ fixBits) <<< (q >>> fixBits)
      exactF32 ⟨n, big - 2 ^ fixBits, big + 2 ^ fixBits, 0⟩

/-! ### Draws -/

/-- One round of Philox (R125). -/
def philoxRound (k0 k1 : Nat) (c : Nat × Nat × Nat × Nat) : Nat × Nat × Nat × Nat :=
  let p0 := 0xD2511F53 * c.1
  let p1 := 0xCD9E8D57 * c.2.2.1
  ((p1 / 2 ^ 32 ^^^ c.2.1) ^^^ k0, p1 % 2 ^ 32, (p0 / 2 ^ 32 ^^^ c.2.2.2) ^^^ k1, p0 % 2 ^ 32)

def philoxLoop : Nat → Nat → Nat → Nat × Nat × Nat × Nat → Nat × Nat × Nat × Nat
  | 0, _, _, c => c
  | n + 1, k0, k1, c =>
    philoxLoop n ((k0 + 0x9E3779B9) % 2 ^ 32) ((k1 + 0xBB67AE85) % 2 ^ 32) (philoxRound k0 k1 c)

/-- The four output words for a key and a counter (R125). -/
def philox (key : W64) (c : Nat × Nat × Nat × Nat) : Nat × Nat × Nat × Nat :=
  philoxLoop 10 (key.toNat % 2 ^ 32) (key.toNat / 2 ^ 32) c

/-- The draw named by stream, object, step and element (R126). -/
def draw (key : W64) (stream object step element : Nat) : Nat :=
  let y := philox key (element % 2 ^ 32 / 8 * 8, step % 2 ^ 32, object % 2 ^ 32, stream % 2 ^ 32)
  let e := element % 8
  let w := match e / 2 with
    | 0 => y.1
    | 1 => y.2.1
    | 2 => y.2.2.1
    | _ => y.2.2.2
  bits w (16 * (e % 2) + 15) (16 * (e % 2))

end Sys2Proof.Machine
end

