-- ==== Sys2Proof/Machine/Float.lean ====
section
/-! DEFINITION. Float.lean: floating-point arithmetic, packed arithmetic, special functions and pairs (R199 to R202, R234 to
R240). -/

namespace Sys2Proof.Machine

/-! ### Results in a format (R235 to R238) -/

def fAdd (f : FSpec) (sat : Bool) (m : Mode) (a b : Nat) : Nat := f.round m 0 sat ((f.decode a).add m (f.decode b))
def fSub (f : FSpec) (sat : Bool) (m : Mode) (a b : Nat) : Nat := f.round m 0 sat ((f.decode a).sub m (f.decode b))
def fMul (f : FSpec) (sat : Bool) (m : Mode) (a b : Nat) : Nat := f.round m 0 sat ((f.decode a).mul (f.decode b))
def fFma (f : FSpec) (sat : Bool) (m : Mode) (a b c : Nat) : Nat := f.round m 0 sat ((f.decode a).fma m (f.decode b) (f.decode c))

/-- Rounding to an integral FP32 value (R238). -/
def fRnd (m : Mode) (a : Nat) : Nat :=
  match FSpec.fp32.decode a with
  | .nan => FSpec.fp32.nanCode
  | .inf _ => a
  | .fin s n e =>
    if 0 ≤ e then a
    else
      let q := roundQuot m 0 { neg := s, num := n, den := 1, e := e } 0
      FSpec.fp32.round .rne 0 false (.fin s q 0)

/-- One operation on both elements of a packed operand (R239). -/
def packed2 (f : Nat → Nat → Nat) (a b : Nat) : Nat := f (bits a 15 0) (bits b 15 0) + f (bits a 31 16) (bits b 31 16) * 2 ^ 16
def packed3 (f : Nat → Nat → Nat → Nat) (a b c : Nat) : Nat :=
  f (bits a 15 0) (bits b 15 0) (bits c 15 0) + f (bits a 31 16) (bits b 31 16) (bits c 31 16) * 2 ^ 16

def halfSpec (f16 : Bool) : FSpec := if f16 then .fp16 else .bf16
def halfInline (f16 : Bool) : Inline := if f16 then .f16x2 else .bf16x2

/-! ### Operand shapes -/

def srcF (field : Nat) (op : Operand) (d : Bool) : Src := { field := field, op := op, n := nWords d, inl := if d then .f64 else .f32 }
def FloatOps.two (x : FloatOps) (d : Bool) : Shape := { srcs := [srcF 2 x.a d, srcF 3 x.b d], dst := some { op := x.d, n := nWords d } }
def FloatOps.three (x : FloatOps) (d : Bool) : Shape :=
  { srcs := [srcF 2 x.a d, srcF 3 x.b d, srcF 4 x.c d], dst := some { op := x.d, n := nWords d } }
def FMinMaxOps.shape (x : FMinMaxOps) (d : Bool) : Shape := { srcs := [srcF 2 x.a d, srcF 3 x.b d], dst := some { op := x.d, n := nWords d } }
def FcmpOps.shape (x : FcmpOps) (d : Bool) : Shape := { srcs := [srcF 2 x.a d, srcF 3 x.b d], dst := some { op := x.d } }
def srcH (field : Nat) (op : Operand) (f16 : Bool) : Src := { field := field, op := op, inl := halfInline f16 }
def HalfOps.two (x : HalfOps) : Shape := { srcs := [srcH 2 x.a x.f16, srcH 3 x.b x.f16], dst := some { op := x.d } }
def HalfOps.three (x : HalfOps) : Shape := { srcs := [srcH 2 x.a x.f16, srcH 3 x.b x.f16, srcH 4 x.c x.f16], dst := some { op := x.d } }
def OpDA.f32 (x : OpDA) : Shape := { srcs := [srcF 2 x.a false], dst := some { op := x.d } }

/-! ### FP32 and FP64 -/

/-- FADD (R235). -/
def execFadd (x : FloatOps) (s : State) : Result :=
  compute (.fadd x) x.h (FloatOps.two x false) 1 s fun _ _ v => fAdd .fp32 x.sat x.mode (arg v 0) (arg v 1)
/-- FSUB (R235). -/
def execFsub (x : FloatOps) (s : State) : Result :=
  compute (.fsub x) x.h (FloatOps.two x false) 1 s fun _ _ v => fSub .fp32 x.sat x.mode (arg v 0) (arg v 1)
/-- FMUL (R235). -/
def execFmul (x : FloatOps) (s : State) : Result :=
  compute (.fmul x) x.h (FloatOps.two x false) 1 s fun _ _ v => fMul .fp32 x.sat x.mode (arg v 0) (arg v 1)
/-- FMA (R235). -/
def execFma (x : FloatOps) (s : State) : Result :=
  compute (.fma x) x.h (FloatOps.three x false) 1 s fun _ _ v => fFma .fp32 x.sat x.mode (arg v 0) (arg v 1) (arg v 2)
/-- FMIN (R236). -/
def execFmin (x : FMinMaxOps) (s : State) : Result :=
  compute (.fmin x) x.h (FMinMaxOps.shape x false) 1 s fun _ _ v => floatMinMax .fp32 true x.num (arg v 0) (arg v 1)
/-- FMAX (R236). -/
def execFmax (x : FMinMaxOps) (s : State) : Result :=
  compute (.fmax x) x.h (FMinMaxOps.shape x false) 1 s fun _ _ v => floatMinMax .fp32 false x.num (arg v 0) (arg v 1)
/-- FCMP (R237). -/
def execFcmp (x : FcmpOps) (s : State) : Result :=
  compute (.fcmp x) x.h (FcmpOps.shape x false) 1 s fun _ _ v => (floatCond .fp32 x.cond (arg v 0) (arg v 1)).toNat
/-- FRND (R238). -/
def execFrnd (x : FrndOps) (s : State) : Result :=
  compute (.frnd x) x.h { srcs := [srcF 2 x.a false], dst := some { op := x.d } } 1 s fun _ _ v => fRnd x.mode (arg v 0)
/-- DADD (R235). -/
def execDadd (x : FloatOps) (s : State) : Result :=
  compute (.dadd x) x.h (FloatOps.two x true) 4 s fun _ _ v => fAdd .fp64 x.sat x.mode (arg v 0) (arg v 1)
/-- DSUB (R235). -/
def execDsub (x : FloatOps) (s : State) : Result :=
  compute (.dsub x) x.h (FloatOps.two x true) 4 s fun _ _ v => fSub .fp64 x.sat x.mode (arg v 0) (arg v 1)
/-- DMUL (R235). -/
def execDmul (x : FloatOps) (s : State) : Result :=
  compute (.dmul x) x.h (FloatOps.two x true) 4 s fun _ _ v => fMul .fp64 x.sat x.mode (arg v 0) (arg v 1)
/-- DFMA (R235). -/
def execDfma (x : FloatOps) (s : State) : Result :=
  compute (.dfma x) x.h (FloatOps.three x true) 4 s fun _ _ v => fFma .fp64 x.sat x.mode (arg v 0) (arg v 1) (arg v 2)
/-- DMIN (R236). -/
def execDmin (x : FMinMaxOps) (s : State) : Result :=
  compute (.dmin x) x.h (FMinMaxOps.shape x true) 4 s fun _ _ v => floatMinMax .fp64 true x.num (arg v 0) (arg v 1)
/-- DMAX (R236). -/
def execDmax (x : FMinMaxOps) (s : State) : Result :=
  compute (.dmax x) x.h (FMinMaxOps.shape x true) 4 s fun _ _ v => floatMinMax .fp64 false x.num (arg v 0) (arg v 1)
/-- DCMP (R237); D is 32-bit. -/
def execDcmp (x : FcmpOps) (s : State) : Result :=
  compute (.dcmp x) x.h (FcmpOps.shape x true) 4 s fun _ _ v => (floatCond .fp64 x.cond (arg v 0) (arg v 1)).toNat

/-! ### Packed 16-bit (R239) -/

/-- HADD2 (R239). -/
def execHadd2 (x : HalfOps) (s : State) : Result :=
  compute (.hadd2 x) x.h (HalfOps.two x) 1 s fun _ _ v => packed2 (fAdd (halfSpec x.f16) x.sat x.mode) (arg v 0) (arg v 1)
/-- HSUB2 (R239). -/
def execHsub2 (x : HalfOps) (s : State) : Result :=
  compute (.hsub2 x) x.h (HalfOps.two x) 1 s fun _ _ v => packed2 (fSub (halfSpec x.f16) x.sat x.mode) (arg v 0) (arg v 1)
/-- HMUL2 (R239). -/
def execHmul2 (x : HalfOps) (s : State) : Result :=
  compute (.hmul2 x) x.h (HalfOps.two x) 1 s fun _ _ v => packed2 (fMul (halfSpec x.f16) x.sat x.mode) (arg v 0) (arg v 1)
/-- HFMA2 (R239). -/
def execHfma2 (x : HalfOps) (s : State) : Result :=
  compute (.hfma2 x) x.h (HalfOps.three x) 1 s fun _ _ v => packed3 (fFma (halfSpec x.f16) x.sat x.mode) (arg v 0) (arg v 1) (arg v 2)
/-- HMIN2 (R239). -/
def execHmin2 (x : HMinMaxOps) (s : State) : Result :=
  compute (.hmin2 x) x.h { srcs := [srcH 2 x.a x.f16, srcH 3 x.b x.f16], dst := some { op := x.d } } 1 s
    fun _ _ v => packed2 (floatMinMax (halfSpec x.f16) true x.num) (arg v 0) (arg v 1)
/-- HMAX2 (R239). -/
def execHmax2 (x : HMinMaxOps) (s : State) : Result :=
  compute (.hmax2 x) x.h { srcs := [srcH 2 x.a x.f16, srcH 3 x.b x.f16], dst := some { op := x.d } } 1 s
    fun _ _ v => packed2 (floatMinMax (halfSpec x.f16) false x.num) (arg v 0) (arg v 1)
/-- HCMP2 (R239). -/
def execHcmp2 (x : HcmpOps) (s : State) : Result :=
  compute (.hcmp2 x) x.h { srcs := [srcH 2 x.a x.f16, srcH 3 x.b x.f16], dst := some { op := x.d } } 1 s
    fun _ _ v => packed2 (fun a b => (floatCond (halfSpec x.f16) x.cond a b).toNat) (arg v 0) (arg v 1)

/-! ### Special functions (R240) -/

def viaW (f : W32 → W32) (a : Nat) : Nat := (f (BitVec.ofNat 32 a)).toNat

/-- EXP2 (R240). -/
def execExp2 (x : OpDA) (s : State) : Result := compute (.exp2 x) x.h (OpDA.f32 x) 2 s fun _ _ v => viaW exp2F (arg v 0)
/-- LOG2 (R240). -/
def execLog2 (x : OpDA) (s : State) : Result := compute (.log2 x) x.h (OpDA.f32 x) 2 s fun _ _ v => viaW log2F (arg v 0)
/-- RCP (R240). -/
def execRcp (x : OpDA) (s : State) : Result := compute (.rcp x) x.h (OpDA.f32 x) 2 s fun _ _ v => viaW rcpF (arg v 0)
/-- RSQ (R240). -/
def execRsq (x : OpDA) (s : State) : Result := compute (.rsq x) x.h (OpDA.f32 x) 2 s fun _ _ v => viaW rsqF (arg v 0)
/-- SQRT (R240). -/
def execSqrt (x : OpDA) (s : State) : Result := compute (.sqrt x) x.h (OpDA.f32 x) 2 s fun _ _ v => viaW sqrtF (arg v 0)
/-- TANH (R240). -/
def execTanh (x : OpDA) (s : State) : Result := compute (.tanh x) x.h (OpDA.f32 x) 2 s fun _ _ v => viaW tanhF (arg v 0)

/-! ### Pairs (R199 to R202) -/

/-- What one half computes from its D and S (R200, R202). M[4:3] is 0: no saturation, unsigned, BF16. -/
def halfValue (x : Half) (d sv : Nat) : Nat :=
  let m := Mode.ofCode x.m3.val
  let sgn := bit x.m3.val 0
  match x.op with
  | .nop => 0
  | .mov => sv
  | .iadd => intResult 32 false sgn ((d : Int) + sv)
  | .isub => intResult 32 false sgn ((d : Int) - sv)
  | .imul => intResult 32 false sgn ((d : Int) * sv)
  | .imin => intMin 32 sgn d sv
  | .imax => intMax 32 sgn d sv
  | .and => d &&& sv
  | .or => d ||| sv
  | .xor => d ^^^ sv
  | .shl => shlN 32 d sv
  | .shr => shrN 32 d sv
  | .sar => sarN 32 d sv
  | .fadd => fAdd .fp32 false m d sv
  | .fsub => fSub .fp32 false m d sv
  | .fmul => fMul .fp32 false m d sv
  | .fmin => floatMinMax .fp32 true sgn d sv
  | .fmax => floatMinMax .fp32 false sgn d sv
  | .hadd2 => packed2 (fAdd .bf16 false m) d sv
  | .hmul2 => packed2 (fMul .bf16 false m) d sv
  | .hmin2 => packed2 (floatMinMax .bf16 true sgn) d sv
  | .hmax2 => packed2 (floatMinMax .bf16 false sgn) d sv
  | .exp2 => viaW exp2F sv
  | .log2 => viaW log2F sv
  | .rcp => viaW rcpF sv
  | .rsq => viaW rsqF sv
  | .sqrt => viaW sqrtF sv
  | .tanh => viaW tanhF sv

/-- Thread-cycles of a half (R220). -/
def halfCycles (x : Half) : Nat := match x.op with | .exp2 | .log2 | .rcp | .rsq | .sqrt | .tanh => 2 | _ => 1

/-- The registers that a half reads; S alone in a one-source half (R200). -/
def halfSrcs (x : Half) : List Src :=
  if x.op = .nop then []
  else if x.op.oneSource then [{ field := 2, op := .v x.s }]
  else [{ field := 1, op := .v x.d }, { field := 2, op := .v x.s }]

/-- D of a half, poisoned when a source is (R416). -/
def halfResult (x : Half) (v : List (List Reg)) : Reg :=
  let d := if x.op.oneSource then 0 else regsNat (v.headD [])
  let sv := regsNat ((if x.op.oneSource then v.head? else v[1]?).getD [])
  Reg.ofNat (halfValue x d sv) (v.any regsBad)

/-- Its guard is always (R199). -/
def PairOps.hdr (x : PairOps) : Hdr := { ps := 7, pn := false, acc := x.acc, lit := none }

/-- The operands of a pair: what the halves read, and their destinations. -/
def PairOps.shape (x : PairOps) : Shape :=
  let ds : List Src := [x.lo, x.hi].flatMap (fun y => if y.op = .nop then [] else [{ field := 1, op := .v y.d }])
  { srcs := (halfSrcs x.lo) ++ (halfSrcs x.hi) ++ ds, uni := some false }

/-- Thread-cycles of a pair (R220). -/
def PairOps.cycles (x : PairOps) : Nat := max (halfCycles x.lo) (halfCycles x.hi)

/-- One half writes its D; a NOP half does nothing. -/
def State.putHalf (s : State) (i : Iss) (y : Half) (t : Nat) (v : List (List Reg)) : State :=
  if y.op = .nop then s else s.writeDst i.r.g i.r.w i.g { op := .v y.d } t [t] [halfResult y v]

/-- What a pair writes: first the lower half, then the upper; both from what they read before (R200, R201). -/
def PairOps.body (x : PairOps) : Body := fun i k s =>
  (k.vals.foldl (fun s m => (s.putHalf i x.lo m.1 (m.2.take (halfSrcs x.lo).length)).putHalf i x.hi m.1
    ((m.2.drop (halfSrcs x.lo).length).take (halfSrcs x.hi).length)) s, .next [])

/-- PAIR: both halves read before either writes; its guard is always, and a NOP half does nothing (R200, R201). -/
def execPair (x : PairOps) (s : State) : Result := issue (.pair x) (PairOps.hdr x) (PairOps.shape x) (PairOps.cycles x) s (PairOps.body x)

end Sys2Proof.Machine
end

