-- ==== Sys2Proof/Machine/Quant.lean ====
section
/-! DEFINITION. Quant.lean: MX scales and blocks (R107, R108, R118, R119) and the wire formats with their quantisers
(R110 to R112, R358 to R360). -/

namespace Sys2Proof.Machine

/-- The greatest exponent of a format's values (R104). -/
def FSpec.emax (f : FSpec) : Int := f.maxE + f.p

/-- floor(log2 |v|) of a finite nonzero value. -/
def FVal.log2 : FVal → Int
  | .fin _ m e => (m.log2 : Int) + e
  | _ => 0

/-- The E8M0 code that R118 and R247 choose for the largest magnitude. -/
def mxScaleOf (f : Fmt) (amax : FVal) : Nat :=
  match amax with
  | .nan => 0xFF
  | .inf _ => if (fspec f).inf then 254 else 0xFF
  | .fin _ m _ => if m = 0 then 0 else (min 127 (max (-127) (amax.log2 - (fspec f).emax)) + 127).toNat

/-- One element of the element form (R247, R118): code 0 under scale 0xFF or for a NaN. -/
def mxElement (f : Fmt) (c : Nat) (mode : Mode) (d : Nat) (v : FVal) : Nat :=
  if c = 0xFF then 0
  else match v with
    | .nan => 0
    | .inf n => if (fspec f).inf then (fspec f).infCode n else fmtRound f mode d true (.inf n)
    | v => fmtRound f mode d true (v.scale (127 - (c : Int)))

/-- The exact value of an element under a scale code (R107, R119). -/
def mxValue (f : Fmt) (c code : Nat) : FVal :=
  if c = 0xFF then .nan else (fmtValue f code).scale ((c : Int) - 127)

/-- Quantising one block (R118): the scale and the element codes; `ds` holds the draws. Without a finite element amax is 0 (DESIGN
CHOICE, log 54: R118 takes a maximum over none). -/
def mxBlock (f : Fmt) (mode : Mode) (xs : List (FVal × Nat)) : Nat × List Nat :=
  if xs.any (fun x => x.1.isNan || (!(fspec f).inf && x.1.isInf)) then (0xFF, xs.map (fun _ => 0))
  else
    let fins := xs.filterMap (fun x => if x.1.isInf then none else some x.1.abs)
    let amax := fins.foldl (fun a b => if a.lt false b then b else a) (.fin false 0 0)
    let c := mxScaleOf f amax
    (c, xs.map (fun x => mxElement f c mode x.2 x.1))

/-- Block shape codes (R108): the block index of element (i, j) of a tensor with the given number of columns. -/
def mxBlockIndex (shape cols i j : Nat) : Nat :=
  match shape with
  | 0 => i * ((cols + 31) / 32) + j / 32
  | 1 => i / 32 * cols + j
  | _ => i / 8 * ((cols + 7) / 8) + j / 8

/-- Number of blocks of a tensor (R108). -/
def mxBlocks (shape rows cols : Nat) : Nat :=
  match shape with
  | 0 => rows * ((cols + 31) / 32)
  | 1 => (rows + 31) / 32 * cols
  | _ => (rows + 7) / 8 * ((cols + 7) / 8)

/-! ### Wire formats -/

/-- WBK codes (R159, R375). -/
def wireBlock (wbk : Nat) : Nat := if wbk = 0 then 32 else if wbk = 1 then 64 else 128

/-- Bytes of one block (R110, R111). -/
def s1bBytes (b : Nat) : Nat := 2 + b / 8
def t5bBytes (b : Nat) : Nat := 2 + (b + 4) / 5

/-- A quantised block: BF16 scale, codes −1, 0 and +1, residual bits in the ember format. -/
structure WireBlock where
  scale : Nat
  codes : List Int
  resid : List Nat
deriving DecidableEq, Repr

/-- A residual rounded into the ember format; an exact zero is +0 (R358, R360). -/
def residual (ember : FSpec) (y w : FVal) : Nat :=
  match sumExact .rne [y, w.neg] with
  | .fin n m e => if m = 0 then 0 else ember.roundExact .rne 0 false ⟨n, m, 1, e⟩
  | v => ember.round .rne 0 false v

/-- code × scale exactly (R112). -/
def wireValue (scale : Nat) (code : Int) : FVal :=
  match FSpec.bf16.decode scale with
  | .nan => .nan
  | v => if code = 0 then .fin false 0 0 else if code < 0 then v.neg else v

/-- The S1B and T5B quantisers (R358): `d` is the draw of a stochastic threshold, none without SR. -/
def wireQuant (t5b : Bool) (ember : FSpec) (d : Option Nat) (b : Nat) (ys : List FVal) : WireBlock :=
  if ys.any (fun y => y.isNan || y.isInf) then ⟨0x7FC0, ys.map (fun _ => if t5b then 0 else 1), ys.map (fun _ => 0)⟩
  else
    let sum : Dyad := ys.foldl (fun acc y => Dyad.add acc y.abs.dyad) ⟨0, 0⟩
    let s := FSpec.bf16.roundExact .rne 0 true ⟨false, sum.s.natAbs, b, sum.e⟩
    let sv := FSpec.bf16.decode s
    let tau := (sv.mul (.fin false (d.getD 32768) 0)).scale (-16)
    let code := fun (y : FVal) =>
      if t5b then (if tau.lt false y.abs then (if y.sign then (-1 : Int) else 1) else 0) else (if y.sign then -1 else 1)
    ⟨s, ys.map code, ys.map (fun y => residual ember y (wireValue s (code y)))⟩

/-- The bytes of an S1B block (R110). -/
def s1bEncode (b : Nat) (w : WireBlock) : List Byte :=
  leBytes 2 w.scale ++ leBytes (b / 8) (w.codes.zipIdx.foldl (fun acc c => if c.1 < 0 then acc + 2 ^ c.2 else acc) 0)

def trit (c : Int) : Nat := if c = 0 then 0 else if c < 0 then 2 else 1

/-- The byte of up to five trits (R111). -/
def tritByte (cs : List Int) : Nat := cs.zipIdx.foldl (fun acc c => acc + trit c.1 * 3 ^ c.2) 0

/-- The bytes of a T5B block (R111). -/
def t5bEncode (b : Nat) (w : WireBlock) : List Byte :=
  leBytes 2 w.scale ++
    (List.range ((b + 4) / 5)).map (fun j => BitVec.ofNat 8 (tritByte ((w.codes.drop (5 * j)).take 5)))

/-- Element k of a T5B block's bytes: its value and whether its byte is invalid (R111, R506). -/
def t5bElement (bytes : List Byte) (k : Nat) : FVal × Bool :=
  let byte := (bytes.getD (2 + k / 5) 0).toNat
  let digit := byte / 3 ^ (k % 5) % 3
  if 243 ≤ byte then (.fin false 0 0, true)
  else (wireValue (leNat (bytes.take 2)) (if digit = 0 then 0 else if digit = 1 then 1 else -1), false)

/-- Element k of an S1B block's bytes (R110, R112). -/
def s1bElement (bytes : List Byte) (k : Nat) : FVal :=
  wireValue (leNat (bytes.take 2)) (if bit (bytes.getD (2 + k / 8) 0).toNat (k % 8) then -1 else 1)

end Sys2Proof.Machine
end

