-- ==== Sys2Proof/Machine/Convert.lean ====
section
/-! DEFINITION. Convert.lean: conversions and quantisation (R241 to R249, R431 class 0x19, R479). -/

namespace Sys2Proof.Machine

/-! ### CVT (R242, R243) -/

def CvtType.bits : CvtType → Nat
  | .f32 | .s32 | .n32 => 32
  | .f64 | .s64 | .n64 => 64
  | .bf16 | .f16 | .s16 | .n16 => 16
  | .s8 | .n8 => 8
def CvtType.signed : CvtType → Bool
  | .s32 | .s64 | .s16 | .s8 => true
  | _ => false
def CvtType.spec : CvtType → Option FSpec
  | .f32 => some .fp32
  | .bf16 => some .bf16
  | .f16 => some .fp16
  | .f64 => some .fp64
  | _ => none
def cvtWords (t : CvtType) : Nat := if CvtType.bits t = 64 then 2 else 1
def cvtInline : CvtType → Inline
  | .f32 => .f32
  | .f64 => .f64
  | .bf16 => .bf16x2
  | .f16 => .f16x2
  | _ => .int

/-- The exact value of A in the source type. -/
def cvtSource (t : CvtType) (a : Nat) : FVal :=
  match CvtType.spec t with
  | some f => f.decode (a % 2 ^ CvtType.bits t)
  | none => .ofInt (intOf (CvtType.bits t) (CvtType.signed t) a)

/-- An integer result in D: sign-extended for the signed types narrower than 32 bits. -/
def cvtInt (t : CvtType) (n : Int) : Nat := if CvtType.signed t then wrapInt (max 32 (CvtType.bits t)) n else wrapInt (CvtType.bits t) n

/-- D of CVT; `d` is the draw (R243). -/
def cvtValue (dst src : CvtType) (sat : Bool) (mode : Mode) (d a : Nat) : Nat :=
  let v := cvtSource src a
  let w := CvtType.bits dst
  match CvtType.spec dst with
  | some f => f.round mode d sat v
  | none =>
    let lo := intLo w (CvtType.signed dst)
    let hi := intHi w (CvtType.signed dst)
    if (CvtType.spec src).isSome then cvtInt dst (roundInt mode d lo hi v)
    else
      let n := intOf (CvtType.bits src) (CvtType.signed src) a
      if sat then cvtInt dst (clampInt lo hi n) else cvtInt dst (intOf w (CvtType.signed dst) (wrapInt w n))

/-! ### Draws (R126, R241) -/

/-- The draw of element i for position t; that of a uniform conversion is free (log 3). -/
def srDraw (s : State) (x : Iss) (uni : Bool) (t step i : Nat) : Nat :=
  if uni then (Config.freeDraw s.ticks).toNat
  else draw x.g.key64 x.g.stream.toNat (0x40000000 + x.g.index % 2 ^ 30) step ((x.w.wid * x.g.width + t) * 16 + i)

/-- A use of the counter that free values are applied to (log 3). -/
def State.tick (s : State) : State := { s with ticks := s.ticks + 1 }

/-- `writes` for an instruction that may round stochastically: `f` gets the drawing function of the position. -/
def writesSr (sh : Shape) (f : (Nat → Nat → Nat) → List Nat → Nat) : Body := fun x k s =>
  match sh.dst with
  | none => (s, .next [])
  | some d =>
    let s' := k.vals.foldl (fun s' v => s'.writeDst x.r.g x.r.w x.g d v.1 (if k.uni then k.ts else [v.1])
      (regsOf d.n (f (srDraw s x k.uni v.1) (v.2.map regsNat)) (v.2.any regsBad))) s
    (if sh.gen && k.uni then s'.tick else s', .next [])

/-- `compute` for an instruction that may round stochastically. -/
def computeSr (i : Instr) (h : Hdr) (sh : Shape) (per : Nat) (s : State) (f : (Nat → Nat → Nat) → List Nat → Nat) : Result :=
  issue i h sh per s (writesSr sh f)

/-- Threads whose narrow source lies in a poisoned word trap (R441 class 0x19). -/
def partErr (a : Operand) (width : Nat) (bad : List Nat) : List ThreadErr :=
  bad.map (fun t => { t := t, cls := 0x19, addr := 0, detail := a.code + (width - 1) * 2 ^ 16 })

/-- The operands of CVT. -/
def CvtOps.shape (x : CvtOps) : Shape :=
  { srcs := [{ field := 2, op := x.a, n := cvtWords x.src, inl := cvtInline x.src }, srcB x.b 1], dst := some { op := x.d, n := cvtWords x.dst },
    gen := x.mode = .sr }

/-- Thread-cycles of CVT (R220). -/
def CvtOps.cycles (x : CvtOps) : Nat := if CvtType.bits x.src = 64 || CvtType.bits x.dst = 64 then 4 else 1

/-- D of CVT from its sources; `dr` draws. -/
def CvtOps.result (x : CvtOps) (dr : Nat → Nat → Nat) (v : List Nat) : Nat :=
  cvtValue x.dst x.src x.sat x.mode (if x.mode = .sr then dr (arg v 1) 0 else 0) (arg v 0)

/-- The threads whose narrow source is poisoned (R431). -/
def CvtOps.hurt (x : CvtOps) (k : Taken) : List (Nat × List (List Reg)) :=
  if CvtType.bits x.src < 32 then k.vals.filter (fun m => regsBad (m.2.headD [])) else []

/-- CVT (R242, R243). -/
def execCvt (x : CvtOps) (s : State) : Result :=
  issue (.cvt x) x.h (CvtOps.shape x) (CvtOps.cycles x) s fun i k s =>
    let hurt := CvtOps.hurt x k
    let ts := hurt.flatMap (fun m => if k.uni then k.ts else [m.1])
    let s := s.trapAll i.r (partErr x.a (CvtType.bits x.src) ts)
    writesSr (CvtOps.shape x) (CvtOps.result x) i { k with vals := k.vals.filter (fun m => !(hurt.any (fun b => b.1 = m.1))) } s

/-! ### CVT.F8, CVT.F6, CVT.F4 (R244) -/

/-- One element under a scale code. -/
def narrowValue (f : Fmt) (sat : Bool) (mode : Mode) (d a c : Nat) : Nat :=
  let v := FSpec.fp32.decode a
  if c = 0xFF || v.isNan then (fspec f).nanCode
  else match v with
    | .inf n => (fspec f).beyond mode sat n
    | v => (fspec f).round mode d sat (v.scale (127 - (c : Int)))

def narrowShape (x : CvtNarrowOps) : Shape :=
  { srcs := [srcF 2 x.a false, srcB x.b 1, srcC x.c 1], dst := some { op := x.d }, gen := x.mode = .sr }

/-- D of a narrow conversion; `dr` draws. -/
def narrowResult (x : CvtNarrowOps) (f : Fmt) (dr : Nat → Nat → Nat) (v : List Nat) : Nat :=
  narrowValue f x.sat x.mode (if x.mode = .sr then dr (arg v 2) 0 else 0) (arg v 0) (bits (arg v 1) 7 0)

/-- The common course of the three narrow conversions. -/
def narrowCvt (i : Instr) (x : CvtNarrowOps) (f : Fmt) (s : State) : Result := computeSr i x.h (narrowShape x) 1 s (narrowResult x f)

/-- CVT.F8 (R244). -/
def execCvtF8 (x : CvtNarrowOps) (s : State) : Result := narrowCvt (.cvtF8 x) x (if x.alt then .e5m2 else .e4m3) s
/-- CVT.F6 (R244). -/
def execCvtF6 (x : CvtNarrowOps) (s : State) : Result := narrowCvt (.cvtF6 x) x (if x.alt then .e2m3 else .e3m2) s
/-- CVT.F4 (R244). -/
def execCvtF4 (x : CvtNarrowOps) (s : State) : Result := narrowCvt (.cvtF4 x) x (if x.alt then .mxt2 else .e2m1) s

/-! ### Groups of 16 elements (R245 to R248) -/

/-- Bits of an element (R104). -/
def fmtBits : Fmt → Nat
  | .fp32 => 32
  | .bf16 | .fp16 => 16
  | .e4m3 | .e5m2 | .mxe4m3 | .mxe5m2 | .int8 | .s1b | .t5b => 8
  | .e3m2 | .e2m3 => 6
  | .e2m1 => 4
  | .mxt2 => 2
  | .fp64 => 64

/-- Element i of a group as one bit string. -/
def groupElement (f : Fmt) (group i : Nat) : Nat := group / 2 ^ (fmtBits f * i) % 2 ^ fmtBits f

/-- MXQ, scale form (R247). -/
def execMxqScale (x : GroupOps) (s : State) : Result :=
  compute (.mxqScale x) x.h { srcs := [srcF 2 x.a false], dst := some { op := x.d } } 1 s fun _ _ v =>
    mxScaleOf x.fmt (FSpec.fp32.decode (arg v 0)).abs

/-- The operands of MXQ, element form. -/
def mxqShape (x : GroupOps) : Shape :=
  { srcs := [{ srcF 2 x.a false with n := 16, group := true }, srcB x.b 1], dst := some { op := x.d, n := x.fmt.groupRegs, group := true },
    gen := x.mode = .sr }

/-- The group of MXQ, element form; `dr` draws. -/
def mxqGroup (x : GroupOps) (dr : Nat → Nat → Nat) (v : List Nat) : Nat :=
  let b := arg v 1
  (List.range 16).foldl (fun acc i =>
    let d := if x.mode = .sr then dr (bits b 31 8) i else 0
    acc + mxElement x.fmt (bits b 7 0) x.mode d (FSpec.fp32.decode (arg v 0 / 2 ^ (32 * i) % 2 ^ 32)) * 2 ^ (fmtBits x.fmt * i)) 0

/-- MXQ, element form (R247). -/
def execMxq (x : GroupOps) (s : State) : Result := computeSr (.mxq x) x.h (mxqShape x) 4 s (mxqGroup x)

/-- The operands of MXD and UNPK. -/
def pickShape (x : GroupOps) : Shape :=
  { srcs := [{ field := 2, op := x.a, n := x.fmt.groupRegs, group := true }, srcB x.b 1], dst := some { op := x.d } }

/-- The element that MXD or UNPK takes is the code 0b10 of MXT2. -/
def reservedPick (x : GroupOps) (v : List (List Reg)) : Bool :=
  x.fmt = .mxt2 && groupElement .mxt2 (regsNat (v.headD [])) (bits (regsNat (v.getD 1 [])) 3 0) = 2

/-- One element of a group, where code 0b10 of MXT2 is a poisoned 0 that is reported once (R479). -/
def pick (i : Instr) (x : GroupOps) (op : Nat) (s : State) (f : Nat → Nat → Nat) : Result :=
  issue i x.h (pickShape x) 1 s fun y k s =>
    let s := k.vals.foldl (fun s v =>
      let e := groupElement x.fmt (regsNat (v.2.headD [])) (bits (regsNat (v.2.getD 1 [])) 3 0)
      s.writeDst y.r.g y.r.w y.g { op := x.d } v.1 (if k.uni then k.ts else [v.1])
        (regsOf 1 (f e (regsNat (v.2.getD 1 []))) (v.2.any regsBad || reservedPick x v.2))) s
    (if k.vals.any (fun m => reservedPick x m.2) then s.report { s.pathErr y.r 0 0x34 0 0 (op * 64) with pc := y.p.pc } else s, .next [])

/-- MXD (R248). -/
def execMxd (x : GroupOps) (s : State) : Result :=
  pick (.mxd x) x 0x55 s fun e b => FSpec.fp32.round x.mode 0 x.sat (mxValue x.fmt (bits b 15 8) e)

/-- UNPK (R246). -/
def execUnpk (x : GroupOps) (s : State) : Result :=
  pick (.unpk x) x 0x56 s fun e _ => FSpec.fp32.round .rne 0 false (fmtValue x.fmt e)

/-- PACK (R249). -/
def execPack (x : PackOps) (s : State) : Result :=
  compute (.pack x) x.h { srcs := [srcF 2 x.a false, srcF 3 x.b false], dst := some { op := x.d } } 1 s fun _ _ v =>
    let f := halfSpec x.f16
    f.round x.mode 0 x.sat (FSpec.fp32.decode (arg v 0)) + f.round x.mode 0 x.sat (FSpec.fp32.decode (arg v 1)) * 2 ^ 16

end Sys2Proof.Machine
end

