-- ==== Sys2Proof/Machine/Copy.lean ====
section
/-! DEFINITION. Copy.lean: tensor descriptors (R159, R160), the two half-chains (R161, R162, R283 to R289), COPY commands and
their course: acceptance, ownership windows, spilled and stopped commands, completion (R182 to R185, R281, R460 to R466). -/

namespace Sys2Proof.Machine

/-! ### Tensors (R159, R160, R141) -/

structure Tensor where
  base : Nat
  sbase : Nat
  pitch : Nat
  rows : Nat
  cols : Nat
  code : Nat
  bsh : Nat
  lay : Bool
  boff : Nat
  wbk : Nat
deriving DecidableEq, Repr

/-- A descriptor's fields (R159). -/
def Tensor.ofBytes (bs : List Byte) : Tensor :=
  let x := leNat bs
  { base := bits x 63 0, sbase := bits x 127 64, pitch := bits x 159 128, rows := bits x 191 160, cols := bits x 223 192,
    code := bits x 227 224, bsh := bits x 229 228, lay := bit x 230, boff := bits x 233 231, wbk := bits x 235 234 }

def Tensor.fmt (t : Tensor) : Fmt := Fmt.ofCode t.code
def Tensor.isWire (t : Tensor) : Bool := t.code = 12 || t.code = 13
/-- An MX format with a scale array (R282). -/
def Tensor.scaled (t : Tensor) : Bool := ((5 ≤ t.code && t.code ≤ 9) || t.code = 11) && t.sbase ≠ 0
def Tensor.width (t : Tensor) : Nat := fmtBits t.fmt
def Tensor.block (t : Tensor) : Nat := wireBlock t.wbk
def Tensor.blockBytes (t : Tensor) : Nat := if t.code = 12 then s1bBytes t.block else t5bBytes t.block
/-- Blocks of a row of a wire format. -/
def Tensor.rowBlocks (t : Tensor) : Nat := (t.cols + t.block - 1) / t.block
/-- Bytes from one row to the next in linear layout. -/
def Tensor.stride (t : Tensor) : Nat := if t.isWire then t.pitch / t.block * t.blockBytes else t.pitch * t.width / 8
/-- Bytes that a row's elements occupy. -/
def Tensor.rowBytes (t : Tensor) : Nat := if t.isWire then t.rowBlocks * t.blockBytes else (t.boff + t.cols * t.width + 7) / 8
/-- The virtual address of byte c of row i. -/
def Tensor.byteVa (t : Tensor) (i c : Nat) : Nat :=
  if t.lay then t.base + ((i / 32) * ((t.stride + 31) / 32) + c / 32) * 1024 + i % 32 * 32 + c % 32 else t.base + i * t.stride + c
def Tensor.blocks (t : Tensor) : Nat := if t.scaled then mxBlocks t.bsh t.rows t.cols else 0
/-- Byte count of the tensor in memory (R288). -/
def Tensor.byteCount (t : Tensor) : Nat := t.rows * t.rowBytes + t.blocks

/-- The first reason of R460 that a descriptor breaks by itself. -/
def Tensor.broken (t : Tensor) : Option Nat :=
  let b := t.width
  let rowsEnd := if t.rows = 0 || t.rowBytes = 0 then t.base
    else (List.range t.rows).foldl (fun m i => max m (t.byteVa i (t.rowBytes - 1))) 0
  if t.code = 15 || t.bsh = 3 || (t.isWire && t.wbk = 3) || (t.lay && t.boff ≠ 0) then some 1
  else if !t.isWire && t.pitch * b % 8 ≠ 0 then some 2
  else if t.boff ≠ 0 && !(b = 4 && t.boff = 4) && !((b = 6 || b = 2) && (t.boff = 2 || t.boff = 4 || t.boff = 6)) then some 3
  else if t.isWire && t.pitch % t.block ≠ 0 then some 4
  else if 2 ^ 55 ≤ t.base || 2 ^ 55 ≤ t.sbase || 2 ^ 55 ≤ rowsEnd || (t.blocks ≠ 0 && 2 ^ 55 < t.sbase + t.blocks) then some 5
  else none

/-! ### Words of the commands (R283, R285) -/

structure LoadWord where
  list : Nat
  gath : Bool
  tr : Bool
  dq : Nat
  rot : Nat
  rp : Nat
  off : Nat
deriving DecidableEq, Repr

def LoadWord.of (w : W64) : LoadWord :=
  let x := w.toNat
  { list := bits x 63 40, gath := bit x 38, tr := bit x 37, dq := bits x 36 35, rot := bits x 34 32, rp := bits x 31 24, off := bits x 23 0 }

structure StoreWord where
  sstr : Nat
  cz : Bool
  ns : Nat
  sfmt : Nat
  rot : Nat
  rp : Nat
  off : Nat
deriving DecidableEq, Repr

def StoreWord.of (w : W64) : StoreWord :=
  let x := w.toNat
  { sstr := bits x 59 40, cz := bit x 39, ns := bits x 38 37, sfmt := bits x 36 35, rot := bits x 34 32, rp := bits x 31 24, off := bits x 23 0 }

def dqFmt (dq : Nat) : Fmt := if dq = 1 then .fp32 else if dq = 2 then .bf16 else .fp16
/-- Format of a destination element of COPY.LD. -/
def ldFmt (t : Tensor) (w : LoadWord) : Fmt := if w.dq = 0 then t.fmt else dqFmt w.dq
def srcFmt (sfmt : Nat) : Fmt := if sfmt = 0 then .fp32 else if sfmt = 1 then .bf16 else .fp16
/-- Bytes of a destination row of COPY.LD, for n gathered rows (R284, R288). -/
def ldRowBytes (t : Tensor) (w : LoadWord) (n : Nat) : Nat :=
  if t.isWire && w.dq = 0 then t.rowBytes else ((if w.tr then n else t.cols) * fmtBits (ldFmt t w) + 7) / 8
def ldRows (t : Tensor) (w : LoadWord) (n : Nat) : Nat := if w.tr then t.cols else n
def ldByteCount (t : Tensor) (w : LoadWord) (n : Nat) : Nat := ldRows t w n * ldRowBytes t w n

/-! ### Bits of destination lines -/

/-- Bits that a transfer writes: destination row, first bit of it, width, and the value with its tag, or the reason and
address for which the source does not give it. -/
structure Item where
  row : Nat
  off : Nat
  width : Nat
  val : Except (Nat × Nat) (Nat × Bool)

/-- The place of byte c of row u: its line and the byte within it; none where nothing is written. -/
abbrev Placement := Nat → Nat → Option (Bool × Nat × Nat)

def DLine.start (p : Bool × Nat) : DLine := { glob := p.1, at_ := p.2, mask := 0, data := 0, bad := 0 }

/-- Set bits [lo, hi) of byte `o` of a line. -/
def DLine.put (l : DLine) (o lo hi v : Nat) (bad : Bool) : DLine :=
  let m : BitVec 256 := BitVec.ofNat 256 ((2 ^ (hi - lo) - 1) * 2 ^ (8 * o + lo))
  { l with
    mask := l.mask ||| m
    data := (l.data &&& ~~~m) ||| BitVec.ofNat 256 (v % 2 ^ (hi - lo) * 2 ^ (8 * o + lo))
    bad := if bad then l.bad ||| ((1 : BitVec 4) <<< (o / 8)) else l.bad }

/-- Lines of a transfer in order, from the bytes of its destination rows. -/
def linesFor (p : Placement) (rows : List (Nat × Nat)) : List DLine :=
  ((rows.flatMap (fun (u, n) => (List.range n).filterMap (fun c => (p u c).map (fun x => (x.1, x.2.1))))).eraseDups).map DLine.start

/-- Apply one item; a missing value marks the place of its first line. -/
def applyItem (p : Placement) (s : List DLine × Option (Nat × Nat × Nat)) (i : Item) : List DLine × Option (Nat × Nat × Nat) :=
  (List.range' (i.off / 8) ((i.off + i.width + 7) / 8 - i.off / 8)).foldl (fun (ls, halt) c =>
    match p i.row c with
    | none => (ls, halt)
    | some (g, a, o) =>
      match findIdx' (fun (l : DLine) => l.glob = g && l.at_ = a) ls 0 with
      | none => (ls, halt)
      | some (k, _) =>
        let lo := max i.off (8 * c) - 8 * c
        let hi := min (i.off + i.width) (8 * c + 8) - 8 * c
        match i.val with
        | .ok (v, bad) => (ls.modify k (fun l => l.put o lo hi (v / 2 ^ (8 * c + lo - i.off)) bad), halt)
        | .error (r, addr) => (ls, match halt with
          | some (j, r', a') => if k < j then some (k, r, addr) else some (j, r', a')
          | none => some (k, r, addr))) s

def fillItems (p : Placement) (ls : List DLine) (is : List Item) : List DLine × Option (Nat × Nat × Nat) := is.foldl (applyItem p) (ls, none)

/-- Placement in cluster scratchpad from OFF with a row pitch and a rotation code (R138, R284). -/
def scratchPlace (g : Group) (off rp rot : Nat) : Placement := fun u c =>
  (g.locate (off + 16 * rp * u + c)).map (fun (m, l) =>
    let a := rotate rot l
    (false, m * 2 ^ 17 + a / 32, a % 32))

/-- Placement in memory; row number `rows` stands for the scale array (R160). -/
def memoryPlace (t : Tensor) : Placement := fun u c =>
  let va := if u = t.rows then t.sbase + c else t.byteVa u c
  some (true, va / 32, va % 32)

/-! ### The source in memory (R184, R466) -/

/-- The line that holds a byte of a source, and the byte's place in it: a row line (w = 0), or a column line of width w (R142). -/
def srcKey (w va : Nat) : Nat × Nat :=
  if w = 0 then (2 * (va / 32), va % 32) else (2 * (va / 1024 * 32 + va % 32 / w) + 1, va / 32 % 32 * w + va % w)

/-- The first byte of a line. -/
def keyVa (w key : Nat) : Nat := if key % 2 = 0 then 16 * key else key / 2 / 32 * 1024 + key / 2 % 32 * w

/-- The width of the column lines by which elements of a format are read: an element's bytes, 1 for narrower ones (DESIGN CHOICE,
log 48) and for wire blocks. -/
def Tensor.colWidth (t : Tensor) : Nat := if t.isWire then 1 else if t.width = 32 then 4 else if t.width = 16 then 2 else 1

/-- What has been read of a source: the width of its column lines, its lines with their tags, and why and where the reading stopped. -/
structure Cache where
  width : Nat
  lines : List (Nat × List (Byte × Bool))
  stop : Option (Nat × Nat)

/-- The bytes of a column line of a sector: w bytes of each row, row 0 first (R142). -/
def Memory.readCol (m : Memory) (pa w : Nat) : List (Byte × Bool) :=
  (List.range 32).flatMap (fun r => m.readAt (pa + 32 * r) w)

/-- An engine reads a column line that begins at byte `pa` of row 0 of a sector. -/
def State.agentColumn (s : State) (req cls agent w : Nat) (p : Piece) : State × List (Byte × Bool) :=
  let s := s.walked p.via p.e
  let s := { s with mem := s.mem.hold p.via p.e }
  let x := p.pa / 1024
  let s := s.fillSector p.e x (coreOf cls agent)
  let s := ({ s with mem := (s.mem.colSector x false).1 }).served x req false
  let s := (s.watchAny true false ((List.range 32).map (fun r => (p.pa + 32 * r, w))) cls agent).1
  let s := s.noteHeader p.e.ctx (1024 * x) 1024
  (s, s.mem.readCol p.pa w)

/-- Read one line of the source; `who`: request class, agent class and agent. -/
def State.sourceLine (s : State) (c : Ctx) (who : Nat × Nat × Nat) (via : Option TlbPlace) (w key : Nat) :
    State × Except (Nat × Nat) (List (Byte × Bool)) :=
  let va := keyVa w key
  match s.translate c va via with
  | .error _ => (s, .error (1, va))
  | .ok e =>
    if attrCtr e.attr then (s, .error (2, va))
    else
      let p : Piece := { e := e, pa := e.pa va, n := 32, via := via }
      let (s, bs) := if key % 2 = 0 then s.agentRead who.1 who.2.1 who.2.2 p else s.agentColumn who.1 who.2.1 who.2.2 w p
      (s, .ok bs)

/-- Read lines in order, up to one that cannot be read (R466). -/
def State.sourceRead (s : State) (c : Ctx) (who : Nat × Nat × Nat) (via : Option TlbPlace) (w : Nat) : List Nat → State × Cache
  | [] => (s, ⟨w, [], none⟩)
  | k :: ks =>
    match s.sourceLine c who via w k with
    | (s, .error e) => (s, ⟨w, [], some e⟩)
    | (s, .ok bs) =>
      let (s, rest) := s.sourceRead c who via w ks
      (s, { rest with lines := (k, bs) :: rest.lines })

/-- A byte of the source by a line of width w; one that has not been read gives the reason. -/
def Cache.get (k : Cache) (w va : Nat) : Except (Nat × Nat) (Byte × Bool) :=
  let (key, i) := srcKey w va
  match k.lines.find? (fun e => e.1 = key) with
  | some (_, bs) => .ok (bs.getD i (0, false))
  | none => .error (k.stop.getD (1, va))

/-- A byte of an element, and one of the scale array. -/
def Cache.byte (k : Cache) (va : Nat) : Except (Nat × Nat) (Byte × Bool) := k.get k.width va
def Cache.scaleByte (k : Cache) (va : Nat) : Except (Nat × Nat) (Byte × Bool) := k.get 0 va

/-- Bytes c … of row i. -/
def Cache.row (k : Cache) (t : Tensor) (i c n : Nat) : Except (Nat × Nat) (List (Byte × Bool)) :=
  (List.range n).foldr (fun j acc =>
    match k.byte (t.byteVa i (c + j)), acc with
    | .ok b, .ok l => .ok (b :: l)
    | .error e, _ => .error e
    | _, .error e => .error e) (.ok [])

/-- The code of an element, and its tag. -/
def Cache.element (k : Cache) (t : Tensor) (i j : Nat) : Except (Nat × Nat) (Nat × Bool) :=
  let b := t.width
  let off := t.boff + j * b
  let c := off / 8
  (k.row t i c ((off + b + 7) / 8 - c)).map (fun l => (leNat (l.map (·.1)) / 2 ^ (off % 8) % 2 ^ b, l.any (·.2)))

/-- The scale code of an element; 127 without a scale array (R282). -/
def Cache.scale (k : Cache) (t : Tensor) (i j : Nat) : Except (Nat × Nat) (Nat × Bool) :=
  if t.scaled then (k.scaleByte (t.sbase + mxBlockIndex t.bsh t.cols i j)).map (fun b => (b.1.toNat, b.2)) else .ok (127, false)

/-- Lines that the elements of rows of a tensor occupy, by lines of width w, with the lines of their scales when `scales`. -/
def Tensor.keys (t : Tensor) (w : Nat) (rows : List Nat) (scales : Bool) : List Nat :=
  (rows.flatMap (fun i =>
    ((List.range t.rowBytes).map (fun c => (srcKey w (t.byteVa i c)).1)).eraseDups ++
    (if scales && t.scaled then ((List.range t.cols).map (fun j => (srcKey 0 (t.sbase + mxBlockIndex t.bsh t.cols i j)).1)).eraseDups else []))).eraseDups

/-- Lines of the whole scale array. -/
def Tensor.scaleKeys (t : Tensor) : List Nat := ((List.range t.blocks).map (fun k => (srcKey 0 (t.sbase + k)).1)).eraseDups

/-- A value read for a dequantise step: exact value, tag, and class and address of a code that is reported once (R479, R506). -/
structure Deq where
  v : FVal
  bad : Bool
  note : Option (Nat × Nat)
deriving DecidableEq, Repr

/-- The exact value of element (i, j) (R112, R119). -/
def Cache.value (k : Cache) (t : Tensor) (i j : Nat) : Except (Nat × Nat) Deq :=
  if t.isWire then
    let blk := j / t.block
    let c := blk * t.blockBytes
    (k.row t i c t.blockBytes).map (fun l =>
      let bs := l.map (·.1)
      let p := j % t.block
      let head := (l.take 2).any (·.2)
      if t.code = 12 then { v := s1bElement bs p, bad := head || (l.getD (2 + p / 8) (0, false)).2, note := none }
      else
        let (v, wrong) := t5bElement bs p
        { v := v, bad := wrong || head || (l.getD (2 + p / 5) (0, false)).2,
          note := if wrong then some (0x4B, t.byteVa i (c + 2 + p / 5)) else none })
  else
    match k.element t i j, k.scale t i j with
    | .error e, _ => .error e
    | _, .error e => .error e
    | .ok (x, bx), .ok (sc, bs) =>
      let mx := (5 ≤ t.code && t.code ≤ 9) || t.code = 11
      let reserved := t.code = 11 && x = 2
      .ok { v := if mx then mxValue t.fmt sc x else fmtValue t.fmt x, bad := bx || bs || reserved,
            note := if reserved then some (0x34, t.byteVa i ((t.boff + 2 * j) / 8)) else none }

/-! ### The load half-chain (R284) -/

/-- Items of COPY.LD from the rows `rowsIn`, with the notes of its dequantise step. -/
def ldItems (k : Cache) (t : Tensor) (w : LoadWord) (mode : Mode) (sat : Bool) (rowsIn : List Nat) : List Item × List (Nat × Nat) :=
  if t.isWire && w.dq = 0 then
    (rowsIn.zipIdx.flatMap (fun (r, u) => (List.range t.rowBytes).map (fun c =>
      { row := u, off := 8 * c, width := 8, val := (k.byte (t.byteVa r c)).map (fun b => (b.1.toNat, b.2)) })), [])
  else
    let f := ldFmt t w
    let b := fmtBits f
    let cells := rowsIn.zipIdx.flatMap (fun (r, i) => (List.range t.cols).map (fun j => (r, i, j)))
    let item := fun (x : Nat × Nat × Nat) =>
      let (r, i, j) := x
      let (u, v) := if w.tr then (j, i) else (i, j)
      if w.dq = 0 then (({ row := u, off := v * b, width := b, val := k.element t r j } : Item), (none : Option (Nat × Nat)))
      else match k.value t r j with
        | .error e => ({ row := u, off := v * b, width := b, val := .error e }, none)
        | .ok d => ({ row := u, off := v * b, width := b, val := .ok ((fspec f).round mode 0 sat d.v, d.bad) }, d.note)
    let all := cells.map item
    (all.map (·.1), all.filterMap (·.2))

/-! ### The store half-chain (R286) -/

/-- The values that enter the store half-chain: exact sums with tags, and the codes of the first source. -/
abbrev Sums := List (List (FVal × Bool × Nat))

/-- Element (i, j) of a tile as an exact value (R109). -/
def viewSpec : View → FSpec
  | .a56 => .a56
  | .fp32 => .fp32
  | .n12 => .n12

/-- The width in bits of a view. -/
def viewBits : View → Nat
  | .a56 => 56
  | .fp32 => 32
  | .n12 => 21

/-- Bytes of row i of a tile, as its elements stand; zeros where no tile is bound (log 49). -/
def Group.tileRow (g : Group) (n i cols : Nat) : List (Byte × Bool) :=
  match sget none g.tiles (n % 64) with
  | some (t : Tile) => (List.range cols).flatMap (fun j =>
      let (x, bad) := g.accEl (t.off + i * t.cols + j)
      (leBytes 8 (x.toNat % 2 ^ viewBits t.view)).map (fun b => (b, bad)))
  | none => (List.range (8 * cols)).map (fun _ => (0, false))

def Group.tileValue (g : Group) (t : Tile) (i j : Nat) : FVal × Bool :=
  let (x, bad) := g.accEl (t.off + i * t.cols + j)
  ((viewSpec t.view).decode (x.toNat % 2 ^ viewBits t.view), bad)

/-- The place of an element of a scratchpad source, in cluster scratchpad. -/
def stAt (w : StoreWord) (n i j : Nat) : Nat := w.off + 16 * w.sstr * n + 16 * w.rp * i + fmtBits (srcFmt w.sfmt) / 8 * j

/-- The line of scratchpad that holds an offset, and the place in it (R138). -/
def Group.scratchKey (g : Group) (rot o : Nat) : Option (Nat × Nat) :=
  (g.locate o).map (fun (m, l) => (m * 2 ^ 17 + rotate rot l / 32, rotate rot l % 32))

/-- Bytes of a line of scratchpad, with their tags. -/
def State.scratchLine (s : State) (key : Nat) : List (Byte × Bool) :=
  match s.group? (key / 2 ^ 17) with
  | none => []
  | some q => (List.range 32).map (fun i => (sget (0 : Byte) q.scratch (key % 2 ^ 17 * 32 + i), setMem q.scratchBad (key % 2 ^ 17 * 4 + i / 8)))

/-- Lines of the scratchpad sources of a COPY.ST, or rows of its source tiles. -/
def stKeys (g : Group) (t : Tensor) (w : StoreWord) : List Nat :=
  if w.sfmt = 3 then (List.range t.rows).flatMap (fun i => (List.range (w.ns + 1)).map (fun n => 64 * n + i)) else
    ((List.range t.rows).flatMap (fun i => (List.range (w.ns + 1)).flatMap (fun n =>
      ((List.range t.cols).filterMap (fun j => (g.scratchKey w.rot (stAt w n i j)).map (·.1))).eraseDups))).eraseDups

/-- A byte of a line that has been read. -/
def lineByte (src : List (Nat × List (Byte × Bool))) (key o : Nat) : Byte × Bool :=
  match src.find? (fun (e : Nat × List (Byte × Bool)) => e.1 = key) with
  | some e => e.2.getD o (0, false)
  | none => (0, false)

/-- An element of a scratchpad source, from the lines read. -/
def stSource (src : List (Nat × List (Byte × Bool))) (g : Group) (w : StoreWord) (n i j : Nat) : FVal × Bool × Nat :=
  let l := (List.range (fmtBits (srcFmt w.sfmt) / 8)).map (fun b => match g.scratchKey w.rot (stAt w n i j + b) with
    | some (key, o) => lineByte src key o
    | none => ((0, false) : Byte × Bool))
  let x := leNat (l.map (·.1))
  ((fspec (srcFmt w.sfmt)).decode x, l.any (·.2), x)

/-- The sums of the sources (R123, R286). -/
def stSums (src : List (Nat × List (Byte × Bool))) (g : Group) (t : Tensor) (w : StoreWord) (mode : Mode) : Sums :=
  (List.range t.rows).map (fun i => (List.range t.cols).map (fun j =>
    let parts := (List.range (w.ns + 1)).map (fun n =>
      if w.sfmt = 3 then
        let l := (List.range 8).map (fun b => lineByte src (64 * n + i) (8 * j + b))
        let view := match sget none g.tiles ((w.off % 64 + n) % 64) with | some (t : Tile) => t.view | none => .fp32
        ((viewSpec view).decode (leNat (l.map (·.1)) % 2 ^ viewBits view), l.any (·.2), 0)
      else stSource src g w n i j)
    (if w.ns = 0 then ((parts.headD (.nan, false, 0)).1) else sumExact mode (parts.map (·.1)), parts.any (·.2.1),
      (parts.headD (.nan, false, 0)).2.2)))

def Sums.at_ (x : Sums) (i j : Nat) : FVal × Bool × Nat := (x.getD i []).getD j (.fin false 0 0, false, 0)

/-- The draw of the store half-chain's quantiser (R126). -/
def stDraw (c : Cmd) (index step element : Nat) : Nat :=
  if c.mode = .sr then draw c.key c.stream.toNat (0x80000000 + index % 2 ^ 30) step element else 0

/-- Elements of an MX block, in order of rows. -/
def blockCells (t : Tensor) (k : Nat) : List (Nat × Nat) :=
  (List.range t.rows).flatMap (fun i => ((List.range t.cols).filter (fun j => mxBlockIndex t.bsh t.cols i j = k)).map (fun j => (i, j)))

/-- Items of COPY.ST into an element format. -/
def stElementItems (c : Cmd) (index : Nat) (t : Tensor) (w : StoreWord) (x : Sums) : List Item :=
  let b := t.width
  let put := fun (i j v : Nat) (bad : Bool) => ({ row := i, off := t.boff + j * b, width := b, val := .ok (v, bad) } : Item)
  if t.scaled then
    (List.range t.blocks).flatMap (fun k =>
      let cells := blockCells t k
      let vals := cells.map (fun (i, j) => ((x.at_ i j).1, stDraw c index i j))
      let bad := cells.any (fun (i, j) => (x.at_ i j).2.1)
      let (scale, codes) := mxBlock t.fmt c.mode vals
      ((cells.zip codes).map (fun ((i, j), v) => put i j v bad)) ++
        [({ row := t.rows, off := 8 * k, width := 8, val := .ok (scale, bad) } : Item)])
  else
    let same := w.ns = 0 && w.sfmt = t.code && w.sfmt ≠ 3 && !t.lay
    (List.range t.rows).flatMap (fun i => (List.range t.cols).map (fun j =>
      let (v, bad, code) := x.at_ i j
      put i j (if same then code else fmtRound t.fmt c.mode (stDraw c index i j) c.sat v) bad))

/-- Items of COPY.ST into a wire format: whole blocks, missing elements as +0 (R160, R358). -/
def stWireItems (c : Cmd) (index : Nat) (t : Tensor) (x : Sums) : List Item :=
  (List.range t.rows).flatMap (fun i => (List.range t.rowBlocks).flatMap (fun k =>
    let cells := (List.range t.block).map (fun p =>
      if k * t.block + p < t.cols then x.at_ i (k * t.block + p) else ((.fin false 0 0, false, 0) : FVal × Bool × Nat))
    let d := if c.mode = .sr then some (stDraw c index i k) else none
    let q := wireQuant (t.code = 13) .fp32 d t.block (cells.map (·.1))
    let bs := if t.code = 12 then s1bEncode t.block q else t5bEncode t.block q
    let bad := cells.any (·.2.1)
    bs.zipIdx.map (fun (b, o) => ({ row := i, off := 8 * (k * t.blockBytes + o), width := 8, val := .ok (b.toNat, bad) } : Item))))

/-! ### COPY.CP (R287) -/

def cpItems (k : Cache) (a b : Tensor) : List Item :=
  let bytes := a.isWire
  (List.range a.rows).flatMap (fun i =>
    if bytes then (List.range a.rowBytes).map (fun c =>
      ({ row := i, off := 8 * c, width := 8, val := (k.byte (b.byteVa i c)).map (fun x => (x.1.toNat, x.2)) } : Item))
    else (List.range a.cols).map (fun j =>
      ({ row := i, off := a.boff + j * a.width, width := a.width, val := k.element b i j } : Item))) ++
  (if a.scaled && b.scaled then (List.range a.blocks).map (fun n =>
    ({ row := a.rows, off := 8 * n, width := 8, val := (k.scaleByte (b.sbase + n)).map (fun x => (x.1.toNat, x.2)) } : Item)) else [])

/-- Descriptors that disagree (R460 reason 8). -/
def cpDisagree (a b : Tensor) : Bool :=
  a.code ≠ b.code || a.rows ≠ b.rows || a.cols ≠ b.cols || (a.isWire && a.wbk ≠ b.wbk) || (a.sbase ≠ 0 && b.sbase ≠ 0 && a.bsh ≠ b.bsh)

/-! ### A command's destination -/

/-- Placement and destination rows with their bytes, for n gathered rows. -/
def Cmd.dest (c : Cmd) (g : Group) (n : Nat) : Placement × List (Nat × Nat) :=
  let t := Tensor.ofBytes c.desc
  match c.kind with
  | .ld =>
    let w := LoadWord.of c.word
    (scratchPlace g w.off w.rp w.rot, (List.range (ldRows t w n)).map (fun u => (u, ldRowBytes t w n)))
  | _ =>
    let scales := match c.kind with
      | .cp => t.scaled && (Tensor.ofBytes c.desc2).scaled
      | _ => t.scaled
    (memoryPlace t, (List.range t.rows).map (fun u => (u, t.rowBytes)) ++ (if scales then [(t.rows, t.blocks)] else []))

/-- Where the engine of a command finds translations (R152). -/
def Cmd.via (k : Cmd) : Option TlbPlace := some (.cluster k.engine)

/-- The key of a line that an engine owns (R182); 0 without a translation. -/
def State.lineKey (s : State) (c : Ctx) (via : Option TlbPlace) (l : DLine) : Nat :=
  if l.glob then (match s.translate c (32 * l.at_) via with | .ok e => phys32 (e.pa (32 * l.at_)) | .error _ => 0) else 2 * l.at_ + 1

/-- Lines of a window (R182). -/
def windowLines : Nat := 2048

/-- The lines of the window of a command, by places and keys. -/
def State.window (s : State) (c : Ctx) (k : Cmd) : List (Nat × Nat) :=
  (((k.image.drop k.lines).take windowLines).zipIdx).map (fun (l, i) => (k.lines + i, s.lineKey c k.via l))

/-- Take ownership of the window at `lines`. -/
def State.takeWindow (s : State) (c : Ctx) (k : Cmd) : State × Cmd :=
  let (s, n) := s.fresh
  (s, { k with
    owned := s.window c k
    taken := n })

/-- Bytes of a stored element of TLD and TST (R292, R306). -/
def tileBytes : TileFmt → Nat
  | .f32 => 4
  | .bf16 | .f16 => 2
  | .raw => 8

/-- The scratchpad lines that a TST writes, by the keys of owned lines (R182, R306). -/
def MatOp.stLines (o : MatOp) (g : Group) : List Nat :=
  match o.kind, o.a with
  | .tst, .scratch base rp _ rot _ =>
    ((List.range o.bind.rows).flatMap (fun i => ((List.range ((o.bind.cols * tileBytes o.fmt + 15) / 16)).filterMap (fun u =>
      (g.scratchKey rot (base + 16 * rp * i + 16 * u)).map (fun k => 2 * k.1 + 1))).eraseDups)).eraseDups
  | _, _ => []

/-- A transfer that took ownership of the line before number n writes first (R183): a command, a sequencer's transfer, or a TST, which
takes it at its issue. -/
def State.earlierOwner (s : State) (n key : Nat) : Bool :=
  key ≠ 0 && (s.ownedBy (some n) key ||
    s.groups.any (fun g => g.ops.any (fun o => o.stamp < n && (o.stLines g).contains key)))

def State.updCmd (s : State) (id : Nat) (f : Cmd → Cmd) : State := { s with copies := mapIf (fun c => c.id = id) f s.copies }
def State.cmd? (s : State) (id : Nat) : Option Cmd := s.copies.find? (fun c => c.id = id)

/-- The record of a command. -/
def State.cmdErr (s : State) (k : Cmd) (cls addr detail : Nat) : ErrRec :=
  let g := s.group? k.g
  { ErrRec.none with
    addr := BitVec.ofNat 64 addr
    lcyc := s.lcyc 2 k.engine
    cls := cls
    launch := match g with | some g => g.launchId | none => 0
    group := match g with | some g => g.handle | none => 0
    ctx := k.ctx
    acls := 2
    agent := k.engine
    detail := detail }

/-- The rows that a command takes: those of its row list as it stands, or all (R283). -/
def State.listOf (s : State) (g : Group) (k : Cmd) : List Nat :=
  let w := LoadWord.of k.word
  if k.kind = .ld && w.gath then
    let word := fun o => leNat ((s.scratchBytes g 0 o 4).map (·.1))
    (List.range (word w.list)).map (fun i => word (w.list + 4 + 4 * i))
  else
    match k.kind with
    | .cp => List.range (Tensor.ofBytes k.desc2).rows
    | _ => List.range (Tensor.ofBytes k.desc).rows

/-- The first row index that stops a gathered load, by the address of its word (R461). -/
def Cmd.badRow (k : Cmd) (rows : List Nat) : Option Nat :=
  if k.kind = .ld then
    (rows.zipIdx.find? (fun r => (Tensor.ofBytes k.desc).rows ≤ r.1)).map (fun r => (LoadWord.of k.word).list + 4 + 4 * r.2)
  else none

/-- Scratchpad that a command touches out of range is recorded once (R456). -/
def State.cmdOut (s : State) (g : Group) (k : Cmd) (write : Bool) (starts : List (Nat × Nat)) : State :=
  match starts.findSome? (fun (o, n) => s.scratchOut g o n) with
  | some o => s.noteOut k.g o (s.cmdErr k 0x2B o (write.toNat + 2))
  | none => s

/-- The width of the column lines by which a command reads its source: a transpose of an ST32 tensor (R284). -/
def Cmd.width (k : Cmd) : Nat :=
  let t := Tensor.ofBytes k.desc
  if k.kind = .ld && (LoadWord.of k.word).tr && t.lay then t.colWidth else 0

/-- The lines of the source of a command, in the order in which it reads them. -/
def Cmd.keys (k : Cmd) (g : Group) (rows : List Nat) : List Nat :=
  let t := Tensor.ofBytes k.desc
  match k.kind with
  | .ld => t.keys k.width rows ((LoadWord.of k.word).dq ≠ 0)
  | .st => stKeys g t (StoreWord.of k.word)
  | .cp =>
    let b := Tensor.ofBytes k.desc2
    b.keys 0 rows false ++ (if t.scaled && b.scaled then b.scaleKeys else [])

/-- Read lines of the source of a command. -/
def State.readKeys (s : State) (c : Ctx) (k : Cmd) (keys : List Nat) : State × Cache :=
  match k.kind with
  | .st =>
    let w := StoreWord.of k.word
    (s, ⟨0, keys.map (fun a => (a, match w.sfmt, s.group? k.g with
      | 3, some g => g.tileRow (w.off % 64 + a / 64) (a % 64) (Tensor.ofBytes k.desc).cols
      | _, _ => s.scratchLine a)), none⟩)
  | _ => s.sourceRead c (3, 2, k.engine) k.via k.width keys

/-- Report what the dequantise step met, once for each class (R479, R506). -/
def State.noteDeq (s : State) (k : Cmd) (notes : List (Nat × Nat)) : State × Cmd :=
  [0x34, 0x4B].foldl (fun ((s, k) : State × Cmd) cls =>
    match notes.find? (fun n => n.1 = cls) with
    | some (_, addr) =>
      if k.noted.contains cls then (s, k)
      else
        let e := if cls = 0x34 then { s.cmdErr k cls addr (0x90 * 64) with pc := k.pc } else s.cmdErr k cls addr 0
        (s.report e, { k with noted := cls :: k.noted })
    | none => (s, k)) (s, k)

/-- The destination lines of a command with their data, from what it has read of its source. -/
def State.form (s : State) (g : Group) (k : Cmd) (rows : List Nat) (stop : Option (Nat × Nat)) : State × Cmd :=
  let t := Tensor.ofBytes k.desc
  let cache : Cache := ⟨k.width, k.src, stop⟩
  let (p, bytes) := k.dest g rows.length
  match k.kind with
  | .ld =>
    let w := LoadWord.of k.word
    let s := s.cmdOut g k true (bytes.map (fun (u, n) => (w.off + 16 * w.rp * u, n)))
    let (items, notes) := ldItems cache t w k.mode k.sat rows
    let (image, halt) := fillItems p (linesFor p bytes) items
    let (s, k) := s.noteDeq k notes
    (s, { k with image := image, read := true, halt := halt, count := ldByteCount t w rows.length })
  | .st =>
    let w := StoreWord.of k.word
    let s := if w.sfmt = 3 then s else s.cmdOut g k false ((List.range (w.ns + 1)).flatMap (fun n =>
      (List.range t.rows).map (fun i => (stAt w n i 0, t.cols * fmtBits (srcFmt w.sfmt) / 8))))
    let sums := stSums k.src g t w k.mode
    let items := if t.isWire then stWireItems k g.index t sums else stElementItems k g.index t w sums
    let (image, halt) := fillItems p (linesFor p bytes) items
    (s, { k with image := image, read := true, halt := halt, count := t.byteCount })
  | .cp =>
    let (image, halt) := fillItems p (linesFor p bytes) (cpItems cache t (Tensor.ofBytes k.desc2))
    (s, { k with image := image, read := true, halt := halt, count := t.byteCount })

/-- A command knows its rows: the list of a gathered load is read, and the window taken at its issue holds the lines that follow. -/
def State.readList (s : State) (g : Group) (c : Ctx) (k : Cmd) : Cmd :=
  match k.list with
  | some _ => k
  | none =>
    let rows := s.listOf g k
    let (p, bytes) := k.dest g rows.length
    let k := { k with
      list := some rows
      image := if (k.badRow rows).isSome then [] else linesFor p bytes }
    { k with owned := s.window c k }

/-- A command reads up to n more lines of its source, each once (R184); with the last of them it has its destination lines. It stops at
a row index that is out of range before anything else is read (R461), and at a line that cannot be read (R466). -/
def State.readMore (s : State) (k : Cmd) (n : Nat) : State × Cmd :=
  match s.group? k.g, s.ctx? k.ctx with
  | some g, some c =>
    let k := s.readList g c k
    let rows := k.list.getD []
    match k.badRow rows with
    | some addr => (s, { k with read := true, halt := some (0, 3, addr) })
    | none =>
      let todo := (k.keys g rows).filter (fun a => !(k.src.any (fun e => e.1 = a)))
      let (s, got) := s.readKeys c k (todo.take n)
      let k := { k with src := k.src ++ got.lines }
      if got.stop.isSome || todo.length ≤ n then s.form g k rows got.stop else (s, k)
  | _, _ => (s, k)

/-- Lines that a command has still to read of its source, at most. -/
def State.toRead (s : State) (k : Cmd) : Nat :=
  match s.group? k.g with
  | some g => (k.keys g (k.list.getD (s.listOf g k))).length
  | none => 0

/-! ### Writing a line -/

/-- How the writing of a line ends. -/
inductive LineEnd
  | done
  /-- The page stands at WB: the command pauses at the line (R454). -/
  | stalled
  /-- No free spill entry (R465). -/
  | full
  | stop (reason addr : Nat)
deriving DecidableEq, Repr

/-- Bytes of a line after the masked bits are replaced. -/
def DLine.onto (l : DLine) (old : List Byte) : List Byte :=
  leBytes 32 ((l.data &&& l.mask) ||| (BitVec.ofNat 256 (leNat old) &&& ~~~l.mask)).toNat
def DLine.byteMask (l : DLine) : List Nat := (List.range 32).filter (fun i => (l.mask >>> (8 * i)).setWidth 8 != (0 : BitVec 8))
/-- Tag of word w of a line, from its old tag (R416, R417). -/
def DLine.tag (l : DLine) (w : Nat) (old : Bool) : Bool :=
  l.bad.getLsbD w || (old && (l.mask >>> (64 * w)).setWidth 64 != (0xFFFFFFFFFFFFFFFF : BitVec 64))

/-- The whole line is written, with zeros and without poison. -/
def DLine.zero (l : DLine) : Bool := l.mask = BitVec.allOnes 256 && l.data = 0 && l.bad = 0

/-- A line of the LLC is as the base die has it (R161). -/
def Memory.clean (m : Memory) (line : Nat) : Memory :=
  let t := m.sector (line / 32)
  if t.orient = .absent then m else m.setSector (line / 32) { t with dirty := t.dirty &&& ~~~((1 : BitVec 32) <<< (line % 32)) }

/-- Write a line of global memory at its physical address. The compress step sends a line of zeros of a CMP page to the base die as a
mask update, so that nothing of it is left to write back (R161). -/
def State.putLine (s : State) (e : TlbEntry) (pa : Nat) (k : Cmd) (l : DLine) : State :=
  let engine := k.engine
  let s := s.walked k.via e
  let s := { s with mem := s.mem.hold k.via e }
  let s := if l.mask = BitVec.allOnes 256 then s else s.fillLine e (pa / 32) (coreOf 2 engine)
  let (m, turned) := s.mem.rowLine (pa / 32) true
  let m := if k.kind = .st && (StoreWord.of k.word).cz && l.zero && attrCmp e.attr then m.clean (pa / 32) else m
  let s := ({ s with mem := m }).served (pa / 1024) 3 turned
  let tags := (List.range 4).filter (fun w => l.tag w (setMem s.mem.bad (pa / 8 + w)))
  let m := s.mem.write pa (l.onto (s.mem.bytes pa 32)) false
  let s := { s with mem := { m with bad := tags.foldl (fun b w => setIns b (pa / 8 + w)) m.bad } }
  match l.byteMask.head?, l.byteMask.getLast? with
  | some a, some b => (s.watch false true (pa + a) (b + 1 - a) 2 engine).1.hostWrite e.ctx pa 32
  | _, _ => s

/-- Write a line of scratchpad. -/
def State.putScratchLine (s : State) (l : DLine) : State :=
  s.updGroup (l.at_ / 2 ^ 17) (fun q =>
    let a := l.at_ % 2 ^ 17 * 32
    let old := (List.range 32).map (fun i => sget (0 : Byte) q.scratch (a + i))
    let tags := fun (b : List Nat) => (List.range 4).foldl (fun b w =>
      if (l.mask >>> (64 * w)).setWidth 64 = (0 : BitVec 64) then b else setPut b (a / 8 + w) (l.tag w (setMem b (a / 8 + w)))) b
    { q with
      scratch := putCells q.scratch a (l.onto old)
      scratchBad := tags q.scratchBad })

/-- The spill area of a save area, when it can be used (R462, R465). -/
def spillBase (a : Nat) : Option Nat := if a = 0 || a % 65536 ≠ 0 || !(backed (a + 0x1E0000)) then none else some (a + 0x1E0000)

/-- The spill area of a context: where its live entries stand, otherwise that of CTXSAVE. -/
def State.spillHome (s : State) (c : Ctx) : Option Nat :=
  let live := s.copies.any (fun k => k.ctx = c.num && (k.spilled != 0 || !k.again.isEmpty))
  spillBase (if live && c.spillAt != 0 then c.spillAt else c.ctxSave).toNat

/-- VALID, ticket, engine and address of a spill entry (R463). -/
def State.spillEntry (s : State) (base i : Nat) : Bool × Nat × Nat × Nat :=
  let x := s.mem.nat (base + 64 * i) 32
  (bit x 64, bits x 223 192, bits x 191 176, bits x 63 0)

/-- Row requests of a copy engine for lines of the spill area. -/
def State.spillRows (s : State) (a n : Nat) (write : Bool) : State :=
  (linesOf a n).foldl (fun s l =>
    let (m, turned) := s.mem.rowLine l write
    ({ s with mem := m }).served (l / 32) 3 turned) s

/-- Write a spill entry. -/
def State.putSpill (s : State) (base i va engine ticket : Nat) (l : DLine) : State :=
  let bmask := l.byteMask.foldl (fun m b => m + 2 ^ b) 0
  let head := va + 2 ^ 64 + engine % 2 ^ 16 * 2 ^ 176 + ticket % 2 ^ 32 * 2 ^ 192 + bmask * 2 ^ 224
  let a := base + 64 * i
  let m := s.mem.write a (leBytes 32 head ++ leBytes 32 (l.data &&& l.mask).toNat) false
  let tags := (List.range 4).filter (fun w => l.bad.getLsbD w)
  ({ s with mem := { m with bad := tags.foldl (fun b w => setIns b (a / 8 + 4 + w)) m.bad } }).spillRows a 64 true

/-- Divert a line to the spill area (R462, R465). -/
def State.spill (s : State) (c : Ctx) (k : Cmd) (l : DLine) : State × LineEnd :=
  let va := 32 * l.at_
  match s.spillHome c with
  | none => (s, .stop 5 va)
  | some base =>
    match (List.range 2048).find? (fun i => !(s.spillEntry base i).1) with
    | none =>
      let s := match k.ticket with
        | some t => s.patch k.ctx t (fun x => x ||| 2 ^ 12)
        | none => s
      (s, .full)
    | some i =>
      let (s, ticket) := match k.ticket with
        | some t => (s.patch k.ctx t (fun x => if bits x 11 0 = 0xFFF then x else x + 1), some t)
        | none => s.emit (s.cmdErr k 0x29 va 1)
      let s := s.updCmd k.id (fun k => { k with
        ticket := ticket
        spilled := k.spilled + 1 })
      let s := s.updCtx k.ctx (fun c => { c with spillAt := BitVec.ofNat 64 (base - 0x1E0000) })
      (s.putSpill base i va k.engine (ticket.getD 0) l, .done)

/-- Write one destination line of a command. -/
def State.writeLine (s : State) (k : Cmd) (l : DLine) : State × LineEnd :=
  if !l.glob then (s.putScratchLine l, .done)
  else
    match s.ctx? k.ctx with
    | none => (s, .done)
    | some c =>
      let va := 32 * l.at_
      match s.translate c va k.via with
      | .error _ => s.spill c k l
      | .ok e =>
        if !attrW e.attr then s.spill c k l
        else if attrCtr e.attr then (s, .stop 4 va)
        else if attrWb e.attr then
          let (s, id) := s.fresh
          let st : Stall := { id := id, ctx := k.ctx, va := BitVec.ofNat 64 va, by_ := .copy k.id, ready := false }
          ({ s with mem := { s.mem with stalls := s.mem.stalls ++ [st] } }, .stalled)
        else (s.putLine e (e.pa va) k l, .done)

/-- Stop a command for a reason of R466. -/
def State.stopCmd (s : State) (k : Cmd) (reason addr : Nat) : State :=
  let (s, ticket) := match s.folds k.ctx with
    | some s => (s, none)
    | none => s.emit (s.cmdErr k 0x2A addr reason)
  s.updCmd k.id (fun k => { k with
    st := .stopped reason
    stopTicket := ticket })

/-- Write the line at a place of the window; answers whether the command goes on. -/
def State.writePlace (s : State) (id place : Nat) : State × Bool :=
  match s.cmd? id with
  | none => (s, false)
  | some k =>
    match k.halt with
    | some (at_, reason, addr) => if at_ ≤ place then (s.stopCmd k reason addr, false) else go k
    | none => go k
where
  go (k : Cmd) : State × Bool :=
    match k.image[place]? with
    | none => (s, false)
    | some l =>
      if k.owned.any (fun o => o.1 = place && s.earlierOwner k.taken o.2) then (s, false)
      else match s.writeLine k l with
      | (s, .done) => (s.updCmd id (fun k => { k with owned := k.owned.filter (fun o => o.1 ≠ place) }), true)
      | (s, .stalled) => (s, false)
      | (s, .full) => (s.updCmd id (fun k => { k with st := .paused }), false)
      | (s, .stop r a) => (s.stopCmd k r a, false)

/-- Write the lines of the window that are left, in order, while the command goes on. -/
def State.writeWindow (s : State) (id : Nat) : List Nat → State
  | [] => s
  | p :: ps => match s.writePlace id p with
    | (s, true) => s.writeWindow id ps
    | (s, false) => s

/-- A finished command leaves its engine and its slot. -/
def State.dropCmd (s : State) (id : Nat) : State := { s with copies := s.copies.filter (fun c => c.id ≠ id) }

/-! ### Spill entries: replay and abort (R464, R465) -/

/-- A line from a spill entry. -/
def State.spillLine (s : State) (base i : Nat) : DLine :=
  let a := base + 64 * i
  let bmask := bits (s.mem.nat a 32) 255 224
  let mask := (List.range 32).foldl (fun (m : BitVec 256) b => if bit bmask b then m ||| (0xFF <<< (8 * b)) else m) 0
  let bad := (List.range 4).foldl (fun (m : BitVec 4) w => if setMem s.mem.bad (a / 8 + 4 + w) then m ||| (1 <<< w) else m) 0
  { glob := true, at_ := bits (s.mem.nat a 32) 63 0 / 32, mask := mask, data := BitVec.ofNat 256 (s.mem.nat (a + 32) 32), bad := bad }

/-- Clear VALID of an entry. -/
def State.freeSpill (s : State) (base i : Nat) : State :=
  ({ s with mem := s.mem.write (base + 64 * i + 8) (leBytes 1 0) false }).spillRows (base + 64 * i + 8) 1 true

/-- The entries of a ticket, lowest index first. -/
def State.spillOf (s : State) (base engine ticket : Nat) : List Nat :=
  (List.range 2048).filter (fun i =>
    let (v, t, e, _) := s.spillEntry base i
    v && t = ticket % 2 ^ 32 && e = engine % 2 ^ 16)

/-- REPLAY: the engine is to write the entries through the translation in force; a stopped command goes on. -/
def State.replayCmd (s : State) (k : Cmd) : State :=
  let mine := match k.ticket, (s.ctx? k.ctx).bind s.spillHome with
    | some ticket, some base => s.spillOf base k.engine ticket
    | _, _ => []
  s.updCmd k.id (fun k => { k with
    st := if k.st = .queued then .queued else .running
    read := k.read && (k.halt.isNone || k.image.isEmpty)
    halt := if k.image.isEmpty then k.halt else none
    ticket := none
    stopTicket := none
    again := k.again ++ mine })

/-- ABORT: the entries are discarded, and the command ends without an add. -/
def State.abortCmd (s : State) (k : Cmd) : State :=
  let s := match (s.ctx? k.ctx).bind s.spillHome with
    | some base => (k.again ++ (match k.ticket with | some t => s.spillOf base k.engine t | none => [])).foldl (fun s i => State.freeSpill s base i) s
    | none => s
  (s.dropCmd k.id).tryEnd k.g

/-- A paused command of the context goes on after a replay or an abort (R465). -/
def State.unpause (s : State) (ctx : Nat) : State :=
  { s with copies := mapIf (fun c => c.ctx = ctx && c.st = .paused) (fun c => { c with st := .running }) s.copies }

/-- Write the replayed entries in ascending index; one that fails again is spilled anew. -/
def State.writeAgain (s : State) (id base : Nat) : List Nat → State
  | [] => s
  | i :: rest =>
    match s.cmd? id with
    | none => s
    | some k =>
      let drop := fun (s : State) => (State.freeSpill s base i).updCmd id (fun k => { k with
        again := k.again.filter (· ≠ i)
        spilled := k.spilled - 1 })
      match (s.spillRows (base + 64 * i) 64 false).writeLine k (s.spillLine base i) with
      | (s, .done) => State.writeAgain (drop s) id base rest
      | (s, .stalled) => s
      | (s, .full) => s.updCmd id (fun k => { k with st := .paused })
      | (s, .stop r a) => s.stopCmd k r a

/-- Commands in progress at an engine (R281). -/
def State.inProgress (s : State) (engine : Nat) : Nat := (s.copies.filter (fun c => c.engine = engine && c.st = CmdSt.running)).length

/-- A stalled write of the command waits at a WB page. -/
def State.cmdStalled (s : State) (id : Nat) : Bool := s.mem.stalls.any (fun x => x.by_ = .copy id)

/-- Sector of a destination line: of memory, or 1 KiB of scratchpad. -/
def DLine.sector (l : DLine) : Bool × Nat := (l.glob, l.at_ / 32)

/-- Lines that a command has written, and lines that it has not. -/
def Cmd.written (k : Cmd) : List DLine :=
  k.image.take k.lines ++ (((k.image.drop k.lines).take windowLines).zipIdx.filter (fun l => !(k.owned.any (fun o => o.1 = k.lines + l.2)))).map (·.1)

/-- A place of the window whose sector is written in part: a pause comes after it (R81, R289). -/
def Cmd.within (k : Cmd) (place : Nat) : Bool :=
  match k.image[place]? with
  | some l => k.read && k.written.any (fun q => q.sector = l.sector)
  | none => false

/-- A command stands at a sector boundary, as far as it can go by itself. -/
def State.atBoundary (s : State) (k : Cmd) : Bool :=
  k.st != .running || s.cmdStalled k.id || k.owned.all (fun o => !(k.within o.1) || s.earlierOwner k.taken o.2)

/-- The context of a command runs, and its gang is not stopped. -/
def State.cmdLives (s : State) (k : Cmd) : Bool :=
  (match s.group? k.g with | some g => !g.stop | none => true) &&
  (match s.ctx? k.ctx with | some c => decide (c.run = .running) | none => false)

/-- A command can go on: it lives, and is in progress or may begin (at most 8 per engine, in order of acceptance). -/
def State.cmdRuns (s : State) (k : Cmd) : Bool :=
  s.cmdLives k && !(s.cmdStalled k.id) &&
  (k.st = .running || (k.st = .queued && s.inProgress k.engine < 8 &&
    (match s.copies.find? (fun c => c.engine = k.engine && c.st = CmdSt.queued) with | some f => f.id = k.id | none => false)))

/-- A command of a context that stops writes the rest of a sector that it has begun (R81). -/
def State.cmdPauses (s : State) (k : Cmd) : Bool :=
  (match s.group? k.g with | some g => !g.stop | none => true) && k.st = .running && k.read && !(s.cmdStalled k.id) &&
  (match s.ctx? k.ctx with | some c => c.run = .stopping || c.run = .contained | none => false)

/-- A running command has read its source. -/
def State.begin_ (s : State) (k : Cmd) : State :=
  if k.read then s.updCmd k.id (fun k => { k with st := .running })
  else
    let (s, k') := s.readMore k (s.toRead k)
    s.updCmd k.id (fun _ => { k' with st := .running })

/-- The key of a command's own events (R79: class 3). -/
def cmdKey (cmd : Nat) : Nat × Nat := (4, cmd)

/-- A command reads one more line of its source (R184). -/
def State.sourceTurn (s : State) (cmd : Nat) : Result :=
  match s.cmd? cmd with
  | none => notNow s
  | some k =>
    if s.cmdRuns k && !k.read then
      s.attempt (cmdKey cmd) 3 fun s =>
        let (s, k') := s.readMore k 1
        .next (s.updCmd cmd (fun _ => { k' with st := .running }))
    else notNow s

/-- A command writes replayed lines and the rest of its window, or stops where its source did. -/
def State.workOn (s : State) (cmd : Nat) (places : List Nat) : State :=
  let s := match (s.cmd? cmd).bind (fun k => (s.ctx? k.ctx).bind s.spillHome), s.cmd? cmd with
    | some base, some k => if k.again.isEmpty then s else s.writeAgain cmd base k.again
    | _, _ => s
  match s.cmd? cmd with
  | none => s
  | some k =>
    if k.st != .running || s.cmdStalled cmd then s
    else
      let mine := (k.owned.map (·.1)).filter (fun p => places.contains p || !k.read)
      match k.halt with
      | some (at_, r, a) => if k.owned.all (fun o => at_ ≤ o.1) && at_ < k.lines + windowLines then s.stopCmd k r a else s.writeWindow cmd mine
      | none => s.writeWindow cmd mine

/-- A command that has written its window takes the next one (R182). -/
def State.nextWindow (s : State) (cmd : Nat) : State :=
  match s.cmd? cmd with
  | none => s
  | some k =>
    match s.ctx? k.ctx with
    | some c =>
      if k.owned.isEmpty && k.lines + windowLines < k.image.length && k.st = .running then
        let (s, k) := s.takeWindow c { k with lines := k.lines + windowLines }
        s.updCmd cmd (fun _ => k)
      else s
    | none => s

/-- OWNERSHIP_WINDOW: a command writes the rest of its window and takes the next (R182); one whose context stops writes the rest of the
sectors that it has begun (R81, R289). -/
def execOwnershipWindow (cmd : Nat) (s : State) : Result :=
  match s.cmd? cmd with
  | none => notNow s
  | some k =>
    if s.cmdPauses k then
      let places := (k.owned.map (·.1)).filter k.within
      if s.atBoundary k || places.isEmpty then notNow s else s.attempt (cmdKey cmd) 3 fun s => .next (s.writeWindow cmd places)
    else
      let behind : Bool := match k.owned.head? with
        | some o => k.read && k.again.isEmpty && k.halt.isNone && s.earlierOwner k.taken o.2
        | none => false
      if !(s.cmdRuns k) || behind || (k.read && k.owned.isEmpty && k.again.isEmpty && k.image.length ≤ k.lines + windowLines && k.halt.isNone) then
        notNow s
      else s.attempt (cmdKey cmd) 3 fun s =>
        let s := s.begin_ k
        let places := match s.cmd? cmd with
          | some k => k.owned.map (·.1)
          | none => []
        .next ((s.workOn cmd places).nextWindow cmd)

/-- OWNERSHIP_RECALL_COMPLETE: the engine writes one line that it owns; accesses that wait for it are served after it. -/
def execOwnershipRecallComplete (cmd line : Nat) (s : State) : Result :=
  match s.cmd? cmd with
  | none => notNow s
  | some k =>
    match k.owned.find? (fun o => o.2 = line) with
    | none => notNow s
    | some (place, _) =>
      if (s.cmdRuns k || (s.cmdPauses k && k.within place)) && !(s.earlierOwner k.taken line) then
        s.attempt (cmdKey cmd) 3 fun s => .next (((s.begin_ k).writePlace cmd place).1)
      else notNow s

/-- The counter of a command stands on a page at WB: its completion add cannot be made yet (R157, R281). -/
def State.addWaits (s : State) (k : Cmd) : Bool :=
  match k.ctr, s.ctx? k.ctx with
  | some a, some c => !k.csp && s.wbRange c (a.toNat / 16 * 16) 16 k.via
  | _, _ => false

/-- COPY_COMPLETE: every line is written and none is spilled: the byte count is added to the counter (R185, R281, R288). Until the add
has been made, the command keeps its slot. -/
def execCopyComplete (cmd : Nat) (s : State) : Result :=
  match s.cmd? cmd with
  | none => notNow s
  | some k =>
    if k.st = .running && k.read && k.owned.isEmpty && k.image.length ≤ k.lines + windowLines && k.halt.isNone && k.spilled = 0 && k.again.isEmpty &&
        s.cmdRuns k then
      if s.addWaits k then
        let (s, id) := s.fresh
        let st : Stall := { id := id, ctx := k.ctx, va := k.ctr.getD 0, by_ := .copy k.id, ready := false }
        .next { s with mem := { s.mem with stalls := s.mem.stalls ++ [st] } }
      else s.attempt (cmdKey cmd) 3 fun s =>
        let n := k.count
        let s := ((s.dropCmd cmd).count 2 k.engine 1 1).count 2 k.engine 2 n
        let s := match k.ctr, s.group? k.g with
          | some a, some g => s.advanceOf g k.csp a n 2 k.engine
          | _, _ => s
        .next (s.tryEnd k.g)
    else notNow s

/-! ### Issue (R281, R460) -/

/-- A free slot of a group (R101, R281). -/
def State.slotOf (s : State) (g : Group) : Option Nat :=
  let used := g.ops.map (·.slot) ++ (s.copies.filter (fun c => c.g = g.key)).map (·.slot) ++ (s.kops.filter (fun o => o.g = g.key)).filterMap (·.slot)
  (List.range Config.groupSlots).find? (fun i => !(used.contains i))

def State.copyRoom (s : State) (g : Group) : Option Nat :=
  if Config.copyAccepted ≤ (s.copies.filter (fun c => c.engine = clusterOf g.core)).length then none else s.slotOf g

/-- A descriptor as the issue reads it: its bytes and tag, or reason 10. -/
def State.descriptor (s : State) (i : Iss) (va : Nat) : Except Nat (State × List Byte × Bool) :=
  if va % 32 ≠ 0 || 2 ^ 55 ≤ va then .error 10
  else match s.engineRead i.c va 32 2 1 i.g.core i.g.via with
    | none => .error 10
    | some (s, bs) => .ok (s, bs.map (·.1), bs.any (·.2))

/-- Reasons of R460 that concern the scratchpad end of a load. -/
def ldBroken (t : Tensor) (w : LoadWord) (n : Option Nat) : Option Nat :=
  if w.rp = 0 || w.off % 16 ≠ 0 || (w.gath && w.list % 4 ≠ 0) || (match n with | some n => 16 * w.rp < ldRowBytes t w n | none => !w.tr && 16 * w.rp < ldRowBytes t w 0)
  then some 6
  else if w.tr && ((w.dq = 0 && t.width < 8) || (t.isWire && w.dq = 0)) then some 7
  else none

def stBroken (g : Group) (t : Tensor) (w : StoreWord) : Option Nat :=
  if w.sfmt ≠ 3 && (w.rp = 0 || w.off % 16 ≠ 0 || 16 * w.rp < t.cols * fmtBits (srcFmt w.sfmt) / 8) then some 6
  else if w.sfmt = 3 && (List.range (w.ns + 1)).any (fun n => match sget none g.tiles ((w.off % 64 + n) % 64) with
      | some tile => tile.rows ≠ t.rows || tile.cols ≠ t.cols
      | none => true) then some 9
  else none

def CopyOps.shape (x : CopyOps) (gen : Bool) : Shape :=
  let src := fun f (o : Operand) => ({ field := f, op := o, n := 2, uni := true } : Src)
  { srcs := [src 2 x.a, src 3 x.b, src 4 x.c], uni := some true, suppress := true, gen := gen }

/-- A COPY is accepted: its command takes a slot and the destination's first window (R182, R281). `da`, `db`: its descriptors; `b`: its
word; `ctr`: its counter. -/
def State.acceptCopy (s : State) (y : Iss) (x : CopyOps) (kind : CopyKind) (slot : Nat) (da db : List Byte) (b ctr : Nat) : State :=
  let (s, id) := s.fresh
  let engine := clusterOf y.g.core
  let word := BitVec.ofNat 64 b
  let cmd : Cmd := { id := id, engine := engine, ctx := y.g.ctx, g := y.r.g, slot := slot, pc := y.p.pc, kind := kind, desc := da,
                     desc2 := db, word := word, ctr := if x.c = .vz then none else some (BitVec.ofNat 64 ctr), csp := x.csp,
                     sat := x.sat, mode := x.mode, key := y.g.key64, stream := y.g.stream, st := .queued, image := [], read := false,
                     src := [], list := none, noted := [], halt := none, lines := 0, owned := [], ticket := none, stopTicket := none,
                     spilled := 0, again := [], count := 0, taken := 0 }
  let rows := s.listOf y.g cmd
  let (p, bytes) := cmd.dest y.g rows.length
  let (s, cmd) := s.takeWindow y.c { cmd with
    list := if kind = .ld && (LoadWord.of word).gath then none else some rows
    image := if (cmd.badRow rows).isSome then [] else linesFor p bytes }
  ({ s with copies := s.copies ++ [cmd] }).count 2 engine 0 1

/-- The lowest reason of R460 for which a COPY is rejected, with the address that the record gives; `a` and `b` are its first words. -/
def copyReason (y : Iss) (kind : CopyKind) (t u : Tensor) (a b : Nat) : Option (Nat × Nat) :=
  let word := BitVec.ofNat 64 b
  let own := match kind with
    | .ld => (ldBroken t (LoadWord.of word) (if (LoadWord.of word).gath then none else some t.rows)).map (fun r => (r, a))
    | .st => (stBroken y.g t (StoreWord.of word)).map (fun r => (r, a))
    | .cp => (u.broken.map (fun r => (r, b))).orElse (fun _ => if cpDisagree t u then some (8, a) else none)
  match t.broken, own with
  | some r, some (q, addr) => if q < r then some (q, addr) else some (r, a)
  | some r, none => some (r, a)
  | none, o => o

/-- The common course of the three COPY instructions: rejection (R460), delay for room (R281), acceptance. `read` gives, from the
descriptor, the second descriptor's address if any, and `check` the reason of R460. -/
def copyIssue (i : Instr) (x : CopyOps) (kind : CopyKind) (s : State) : Result :=
  issue i x.h (CopyOps.shape x (kind = .st)) 1 s fun y k s' =>
    if s.fenceWaits y x.h .sc then (s.putOff, .stay)
    else
      let v := (k.vals.headD (0, [])).2
      let a := regsNat (v.getD 0 [])
      let b := regsNat (v.getD 1 [])
      let ctr := regsNat (v.getD 2 [])
      let reject := fun (s : State) (reason addr : Nat) => (s.faultPath y 0x28 addr reason, Flow.stay)
      s.reached (PathRef.waitKey y.r y.p) 2 <|
      if v.any regsBad then reject s' 11 a
      else
        match s'.descriptor y a with
        | .error r => reject s' r a
        | .ok (s1, da, bad) =>
          let t := Tensor.ofBytes da
          let second : Except (Nat × Nat) (State × List Byte) :=
            if kind = .cp then
              match s1.descriptor y b with
              | .error r => .error (r, b)
              | .ok (s2, db, bad2) => if bad2 then .error (11, b) else .ok (s2, db)
            else .ok (s1, [])
          if bad then reject s1 11 a
          else
            match second with
            | .error (r, addr) => reject s1 r addr
            | .ok (s2, db) =>
              match copyReason y kind t (Tensor.ofBytes db) a b with
              | some (r, addr) => reject s2 r addr
              | none =>
                match s2.copyRoom y.g with
                | none =>
                  let wait : Wait := { instr := i, size := y.size, tests := [], tickets := [], needs := [], kind := 6, addr := 0 }
                  (s.updPath y.r (fun p => { p with wait := some wait }), .stay)
                | some slot => (s2.acceptCopy y x kind slot da db b ctr, .next [])

/-- COPY.LD (R284). -/
def execCopyLd (x : CopyOps) (s : State) : Result := copyIssue (.copyLd x) x .ld s
/-- COPY.ST (R286). -/
def execCopySt (x : CopyOps) (s : State) : Result := copyIssue (.copySt x) x .st s
/-- COPY.CP (R287). -/
def execCopyCp (x : CopyOps) (s : State) : Result := copyIssue (.copyCp x) x .cp s

/-- COPY_COMMAND_ACCEPT: a delayed COPY finds room; the lane chooses when it issues (R281, R73). -/
def execCopyCommandAccept (r : PathRef) (s : State) : Result :=
  match s.waiting r .ready with
  | some (g, _, w) =>
    if w.kind = 6 && (s.copyRoom g).isSome then .next (s.updPath r (fun p => { p with wait := none }))
    else notNow s
  | none => notNow s

end Sys2Proof.Machine
end

