-- ==== Sys2Proof/Machine/Cross.lean ====
section
/-! DEFINITION. Cross.lean: convergence registers, signing and the issue of a generation (R40 to R47, R250, R432, R449, R517),
and the cross-thread instructions (R227, R228, R251 to R257). -/

namespace Sys2Proof.Machine

/-! ### Convergence registers and their sets (R40 to R42) -/

/-- A convergence register as warp w names it. -/
def Group.conv (g : Group) (cv : CvField) (w : Nat) : Conv :=
  if cv.val = 16 then (match g.warps[w]? with | some x => x.cvw | none => Conv.idle) else sget Conv.idle g.cv cv.val

def Group.updConv (g : Group) (cv : CvField) (w : Nat) (f : Conv → Conv) : Group :=
  if cv.val = 16 then g.updWarp w (fun x => { x with cvw := f x.cvw })
  else { g with cv := sset Conv.idle g.cv cv.val (f (sget Conv.idle g.cv cv.val)) }

def State.updConv (s : State) (r : GenRef) (f : Conv → Conv) : State := s.updGroup r.g (fun g => g.updConv r.cv r.w f)

def Group.life (g : Group) (w t : Nat) : Life :=
  match (g.warps[w]?).bind (fun x => x.threads[t]?) with
  | some th => th.life
  | none => .ended

/-- Live threads and running helpers. -/
def Group.runs (g : Group) (w t : Nat) : Bool := g.life w t = .live || g.life w t = .helper

/-- Position t of warp u is in the member set of a register that warp w names. -/
def Group.isMember (g : Group) (cv : CvField) (w u t : Nat) : Bool :=
  g.runs u t && (if cv.val = 16 then u = w else (g.conv cv w).names u t)

/-- The member set, in ascending order: warp index, then position. -/
def Group.members (g : Group) (cv : CvField) (w : Nat) : List (Nat × Nat) :=
  (List.range g.warps.length).flatMap (fun u => ((List.range 64).filter (g.isMember cv w u)).map (fun t => (u, t)))

/-! ### Signing (R44, R45, R432) -/

/-- Kinds 1 to 3 of R432, the lowest first. -/
def Iss.misuse (x : Iss) (cv : CvField) (within : Bool) : Option Nat :=
  let c := x.g.conv cv x.r.w
  if (maskList x.p.tmask).any (fun t => !(x.g.isMember cv x.r.w x.r.w t)) then some 1
  else if within && cv.val < 16 && c.wmask != (1 : W64) <<< x.r.w then some 2
  else if c.armed && c.spc != x.p.pc then some 3
  else none

/-- The signatures of a path. -/
def Iss.signers (x : Iss) (h : Hdr) : List Signer :=
  (maskList x.p.tmask).map (fun t =>
    let bad := (x.badGuard h).getLsbD t
    { w := x.r.w, pos := t, taking := (x.taking h).getLsbD t && !bad, bad := bad })

/-- Signatures kept in ascending member order. -/
def insSigner (a : Signer) : List Signer → List Signer
  | [] => [a]
  | b :: rest => if a.w * 64 + a.pos < b.w * 64 + b.pos then a :: b :: rest else b :: insSigner a rest

/-- The path signs: it arms an idle register, or joins its generation. -/
def State.signNow (s : State) (x : Iss) (i : Instr) (h : Hdr) (cv : CvField) : State :=
  let new := x.signers h
  let m := (x.g.members cv x.r.w).length
  let s := s.updConv ⟨x.r.g, cv, x.r.w⟩ (fun c =>
    if c.armed then { c with
      pend := c.pend - new.length
      signers := new.foldl (fun l a => insSigner a l) c.signers }
    else { c with
      armed := true
      spc := x.p.pc
      pend := m - new.length
      instr := some i
      size := x.size
      signers := new
      svcWait := false
      stalled := false
      place := 0 })
  (s.updPath x.r (fun p => { p with
    st := .signed
    cvi := cv
    timer := 0
    age := 0
    own := true })).settle x.r.g x.r.w

/-- A path leaves its armed generation (R435). -/
def State.unsign (s : State) (r : PathRef) : State :=
  match s.path? r with
  | none => s
  | some p =>
    let out := fun (a : Signer) => a.w = r.w && p.tmask.getLsbD a.pos
    s.updConv ⟨r.g, p.cvi, r.w⟩ (fun c =>
      let rest := c.signers.filter (fun a => !(out a))
      { c with
        pend := c.pend + (c.signers.filter out).length
        signers := rest
        armed := !rest.isEmpty
        instr := if rest.isEmpty then none else c.instr
        svcWait := false
        stalled := false
        place := 0 })

/-! ### A generation at its issue (R44, R250) -/

structure Gen where
  r : GenRef
  conv : Conv
  g : Group
  c : Ctx
deriving DecidableEq, Repr

/-- The generation, when every member has signed and its group works. -/
def State.gen? (s : State) (r : GenRef) : Option Gen :=
  match s.group? r.g with
  | none => none
  | some g =>
    let conv := g.conv r.cv r.w
    if conv.armed && conv.pend = 0 && s.working g then (s.ctx? g.ctx).map (fun c => { r := r, conv := conv, g := g, c := c }) else none

/-- A member whose guard was true and that has not ended since it signed. -/
def Gen.takes (e : Gen) (m : Signer) : Bool := m.taking && e.g.runs m.w m.pos
def Gen.takers (e : Gen) : List Signer := e.conv.signers.filter e.takes
def Gen.helper (e : Gen) (m : Signer) : Bool := e.g.life m.w m.pos = .helper
/-- The warps of its members. -/
def Gen.warps (e : Gen) : List Nat := (List.range e.g.warps.length).filter (fun w => e.conv.signers.any (fun m => m.w = w))

/-- The issue as a member's warp sees it. -/
def Gen.iss (e : Gen) (w : Nat) : Iss :=
  { r := ⟨e.r.g, w, 0⟩, size := e.conv.size, g := e.g, c := e.c, p := Path.start false e.conv.spc 0,
    w := (e.g.warps[w]?).getD { wid := w, lane := 0, slot := 0, w := [], cvw := Conv.idle, paths := [], threads := [], reg0 := Region.none,
                                reg1 := Region.none, poisonOrigin := 0, occ := 0 } }

/-- A path that has signed at a convergence field: in state signed, or in the service wait of its generation's SVC (R331). -/
def Path.inGen (p : Path) (cv : CvField) : Bool :=
  (p.st = .signed || (p.st = .serviceWait && p.wait.isNone)) && p.cvi = cv

/-- Its signed paths. -/
def Gen.paths (e : Gen) : List (PathRef × Path) :=
  e.warps.flatMap (fun w =>
    match e.g.warps[w]? with
    | none => []
    | some x => (x.paths.zipIdx.filter (fun (p, _) => p.inGen e.r.cv)).map (fun (p, i) => (⟨e.r.g, w, i⟩, p)))

/-- The generation does not issue: it is left idle, and every member traps (R449, R517). -/
def State.genIdle (s : State) (e : Gen) (cls domain addr detail : Nat) : State :=
  let s := s.updConv e.r (fun c => { c with
    armed := false
    pend := 0
    instr := none
    signers := []
    svcWait := false
    stalled := false
    place := 0 })
  let s := e.paths.foldl (fun s (r, p) => s.fault r p.tmask cls domain addr detail) s
  e.warps.foldl (fun s w => s.settle e.r.g w) s

/-- The generation has issued: GEN rises, and its paths move to the next instruction. `lanes`: m + 4 cycles of each member
warp's lane (R220). -/
def State.genDone (s : State) (e : Gen) (lanes : Bool) : State :=
  let s := s.updConv e.r (fun c => { c with
    gen := c.gen + 1
    armed := false
    pend := 0
    instr := none
    signers := []
    svcWait := false
    stalled := false
    place := 0 })
  e.warps.foldl (fun s w => s.updWarp e.r.g w (fun x =>
    let m := (e.g.members e.r.cv e.r.w).filter (fun a => a.1 = w)
    ({ x with
      occ := if lanes then max x.occ (m.length + 4) else x.occ
      paths := mapIf (fun p => Path.inGen p e.r.cv) (fun p => { p.pass e.conv.size with own := true }) x.paths }).settle)) s

/-! ### Ports of a generation (R250) -/

def isRing : Operand → Bool
  | .q n => 8 ≤ n.val
  | _ => false

/-- Members that use a port: a helper does not use q8 to q15 (R50). -/
def Gen.users (e : Gen) (ms : List Signer) (op : Operand) : List Signer :=
  if isRing op then ms.filter (fun m => !(e.helper m)) else ms

/-- A ring port asked for more than it holds at once (R430 kind 4). -/
def Gen.excess (e : Gen) (srcs : List Src) (readers : List Signer) (dst : Option Dst) (writers : List Signer) : Option Operand :=
  let size := fun (n : Fin 16) => match e.g.ringOf n.val with | some (_, k) => 2 ^ k | none => 0
  let many := fun (op : Operand) (per : Nat) (ms : List Signer) =>
    match op with
    | .q n => isRing op && decide (size n < per * (e.users ms op).length)
    | _ => false
  match dst with
  | some d => if many d.op d.n writers then some d.op else (srcs.find? (fun a => many a.op (popsOf srcs a.op) readers)).map (·.op)
  | none => (srcs.find? (fun a => many a.op (popsOf srcs a.op) readers)).map (·.op)

/-- The first port that cannot give or take what the generation needs. -/
def State.genPorts (s : State) (e : Gen) (srcs : List Src) (readers : List Signer) (dst : Option Dst) (writers : List Signer) :
    Option PortWait :=
  let pop := srcs.findSome? (fun a =>
    match a.op with
    | .q n =>
      let need := popsOf srcs a.op
      if n.val < 8 then
        if readers.any (fun m => (sget [] ((e.iss m.w).thread m.pos).q n.val).length < need) then some ⟨1, none⟩ else none
      else match e.g.ringOf n.val with
        | some (base, _) => if s.ringCount e.g base < need * (e.users readers a.op).length then some ⟨1, some base⟩ else none
        | none => none
    | _ => none)
  match pop, dst with
  | some w, _ => some w
  | none, some { op := .q n, n := k, .. } =>
    let less := popsOf srcs (.q n)
    if n.val < 8 then
      if writers.any (fun m => queueDepth < (sget [] ((e.iss m.w).thread m.pos).q n.val).length - less + k) then some ⟨2, none⟩ else none
    else match e.g.ringOf n.val with
      | some (base, z) =>
        if 2 ^ z < s.ringCount e.g base - less * (e.users readers (.q n)).length + k * (e.users writers (.q n)).length then some ⟨2, some base⟩
        else none
      | none => none
  | none, _ => none

/-- Rings in lines that an engine owns (R182), and pushes and pops that earlier accesses of members stand before (R279). -/
def State.genBusy (s : State) (e : Gen) (ops : List Operand) : Bool :=
  ops.any (fun o => match o with
    | .q n => match (if n.val < 8 then none else e.g.ringOf n.val) with
      | some (base, k) => s.scratchBusy e.g base (16 + 4 * 2 ^ k) ||
          s.mem.ops.any (fun o => o.g = e.r.g && e.warps.contains o.w && o.parts.any (fun p => !p.served))
      | none => false
    | _ => false)

/-- One source for every reader, in ascending member order. -/
def State.genSrc (s : State) (e : Gen) (h : Hdr) (a : Src) (ms : List Signer) : State × List (List Reg) :=
  ms.foldl (fun (s, acc) m =>
    if isRing a.op && e.helper m then (s, acc ++ [regsOf a.n 0 false])
    else
      let (s, l) := s.readSrc (e.iss m.w) h a [m.pos]
      (s, acc ++ l)) (s, [])

/-- Each reader with its values in the order of the sources. -/
def State.genRead (s : State) (e : Gen) (h : Hdr) (srcs : List Src) (ms : List Signer) : State × List (Signer × List (List Reg)) :=
  let (s, cols) := srcs.foldl (fun (s, acc) a => let (s, c) := s.genSrc e h a ms; (s, acc ++ [c])) (s, [])
  (s, ms.zipIdx.map (fun (m, i) => (m, cols.map (fun c => c.getD i []))))

/-- Write a member's destination. -/
def State.genWrite (s : State) (e : Gen) (d : Dst) (m : Signer) (rs : List Reg) : State :=
  if isRing d.op && e.helper m then s else s.writeDst e.r.g m.w e.g d m.pos [m.pos] rs

/-- What stands before the issue of a generation: nothing, something that holds it back, a sector that its load must reach first
(R144), a page at WB (R157), a wait for a service slot (R331), or a failure by which every member traps. -/
inductive Gate
  | go
  | hold
  | reach (needs : List (Nat × Bool)) (misses : List Fill)
  | stall (va n : Nat)
  | service
  | fail (cls domain addr detail : Nat)
deriving DecidableEq, Repr

/-- The operands of a cross-thread instruction: with `live`, helpers supply no value; with `mute`, they receive none either; only
the first `upTo` members take part. -/
structure GenOps where
  h : Hdr
  srcs : List Src
  dst : Option Dst := none
  live : Bool := false
  mute : Bool := false
  lanes : Bool := true
  upTo : Nat := 4096
deriving DecidableEq, Repr

/-- The codes that the instruction names. -/
def GenOps.codes (o : GenOps) : List Operand := (match o.dst with | some d => [d.op] | none => []) ++ o.srcs.map (·.op)

abbrev Vals := List (Signer × List (List Reg))

/-- The members enter service wait: the issue waits for a slot (R331). -/
def State.parkGen (s : State) (e : Gen) : State :=
  if e.conv.svcWait && !e.conv.stalled then s
  else
    let s := s.updConv e.r (fun c => { c with svcWait := true, stalled := false })
    e.warps.foldl (fun s w => s.updWarp e.r.g w (fun x => { x with
      paths := mapIf (fun p => p.st = PathSt.signed && p.cvi = e.r.cv) (fun p => { p with st := .serviceWait, timer := 0 }) x.paths })) s

/-- The issue is held back: no member is in a wait, and none runs a timer (R67, R157, R291). It keeps its place among the operations
on its tiles. -/
def State.holdGen (s : State) (e : Gen) : State :=
  if e.conv.stalled && e.conv.place ≠ 0 then s
  else
    let (s, n) := s.fresh
    s.updConv e.r (fun c => { c with
      stalled := true
      place := if c.place = 0 then n else c.place })

/-- Members have accesses that have not been performed. -/
def State.genOpen (s : State) (e : Gen) : Bool := e.paths.any (fun (r, p) => s.underWay r.g r.w p.access p.tmask)

/-- The generation fails once the earlier accesses of its members have been performed (R429). -/
def State.genFail (s : State) (e : Gen) (cls domain addr detail : Nat) : State :=
  if s.genOpen e then s.holdGen e else s.genIdle e cls domain addr detail

/-- It waits for a page at WB (R157). -/
def State.stallGen (s : State) (e : Gen) (_va _n : Nat) : State := s.holdGen e

/-- The key of a generation that reaches a sector. -/
def Gen.key (e : Gen) : Nat × Nat := (9, (e.r.g * 64 + e.r.w) * 32 + e.r.cv.val)

/-- The generation takes its turn at the sectors that its loads reach, and asks for HOST lines (R144, R154). -/
def State.reachGen (s : State) (e : Gen) (needs : List (Nat × Bool)) (misses : List Fill) : State :=
  (((s.standInLine e.key 2 needs).turnFor e.key).askLines misses).holdGen e

/-- ISSUE A GENERATION (R44, R250, R517): poisoned guards and operands, ports, the instruction's own gate, then its body. While the
issue waits nothing else changes. -/
def State.runGen (s : State) (r : GenRef) (o : GenOps) (gate : Gen → Vals → State → Gate) (body : Gen → Vals → State → State) : State :=
  match s.gen? r with
  | none => s
  | some e =>
    let takers := (e.conv.signers.take o.upTo).filter e.takes
    let lively := takers.filter (fun m => !(e.helper m))
    let readers := if o.live then lively else takers
    let writers := if o.mute then lively else takers
    if e.conv.signers.any (·.bad) then s.genFail e 0x60 0 0 (0x4A0 + o.h.ps.val)
    else if s.genBusy e o.codes then s.holdGen e
    else
      match e.excess o.srcs readers o.dst writers with
      | some op => s.genFail e 0x11 1 0 (4 + op.code * 16)
      | none =>
        match s.genPorts e o.srcs readers o.dst writers with
        | some pw =>
          if pw.ring.isSome && e.g.cls = .w then s.genFail e 0x14 1 (pw.ring.getD 0) (pw.kind + e.g.cls.code * 8 + 15 * 128) else s
        | none =>
          let vals := (s.genRead e o.h o.srcs readers).2
          match vals.findSome? (fun m => strictFault { srcs := o.srcs } m.2) with
          | some d => s.genFail e 0x60 0 0 d
          | none =>
            match gate e vals s with
            | .hold => s.holdGen e
            | .reach needs misses => s.reachGen e needs misses
            | .stall va n => s.stallGen e va n
            | .service => s.parkGen e
            | .fail cls domain addr detail => s.genFail e cls domain addr detail
            | .go =>
              let (s, vals) := s.genRead e o.h o.srcs readers
              (body e vals s).genDone e o.lanes

/-- SIGN A CROSS-THREAD INSTRUCTION (R44, R250): the checks at signing, `check` among them (R474), then the signature; the last
one issues the generation by `go`. -/
def signAt (i : Instr) (h : Hdr) (cv : CvField) (sh : Shape) (within : Bool) (check : Iss → State → Option (Nat × Nat × Nat))
    (go : GenRef → State → State) (s : State) : Result :=
  withIssue s fun x => x.orderly s <|
    if s.dependency x sh h then .next s.putOff
    else
      match sh.illegal x (maskCount (x.taking h)) with
      | some detail => .next (s.faultPath x 0x11 0 detail)
      | none =>
        match x.misuse cv within with
        | some kind => .next (s.faultPath x 0x13 0 (cv.val + kind * 32))
        | none =>
          match check x s with
          | some (cls, addr, detail) => .next (s.faultPath x cls addr detail)
          | none => .next (go ⟨x.r.g, cv, x.r.w⟩ ((s.signNow x i h cv).occupy x.r 1))

def noCheck : Iss → State → Option (Nat × Nat × Nat) := fun _ _ => none
def noGate : Gen → Vals → State → Gate := fun _ _ _ => .go
def GenOps.shape (o : GenOps) : Shape := { srcs := o.srcs, dst := o.dst, execOnly := true, uni := some false }

/-! ### SIGN and CVSET (R227, R228) -/

def SignOps.ops (x : SignOps) : GenOps := { h := x.h, srcs := [], dst := some { op := x.d }, lanes := false }

/-- At its issue SIGN gives its takers GEN before the increment. -/
def State.signGen (s : State) (x : SignOps) (r : GenRef) : State :=
  s.runGen r (SignOps.ops x) noGate fun e _ s =>
    e.takers.foldl (fun s m => s.genWrite e { op := x.d } m [⟨e.conv.gen, false⟩]) s

/-- SIGN (R227). -/
def execSign (x : SignOps) (s : State) : Result :=
  signAt (.sign x) x.h x.cv (SignOps.ops x).shape false noCheck (fun r s => s.signGen x r) s

/-- CVSET (R228, R43); one that meets an armed register changes nothing and traps (R432 kind 4). Of the warps that write one register
in one cycle the highest prevails. -/
def execCvset (x : CvsetOps) (s : State) : Result :=
  let src := fun f (o : Operand) => ({ field := f, op := o, n := 2, uni := true } : Src)
  issue (.cvset x) x.h { srcs := [src 2 x.a, src 3 x.b], uni := some true } 1 s fun i k s =>
    let cv : CvField := Fin.ofNat 17 x.cv.val
    if (i.g.conv cv i.r.w).armed then (s.faultPath i 0x13 0 (x.cv.val + 4 * 32), .stay)
    else
      let v := (k.vals.headD (0, [])).2
      (s.updShared i.r.g (.cv x.cv.val) i.w.wid (fun g => g.updConv cv i.r.w (fun c => { c with
        wmask := BitVec.ofNat 64 (regsNat (v.getD 0 []))
        tmask := BitVec.ofNat 64 (regsNat (v.getD 1 [])) })), .next [])

/-! ### QX and PERM (R251 to R253) -/

/-- The value that position t of warp w supplies (R251): a taker's own, a parked helper's register, else 0. -/
def Gen.supplies (e : Gen) (h : Hdr) (vals : Vals) (a : Src) (w t : Nat) : List Reg :=
  match vals.find? (fun m => m.1.w = w && m.1.pos = t) with
  | some m => m.2.headD []
  | none => if e.g.life w t = .parked then (e.iss w).words h a t else regsOf a.n 0 false

def QxOps.ops (x : QxOps) : GenOps := { h := x.h, srcs := [srcA x.a 1, srcB x.b 1], dst := some { op := x.d } }

def State.qxGen (s : State) (x : QxOps) (r : GenRef) : State :=
  s.runGen r (QxOps.ops x) noGate fun e vals s =>
    vals.foldl (fun s (m, v) =>
      let b := v.getD 1 []
      let j := if x.xor then (m.pos % 4) ^^^ (regsNat b % 4) else regsNat b % 4
      let got := e.supplies x.h vals (srcA x.a 1) m.w (m.pos / 4 * 4 + j)
      s.genWrite e { op := x.d } m (got.map (fun q => ⟨q.val, q.bad || regsBad b⟩))) s

/-- QX (R252). -/
def execQx (x : QxOps) (s : State) : Result :=
  signAt (.qx x) x.h x.cv (QxOps.ops x).shape true noCheck (fun r s => s.qxGen x r) s

def PermOps.ops (x : PermOps) : GenOps :=
  { h := x.h, srcs := [srcA x.a 1, { field := 3, op := x.b, n := 2, strict := true, uni := true }], dst := some { op := x.d } }

/-- The address of the pattern table. -/
def permTable (vals : Vals) : Nat := match vals.head? with | some (_, v) => regsNat (v.getD 1 []) | none => 0

/-- An earlier access of a member after which the table's load is ordered (R167): an acquire, or one that touches the table; or an
engine's line (R182), or a release that the load must follow (R169). -/
def State.permWaits (s : State) (e : Gen) (pa : Nat) : Bool :=
  s.mem.ops.any (fun o => o.g = e.r.g && e.warps.contains o.w && o.parts.any (fun p => !p.served) &&
    (o.order = .acq || o.order = .ar || o.parts.any (fun p => p.pa < pa + 64 && pa < p.pa + o.size))) ||
  s.owned (phys32 pa) || s.owned (phys32 (pa + 32)) ||
  e.conv.signers.any (fun m => s.veiled (.thread e.r.g m.w m.pos) none pa 64)

/-- What stands before PERM: a misaligned table (R430 kind 9), a translation that fails (R449, R450), an engine's line, the turn of
its sector or a HOST line that the LLC does not hold. -/
def permGate (x : PermOps) (e : Gen) (vals : Vals) (s : State) : Gate :=
  let a := permTable vals
  if vals.isEmpty then .go
  else if a % 64 ≠ 0 then .fail 0x11 1 0 (9 + x.b.code * 16)
  else if 2 ^ 55 ≤ a then .fail 0x20 0 a x.b.code
  else
    match s.translate e.c a e.g.via with
    | .error w => let (cls, addr, detail) := walkFault a false w; .fail cls 0 addr detail
    | .ok t =>
      if attrCtr t.attr then .fail 0x23 0 a 2
      else if s.permWaits e (t.pa a) || (s.genOpen e && s.watched true false (t.pa a) 64) then .hold
      else
        let line := t.pa a / 32
        let misses := ((s.fillLine t line e.g.core).fillLine t (line + 1) e.g.core).mem.misses
        if s.reachAll e.key 2 [(line / 32, false)] && misses.isEmpty then .go else .reach [(line / 32, false)] misses

/-- The pattern table, loaded for the warp as one weak load (R253): each line is a row request, and the translation is held. -/
def State.loadTable (s : State) (e : Gen) (t : TlbEntry) (pa : Nat) : State :=
  let s := s.walked e.g.via t
  let s := { s with mem := { (s.mem.hold e.g.via t).leaveLine e.key with touched := [] } }
  let s := (linesOf pa 64).foldl (fun s l => ({ s with mem := (s.mem.rowLine l false).1.fillL0 e.g.core l }).served (l / 32) 2 false) s
  (s.watch true false pa 64 1 e.g.core).1

def State.permRun (s : State) (x : PermOps) (r : GenRef) : State :=
  s.runGen r (PermOps.ops x) (permGate x) fun e vals s =>
    let a := permTable vals
    match if vals.isEmpty then .error (.invalid 0) else s.translate e.c a e.g.via with
    | .error _ => s
    | .ok t =>
      let table := s.seen e.g (t.pa a) 64
      let s := s.loadTable e t (t.pa a)
      vals.foldl (fun s (m, _) =>
        let (byte, bad) := table.getD m.pos (0, false)
        let got := e.supplies x.h vals (srcA x.a 1) m.w (byte.toNat % 64)
        s.genWrite e { op := x.d } m (got.map (fun q => ⟨q.val, q.bad || bad⟩))) s

/-- The watchpoint that the load of a table hit (R341). -/
def State.tableHit (s : State) (x : PermOps) (e : Gen) : Option Nat :=
  let takers := e.takers
  match (s.genRead e x.h (PermOps.ops x).srcs takers).2 with
  | [] => none
  | vals => match s.translate e.c (permTable vals) e.g.via with
    | .ok t => (s.watch true false (t.pa (permTable vals)) 64 1 e.g.core).2
    | .error _ => none

/-- PERM at its issue; after it, its members trap on a watchpoint that the table's load hit (R341). -/
def State.permGen (s : State) (x : PermOps) (r : GenRef) : State :=
  let t := s.permRun x r
  match s.gen? r with
  | none => t
  | some e =>
    match if ((t.group? r.g).map (fun g => (g.conv r.cv r.w).gen)) = some (e.conv.gen + 1) then s.tableHit x e else none with
    | none => t
    | some i => e.warps.foldl (fun t w =>
        let m := maskOf ((e.takers.filter (fun a => a.w = w)).map (·.pos))
        match t.warp? r.g w with
        | none => t
        | some x => ((List.range x.paths.length).foldl (fun t p =>
            match t.path? ⟨r.g, w, p⟩ with
            | some q => if q.tmask &&& m = 0 then t else t.enter ⟨r.g, w, p⟩ (q.tmask &&& m) q.pc (0x20000 + i) false false
            | none => t) t).settle r.g w) t

/-- PERM (R253). -/
def execPerm (x : PermOps) (s : State) : Result :=
  signAt (.perm x) x.h x.cv (PermOps.ops x).shape true noCheck (fun r s => s.permGen x r) s

/-! ### Reductions (R254 to R257) -/

/-- Contributions by position, lowest first. -/
def contributions (vals : Vals) : List (Nat × Nat) := vals.map (fun m => (m.1.pos, regsNat (m.2.headD [])))

/-- A reduction: `f` gives, from the contributions, the result of position t. -/
def State.reduceGen (s : State) (r : GenRef) (o : GenOps) (f : List (Nat × Nat) → Nat → Nat) : State :=
  s.runGen r o noGate fun e vals s =>
    match o.dst with
    | none => s
    | some d =>
      let bad := vals.any (fun m => m.2.any regsBad)
      e.takers.foldl (fun s m => s.genWrite e d m (regsOf d.n (f (contributions vals) m.pos) bad)) s

/-- The result of VOTE (R254). -/
def voteValue (mode : VoteMode) (l : List (Nat × Nat)) : Nat :=
  match mode with
  | .any => (l.any (fun x => x.2 != 0)).toNat
  | .all => (l.all (fun x => x.2 != 0)).toNat
  | .ballot => (l.filter (fun x => x.2 != 0)).foldl (fun a x => a + 2 ^ x.1) 0
  | .eq => (l.all (fun x => x.2 = (l.headD (0, 0)).2)).toNat

def VoteOps.ops (x : VoteOps) : GenOps :=
  { h := x.h, srcs := [srcA x.a 1], dst := some { op := x.d, n := if x.mode = .ballot then 2 else 1 }, live := true }

def State.voteGen (s : State) (x : VoteOps) (r : GenRef) : State := s.reduceGen r (VoteOps.ops x) (fun l _ => voteValue x.mode l)

/-- VOTE (R254). -/
def execVote (x : VoteOps) (s : State) : Result :=
  signAt (.vote x) x.h x.cv (VoteOps.ops x).shape true noCheck (fun r s => s.voteGen x r) s

def sumWords : SumType → Nat
  | .f32 | .i32 => 1
  | .f64 | .i64 => 2
def sumInline : SumType → Inline
  | .f32 => .f32
  | .f64 => .f64
  | _ => .int
def SumOps.ops (x : SumOps) : GenOps :=
  { h := x.h, srcs := [{ field := 2, op := x.a, n := sumWords x.ty, inl := sumInline x.ty }], dst := some { op := x.d, n := sumWords x.ty },
    live := true }

/-- The result of WSUM (R127, R255). -/
def wsumValue (ty : SumType) (sat : Bool) (mode : Mode) (l : List (Nat × Nat)) : Nat :=
  let float := fun (f : FSpec) => f.round mode 0 sat (sumExact mode (l.map (fun x => f.decode x.2)))
  match ty with
  | .f32 => float .fp32
  | .f64 => float .fp64
  | .i32 => l.foldl (fun a x => (a + x.2) % 2 ^ 32) 0
  | .i64 => l.foldl (fun a x => (a + x.2) % 2 ^ 64) 0

def State.wsumGen (s : State) (x : SumOps) (r : GenRef) : State :=
  s.reduceGen r (SumOps.ops x) (fun l _ => wsumValue x.ty x.sat x.mode l)

/-- WSUM (R255). -/
def execWsum (x : SumOps) (s : State) : Result :=
  signAt (.wsum x) x.h x.cv (SumOps.ops x).shape true noCheck (fun r s => s.wsumGen x r) s

def maxInline : MaxType → Inline
  | .f32 => .f32
  | .f64 => .f64
  | _ => .int
def maxWords : MaxType → Nat
  | .f32 | .s32 | .n32 => 1
  | _ => 2
def MaxOps.ops (x : MaxOps) : GenOps :=
  { h := x.h, srcs := [{ field := 2, op := x.a, n := maxWords x.ty, inl := maxInline x.ty }], dst := some { op := x.d, n := maxWords x.ty },
    live := true }

/-- The greatest or least of floating contributions (R128, R256). -/
def wmaxFloat (f : FSpec) (min : Bool) (l : List (Nat × Nat)) : Nat :=
  if l.any (fun x => (f.decode x.2).isNan) then f.nanCode
  else l.foldl (fun a x =>
    if min then (if (f.decode x.2).lt true (f.decode a) then x.2 else a) else (if (f.decode a).lt true (f.decode x.2) then x.2 else a)) (f.infCode (!min))

/-- The same of integers. -/
def wmaxInt (n : Nat) (sgn min : Bool) (l : List (Nat × Nat)) : Nat :=
  l.foldl (fun a x => if min then intMin n sgn a x.2 else intMax n sgn a x.2) (wrapInt n (if min then intHi n sgn else intLo n sgn))

def wmaxValue (ty : MaxType) (min : Bool) (l : List (Nat × Nat)) : Nat :=
  match ty with
  | .f32 => wmaxFloat .fp32 min l
  | .f64 => wmaxFloat .fp64 min l
  | .s32 => wmaxInt 32 true min l
  | .n32 => wmaxInt 32 false min l
  | .s64 => wmaxInt 64 true min l
  | .n64 => wmaxInt 64 false min l

def State.wmaxGen (s : State) (x : MaxOps) (r : GenRef) : State := s.reduceGen r (MaxOps.ops x) (fun l _ => wmaxValue x.ty x.min l)

/-- WMAX (R256). -/
def execWmax (x : MaxOps) (s : State) : Result :=
  signAt (.wmax x) x.h x.cv (MaxOps.ops x).shape true noCheck (fun r s => s.wmaxGen x r) s

/-- One level of the fixed tree of R129. -/
def scanLevel (add : Nat → Nat → Nat) (d : Nat) (l : List Nat) : List Nat :=
  l.zipIdx.map (fun (x, t) => if d ≤ t then add (l.getD (t - d) 0) x else x)

/-- The levels d, 2d, …, below W. -/
def scanTree (add : Nat → Nat → Nat) (w : Nat) : Nat → Nat → List Nat → List Nat
  | 0, _, l => l
  | fuel + 1, d, l => if d < w then scanTree add w fuel (2 * d) (scanLevel add d l) else l

/-- The result of WSCAN for position t (R129, R257); a NaN contribution counts as the canonical NaN (R117). -/
def wscanValue (ty : SumType) (excl sat : Bool) (mode : Mode) (w : Nat) (l : List (Nat × Nat)) (t : Nat) : Nat :=
  let add := fun (a b : Nat) => match ty with
    | .f32 => fAdd .fp32 sat mode a b
    | .f64 => fAdd .fp64 sat mode a b
    | .i32 => (a + b) % 2 ^ 32
    | .i64 => (a + b) % 2 ^ 64
  let canon := fun (x : Nat) => match ty with
    | .f32 => if (FSpec.fp32.decode x).isNan then FSpec.fp32.nanCode else x
    | .f64 => if (FSpec.fp64.decode x).isNan then FSpec.fp64.nanCode else x
    | _ => x
  let start := (List.range w).map (fun u => match l.find? (fun x => x.1 = u) with | some x => canon x.2 | none => 0)
  let out := scanTree add w 7 1 start
  if excl then (if t = 0 then 0 else out.getD (t - 1) 0) else out.getD t 0

def State.wscanGen (s : State) (x : SumOps) (r : GenRef) : State :=
  match s.group? r.g with
  | none => s
  | some g => s.reduceGen r (SumOps.ops x) (wscanValue x.ty x.excl x.sat x.mode g.width)

/-- WSCAN (R257). -/
def execWscan (x : SumOps) (s : State) : Result :=
  signAt (.wscan x) x.h x.cv (SumOps.ops x).shape true noCheck (fun r s => s.wscanGen x r) s

end Sys2Proof.Machine
end

