-- ==== Sys2Proof/Machine/Matrix.lean ====
section
/-! DEFINITION. Matrix.lean: accumulator tiles and their bindings, the matrix products, row, column and element moves, tile
transfers, the generator's SEED, the governor and the die budget (R290 to R307, R387, R388, R473 to R480). -/

namespace Sys2Proof.Machine

/-! ### Bindings (R290, R291, R293, R475) -/

/-- The binding of a configuration word. -/
def Tile.of (x : Nat) : Tile :=
  { unit := bits x 35 34, rows := bits x 5 0 + 1, cols := bits x 11 6 + 1,
    view := (match bits x 37 36 with | 0 => .a56 | 1 => .fp32 | _ => .n12), k := bits x 63 48 + 1, fa := Fmt.ofCode (bits x 43 40),
    fb := Fmt.ofCode (bits x 47 44), sa := bit x 38, sb := bit x 39, off := 32 * bits x 29 16, dirty := false }

def Tile.count (t : Tile) : Nat := t.rows * t.cols
def Tile.meets (a b : Tile) : Bool := a.off < b.off + b.count && b.off < a.off + a.count
def Group.tile (g : Group) (n : Nat) : Option Tile := sget none g.tiles n

/-- The reason of R475 for which a configuration is refused. -/
def Group.tcfgRefused (g : Group) (n x : Nat) (bad : Bool) : Option Nat :=
  let t := Tile.of x
  if bad then some 6
  else if bits x 37 36 = 3 then some 1
  else if 12 ≤ bits x 43 40 || 12 ≤ bits x 47 44 then some 2
  else if (bits x 43 40 = 10) != (bits x 47 44 = 10) then some 3
  else if 65536 * g.acg < 8 * (t.off + t.count) then some 4
  else if g.tiles.any (fun (m, u) => m != n && match u with | some u => u.meets t | none => false) then some 5
  else none

/-- Tiles that an operation in a slot names. -/
def MatOp.tiles (o : MatOp) : List Nat := if o.kind = .mmd then [o.tile, o.tile + 1] else [o.tile]

/-- Tiles that a cross-thread instruction names. -/
def tilesNamed : Instr → List Nat
  | .mma x => [x.tile.val]
  | .mmd x => [x.tile.val, x.tile.val + 1]
  | .twrr x | .twrc x => [x.tile.val]
  | .trdr x | .trdc x => [x.tile.val]
  | _ => []

/-- Generations of a group that are held back with a place among the operations on their tiles. -/
def Group.heldGens (g : Group) : List Conv :=
  (g.cv.map (·.2) ++ g.warps.map (·.cvw)).filter (fun c => c.armed && c.stalled && decide (c.place ≠ 0))

def Conv.namesTile (c : Conv) (n : Nat) : Bool := match c.instr with | some i => (tilesNamed i).contains n | none => false

/-- Something that stands before number `before` in the order of the tile has not been performed (R291). -/
def Group.tileBefore (g : Group) (n before : Nat) : Bool :=
  g.ops.any (fun o => decide (o.stamp < before) && o.tiles.contains n) || g.heldGens.any (fun c => decide (c.place < before) && c.namesTile n)

/-- A warp's instruction on the tile cannot be performed yet: something stands before it, or a higher warp has issued one in this
cycle, behind which it may not stand (R291). -/
def State.tileBusy (s : State) (g : Group) (wid n : Nat) : Bool :=
  g.tileBefore n s.stamp || !(g.wins s.coreClock (.tile n) wid)

/-- A warp issues an instruction that names a tile, in this cycle. -/
def State.markTile (s : State) (k wid n : Nat) : State := s.updShared k (.tile n) wid id

/-- Write elements of a tile in its view: row, column, bits, tag (R290). -/
def Group.putEls (g : Group) (t : Tile) (l : List (Nat × Nat × Nat × Bool)) : Group :=
  { g with acc := l.foldl (fun acc (i, j, x, bad) =>
      sset AccEl.unwritten acc (t.off + i * t.cols + j) ⟨some (BitVec.ofNat 64 (x % 2 ^ viewBits t.view)), bad⟩) g.acc }

/-- A tile that an operation has written is dirty (R103). -/
def Group.markDirty (g : Group) (n : Nat) : Group :=
  match g.tile n with
  | some t => { g with tiles := sset none g.tiles n (some { t with dirty := true }) }
  | none => g

/-- Some element of the tile has been written by its group. -/
def Group.anyWritten (g : Group) (t : Tile) : Bool := g.acc.any (fun e => t.off ≤ e.1 && e.1 < t.off + t.count && e.2.val.isSome)

/-- The cells of a tile, by rows. -/
def Tile.cells (t : Tile) : List (Nat × Nat) := (List.range t.rows).flatMap (fun i => (List.range t.cols).map (fun j => (i, j)))

/-- An instruction met an unbound tile (R474). -/
def unboundDetail (tile op : Nat) : Nat := tile + op * 64

def uniSrc (field : Nat) (op : Operand) (n : Nat) : Src := { field := field, op := op, n := n, strict := true, uni := true }

/-- `issue` for an instruction that is performed in tile order at its issue (R291): it is put off while an operation on the tile
has not been performed. -/
def issueTile (i : Instr) (h : Hdr) (sh : Shape) (per tile : Nat) (s : State) (body : Iss → Taken → State → State × Flow) : Result :=
  withIssue s fun x =>
    if s.tileBusy x.g x.w.wid tile then .next s.putOff
    else issue i h sh per s fun y k s => body y k (s.markTile y.r.g y.w.wid tile)

/-! ### TCFG, TZERO, SEED (R293 to R295) -/

/-- TCFG: the tile's binding is replaced, or refused (R475). A tile bound over elements that the group has written is dirty. -/
def execTcfg (x : TcfgOps) (s : State) : Result :=
  let sh : Shape := { srcs := [{ field := 2, op := x.a, n := 2, uni := true }], uni := some true, suppress := true }
  issueTile (.tcfg x) x.h sh 1 x.tile.val s fun i k s' =>
    let v := ((k.vals.headD (0, [])).2).headD []
    match i.g.tcfgRefused x.tile.val (regsNat v) (regsBad v) with
    | some r => (s'.faultPath i 0x31 0 (x.tile.val + r * 64), .stay)
    | none =>
      let t := Tile.of (regsNat v)
      (s'.updGroup i.r.g (fun g => { g with tiles := sset none g.tiles x.tile.val (some { t with dirty := g.anyWritten t }) }), .next [])

/-- TCFG.FREE unbinds the tile; no byte changes (R294). -/
def execTcfgFree (x : TileOps) (s : State) : Result :=
  issueTile (.tcfgFree x) x.h { srcs := [], uni := some true, suppress := true } 1 x.tile.val s fun i _ s' =>
    (s'.updGroup i.r.g (fun g => { g with tiles := sset none g.tiles x.tile.val none }), .next [])

/-- TZERO writes +0 to every element (R294). -/
def execTzero (x : TileOps) (s : State) : Result :=
  issueTile (.tzero x) x.h { srcs := [], uni := some true, suppress := true } 1 x.tile.val s fun i _ s' =>
    match i.g.tile x.tile.val with
    | none => (s'.faultPath i 0x30 0 (unboundDetail x.tile.val 0xA1), .stay)
    | some t => (s'.updGroup i.r.g (fun g => (g.putEls t (t.cells.map (fun (a, b) => (a, b, 0, false)))).markDirty x.tile.val), .next [])

/-- A warp writes the key, or the stream, of its group; of those that write it in one cycle the highest prevails (R295). -/
def State.seedKey (s : State) (i : Iss) (key : Nat) (bad : Bool) : State :=
  s.updShared i.r.g .key i.w.wid (fun g => { g with
    key64 := BitVec.ofNat 64 key
    keyBad := bad })
def State.seedStream (s : State) (i : Iss) (stream : Nat) (bad : Bool) : State :=
  s.updShared i.r.g .stream i.w.wid (fun g => { g with
    stream := BitVec.ofNat 32 stream
    streamBad := bad })

/-- SEED sets the group's key and stream; a poisoned part becomes bad (R295, R480). -/
def execSeed (x : OpAB) (s : State) : Result :=
  let sh : Shape := { srcs := [{ field := 2, op := x.a, n := 2, uni := true }, { field := 3, op := x.b, uni := true }], uni := some true, suppress := true }
  issue (.seed x) x.h sh 1 s fun i k s' =>
    let v := (k.vals.headD (0, [])).2
    let key := v.getD 0 []
    let stream := v.getD 1 []
    (s'.seedKey i (regsNat key) (regsBad key) |>.seedStream i (regsNat stream) (regsBad stream), .next [])

/-- SEED.S sets the stream alone. -/
def execSeedS (x : SeedSOps) (s : State) : Result :=
  let sh : Shape := { srcs := [{ field := 3, op := x.b, uni := true }], uni := some true, suppress := true }
  issue (.seedS x) x.h sh 1 s fun i k s' =>
    let stream := ((k.vals.headD (0, [])).2).headD []
    (s'.seedStream i (regsNat stream) (regsBad stream), .next [])

/-! ### Matrix operands (R296, R297) -/

/-- Runs of 16 elements of an operand. -/
def runsOf (rows depth : Nat) : Nat := (rows * depth + 15) / 16

/-- The operand that a pair of words names. -/
def MatSrc.ofPair (x : Nat) : MatSrc := .scratch (16 * bits x 22 0) (bits x 30 23) (bits x 51 32) (bits x 54 52) (bit x 55)

/-- Bytes of a panel's scale strip. -/
def stripBytes (square : Bool) (rows : Nat) : Nat := if square then 8 * ((rows + 7) / 8) else 2 * rows

/-- R476 reason 3: a row pitch or a panel pitch too short. -/
def panelBad (x : Nat) (f : Fmt) (square : Bool) (rows depth : Nat) : Bool :=
  let rp := bits x 30 23
  let strip := if bit x 55 && f.isMx then stripBytes square rows else 0
  decide (128 * rp < min 64 depth * fmtBits f) || (decide (64 < depth) && decide (16 * bits x 51 32 < 16 * rp * rows + strip))

/-- Code and tag of stored element (r, k). -/
def State.matCode (s : State) (g : Group) (src : MatSrc) (f : Fmt) (depth r k : Nat) : Nat × Bool :=
  let b := fmtBits f
  match src with
  | .regs runs =>
    let n := r * depth + k
    let rs := runs.getD (n / 16) []
    let o := b * (n % 16)
    (regsNat rs / 2 ^ o % 2 ^ b,
      (List.range' (o / 32) ((o + b - 1) / 32 + 1 - o / 32)).any (fun i => match rs[i]? with | some q => q.bad | none => false))
  | .scratch base rp tp rot _ =>
    let o := b * (k % 64)
    let l := s.scratchBytes g rot (base + 16 * tp * (k / 64) + 16 * rp * r + o / 8) ((o % 8 + b + 7) / 8)
    (leNat (l.map (·.1)) / 2 ^ (o % 8) % 2 ^ b, l.any (·.2))
  | .absent => (0, false)

/-- Scale code and tag of an element; 127 where the operand is unscaled. -/
def State.matScale (s : State) (g : Group) (src : MatSrc) (f : Fmt) (square : Bool) (rows r k : Nat) : Nat × Bool :=
  match src with
  | .scratch base rp tp rot scaled =>
    if scaled && f.isMx then
      let at_ := if square then 8 * (r / 8) + k % 64 / 8 else 2 * r + k % 64 / 32
      match s.scratchBytes g rot (base + 16 * tp * (k / 64) + 16 * rp * rows + at_) 1 with
      | b :: _ => (b.1.toNat, b.2)
      | [] => (127, false)
    else (127, false)
  | _ => (127, false)

/-- An operand element: exact value, tag, and whether its code is the reserved 0b10 of MXT2 (R479). -/
structure El where
  v : FVal
  bad : Bool
  reserved : Bool
deriving DecidableEq, Repr

def El.zero : El := ⟨.fin false 0 0, false, false⟩

/-- An operand by rows of depth `depth`. -/
abbrev Els := List (List El)
def Els.at_ (x : Els) (r k : Nat) : El := (x.getD r []).getD k El.zero

def State.matEl (s : State) (g : Group) (src : MatSrc) (f : Fmt) (square : Bool) (rows depth r k : Nat) : El :=
  let (x, bad) := s.matCode g src f depth r k
  let (c, bc) := s.matScale g src f square rows r k
  let reserved : Bool := f = .mxt2 && x = 2
  { v := if f.isMx then mxValue f c x else fmtValue f x, bad := bad || bc || reserved, reserved := reserved }

/-- Elements of an operand of depth `depth`, by rows, at the depth indices `ks`. -/
def State.matEls (s : State) (g : Group) (src : MatSrc) (f : Fmt) (square : Bool) (rows depth : Nat) (ks : List Nat) : Els :=
  (List.range rows).map (fun r => ks.map (fun k => s.matEl g src f square rows depth r k))

/-- The first out-of-range byte of a scratchpad operand. -/
def State.matOut (s : State) (g : Group) (src : MatSrc) (f : Fmt) (square : Bool) (rows depth : Nat) : Option Nat :=
  match src with
  | .scratch base rp tp _ scaled =>
    (List.range ((depth + 63) / 64)).findSome? (fun p =>
      let pan := base + 16 * tp * p
      let n := (min 64 (depth - 64 * p) * fmtBits f + 7) / 8
      ((List.range rows).findSome? (fun r => s.scratchOut g (pan + 16 * rp * r) n)).orElse (fun _ =>
        if scaled && f.isMx then s.scratchOut g (pan + 16 * rp * rows) (stripBytes square rows) else none))
  | _ => none

/-- The toggle estimate E of an operation from the codes of the first rows of its operands (R388). -/
def toggleOf (rows : List (Fmt × List Nat)) : Nat :=
  let one := fun (f : Fmt) (codes : List Nat) =>
    let x := codes.zipIdx.foldl (fun a (c, i) => a + c * 2 ^ (fmtBits f * i)) 0
    let n := min 32 ((codes.length * fmtBits f + 7) / 8)
    (List.range (n - 1)).foldl (fun t i =>
      t + ((List.range 8).filter (fun b => bit x (8 * i + b) != bit x (8 * i + 8 + b))).length) 0
  min 255 (rows.foldl (fun t r => t + one r.1 r.2) 0 / 2)

/-- Codes of an operand's row 0, as many as its first 32 bytes hold. -/
def State.firstRow (s : State) (g : Group) (src : MatSrc) (f : Fmt) (depth : Nat) : Fmt × List Nat :=
  (f, (List.range (min depth ((256 + fmtBits f - 1) / fmtBits f))).map (fun k => (s.matCode g src f depth 0 k).1))

/-! ### Products (R122, R298) -/

/-- Depth indices of chunk c. -/
def chunkOf (depth c : Nat) : List Nat := List.range' (64 * c) (min 64 (depth - 64 * c))

/-- One element after a chunk: the exact sum, rounded once into the view. -/
def chunkSum (f : FSpec) (sr : Option Nat) (start : FVal) (terms : List FVal) : Nat :=
  let sum := sumExact .rne (start :: terms)
  match sr with
  | some d => f.round .sr d false sum
  | none => f.round .rne 0 false sum

/-- The new elements of a tile after chunk c of a product, whose operands are given by rows at the chunk's depth indices. -/
def Group.product (g : Group) (n : Nat) (t : Tile) (key : W64) (stream : W32) (allBad : Bool) (c : Nat) (a b : Els) : List (Nat × Nat × Nat × Bool) :=
  t.cells.map (fun (i, j) =>
    let (start, bad) := g.tileValue t i j
    let sr := if t.view = .n12 then some (draw key stream.toNat n c (i * 64 + j)) else none
    let ra := a.getD i []
    let rb := b.getD j []
    (i, j, chunkSum (viewSpec t.view) sr start ((ra.zip rb).map (fun (x, y) => x.v.mul y.v)), allBad || bad || ra.any (·.bad) || rb.any (·.bad)))

def Els.anyReserved (x : Els) : Bool := x.any (fun r => r.any (·.reserved))

/-- Elements (rows × cols) of a tensor of MMD from the lines read; one whose line cannot be read is a poisoned 0. -/
def tensorEls (cache : Cache) (t : Tensor) (cells : List (List (Nat × Nat))) : Els :=
  cells.map (fun row => row.map (fun (i, j) =>
    match cache.value t i j with
    | .ok d => { v := d.v, bad := d.bad, reserved := d.note.isSome }
    | .error _ => { v := .fin false 0 0, bad := true, reserved := false }))

/-! ### Operations in slots (R291, R298 to R300, R306) -/

/-- K per unit cycle of a format (R16). -/
def kcOf : Fmt → Nat
  | .fp32 => 4
  | .bf16 | .fp16 => 32
  | .e3m2 | .e2m3 | .e2m1 | .mxt2 => 128
  | _ => 64

/-- Unit cycles of a product (R300). -/
def Tile.cost (t : Tile) : Nat :=
  let kc := min (kcOf t.fa) (kcOf t.fb)
  (t.rows + 15) / 16 * ((t.cols + 15) / 16) * ((t.k + kc - 1) / kc)

/-- Number of the unit that performs an operation. -/
def unitOf (g : Group) (t : Tile) : Nat := 4 * g.core + t.unit

/-- Nothing earlier stands before an operation, in tile order or at its unit (R291). -/
def State.matFirst (s : State) (g : Group) (o : MatOp) : Bool :=
  !(o.tiles.any (fun n => g.tileBefore n o.stamp)) &&
  !(s.groups.any (fun h => h.core = g.core && s.working h && h.ops.any (fun q => q.stamp < o.stamp && q.bind.unit = o.bind.unit)))

/-- Put an operation into a slot; one that was held back keeps its place. -/
def State.launchMat (s : State) (g : Nat) (o : MatOp) (place : Nat := 0) : State :=
  let (s, n) := s.fresh
  s.updGroup g (fun g => { g with ops := g.ops ++ [{ o with stamp := if place = 0 then n else place }] })

/-- A record of an operation (R473). -/
def State.matErr (s : State) (g : Group) (o : MatOp) (cls addr detail : Nat) : ErrRec :=
  { ErrRec.none with
    addr := BitVec.ofNat 64 addr
    lcyc := s.lcyc 3 (unitOf g o.bind)
    cls := cls
    launch := g.launchId
    group := g.handle
    ctx := g.ctx
    acls := 3
    agent := unitOf g o.bind
    detail := detail }

/-- An out-of-range access of an operation is recorded once for its group (R456). -/
def State.noteMat (s : State) (g : Group) (o : MatOp) (write : Bool) (out : Option Nat) : State :=
  match out with
  | some a => s.noteOut g.key a (s.matErr g o 0x2B a (write.toNat + 2))
  | none => s

/-- A reserved code is reported once for an operation, with its instruction (R479). -/
def State.noteCode (s : State) (g : Group) (o : MatOp) (met : Bool) (op : Nat) : State :=
  if met && !o.said then s.report { s.matErr g o 0x34 0 (op * 64) with pc := o.pc } else s

/-- An operation after a chunk. -/
def MatOp.advanced (o : MatOp) (met : Bool) : MatOp :=
  { o with
    chunk := o.chunk + 1
    said := o.said || met }

/-- Perform the next chunk of MMA (R122, R298). -/
def State.mmaChunk (s : State) (g : Group) (o : MatOp) : State :=
  let t := o.bind
  let ks := chunkOf t.k o.chunk
  let s := if o.chunk = 0 then (s.noteMat g o false (s.matOut g o.a t.fa t.sa t.rows t.k)).noteMat g o false (s.matOut g o.b t.fb t.sb t.cols t.k) else s
  let a := s.matEls g o.a t.fa t.sa t.rows t.k ks
  let b := s.matEls g o.b t.fb t.sb t.cols t.k ks
  let met := a.anyReserved || b.anyReserved
  (s.updGroup g.key (fun q =>
    { (q.putEls t (g.product o.tile t o.key o.stream o.badGen o.chunk a b)).markDirty o.tile with
      ops := mapIf (fun p => p.slot = o.slot) (MatOp.advanced · met) q.ops })).noteCode g o met 0xA2

/-- Lines of a tensor that hold elements, by column lines, with their scales. -/
def Tensor.cellKeys (t : Tensor) (cells : List (List (Nat × Nat))) : List Nat :=
  (cells.flatMap (fun row => row.flatMap (fun (i, j) =>
    ((List.range ((t.width + 7) / 8)).map (fun b => (srcKey t.colWidth (t.byteVa i ((t.boff + j * t.width) / 8 + b))).1)) ++
    (if t.scaled then [(srcKey 0 (t.sbase + mxBlockIndex t.bsh t.cols i j)).1] else [])))).eraseDups

/-- The unit reads the lines of a tensor that hold elements and that it has not read yet (R184, R302). -/
def State.tensorRead (s : State) (g : Group) (c : Ctx) (o : MatOp) (t : Tensor) (src : List (Nat × List (Byte × Bool))) (cells : List (List (Nat × Nat))) :
    State × List (Nat × List (Byte × Bool)) :=
  ((t.cellKeys cells).filter (fun k => !(src.any (fun e => e.1 = k)))).foldl (fun (s, src) k =>
    match s.sourceLine c (2, 3, unitOf g o.bind) g.viaEngine t.colWidth k with
    | (s, .ok bs) => (s, src ++ [(k, bs)])
    | (s, .error _) => (s, src)) (s, src)

/-- Perform the next chunk of MMD (R302): first those of the product with W, in the tile's depth, then those of the product with X. -/
def State.mmdChunk (s : State) (g : Group) (c : Ctx) (o : MatOp) : State :=
  let t := o.bind
  let u := o.bind2.getD t
  let first := (t.k + 63) / 64
  let s := if o.chunk = 0 then s.noteMat g o false (s.matOut g o.a t.fa t.sa t.rows t.k) else s
  let put := fun (s : State) (n : Nat) (v : Tile) (els : List (Nat × Nat × Nat × Bool)) (met : Bool) (f : MatOp → MatOp) =>
    (s.updGroup g.key (fun q =>
      { (q.putEls v els).markDirty n with ops := mapIf (fun p => p.slot = o.slot) (fun p => f (MatOp.advanced p met)) q.ops })).noteCode g o met 0xA3
  if o.chunk < first then
    let ks := chunkOf t.k o.chunk
    let w := Tensor.ofBytes (o.desc.take 32)
    let cells := (List.range t.cols).map (fun k => ks.map (fun n => (k, n)))
    let (s, src) := s.tensorRead g c o w o.srcW cells
    let dy := s.matEls g o.a t.fa t.sa t.rows t.k ks
    let we := tensorEls ⟨w.colWidth, src, none⟩ w cells
    put s o.tile t (g.product o.tile t o.key o.stream o.badGen o.chunk dy we) (dy.anyReserved || we.anyReserved) (fun p => { p with srcW := src })
  else
    let ks := chunkOf u.k (o.chunk - first)
    let x := Tensor.ofBytes (o.desc.drop 32)
    let cells := (List.range u.rows).map (fun k => ks.map (fun i => (i, k)))
    let (s, src) := s.tensorRead g c o x o.srcX cells
    let xe := tensorEls ⟨x.colWidth, src, none⟩ x cells
    let dy : Els := (List.range t.k).map (fun n => ks.map (fun i => s.matEl g o.a t.fa t.sa t.rows t.k i n))
    put s (o.tile + 1) u (g.product (o.tile + 1) u o.key o.stream o.badGen (o.chunk - first) xe dy) (dy.anyReserved || xe.anyReserved) (fun p => { p with srcX := src })

def tileSpec : TileFmt → FSpec
  | .bf16 => .bf16
  | .f16 => .fp16
  | _ => .fp32

/-- An FP32 value into a tile element (R303): exact, or rounded once into N12. -/
def intoTile (v : View) (mode : Mode) (x : FVal) : Nat := (viewSpec v).round (if v = .n12 then mode else .rne) 0 false x

/-- A tile element to FP32 (R303). -/
def outOfTile (v : View) (mode : Mode) (sat : Bool) (x : Nat) : Nat :=
  match v with
  | .a56 => FSpec.fp32.round mode 0 sat (FSpec.a56.decode (x % 2 ^ 56))
  | .fp32 => x % 2 ^ 32
  | .n12 => FSpec.fp32.round .rne 0 false (FSpec.n12.decode (x % 2 ^ 21))

/-- The scratchpad cells of TLD and TST: base, row pitch in bytes, rotation. -/
def MatSrc.place : MatSrc → Nat × Nat × Nat
  | .scratch base rp _ rot _ => (base, 16 * rp, rot)
  | _ => (0, 0, 0)

def State.moveOut (s : State) (g : Group) (o : MatOp) : Option Nat :=
  let (base, rp, _) := o.a.place
  (List.range o.bind.rows).findSome? (fun i => s.scratchOut g (base + rp * i) (o.bind.cols * tileBytes o.fmt))

/-- Perform TLD (R306). -/
def State.runTld (s : State) (g : Group) (o : MatOp) : State :=
  let t := o.bind
  let z := tileBytes o.fmt
  let (base, rp, rot) := o.a.place
  let s := s.noteMat g o false (s.moveOut g o)
  let els := t.cells.map (fun (i, j) =>
    let l := s.scratchBytes g rot (base + rp * i + j * z) z
    let x := leNat (l.map (·.1))
    (i, j, if o.fmt = .raw then x else intoTile t.view o.mode ((tileSpec o.fmt).decode x), o.badGen || l.any (·.2)))
  s.updGroup g.key (fun q => (q.putEls t els).markDirty o.tile)

/-- Perform TST (R306). -/
def State.runTst (s : State) (g : Group) (o : MatOp) : State :=
  let t := o.bind
  let z := tileBytes o.fmt
  let (base, rp, rot) := o.a.place
  let s := s.noteMat g o true (s.moveOut g o)
  t.cells.foldl (fun s (i, j) =>
    let (x, bad) := g.accEl (t.off + i * t.cols + j)
    let v := if o.fmt = .raw then x.toNat else (tileSpec o.fmt).round o.mode 0 o.sat (g.tileValue t i j).1
    s.putScratch g rot (base + rp * i + j * z) (leBytes z v) bad) s

/-- An operation has been performed: its slot is free, and its counter is advanced (R299). -/
def State.endMat (s : State) (g : Group) (o : MatOp) : State :=
  let s := s.updGroup g.key (fun g => { g with ops := g.ops.filter (fun q => q.slot ≠ o.slot) })
  let s := match o.ctr with
    | some a => s.advanceOf g o.csp a 1 3 (unitOf g o.bind)
    | none => s
  s.tryEnd g.key

/-- Chunks of a product in all. -/
def MatOp.chunks (o : MatOp) : Nat :=
  match o.kind with
  | .mma => (o.bind.k + 63) / 64
  | .mmd => (o.bind.k + 63) / 64 + ((o.bind2.getD o.bind).k + 63) / 64
  | _ => 0

/-- Unit cycles of the first c chunks of a product on a tile. -/
def Tile.costOf (t : Tile) (c : Nat) : Nat :=
  let kc := min (kcOf t.fa) (kcOf t.fb)
  (t.rows + 15) / 16 * ((t.cols + 15) / 16) * ((min (64 * c) t.k + kc - 1) / kc)

/-- Unit cycles that are left when the first c chunks of a product have been performed. -/
def MatOp.leftAt (o : MatOp) (c : Nat) : Nat :=
  let u := o.bind2.getD o.bind
  let first := (o.bind.k + 63) / 64
  match o.kind with
  | .mmd => o.bind.cost + u.cost - (o.bind.costOf c + u.costOf (c - first))
  | _ => o.bind.cost - o.bind.costOf c

/-- The operation in a slot, of certain kinds, when it is next to be performed. -/
def State.matNext (s : State) (g slot : Nat) (kinds : List MatKind) : Option (Group × Ctx × MatOp) :=
  (s.group? g).bind (fun q => (s.ctx? q.ctx).bind (fun c =>
    match q.ops.find? (fun o => o.slot = slot) with
    | some o => if kinds.contains o.kind && s.working q && s.matFirst q o then some (q, c, o) else none
    | none => none))

/-- The same, when it has no unit cycles left. -/
def State.matReady (s : State) (g slot : Nat) (kinds : List MatKind) : Option (Group × Ctx × MatOp) :=
  (s.matNext g slot kinds).bind (fun x => if x.2.2.left = 0 then some x else none)

/-- Perform the next chunk of a product. -/
def State.chunkStep (s : State) (g slot : Nat) : State :=
  match (s.group? g).bind (fun q => (q.ops.find? (fun o => o.slot = slot)).bind (fun o => (s.ctx? q.ctx).map (fun c => (q, c, o)))) with
  | some (q, c, o) => if o.kind = .mma then s.mmaChunk q o else s.mmdChunk q c o
  | none => s

/-- Perform n chunks. -/
def State.chunkSteps (s : State) (g slot : Nat) : Nat → State
  | 0 => s
  | n + 1 => (s.chunkStep g slot).chunkSteps g slot n

/-- The key of an operation's own events. -/
def MatOp.key5 (o : MatOp) : Nat × Nat := (5, o.stamp)

/-- A chunk of a product is performed once its unit cycles have been spent (R81, R122). -/
def State.chunkTurn (s : State) (g slot : Nat) : Result :=
  match s.matNext g slot [.mma, .mmd] with
  | some (_, _, o) =>
    if o.chunk < o.chunks && o.left ≤ o.leftAt (o.chunk + 1) then s.attempt (MatOp.key5 o) 2 fun s => .next (s.chunkStep g slot)
    else notNow s
  | none => notNow s

/-- MATRIX_OP_COMPLETE: the chunks that are left are performed, and the operation ends (R298, R299, R302). -/
def execMatrixOpComplete (g slot : Nat) (s : State) : Result :=
  match s.matReady g slot [.mma, .mmd] with
  | some (q, _, o) => s.attempt (MatOp.key5 o) 2 fun s => .next ((s.chunkSteps g slot (o.chunks - o.chunk)).endMat q o)
  | none => notNow s

/-- TILE_TRANSFER_COMPLETE: a TST writes lines that no transfer owned before it (R183, R299, R306). -/
def execTileTransferComplete (g slot : Nat) (s : State) : Result :=
  match s.matReady g slot [.tld, .tst] with
  | some (q, _, o) =>
    if (o.stLines q).any (s.earlierOwner o.stamp) then notNow s
    else s.attempt (MatOp.key5 o) 2 fun s => .next ((if o.kind = .tld then s.runTld q o else s.runTst q o).endMat q o)
  | none => notNow s

/-! ### Matrix issues: common parts (R46, R298, R304) -/

/-- The first member's warp: uniform operands are read from it. -/
def Gen.low (e : Gen) : Nat := e.warps.headD 0
def Gen.uniform (e : Gen) (h : Hdr) (a : Src) : List Reg := (e.iss e.low).words h a 0

/-- A poisoned uniform operand that cannot carry poison: DETAIL (R517). -/
def Gen.uniformBad (e : Gen) (h : Hdr) (l : List Src) : Option Nat := strictFault { srcs := l } (l.map (e.uniform h))

/-- A warp is the one whose uniform operands are read. -/
def Iss.lowest (x : Iss) (cv : CvField) : Bool :=
  match (x.g.members cv x.r.w).head? with
  | some m => m.1 = x.r.w
  | none => true

/-- An access of a member that precedes the issue has not been performed (R181). -/
def State.memberWaits (s : State) (e : Gen) : Bool :=
  s.mem.ops.any (fun o => o.g = e.r.g && !o.done &&
    e.conv.signers.any (fun m => m.w = o.w && o.tmask.getLsbD m.pos))

/-- The register fragments of the first n members (R296): zeros from one that is predicated off or has ended. -/
def Gen.fragments (e : Gen) (h : Hdr) (a : Src) (n : Nat) : List (List Reg) :=
  (e.conv.signers.take n).map (fun m => if e.takes m then (e.iss m.w).words h a m.pos else regsOf a.n 0 false)

/-- A fragment or scratchpad operand as a source. -/
def matSource (field : Nat) (op : Operand) (scr : Bool) (f : Fmt) : Src :=
  if scr then uniSrc field op 2 else { field := field, op := op, n := f.groupRegs, group := true }

/-- Bytes that the register form of an operand captures. -/
def captureBytes (scr : Bool) (f : Fmt) (rows depth : Nat) : Nat := if scr then 0 else runsOf rows depth * (2 * fmtBits f)

/-! ### MMA (R296 to R298, R474, R476) -/

def MmaOps.fmtA (x : MmaOps) (g : Group) : Fmt := match g.tile x.tile.val with | some t => t.fa | none => .mxt2
def MmaOps.fmtB (x : MmaOps) (g : Group) : Fmt := match g.tile x.tile.val with | some t => t.fb | none => .mxt2

def MmaOps.mmaSrcs (x : MmaOps) (g : Group) : List Src :=
  [uniSrc 1 x.d 2, matSource 2 x.a x.aScr (MmaOps.fmtA x g), matSource 3 x.b x.bScr (MmaOps.fmtB x g)]

/-- The uniform operands of MMA. -/
def MmaOps.mmaUni (x : MmaOps) : List Src :=
  [uniSrc 1 x.d 2] ++ (if x.aScr then [uniSrc 2 x.a 2] else []) ++ (if x.bScr then [uniSrc 3 x.b 2] else [])

/-- The reason of R476 for n members; the pairs' words where they are known. -/
def MmaOps.mmaReason (x : MmaOps) (t : Tile) (n : Nat) (pa pb : Option Nat) : Option Nat :=
  if (!x.aScr && n < runsOf t.rows t.k) || (!x.bScr && n < runsOf t.cols t.k) then some 1
  else if 32768 < captureBytes x.aScr t.fa t.rows t.k + captureBytes x.bScr t.fb t.cols t.k then some 2
  else if (x.aScr && pa.any (fun w => panelBad w t.fa t.sa t.rows t.k)) || (x.bScr && pb.any (fun w => panelBad w t.fb t.sb t.cols t.k)) then some 3
  else none

/-- The checks of MMA for a group: class, ADDR and DETAIL. -/
def MmaOps.mmaCheck (x : MmaOps) (g : Group) (n : Nat) (pa pb : Option Nat) : Option (Nat × Nat × Nat) :=
  match g.tile x.tile.val with
  | none => some (0x30, 0, unboundDetail x.tile.val 0xA2)
  | some t =>
    match MmaOps.mmaReason x t n pa pb with
    | some r => some (0x32, 0, x.tile.val + r * 64)
    | none => if g.genBad ≠ 0 then some (0x36, 0, g.genBad) else none

/-- A higher warp has issued an instruction on a tile of the generation in this cycle: the generation issues in a later one (R291; its
warp is that of its lowest member, DEDUCED, log 50). -/
def State.genTileLate (s : State) (e : Gen) : Bool :=
  (match e.conv.instr with | some i => tilesNamed i | none => []).any (fun n => !(e.g.wins s.coreClock (.tile n) e.low))

/-- The generation's issue, in this cycle, on its tiles. -/
def State.markTiles (s : State) (e : Gen) : State :=
  (match e.conv.instr with | some i => tilesNamed i | none => []).foldl (fun s n => s.markTile e.r.g e.low n) s

/-- What stands before the issue of a matrix operation: its checks, accesses before it, a free slot. -/
def State.matGate (s : State) (e : Gen) (h : Hdr) (uni : List Src) (check : Option (Nat × Nat × Nat)) : Gate :=
  match e.uniformBad h uni with
  | some d => .fail 0x60 0 0 d
  | none =>
    match check with
    | some (cls, addr, detail) => .fail cls 1 addr detail
    | none => if s.memberWaits e || (s.slotOf e.g).isNone || s.genTileLate e then .hold else .go

/-- A matrix operation at its issue, without what its kind adds. -/
def Gen.matOp (e : Gen) (s : State) (h : Hdr) (kind : MatKind) (tile : Nat) (t : Tile) (d : Operand) (csp : Bool) : MatOp :=
  { slot := (s.slotOf e.g).getD 0, kind := kind, pc := e.conv.spc, tile := tile, bind := t, bind2 := none, a := .absent, b := .absent,
    desc := [], ctr := if d = .vz then none else some (BitVec.ofNat 64 (regsNat (e.uniform h (uniSrc 1 d 2)))), csp := csp, fmt := .raw,
    sat := false, mode := .rne, key := e.g.key64, stream := e.g.stream, badGen := false, stamp := 0, left := t.cost, toggle := 0, chunk := 0,
    said := false, srcW := [], srcX := [] }

/-- The operand as the issue captures it. -/
def Gen.operand (e : Gen) (h : Hdr) (a : Src) (scr : Bool) (rows depth : Nat) : MatSrc :=
  if scr then .ofPair (regsNat (e.uniform h a)) else .regs (e.fragments h a (runsOf rows depth))

/-- The operation of MMA on a tile. -/
def Gen.mmaOp (e : Gen) (s : State) (x : MmaOps) (t : Tile) : MatOp :=
  let a := e.operand x.h (matSource 2 x.a x.aScr t.fa) x.aScr t.rows t.k
  let b := e.operand x.h (matSource 3 x.b x.bScr t.fb) x.bScr t.cols t.k
  { e.matOp s x.h .mma x.tile.val t x.d x.csp with
    a := a
    b := b
    toggle := toggleOf [s.firstRow e.g a t.fa t.k, s.firstRow e.g b t.fb t.k] }

def State.mmaGen (s : State) (x : MmaOps) (r : GenRef) : State :=
  s.runGen r { h := x.h, srcs := [] }
    (fun e _ s =>
      let pair := fun (a : Src) => some (regsNat (e.uniform x.h a))
      s.matGate e x.h (MmaOps.mmaUni x) (MmaOps.mmaCheck x e.g e.conv.signers.length (pair (uniSrc 2 x.a 2)) (pair (uniSrc 3 x.b 2))))
    (fun e _ s =>
      match e.g.tile x.tile.val with
      | none => s
      | some t => (s.markTiles e).launchMat r.g (e.mmaOp s x t) e.conv.place)

/-- MMA (R298). -/
def execMma (x : MmaOps) (s : State) : Result :=
  withIssue s fun y =>
    let sh : Shape := { srcs := MmaOps.mmaSrcs x y.g, execOnly := true, uni := some false }
    signAt (.mma x) x.h x.cv sh false
      (fun i _ =>
        let pair := fun (a : Src) => if i.lowest x.cv then some (regsNat (i.words x.h a (maskLow i.p.tmask))) else none
        MmaOps.mmaCheck x i.g (i.g.members x.cv i.r.w).length (pair (uniSrc 2 x.a 2)) (pair (uniSrc 3 x.b 2)))
      (fun r s => s.mmaGen x r) s

/-! ### MMD (R302, R476) -/

def MmaOps.mmdUni (x : MmaOps) : List Src := [uniSrc 1 x.d 2] ++ (if x.aScr then [uniSrc 2 x.a 2] else []) ++ [uniSrc 3 x.b 2]

/-- A tensor of MMD whose form or some of whose addresses MMD cannot use (R476 reason 5). -/
def State.tensorBad (s : State) (c : Ctx) (via : Option TlbPlace) (t : Tensor) : Bool :=
  !t.lay || !([8, 16, 32].contains t.width) || t.isWire || t.code = 15 || t.bsh = 3 ||
  (t.keys 0 (List.range t.rows) true).any (fun l => match s.translate c (keyVa 0 l) via with | .ok _ => false | .error _ => true)

/-- Tiles and descriptors that do not match the table of R302 (R476 reason 4). -/
def mmdMismatch (t u : Tile) (w x : Tensor) : Bool :=
  t.unit ≠ u.unit || u.rows ≠ t.cols || u.cols ≠ t.k || u.k ≠ t.rows || u.fb ≠ t.fa || t.fb ≠ w.fmt || u.fa ≠ x.fmt ||
  w.rows ≠ t.cols || w.cols ≠ t.k || x.rows ≠ t.rows || x.cols ≠ t.cols

/-- The checks of MMD; `addr` is the address of the descriptor pair where it is known. -/
def State.mmdCheck (s : State) (c : Ctx) (x : MmaOps) (g : Group) (n : Nat) (pa addr : Option Nat) : Option (Nat × Nat × Nat) :=
  match g.tile x.tile.val, g.tile (x.tile.val + 1) with
  | some t, some u =>
    let runs := !x.aScr && decide (n < runsOf t.rows t.k)
    let big := decide (32768 < captureBytes x.aScr t.fa t.rows t.k)
    let panel := x.aScr && pa.any (fun w => panelBad w t.fa t.sa t.rows t.k)
    let tiles : Option Nat := match addr with
      | none => none
      | some a =>
        if a % 32 ≠ 0 then some 5
        else match s.readVirt c a 64 g.via with
          | none => some 5
          | some (bs, bad) =>
            let w := Tensor.ofBytes (bs.take 32)
            let v := Tensor.ofBytes (bs.drop 32)
            if bad then some 5 else if mmdMismatch t u w v then some 4 else if s.tensorBad c g.viaEngine w || s.tensorBad c g.viaEngine v then some 5 else none
    match if runs then some 1 else if big then some 2 else if panel then some 3 else tiles with
    | some r => some (0x32, if 4 ≤ r then addr.getD 0 else 0, x.tile.val + r * 64)
    | none => if g.genBad ≠ 0 then some (0x36, 0, g.genBad) else none
  | none, _ => some (0x30, 0, unboundDetail x.tile.val 0xA3)
  | _, none => some (0x30, 0, unboundDetail (x.tile.val + 1) 0xA3)

/-- The address of the descriptors of MMD. -/
def Gen.mmdAt (e : Gen) (x : MmaOps) : Nat := regsNat (e.uniform x.h (uniSrc 3 x.b 2))

/-- The operation of MMD on a pair of tiles, from the bytes of its descriptors. -/
def Gen.mmdOp (e : Gen) (s : State) (x : MmaOps) (t u : Tile) (desc : List Byte) : MatOp :=
  let a := e.operand x.h (matSource 2 x.a x.aScr t.fa) x.aScr t.rows t.k
  let w := Tensor.ofBytes (desc.take 32)
  let row := (List.range (min w.cols (256 / w.width))).map (fun k =>
    match s.readVirt e.c (w.byteVa 0 (k * w.width / 8)) (w.width / 8) e.g.viaEngine with | some (b, _) => leNat b | none => 0)
  { e.matOp s x.h .mmd x.tile.val t x.d x.csp with
    bind2 := some u
    a := a
    desc := desc
    left := t.cost + u.cost
    toggle := toggleOf [s.firstRow e.g a t.fa t.k, (w.fmt, row)] }

/-- The descriptors are read at the issue, by row lines of the core. -/
def State.mmdReach (s : State) (e : Gen) (x : MmaOps) : Gate :=
  match s.engineRead e.c (e.mmdAt x) 64 2 1 e.g.core e.g.via with
  | some (t, _) => if s.reachAll e.key 2 t.mem.touched && t.mem.misses.isEmpty then .go else .reach t.mem.touched t.mem.misses
  | none => .go

def State.mmdGen (s : State) (x : MmaOps) (r : GenRef) : State :=
  s.runGen r { h := x.h, srcs := [] }
    (fun e _ s =>
      let word := fun (a : Src) => some (regsNat (e.uniform x.h a))
      match s.matGate e x.h (MmaOps.mmdUni x) (s.mmdCheck e.c x e.g e.conv.signers.length (word (uniSrc 2 x.a 2)) (word (uniSrc 3 x.b 2))) with
      | .go => s.mmdReach e x
      | other => other)
    (fun e _ s =>
      match e.g.tile x.tile.val, e.g.tile (x.tile.val + 1), s.engineRead e.c (e.mmdAt x) 64 2 1 e.g.core e.g.via with
      | some t, some u, some (s, bs) => ((s.arrive e.key).markTiles e).launchMat r.g (e.mmdOp s x t u (bs.map (·.1))) e.conv.place
      | _, _, _ => s)

/-- MMD (R302). -/
def execMmd (x : MmaOps) (s : State) : Result :=
  withIssue s fun y =>
    let sh : Shape := { srcs := [uniSrc 1 x.d 2, matSource 2 x.a x.aScr (MmaOps.fmtA x y.g), uniSrc 3 x.b 2], execOnly := true, uni := some false }
    signAt (.mmd x) x.h x.cv sh false
      (fun i s =>
        let word := fun (a : Src) => if i.lowest x.cv then some (regsNat (i.words x.h a (maskLow i.p.tmask))) else none
        s.mmdCheck i.c x i.g (i.g.members x.cv i.r.w).length (word (uniSrc 2 x.a 2)) (word (uniSrc 3 x.b 2)))
      (fun r s => s.mmdGen x r) s

/-! ### Row and column moves (R303, R304) -/

/-- The index of a row or column move, as a source. -/
def moveIndex (a : Operand) : Src := { field := 2, op := a, uni := true }

/-- The check of a move at signing: an unbound tile, or an index at or beyond the tile's rows or columns (R474, R477). -/
def moveCheck (tile op : Nat) (row : Bool) (g : Group) (idx : Option Nat) : Option (Nat × Nat × Nat) :=
  match g.tile tile with
  | none => some (0x30, 0, unboundDetail tile op)
  | some t =>
    match idx with
    | some i => if (if row then t.rows else t.cols) ≤ i % 64 then some (0x33, 0, tile + 64) else none
    | none => none

def moveGate (tile op : Nat) (row : Bool) (h : Hdr) (a : Operand) (e : Gen) (_ : Vals) (s : State) : Gate :=
  match moveCheck tile op row e.g (some (regsNat (e.uniform h (moveIndex a)))) with
  | some (cls, addr, detail) => .fail cls (trapDomain cls) addr detail
  | none => if e.g.tileBefore tile (if e.conv.place = 0 then s.stamp else e.conv.place) || s.genTileLate e then .hold else .go

/-- Elements that a row or column has. -/
def Group.moveLength (g : Group) (tile : Nat) (row : Bool) : Nat :=
  match g.tile tile with
  | some t => if row then t.cols else t.rows
  | none => 0

def State.moveLength (s : State) (r : GenRef) (tile : Nat) (row : Bool) : Nat :=
  match s.group? r.g with
  | some g => g.moveLength tile row
  | none => 0

def moveSign (i : Iss) (h : Hdr) (a : Operand) (cv : CvField) (tile op : Nat) (row : Bool) : Option (Nat × Nat × Nat) :=
  moveCheck tile op row i.g (if i.lowest cv then some (regsNat (i.words h (moveIndex a) (maskLow i.p.tmask))) else none)

def TileWriteOps.src (x : TileWriteOps) : Src := { field := 3, op := x.b, n := if x.raw then 2 else 1, inl := if x.raw then .int else .f32 }

/-- TWRR and TWRC at the generation's issue. -/
def State.tileWriteGen (s : State) (x : TileWriteOps) (op : Nat) (row : Bool) (r : GenRef) : State :=
  let n := s.moveLength r x.tile.val row
  s.runGen r { h := x.h, srcs := [TileWriteOps.src x], upTo := n } (moveGate x.tile.val op row x.h x.a) fun e vals s =>
    match e.g.tile x.tile.val with
    | none => s
    | some t =>
      let a := e.uniform x.h (moveIndex x.a)
      let idx := regsNat a % 64
      let els := (e.conv.signers.take n).zipIdx.map (fun (m, k) =>
        let rs := match vals.find? (fun v => v.1.w = m.w && v.1.pos = m.pos) with
          | some v => v.2.headD []
          | none => []
        let y := if x.raw then regsNat rs else intoTile t.view x.mode (FSpec.fp32.decode (regsNat rs))
        if row then (idx, k, y, regsBad rs || regsBad a) else (k, idx, y, regsBad rs || regsBad a))
      (s.markTiles e).updGroup r.g (fun g => (g.putEls t els).markDirty x.tile.val)

def tileWrite (i : Instr) (x : TileWriteOps) (op : Nat) (row : Bool) (s : State) : Result :=
  signAt i x.h x.cv { srcs := [moveIndex x.a, TileWriteOps.src x], execOnly := true, uni := some false } false
    (fun y _ => moveSign y x.h x.a x.cv x.tile.val op row) (fun r s => s.tileWriteGen x op row r) s

/-- TWRR writes a row (R304). -/
def execTwrr (x : TileWriteOps) (s : State) : Result := tileWrite (.twrr x) x 0xA4 true s
/-- TWRC writes a column (R304). -/
def execTwrc (x : TileWriteOps) (s : State) : Result := tileWrite (.twrc x) x 0xA5 false s

def TileReadOps.dst (x : TileReadOps) : Dst := { op := x.d, n := if x.raw then 2 else 1 }

/-- An element as TRDR, TRDC and TEPI give it (R303). -/
def Group.elOut (g : Group) (t : Tile) (i j : Nat) (raw : Bool) (mode : Mode) (sat : Bool) : Nat × Bool :=
  let (x, bad) := g.accEl (t.off + i * t.cols + j)
  (if raw then x.toNat else outOfTile t.view mode sat x.toNat, bad)

/-- TRDR and TRDC at the generation's issue. -/
def State.tileReadGen (s : State) (x : TileReadOps) (op : Nat) (row : Bool) (r : GenRef) : State :=
  let n := s.moveLength r x.tile.val row
  s.runGen r { h := x.h, srcs := [], dst := some (TileReadOps.dst x), upTo := n } (moveGate x.tile.val op row x.h x.a) fun e _ s =>
    match e.g.tile x.tile.val with
    | none => s
    | some t =>
      let a := e.uniform x.h (moveIndex x.a)
      let idx := regsNat a % 64
      (e.conv.signers.take n).zipIdx.foldl (fun s (m, k) =>
        if e.takes m then
          let (y, bad) := if row then e.g.elOut t idx k x.raw x.mode x.sat else e.g.elOut t k idx x.raw x.mode x.sat
          s.genWrite e (TileReadOps.dst x) m (regsOf (TileReadOps.dst x).n y (bad || regsBad a))
        else s) (s.markTiles e)

def tileRead (i : Instr) (x : TileReadOps) (op : Nat) (row : Bool) (s : State) : Result :=
  signAt i x.h x.cv { srcs := [moveIndex x.a], dst := some (TileReadOps.dst x), execOnly := true, uni := some false } false
    (fun y _ => moveSign y x.h x.a x.cv x.tile.val op row) (fun r s => s.tileReadGen x op row r) s

/-- TRDR reads a row (R304). -/
def execTrdr (x : TileReadOps) (s : State) : Result := tileRead (.trdr x) x 0xA6 true s
/-- TRDC reads a column (R304). -/
def execTrdc (x : TileReadOps) (s : State) : Result := tileRead (.trdc x) x 0xA7 false s

/-! ### TEPI (R305, R477) -/

/-- The i-th code of a destination of several words. -/
def Operand.plus (o : Operand) (i : Nat) : Operand :=
  match o with
  | .p n => .p (Fin.ofNat 7 (n.val + i))
  | o => o

/-- Write n words from D on: consecutive registers, consecutive predicates, or entries of a port. -/
def State.writeRun (s : State) (i : Iss) (d : Operand) (t : Nat) (preds : List Nat) (rs : List Reg) : State :=
  match d with
  | .p _ => rs.zipIdx.foldl (fun s (r, k) => s.writeDst i.r.g i.r.w i.g { op := Operand.plus d k } t preds [r]) s
  | _ => s.writeDst i.r.g i.r.w i.g { op := d, n := rs.length, group := true } t preds rs

/-- TEPI (R305). -/
def execTepi (x : TepiOps) (s : State) : Result :=
  withIssue s fun y =>
    let b : Src := { field := 3, op := x.b, uni := true }
    let n := regsNat (y.words x.h b (maskLow y.p.tmask))
    let ok := decide (1 ≤ n) && decide (n ≤ 16)
    let m := if ok then n else 1
    issueTile (.tepi x) x.h { srcs := [srcA x.a 1, b], dst := some { op := x.d, n := m, group := true } } m x.tile.val s fun i k s' =>
      match i.g.tile x.tile.val with
      | none => (s'.faultPath i 0x30 0 (unboundDetail x.tile.val 0xAA), .stay)
      | some t =>
        if !ok then (s'.trapAll i.r (k.ts.map (fun u => ⟨u, 0x33, 0, x.tile.val + 2 * 64⟩)), .next [])
        else
          let row := fun (v : List (List Reg)) => bits (regsNat (v.headD [])) 13 8
          let col := fun (v : List (List Reg)) => bits (regsNat (v.headD [])) 5 0
          let out := k.vals.filter (fun (_, v) => decide (t.rows ≤ row v) || decide (t.cols < col v + n))
          let s' := s'.trapAll i.r (out.flatMap (fun (u, _) =>
            (if k.uni then k.ts else [u]).map (fun u => ⟨u, 0x33, 0, x.tile.val + 3 * 64⟩)))
          let good := k.vals.filter (fun (_, v) => !(decide (t.rows ≤ row v) || decide (t.cols < col v + n)))
          (good.foldl (fun s (u, v) =>
            let rs := (List.range n).map (fun e =>
              let (z, bad) := i.g.elOut t (row v) (col v + e) false x.mode x.sat
              Reg.ofNat z (bad || v.any regsBad))
            s.writeRun i x.d u (if k.uni then k.ts else [u]) rs) s', .next [])

/-! ### TLD and TST (R306) -/

/-- The operands of TLD and TST. -/
def TileMoveOps.shape (x : TileMoveOps) : Shape := { srcs := [uniSrc 1 x.d 2, uniSrc 2 x.a 2], uni := some true, suppress := true }

/-- The operation of TLD or TST, from its pair and its counter. -/
def TileMoveOps.move (x : TileMoveOps) (y : Iss) (kind : MatKind) (t : Tile) (slot pair ctr : Nat) : MatOp :=
  { slot := slot, kind := kind, pc := y.p.pc, tile := x.tile.val, bind := t, bind2 := none, a := .ofPair pair, b := .absent, desc := [],
    ctr := if x.d = .vz then none else some (BitVec.ofNat 64 ctr), csp := x.csp, fmt := x.fmt, sat := x.sat, mode := x.mode,
    key := y.g.key64, stream := y.g.stream, badGen := false, stamp := 0, left := (t.rows + 15) / 16 * ((t.cols + 15) / 16), toggle := 0,
    chunk := 0, said := false, srcW := [], srcX := [] }

/-- The common course of TLD and TST. -/
def tileMove (i : Instr) (x : TileMoveOps) (kind : MatKind) (op : Nat) (s : State) : Result :=
  issue i x.h (TileMoveOps.shape x) 1 s fun y k s' =>
    let v := (k.vals.headD (0, [])).2
    let pair := regsNat (v.getD 1 [])
    match y.g.tile x.tile.val with
    | none => (s'.faultPath y 0x30 0 (unboundDetail x.tile.val op), .stay)
    | some t =>
      if 16 * bits pair 30 23 < t.cols * tileBytes x.fmt then (s'.faultPath y 0x32 0 (x.tile.val + 6 * 64), .stay)
      else if kind = .tld && y.g.genBad ≠ 0 then (s'.faultPath y 0x36 0 y.g.genBad, .stay)
      else if s.fenceWaits y x.h .sc || !(y.g.wins s.coreClock (.tile x.tile.val) y.w.wid) then (s.putOff, .stay)
      else
        match s'.slotOf y.g with
        | none => (s.putOff, .stay)
        | some slot => ((s'.markTile y.r.g y.w.wid x.tile.val).launchMat y.r.g (TileMoveOps.move x y kind t slot pair (regsNat (v.getD 0 []))), .next [])

/-- TLD (R306). -/
def execTld (x : TileMoveOps) (s : State) : Result := tileMove (.tld x) x .tld 0xA8 s
/-- TST (R306). -/
def execTst (x : TileMoveOps) (s : State) : Result := tileMove (.tst x) x .tst 0xA9 s

/-! ### The governor and the die budget (R307, R387, R388) -/

/-- Matrix cap of a core in a power state. -/
def powerCap (power cap : Nat) : Nat :=
  match power with
  | 0 => cap
  | 1 => min cap 192
  | 2 => min cap 128
  | _ => 0

/-- Budget of a die for a window of 64 cycles. -/
def dieBudget (power : Nat) : Nat :=
  match power with
  | 0 => 3145728
  | 1 => 2359296
  | 2 => 1572864
  | _ => 0

/-- The operation that a unit of a core works on: the oldest of the groups there. -/
def State.unitOp (s : State) (core unit : Nat) : Option (Group × MatOp) :=
  (s.groups.filter (fun g => g.core = core && s.working g)).foldl (fun best g =>
    (g.ops.filter (fun o => o.bind.unit = unit)).foldl (fun best o => match best with
      | none => some (g, o)
      | some (h, q) => if o.stamp < q.stamp then some (g, o) else some (h, q)) best) none

def State.unitSt (s : State) (core unit : Nat) : UnitSt := sget ⟨none, 0⟩ s.cores.units (4 * core + unit)

/-- A unit within a window: unit cycles left of its operation, unit cycles granted, cycles held. -/
structure GovUnit where
  left : Nat
  grant : Nat
  stall : Nat
deriving DecidableEq, Repr

/-- One cycle of a window for the units in turn; `used` counts the unit cycles of the window. -/
def govCycle (cap : Nat) (used : Nat) : List GovUnit → Nat × List GovUnit
  | [] => (used, [])
  | u :: us =>
    if u.left = 0 then
      let (n, rest) := govCycle cap used us
      (n, u :: rest)
    else if u.grant = 0 || cap ≤ used then
      let (n, rest) := govCycle cap used us
      (n, { u with stall := u.stall + 1 } :: rest)
    else
      let (n, rest) := govCycle cap (used + 1) us
      (n, { u with
        left := u.left - 1
        grant := u.grant - 1 } :: rest)

/-- The 64 cycles of a window. -/
def govWindow (cap : Nat) : Nat → Nat → List GovUnit → List GovUnit
  | 0, _, us => us
  | n + 1, used, us =>
    let (used, us) := govCycle cap used us
    govWindow cap n used us

/-- What the units of a core have left and are granted in a window; one that asked for no grant as the window began does nothing in
it and is not held. -/
def State.govUnits (s : State) (core : Nat) : List GovUnit :=
  (List.range 4).map fun u =>
    match s.unitOp core u, (s.unitSt core u).grant with
    | some (_, o), some n => { left := o.left, grant := n, stall := 0 }
    | _, _ => { left := 0, grant := 0, stall := 0 }

/-- The window of 64 cycles in which a core, or a die, is (R307, R388). -/
def State.coreWindow (s : State) (core : Nat) : Nat := s.lcyc 1 core / 64
def State.dieWindow (s : State) : Nat := s.coreClock / 64

/-- GOVERNOR_WINDOW: at the end of a window of its local cycles, a core's units have worked within its cap, in the power state in which the
window began (R387), and within their grants. -/
def execGovernorWindow (core : Nat) (s : State) : Result :=
  let work := (List.range 4).map (fun u => (u, s.unitOp core u, s.unitSt core u))
  let busy := work.any (fun (_, o, st) => (match o with | some (_, o) => decide (0 < o.left) | none => false) && st.grant.isSome)
  if !busy || s.coreWindow core ≤ sget 0 s.cores.coreWindow core then notNow s
  else
    let cap := powerCap (sget 0 s.cores.diePower (dieOf core)) (sget 256 s.cores.cap core)
    let before := s.govUnits core
    let after := govWindow cap 64 0 before
    let stall := after.foldl (fun n u => n + u.stall) 0
    let s := (work.zip (before.zip after)).foldl (fun (s : State) ((u, o, st), (b, a)) =>
      if st.grant.isNone then s
      else
        let s := match o with
          | some (g, o) => s.updGroup g.key (fun g => { g with ops := mapIf (fun q => q.slot = o.slot) (fun q => { q with left := a.left }) g.ops })
          | none => s
        let held := if b.left ≠ 0 && a.left = b.left then st.held + 1 else 0
        { s with cores := { s.cores with units := sset ⟨none, 0⟩ s.cores.units (4 * core + u) ⟨none, held⟩ } }) s
    .next { s with cores := { s.cores with
      stall := sset 0 s.cores.stall core (sget 0 s.cores.stall core + BitVec.ofNat 64 stall) } }

/-- A unit that asks for a grant: core, unit, E, unit cycles, windows held. -/
structure Ask where
  core : Nat
  unit : Nat
  toggle : Nat
  want : Nat
  held : Nat
deriving DecidableEq, Repr

/-- The order of grants: units held for 16 windows first, then ascending E, then core number. -/
def Ask.before (a b : Ask) : Bool :=
  let ka := decide (16 ≤ a.held)
  let kb := decide (16 ≤ b.held)
  if ka != kb then ka
  else if a.toggle ≠ b.toggle then a.toggle < b.toggle
  else if a.core ≠ b.core then a.core < b.core else a.unit < b.unit

def insAsk (a : Ask) : List Ask → List Ask
  | [] => [a]
  | b :: rest => if a.before b then a :: b :: rest else b :: insAsk a rest

/-- Units of a die that have work and no grant. -/
def State.asks (s : State) (die : Nat) : List Ask :=
  ((List.range' (48 * die) 48).flatMap (fun c => (List.range 4).filterMap (fun u =>
    match s.unitOp c u with
    | some (_, o) =>
      if 0 < o.left && (s.unitSt c u).grant.isNone then
        some { core := c, unit := u, toggle := o.toggle, want := min 64 o.left, held := (s.unitSt c u).held }
      else none
    | none => none))).foldl (fun l a => insAsk a l) []

/-- DIE_BUDGET_WINDOW: as a window begins, a die grants unit cycles while their cost stays within the budget of the power state. -/
def execDieBudgetWindow (die : Nat) (s : State) : Result :=
  let asks := s.asks die
  if asks.isEmpty || s.dieWindow < sget 0 s.cores.dieWindow die then notNow s
  else
    let t := (asks.foldl (fun ((s, left) : State × Nat) a =>
      let n := min a.want (left / (a.toggle + 64))
      let st : UnitSt := ⟨some n, a.held⟩
      ({ s with cores := { s.cores with
          units := sset ⟨none, 0⟩ s.cores.units (4 * a.core + a.unit) st
          coreWindow := sset 0 s.cores.coreWindow a.core (s.coreWindow a.core) } }, left - n * (a.toggle + 64)))
      (s, dieBudget s.dev.power)).1
    .next { t with cores := { t.cores with
      dieWindow := sset 0 t.cores.dieWindow die (s.dieWindow + 1)
      diePower := sset 0 t.cores.diePower die s.dev.power } }

end Sys2Proof.Machine
end

