-- ==== Sys2Proof/Machine/Adamw.lean ====
section
/-! DEFINITION. Adamw.lean: one AdamW step per thread and its poison (R308, R309, R480 to R482). -/

namespace Sys2Proof.Machine

/-! ### The step (R309) -/

/-- The hyperparameters of B to B + 6 as values. -/
structure Hyper where
  lr : FVal
  b1 : FVal
  b2 : FVal
  eps : FVal
  decay : FVal
  c1 : FVal
  c2 : FVal

def rne32 (v : FVal) : Nat := FSpec.fp32.round .rne 0 false v
def val32 (x : Nat) : FVal := FSpec.fp32.decode x

/-- The words of w', m' and v' (the moments in BF16 under `.bf16`), with the draws of R126. -/
def adamStep (h : Hyper) (bf16 : Bool) (mode : Mode) (d0 d1 : Nat) (w m v g : FVal) : Nat × Nat × Nat :=
  let a := val32 (rne32 (FVal.sub .rne (.fin false 1 0) h.b1))
  let b := val32 (rne32 (FVal.sub .rne (.fin false 1 0) h.b2))
  let f : FSpec := if bf16 then .bf16 else .fp32
  let m' := f.round (if bf16 then mode else .rne) d0 false (FVal.add .rne (h.b1.mul m) (a.mul g))
  let v' := f.round (if bf16 then mode else .rne) d1 false (FVal.add .rne (h.b2.mul v) ((b.mul g).mul g))
  let mh := val32 (rne32 ((f.decode m').mul h.c1))
  let vh := rne32 ((f.decode v').mul h.c2)
  let root := val32 (sqrtF (BitVec.ofNat 32 vh)).toNat
  let den := val32 (rne32 (FVal.add .rne root h.eps))
  let u := val32 (FSpec.fp32.div .rne mh den)
  (rne32 (FVal.sub .rne w (h.lr.mul (FVal.add .rne u (h.decay.mul w)))), m', v')

/-- Words of the triple. -/
def AdamwOps.words (x : AdamwOps) : Nat := if x.bf16 then 2 else 3

def AdamwOps.shape (x : AdamwOps) : Shape :=
  { srcs := [{ field := 1, op := x.d, n := AdamwOps.words x, group := true }, srcF 2 x.a false, { field := 3, op := x.b, n := 8, group := true }],
    dst := some { op := x.d, n := AdamwOps.words x, group := true }, gen := x.sr }

/-- The new triple of one thread from its words. -/
def adamWords (x : AdamwOps) (d : Nat → Nat) (triple : List Reg) (g : Nat) (hy : List Reg) : List Nat :=
  let word := fun (l : List Reg) i => match l[i]? with | some r => r.val.toNat | none => 0
  let h : Hyper := { lr := val32 (word hy 0), b1 := val32 (word hy 1), b2 := val32 (word hy 2), eps := val32 (word hy 3),
                     decay := val32 (word hy 4), c1 := val32 (word hy 5), c2 := val32 (word hy 6) }
  if x.bf16 then
    let mv := word triple 1
    let (w, m, v) := adamStep h true (if x.sr then .sr else .rne) (d 0) (d 1) (val32 (word triple 0)) (FSpec.bf16.decode (bits mv 15 0))
      (FSpec.bf16.decode (bits mv 31 16)) (val32 g)
    [w, m + v * 2 ^ 16]
  else
    let (w, m, v) := adamStep h false .rne 0 0 (val32 (word triple 0)) (val32 (word triple 1)) (val32 (word triple 2)) (val32 g)
    [w, m, v]

/-- ADAMW. Poisoned inputs poison outputs and are recorded; in a versioned group they discard the version (R482). -/
def execAdamw (x : AdamwOps) (s : State) : Result :=
  issue (.adamw x) x.h (AdamwOps.shape x) 8 s fun i k s' =>
    let part := fun (v : List (List Reg)) n => v.getD n []
    let s' := k.vals.foldl (fun s (t, v) =>
      let hy := part v 2
      let step := match hy[7]? with | some r => r.val.toNat | none => 0
      let draw := fun n => if x.sr then srDraw s i false t step n else 0
      let rs := (adamWords x draw (part v 0) (regsNat (part v 1)) hy).map (fun n => Reg.ofNat n (v.any regsBad))
      s.writeDst i.r.g i.r.w i.g { op := x.d, n := AdamwOps.words x, group := true } t [t] rs) s'
    let bad := k.vals.filter (fun (_, v) => v.any regsBad)
    match bad.head? with
    | none => (s', .next [])
    | some (low, _) =>
      let kind := fun n => (bad.any (fun (_, v) => regsBad (part v n))).toNat
      let detail := bad.length % 2 ^ 7 + low * 2 ^ 7 + kind 1 * 2 ^ 13 + kind 0 * 2 ^ 14 + kind 2 * 2 ^ 15
      let origin := i.w.poisonOrigin.toNat
      let s' := s'.updWarp i.r.g i.r.w (fun w => { w with poisonOrigin := 0 })
      if i.g.versioned then
        ((s'.updGroup i.r.g (fun g => { g with vlines := [] })).stopGang [i.r.g] (s'.pathErr i.r 0 0x38 3 origin detail), .next [])
      else (s'.report (s'.pathErr i.r 0 0x37 0 origin detail), .next [])

end Sys2Proof.Machine
end

