-- ==== Sys2Proof/Machine/Kiln.lean ====
section
/-! DEFINITION. Kiln.lean: kiln records and areas, the kiln instructions, and the kiln units' queues (R310 to R319, R483 to
R487). -/

namespace Sys2Proof.Machine

/-! ### Records and areas (R311, R312) -/

def KilnBind.field (k : KilnBind) (hi lo : Nat) : Nat := bits k.fields.toNat hi lo
def KilnBind.kr (k : KilnBind) : Nat := 4 * (k.field 421 416 + 1)
def KilnBind.kc (k : KilnBind) : Nat := 4 * (k.field 427 422 + 1)
def KilnBind.out (k : KilnBind) : Nat := 32 * (k.field 415 400 + 1)
def KilnBind.maxSkip (k : KilnBind) : Nat := k.field 383 376
/-- Skip maps kept. -/
def KilnBind.nmap (k : KilnBind) : Nat := if k.field 399 384 = 0 then k.maxSkip + 1 else k.field 399 384
/-- The effective limit E. -/
def KilnBind.limit (k : KilnBind) : Nat := min k.maxSkip (k.nmap - 1)
def KilnBind.blocks (k : KilnBind) : Nat := k.field 375 368 + 1
def KilnBind.tiles (k : KilnBind) : Nat := k.field 367 352 + 1
def KilnBind.theta (k : KilnBind) : Nat := k.field 351 320
def KilnBind.step0 (k : KilnBind) : Nat := k.field 319 288
/-- Bytes of the map words of a block. -/
def KilnBind.mapRow (k : KilnBind) : Nat := 8 * ((k.tiles + 63) / 64)
/-- Bytes of a map slot. -/
def KilnBind.slotBytes (k : KilnBind) : Nat := k.blocks * k.mapRow
/-- Address of STEP. -/
def KilnBind.stepVa (k : KilnBind) : Nat := k.record.toNat + 32

def KilnBind.sigVa (k : KilnBind) (step b n : Nat) : Nat :=
  k.field 127 64 + (step % 2 * k.blocks * k.tiles + b * k.tiles + n) * 64
def KilnBind.mapVa (k : KilnBind) (step b n : Nat) : Nat :=
  k.field 255 192 + (step % k.nmap * k.blocks + b) * k.mapRow + 8 * (n / 64)
def KilnBind.cacheVa (k : KilnBind) (b n : Nat) : Nat := k.field 191 128 + (b * k.tiles + n) * k.out

/-- Tile index and block of a tile key (R292). -/
def keyTile (key : Nat) : Nat := bits key 15 0
def keyBlock (key : Nat) : Nat := bits key 23 16
def keyDetail (key : Nat) : Nat := bits key 23 0
/-- A key outside the record (R485). -/
def KilnBind.keyBad (k : KilnBind) (key : Nat) : Bool := decide (k.tiles ≤ keyTile key) || decide (k.blocks ≤ keyBlock key)

/-- The reason of R484 for which a record's bytes are refused. -/
def recordRefused (bs : List Byte) (bad : Bool) : Option Nat :=
  let x := leNat bs
  let off := fun (hi lo align : Nat) => decide (bits x hi lo % align ≠ 0) || decide (2 ^ 55 ≤ bits x hi lo)
  if bad then some 4
  else if bits x 429 428 = 3 then some 1
  else if off 127 64 64 || off 191 128 32 || off 255 192 8 then some 2
  else none

/-! ### A unit's accesses (R310) -/

/-- For whom a kiln unit acts: its die, and the TLB of the issuing cluster (R152). -/
structure KilnAt where
  die : Nat
  via : Option TlbPlace
deriving DecidableEq, Repr

def Group.kilnAt (g : Group) : KilnAt := ⟨dieOf g.core, g.viaEngine⟩

/-- Read bytes; none where a page has no valid translation. -/
def State.kilnRead (s : State) (c : Ctx) (at_ : KilnAt) (va n : Nat) : Option (State × List (Byte × Bool)) :=
  s.engineRead c va n 2 4 at_.die at_.via

/-- A page of the range stands at WB (R157). -/
def State.kilnStalls (s : State) (c : Ctx) (at_ : KilnAt) (va n : Nat) : Bool := s.wbRange c va n at_.via

/-- Write bytes; none where a page has no valid translation or lacks W (R487). -/
def State.kilnWrite (s : State) (c : Ctx) (at_ : KilnAt) (va : Nat) (bs : List (Byte × Bool)) : Option State :=
  match s.piecesAt c at_.via (piecesOf va bs.length) with
  | .error _ => none
  | .ok ps => if ps.all (fun p => attrW p.e.attr) then some (s.engineWrite 2 4 at_.die ps bs) else none

/-- The record of an error of a queued instruction (R473). -/
def State.kilnErr (s : State) (o : KOp) (cls addr detail : Nat) : ErrRec :=
  let g := s.group? o.g
  { ErrRec.none with
    addr := BitVec.ofNat 64 addr
    pc := if cls = 0x2B then 0 else o.pc
    lcyc := s.lcyc 4 o.die
    cls := cls
    wid := o.w
    launch := match g with | some g => g.launchId | none => 0
    group := match g with | some g => g.handle | none => 0
    ctx := match g with | some g => g.ctx | none => 0
    acls := 4
    agent := o.die
    detail := detail }

/-! ### Issue -/

def State.enqueueKiln (s : State) (i : Iss) (instr : Instr) (slot : Option Nat) (bind : Option KilnBind) (ts : List Nat)
    (args : List (Option Nat × W64 × W64)) : State :=
  let (s, id) := s.fresh
  { s with kops := s.kops ++ [{ id := id, die := dieOf i.g.core, g := i.r.g, w := i.r.w, pc := i.p.pc, slot := slot, instr := instr, bind := bind,
                                tmask := maskOf ts, args := args }] }

/-- KSTEP binds its group; the unit then raises STEP and zeroes map slots (R313, R484). -/
def execKstep (x : OpAB) (s : State) : Result :=
  let sh : Shape := { srcs := [uniSrc 2 x.a 2, uniSrc 3 x.b 1], uni := some true, suppress := true }
  issue (.kstep x) x.h sh 1 s fun i k s' =>
    let v := (k.vals.headD (0, [])).2
    let va := regsNat (v.getD 0 [])
    let refuse := fun (r : Nat) => ((s'.faultPath i 0x3A va r, .stay) : State × Flow)
    if s.fenceWaits i x.h .sc then (s.putOff, .stay)
    else if va % 256 ≠ 0 || 2 ^ 55 ≤ va then refuse 3
    else s.reached (PathRef.waitKey i.r i.p) 2 <| match s'.kilnRead i.c i.g.kilnAt va 256 with
      | none => refuse 3
      | some (s1, bs) =>
        let w := match s1.translate i.c va i.g.viaEngine with | .ok e => attrW e.attr | .error _ => false
        match recordRefused (bs.map (·.1)) (bs.any (·.2)) with
        | some r => refuse r
        | none =>
          if !w then refuse 3
          else
            let bind : KilnBind := { record := BitVec.ofNat 64 va, step := BitVec.ofNat 32 (regsNat (v.getD 1 [])),
                                     fields := BitVec.ofNat 448 (leNat (bs.map (·.1))) }
            ((s1.updGroup i.r.g (fun g => { g with kiln := some bind })).enqueueKiln i (.kstep x) none (some bind) k.ts [], .next [])

/-- A kiln instruction of a group without a binding (R483). -/
def State.notBound (s : State) (i : Iss) (op : Nat) : State × Flow := (s.faultPath i 0x39 0 op, .stay)

/-- KSIG is queued with its captured operands, in a slot (R314). -/
def execKsig (x : OpAB) (s : State) : Result :=
  let sh : Shape := { srcs := [uniSrc 2 x.a 2, uniSrc 3 x.b 1], uni := some true, suppress := true }
  issue (.ksig x) x.h sh 1 s fun i k s' =>
    let v := (k.vals.headD (0, [])).2
    let pair := regsNat (v.getD 0 [])
    let key := regsNat (v.getD 1 [])
    match i.g.kiln with
    | none => s'.notBound i 0xB9
    | some b =>
      if b.keyBad key then (s'.faultPath i 0x3B 0 (keyDetail key), .stay)
      else if s.fenceWaits i x.h .sc then (s.putOff, .stay)
      else match s'.slotOf i.g with
        | none => (s.putOff, .stay)
        | some slot => (s'.enqueueKiln i (.ksig x) (some slot) (some b) k.ts [(none, BitVec.ofNat 64 pair, BitVec.ofNat 64 key)], .next [])

/-- The first key of some that lies outside the record. -/
def KilnBind.firstBad (k : KilnBind) (keys : List Nat) : Option Nat := keys.find? k.keyBad

/-- KTEST is queued; its unit writes D (R315). -/
def execKtest (x : OpDA) (s : State) : Result :=
  let sh : Shape := { srcs := [{ field := 2, op := x.a, strict := true }], dst := some { op := x.d }, suppress := true }
  issue (.ktest x) x.h sh 1 s fun i k s' =>
    match i.g.kiln with
    | none => s'.notBound i 0xBA
    | some b =>
      let key := fun (v : List (List Reg)) => regsNat (v.headD [])
      match b.firstBad (k.vals.map (fun m => key m.2)) with
      | some bad => (s'.faultPath i 0x3B 0 (keyDetail bad), .stay)
      | none =>
        if s.fenceWaits i x.h .sc then (s.putOff, .stay)
        else
          (s'.enqueueKiln i (.ktest x) none (some b) k.ts
            (k.vals.map (fun (t, v) => (if k.uni then none else some t, BitVec.ofNat 64 (key v), 0))), .next [])

/-- Kiln instructions of the group's die stand before this one in the unit's order (R310, R318). -/
def State.kilnBusy (s : State) (i : Iss) : Bool := s.kops.any (fun o => o.die = dieOf i.g.core)

/-- KREUSE writes the address of a cache entry (R316). -/
def execKreuse (x : OpDA) (s : State) : Result :=
  let sh : Shape := { srcs := [{ field := 2, op := x.a, strict := true }], dst := some { op := x.d, n := 2 } }
  issue (.kreuse x) x.h sh 1 s fun i k s' =>
    match i.g.kiln with
    | none => s'.notBound i 0xBB
    | some b =>
      let key := fun (v : List (List Reg)) => regsNat (v.headD [])
      match b.firstBad (k.vals.map (fun m => key m.2)) with
      | some bad => (s'.faultPath i 0x3B 0 (keyDetail bad), .stay)
      | none =>
        (k.vals.foldl (fun s (t, v) =>
          s.writeDst i.r.g i.r.w i.g { op := x.d, n := 2 } t (if k.uni then k.ts else [t])
            (regsOf 2 (b.cacheVa (keyBlock (key v)) (keyTile (key v))) false)) s', .next [])

/-- A map bit of a step, with its tag; none where the map cannot be read. -/
def State.mapBit (s : State) (c : Ctx) (at_ : KilnAt) (k : KilnBind) (step b n : Nat) : Option (State × Bool × Bool) :=
  (s.kilnRead c at_ (k.mapVa step b n) 8).map (fun (s, bs) => (s, bit (leNat (bs.map (·.1))) (n % 64), bs.any (·.2)))

/-- The step whose output a tile carried: from `step` down, `left` more steps may be looked at. Answers the step, if one with a 0
bit was found, and the tags met; or the address that could not be read. -/
def State.mapSearch (s : State) (c : Ctx) (at_ : KilnAt) (k : KilnBind) (b n : Nat) : Nat → Nat → Bool → Except Nat (State × Option Nat × Bool)
  | 0, _, bad => .ok (s, none, bad)
  | left + 1, step, bad =>
    if step < k.step0 then .ok (s, none, bad)
    else match s.mapBit c at_ k step b n with
      | none => .error (k.mapVa step b n)
      | some (s, v, tag) =>
        if !v then .ok (s, some step, bad || tag)
        else if step = 0 then .ok (s, none, bad || tag)
        else s.mapSearch c at_ k b n left (step - 1) (bad || tag)

/-- The operands of KMAP and KMAP.SRC. -/
def kmapShape (x : OpDAB) (words : Nat) : Shape :=
  { srcs := [{ field := 2, op := x.a, strict := true }, { field := 3, op := x.b, strict := true }], dst := some { op := x.d, n := words } }

/-- D of one thread of KMAP or KMAP.SRC from what was read: the state after the read with the words, or the address that could not
be read (R487); a result that the spec does not state is free (log 3). -/
def State.kmapOne (s : State) (y : Iss) (d : Operand) (words key t : Nat) (preds : List Nat)
    (r : Except Nat (State × Option Nat × Bool)) : State :=
  let write := fun (s : State) (rs : List Reg) => s.writeDst y.r.g y.r.w y.g { op := d, n := words } t preds rs
  match r with
  | .ok (s, some r, bad) => write s (regsOf words r bad)
  | .ok (s, none, bad) => (write s (regsOf words (Config.freeWord s.ticks).toNat bad)).tick
  | .error a =>
    let s := (write s (regsOf words (Config.freeWord s.ticks).toNat false)).tick
    s.report { s.pathErr y.r 0 0x3D 0 a (keyDetail key) with
      acls := 4
      agent := dieOf y.g.core }

/-- The common course of KMAP and KMAP.SRC: performed when the unit's earlier instructions have been (R310); the step is checked
against STEP as read now (R485). `f` answers the words of D, or the address that could not be read. -/
def kmapRun (i : Instr) (x : OpDAB) (words op : Nat) (s : State)
    (f : Ctx → KilnAt → KilnBind → Nat → Nat → State → Except Nat (State × Option Nat × Bool)) : Result :=
  issue i x.h (kmapShape x words) 1 s fun y k s' =>
    match y.g.kiln with
    | none => s'.notBound y op
    | some b =>
      let step := fun (v : List (List Reg)) => regsNat (v.getD 0 [])
      let key := fun (v : List (List Reg)) => regsNat (v.getD 1 [])
      match b.firstBad (k.vals.map (fun m => key m.2)) with
      | some bad => (s'.faultPath y 0x3B 0 (keyDetail bad), .stay)
      | none =>
        if s.fenceWaits y x.h .sc || s.kilnBusy y then (s.putOff, .stay)
        else s.reached (PathRef.waitKey y.r y.p) 2 <|
          let read : State × Nat := match s'.kilnRead y.c y.g.kilnAt b.stepVa 4 with
            | some (s, bs) => (s, leNat (bs.map (·.1)))
            | none => (s', b.step.toNat)
          let top := read.2
          match k.vals.find? (fun m => decide (top < step m.2) || decide (step m.2 + b.nmap ≤ top)) with
          | some m => (s'.faultPath y 0x3B 0 (keyDetail (key m.2) + 2 ^ 24), .stay)
          | none =>
            (k.vals.foldl (fun s m => s.kmapOne y x.d words (key m.2) m.1 (if k.uni then k.ts else [m.1])
              (f y.c y.g.kilnAt b (step m.2) (key m.2) s)) read.1, .next [])

/-- KMAP reads map word B[15:0] of block B[23:16] (R317). -/
def execKmap (x : OpDAB) (s : State) : Result :=
  kmapRun (.kmap x) x 2 0xBC s fun c at_ b step key s =>
    let va := b.mapVa step (keyBlock key) 0 + 8 * bits key 15 0
    match s.kilnRead c at_ va 8 with
    | some (s, bs) => .ok (s, some (leNat (bs.map (·.1))), bs.any (·.2))
    | none => .error va

/-- KMAP.SRC gives the step whose output the tile carried (R317). -/
def execKmapSrc (x : OpDAB) (s : State) : Result :=
  kmapRun (.kmapSrc x) x 1 0xBC s fun c at_ b step key s =>
    s.mapSearch c at_ b (keyBlock key) (keyTile key) (b.limit + 1) step false

/-- KEND ends the binding and queues the completion add (R318). -/
def execKend (x : KendOps) (s : State) : Result :=
  issue (.kend x) x.h { srcs := [uniSrc 1 x.d 2], uni := some true, suppress := true } 1 s fun i k s' =>
    let v := (k.vals.headD (0, [])).2
    if s.fenceWaits i x.h .sc then (s.putOff, .stay)
    else
      ((s'.updGroup i.r.g (fun g => { g with kiln := none })).enqueueKiln i (.kend x) none i.g.kiln k.ts
        [(none, BitVec.ofNat 64 (regsNat (v.headD [])), 0)], .next [])

/-! ### Performing a queued instruction -/

/-- Zero map words from an address on, a piece of a page at a time; the first word that cannot be zeroed stays and is named. -/
def State.zeroMap (s : State) (c : Ctx) (at_ : KilnAt) (ps : List (Nat × Nat)) (first : Option Nat) : State × Option Nat :=
  ps.foldl (fun (s, first) (va, n) =>
    match s.kilnWrite c at_ va (List.replicate n ((0 : Byte), false)) with
    | some s => (s, first)
    | none => (s, match first with | some a => some a | none => some va)) (s, first)

/-- The pieces of the map slots that KSTEP zeroes for a step above STEP (R313). -/
def KilnBind.zeroPieces (k : KilnBind) (old : Nat) : List (Nat × Nat) :=
  let s := k.step.toNat
  let lo := max (old + 1) (s + 1 - k.nmap)
  (List.range' lo (s + 1 - lo)).flatMap (fun x => piecesOf (k.field 255 192 + x % k.nmap * k.slotBytes) k.slotBytes)

/-- Perform KSTEP's read-modify-write; none while a page that it writes stands at WB (R157). -/
def State.runKstep (s : State) (c : Ctx) (at_ : KilnAt) (o : KOp) (k : KilnBind) : Option State :=
  if s.kilnStalls c at_ k.stepVa 4 then none
  else match s.kilnRead c at_ k.stepVa 4 with
    | none => some (s.report (s.kilnErr o 0x3D k.stepVa (2 ^ 24)))
    | some (s, bs) =>
      let old := leNat (bs.map (·.1))
      if k.step.toNat ≤ old then some s
      else
        let ps := k.zeroPieces old
        if ps.any (fun p => s.kilnStalls c at_ p.1 p.2) then none
        else
          let (s, first) := s.zeroMap c at_ ps none
          let new := leBytes 4 k.step.toNat
          match s.kilnWrite c at_ k.stepVa (new.map (fun b => (b, false))) with
          | none => some (s.report (s.kilnErr o 0x3D k.stepVa (2 ^ 24)))
          | some s => some (match first with
            | some a => s.report (s.kilnErr o 0x3D a (2 ^ 24))
            | none => s)

/-- Format and bytes of an input tile's elements (R311). -/
def inputFmt (n : Nat) : FSpec × Nat := if n = 0 then (.fp32, 4) else if n = 1 then (.bf16, 2) else (.fp16, 2)

/-- The 16 means of an input tile, with their tags (R314). -/
def State.signature (s : State) (g : Group) (k : KilnBind) (pair : Nat) : List (Nat × Bool) :=
  let (f, z) := inputFmt (k.field 429 428)
  let h := k.kr / 4
  let w := k.kc / 4
  let (base, rp, rot) := (MatSrc.ofPair pair).place
  (List.range 16).map (fun e =>
    let cells := (List.range h).flatMap (fun i => (List.range w).map (fun j =>
      s.scratchBytes g rot (base + rp * (e / 4 * h + i) + (e % 4 * w + j) * z) z))
    let sum := sumExact .rne (cells.map (fun l => f.decode (leNat (l.map (·.1)))))
    (FSpec.fp32.div .rne sum (.fin false (h * w) 0), cells.any (fun l => l.any (·.2))))

/-- The bytes of a signature; the tag of each 8-byte word covers both of its values. -/
def signatureBytes (sig : List (Nat × Bool)) : List (Byte × Bool) :=
  sig.zipIdx.flatMap (fun ((x, _), i) =>
    let bad := match sig[i / 2 * 2]?, sig[i / 2 * 2 + 1]? with | some a, some b => a.2 || b.2 | _, _ => false
    (leBytes 4 x).map (fun b => (b, bad)))

/-- Perform KSIG (R314, R487). -/
def State.runKsig (s : State) (g : Group) (c : Ctx) (at_ : KilnAt) (o : KOp) (k : KilnBind) : Option State :=
  match o.args with
  | (_, pair, key) :: _ =>
    let n := keyTile key.toNat
    let b := keyBlock key.toNat
    let va := k.sigVa k.step.toNat b n
    if s.kilnStalls c at_ va 64 then none
    else
      let (base, rp, _) := (MatSrc.ofPair pair.toNat).place
      let z := (inputFmt (k.field 429 428)).2
      let s := match (List.range k.kr).findSome? (fun i => s.scratchOut g (base + rp * i) (k.kc * z)) with
        | some a => s.noteOut o.g a (s.kilnErr o 0x2B a 2)
        | none => s
      match s.kilnWrite c at_ va (signatureBytes (s.signature g k pair.toNat)) with
      | some s => some s
      | none => some (s.report (s.kilnErr o 0x3D va (keyDetail key.toNat + 2 ^ 24)))
  | [] => some s

/-- The 16 values of a signature entry. -/
def signatureVals (bs : List (Byte × Bool)) : List FVal := (List.range 16).map (fun i => FSpec.fp32.decode (leNat (((bs.drop (4 * i)).take 4).map (·.1))))

def maxVal (l : List FVal) : FVal := l.foldl (fun a b => if a.isNan || b.isNan then .nan else if a.lt false b then b else a) (.fin false 0 0)

/-- The distance d of KTEST (R315); NaN when a signature holds a NaN. -/
def sigDistance (cur prev : List FVal) : FVal :=
  if (cur ++ prev).any FVal.isNan then .nan
  else
    let r := fun (v : FVal) => FSpec.fp32.decode (FSpec.fp32.round .rne 0 false v)
    let num := maxVal ((cur.zip prev).map (fun (a, b) => (r (a.sub .rne b)).abs))
    let den := r ((maxVal (prev.map FVal.abs)).add .rne (.fin false 1 (-126)))
    FSpec.fp32.decode (FSpec.fp32.div .rne num den)

/-- The run of consecutive skips before a step: `left` more steps may be looked at. Answers its length and the address of a
poisoned word that it read. -/
def State.mapRun (s : State) (c : Ctx) (at_ : KilnAt) (k : KilnBind) (b n : Nat) : Nat → Nat → Nat → Except Nat (State × Nat × Option Nat)
  | 0, _, run => .ok (s, run, none)
  | left + 1, step, run =>
    if step = 0 || step - 1 < k.step0 then .ok (s, run, none)
    else match s.mapBit c at_ k (step - 1) b n with
      | none => .error (k.mapVa (step - 1) b n)
      | some (s, v, bad) =>
        if bad then .ok (s, run, some (k.mapVa (step - 1) b n))
        else if v then s.mapRun c at_ k b n left (step - 1) (run + 1)
        else .ok (s, run, none)

/-- What a KTEST of one key finds: skip, and the address of a poisoned word; or the address that could not be read. -/
def State.ktestFind (s : State) (c : Ctx) (at_ : KilnAt) (k : KilnBind) (b n : Nat) : Except Nat (State × Bool × Option Nat) :=
  let st := k.step.toNat
  let before := if st = 0 then 1 else st - 1
  match s.kilnRead c at_ (k.sigVa st b n) 64 with
  | none => .error (k.sigVa st b n)
  | some (s, cur) =>
    match s.kilnRead c at_ (k.sigVa before b n) 64 with
    | none => .error (k.sigVa before b n)
    | some (s, prev) =>
      match s.mapRun c at_ k b n k.limit st 0 with
      | .error a => .error a
      | .ok (s, run, badMap) =>
        if cur.any (·.2) then .ok (s, false, some (k.sigVa st b n))
        else if prev.any (·.2) then .ok (s, false, some (k.sigVa before b n))
        else match badMap with
          | some a => .ok (s, false, some a)
          | none =>
            let d := sigDistance (signatureVals cur) (signatureVals prev)
            .ok (s, st ≠ k.step0 && FVal.cond .le d (FSpec.fp32.decode k.theta) && run < k.limit, none)

/-- Set or clear a map bit by a read-modify-write of its word; none where it cannot be written. -/
def State.putMapBit (s : State) (c : Ctx) (at_ : KilnAt) (k : KilnBind) (b n : Nat) (v : Bool) : Option State :=
  let va := k.mapVa k.step.toNat b n
  match s.kilnRead c at_ va 8 with
  | none => none
  | some (s, bs) =>
    let x := leNat (bs.map (·.1))
    let y := if v then x ||| 2 ^ (n % 64) else x - (if bit x (n % 64) then 2 ^ (n % 64) else 0)
    s.kilnWrite c at_ va ((leBytes 8 y).map (fun w => (w, bs.any (·.2))))

/-- KTEST of one key (R315, R486, R487): the value of D. -/
def State.ktestOne (s : State) (c : Ctx) (at_ : KilnAt) (o : KOp) (k : KilnBind) (key : Nat) : State × Bool :=
  let n := keyTile key
  let b := keyBlock key
  match s.ktestFind c at_ k b n with
  | .error a => (s.report (s.kilnErr o 0x3D a (keyDetail key)), false)
  | .ok (s, skip, bad) =>
    match s.putMapBit c at_ k b n skip with
    | none => (s.report (s.kilnErr o 0x3D (k.mapVa k.step.toNat b n) (keyDetail key + 2 ^ 24)), false)
    | some s =>
      match bad with
      | some a => (s.report (s.kilnErr o 0x3C a (keyDetail key)), skip)
      | none => (s.count 3 o.die 1 skip.toNat, skip)

/-- Perform KTEST for its lowest position that is left: the unit takes its keys one by one (R310, R318). None where the map word stands
at WB (R157), or where D has no room. -/
def State.runKtest (s : State) (g : Group) (c : Ctx) (o : KOp) (k : KilnBind) (d : Operand) : Option State :=
  match o.args with
  | [] => some s
  | (pos, key, _) :: _ =>
    let at_ := g.kilnAt
    let (t, preds) := match pos with
      | some t => (t, [t])
      | none => (maskLow o.tmask, maskList o.tmask)
    if s.kilnStalls c at_ (k.mapVa k.step.toNat (keyBlock key.toNat) (keyTile key.toNat)) 8 || !(s.dstRoom g o.w { op := d } [t]) then none
    else
      let (s, skip) := s.ktestOne c at_ o k key.toNat
      some (s.writeDst o.g o.w g { op := d } t preds [⟨BitVec.ofNat 32 skip.toNat, false⟩])

/-! ### The units' queues (R310, R318) -/

/-- A unit performs the instructions of groups that work, and of those whose context stops (R319). -/
def State.kilnServes (s : State) (g : Group) : Bool :=
  !g.stop && match s.ctx? g.ctx with | some c => c.run != .saved | none => false

/-- The next instruction of a kiln unit, with its group and context. -/
def State.kilnHead (s : State) (die : Nat) : Option (KOp × Group × Ctx) :=
  (s.kops.find? (fun o => o.die = die && match s.group? o.g with | some g => s.kilnServes g | none => false)).bind (fun o =>
    (s.group? o.g).bind (fun g => (s.ctx? g.ctx).map (fun c => (o, g, c))))

/-- An instruction leaves its unit. -/
def State.dropKiln (s : State) (o : KOp) : State := ({ s with kops := s.kops.filter (fun q => q.id ≠ o.id) }).tryEnd o.g

/-- An instruction is performed, or the first of several keys of it. -/
def State.stepKiln (s : State) (o : KOp) : State :=
  match o.instr, o.args with
  | .ktest _, _ :: rest@(_ :: _) => { s with kops := mapIf (fun q => q.id = o.id) (fun q => { q with args := rest }) s.kops }
  | _, _ => (s.count 3 o.die 0 1).dropKiln o

/-- KILN_OPERATION: a unit performs the next instruction of its queue, a KTEST key by key. -/
def execKilnOperation (die : Nat) (s : State) : Result :=
  match s.kilnHead die with
  | none => notNow s
  | some (o, g, c) => s.attempt (6, o.id) 2 fun s =>
    let done := match o.instr, o.bind with
      | .kstep _, some k => s.runKstep c g.kilnAt o k
      | .ksig _, some k => s.runKsig g c g.kilnAt o k
      | .ktest x, some k => s.runKtest g c o k x.d
      | _, _ => none
    match done with
    | some s => .next (s.stepKiln o)
    | none => notNow s

/-- KEND_COMPLETE: every earlier instruction of the unit has been performed; 1 is added to KEND's counter. -/
def execKendComplete (die : Nat) (s : State) : Result :=
  match s.kilnHead die with
  | some (o, g, _) =>
    match o.instr, o.args with
    | .kend x, (_, a, _) :: _ => s.attempt (6, o.id) 2 fun s =>
      .next (((if x.d = .vz then s else s.advanceOf g x.csp a 1 4 die).count 3 die 0 1).dropKiln o)
    | _, _ => notNow s
  | none => notNow s

end Sys2Proof.Machine
end

