-- ==== Sys2Proof/Machine/Task.lean ====
section
/-! DEFINITION. Task.lean: LAUNCH, the task instructions and KINDLE, and the events that admit launches, dispatch task records
and admit their worker groups (R63 to R65, R74, R82 to R96, R323 to R329, R438 to R440, R443). -/

namespace Sys2Proof.Machine

/-! ### Residency (R24, R63, R90) -/

/-- What a group takes of a core: granules, warps, and how many of its warps a lane hosts. -/
structure Demand where
  granules : Nat
  warps : Nat
  perLane : Nat
deriving DecidableEq, Repr

def LaunchRec.need (r : LaunchRec) : Demand := ⟨r.demand, r.warps, r.perLane⟩

def Task.warps (t : Task) : Nat := bits t.resw.toNat 23 18 + 1
def Task.width (t : Task) : Nat := 8 * 2 ^ bits t.resw.toNat 25 24
def Task.nreg (t : Task) : Nat := bits t.resw.toNat 31 26
def Task.rfg (t : Task) : Nat := t.width * (16 * (t.nreg + 1)) / 128
def Task.spg (t : Task) : Nat := bits t.resw.toNat 11 6
def Task.acg (t : Task) : Nat := bits t.resw.toNat 5 0
/-- Each warp of a worker group fills its own lane (R90). -/
def Task.need (t : Task) : Demand := ⟨t.rfg + t.spg + t.acg, t.warps, 1⟩

/-- What is held of a core: granules, and the warps that each lane hosts. -/
structure Load where
  held : Nat
  lanes : List Nat
deriving DecidableEq, Repr

/-- The lane for a group's next warp: of the lanes that hold fewer than 8 warps, and fewer than `perLane` of the group's own, one with
the fewest warps, then with the fewest of the group's own, then the lowest. `lanes` gives both numbers for the lanes from `i` on. -/
def bestLane (perLane : Nat) : List (Nat × Nat) → Nat → Option (Nat × Nat × Nat) → Option (Nat × Nat × Nat)
  | [], _, best => best
  | (n, own) :: rest, i, best =>
    let better : Bool := match best with
      | none => true
      | some (m, o, _) => decide (n < m) || (n = m && decide (own < o))
    bestLane perLane rest (i + 1) (if n < Config.warpsPerLane && own < perLane && better then some (n, own, i) else best)

/-- The lanes of a group's n warps, in order (log 1: which lanes they take the spec leaves open); none when they find no room. -/
def placeWarps (perLane : Nat) : Nat → List (Nat × Nat) → Option (List Nat)
  | 0, _ => some []
  | n + 1, lanes =>
    match bestLane perLane lanes 0 none with
    | none => none
    | some (_, _, i) => (placeWarps perLane n (lanes.modify i (fun p => (p.1 + 1, p.2 + 1)))).map (fun l => i :: l)

def Load.place (l : Load) (d : Demand) : Option (List Nat) := placeWarps d.perLane d.warps (l.lanes.map (fun n => (n, 0)))

/-- One more group; none when it does not fit. -/
def Load.add (l : Load) (d : Demand) : Option Load :=
  if Config.poolGranules < l.held + d.granules then none
  else (l.place d).map (fun sl => { held := l.held + d.granules, lanes := sl.foldl (fun ls i => ls.modify i (· + 1)) l.lanes })

/-- How many more groups fit, up to a limit. -/
def Load.room (l : Load) (d : Demand) : Nat → Nat
  | 0 => 0
  | n + 1 => match l.add d with
    | none => 0
    | some l => l.room d n + 1

def Group.granules (g : Group) : Nat := g.rfg + g.spg + g.acg

/-- What resident groups hold of a core. -/
def State.residency (s : State) (core : Nat) : Load :=
  (s.groups.filter (fun g => g.core = core)).foldl (fun l g =>
    { held := l.held + g.granules, lanes := g.warps.foldl (fun ls w => ls.modify w.lane (· + 1)) l.lanes })
    { held := 0, lanes := List.replicate Config.lanes 0 }

/-- What is held of a core by groups, by kindling slots, and by the reservations of the launches that `res` names. -/
def State.load (s : State) (core : Nat) (res : Nat → Bool) : Load :=
  let kindled := (s.kindles.filter (fun k => k.core = core)).filterMap (fun k => (s.task? k.cluster k.index).map Task.need)
  let kept := (s.cores.reserved.filter (fun r => r.2.1 = core && res r.1)).flatMap (fun r =>
    match s.launch? r.1 with
    | some l => List.replicate r.2.2 l.record.need
    | none => [])
  (kindled ++ kept).foldl (fun l d => (l.add d).getD { l with held := l.held + d.granules }) (s.residency core)

/-- How many groups of a launch each core can take now. -/
def State.caps (s : State) (res : Nat → Bool) (d : Demand) (limit : Nat) : List Nat :=
  (List.range Config.cores).map (fun c => if setMem s.cores.failed c then 0 else (s.load c res).room d limit)

def capOf (caps : List Nat) (h : Nat) : List Nat := (caps.drop (4 * h)).take 4

/-! ### Placing a grid (R23, R64) -/

/-- Place `full` whole clusters of four groups: the hardware cluster of each. -/
def placeFull (caps : List Nat) (full : Nat) : Option (List Nat) :=
  let l := ((List.range Config.clusters).flatMap (fun h => List.replicate (min full ((capOf caps h).foldl min full)) h)).take full
  if l.length = full then some l else none

/-- The cores of a hardware cluster, those with most room first, of equals the lowest. -/
def roomiest (caps : List Nat) (h : Nat) : List Nat :=
  (List.range' (4 * h) 4).foldl (fun l c => l.takeWhile (fun k => caps.getD c 0 ≤ caps.getD k 0) ++ [c] ++ l.dropWhile (fun k => caps.getD c 0 ≤ caps.getD k 0)) []

/-- The cores for each cluster of a grid, in order; none while it does not fit. The last cluster, if it is not full, takes the roomiest
cores of its hardware cluster, so that the fewest whole clusters are lost there. Of several hardware clusters that fit, the lowest
are taken (DESIGN CHOICE, log 51: the spec does not say which). -/
def placeGrid (caps : List Nat) (groups : Nat) : Option (List (List Nat)) :=
  let full := groups / 4
  let rest := groups % 4
  let four := fun h => List.range' (4 * h) 4
  if rest = 0 then (placeFull caps full).map (fun l => l.map four)
  else (List.range Config.clusters).findSome? (fun h =>
    let mine := ((roomiest caps h).filter (fun c => 1 ≤ caps.getD c 0)).take rest
    if mine.length < rest then none
    else (placeFull (mine.foldl (fun cs c => cs.modify c (· - 1)) caps) full).map (fun l => l.map four ++ [mine]))

/-- How many of the groups of a plan each core takes. -/
def planCounts (plan : List (List Nat)) : List Nat :=
  plan.foldl (fun ns cs => cs.foldl (fun ns c => ns.modify c (· + 1)) ns) (List.replicate Config.cores 0)

/-- Hardware clusters, those with most room first. -/
def byRoom (caps : List Nat) : List Nat :=
  (List.range Config.clusters).foldl (fun l h =>
    let n := fun h => (capOf caps h).sum
    l.takeWhile (fun k => n h ≤ n k) ++ [h] ++ l.dropWhile (fun k => n h ≤ n k)) []

/-- Groups of a grid that these units of room seat: whole clusters of four, then the rest of the grid. -/
def seated (caps : List Nat) (groups : Nat) : Nat :=
  let whole := ((List.range Config.clusters).map (fun h => (capOf caps h).foldl min (groups / 4))).sum
  let rest := groups % 4
  4 * min whole (groups / 4) + (if rest ≠ 0 && decide (groups / 4 ≤ whole) && (placeGrid caps groups).isSome then rest else 0)

/-- Up to n groups on free units of room, on the clusters with most room first (DESIGN CHOICE, log 51: R65 does not say which of the free
cores a launch reserves while its grid does not fit). -/
def spread (caps : List Nat) (n : Nat) : List Nat :=
  let order := (byRoom caps).flatMap (fun h => List.range' (4 * h) 4)
  (order.foldl (fun (acc : List Nat × Nat) c =>
    let k := min (caps.getD c 0) acc.2
    (acc.1.set c k, acc.2 - k)) (List.replicate Config.cores 0, n)).1

/-! ### The queue of launches (R65) -/

def State.runs (s : State) (ctx : Nat) : Bool := match s.ctx? ctx with | some c => decide (c.run = .running) | none => false

/-- The first launches before a launch: a higher band, or the same band and accepted earlier. -/
def Launch.before (a b : Launch) : Bool := decide (b.band < a.band) || (a.band = b.band && decide (a.key < b.key))

/-- Launches of running contexts that still have groups to admit. -/
def State.waitingLaunches (s : State) : List Launch := s.launches.filter (fun l => s.runs l.ctx && decide (l.started < l.record.groups))

def State.head? (s : State) (band : Nat) : Option Launch :=
  let l := s.waitingLaunches.filter (fun l => l.band = band)
  l.find? (fun a => l.all (fun b => a.key ≤ b.key))

def State.bandOf (s : State) (key : Nat) : Nat := match s.launch? key with | some l => l.band | none => 0

/-- Units of room by core: the greater of two lists, what one has more than the other, and both together. -/
def mostOf (a b : List Nat) : List Nat := (a.zip b).map (fun (p : Nat × Nat) => max p.1 p.2)
def beyond (a b : List Nat) : List Nat := (a.zip b).map (fun (p : Nat × Nat) => p.1 - p.2)
def bothOf (a b : List Nat) : List Nat := (a.zip b).map (fun (p : Nat × Nat) => p.1 + p.2)

/-- What a launch holds reserved, by core. -/
def State.heldOf (s : State) (key : Nat) : List Nat :=
  (List.range Config.cores).map (fun c => ((s.cores.reserved.filter (fun r => r.1 = key && r.2.1 = c)).map (·.2.2)).sum)

/-- The room on which a launch can be placed: what is free and what it holds itself; or also what launches of lower bands hold. -/
def State.freeFor (s : State) (l : Launch) (n : Nat) : List Nat := s.caps (fun k => k ≠ l.key) l.record.need n
def State.takeFor (s : State) (l : Launch) (n : Nat) : List Nat := s.caps (fun k => k ≠ l.key && l.band ≤ s.bandOf k) l.record.need n

/-- The reservations of one C launch at the head of its band (R65). What it holds it keeps, but for what a higher band has taken. While
its grid does not fit, it adds what is free, as many units as its grid lacks; where that does not do, it takes what lower bands hold.
When the grid fits, it holds the grid's places. -/
def State.reserveFor (s : State) (l : Launch) : State :=
  let n := l.record.groups
  let take := s.takeFor l n
  let held := (s.heldOf l.key).zip (s.caps (fun k => k ≠ l.key && decide (l.band < s.bandOf k)) l.record.need n) |>.map (fun p => min p.1 p.2)
  let free := mostOf held (s.freeFor l n)
  let counts := match (placeGrid free n).orElse (fun _ => placeGrid take n) with
    | some plan => planCounts plan
    | none =>
      let a := bothOf held (spread (beyond free held) (n - seated held n))
      bothOf a (spread (beyond take a) (n - seated a n))
  let mine := (counts.zipIdx.filter (fun (p : Nat × Nat) => p.1 ≠ 0)).map (fun (p : Nat × Nat) => (l.key, p.2, p.1))
  { s with cores := { s.cores with reserved := s.cores.reserved.filter (fun r => r.1 ≠ l.key) ++ mine } }

/-- The C launches at the heads of their bands reserve what has become free, the highest band first. -/
def State.reserve (s : State) : State :=
  let heads := ([3, 2, 1, 0].filterMap s.head?).filter (fun l => l.record.cls = 0)
  let s := { s with cores := { s.cores with reserved := s.cores.reserved.filter (fun r => heads.any (fun l => l.key = r.1)) } }
  heads.foldl State.reserveFor s

/-! ### Task records that wait (R95) -/

/-- Free kindling slots of a core. -/
def State.slotFree (s : State) (core slot : Nat) : Bool := decide (slot < 4) && !(s.kindles.any (fun k => k.core = core && k.slot = slot))
def State.anySlot (s : State) (core : Nat) : Bool := (List.range 4).any (s.slotFree core)

/-- Distance of a record's cluster from a core. -/
def distance (cluster core : Nat) : Nat :=
  if cluster = clusterOf core then 0 else if cluster / 12 = dieOf core then 1 else 2

/-- Record a is taken before record b by a slot of a core: by band, then by distance, then by age (DESIGN CHOICE, log 51: R95 orders by
band, then by age, and puts nearer records first; it does not say which of the two ranks higher). -/
def Task.ahead (core : Nat) (a b : Task) : Bool :=
  let da := distance a.cluster core
  let db := distance b.cluster core
  decide (b.band < a.band) || (a.band = b.band && (decide (da < db) || (da = db && decide (a.stamp < b.stamp))))

/-- The record that a free slot of a core takes. -/
def State.nextTask (s : State) (core : Nat) : Option Task :=
  if setMem s.cores.failed core || Config.cores ≤ core then none
  else
    let l := s.load core (fun _ => true)
    (s.tasks.filter (fun t => t.state = 1 && s.runs t.ctx && (l.add t.need).isSome)).foldl (fun best t => match best with
      | none => some t
      | some b => if t.ahead core b then some t else some b) none

/-- A record that waits for a slot of the core comes before a launch (R95). -/
def State.taskFirst (s : State) (core : Nat) (l : Launch) : Bool :=
  s.anySlot core && match s.nextTask core with
    | some t => decide (l.band < t.band) || (t.band = l.band && decide (t.stamp < l.key))
    | none => false

/-! ### Admission (R64, R65, R87) -/

/-- The cores for the groups of the launch's next unit, by clusters; none while it cannot be admitted. The head of its band may take
what launches of lower bands have reserved where nothing else serves (R65). Of several places the lowest is taken (DESIGN CHOICE,
log 51). -/
def State.seat (s : State) (l : Launch) : Option (List (List Nat)) :=
  let d := l.record.need
  let free := fun (k : Nat) => decide (k ≠ l.key)
  let all := fun (k : Nat) => decide (k ≠ l.key) && decide (l.band ≤ s.bandOf k)
  let head : Bool := (s.head? l.band).map (·.key) = some l.key
  let tryAll := fun (f : (Nat → Bool) → Option (List (List Nat))) => (f free).orElse (fun _ => if head then f all else none)
  match l.record.cls with
  | 0 => tryAll (fun res => placeGrid (s.caps res d l.record.groups) l.record.groups)
  | 1 =>
    let m := min 4 (l.record.groups - l.started)
    tryAll (fun res =>
      let caps := s.caps res d 1
      (List.range Config.clusters).findSome? (fun h =>
        let mine := ((List.range' (4 * h) 4).filter (fun c => caps.getD c 0 = 1)).take m
        if mine.length = m then some [mine] else none))
  | _ =>
    tryAll (fun res =>
      ((List.range Config.cores).find? (fun c =>
        !(setMem s.cores.failed c) && ((s.load c res).add d).isSome && !(s.taskFirst c l))).map (fun c => [[c]]))

/-- The lowest warp slot of a lane that is not among those used. -/
def lowestSlot (used : List Nat) : Nat := ((List.range (used.length + 1)).find? (fun i => !(used.contains i))).getD 0

/-- Lane and warp slot for each of the lanes given, beside the warps of the core's groups (R63, R73). -/
def State.places (s : State) (core : Nat) (lanes : List Nat) : List (Nat × Nat) :=
  let here := (s.groups.filter (fun g => g.core = core)).flatMap (fun g => g.warps.map (fun w => (w.lane, w.slot)))
  lanes.foldl (fun acc i => acc ++ [(i, lowestSlot (((here ++ acc).filter (fun p => p.1 = i)).map (·.2)))]) []

/-- A warp at group start (R87): one path per stream, w0 and w1 hold ARGS. -/
def Warp.start (wid lane slot n : Nat) (dae super : Bool) (entry args : W64) : Warp :=
  let m := maskOf (List.range n)
  let pc := entry &&& 0x007FFFFFFFFFFFF8
  let w : Warp :=
    { wid := wid, lane := lane, slot := slot, w := [], cvw := Conv.idle,
      paths := Path.start false pc m :: (if dae then [Path.start true pc m] else []),
      threads := List.replicate n (Thread.start super), reg0 := Region.none, reg1 := Region.none, poisonOrigin := 0, occ := 0 }
  (w.setReg 0 ⟨lowWord args, false⟩).setReg 1 ⟨highWord args, false⟩

/-- The warps of a group of `size` threads, on the lanes and warp slots given (R22). -/
def startWarps (size width : Nat) (places : List (Nat × Nat)) (dae super : Bool) (entry args : W64) : List Warp :=
  places.zipIdx.map (fun (p : (Nat × Nat) × Nat) => Warp.start p.2 p.1.1 p.1.2 (min width (size - width * p.2)) dae super entry args)

/-- A group handle: unique within its launch (R177). -/
def State.handle (s : State) (ctx : Nat) : State × Nat :=
  match s.ctx? ctx with
  | none => (s, 0)
  | some c =>
    let used := (s.groups.filter (fun g => g.ctx = ctx)).map (·.handle)
    let h := (((List.range (used.length + 1)).map (fun i => (c.nextHandle + i - 1) % (2 ^ 24 - 1) + 1)).find? (fun i => !(i ∈ used))).getD 0
    (s.updCtx ctx (fun c => { c with nextHandle := h % (2 ^ 24 - 1) + 1 }), h)

def clsOf (cls : Nat) : Cls := match cls with | 0 => .c | 1 => .p | _ => .w

/-- What is the same in every group at its start (R42, R87, R277, R290). -/
def Group.blank : Group :=
  { key := 0, ctx := 0, launch := 0, launchId := 0, index := 0, x := 0, y := 0, z := 0, ndx := 0, ndy := 0, ndz := 0, core := 0, cid := 0,
    mates := [], handle := 0, cls := .c, width := 8, size := 0, nreg := 0, dae := false, daew := 0, rfg := 0, spg := 0, acg := 0,
    band := 0, prio := 0, key64 := 0, stream := 0, keyBad := false, streamBad := false, scratch := [], scratchBad := [], acc := [],
    leftover := [], place := none, wrote := [], tiles := [], cv := [], ring := [], kiln := none, ops := [], versioned := false, vlines := [], oor := none, task := none,
    segments := [], stop := false, warps := [] }

/-- A group of a launch at its start, in its context. -/
def Launch.group (l : Launch) (c : Ctx) (key handle index core cid : Nat) (mates : List Nat) (places : List (Nat × Nat)) : Group :=
  let r := l.record
  { Group.blank with
    key := key
    ctx := l.ctx
    launch := l.key
    launchId := l.id
    index := index
    x := index % (r.gx + 1)
    y := index / (r.gx + 1) % (r.gy + 1)
    z := index / ((r.gx + 1) * (r.gy + 1))
    ndx := BitVec.ofNat 32 r.gx
    ndy := BitVec.ofNat 32 r.gy
    ndz := BitVec.ofNat 32 r.gz
    core := core
    cid := cid
    mates := mates
    handle := handle
    cls := clsOf r.cls
    width := r.width
    size := r.gsz + 1
    nreg := r.nreg
    dae := r.dae
    daew := r.daew
    rfg := r.rfg
    spg := r.spg
    acg := r.acg
    band := l.band
    prio := r.prio
    key64 := r.seed
    versioned := r.ver
    leftover := c.leftover
    warps := startWarps (r.gsz + 1) r.width places r.dae c.super r.entry r.args }

/-- Start the groups of one cluster of a launch, the first with linear index `index`, one on each core given. -/
def State.startCluster (s : State) (l : Launch) (c : Ctx) (index : Nat) (cores : List Nat) : State :=
  let first := s.stamp
  let mates := List.range' first cores.length
  let s := { s with stamp := s.stamp + cores.length }
  (cores.zipIdx.foldl (fun s (p : Nat × Nat) =>
    let (s, h) := s.handle l.ctx
    let lanes := ((s.residency p.1).place l.record.need).getD []
    let g := l.group c (first + p.2) h (index + p.2) p.1 p.2 mates (s.places p.1 lanes)
    { s with groups := s.groups ++ [g] }) s).updLaunch l.key (fun l => { l with started := l.started + cores.length })

/-- Start the groups of a unit, and drop the launch's reservation. -/
def State.startUnit (s : State) (l : Launch) (c : Ctx) (plan : List (List Nat)) : State :=
  let s := { s with cores := { s.cores with reserved := s.cores.reserved.filter (fun r => r.1 ≠ l.key) } }
  (plan.foldl (fun (acc : State × Nat) cores => (acc.1.startCluster l c acc.2 cores, acc.2 + cores.length)) (s, l.started)).1

/-- LAUNCH_ADMISSION: the next unit of a launch is admitted: of a C launch the whole grid, of a P launch its next cluster, of a W
launch its next group (R64). No launch before it in the queue can be admitted (R65). -/
def execLaunchAdmission (ctx launch : Nat) (s : State) : Result :=
  let s := s.reserve
  match s.waitingLaunches.find? (fun l => l.ctx = ctx && l.id = launch), s.ctx? ctx with
  | some l, some c =>
    if s.waitingLaunches.any (fun m => m.before l && (s.seat m).isSome) then notNow s
    else match s.seat l with
      | none => notNow s
      | some plan => .next ((s.startUnit l c plan).reserve)
  | _, _ => notNow s

/-! ### Kindling (R95, R96) -/

/-- The loads of a region for the span [a, b): virtual address, length and scratchpad offset. -/
def Region.span (r : Region) (a b spg : Nat) : Option (Nat × Nat × Nat) :=
  let dst := 64 * r.soff.toNat
  let n := min (r.str.toNat * (b - a - 1) + 16 * r.ext.toNat) (65536 * spg - dst)
  if r.ext = 0 || b ≤ a || n = 0 then Option.none else some ((r.base.toNat + r.str.toNat * a) % 2 ^ 64, n, dst)

/-- A region load that fails a check of R449 is reported once, without threads; its bytes are not loaded (R96). -/
def State.kindleErr (s : State) (t : Task) (core cls addr detail : Nat) : State :=
  s.report { ErrRec.none with
    addr := BitVec.ofNat 64 addr
    cls := cls
    launch := t.launchId
    ctx := t.ctx
    lcyc := s.lcyc 1 core
    acls := 1
    agent := core
    detail := detail }

/-- Why bytes at a virtual address cannot be loaded: class, ADDR, DETAIL. -/
def State.kindleCheck (s : State) (c : Ctx) (core va : Nat) : Except (Nat × Nat × Nat) TlbEntry :=
  if 2 ^ 55 ≤ va then .error (0x20, va, 0)
  else match s.translate c va (some (.core core)) with
    | .error w => .error (walkFault va false w)
    | .ok e => if attrCtr e.attr then .error (0x23, va, 2) else .ok e

/-- Ask for n bytes at a virtual address, in requests of class 3 by sector, up to the first that cannot be loaded. -/
def State.askKindle (s : State) (c : Ctx) (t : Task) (core slot va n dst : Nat) : State × List Nat :=
  let r := (sectorsOf va n).foldl (fun (acc : State × List Nat × Bool) x =>
    let (s, ids, done) := acc
    let lo := max va (1024 * x)
    let len := min (va + n) (1024 * x + 1024) - lo
    if done then acc
    else match s.kindleCheck c core lo with
      | .error (cls, addr, detail) => (s.kindleErr t core cls addr detail, ids, true)
      | .ok e =>
        let (s, id) := s.fresh
        let s := s.walked (some (.core core)) e
        let pa := e.pa lo
        let q : Req := { id := id, sector := pa / 1024, cls := 3, arrived := s.coreClock, op := none, kindle := some (core, slot), pa := pa,
                         len := len, dst := dst + (lo - va), turned := false, col := false, eng := none, piece := 0, tr := some e }
        ({ s with mem := { s.mem.hold (some (.core core)) e with reqs := s.mem.reqs ++ [q] } }, ids ++ [id], false)) (s, [], false)
  (r.1, r.2.1)

/-- A pending W group of a launch that comes before a record and could be admitted on the core (R95). -/
def State.launchFirst (s : State) (core : Nat) (t : Task) : Bool :=
  s.waitingLaunches.any (fun l => l.record.cls = 2 &&
    (decide (t.band < l.band) || (l.band = t.band && decide (l.key < t.stamp))) &&
    ((s.load core (fun k => k ≠ l.key)).add l.record.need).isSome)

/-- KINDLING_DISPATCH: a free slot takes the next runnable record, and its region loads start. -/
def execKindlingDispatch (core slot : Nat) (s : State) : Result :=
  let s := s.reserve
  match s.nextTask core with
  | none => notNow s
  | some t =>
    match s.ctx? t.ctx with
    | none => notNow s
    | some c =>
      if !(s.slotFree core slot) || s.launchFirst core t then notNow s
      else s.attempt (10, 4 * core + slot) 0 fun s =>
        let a := t.lo.toNat
        let b := min t.hi.toNat (a + t.grain.toNat * t.warps * t.width)
        let (s, ids) := [t.r0, t.r1].foldl (fun (acc : State × List Nat) r =>
          match r.span a b t.spg with
          | none => acc
          | some (va, n, dst) =>
            let (s, l) := acc.1.askKindle c t core slot va n dst
            (s, acc.2 ++ l)) (s, [])
        let k : Kindle := { core := core, slot := slot, cluster := t.cluster, index := t.index, loads := ids, bytes := [], bad := [] }
        .next { s.updTask t.cluster t.index (fun t => { t with state := 2 }) with kindles := s.kindles ++ [k] }

/-- A worker group at its start (R87, R90). -/
def Task.group (t : Task) (c : Ctx) (key handle core : Nat) (places : List (Nat × Nat)) (k : Kindle) : Group :=
  { Group.blank with
    key := key
    ctx := t.ctx
    launch := t.launch
    launchId := t.launchId
    index := t.fidx
    x := t.fidx
    ndx := BitVec.ofNat 32 (t.nw - 1)
    core := core
    mates := [key]
    handle := handle
    cls := .w
    width := t.width
    size := t.warps * t.width
    nreg := t.nreg
    rfg := t.rfg
    spg := t.spg
    acg := t.acg
    band := t.band
    prio := t.prio
    key64 := t.seed
    stream := t.stream
    keyBad := t.keyBad
    streamBad := t.streamBad
    scratch := k.bytes
    scratchBad := k.bad
    versioned := t.ver
    task := some (t.cluster, t.index)
    segments := [(t.lo, t.lo)]
    leftover := c.leftover
    warps := startWarps (t.warps * t.width) t.width places false c.super t.entry t.args }

/-- WORKER_ADMISSION: the loads of a kindling slot are complete, and its record's worker group starts (R91). -/
def execWorkerAdmission (core slot : Nat) (s : State) : Result :=
  match s.kindles.find? (fun k => k.core = core && k.slot = slot) with
  | none => notNow s
  | some k =>
    match s.task? k.cluster k.index with
    | none => notNow s
    | some t =>
      match s.ctx? t.ctx, (s.residency core).place t.need with
      | some c, some lanes =>
        if !k.loads.isEmpty || !(s.runs t.ctx) || setMem s.cores.failed core then notNow s
        else
          let (s, key) := s.fresh
          let (s, h) := s.handle t.ctx
          .next { s.updTask k.cluster k.index (fun t => { t with state := 3 }) with
            groups := s.groups ++ [t.group c key h core (s.places core lanes) k]
            kindles := s.kindles.filter (fun q => !(q.core = core && q.slot = slot)) }
      | _, _ => notNow s

/-! ### LAUNCH and TASK.RANGE (R323 to R325, R438, R439) -/

/-- Each taking thread, or the path once, acts with its address: with a number for D, or with a reason for a trap of the class. -/
def State.actEach (s : State) (i : Iss) (k : Taken) (d : Operand) (cls : Nat) (act : State → W64 → State × Except Nat Nat) : State × Bool :=
  let (s, errs, any) := k.vals.foldl (fun (acc : State × List ThreadErr × Bool) (m : Nat × List (List Reg)) =>
    let (s, errs, any) := acc
    let va := BitVec.ofNat 64 (regsNat (m.2.headD []))
    match act s va with
    | (s, .ok n) => (s.writeDst i.r.g i.r.w i.g { op := d } m.1 (if k.uni then k.ts else [m.1]) (regsOf 1 n false), errs, true)
    | (s, .error reason) =>
      (s, errs ++ (if k.uni then k.ts else [m.1]).map (fun t => (⟨t, cls, va.toNat, reason⟩ : ThreadErr)), any)) (s, [], false)
  (s.trapAll i.r errs, any)

/-- A thread's core reads the 64 bytes of a record: their bytes, and whether a word is poisoned; none when the address is not good
(R438, R439 reason 10). -/
def State.readRecord (s : State) (y : Iss) (a : W64) : Option (State × List Byte × Bool) :=
  if recordAddr a then
    (s.engineRead y.c a.toNat 64 2 1 y.g.core y.g.via).map (fun (s, bs) => (s, bs.map (·.1), bs.any (·.2)))
  else none

def launchShape (x : OpDA) : Shape := { srcs := [strictA x.a 2], dst := some { op := x.d }, suppress := true, execOnly := true }

/-- LAUNCH (R323). As a release it follows the accesses before it (R324). -/
def execLaunch (x : OpDA) (s : State) : Result :=
  issueMem (.launch x) x.h (launchShape x) 1 2 .rel true s fun i k s' =>
    s.reached (PathRef.waitKey i.r i.p) 2
      ((s'.actEach i k x.d 0x16 (fun s va => match s.readRecord i va with
        | none => (s, .error 10)
        | some (s, bs, bad) => match s.checkLaunch bs bad with
          | .ok r => let (s, id) := s.accept i.c.num r; (s, .ok id)
          | .error k => (s, .error k))).1, .next [])

/-- A range descriptor (R325). -/
structure RangeRec where
  entry : W64
  args : W64
  lo : W64
  hi : W64
  cctr : W64
  cont : W64
  grain : Nat
  resw : Nat
  ver : Bool
deriving DecidableEq, Repr

def RangeRec.ofNat (x : Nat) : RangeRec :=
  { entry := W64.ofBits x 63 0, args := W64.ofBits x 127 64, lo := W64.ofBits x 191 128, hi := W64.ofBits x 255 192, cctr := W64.ofBits x 319 256,
    cont := W64.ofBits x 383 320, grain := bits x 415 384, resw := bits x 447 416, ver := bit x 448 }

/-- The demand of a resource word exceeds 48 granules (R90, R439 reason 3). -/
def reswBad (r : Nat) : Bool :=
  Config.poolGranules < 8 * 2 ^ bits r 25 24 * (16 * (bits r 31 26 + 1)) / 128 + bits r 11 6 + bits r 5 0

/-- The descriptor that the bytes read are, or the reason of R439. -/
def checkRange (bs : List Byte) (bad : Bool) : Except Nat RangeRec :=
  let r := RangeRec.ofNat (leNat bs)
  if bad then .error 9
  else if r.grain = 0 then .error 1
  else if r.hi.toNat < r.lo.toNat then .error 2
  else if reswBad r.resw then .error 3
  else .ok r

/-- Create a family in the pool of a cluster (R88, R89); the number of records. -/
def State.createFamily (s : State) (g : Group) (w : Warp) (r : RangeRec) : State × Nat :=
  let cl := clusterOf g.core
  let free := (List.range Config.poolSize).filter (fun i => (s.task? cl i).isNone)
  let ids := free.take (bits r.resw 17 12 + 1)
  match ids.head? with
  | none => (s, 0)
  | some root =>
    let task := fun (f index : Nat) =>
      ({ cluster := cl, index := index, ctx := g.ctx, family := s.stamp, acted := (0, 0), state := 1, fidx := f, nw := ids.length, stream := g.stream, seed := g.key64,
         r0 := w.reg0, r1 := w.reg1, doneCnt := 0, rem := if f = 0 then r.hi - r.lo else 0, band := g.band, prio := g.prio,
         rootCluster := cl, rootIndex := root, rt := f = 0, ver := r.ver, cont := r.cont, cctr := r.cctr,
         resw := BitVec.ofNat 32 r.resw, grain := BitVec.ofNat 32 r.grain, hi := r.hi, lo := if f = 0 then r.lo else r.hi,
         args := r.args, entry := r.entry, stamp := s.stamp + f, launch := g.launch, launchId := g.launchId,
         keyBad := g.keyBad, streamBad := g.streamBad } : Task)
    let s := { s with
      stamp := s.stamp + ids.length
      tasks := s.tasks ++ ids.zipIdx.map (fun (p : Nat × Nat) => task p.2 p.1) }
    (if r.cctr = 0 then s else s.markCounter g.ctx r.cctr 3 g.launchId, ids.length)

/-- TASK.RANGE (R325); the staging of the warp is taken by every family that it creates (R329). -/
def execTaskRange (x : OpDA) (s : State) : Result :=
  issueMem (.taskRange x) x.h (launchShape x) 1 2 .rel true s fun i k s' =>
    let (t, any) := s'.actEach i k x.d 0x17 (fun s va => match s.readRecord i va with
      | none => (s, .error 10)
      | some (s, bs, bad) => match checkRange bs bad with
        | .ok r => let (s, n) := s.createFamily i.g i.w r; (s, .ok n)
        | .error k => (s, .error k))
    let clear := fun (w : Warp) => { w with
      reg0 := Region.none
      reg1 := Region.none }
    s.reached (PathRef.waitKey i.r i.p) 2 (if any then t.updWarp i.r.g i.r.w clear else t, .next [])

/-! ### TASK.NEXT, TASK.GET, TASK.DONE (R92, R93, R326, R327, R440) -/

/-- A chunk goes to a thread: D to D + 3, and sv.iter. -/
def State.giveChunk (s : State) (i : Iss) (d : Operand) (t : Nat) (first n : Nat) (some_ : Bool) : State :=
  let x := if some_ then first else 0
  let s := s.writeDst i.r.g i.r.w i.g { op := d, n := 4, group := true } t [t] (regsOf 2 x false ++ regsOf 1 n false ++ regsOf 1 0 false)
  s.updThread i.r.g i.r.w t (fun th => { th with iter := BitVec.ofNat 32 x })

/-- Iterations handed to a group lengthen its last segment (R443). -/
def Group.handed (g : Group) (last : W64) : Group :=
  match g.segments.reverse with
  | [] => g
  | p :: rest => { g with segments := (rest.reverse) ++ [(p.1, last)] }

/-- One chunk of a record (R92). LO is a field of 64 bits: beyond 2^64 - 1 it stands at that value, which is no less than any HI (DESIGN
CHOICE, log 51: R92 does not say). -/
def State.oneChunk (s : State) (i : Iss) (d : Operand) (cl ix t : Nat) : State :=
  match s.task? cl ix with
  | none => s.giveChunk i d t 0 0 false
  | some r =>
    let lo := r.lo.toNat
    if r.hi.toNat ≤ lo then s.giveChunk i d t 0 0 false
    else
      let e := min (lo + r.grain.toNat) r.hi.toNat
      let s := s.updTask cl ix (fun r => { r with
        doneCnt := r.doneCnt + BitVec.ofNat 64 (e - lo)
        lo := BitVec.ofNat 64 (min (lo + r.grain.toNat) (2 ^ 64 - 1)) })
      (s.updGroup i.r.g (fun g => g.handed (BitVec.ofNat 64 e))).giveChunk i d t lo (e - lo) true

/-- TASK.NEXT for every taking thread, in ascending position. -/
def State.chunks (s : State) (i : Iss) (d : Operand) (cl ix : Nat) (ts : List Nat) : State := ts.foldl (fun s t => s.oneChunk i d cl ix t) s

def Task.left (t : Task) : Nat := t.hi.toNat - t.lo.toNat
/-- Chunks that remain. -/
def Task.chunksLeft (t : Task) : Nat := (t.left + t.grain.toNat - 1) / max 1 t.grain.toNat

/-- The record of a family that TASK.GET splits (R93). -/
def State.richest (s : State) (own : Task) : Option Task :=
  let mine := s.tasks.filter (fun t => t.family = own.family && (t.state = 2 || t.state = 3))
  (mine.foldl (fun best t => match best with
    | none => some t
    | some (b : Task) =>
      if b.left < t.left || (b.left = t.left && (t.cluster < b.cluster || (t.cluster = b.cluster && t.index < b.index))) then some t else some b) none).bind
    (fun t => if 2 ≤ t.chunksLeft then some t else none)

/-- Split the richest record of the family, and give its upper part to the executing worker's record; none when there is nothing
to split. -/
def State.split (s : State) (k : Nat) (own : Task) : Option State :=
  (s.richest own).map (fun t =>
    let mid := BitVec.ofNat 64 (t.lo.toNat + t.grain.toNat * ((t.chunksLeft + 1) / 2))
    let s := s.updTask t.cluster t.index (fun t => { t with hi := mid })
    let s := s.updTask own.cluster own.index (fun o => { o with
      lo := mid
      hi := t.hi })
    s.updGroup k (fun g => { g with segments := g.segments ++ [(mid, mid)] }))

def chunkShape (x : OpD) : Shape := { srcs := [], dst := some { op := x.d, n := 4, group := true }, uni := some false, suppress := true, execOnly := true }

/-- The place of an operation among those on its family in one cycle (R93): TASK.NEXT before TASK.GET, then the lower core. -/
def chunkOrder (get : Bool) (core : Nat) : Nat := (if get then Config.cores else 0) + core

/-- An operation that comes earlier in that order than one which has taken effect in this cycle is too late for the cycle. -/
def State.tooLate (s : State) (t : Task) (order : Nat) : Bool := t.acted.1 = s.coreClock && decide (order < t.acted.2)

/-- `issue` for TASK.NEXT and TASK.GET, which trap outside a worker group (R440). -/
def issueChunk (i : Instr) (x : OpD) (get : Bool) (s : State) (body : Iss → Taken → State → Task → State) : Result :=
  issue i x.h (chunkShape x) 1 s fun y k s' =>
    match y.g.task with
    | none => (s'.faultPath y 0x18 0 (if get then 0xC3 else 0xC2), .stay)
    | some (cl, ix) =>
      match s'.task? cl ix with
      | none => (s'.chunks y x.d cl ix k.ts, .next [])
      | some own =>
        let order := chunkOrder get y.g.core
        if s.tooLate own order then (s.putOff, .stay)
        else (body y k (s'.updFamily own.family (fun t => { t with acted := (s.coreClock, order) })) own, .next [])

/-- TASK.NEXT (R92, R326). -/
def execTaskNext (x : OpD) (s : State) : Result :=
  issueChunk (.taskNext x) x false s fun i k s own => s.chunks i x.d own.cluster own.index k.ts

/-- TASK.GET (R93, R326); a versioned worker starts no 31st segment (R443). -/
def execTaskGet (x : OpD) (s : State) : Result :=
  issueChunk (.taskGet x) x true s fun i k s own =>
    let s := if own.left = 0 && !(i.g.versioned && decide (30 ≤ i.g.segments.length)) then (s.split i.r.g own).getD s else s
    s.chunks i x.d own.cluster own.index k.ts

/-- TASK.DONE acts as EXIT for each taking thread that is no helper (R327, R440). -/
def execTaskDone (x : Op0) (s : State) : Result :=
  match issue (.taskDone x) x.h { srcs := [], uni := some false, suppress := true, execOnly := true } 1 s
    (fun i k s => (s.exitThreads i.r i.p.access i.next k.ts, .next [])) with
  | .next s => .next (match s.cur with | some (.path r _) => s.tryEnd r.g | _ => s)
  | r => r

/-- KINDLE stages a region of its warp (R328, R329). -/
def execKindle (x : KindleOps) (s : State) : Result :=
  let src := fun f (o : Operand) => ({ field := f, op := o, n := 2, strict := true, uni := true } : Src)
  issue (.kindle x) x.h { srcs := [src 2 x.a, src 3 x.b], uni := some true, suppress := true, execOnly := true } 1 s fun i k s =>
    let v := (k.vals.headD (0, [])).2
    let b := regsNat (v.getD 1 [])
    let r : Region := if bits b 47 32 = 0 then Region.none else
      { base := BitVec.ofNat 64 (regsNat (v.getD 0 [])), str := BitVec.ofNat 32 b, ext := BitVec.ofNat 16 (bits b 47 32), soff := BitVec.ofNat 16 (bits b 63 48) }
    (s.updWarp i.r.g i.r.w (fun w => if x.region then { w with reg1 := r } else { w with reg0 := r }), .next [])

/-! ### PATH_DUE (R74) -/

/-- AGE_LIMIT of a band (R75). -/
def Ctx.ageLimit (c : Ctx) (band : Nat) : Nat := c.ageLim.getD band 4096

/-- PATH_DUE: a ready path whose AGE has reached its limit is due; the lane's next choice takes it first (R73), and no state changes. -/
def execPathDue (r : PathRef) (s : State) : Result :=
  match s.group? r.g, s.path? r with
  | some g, some p =>
    match s.ctx? g.ctx with
    | some c => if s.working g && p.st = .ready && c.ageLimit g.band ≤ p.age then .next s else notNow s
    | none => notNow s
  | _, _ => notNow s

end Sys2Proof.Machine
end

