-- ==== Sys2Proof/Machine/Service.lean ====
section
/-! DEFINITION. Service.lean: SVC and SVC.WAIT and their events (R330 to R332, R437), the event that issues a generation (R44), and
starvation timers that expire (R78, R435). -/

namespace Sys2Proof.Machine

/-! ### The service queue (R330) -/

/-- A service wait is legal for a group (R72). -/
def Ctx.serviceLegal (c : Ctx) (g : Group) : Bool := c.svcqCls.toNat % 16 = 4 || (c.svcqCls.toNat % 16 = 6 && g.cls = .c)

/-- DETAIL of an illegal service wait (R434). -/
def Ctx.serviceDetail (c : Ctx) (g : Group) (kind : Nat) : Nat := kind + g.cls.code * 8 + c.svcqCls.toNat % 16 * 128

/-- Bytes of a record for a warp of width W. -/
def serviceBytes (width : Nat) : Nat := 32 + 8 * width

/-- The first 32 bytes of a service record (R330). -/
def serviceHead (seq wid fn launch group ctx width : Nat) (mask : W64) : Nat :=
  mask.toNat + ctx % 2 ^ 32 * 2 ^ 96 + group % 2 ^ 24 * 2 ^ 144 + launch % 2 ^ 24 * 2 ^ 168 + fn % 2 ^ 8 * 2 ^ 192 + wid % 2 ^ 8 * 2 ^ 200
  + width % 2 ^ 8 * 2 ^ 208 + 1 * 2 ^ 216 + seq % 2 ^ 32 * 2 ^ 224

/-- The values of a record, at its positions (R330). -/
def State.putService (s : State) (c : Ctx) (va : Nat) (l : List (Nat × Nat × Nat)) : State :=
  l.foldl (fun s (m : Nat × Nat × Nat) => (s.deviceWrite c (va + 32 + 8 * m.1) (leBytes 4 m.2.1 ++ leBytes 4 m.2.2) none).1) s

/-- Write a service record for positions with their values at a ticket, and advance SVCQCTR (R331). -/
def State.writeService (s : State) (c : Ctx) (g : Group) (w fn ticket : Nat) (l : List (Nat × Nat × Nat)) : State :=
  let va := c.slotVa ticket
  let mask := maskOf (l.map (·.1))
  let slot := ticket % c.svcqSize.toNat
  let s := s.putService c va l
  let head := leBytes 32 (serviceHead ticket w fn g.launchId g.handle c.num g.width mask)
  let s := s.updCtx c.num (fun c => { c with
    svcqHead := c.svcqHead + 1
    slots := c.slots.filter (fun t => t.slot ≠ slot) ++ [{ slot := slot, g := g.key, w := w, left := mask }] })
  let (s, bad) := s.deviceWrite c va head (if c.svcqCtr = 0 then none else some c.svcqCtr)
  match bad with
  | none => s
  | some kind => s.report { ErrRec.none with
      addr := c.svcqCtr
      cls := 0x27
      ctx := c.num
      lcyc := s.lcyc 11 0
      detail := kind + 11 * 16 }

/-! ### SVC (R331) -/

def SvcOps.ops (x : SvcOps) : GenOps :=
  { h := x.h, srcs := [strictA x.a 1, strictB x.b 1], dst := some { op := x.d }, live := true, mute := true }

/-- Before SVC: it waits in service wait while no slot is free, which must be legal (R72); a slot on a page at WB holds the issue
(R157). -/
def svcGate (e : Gen) (vals : Vals) (s : State) : Gate :=
  if vals.isEmpty then .go
  else
    match s.freeSlot e.c (serviceBytes e.g.width) with
    | some (ticket, _) =>
      let va := e.c.slotVa ticket
      let n := serviceBytes e.g.width
      if s.wbRange e.c va n || s.deviceStalled e.c va n then .stall va n else .go
    | none => if e.c.serviceLegal e.g then .service else .fail 0x14 1 e.c.svcqBase.toNat (e.c.serviceDetail e.g 4)

def State.svcGen (s : State) (x : SvcOps) (r : GenRef) : State :=
  s.runGen r (SvcOps.ops x) svcGate fun e vals s =>
    match if vals.isEmpty then none else s.freeSlot e.c (serviceBytes e.g.width) with
    | none => s
    | some (ticket, _) =>
      let l := vals.map (fun m => (m.1.pos, regsNat (m.2.getD 0 []), regsNat (m.2.getD 1 [])))
      let s := s.writeService e.c e.g (e.warps.headD 0) x.fn.val ticket l
      vals.foldl (fun s m => s.genWrite e { op := x.d } m.1 (regsOf 1 ticket false)) s

/-- SVC (R331). -/
def execSvc (x : SvcOps) (s : State) : Result :=
  signAt (.svc x) x.h x.cv (SvcOps.ops x).shape true noCheck (fun r s => s.svcGen x r) s

/-! ### SVC.WAIT (R332, R437) -/

/-- What a thread finds at its ticket's slot. -/
inductive Reply1
  | ready (r : Reg) (slot : Option Nat)
  | wait (addr : Nat)
  | other (addr : Nat)
deriving DecidableEq, Repr

/-- The slot of a ticket, for position t. -/
def State.reply (s : State) (c : Ctx) (t : Nat) (ticket : W32) : Reply1 :=
  let va := c.slotVa ticket.toNat
  if ticket = 0xFFFFFFFF then .ready Reg.zero none
  else if c.svcqBase = 0 then .other va
  else
    match s.slotPieces c va 32 with
    | none => .wait va
    | some ps =>
      let x := leNat (s.readPieces ps)
      if bits x 255 224 ≠ ticket.toNat then .other va
      else if bits x 223 216 = 0 then .ready Reg.zero none
      else if bits x 223 216 ≠ 2 then .wait va
      else
        let slot := some (ticket.toNat % c.svcqSize.toNat)
        if bit x t then
          match s.slotPieces c (va + 32 + 8 * t) 4 with
          | none => .wait va
          | some qs => .ready (Reg.ofNat (leNat (s.readPieces qs)) (s.badPieces qs)) slot
        else .ready Reg.zero slot

/-- A position completes an SVC.WAIT on the ticket of a slot; the slot is free when its set empties (R332). -/
def State.completeSlot (s : State) (ctx k w slot : Nat) (m : W64) : State :=
  match s.ctx? ctx with
  | none => s
  | some c =>
    match c.slots.find? (fun t => t.slot = slot && t.g = k && t.w = w) with
    | none => s
    | some t =>
      let s := s.updCtx ctx (fun c => { c with slots := mapIf (fun t => t.slot = slot) (fun t => { t with left := t.left &&& ~~~m }) c.slots })
      if t.left &&& ~~~m = 0 then s.slotLeave ctx slot else s

/-- Every thread's wait is over: D receives its reply, and the slots' sets shrink. `l`: positions with their replies. -/
def State.takeReplies (s : State) (g : Group) (w : Nat) (d : Operand) (uni : Bool) (ts : List Nat) (l : List (Nat × Reply1)) : State :=
  let s := l.foldl (fun s (m : Nat × Reply1) => match m.2 with
    | .ready r _ => s.writeDst g.key w g { op := d } m.1 (if uni then ts else [m.1]) [r]
    | _ => s) s
  l.foldl (fun s (m : Nat × Reply1) => match m.2 with
    | .ready _ (some slot) => s.completeSlot g.ctx g.key w slot (maskOf (if uni then ts else [m.1]))
    | _ => s) s

def svcWaitShape (x : OpDA) : Shape := { srcs := [strictA x.a 1], dst := some { op := x.d }, suppress := true, execOnly := true }

/-- SVC.WAIT (R332): a ticket whose slot holds another traps its thread (R437); a wait is checked by R72. -/
def execSvcWait (x : OpDA) (s : State) : Result :=
  issue (.svcWait x) x.h (svcWaitShape x) 1 s fun i k s' =>
    let all := k.vals.map (fun m => (m.1, s'.reply i.c m.1 (BitVec.ofNat 32 (regsNat (m.2.headD [])))))
    let errs := (k.vals.zip all).flatMap (fun (p : (Nat × List (List Reg)) × (Nat × Reply1)) => match p.2.2 with
      | .other va => (if k.uni then k.ts else [p.2.1]).map (fun t => (⟨t, 0x1E, va, regsNat (p.1.2.headD []) % 2 ^ 28⟩ : ThreadErr))
      | _ => [])
    match all.findSome? (fun m => match m.2 with | .wait va => some va | _ => none) with
    | none => ((s'.trapAll i.r errs).takeReplies i.g i.r.w x.d k.uni k.ts all, .next [])
    | some va =>
      if !(i.c.serviceLegal i.g) then (s.faultPath i 0x14 va (i.c.serviceDetail i.g 3), .stay)
      else if !errs.isEmpty then ((s.trapAll i.r errs).settle i.r.g i.r.w, .stay)
      else
        let tickets := k.vals.flatMap (fun m => (if k.uni then k.ts else [m.1]).map (fun t => (t, BitVec.ofNat 32 (regsNat (m.2.headD [])))))
        let wait : Wait := { instr := .svcWait x, size := i.size, tests := [], tickets := tickets, needs := [], kind := 3, addr := BitVec.ofNat 64 va }
        (s'.updPath i.r (fun p => { p with
          st := .serviceWait
          timer := 0
          age := 0
          wait := some wait }), .wait)

/-- A path's SVC.WAIT is over: what it leaves; none while a reply is missing. -/
def State.replied (s : State) (r : PathRef) : Option State :=
  match s.waiting r .serviceWait with
  | none => none
  | some (g, _, w) =>
    match w.instr, s.ctx? g.ctx with
    | .svcWait x, some c =>
      let uni : Bool := (svcWaitShape x).isUniform
      let ts := w.tickets.map (·.1)
      let all := (if uni then w.tickets.take 1 else w.tickets).map (fun m => (m.1, s.reply c m.1 m.2))
      let ready := all.all (fun m => match m.2 with | .ready _ _ => true | _ => false)
      if ready && s.dstRoom g r.w { op := x.d } (all.map (·.1)) then some ((s.takeReplies g r.w x.d uni ts all).finish r w.size []) else none
    | _, _ => none

/-- SERVICE_REPLY_COMPLETE (R332). -/
def execServiceReplyComplete (r : PathRef) (s : State) : Result :=
  match s.replied r with
  | some t => .next t
  | none => notNow s

/-! ### Generations (R44, R250) -/

/-- Issue the generation of a register, if it can. -/
def State.issueGen (s : State) (i : Instr) (r : GenRef) : State :=
  match i with
  | .sign x => s.signGen x r
  | .qx x => s.qxGen x r
  | .perm x => s.permGen x r
  | .vote x => s.voteGen x r
  | .wsum x => s.wsumGen x r
  | .wmax x => s.wmaxGen x r
  | .wscan x => s.wscanGen x r
  | .mma x => s.mmaGen x r
  | .mmd x => s.mmdGen x r
  | .twrr x => s.tileWriteGen x 0xA4 true r
  | .twrc x => s.tileWriteGen x 0xA5 false r
  | .trdr x => s.tileReadGen x 0xA6 true r
  | .trdc x => s.tileReadGen x 0xA7 false r
  | .svc x => s.svcGen x r
  | _ => s

/-- The register's generation is the one that stood before: it has neither issued, nor failed, nor entered service wait, nor met a
page at WB. -/
def State.sameGen (s t : State) (r : GenRef) : Bool :=
  match s.group? r.g, t.group? r.g with
  | some g, some h =>
    let a := g.conv r.cv r.w
    let b := h.conv r.cv r.w
    b.armed && b.gen = a.gen && b.svcWait = a.svcWait && b.stalled = a.stalled
  | _, _ => false

/-- A complete generation issues, or fails, or enters service wait; none while something delays it. -/
def State.tryGen (s : State) (r : GenRef) (parked : Bool) : Option State :=
  match s.gen? r with
  | none => none
  | some e =>
    match e.conv.instr with
    | none => none
    | some i =>
      let t := s.issueGen i r
      if e.conv.svcWait = parked && !(s.sameGen t r) then some t else none

/-- GENERATION_ISSUE. -/
def execGenerationIssue (r : GenRef) (s : State) : Result :=
  match s.tryGen r false with
  | some t => .next t
  | none => notNow s

/-- SERVICE_SLOT_FREE: an SVC in service wait writes its record once a slot is free (R331). -/
def execServiceSlotFree (r : GenRef) (s : State) : Result :=
  match s.tryGen r true with
  | some t => .next t
  | none => notNow s

/-! ### Starvation (R78, R434, R435) -/

/-- The wait of a path can end now. -/
def State.waitOver (s : State) (r : PathRef) (p : Path) : Bool :=
  match p.st with
  | .ready => true
  | .signed => (s.tryGen ⟨r.g, p.cvi, r.w⟩ false).isSome
  | .serviceWait => if p.wait.isSome then (s.replied r).isSome else (s.tryGen ⟨r.g, p.cvi, r.w⟩ true).isSome
  | .counterWait | .queueWait =>
    match s.waiting r p.st with
    | some (g, _, w) => w.tests.all (s.testHolds g) && w.needs.all (s.meets g r.w)
    | none => false

/-- Wait kind and address of a waiting path (R434). -/
def Path.waitKind (p : Path) (c : Ctx) : Nat × Nat :=
  match p.wait with
  | some w => (w.kind, w.addr.toNat)
  | none => if p.st = .serviceWait then (4, c.svcqBase.toNat) else (5, 0)

/-- STARVATION_EXPIRY: the timer of a waiting path has reached its limit; the wait is abandoned, and its threads trap (R435). -/
def execStarvationExpiry (r : PathRef) (s : State) : Result :=
  match s.group? r.g, s.path? r with
  | some g, some p =>
    match s.ctx? g.ctx with
    | none => notNow s
    | some c =>
      if !(s.working g) || p.st = .ready || p.timer < 2 ^ c.starvLim || s.underWay r.g r.w p.access p.tmask || s.waitOver r p then notNow s
      else
        let (kind, addr) := p.waitKind c
        let s := if p.wait.isNone then s.unsign r else s
        let s := s.updPath r (fun p => { p with
          st := .ready
          timer := 0
          wait := none })
        .next ((s.fault r p.tmask 0x15 1 addr (kind + c.starvLim * 8)).settle r.g r.w)
  | _, _ => notNow s

end Sys2Proof.Machine
end

