-- ==== Sys2Proof/Machine/Fabric.lean ====
section
/-! DEFINITION. Fabric.lean: the ports with their keys, link-level retry and credits (R342 to R352, R490 to R495), the
transport (R353 to R356, R496 to R500), and sequencer contexts that stop (R501). -/

namespace Sys2Proof.Machine

/-! ### Sequencer contexts -/

def State.seq? (s : State) (n : Nat) : Option Seq := (s.seqs.find? (fun (x : Nat × Seq) => x.1 = n)).map (·.2)
def State.updSeq (s : State) (n : Nat) (f : Seq → Seq) : State :=
  { s with seqs := s.seqs.map (fun (x : Nat × Seq) => if x.1 = n then (x.1, f x.2) else x) }
/-- The context on which a program runs, or ran when it was saved. -/
def State.seqOf (s : State) (key : Nat) : Option (Nat × Seq) :=
  match s.seqs.find? (fun (x : Nat × Seq) => x.2.key = key) with
  | some x => some x
  | none => (s.ctxs.findSome? (fun c => c.saved.bind (fun v => v.seqs.find? (fun (x : Nat × Seq) => x.2.key = key))))
/-- Change a program, running or saved. -/
def State.updProg (s : State) (key : Nat) (f : Seq → Seq) : State :=
  let g := fun (x : Nat × Seq) => if x.2.key = key then (x.1, f x.2) else x
  { s with
    seqs := s.seqs.map g
    ctxs := s.ctxs.map (fun c => { c with saved := c.saved.map (fun v => { v with seqs := v.seqs.map g }) }) }

/-- The record of a sequencer context (R489, R501): it names the context. -/
def State.seqErr (s : State) (n : Nat) (q : Seq) (pc : W64) (cls addr detail : Nat) : ErrRec :=
  { ErrRec.none with
    addr := BitVec.ofNat 64 addr
    pc := pc
    lcyc := s.lcyc 8 (n / 8)
    cls := cls
    ctx := q.ctx
    acls := 8
    agent := n
    detail := detail
    extra := leBytes 4 q.blocks ++ leBytes 8 q.packets }

/-- STOP A SEQUENCER CONTEXT (R501): its program performs nothing more until the supervisor answers the record. -/
def State.stopProg (s : State) (key agent ctx : Nat) (pc : W64) (cls addr detail : Nat) : State :=
  let (n, q) := match s.seqOf key with
    | some x => x
    | none => (agent, { key := key, ctx := ctx, x := [], pc := pc, wait := none, timer := 0, blocks := 0, packets := 0, xfer := none,
                        stopped := none })
  let (s, ticket) := match s.folds ctx with
    | some s => (s, none)
    | none => s.emit (s.seqErr n q pc cls addr detail)
  s.updProg key (fun q => if q.stopped.isSome then q else { q with stopped := some ticket })

/-! ### Ports -/

/-- A port that can carry frames (R346, R490). -/
def Port.up (p : Port) : Bool := (p.mode = 1 || p.mode = 2) && !p.failed
/-- A port that takes new frames and packets: one that is to stop takes none (R384). -/
def Port.takes (p : Port) : Bool := p.up && p.mode0.isNone
/-- Retry slots (R351). -/
def Port.capacity (p : Port) : Nat := if p.mode = 2 then p.rwSize * 2 ^ 20 / 5120 else 512
def Port.key (p : Port) (an : Nat) : KeySlot := sget KeySlot.reset p.keys an
def Port.setKey (p : Port) (an : Nat) (k : KeySlot) : Port := { p with keys := sset KeySlot.reset p.keys an k }
/-- Link sequence numbers modulo 2^32: a is not later than b (R350). -/
def lsnLe (a b : W32) : Bool := decide ((b - a).toNat < 2 ^ 31)
/-- Flow-control class of a packet (R352). -/
def controlKind : PacketKind → Bool
  | .put | .getReply => false
  | .getReq | .advance | .ack | .nack => true
/-- Length of a packet's frame (R345; log 31). -/
def frameLen (p : Packet) : Nat := p.bytes.length + 128
/-- Credits of a frame, in units of 64 bytes (R352). -/
def creditsOf (len : Nat) : Nat := (len + 63) / 64

/-- The record of a port (R490). -/
def State.portErr (s : State) (n cls domain addr detail : Nat) : ErrRec :=
  { ErrRec.none with
    addr := BitVec.ofNat 64 addr
    lcyc := s.lcyc 5 n
    cls := cls
    domain := domain
    phys := addr ≠ 0
    acls := 5
    agent := n
    detail := detail + n * 16 }

/-- Hand a packet to a port. -/
def State.enqueue (s : State) (port : Nat) (k : Packet) : State :=
  s.updPort port (fun p => if controlKind k.kind then { p with ctlQ := p.ctlQ ++ [k] } else { p with datQ := p.datQ ++ [k] })

/-- The ports of a set that are up and take packets. -/
def State.portsUp (s : State) (ports : Nat) : List Nat := (List.range Config.ports).filter (fun n => bit ports n && (s.port n).takes)

/-- The port for a packet (R346, R496): NSCC's choice for RUD (log 7), the lowest for ROD. -/
def State.pickPort (s : State) (ports : Nat) (rod : Bool) : Option Nat :=
  let ups := s.portsUp ports
  if rod then ups.head? else ups[Config.nsccChoice s.stamp ups.length % ups.length]?

/-! ### The sender's side (R498) -/

def Net.updPdc (n : Net) (id : Nat) (f : Pdc → Pdc) : Net := { n with pdcs := mapIf (fun d => d.id = id) f n.pdcs }
def State.updPdc (s : State) (id : Nat) (f : Pdc → Pdc) : State := { s with net := s.net.updPdc id f }
def State.pdc? (s : State) (id : Nat) : Option Pdc := s.net.pdcs.find? (fun d => d.id = id)
def State.remote? (s : State) (id : Nat) : Option RemoteOp := s.net.remote.find? (fun o => o.id = id)
def State.updRemote (s : State) (id : Nat) (f : RemoteOp → RemoteOp) : State :=
  { s with net := { s.net with remote := mapIf (fun o => o.id = id) f s.net.remote } }
def Pdc.updUnacked (d : Pdc) (psn : W32) (f : Unacked → Unacked) : Pdc :=
  { d with unacked := mapIf (fun u => u.packet.psn = psn) f d.unacked }

/-- The packet delivery context of an issuing context and a peer index (R498). -/
def State.pdcFor (s : State) (ctx peer : Nat) : State × Nat :=
  match s.net.pdcs.find? (fun d => d.ctx = ctx && d.peer = peer) with
  | some d => (s, d.id)
  | none =>
    let (s, id) := s.fresh
    ({ s with net := { s.net with pdcs := s.net.pdcs ++ [{ id := id, ctx := ctx, peer := peer, nextPsn := 0, unacked := [] }] } }, id)

/-- Packets of a packet delivery context that may still be sent (R498). -/
def State.sendRoom (s : State) (pdc : Nat) : Nat :=
  match s.pdc? pdc with
  | some d => 4096 - d.unacked.length
  | none => 4096

/-- The context of an operation stops, and its completion add is withheld (R497, R500, R501). -/
def State.stopOp (s : State) (o : RemoteOp) (cls addr detail : Nat) : State :=
  (s.stopProg o.prog o.agent o.ctx o.pc cls addr detail).updRemote o.id (fun o => { o with withheld := true })

/-- SEND A PACKET: it takes the next PSN and goes to a port of its peer; when no port is up its context stops (R497, R498). -/
def State.handOver (s : State) (o : RemoteOp) (k : Packet) : State :=
  match s.pdc? o.pdc with
  | none => s
  | some d =>
    let k := { k with
      psn := d.nextPsn
      dstIp := o.entry.ip }
    let port := s.pickPort o.entry.ports o.entry.rod
    let u : Unacked := { packet := k, ports := o.entry.ports, port := port, resends := 0, age := 0, said := port.isNone }
    let s := s.updPdc o.pdc (fun d => { d with
      nextPsn := d.nextPsn + 1
      unacked := d.unacked ++ [u] })
    let s := { s with stamp := s.stamp + 1 }
    match port with
    | some n => s.enqueue n k
    | none => s.stopOp o 0x44 k.addr.toNat (o.peer + 2 ^ 12)

/-- Send an unacknowledged packet again over a port of its peer that is up (R496, R497). -/
def State.resend (s : State) (pdc : Nat) (psn : W32) : State :=
  match s.pdc? pdc with
  | none => s
  | some d =>
    match d.unacked.find? (fun u => u.packet.psn = psn) with
    | none => s
    | some u =>
      match s.pickPort u.ports u.packet.rod with
      | some n =>
        let s := s.updPdc pdc (fun d => d.updUnacked psn (fun u => { u with
          port := some n
          resends := u.resends + 1
          age := 0 }))
        { (s.enqueue n u.packet) with stamp := s.stamp + 1 }
      | none =>
        let s := s.updPdc pdc (fun d => d.updUnacked psn (fun u => { u with
          port := none
          age := 0
          said := true }))
        match s.remote? u.packet.op with
        | some o => if u.said then s else s.stopOp o 0x44 u.packet.addr.toNat (d.peer + 2 ^ 12)
        | none => s

/-! ### Ports that fail (R490, R496) -/

/-- A packet that a failed port hands back goes to another port: an answer of the target to the lowest that is up. -/
def State.rehome (s : State) (k : Packet) : State :=
  match k.kind with
  | .ack | .nack => s
  | .getReply => match (s.portsUp (2 ^ Config.ports - 1)).head? with
    | some n => s.enqueue n k
    | none => s
  | .put | .getReq | .advance => s.resend k.pdc k.psn

/-- A PORT FAILS with class and detail: its packets go to other ports, and its record to the control node. -/
def State.failPort (s : State) (n cls addr detail : Nat) : State :=
  let p := s.port n
  let s := s.updPort n (fun p => { p with
    failed := true
    retrain := none
    ctlQ := []
    datQ := [] })
  let s := (p.store.map (·.packet) ++ p.ctlQ ++ p.datQ).foldl State.rehome s
  s.report (s.portErr n cls 6 addr detail)

/-- The transmit slot's packet number has reached a limit of R348 and R494. -/
def State.checkPn (s : State) (n : Nat) : State :=
  let p := s.port n
  let pn := (p.key p.txan).nextPn.toNat
  if !p.up then s
  else if 2 ^ 63 ≤ pn then s.failPort n 0x43 0 (p.txan + 2 * 4)
  else if 2 ^ 62 ≤ pn && !(p.key ((p.txan + 1) % 4)).valid && !p.rolled then
    (s.updPort n (fun p => { p with rolled := true })).report (s.portErr n 0x47 0 0 p.txan)
  else s

/-! ### Frames (R348 to R352) -/

/-- TXAN is to move at the next frame boundary (R348). -/
def Port.rollDue (p : Port) : Bool :=
  (p.key ((p.txan + 1) % 4)).valid && (decide (2 ^ 62 ≤ (p.key p.txan).nextPn.toNat) || p.switch_)

/-- A new frame may be sent. -/
def Port.maySend (p : Port) : Bool :=
  p.takes && p.retrain.isNone && decide (p.tx = .open_) && decide (p.store.length < p.capacity) &&
  (p.key p.txan).valid && !p.rollDue

/-- The packet that is framed next: control before data, each when credits cover its frame (R352). -/
def Port.nextPacket (p : Port) : Option Packet :=
  match p.ctlQ.head?, p.datQ.head? with
  | some c, d => if creditsOf (frameLen c) ≤ p.ctlCredits then some c
                 else d.bind (fun d => if creditsOf (frameLen d) ≤ p.datCredits then some d else none)
  | none, some d => if creditsOf (frameLen d) ≤ p.datCredits then some d else none
  | none, none => none

def State.send (s : State) (x : Sent) : State := { s with net := { s.net with sent := s.net.sent ++ [x] } }

/-- Physical address of a stored frame's slot in a retry window (R351; log 31); 0 for an on-die buffer. -/
def Port.slotPa (p : Port) (f : Stored) : Nat :=
  if p.mode = 2 then p.rwBase.toNat + 5120 * (f.lsn.toNat % max 1 p.capacity) else 0

/-- A port reads or writes n bytes of its retry window or receive buffer by class-1 requests (R344). -/
def State.portLines (s : State) (write : Bool) (pa n : Nat) : State :=
  (linesOf pa n).foldl (fun s l =>
    let (m, turned) := s.mem.rowLine l write
    ({ s with mem := m }).served (l / 32) 1 turned) s

/-- A frame is written there: its bytes are free values, for it is encrypted (R349, log 3). -/
def State.putFrame (s : State) (pa n : Nat) : State :=
  let s := s.portLines true pa n
  ({ s with mem := s.mem.write pa ((List.range n).map (Config.freeFrame s.ticks)) false } : State).tick

/-- The place in line of a port's own accesses. -/
def portKey (port : Nat) : Nat × Nat := (11, port)

/-- The frame of a packet, as the port sends it. -/
def Port.frameOf (p : Port) (k : Packet) : Stored :=
  { lsn := p.nextLsn, an := p.txan, pn := (p.key p.txan).nextPn, mac := p.mac, sci := p.sci, sa := p.key p.txan, control := controlKind k.kind,
    len := frameLen k, packet := { k with srcIp := p.ip }, bad := false }

/-- A frame is stored: it takes the next numbers, a slot and its credits, and leaves its queue (R348 to R352). -/
def Port.take (p : Port) (f : Stored) : Port :=
  let p := p.setKey p.txan { p.key p.txan with nextPn := (p.key p.txan).nextPn + 1 }
  { p with
    nextLsn := p.nextLsn + 1
    timer := if p.store.isEmpty then 0 else p.timer
    store := p.store ++ [f]
    tx := if p.capacity ≤ p.store.length + 1 then .full else .open_
    ctlQ := if f.control then p.ctlQ.tail else p.ctlQ
    datQ := if f.control then p.datQ else p.datQ.tail
    ctlCredits := if f.control then p.ctlCredits - creditsOf f.len else p.ctlCredits
    datCredits := if f.control then p.datCredits else p.datCredits - creditsOf f.len }

/-- FRAME_SEND: the packet takes the next numbers, is stored for retry and sent (R349, R350). -/
def execFrameSend (port : Nat) (s : State) : Result :=
  let p := s.port port
  match if p.maySend then p.nextPacket else none with
  | none => notNow s
  | some k => s.attempt (portKey port) 1 fun s =>
    let f := p.frameOf k
    let s := s.updPort port (fun p => p.take f)
    let s := if p.mode = 2 then s.putFrame (p.slotPa f) f.len else s
    let s := match k.kind with
      | .put | .getReq | .advance => s.updPdc k.pdc (fun d => d.updUnacked k.psn (fun u => { u with age := 0 }))
      | .getReply | .ack | .nack => s
    .next (((s.send (.frame port f)).count 4 port 0 1).checkPn port)

/-- A link NACK leaves the port (R350). -/
def State.sendNack (s : State) (port : Nat) : State :=
  let n := (s.port port).rxLsn
  ((s.updPort port (fun p => { p with nacked := true })).send (.linkNack port n)).count 4 port 3 1

/-- The replay check of an association number, with a replay window of 0: no packet number comes twice or late (R347, R349). -/
def Port.replayOk (p : Port) (f : Frame) : Bool := decide ((sget 1 p.rxPn f.an.val).toNat ≤ f.pn.toNat)

/-- Units of 64 bytes of the receive buffer (R352): of a long-reach port, those of RXSIZE. -/
def Port.rxUnits (p : Port) : Nat := if p.mode = 2 then p.rxSize * 2 ^ 20 / 64 else Config.rxUnits

/-- A frame is accepted (R350): the next number is expected, an acknowledgement is due, and it holds its class's buffer (R352). -/
def Port.accept (p : Port) (f : Frame) : Port :=
  let n := creditsOf f.len
  { p with
    rxLsn := p.rxLsn + 1
    rxPn := sset 1 p.rxPn f.an.val (f.pn + 1)
    nacked := false
    badFrames := 0
    ackAge := if p.ackDue.isNone then 0 else p.ackAge
    ackDue := some f.lsn
    grantCtl := if f.control then p.grantCtl - n else p.grantCtl
    grantDat := if f.control then p.grantDat else p.grantDat - n
    heldCtl := if f.control then p.heldCtl + n else p.heldCtl
    heldDat := if f.control then p.heldDat else p.heldDat + n }

/-- Where a long-reach receive buffer holds a frame: slots of 5,120 bytes, used in turn (DESIGN CHOICE, log 52). -/
def Port.bufPa (p : Port) (lsn : W32) : Nat := p.rxBase.toNat + 5120 * (lsn.toNat % max 1 (p.rxSize * 2 ^ 20 / 5120))

/-- FRAME_RECEIVE: the next expected frame is verified and accepted; others are discarded (R349, R350, R493, R494). -/
def execFrameReceive (port : Nat) (f : Frame) (s : State) : Result :=
  let p := s.port port
  if !p.takes || p.retrain.isSome then notNow s
  else if f.lsn ≠ p.rxLsn then
    if lsnLe f.lsn p.rxLsn || p.nacked then .next s else .next (s.sendNack port)
  else if !(p.key f.an.val).valid then .next (s.failPort port 0x43 0 (f.an.val + 4))
  else if !f.authentic || !p.replayOk f then
    let s := (s.updPort port (fun p => { p with badFrames := p.badFrames + 1 })).sendNack port
    if 8 ≤ (s.port port).badFrames then .next (s.failPort port 0x42 0 f.an.val) else .next s
  else s.attempt (portKey port) 1 fun s =>
    let (s, id) := s.fresh
    let s := s.updPort port (fun p => p.accept f)
    let buf := if p.mode = 2 then some (p.bufPa f.lsn) else none
    let s := match buf with | some pa => s.putFrame pa f.len | none => s
    let a : Arrived := { i := id, port := port, packet := f.packet, control := f.control, len := f.len, buf := buf }
    let s : State := { s with net := { s.net with arrived := s.net.arrived ++ [a] } }
    .next (s.count 4 port 1 1)

/-- Units of a port's receive buffer that neither frames nor earlier grants hold (R352): control takes them from a reserve that data
never uses. -/
def Port.room (p : Port) (control : Bool) : Nat :=
  let top := p.rxUnits
  let keep := min top (Config.ctlReserve top)
  if control then keep - (p.grantCtl + p.heldCtl) else (top - keep) - (p.grantDat + p.heldDat)

/-- CREDITS THAT A PORT GRANTS to its link partner (R352). -/
def State.grant (s : State) (port : Nat) (control : Bool) (units : Nat) : Result :=
  let p := s.port port
  if !p.takes || p.retrain.isSome || units = 0 || p.room control < units then notNow s
  else .next ((s.updPort port (fun p => { p with
    grantCtl := if control then p.grantCtl + units else p.grantCtl
    grantDat := if control then p.grantDat else p.grantDat + units })).send (.grant port control units))

/-- The cumulative acknowledgement that is due leaves the port (R350). -/
def State.sendAck (s : State) (port : Nat) : State :=
  match (s.port port).ackDue with
  | none => s
  | some n => (s.updPort port (fun p => { p with ackDue := none, ackAge := 0 })).send (.linkAck port n)

/-- An acknowledgement can leave the port now. -/
def Port.mayAck (p : Port) : Bool := p.up && p.retrain.isNone && p.ackDue.isSome

/-- LINK_ACK_SEND: the cumulative acknowledgement that is due (R350). -/
def execLinkAckSend (port : Nat) (s : State) : Result :=
  if (s.port port).mayAck then .next (s.sendAck port) else notNow s

/-- LINK_ACK_RECEIVE: every slot up to n is freed (R350, R492). -/
def execLinkAckReceive (port : Nat) (n : W32) (s : State) : Result :=
  let p := s.port port
  if !p.up || p.retrain.isSome then notNow s
  else
    let rest := p.store.filter (fun f => !(lsnLe f.lsn n))
    if rest.length = p.store.length then .next s
    else .next (s.updPort port (fun p => { p with
      store := rest
      timer := 0
      resends := 0
      tx := if p.tx = .full then .open_ else p.tx }))

/-- A stored frame reads back poisoned (R495): from an on-die buffer, or from a retry window. -/
def State.frameBad (s : State) (p : Port) (f : Stored) : Bool := f.bad || (p.mode = 2 && s.mem.anyBad (p.slotPa f) f.len)

/-- Send stored frames again from number n, as they are stored; a poisoned one is never sent (R350, R492, R495). -/
def State.replay (s : State) (port : Nat) (n : W32) (counts : Bool) : State :=
  let p := s.port port
  let again := p.store.filter (fun f => lsnLe n f.lsn)
  let oldest : Bool := match p.store.head? with | some f => f.lsn = n | none => false
  let s := if p.mode = 2 then again.foldl (fun s f => s.portLines false (p.slotPa f) f.len) s else s
  match again.find? (s.frameBad p) with
  | some f => s.failPort port 0x46 (p.slotPa f) 2
  | none =>
    let tries := if counts && oldest then p.resends + 1 else p.resends
    if 8 ≤ tries then (s.updPort port (fun p => { p with resends := tries })).failPort port 0x41 0 2
    else
      let s := s.updPort port (fun p => { p with
        resends := tries
        timer := 0
        tx := .replaying })
      let s : State := { s with net := { s.net with sent := s.net.sent ++ again.map (fun f => Sent.frame port f) } }
      s.count 4 port 2 again.length

/-- LINK_NACK_RECEIVE: a replay from the named frame; one outside the store fails the port (R350, R495). -/
def execLinkNackReceive (port : Nat) (n : W32) (s : State) : Result :=
  let p := s.port port
  if !p.up || p.retrain.isSome then notNow s
  else if !(p.store.any (fun f => f.lsn = n)) then .next (s.failPort port 0x46 0 1)
  else if p.tx = .replaying then .next s
  else s.attempt (portKey port) 1 fun s => .next (s.replay port n true)

/-- RETRY_TIMEOUT: the timer has reached RTO with a frame unacknowledged (R350). -/
def execRetryTimeout (port : Nat) (s : State) : Result :=
  let p := s.port port
  match if p.up && p.retrain.isNone && decide (p.tx ≠ .replaying) && decide (p.rto ≤ p.timer) then p.store.head? else none with
  | none => notNow s
  | some f => s.attempt (portKey port) 1 fun s => .next (s.replay port f.lsn true)

/-- REPLAY_DONE: the last stored frame has been resent (R350). -/
def execReplayDone (port : Nat) (s : State) : Result :=
  let p := s.port port
  if p.up && p.retrain.isNone && decide (p.tx = .replaying) then
    .next (s.updPort port (fun p => { p with tx := if p.capacity ≤ p.store.length then .full else .open_ }))
  else notNow s

/-- CREDIT_GRANT: the link partner grants credits of a class (R352). -/
def execCreditGrant (port : Nat) (control : Bool) (units : Nat) (s : State) : Result :=
  if (s.port port).mode = 0 then notNow s
  else .next (s.updPort port (fun p =>
    if control then { p with ctlCredits := p.ctlCredits + units } else { p with datCredits := p.datCredits + units }))

/-! ### Keys, modes and lanes -/

/-- KEY_ROLLOVER: TXAN moves to the next slot, which is valid (R348). -/
def execKeyRollover (port : Nat) (s : State) : Result :=
  let p := s.port port
  if p.up && p.rollDue then
    .next ((s.updPort port (fun p => { p with
      txan := (p.txan + 1) % 4
      switch_ := false
      rolled := false })).checkPn port)
  else notNow s

def State.tell (s : State) (r : Reply) : State := { s with dev := { s.dev with replies := s.dev.replies ++ [r] } }

/-- Load a key slot. The replay check of its receive association starts anew (DESIGN CHOICE, log 52). -/
def State.applyKey (s : State) (port slot : Nat) (k : KeySlot) (sw : Bool) : State :=
  (s.updPort port (fun p => { (p.setKey slot k) with
    rxPn := sset 1 p.rxPn slot 1
    load := none
    switch_ := p.switch_ || sw })).checkPn port

/-- No stored frame is under the slot (R348). -/
def Port.slotFree (p : Port) (slot : Nat) : Bool := p.store.all (fun f => f.an ≠ slot)

/-- KEYLOAD_APPLY: a waiting load is performed once the slot's last stored frame is acknowledged (R348). -/
def execKeyloadApply (port : Nat) (s : State) : Result :=
  let p := s.port port
  match p.load with
  | none => notNow s
  | some (tag, slot, k, sw) =>
    if p.slotFree slot then .next ((s.applyKey port slot k sw).tell { tag := tag, status := 0, value := 0, bytes := [] })
    else notNow s

/-- A port in MODE 0 (R384, R490): what its store and queues held is gone. -/
def Port.off (p : Port) : Port :=
  { p with
    mode := 0
    store := []
    tx := .open_
    failed := false
    retrain := none
    mode0 := none
    ackDue := none
    grantCtl := 0
    grantDat := 0 }

/-- PORT_MODE0_DRAIN: a MODE 0 write completes once every stored frame has been acknowledged; at once on a failed port
(R384, R490). -/
def execPortMode0Drain (port : Nat) (s : State) : Result :=
  let p := s.port port
  match p.mode0 with
  | none => notNow s
  | some tag =>
    if p.store.isEmpty || p.failed then .next ((s.updPort port Port.off).tell { tag := tag, status := 0, value := 0, bytes := [] })
    else notNow s

/-- LANE_LOCK_LOSS: the port stops sending and retrains (R491). -/
def execLaneLockLoss (port : Nat) (lanes : BitVec 4) (s : State) : Result :=
  if !(s.port port).up || lanes = 0 then notNow s
  else .next (s.updPort port (fun p => { p with
    retrain := some (p.retrain.getD 0)
    lost := if p.retrain.isSome then p.lost ||| lanes else lanes }))

/-- Fabric cycles within which a retrain succeeds (R491). -/
def retrainLimit : Nat := 2 ^ 20

/-- RETRAIN_COMPLETE: the transmitter replays from its oldest frame, and a record says so (R491). -/
def execRetrainComplete (port : Nat) (s : State) : Result :=
  let p := s.port port
  match p.retrain with
  | none => notNow s
  | some n =>
    if retrainLimit < n then notNow s
    else s.attempt (portKey port) 1 fun s =>
      let s := s.updPort port (fun p => { p with retrain := none, lost := 0 })
      let s := s.report (s.portErr port 0x40 6 0 p.lost.toNat)
      match p.store.head? with
      | some f => .next (s.replay port f.lsn false)
      | none => .next s

/-- RETRAIN_TIMEOUT: the port fails (R491). -/
def execRetrainTimeout (port : Nat) (s : State) : Result :=
  match (s.port port).retrain with
  | none => notNow s
  | some n => if retrainLimit ≤ n then .next (s.failPort port 0x41 0 1) else notNow s

/-! ### The target's side (R354, R498, R500) -/

def State.arrived? (s : State) (i : Nat) (k : PacketKind) : Option Arrived := s.net.arrived.find? (fun a => a.i = i && a.packet.kind = k)
/-- An arrived packet is taken out of its receive buffer (R344, R352). -/
def State.dropArrived (s : State) (i : Nat) : State :=
  match s.net.arrived.find? (fun a => a.i = i) with
  | none => s
  | some a =>
    let s := match a.buf with | some pa => s.portLines false pa a.len | none => s
    let s := s.updPort a.port (fun p => { p with
      heldCtl := if a.control then p.heldCtl - creditsOf a.len else p.heldCtl
      heldDat := if a.control then p.heldDat else p.heldDat - creditsOf a.len })
    { s with net := { s.net with arrived := s.net.arrived.filter (fun a => a.i ≠ i) } }

def Delivery.start (src pdc : Nat) : Delivery := { src := src, pdc := pdc, base := 0, above := [], refused := [] }
def State.delivery (s : State) (src pdc : Nat) : Delivery :=
  (s.net.deliveries.find? (fun d => d.src = src && d.pdc = pdc)).getD (Delivery.start src pdc)
def State.setDelivery (s : State) (d : Delivery) : State :=
  { s with net := { s.net with deliveries := s.net.deliveries.filter (fun x => !(x.src = d.src && x.pdc = d.pdc)) ++ [d] } }

/-- A number is delivered already. -/
def Delivery.has (d : Delivery) (psn : W32) : Bool := 2 ^ 31 ≤ (psn - d.base).toNat || d.above.contains psn
/-- Move the base past what is delivered. -/
def Delivery.slide : Nat → Delivery → Delivery
  | 0, d => d
  | n + 1, d => if d.above.contains d.base then Delivery.slide n { d with base := d.base + 1, above := d.above.filter (· ≠ d.base) } else d
def Delivery.take (d : Delivery) (psn : W32) : Delivery :=
  let d := { d with above := psn :: d.above }
  Delivery.slide d.above.length d

/-- An answer of the target goes out by the port that the packet came by. -/
def State.answer (s : State) (a : Arrived) (kind : PacketKind) (op : Nat) : State :=
  s.enqueue a.port { a.packet with
    kind := kind
    dstIp := a.packet.srcIp
    src := Config.self
    bytes := []
    poison := []
    len := 0
    value := 0
    op := op }

/-- What becomes of a packet before it is applied (R498). -/
inductive Fate
  | apply
  /-- Delivered already: it is answered again. -/
  | again
  /-- It waits for earlier ones under ROD. -/
  | wait
  /-- Beyond what the target holds: discarded, with a negative acknowledgement under ROD. -/
  | discard
deriving DecidableEq, Repr

def State.fate (s : State) (k : Packet) : Fate :=
  let d := s.delivery k.src k.pdc
  let ahead := (k.psn - d.base).toNat
  if d.has k.psn then .again
  else if k.rod && ahead ≠ 0 then (if ahead ≤ 4096 then .wait else .discard)
  else if 4096 < ahead then .discard
  else .apply

/-- The packet is delivered and acknowledged. -/
def State.delivered (s : State) (a : Arrived) : State :=
  let k := a.packet
  ((s.setDelivery ((s.delivery k.src k.pdc).take k.psn)).dropArrived a.i).answer a .ack 0

/-- REFUSE A PACKET (R500): it counts as delivered and is answered negatively; a context that it names gets a record. -/
def State.refuse (s : State) (a : Arrived) (ctx : Option Nat) (kind : Nat) : State :=
  let k := a.packet
  let s := match ctx with
    | some c => s.report { ErrRec.none with
        addr := k.addr
        lcyc := s.lcyc 5 a.port
        cls := 0x45
        ctx := c
        acls := 5
        agent := a.port
        detail := kind + k.peer * 16 }
    | none => s
  let d := (s.delivery k.src k.pdc).take k.psn
  ((s.setDelivery { d with refused := (k.psn, kind) :: d.refused }).dropArrived a.i).answer a .nack kind

/-- A packet that is not applied: answered again, or discarded. -/
def State.notApplied (s : State) (a : Arrived) : Fate → State
  | .again =>
    match (s.delivery a.packet.src a.packet.pdc).refused.find? (fun (x : W32 × Nat) => x.1 = a.packet.psn) with
    | some (_, kind) => (s.dropArrived a.i).answer a .nack kind
    | none => (s.dropArrived a.i).answer a .ack 0
  | _ => if a.packet.rod then (s.dropArrived a.i).answer a .nack 0 else s.dropArrived a.i

/-- The receiving context (R346). -/
def State.receiver (s : State) (job : BitVec 24) : Option Ctx := s.ctxs.find? (fun c => c.jobId = job)

/-- The packet's write is stalled at a WB page (R454). -/
def State.packetStalled (s : State) (i : Nat) : Bool := s.mem.stalls.any (fun x => x.by_ = .packet i)

def State.stallPacket (s : State) (i ctx va : Nat) : State :=
  let (s, id) := s.fresh
  { s with mem := { s.mem with stalls := s.mem.stalls ++ [{ id := id, ctx := ctx, va := BitVec.ofNat 64 va, by_ := .packet i, ready := false }] } }

/-- The first WB page of some pieces. -/
def wbPiece (ps : List Piece) : Bool := ps.any (fun p => attrWb p.e.attr)
/-- Some line of the pieces belongs to an engine (R182). -/
def State.ownedPieces (s : State) (ps : List Piece) : Bool := ps.any (fun p => (linesOf p.pa p.n).any (fun l => s.owned (2 * l)))
/-- The bytes of a packet with their tags. -/
def packetBytes (k : Packet) : List (Byte × Bool) := k.bytes.zipIdx.map (fun (b, i) => (b, k.poison.contains i))

/-- The place in line of an arrived packet's accesses. -/
def packetKey (i : Nat) : Nat × Nat := (2, i)

/-- PUT_PACKET_RECEIVE: every byte is written under ownership, then the packet is acknowledged (R354, R356, R498, R500). -/
def execPutPacketReceive (i : Nat) (s : State) : Result :=
  s.attempt (packetKey i) 1 fun s => match s.arrived? i .put with
  | none => notNow s
  | some a =>
    let k := a.packet
    match s.fate k, s.receiver k.jobId with
    | .wait, _ => notNow s
    | .again, _ => .next (s.notApplied a .again)
    | .discard, _ => .next (s.notApplied a .discard)
    | .apply, none => .next (s.refuse a none 4)
    | .apply, some c =>
      if k.addrPoison then .next (s.refuse a (some c.num) 5)
      else match s.piecesAt c none (piecesOf k.addr.toNat k.bytes.length) with
        | .error _ => .next (s.refuse a (some c.num) 1)
        | .ok ps =>
          if ps.any (fun p => attrCtr p.e.attr || !(attrW p.e.attr)) then .next (s.refuse a (some c.num) 2)
          else if s.packetStalled i then notNow s
          else if wbPiece ps then .next (s.stallPacket i c.num k.addr.toNat)
          else if s.ownedPieces ps then notNow s
          else .next ((s.engineWrite 1 5 a.port ps (packetBytes k)).delivered a)

/-- Cut bytes into packets of at most 4,096 (R345, R353). -/
def cutBytes : Nat → List (Byte × Bool) → List (List (Byte × Bool))
  | 0, _ => []
  | _, [] => []
  | fuel + 1, bs => bs.take 4096 :: cutBytes fuel (bs.drop 4096)

def taggedAt (bs : List (Byte × Bool)) : List Nat := (bs.zipIdx.filter (fun b => b.1.2)).map (·.2)

/-- GET_REQUEST_RECEIVE: the source is read once and sent back in replies; the request is acknowledged (R353, R354, R500). -/
def execGetRequestReceive (i : Nat) (s : State) : Result :=
  s.attempt (packetKey i) 1 fun s => match s.arrived? i .getReq with
  | none => notNow s
  | some a =>
    let k := a.packet
    match s.fate k, s.receiver k.jobId with
    | .wait, _ => notNow s
    | .again, _ => .next (s.notApplied a .again)
    | .discard, _ => .next (s.notApplied a .discard)
    | .apply, none => .next (s.refuse a none 4)
    | .apply, some c =>
      if k.addrPoison then .next (s.refuse a (some c.num) 5)
      else match s.piecesAt c none (piecesOf k.addr.toNat k.len) with
        | .error _ => .next (s.refuse a (some c.num) 1)
        | .ok ps =>
          if ps.any (fun p => attrCtr p.e.attr) then .next (s.refuse a (some c.num) 2)
          else
            let (s, bs) := ps.foldl (fun (x : State × List (Byte × Bool)) p =>
              let (s, b) := x.1.agentRead 1 6 a.port p
              (s, x.2 ++ b)) (s, [])
            let s := (cutBytes (bs.length + 1) bs).zipIdx.foldl (fun s (part, j) => s.enqueue a.port { k with
              kind := .getReply
              dstIp := k.srcIp
              src := Config.self
              psn := BitVec.ofNat 32 j
              addr := k.value + BitVec.ofNat 64 (4096 * j)
              bytes := part.map (·.1)
              poison := taggedAt part }) s
            .next (s.delivered a)

/-- The number under which the replies to a get are counted. -/
def replyStream (op : Nat) : Nat := 2 ^ 40 + op

/-- An operation whose every packet is acknowledged, or whose every byte is written: its counter is advanced by its length
(R353, R502). -/
def State.settleOp (s : State) (id : Nat) : State :=
  match s.remote? id with
  | none => s
  | some o =>
    if o.sent && o.left = 0 && o.refused.isEmpty && o.advance.isNone && (!o.withheld || o.dropped) then
      let s := { s with net := { s.net with remote := s.net.remote.filter (fun o => o.id ≠ id) } }
      match o.ctr with
      | some a => if o.dropped then s else s.advance o.ctx a.toNat o.bytes 8 (o.agent / 8)
      | none => s
    else s

/-- GET_REPLY_RECEIVE: the bytes are written locally; the last ones complete the get (R353). -/
def execGetReplyReceive (i : Nat) (s : State) : Result :=
  s.attempt (packetKey i) 1 fun s => match s.arrived? i .getReply with
  | none => notNow s
  | some a =>
    let k := a.packet
    let d := s.delivery k.src (replyStream k.op)
    match s.remote? k.op with
    | none => .next (s.dropArrived i)
    | some o =>
      if !o.get || d.has k.psn then .next (s.dropArrived i)
      else match s.ctx? o.ctx with
        | none => .next (s.dropArrived i)
        | some c =>
          let took := fun (s : State) => (s.setDelivery (d.take k.psn)).dropArrived i
          match s.piecesAt c none (piecesOf k.addr.toNat k.bytes.length) with
          | .error (va, _) => .next ((took s).stopOp o 0x4C va (1 + 16))
          | .ok ps =>
            if ps.any (fun p => attrCtr p.e.attr) then .next ((took s).stopOp o 0x4C k.addr.toNat (3 + 16))
            else if ps.any (fun p => !(attrW p.e.attr)) then .next ((took s).stopOp o 0x4C k.addr.toNat (2 + 16))
            else if s.packetStalled i then notNow s
            else if wbPiece ps then .next (s.stallPacket i c.num k.addr.toNat)
            else if s.ownedPieces ps then notNow s
            else
              let s := took (s.engineWrite 1 5 a.port ps (packetBytes k))
              .next ((s.updRemote o.id (fun o => { o with left := o.left - k.bytes.length })).settleOp o.id)

/-- REMOTE_ADVANCE_RECEIVE: CTR.MAX at system scope, then acknowledged (R354, R499, R500). -/
def execRemoteAdvanceReceive (i : Nat) (s : State) : Result :=
  s.attempt (packetKey i) 1 fun s => match s.arrived? i .advance with
  | none => notNow s
  | some a =>
    let k := a.packet
    match s.fate k, s.receiver k.jobId with
    | .wait, _ => notNow s
    | .again, _ => .next (s.notApplied a .again)
    | .discard, _ => .next (s.notApplied a .discard)
    | .apply, none => .next (s.refuse a none 4)
    | .apply, some c =>
      if k.addrPoison then .next (s.refuse a (some c.num) 5)
      else
        let va := k.addr.toNat / 16 * 16
        match s.translate c va with
        | .error _ => .next (s.refuse a (some c.num) 1)
        | .ok e =>
          if !(attrCtr e.attr && attrW e.attr) then .next (s.refuse a (some c.num) 3)
          else if s.packetStalled i then notNow s
          else if attrWb e.attr then .next (s.stallPacket i c.num va)
          else
            let l := CtrLoc.phys (e.pa va)
            let (old, _, bad) := s.ctrGet l
            let s := (s.holdRange c va 16).ctrPut l 0 (leBytes 8 (max old k.value.toNat)) bad
            .next (((s.watch true true (e.pa va) 8 6 a.port).1).delivered a)

/-! ### Answers that the sender receives (R353, R497, R500) -/

/-- The answer that has arrived for a packet. -/
def State.answered (s : State) (kind : PacketKind) (pdc : Nat) (psn : W32) (op : Nat) : Option Arrived :=
  s.net.arrived.find? (fun a => a.packet.kind = kind && a.packet.pdc = pdc && a.packet.psn = psn && (kind = .ack || a.packet.op = op))

/-- TRANSPORT_ACK_RECEIVE: the packet is acknowledged; with a put's last one its counter is advanced (R353, R497, R498). -/
def execTransportAckReceive (pdc : Nat) (psn : W32) (s : State) : Result :=
  match s.answered .ack pdc psn 0 with
  | none => notNow s
  | some a => s.attempt (packetKey a.i) 1 fun s =>
    let s := s.dropArrived a.i
    match (s.pdc? pdc).bind (fun d => d.unacked.find? (fun u => u.packet.psn = psn)) with
    | none => .next s
    | some u =>
      let s := s.updPdc pdc (fun d => { d with unacked := d.unacked.filter (fun u => u.packet.psn ≠ psn) })
      let s := if u.packet.kind = .getReq then s else s.updRemote u.packet.op (fun o => { o with left := o.left - 1 })
      .next (s.settleOp u.packet.op)

/-- TRANSPORT_NACK_RECEIVE: a packet that the target refused stops its context (R500); one that the target could not hold is
sent again by the timer of R497. -/
def execTransportNackReceive (pdc : Nat) (psn : W32) (kind : Nat) (s : State) : Result :=
  match s.answered .nack pdc psn kind with
  | none => notNow s
  | some a => s.attempt (packetKey a.i) 1 fun s =>
    let s := s.dropArrived a.i
    match (s.pdc? pdc).bind (fun d => d.unacked.find? (fun u => u.packet.psn = psn)) with
    | none => .next s
    | some u =>
      if kind = 0 then .next s
      else
        let s := s.updPdc pdc (fun d => { d with unacked := d.unacked.filter (fun u => u.packet.psn ≠ psn) })
        match s.remote? u.packet.op with
        | none => .next s
        | some o =>
          let s := s.updRemote o.id (fun o => { o with refused := if o.dropped then o.refused else o.refused ++ [u.packet] })
          if o.dropped then .next (s.updRemote o.id (fun o => { o with left := o.left - 1 }))
          else .next (s.stopOp o 0x45 u.packet.addr.toNat (kind % 16 + o.peer * 16))

/-- Fabric cycles after which a packet is sent again (R497). -/
def resendAge : Nat := 2 ^ 24

/-- TRANSPORT_RESEND_TIMEOUT: the packet is sent again; after four resends its context stops (R497). -/
def execTransportResendTimeout (pdc : Nat) (psn : W32) (s : State) : Result :=
  match (s.pdc? pdc).bind (fun d => (d.unacked.find? (fun u => u.packet.psn = psn && resendAge ≤ u.age)).map (fun u => (d, u))) with
  | none => notNow s
  | some (d, u) =>
    if 4 ≤ u.resends && !u.said && (s.pickPort u.ports u.packet.rod).isSome then
      let s := match s.remote? u.packet.op with
        | some o => s.stopOp o 0x44 u.packet.addr.toNat d.peer
        | none => s
      let s := s.updPdc pdc (fun d => d.updUnacked psn (fun u => { u with said := true }))
      .next (s.resend pdc psn)
    else .next (s.resend pdc psn)

/-- REMOTE_ADVANCE_SEND: a release advance is sent once every covered put has been acknowledged (R355, R499). -/
def execRemoteAdvanceSend (id : Nat) (s : State) : Result :=
  match s.remote? id with
  | none => notNow s
  | some o =>
    let open_ := o.covers.any (fun c => match s.remote? c with | some p => !(p.sent && p.left = 0) || !p.refused.isEmpty | none => false)
    match o.advance with
    | none => notNow s
    | some k =>
      if open_ || s.sendRoom o.pdc = 0 then notNow s
      else .next ((s.updRemote id (fun o => { o with advance := none })).handOver o k)

end Sys2Proof.Machine
end

