-- ==== Sys2Proof/Machine/Zf.lean ====
section
/-! DEFINITION. Zf.lean: the ZF instructions of the fabric sequencers, their transfers with embers and wire formats, and how
sequencer contexts wait and stop (R358 to R381, R503 to R507). -/

namespace Sys2Proof.Machine

/-! ### Who issues -/

/-- A sequencer context at issue: its number, its program and its device context. -/
structure SIss where
  n : Nat
  q : Seq
  c : Ctx
deriving DecidableEq, Repr

def State.siss? (s : State) : Option SIss :=
  match s.cur with
  | some (.seq n) => (s.seq? n).bind (fun q => (s.ctx? q.ctx).map (fun c => { n := n, q := q, c := c }))
  | _ => none

/-- An instruction that a sequencer context issues counts once; a transfer that goes on has counted (R391). -/
def State.countIssue (s : State) (i : SIss) : State := if i.q.xfer.isNone then s.count 5 (i.n / 8) 0 1 else s

/-- Run the meaning of an instruction that a sequencer context issues. -/
def withSeq (s : State) (f : SIss → State → Result) : Result :=
  match s.siss? with
  | some i => f i (s.countIssue i)
  | none => .fault .noIssue

/-- The place in line of a sequencer context's accesses. -/
def seqKey (n : Nat) : Nat × Nat := (3, n)

/-- The same for an instruction that reaches memory. -/
def withSeqMem (s : State) (f : SIss → State → Result) : Result :=
  match s.siss? with
  | some i => s.attempt (seqKey i.n) 1 (fun s => f i (s.countIssue i))
  | none => .fault .noIssue

/-- Register x0 reads 0 (R370). -/
def Seq.reg (q : Seq) (i : Fin 32) : W64 := if i = 0 then 0 else sget 0 q.x i.val
def Seq.setReg (q : Seq) (i : Fin 32) (v : W64) : Seq := if i = 0 then q else { q with x := sset 0 q.x i.val v }

/-- The instruction at PC is performed: the program goes on at `pc`. -/
def State.seqNext (s : State) (i : SIss) (pc : W64) (f : Seq → Seq) : State :=
  (s.updSeq i.n (fun q => { (f q) with
    pc := pc
    wait := none
    timer := 0
    blocks := 0
    packets := 0
    xfer := none }))

def SIss.next (i : SIss) : W64 := i.q.pc + 4

/-- Stop at the instruction (R501). -/
def State.seqStop (s : State) (i : SIss) (cls addr detail : Nat) : State := s.stopProg i.q.key i.n i.q.ctx i.q.pc cls addr detail

/-- Class 0x48 (R503). -/
def State.zfIllegal (s : State) (i : SIss) (kind op : Nat) : State := s.seqStop i 0x48 0 (kind + op * 16)
/-- Class 0x49 (R504). -/
def State.emberMisuse (s : State) (i : SIss) (kind h : Nat) : State :=
  s.seqStop i 0x49 (i.c.embBase.toNat + 32 * h) (kind + h * 8)
/-- Class 0x4C (R489). -/
def State.localFault (s : State) (i : SIss) (write : Bool) (kind va : Nat) : State := s.seqStop i 0x4C va (kind + write.toNat * 16)

/-- Write a register and go on. -/
def State.seqSet (s : State) (i : SIss) (d : Fin 32) (v : W64) : State := s.seqNext i i.next (fun q => q.setReg d v)

def sext16 (x : BitVec 16) : W64 := x.signExtend 64

/-! ### Registers and branches -/

def execMovi (x : ZfImm) (s : State) : Result :=
  withSeq s (fun i s => .next (s.seqSet i x.d (i.q.reg x.a <<< 16 + x.imm.setWidth 64)))
def execAddi (x : ZfImm) (s : State) : Result :=
  withSeq s (fun i s => .next (s.seqSet i x.d (i.q.reg x.a + sext16 x.imm)))
def execZfAdd (x : ZfRegs) (s : State) : Result :=
  withSeq s (fun i s => .next (s.seqSet i x.d (i.q.reg x.a + i.q.reg x.b)))
def execZfSub (x : ZfRegs) (s : State) : Result :=
  withSeq s (fun i s => .next (s.seqSet i x.d (i.q.reg x.a - i.q.reg x.b)))

/-- The target of a branch word. -/
def SIss.target (i : SIss) (imm : BitVec 16) : W64 := i.q.pc + 4 * sext16 imm

def execBeq (x : ZfImm) (s : State) : Result :=
  withSeq s (fun i s => .next (s.seqNext i (if i.q.reg x.d = i.q.reg x.a then i.target x.imm else i.next) id))
def execBne (x : ZfImm) (s : State) : Result :=
  withSeq s (fun i s => .next (s.seqNext i (if i.q.reg x.d = i.q.reg x.a then i.next else i.target x.imm) id))
def execZfBra (imm : BitVec 16) (s : State) : Result := withSeq s (fun i s => .next (s.seqNext i (i.target imm) id))

/-! ### Local accesses (R381, R489) -/

/-- The pieces of a local access; `none` as error says that it waits: a write behind lines that an engine took before number `n`
(R182, R183), or at a page at WB (R454). Otherwise kind and address of class 0x4C. -/
def State.seqPieces (s : State) (c : Ctx) (write : Bool) (n : Nat) (va len : Nat) : Except (Option (Nat × Nat)) (List Piece) :=
  match s.piecesAt c none (piecesOf va len) with
  | .error (a, _) => .error (some (1, a))
  | .ok ps =>
    if write && ps.any (fun p => !(attrW p.e.attr)) then .error (some (2, va))
    else if ps.any (fun p => attrCtr p.e.attr) then .error (some (3, va))
    else if write && (wbPiece ps || ps.any (fun p => (linesOf p.pa p.n).any (fun l => s.earlierOwner n (2 * l)))) then .error none
    else .ok ps

/-- Read local ranges in order; `n` is the sequencer context. -/
def State.seqReads (s : State) (c : Ctx) (n : Nat) : List (Nat × Nat) → Except (Option (Nat × Nat)) (State × List (List (Byte × Bool)))
  | [] => .ok (s, [])
  | (va, len) :: rest =>
    match s.seqPieces c false 0 va len with
    | .error e => .error e
    | .ok ps =>
      let (s, bs) := ps.foldl (fun (x : State × List (Byte × Bool)) p =>
        let (s, b) := x.1.agentRead 1 5 (n / 8) p
        (s, x.2 ++ b)) (s, [])
      match s.seqReads c n rest with
      | .error e => .error e
      | .ok (s, l) => .ok (s, bs :: l)

/-- Write local ranges in order, once all of them are permitted; their lines are owned since number `at_`. -/
def State.seqWrites (s : State) (c : Ctx) (n at_ : Nat) (ws : List (Nat × List (Byte × Bool))) : Except (Option (Nat × Nat)) State :=
  match ws.mapM (fun (w : Nat × List (Byte × Bool)) => (s.seqPieces c true at_ w.1 w.2.length).map (fun ps => (ps, w.2))) with
  | .error e => .error e
  | .ok l => .ok (l.foldl (fun s (x : List Piece × List (Byte × Bool)) => s.engineWrite 1 5 (n / 8) x.1 x.2) s)

/-- What an access that failed does: it waits, or stops its context. -/
def State.seqFail (s : State) (i : SIss) (write : Bool) : Option (Nat × Nat) → State
  | none => s.putOff
  | some (kind, va) => s.localFault i write kind va

/-! ### Embers (R364 to R366) -/

def Ember.ofBytes (va h : Nat) (bs : List Byte) : Ember :=
  let x := leNat bs
  { va := va, handle := h, base := bits x 255 192, nelem := bits x 191 160, elo := bits x 159 128, version := BitVec.ofNat 32 (bits x 127 96),
    coll := bits x 95 82, chunk := bits x 81 66, stage := bits x 65 58, seqctx := bits x 57 51, bf16 := bit x 48, state := bits x 2 0 }

/-- Bits [127:0] of an entry, as the device writes them. -/
def Ember.low (e : Ember) : List Byte :=
  leBytes 16 (e.state + e.bf16.toNat * 2 ^ 48 + e.seqctx % 128 * 2 ^ 51 + e.stage * 2 ^ 58 + e.chunk * 2 ^ 66 + e.coll * 2 ^ 82
    + e.version.toNat * 2 ^ 96)

def Ember.size (e : Ember) : Nat := if e.bf16 then 2 else 4
def Ember.spec (e : Ember) : FSpec := if e.bf16 then .bf16 else .fp32
/-- The site word of an entry (R364). -/
def Ember.site (e : Ember) : Nat := e.coll + e.chunk * 2 ^ 14 + e.stage * 2 ^ 30
/-- Kind 6 of R504. -/
def Ember.broken (e : Ember) : Bool := 5 ≤ e.state || e.base % e.size ≠ 0 || 2 ^ 55 ≤ e.base

/-- Read an entry: the kind of R504, or of class 0x4C. -/
inductive EmberGet
  | ok (s : State) (e : Ember)
  | misuse (kind : Nat)
  | fail (f : Option (Nat × Nat))

def State.getEmber (s : State) (i : SIss) (h : Nat) : EmberGet :=
  let va := (i.c.embBase.toNat + 32 * h) % 2 ^ 64
  if h = 0 || i.c.nemb ≤ h then .misuse 5
  else match s.seqReads i.c i.n [(va, 32)] with
    | .error f => .fail f
    | .ok (s, l) =>
      let bs := l.headD []
      if bs.any (·.2) then .misuse 7 else .ok s (Ember.ofBytes va h (bs.map (·.1)))

/-- Write bits [127:0] of an entry (R365). -/
def State.putEmber (s : State) (c : Ctx) (n : Nat) (e : Ember) : Except (Option (Nat × Nat)) State :=
  s.seqWrites c n s.stamp [(e.va, e.low.map (fun b => (b, false)))]

/-- EMB.BIND (R366, R374, R504). -/
def execEmbBind (x : ZfRegs) (s : State) : Result :=
  withSeqMem s (fun i s =>
    let h := (i.q.reg x.a).toNat % 65536
    match s.getEmber i h with
    | .misuse k => .next (s.emberMisuse i k h)
    | .fail f => .next (s.seqFail i false f)
    | .ok s1 e =>
      if e.state ≠ 1 && e.state ≠ 3 then .next (s1.emberMisuse i 1 h)
      else if e.site ≠ (i.q.reg x.b).toNat % 2 ^ 38 then .next (s1.emberMisuse i 2 h)
      else if e.broken then .next (s1.emberMisuse i 6 h)
      else
        let zeros := if e.state = 1 then [(e.base, List.replicate (e.nelem * e.size) ((0 : Byte), false))] else []
        match s1.seqWrites i.c i.n s1.stamp (zeros ++ [(e.va, ({ e with state := 2, seqctx := i.n } : Ember).low.map (fun b => (b, false)))]) with
        | .error f => .next (s.seqFail i true f)
        | .ok s => .next (s.seqSet i x.d (e.version.setWidth 64)))

/-! ### Values -/

def localSpec (bf16 : Bool) : FSpec := if bf16 then .bf16 else .fp32
def localSize (bf16 : Bool) : Nat := if bf16 then 2 else 4

/-- Elements of some bytes, each `size` bytes, with their tags. -/
def elements (size n : Nat) (bs : List (Byte × Bool)) : List (Nat × Bool) :=
  (List.range n).map (fun k => let l := (bs.drop (size * k)).take size; (leNat (l.map (·.1)), l.any (·.2)))

/-- Bytes of elements. -/
def elementBytes (size : Nat) (xs : List (Nat × Bool)) : List (Byte × Bool) := xs.flatMap (fun x => (leBytes size x.1).map (fun b => (b, x.2)))

/-- rne(exact(a + b), f) (R361, R362, R367, R376). -/
def addRne (f : FSpec) (a b : FVal) : Nat := f.round .rne 0 false (sumExact .rne [a, b])

/-- EMB.FOLD (R367, R504). -/
def execEmbFold (x : ZfFold) (s : State) : Result :=
  withSeqMem s (fun i s =>
    let h := (i.q.reg x.a).toNat % 65536
    match s.getEmber i h with
    | .misuse k => .next (s.emberMisuse i k h)
    | .fail f => .next (s.seqFail i false f)
    | .ok s1 e =>
      if e.state ≠ 4 then .next (s1.emberMisuse i 4 h)
      else if e.broken then .next (s1.emberMisuse i 6 h)
      else
        let z := localSize x.lbf16
        let at_ := ((i.q.reg x.b).toNat + z * e.elo) % 2 ^ 64
        match s1.seqReads i.c i.n [(at_, z * e.nelem), (e.base, e.size * e.nelem)] with
        | .error f => .next (s.seqFail i false f)
        | .ok (s2, l) =>
          let ins := elements z e.nelem (l.getD 0 [])
          let es := elements e.size e.nelem (l.getD 1 [])
          let out := (ins.zip es).map (fun ((a, ba), (b, bb)) =>
            (addRne (localSpec x.lbf16) ((localSpec x.lbf16).decode a) (e.spec.decode b), ba || bb))
          let low := ({ e with state := 0, version := e.version + 1 } : Ember).low.map (fun b => (b, false))
          match s2.seqWrites i.c i.n s2.stamp [(at_, elementBytes z out), (e.va, low)] with
          | .error f => .next (s.seqFail i true f)
          | .ok s => .next (s.seqNext i i.next id))

/-! ### Transfers (R375 to R378) -/

/-- What the four transfers differ in. -/
inductive XKind
  | send | recv | red | fwd
deriving DecidableEq, Repr

def XKind.op : XKind → Nat
  | .send => 0x10 | .recv => 0x11 | .red => 0x12 | .fwd => 0x13

/-- A transfer's operands. -/
structure XOps where
  kind : XKind
  x : ZfTransfer
  a0 : Nat
  a1 : Nat
  a2 : Nat
  n : Nat
  peer : Nat
  stream : Nat
  /-- Elements and wire bytes of a block. -/
  b : Nat
  bytes : Nat
deriving DecidableEq, Repr

def XOps.of (k : XKind) (x : ZfTransfer) (q : Seq) : XOps :=
  let r := fun j => (q.reg (x.a + Fin.ofNat 32 j)).toNat
  let b := if x.wf.val < 2 then 1 else wireBlock x.wbk.val
  { kind := k, x := x, a0 := r 0, a1 := r 1, a2 := r 2, n := bits (r 3) 31 0, peer := bits (r 3) 43 32, stream := bits (r 3) 63 48, b := b
    bytes := if x.wf.val = 0 then 4 else if x.wf.val = 1 then 2 else if x.wf.val = 2 then s1bBytes b else t5bBytes b }

/-- It puts its wire bytes to a peer. -/
def XOps.sends (o : XOps) : Bool :=
  match o.kind with
  | .send | .fwd => true
  | .red => !o.x.ownFin
  | .recv => false

/-- The handle of the ember that it names (R365, R375). -/
def XOps.handle (o : XOps) (q : Seq) : Nat :=
  match o.kind with
  | .send | .red => if o.x.b = 0 then 0 else (q.reg o.x.b).toNat % 65536
  | .recv | .fwd => 0

def XOps.total (o : XOps) : Nat := o.n / o.b
def XOps.byteCount (o : XOps) : Nat := o.total * o.bytes

/-- The lowest kind of R503 that the word and its registers break by themselves. -/
def XOps.illegal (o : XOps) (npeer : Nat) : Option Nat :=
  let fin := decide (o.kind = .red) && o.x.ownFin
  if o.x.a.val % 4 ≠ 0 || o.x.a.val < 4 then some 3
  else if o.x.wbk = 3 || (o.x.wf.val < 2 && o.x.wbk ≠ 0) then some 4
  else if (o.x.sr && o.x.wf ≠ 3) || (fin && (o.x.b ≠ 0 || o.x.sr)) then some 5
  else if o.n = 0 || o.n % o.b ≠ 0 then some 6
  else if o.sends && npeer ≤ o.peer then some 7
  else none

def Peer.ofBytes (bs : List Byte) : Peer :=
  let x := leNat bs
  { ip := BitVec.ofNat 128 (bits x 255 128), ports := bits x 127 92, rod := bit x 88, jobId := BitVec.ofNat 24 (bits x 87 64) }

/-- Read a peer's entry (R346); a poisoned one is kind 4 of class 0x4C. -/
def State.getPeer (s : State) (i : SIss) (n : Nat) : Except (Option (Nat × Nat)) (State × Peer) :=
  let va := (i.c.peerBase.toNat + 32 * n) % 2 ^ 64
  match s.seqReads i.c i.n [(va, 32)] with
  | .error f => .error f
  | .ok (s, l) =>
    let bs := l.headD []
    if bs.any (·.2) then .error (some (4, va)) else .ok (s, Peer.ofBytes (bs.map (·.1)))

/-- Open a remote operation of the issuing program. -/
def State.openRemote (s : State) (i : SIss) (n : Nat) (p : Peer) (ctr : Option W64) (bytes : Nat) : State × RemoteOp :=
  let (s, id) := s.fresh
  let (s, pdc) := s.pdcFor i.q.ctx n
  let o : RemoteOp := { id := id, prog := i.q.key, ctx := i.q.ctx, pc := i.q.pc, peer := n, entry := p, pdc := pdc, left := 0, sent := false,
                        get := false, ctr := ctr, bytes := bytes, advance := none, covers := [], refused := [], agent := i.n,
                        withheld := false, dropped := false }
  ({ s with net := { s.net with remote := s.net.remote ++ [o] } }, o)

/-- The completion counter that xd names. -/
def XOps.ctr (o : XOps) (q : Seq) : Option W64 := if o.x.d = 0 then none else some (q.reg o.x.d)

/-- Begin a transfer: its checks in the order of R503 and R504, its entries read once (R346, R365). -/
def State.beginXfer (s : State) (i : SIss) (o : XOps) : Except State (State × Xfer) :=
  let h := o.handle i.q
  match o.illegal i.c.npeer with
  | some k => if k = 7 && h ≠ 0 then (match s.getEmber i h with
      | .ok s1 e => .error (s1.zfIllegal i (if e.nelem = o.n then 7 else 6) o.kind.op)
      | _ => .error (s.zfIllegal i k o.kind.op)) else .error (s.zfIllegal i k o.kind.op)
  | none =>
    let ember : Except State (State × Option Ember) :=
      if h = 0 then .ok (s, none)
      else match s.getEmber i h with
        | .misuse k => .error (s.emberMisuse i k h)
        | .fail f => .error (s.seqFail i false f)
        | .ok s1 e =>
          if e.nelem ≠ o.n then .error (s1.zfIllegal i 6 o.kind.op)
          else if e.state ≠ 2 || e.seqctx ≠ i.n then .error (s1.emberMisuse i 3 h)
          else if e.broken then .error (s1.emberMisuse i 6 h)
          else .ok (s1, some e)
    match ember with
    | .error s => .error s
    | .ok (s1, e) =>
      if o.sends then
        match s1.getPeer i o.peer with
        | .error f => .error (s.seqFail i false f)
        | .ok (s2, p) =>
          let (s3, r) := s2.openRemote i o.peer p (o.ctr i.q) o.byteCount
          .ok (s3, { peer := some (o.peer, p), ember := e, op := some r.id, wire := [], src := [], pend := [], owned := [], taken := 0, until_ := 0,
                       noted4B := false, noted4D := false })
      else .ok (s1, { peer := none, ember := e, op := none, wire := [], src := [], pend := [], owned := [], taken := 0, until_ := 0,
                       noted4B := false, noted4D := false })

/-- The exact values of a wire block with their tags, and the place of the first byte that R506 names. -/
def wireElements (wf b : Nat) (bs : List (Byte × Bool)) : List (FVal × Bool) × Option Nat :=
  let raw := bs.map (·.1)
  let head := (bs.take 2).any (·.2)
  if wf = 0 then ((elements 4 b bs).map (fun x => (FSpec.fp32.decode x.1, x.2)), none)
  else if wf = 1 then ((elements 2 b bs).map (fun x => (FSpec.bf16.decode x.1, x.2)), none)
  else if wf = 2 then ((List.range b).map (fun k => (s1bElement raw k, head || (bs.getD (2 + k / 8) (0, false)).2)), none)
  else
    let l := (List.range b).map (fun k => (t5bElement raw k, head || (bs.getD (2 + k / 5) (0, false)).2))
    (l.map (fun x => (x.1.1, x.1.2 || x.2)), (findIdx' (fun (x : (FVal × Bool) × Bool) => x.1.2) l 0).map (fun x => 2 + x.1 / 5))

/-- The wire bytes of a block of FP32 codes, the decompressed values and the residuals (R358, R360). -/
def quantBlock (wf b : Nat) (ember : FSpec) (d : Option Nat) (ys : List FVal) : List Byte × List FVal × List Nat :=
  if wf < 2 then
    let f := if wf = 0 then FSpec.fp32 else FSpec.bf16
    let codes := ys.map (fun y => f.round .rne 0 false y)
    let vals := codes.map f.decode
    let res := (ys.zip vals).map (fun (y, w) => if y.isNan || y.isInf then 0 else residual ember y w)
    (codes.flatMap (leBytes (if wf = 0 then 4 else 2)), vals, res)
  else
    let q := wireQuant (wf = 3) ember d b ys
    (if wf = 2 then s1bEncode b q else t5bEncode b q, q.codes.map (wireValue q.scale), q.resid)

/-- What one block does: its reads, and from what they give its writes, its wire bytes, and the addresses that R506 and R507
record. -/
structure BlockOut where
  writes : List (Nat × List (Byte × Bool))
  wire : List (Byte × Bool)
  bad4B : Option Nat
  bad4D : Option Nat
deriving DecidableEq, Repr

/-- Place of element k of a vector. -/
def elemVa (base size k : Nat) : Nat := (base + size * k) % 2 ^ 64

def XOps.reads (o : XOps) (e : Option Ember) (j : Nat) : List (Nat × Nat) :=
  let z := localSize o.x.lf
  let k := j * o.b
  let own := fun base => (elemVa base z k, z * o.b)
  let wire := (elemVa o.a0 o.bytes j, o.bytes)
  let em := match e with | some e => [(elemVa e.base e.size k, e.size * o.b)] | none => []
  match o.kind with
  | .send => own o.a0 :: em
  | .recv => if o.x.acc then [wire, own o.a1] else [wire]
  | .red => wire :: own o.a1 :: em
  | .fwd => [wire]

/-- One block from the bytes that its reads gave (R361, R362, R375 to R378). -/
def XOps.block (o : XOps) (e : Option Ember) (j : Nat) (l : List (List (Byte × Bool))) : BlockOut :=
  let f := localSpec o.x.lf
  let z := localSize o.x.lf
  let k := j * o.b
  let emBytes := if e.isSome then l.getLastD [] else []
  let ems := match e with
    | some e => (elements e.size o.b emBytes).map (fun x => (e.spec.decode x.1, x.2))
    | none => List.replicate o.b (FVal.fin false 0 0, false)
  let bad4D := match e with
    | some e => (findIdx' (fun (x : FVal × Bool) => x.2) ems 0).map (fun x => elemVa e.base e.size (k + x.1))
    | none => none
  /- The device's own contribution: rne(exact(g + e), FP32). -/
  let mine := fun (bs : List (Byte × Bool)) => ((elements z o.b bs).zip ems).map (fun (g, e) =>
    (FSpec.fp32.decode (addRne .fp32 (f.decode g.1) e.1), g.2 || e.2))
  let incoming := wireElements o.x.wf.val o.b (l.headD [])
  let bad4B := incoming.2.map (fun c => elemVa o.a0 o.bytes j + c)
  /- Quantise y, keep its residuals, forward it. -/
  let sent := fun (ys : List (FVal × Bool)) (own : Option Nat) (bad4B : Option Nat) =>
    let bad := ys.any (·.2)
    let d := if o.x.sr then (match e with
        | some e => some (draw 0 o.stream (0xC0000000 + e.coll * 65536 + e.chunk) e.version.toNat j)
        | none => some (draw 0 o.stream 0xC0000000 0 j)) else none
    let (wire, vals, res) := quantBlock o.x.wf.val o.b (match e with | some e => e.spec | none => .fp32) d (ys.map (·.1))
    let keep := match e with
      | some e => [(elemVa e.base e.size k, elementBytes e.size (res.map (fun r => (r, bad))))]
      | none => []
    let copy := match own with
      | some a => [(elemVa a z k, elementBytes z (vals.map (fun v => (f.round .rne 0 false v, bad))))]
      | none => []
    ({ writes := keep ++ copy, wire := wire.map (fun b => (b, bad)), bad4B := bad4B, bad4D := bad4D } : BlockOut)
  match o.kind with
  | .send => sent (mine (l.headD [])) (if o.x.ownFin then some o.a1 else none) none
  | .recv =>
    let old := elements z o.b (l.getD 1 [])
    let out := incoming.1.zipIdx.map (fun (v, t) =>
      if o.x.acc then
        let g := old.getD t (0, false)
        (addRne f (f.decode g.1) v.1, g.2 || v.2)
      else (f.round .rne 0 false v.1, v.2))
    { writes := [(elemVa o.a1 z k, elementBytes z out)], wire := [], bad4B := bad4B, bad4D := none }
  | .red =>
    let zs := (incoming.1.zip (mine (l.getD 1 []))).map (fun (a, y) => (FSpec.fp32.decode (addRne .fp32 a.1 y.1), a.2 || y.2))
    if o.x.ownFin then
      { writes := [(elemVa o.a2 z k, elementBytes z (zs.map (fun v => (f.round .rne 0 false v.1, v.2))))], wire := [], bad4B := bad4B, bad4D := none }
    else sent zs none bad4B
  | .fwd => { writes := [], wire := l.headD [], bad4B := none, bad4D := none }

/-- Hand the bytes of a put over in packets of 4,096, the last ones when `all` (R345, R353). -/
def State.flush (s : State) (n : Nat) (o : XOps) (all : Bool) : Nat → State
  | 0 => s
  | fuel + 1 =>
    match (s.seq? n).bind (fun q => q.xfer.bind (fun x => (x.op.bind s.remote?).map (fun r => (q, x, r)))) with
    | none => s
    | some (q, x, r) =>
      if x.wire.length < 4096 && !(all && x.wire.length ≠ 0) then s
      else
        let part := x.wire.take 4096
        let k : Packet := { kind := .put, dstIp := r.entry.ip, srcIp := 0, jobId := r.entry.jobId, src := Config.self, pdc := r.pdc, peer := r.peer, psn := 0,
                            addr := BitVec.ofNat 64 (o.a2 + q.packets * 4096), bytes := part.map (·.1), poison := taggedAt part,
                            len := part.length, value := 0, rel := false, rod := r.entry.rod, addrPoison := false, op := r.id }
        let s := s.updSeq n (fun q => { q with
          packets := q.packets + 1
          xfer := q.xfer.map (fun x => { x with wire := x.wire.drop 4096 }) })
        let s := s.updRemote r.id (fun r => { r with left := r.left + 1 })
        (s.handOver r k).flush n o all fuel

/-- The record of R506 or R507, once for a transfer; no context stops. It names the sequencer (R12, R418). -/
def State.noteWire (s : State) (i : SIss) (cls addr j : Nat) : State :=
  s.report { (s.seqErr i.n i.q i.q.pc cls addr (j % 65536)) with
    agent := i.n / 8
    extra := [] }

/-! #### Source and destination lines (R182, R184, R381) -/

/-- The ranges that a block writes. -/
def XOps.dests (o : XOps) (e : Option Ember) (j : Nat) : List (Nat × Nat) :=
  let z := localSize o.x.lf
  let k := j * o.b
  let own := fun base => (elemVa base z k, z * o.b)
  let em := match e with | some e => [(elemVa e.base e.size k, e.size * o.b)] | none => []
  match o.kind with
  | .send => em ++ (if o.x.ownFin then [own o.a1] else [])
  | .recv => [own o.a1]
  | .red => if o.x.ownFin then [own o.a2] else em
  | .fwd => []

/-- Blocks whose destination lines make a window (R182). -/
def XOps.window (o : XOps) (e : Option Ember) : Nat :=
  let d := o.dests e 0
  max 1 ((65536 - 64 * d.length) / max 1 ((d.map (·.2)).sum))

/-- The lines of some ranges, by address. -/
def linesAt (ws : List (Nat × Nat)) : List Nat := (ws.flatMap (fun w => linesOf w.1 w.2)).eraseDups

/-- Take ownership of the lines of the window that begins at block j: a line without a translation is left out. -/
def State.seqWindow (s : State) (c : Ctx) (o : XOps) (j : Nat) (x : Xfer) : State × Xfer :=
  let w := min (o.window x.ember) (o.total - j)
  let lines := linesAt ((List.range' j w).flatMap (o.dests x.ember))
  let keys := lines.filterMap (fun l => match s.translate c (32 * l) with | .ok e => some (phys32 (e.pa (32 * l))) | .error _ => none)
  let (s, n) := s.fresh
  (s, { x with
    owned := (x.owned ++ keys).eraseDups
    taken := n
    until_ := j + w })

/-- Read source lines that the transfer has not read (R184). -/
def State.seqLines (s : State) (c : Ctx) (n : Nat) (x : Xfer) (rs : List (Nat × Nat)) : Except (Option (Nat × Nat)) (State × Xfer) :=
  let new := (linesAt rs).filter (fun l => !(x.src.any (fun r => r.1 = l)))
  match s.seqReads c n (new.map (fun l => (32 * l, 32))) with
  | .error f => .error f
  | .ok (s, bs) => .ok (s, { x with src := x.src ++ new.zip bs })

/-- Bytes of a range as the transfer has read them. -/
def Xfer.bytes (x : Xfer) (r : Nat × Nat) : List (Byte × Bool) :=
  (List.range' r.1 r.2).map (fun a => match x.src.find? (fun l => l.1 = a / 32) with
    | some l => l.2.getD (a % 32) (0, false)
    | none => (0, false))

/-- Runs of neighbouring addresses. -/
def byteRuns (l : List (Nat × Byte × Bool)) : List (Nat × List (Byte × Bool)) :=
  l.foldr (fun b rs => match rs with
    | (a, bs) :: rest => if b.1 + 1 = a then (b.1, b.2 :: bs) :: rest else (b.1, [b.2]) :: rs
    | [] => [(b.1, [b.2])]) []

/-- The bytes of a line that wait to be written, lowest first; of several for one address the last. -/
def Xfer.line (x : Xfer) (l : Nat) : List (Nat × Byte × Bool) :=
  (List.range' (32 * l) 32).filterMap (fun a => ((x.pend.filter (fun b => b.1 = a)).getLast?))

/-- Write each of some lines, whole (R182); they are owned no more. -/
def State.seqPut (s : State) (c : Ctx) (n : Nat) (x : Xfer) (lines : List Nat) : Except (Option (Nat × Nat)) (State × Xfer) :=
  match s.seqWrites c n x.taken (lines.flatMap (fun l => byteRuns (x.line l))) with
  | .error f => .error f
  | .ok t =>
    let keys := lines.filterMap (fun l => match s.translate c (32 * l) with | .ok e => some (phys32 (e.pa (32 * l))) | .error _ => none)
    .ok (t, { x with
      pend := x.pend.filter (fun b => !(lines.contains (b.1 / 32)))
      owned := x.owned.filter (fun k => !(keys.contains k)) })

/-- A transfer that stops at a block boundary writes what its finished blocks leave, and owns no line any more (R372, R501); `none`
while a write has to wait. -/
def State.quietXfer (s : State) (n : Nat) (q : Seq) (c : Ctx) : Option State :=
  match q.xfer with
  | none => some s
  | some x =>
    let lines := (x.pend.map (fun b => b.1 / 32)).eraseDups
    let left := fun (s : State) => s.updSeq n (fun q => { q with xfer := q.xfer.map (fun x => { x with
      src := []
      pend := []
      owned := []
      until_ := q.blocks }) })
    match s.seqPut c n x lines with
    | .ok (t, _) => some (left t)
    | .error none => none
    | .error (some _) => some (left (lines.foldl (fun s l => match s.seqPut c n x [l] with | .ok (t, _) => t | .error _ => s) s))

/-- What an access of a transfer that failed does: it waits, or the transfer stops at its block boundary. -/
def State.xferFail (s : State) (i : SIss) (write : Bool) (f : Option (Nat × Nat)) : State :=
  match f with
  | none => s.putOff
  | some _ => match s.quietXfer i.n i.q i.c with
    | some s => s.seqFail i write f
    | none => s.putOff

/-- One block of a transfer, or its end after the last one (R372, R375). -/
def State.xferStep (s : State) (i : SIss) (o : XOps) (x : Xfer) : State :=
  let j := i.q.blocks
  if j < o.total then
    let full : Bool := match x.op.bind s.remote? with
      | some r => s.sendRoom r.pdc < 2
      | none => false
    let (s0, x0) := if x.until_ ≤ j && !(o.dests x.ember j).isEmpty then s.seqWindow i.c o j x else (s, x)
    if full then s.putOff
    else match s0.seqLines i.c i.n x0 (o.reads x.ember j) with
      | .error f => s.xferFail i false f
      | .ok (s1, x1) =>
        let out := o.block x.ember j ((o.reads x.ember j).map x1.bytes)
        match (o.dests x.ember j).mapM (fun w => s1.seqPieces i.c true x1.taken w.1 w.2) with
        | .error f => s.xferFail i true f
        | .ok _ =>
          let x2 := { x1 with
            pend := x1.pend ++ out.writes.flatMap (fun w => w.2.zipIdx.map (fun b => (w.1 + b.2, b.1)))
            wire := x1.wire ++ out.wire
            noted4B := x.noted4B || out.bad4B.isSome
            noted4D := x.noted4D || out.bad4D.isSome }
          let next := if j + 1 < o.total then linesAt (o.dests x.ember (j + 1)) else []
          match s1.seqPut i.c i.n x2 (((x2.pend.map (fun b => b.1 / 32)).eraseDups).filter (fun l => !(next.contains l))) with
          | .error f => s.xferFail i true f
          | .ok (s2, x3) =>
            let s3 := s2.updSeq i.n (fun q => { q with
              blocks := j + 1
              xfer := some x3 })
            let s4 := match out.bad4B with
              | some a => if x.noted4B then s3 else s3.noteWire i 0x4B a j
              | none => s3
            let s5 := match out.bad4D with
              | some a => if x.noted4D then s4 else s4.noteWire i 0x4D a j
              | none => s4
            let s6 := if o.sends && o.kind ≠ .fwd then s5.count 5 (i.n / 8) 1 1 else s5
            s6.flush i.n o false 2
  else
    let ended : Except (Option (Nat × Nat)) State := match x.ember with
      | some e => s.putEmber i.c i.n { e with version := e.version + 1, seqctx := i.n }
      | none => .ok s
    match ended with
    | .error f => s.seqFail i true f
    | .ok s1 =>
      if o.sends then
        match x.op with
        | none => s1.seqNext i i.next id
        | some id =>
          let s2 := s1.flush i.n o true 2
          let s3 := (s2.updRemote id (fun r => { r with sent := true })).settleOp id
          let s4 := s3.seqNext i i.next (fun q => q)
          s4
      else
        let s2 := match o.ctr i.q with
          | some a => s1.advance i.q.ctx a.toNat o.byteCount 8 (i.n / 8)
          | none => s1
        s2.seqNext i i.next id

/-- A TRANSFER: it begins, goes on by one block, or ends. -/
def State.transfer (s : State) (i : SIss) (o : XOps) : State :=
  match i.q.xfer with
  | some x => s.xferStep i o x
  | none =>
    match s.beginXfer i o with
    | .error s => s
    | .ok (s, x) =>
      let q := { i.q with xfer := some x, blocks := 0, packets := 0 }
      (s.updSeq i.n (fun _ => q)).xferStep { i with q := q } o x

def execXsend (x : ZfTransfer) (s : State) : Result := withSeqMem s (fun i s => .next (s.transfer i (XOps.of .send x i.q)))
def execXrecv (x : ZfTransfer) (s : State) : Result := withSeqMem s (fun i s => .next (s.transfer i (XOps.of .recv x i.q)))
def execXred (x : ZfTransfer) (s : State) : Result := withSeqMem s (fun i s => .next (s.transfer i (XOps.of .red x i.q)))
def execXfwd (x : ZfTransfer) (s : State) : Result := withSeqMem s (fun i s => .next (s.transfer i (XOps.of .fwd x i.q)))

/-! ### Counters (R379) -/

/-- VALUE of a counter that a sequencer reads: kind and address of class 0x4C where it cannot. -/
def State.seqCounter (s : State) (c : Ctx) (va : Nat) : Except (Nat × Nat) Nat :=
  match s.translate c (va / 16 * 16) with
  | .error _ => .error (1, va)
  | .ok e => if attrCtr e.attr then .ok (s.ctrGet (.phys (e.pa (va / 16 * 16)))).1 else .error (3, va)

/-- The read of a counter that a CWAIT's test makes (R143, R341). -/
def State.seqTouch (s : State) (c : Ctx) (n va : Nat) : State :=
  match s.translate c (va / 16 * 16) with
  | .ok e => (s.agentRead 1 5 (n / 8) { e := e, pa := e.pa (va / 16 * 16), n := 8, via := none }).1
  | .error _ => s

/-- CWAIT: it goes on when VALUE has reached the bound, and otherwise waits (R371, R379). -/
def execCwait (x : ZfWait) (s : State) : Result :=
  withSeqMem s (fun i s =>
    let va := (i.q.reg x.a).toNat
    if 6 ≤ x.scope.val then .next (s.zfIllegal i 8 0x18)
    else match s.seqCounter i.c va with
      | .error (k, a) => .next (s.localFault i false k a)
      | .ok v =>
        let s := s.seqTouch i.c i.n va
        if (i.q.reg x.b).toNat ≤ v then .next (s.seqNext i i.next id)
        else .next (s.updSeq i.n (fun q => { q with
          wait := some (i.q.reg x.a, i.q.reg x.b)
          timer := 0 })))

/-- A sequencer context waits in a CWAIT and its device context runs. -/
def State.seqWaits (s : State) (n : Nat) : Option (Seq × Ctx × W64 × W64) :=
  (s.seq? n).bind (fun q => q.wait.bind (fun w => (s.ctx? q.ctx).bind (fun c =>
    if c.run = .running && q.stopped.isNone then some (q, c, w.1, w.2) else none)))

/-- CWAIT_COMPLETE: the counter has reached the bound (R371, R379). -/
def execCwaitComplete (n : Nat) (s : State) : Result :=
  match s.seqWaits n with
  | none => notNow s
  | some (q, c, a, v) =>
    match s.seqCounter c a.toNat with
    | .error _ => notNow s
    | .ok x =>
      if v.toNat ≤ x then s.attempt (seqKey n) 1 fun s => .next ((s.seqTouch c n a.toNat).seqNext { n := n, q := q, c := c } (q.pc + 4) id)
      else notNow s

/-- SEQUENCER_WAIT_EXPIRY: the timer has reached its limit; an advance in the same cycle completes the wait (R505). -/
def execSequencerWaitExpiry (n : Nat) (s : State) : Result :=
  match s.seqWaits n with
  | none => notNow s
  | some (q, c, a, v) =>
    let reached : Bool := match s.seqCounter c a.toNat with | .ok x => v.toNat ≤ x | .error _ => false
    if reached || q.timer < 2 ^ c.starvLim then notNow s
    else
      let s := s.updSeq n (fun q => { q with
        wait := none
        timer := 0 })
      .next (s.seqStop { n := n, q := q, c := c } 0x4A a.toNat c.starvLim)

/-- A local advance waits while its page stands at WB (R454). -/
def State.ctrStalled (s : State) (c : Ctx) (va : Nat) : Bool :=
  match s.engineCtr c va with
  | .ok _ => s.wbRange c (va / 16 * 16) 16
  | .error _ => false

/-- Local CADV: CTR.MAX (R379, R459). -/
def execCadv (x : ZfAdv) (s : State) : Result :=
  withSeqMem s (fun i s =>
    let va := (i.q.reg x.a).toNat
    if 6 ≤ x.scope.val then .next (s.zfIllegal i 8 0x19)
    else if s.ctrStalled i.c va then .next s.putOff
    else match s.engineCtr i.c va with
      | .error k => .next ((s.report { (s.seqErr i.n i.q i.q.pc 0x27 va (k + 8 * 16)) with
          agent := i.n / 8
          extra := [] }).seqNext i i.next id)
      | .ok l =>
        let (old, _, bad) := s.ctrGet l
        let s := (s.holdRange i.c (va / 16 * 16) 16).ctrPut l 0 (leBytes 8 (max old (i.q.reg x.b).toNat)) bad
        let s := match l with
          | .phys pa => ((s.served (pa / 1024) 1 false).watch true true pa 8 5 (i.n / 8)).1
          | .scratch _ _ => s
        .next (s.seqNext i i.next id))

/-- CADD (R379, R459). -/
def execCadd (x : ZfAdv) (s : State) : Result :=
  withSeqMem s (fun i s =>
    let va := (i.q.reg x.a).toNat
    if 6 ≤ x.scope.val then .next (s.zfIllegal i 8 0x1A)
    else if s.ctrStalled i.c va then .next s.putOff
    else .next ((s.advance i.q.ctx va (i.q.reg x.b).toNat 8 (i.n / 8)).seqNext i i.next id))

/-- Puts to the peer, by the program or earlier by its sequencer context, that are not yet acknowledged whole (R355). -/
def State.openPuts (s : State) (i : SIss) (peer : Nat) : List Nat :=
  (s.net.remote.filter (fun o => o.ctx = i.q.ctx && (o.prog = i.q.key || o.agent = i.n) && o.peer = peer && !o.get && decide (o.bytes ≠ 0) &&
    (!(o.sent && decide (o.left = 0)) || !o.refused.isEmpty))).map (·.id)

/-- CADV.RMT: a remote advance; with .rel it waits for the puts that it covers (R353, R355, R379). -/
def execCadvRmt (x : ZfRmt) (s : State) : Result :=
  withSeqMem s (fun i s =>
    let n := (i.q.reg x.d).toNat % 4096
    if i.c.npeer ≤ n then .next (s.zfIllegal i 7 0x19)
    else match s.getPeer i n with
      | .error f => .next (s.seqFail i false f)
      | .ok (s1, p) =>
        let covers := if x.rel then s1.openPuts i n else []
        let (s2, o) := s1.openRemote i n p none 0
        let k : Packet := { kind := .advance, dstIp := p.ip, srcIp := 0, jobId := p.jobId, src := Config.self, pdc := o.pdc, peer := n, psn := 0, addr := i.q.reg x.a,
                            bytes := [], poison := [], len := 8, value := i.q.reg x.b, rel := x.rel, rod := p.rod, addrPoison := false,
                            op := o.id }
        let s3 := s2.updRemote o.id (fun o => { o with
          sent := true
          left := 1 })
        if covers ≠ [] then .next ((s3.updRemote o.id (fun o => { o with
          covers := covers
          advance := some k })).seqNext i i.next id)
        else if s3.sendRoom o.pdc = 0 then .next s.putOff
        else .next ((s3.handOver o k).seqNext i i.next id))

/-! ### The end of a program, and words that are none -/

/-- The entries of the embers that a sequencer context holds (R365, R366). -/
def State.boundEmbers (s : State) (n : Nat) (c : Ctx) : List Ember :=
  (List.range' 1 (c.nemb - 1)).filterMap (fun h =>
    let va := (c.embBase.toNat + 32 * h) % 2 ^ 64
    match s.readVirt c va 32 with
    | none => none
    | some (bs, _) =>
      let e := Ember.ofBytes va h bs
      if e.state = 2 && e.seqctx = n then some e else none)

/-- Change the entries of the embers that a sequencer context holds. -/
def State.putEmbers (s : State) (c : Ctx) (n : Nat) (f : Ember → Ember) : List Ember → Except (Option (Nat × Nat)) State
  | [] => .ok s
  | e :: rest =>
    match s.putEmber c n (f e) with
    | .error x => .error x
    | .ok s => s.putEmbers c n f rest

/-- The embers that a sequencer context holds become idle (R366). -/
def State.idleEmbers (s : State) (n : Nat) (c : Ctx) : Except (Option (Nat × Nat)) State :=
  s.putEmbers c n (fun e => { e with state := 3 }) (s.boundEmbers n c)

/-- The program is gone; its sequencer context is free (R370). -/
def State.dropSeq (s : State) (n : Nat) : State := { s with seqs := s.seqs.filter (fun (x : Nat × Seq) => x.1 ≠ n) }

/-- The program ends as at DONE without an instruction of its own (R502): an entry that cannot be written stays as it is. -/
def State.endSeq (s : State) (n : Nat) (c : Ctx) : State :=
  let idle := fun (s : State) (e : Ember) =>
    match s.putEmbers c n (fun e => { e with state := 3 }) [e] with
    | .ok s => s
    | .error _ => s
  ((s.boundEmbers n c).foldl idle s).dropSeq n

/-- DONE (R366, R370): the program ends once its embers are idle; an entry that must not be written stops the context (R489). -/
def execZfDone (s : State) : Result :=
  withSeqMem s (fun i s =>
    match s.idleEmbers i.n i.c with
    | .ok s => .next (s.dropSeq i.n)
    | .error f => .next (s.seqFail i true f))

/-- The kind of R503 for a word that the decoder rejects: the lowest that it breaks (R518). -/
def zfKind (w : W32) : Nat :=
  let r := ZfRaw.ofWord w.toNat
  match decodeZf w with
  | .error .zfFlag =>
    if r.a % 4 ≠ 0 || r.a < 4 then 3
    else if r.transfer.wbk = 3 || (r.transfer.wf.val < 2 && r.transfer.wbk ≠ 0) then 4 else 5
  | .error e => e.number
  | .ok _ => 1

/-- ZF_OPCODE_NOT_ALLOCATED: the word is no instruction (R503 kinds 1, 2, 5 and 8). -/
def execZfOpcodeNotAllocated (word : W32) (s : State) : Result :=
  withSeq s (fun i s => .next (s.zfIllegal i (zfKind word) (bits word.toNat 31 26)))

/-- ZF_WORD_NOT_FETCHED: PC has no valid translation (R503 kind 9). -/
def execZfWordNotFetched (s : State) : Result := withSeq s (fun i s => .next (s.zfIllegal i 9 0))

end Sys2Proof.Machine
end

