-- ==== Sys2Proof/Machine/System.lean ====
section
/-! DEFINITION. System.lean: traps and returns, system registers and the registers with an operation of their own, PREEMPT,
SPARK and WATCH (R152, R153, R320, R321, R330, R333 to R340, R431, R464, R502). -/

namespace Sys2Proof.Machine

/-! ### TRAP, ERET and BKPT (R334, R335) -/

/-- Threads of the issuing path trap, each with its cause; the trap of one path nests as one (R447). -/
def State.trapThreads (s : State) (i : Iss) (l : List (Nat × Nat)) : State :=
  let m := maskOf (l.map (·.1))
  if s.nested i.r.g i.r.w m then s.enter i.r m i.next ((l.headD (0, 0)).2) false false
  else l.foldl (fun s (x : Nat × Nat) => s.enter i.r (maskOf [x.1]) i.next x.2 false false) s

/-- TRAP: each taking thread enters the handler with cause A. -/
def execTrap (x : OpA) (s : State) : Result :=
  issue (.trap x) x.h { srcs := [srcA x.a 1], uni := some false, flat := true, execOnly := true } 1 s fun i k s =>
    (s.trapThreads i (k.vals.map (fun v => (v.1, regsNat (v.2.headD [])))), .next [])

/-- BKPT is NOP, or TRAP with cause 0x0001_0000 + n when DBGEN is 1. -/
def execBkpt (x : BkptOps) (s : State) : Result :=
  issue (.bkpt x) x.h { srcs := [], uni := some false, flat := true, execOnly := true } 1 s fun i k s =>
    if i.c.dbgEn.getLsbD 0 then (s.trapThreads i (k.ts.map (fun t => (t, 0x10000 + x.n.toNat))), .next []) else (s, .next [])

/-- Some of the threads is at program level. -/
def Iss.anyProgram (i : Iss) (ts : List Nat) : Bool := ts.any (fun t => !(i.thread t).super)

/-- ERET: each taking thread returns to its frame; at program level, or in a thread that has not trapped, it is misuse (R431). -/
def execEret (x : Op0) (s : State) : Result :=
  issue (.eret x) x.h { srcs := [], uni := some false, flat := true, execOnly := true } 1 s fun i k s =>
    if i.anyProgram k.ts || k.ts.any (fun t => !(i.thread t).trapped) then (s.faultPath i 0x12 0 0xD3, .stay)
    else
      let (s, moves) := s.leave i.r (maskOf k.ts)
      (s, .next moves)

/-! ### The map of system registers (R337) -/

/-- Who reaches a register. -/
inductive SAccess
  | open_ | super | write | absent
deriving DecidableEq, Repr

def saccess (n : Nat) : SAccess :=
  if n ≤ 0x002 || (0x070 ≤ n && n ≤ 0x07F) then .open_
  else if n = 0x021 || n = 0x056 then .write
  else if (0x010 ≤ n && n ≤ 0x016) || n = 0x020 || n = 0x030 || n = 0x031 || (0x040 ≤ n && n ≤ 0x043) || (0x048 ≤ n && n ≤ 0x04C) ||
      (0x050 ≤ n && n ≤ 0x055) || n = 0x060 || n = 0x061 || n = 0x080 || n = 0x081 || n = 0x090 || n = 0x091 then .super
  else .absent

/-- A register of a context (R337, R340). -/
def Watch.status (w : Watch) : Nat :=
  w.hit.toNat + w.cls % 16 * 2 ^ 4 + w.agent % 2 ^ 16 * 2 ^ 8 + w.count % 2 ^ 16 * 2 ^ 24 + w.off % 2 ^ 10 * 2 ^ 40

def Ctx.sreg (c : Ctx) (n : Nat) : W64 :=
  match n with
  | 0x010 | 0x011 | 0x012 | 0x013 => BitVec.ofNat 64 (c.ageLim.getD (n - 0x010) 0)
  | 0x014 => BitVec.ofNat 64 c.bandCap
  | 0x015 => BitVec.ofNat 64 c.starvLim
  | 0x016 => c.llcQuota
  | 0x020 => c.ptRoot
  | 0x030 => c.ctxSave
  | 0x031 => c.saveCtr
  | 0x040 => c.pctBase
  | 0x041 => c.pctVa
  | 0x042 => c.pctLen
  | 0x043 => c.pctHr
  | 0x048 => c.pnqBase
  | 0x049 => c.pnqSize
  | 0x04A => c.pnqHead
  | 0x04B => c.pnqTail
  | 0x04C => c.pnqCtr
  | 0x050 => c.svcqBase
  | 0x051 => c.svcqSize
  | 0x052 => c.svcqHead
  | 0x053 => c.svcqTail
  | 0x054 => c.svcqCtr
  | 0x055 => c.svcqCls
  | 0x060 => c.trapVec
  | 0x061 => c.dbgEn
  | n =>
    if 0x070 ≤ n && n ≤ 0x077 then BitVec.ofNat 64 ((c.watch.getD (n - 0x070) Watch.off0).status)
    else if 0x078 ≤ n && n ≤ 0x07F then BitVec.ofNat 64 ((c.watch.getD (n - 0x078) Watch.off0).base)
    else 0

/-- The legal size at or below a value, from 16 to `top` (R156, R330, R337). -/
def sizeAct (top : Nat) (v : W64) : W64 := BitVec.ofNat 64 (if v.toNat < 16 then 16 else min top (2 ^ v.toNat.log2))

/-- Write a register of a context; the value that acts is held (R75, R76, R78, R330, R337). -/
def Ctx.setSreg (c : Ctx) (n : Nat) (v : W64) : Ctx :=
  match n with
  | 0x010 | 0x011 | 0x012 | 0x013 => { c with ageLim := c.ageLim.set (n - 0x010) (max 256 (min 65536 v.toNat)) }
  | 0x014 => { c with bandCap := min 3 v.toNat }
  | 0x015 => { c with starvLim := max 16 (min 40 (v.toNat % 64)) }
  | 0x016 => { c with llcQuota := v }
  | 0x020 => { c with ptRoot := v }
  | 0x030 => { c with ctxSave := v }
  | 0x031 => { c with saveCtr := v }
  | 0x040 => { c with pctBase := v }
  | 0x041 => { c with pctVa := v }
  | 0x042 => { c with pctLen := v }
  | 0x043 => { c with pctHr := v }
  | 0x048 => { c with pnqBase := v }
  | 0x049 => { c with pnqSize := sizeAct 65536 v }
  | 0x04A => { c with pnqHead := v }
  | 0x04B => { c with pnqTail := v }
  | 0x04C => { c with pnqCtr := v }
  | 0x052 => { c with svcqHead := v }
  | 0x053 => { c with svcqTail := v }
  | 0x054 => { c with svcqCtr := v }
  | 0x055 => { c with svcqCls := if v = 4 then 4 else 6 }
  | 0x060 => { c with trapVec := v }
  | 0x061 => { c with dbgEn := v &&& 1 }
  | _ => c

/-! ### Which context and core (R336) -/

/-- The context that a thread reaches: its own at program level, SCTX's at supervisor level. -/
def Iss.target (i : Iss) (t : Nat) : Nat := if (i.thread t).super then i.c.sctx.toNat else i.c.num

/-- The core that SCORE names; none for the whole device, and an absent core for 192 to 0xFFFE. -/
def Iss.scoreCore (i : Iss) : Option Nat := let n := i.c.score.toNat % 65536; if n = 0xFFFF then none else some n

def State.mgovCap (s : State) (core : Nat) : Nat := sget 256 s.cores.cap core

/-- What SRD reads for a thread (R336, R337); a context that does not exist reads as a free value (log 3). -/
def State.sread (s : State) (i : Iss) (t n : Nat) : W64 :=
  match n with
  | 0x000 => BitVec.ofNat 64 i.c.num
  | 0x001 => BitVec.ofNat 64 (i.thread t).super.toNat
  | 0x002 => BitVec.ofNat 64 (s.lcyc 1 i.g.core)
  | 0x080 => i.c.sctx
  | 0x081 => i.c.score
  | 0x090 =>
    let core := i.scoreCore.getD i.g.core
    if core < Config.cores then BitVec.ofNat 64 (s.mgovCap core) else 0
  | 0x091 =>
    let core := i.scoreCore.getD i.g.core
    if core < Config.cores then sget 0 s.cores.stall core else 0
  | n =>
    match saccess n with
    | .absent | .write => 0
    | .open_ | .super => match s.ctx? (i.target t) with
      | some c => c.sreg n
      | none => Config.freeWord s.ticks

/-- The operand of SRD: each thread reads for itself into a vector register or a queue port, else the path reads once (R26, R336). -/
def SrdOps.shape (x : SrdOps) : Shape := { srcs := [], dst := some { op := x.d, n := 2 }, flat := true, execOnly := true }

/-- SRD. -/
def execSrd (x : SrdOps) (s : State) : Result :=
  issue (.srd x) x.h (SrdOps.shape x) 1 s fun i k s =>
    let n := x.sreg.toNat
    if saccess n = .super && i.anyProgram k.ts then (s.faultPath i 0x12 0 0xD4, .stay)
    else
      let s := k.vals.foldl (fun (s : State) (v : Nat × List (List Reg)) =>
        s.writeDst i.r.g i.r.w i.g { op := x.d, n := 2 } v.1 (if k.uni then k.ts else [v.1]) (regsOf 2 (s.sread i v.1 n).toNat false)) s
      (s.tick, .next [])

/-! ### SWR -/

/-- The operand of SWR. -/
def SwrOps.shape (x : SwrOps) : Shape :=
  { srcs := [{ field := 2, op := x.a, n := 2, uni := true }], uni := some true, flat := true, execOnly := true }

/-- A write of the device to the first n bytes of a slot would not be complete at once: its page stands at WB, or such a write waits
there already (R157, R330). -/
def State.slotStalls (s : State) (c : Ctx) (va n : Nat) : Bool :=
  (s.slotPieces c va n).isSome && (s.wbRange c va n || s.deviceStalled c va n)

/-- The value that SVCDONE takes: the ticket, and the choice of R464 and R502 in bit 32. -/
def doneTicket (v : W64) : Nat := bits v.toNat 31 0

/-- The queue's registers as a write of SVCQBASE or SVCQSIZE leaves them: the ring starts anew (R330). -/
def Ctx.newRing (c : Ctx) (n : Nat) (v : W64) : Ctx :=
  let c := if n = 0x050 then { c with svcqBase := v &&& ~~~31 } else { c with svcqSize := sizeAct 4096 v }
  { c with
    svcqHead := 0
    svcqTail := 0
    slots := [] }

/-- The addresses of a ring's slots. -/
def Ctx.ringSlots (c : Ctx) : List Nat :=
  if c.svcqBase = 0 then [] else (List.range c.svcqSize.toNat).map (fun k => c.svcqBase.toNat + 544 * k)

/-- SEQ and STATE of a slot, when its bytes pass the checks of R330. -/
def State.slotState (s : State) (c : Ctx) (ticket : Nat) : Option (Nat × Nat) :=
  (if c.svcqBase = 0 then none else s.slotPieces c (c.slotVa ticket) 32).map (fun ps => let x := leNat (s.readPieces ps); (bits x 255 224, bits x 223 216))

/-- The slot holds the ticket as a service record. -/
def State.isService (s : State) (ctx ticket : Nat) : Bool :=
  match (s.ctx? ctx).bind (fun c => s.slotState c ticket) with
  | some (seq, st) => seq = ticket && (st = 1 || st = 2)
  | none => false

/-- The commands and programs of a saved context brought out of what it saved, so that a change reaches them as it reaches live ones
(R464, R465, R502). -/
def State.unpacked (s : State) (ctx : Nat) : State :=
  match (s.ctx? ctx).bind (·.saved) with
  | none => s
  | some v => ({ s with
      copies := s.copies ++ v.copies
      seqs := v.seqs }).updCtx ctx (fun c => { c with saved := none })

/-- They are put back: `t` is what the change made of `s.unpacked ctx`. -/
def State.repacked (s : State) (ctx : Nat) (t : State) : State :=
  match (s.ctx? ctx).bind (·.saved) with
  | none => t
  | some v => ({ t with
      copies := t.copies.filter (fun k => k.ctx ≠ ctx)
      seqs := s.seqs }).updCtx ctx (fun c => { c with saved := some { v with
        copies := t.copies.filter (fun k => k.ctx = ctx)
        seqs := t.seqs } })

/-- A change of the commands and programs of a context, live or saved. -/
def State.withSaved (s : State) (ctx : Nat) (f : State → State) : State := s.repacked ctx (f (s.unpacked ctx))

/-- The sequencer contexts that are stopped at the ticket (R502). -/
def State.seqsAt (s : State) (ctx ticket : Nat) : List (Nat × Seq) :=
  if s.isService ctx ticket then []
  else s.seqs.filter (fun (x : Nat × Seq) => x.2.ctx = ctx && (match x.2.stopped with | some (some t) => t % 2 ^ 32 = ticket | _ => false))

/-- A context that an abort ends cannot make its embers idle yet: an entry's page stands at WB, or an engine owns its line (R157, R366). -/
def State.abortWaits (s0 : State) (ctx : Nat) (v : W64) : Bool :=
  let s := s0.unpacked ctx
  v.getLsbD 32 && (s.seqsAt ctx (doneTicket v)).any (fun x => match s.ctx? ctx with
    | some c => (match s.idleEmbers x.1 c with | .error none => true | _ => false)
    | none => false)

/-- A write of the register n would write slots that it cannot write now: it waits, for its effect is complete when it completes
(R330, R336). -/
def State.swrStalls (s : State) (ctx n : Nat) (v : W64) : Bool :=
  match s.ctx? ctx with
  | none => false
  | some c =>
    if n = 0x050 || n = 0x051 then (c.newRing n v).ringSlots.any (fun va => s.slotStalls (c.newRing n v) va 32)
    else decide (n = 0x056) && ((c.svcqBase != 0 && s.slotStalls c (c.slotVa (doneTicket v)) 32) || s.abortWaits ctx v)

/-- The common course of SWR: it is performed after every earlier access of its threads (R336); `f` is its effect. -/
def swrIssue (i0 : Instr) (x : SwrOps) (s : State) (f : Iss → Nat → W64 → State → State) : Result :=
  issueMem i0 x.h (SwrOps.shape x) 1 2 .ar true s fun i k s' =>
      let acc := saccess x.sreg.toNat
      if (acc = .super || acc = .write) && i.anyProgram k.ts then (s'.faultPath i 0x12 0 0xD5, .stay)
      else
        let r := k.vals.headD (0, [])
        let v : W64 := BitVec.ofNat 64 (regsNat (r.2.headD []))
        if s.swrStalls (i.target r.1) x.sreg.toNat v then (s.putOff, .stay) else (f i (i.target r.1) v s', .next [])

/-! #### TLBINV (R152, R153, R455) -/

/-- A translation or an access that the form covers: 0 one page, 1 one context, 2 and 3 everything. -/
def invalCovers (form ctx page : Nat) (c va size : Nat) : Bool :=
  2 ≤ form || (c = ctx && (form = 1 || (decide (va < (page + 1) * 65536) && decide (page * 65536 < va + size))))

/-- Every TLB drops what the form covers; the SWR completes later (R153). -/
def State.invalidate (s : State) (i : Iss) (ctx form : Nat) (v : W64) : State :=
  let page := bits v.toNat 54 16
  let (s, id) := s.fresh
  let inv : Inval := { id := id, form := form, ctx := ctx, page := page, g := i.r.g, w := i.r.w, access := i.p.access, tmask := i.p.tmask }
  { s with mem := { s.mem with
      tlb := s.mem.tlb.filter (fun e => !(invalCovers form ctx page e.2.ctx e.2.va e.2.size))
      invals := s.mem.invals ++ [inv] } }

def execTlbinvPage (x : SwrOps) (s : State) : Result :=
  swrIssue (.tlbinvPage x) x s fun i c v s => s.invalidate i c 0 v
def execTlbinvContext (x : SwrOps) (s : State) : Result :=
  swrIssue (.tlbinvContext x) x s fun i c v s => s.invalidate i c 1 v
def execTlbinvAll (x : SwrOps) (s : State) : Result :=
  swrIssue (.tlbinvAll x) x s fun i c v s => s.invalidate i c 2 v

/-- Some access made through what an invalidation drops has not been served at its home slice. -/
def State.invalOpen (s : State) (v : Inval) : Bool :=
  s.mem.ops.any (fun o => match s.group? o.g with
    | some g => o.parts.any (fun p => !p.served && invalCovers v.form v.ctx v.page g.ctx p.va.toNat 16)
    | none => false) ||
  s.mem.reqs.any (fun r => match r.tr with | some e => invalCovers v.form v.ctx v.page e.ctx e.va e.size | none => false)

/-- TLBINV_COMPLETE: the SWR completes, and the writes stalled at WB that it covers are to be tried again (R153, R157, R454). -/
def execTlbinvComplete (id : Nat) (s : State) : Result :=
  match s.mem.invals.find? (fun v => v.id = id) with
  | none => notNow s
  | some v =>
    if s.invalOpen v then notNow s
    else .next { s with mem := { s.mem with
        invals := s.mem.invals.filter (fun v => v.id ≠ id)
        stalls := mapIf (fun x => invalCovers v.form v.ctx v.page x.ctx x.va.toNat 16) (fun x => { x with ready := true }) s.mem.stalls } }

/-! #### The service queue's registers (R330, R333, R419) -/

/-- SVCQBASE or SVCQSIZE is written: the ring starts anew with every slot consumed. -/
def State.ringReset (s : State) (ctx n : Nat) (v : W64) : State :=
  let s := s.updCtx ctx (fun c => c.newRing n v)
  match s.ctx? ctx with
  | none => s
  | some c => c.ringSlots.foldl (fun s va => match s.slotPieces c va 32 with
    | none => s
    | some _ => (s.deviceWrite c va (List.replicate 32 0) none).1) s

def execSvcqRingReset (x : SwrOps) (s : State) : Result :=
  swrIssue (.svcqRingReset x) x s fun _ c v s => s.ringReset c x.sreg.toNat v

/-- Write STATE of a ticket's slot. -/
def State.putState (s : State) (c : Ctx) (ticket v : Nat) : State := (s.deviceWrite c (c.slotVa ticket + 27) (leBytes 1 v) none).1

/-- A record that is answered: a request becomes replied, or consumed when nobody is left to take it; an error record is
freed (R332, R333, R419). -/
def State.answerRecord (s : State) (ctx ticket : Nat) : State :=
  match s.ctx? ctx with
  | none => s
  | some c =>
    match s.slotState c ticket with
    | none => s
    | some (seq, st) =>
      if seq ≠ ticket then s
      else if st = 3 then s.putState c ticket 0
      else if st = 1 then
        let slot := ticket % c.svcqSize.toNat
        s.putState c ticket (if c.slots.any (fun t => t.slot = slot && t.left != 0) then 2 else 0)
      else s

def execSvcdoneReply (x : SwrOps) (s : State) : Result :=
  swrIssue (.svcdoneReply x) x s fun _ c v s => s.answerRecord c (doneTicket v)

/-- The copy commands that wait for the ticket (R464). -/
def State.cmdsOf (s : State) (ctx ticket : Nat) : List Cmd :=
  if s.isService ctx ticket then []
  else s.copies.filter (fun k => k.ctx = ctx &&
    ((match k.ticket with | some t => t % 2 ^ 32 = ticket | none => false) || (match k.stopTicket with | some t => t % 2 ^ 32 = ticket | none => false)))

/-- Replay (R464). -/
def State.replayTicket (s : State) (ctx ticket : Nat) : State := s.withSaved ctx fun s =>
  let l := s.cmdsOf ctx ticket
  let s := (l.foldl State.replayCmd s).answerRecord ctx ticket
  if l.isEmpty then s else s.unpause ctx

/-- Abort (R464). -/
def State.abortTicket (s : State) (ctx ticket : Nat) : State := s.withSaved ctx fun s =>
  let l := s.cmdsOf ctx ticket
  let s := (l.foldl State.abortCmd s).answerRecord ctx ticket
  if l.isEmpty then s else s.unpause ctx

def execSpillReplay (x : SwrOps) (s : State) : Result :=
  swrIssue (.spillReplay x) x s fun _ c v s => s.replayTicket c (doneTicket v)
def execSpillAbort (x : SwrOps) (s : State) : Result :=
  swrIssue (.spillAbort x) x s fun _ c v s => s.abortTicket c (doneTicket v)

/-- An operation of a resumed program goes on: what was refused, or stopped it, is sent again, and its add is made once all is
acknowledged (R502). -/
def State.resumeOp (s : State) (o : RemoteOp) : State :=
  let s := s.updRemote o.id (fun o => { o with
    withheld := false
    refused := [] })
  let s := o.refused.foldl (fun s k => s.handOver o k) s
  let said : List W32 := match s.pdc? o.pdc with
    | some d => (d.unacked.filter (fun (u : Unacked) => u.said && u.packet.op = o.id)).map (fun u => u.packet.psn)
    | none => []
  let s := said.foldl (fun (s : State) (psn : W32) =>
    (s.updPdc o.pdc (fun d => d.updUnacked psn (fun u => { u with
      said := false
      resends := 0 }))).resend o.pdc psn) s
  s.settleOp o.id

/-- Resume (R502). -/
def State.resumeSeq (s : State) (n : Nat) (q : Seq) : State :=
  let s := s.updSeq n (fun q => { q with stopped := none })
  (s.net.remote.filter (fun o => o.prog = q.key && o.withheld)).foldl State.resumeOp s

/-- Abort: the program ends, its adds are not made and its held advances not sent (R502). -/
def State.abortSeq (s : State) (n : Nat) (q : Seq) : State :=
  let mine := s.net.remote.filter (fun o => o.prog = q.key)
  let s := mine.foldl (fun (s : State) o => (s.updRemote o.id (fun o => { o with
    dropped := true
    sent := true
    left := if o.advance.isSome then 0 else o.left - o.refused.length
    advance := none
    refused := [] })).settleOp o.id) s
  match s.ctx? q.ctx with
  | some c => s.endSeq n c
  | none => s

def State.resumeTicket (s : State) (ctx ticket : Nat) : State := s.withSaved ctx fun s =>
  ((s.seqsAt ctx ticket).foldl (fun (s : State) (x : Nat × Seq) => s.resumeSeq x.1 x.2) s).answerRecord ctx ticket
def State.endTicket (s : State) (ctx ticket : Nat) : State := s.withSaved ctx fun s =>
  ((s.seqsAt ctx ticket).foldl (fun (s : State) (x : Nat × Seq) => s.abortSeq x.1 x.2) s).answerRecord ctx ticket

def execSequencerResume (x : SwrOps) (s : State) : Result :=
  swrIssue (.sequencerResume x) x s fun _ c v s => s.resumeTicket c (doneTicket v)
def execSequencerAbort (x : SwrOps) (s : State) : Result :=
  swrIssue (.sequencerAbort x) x s fun _ c v s => s.endTicket c (doneTicket v)

/-- A write of SVCDONE, whatever its ticket names. -/
def State.svcDone (s : State) (ctx : Nat) (v : W64) : State := s.withSaved ctx fun s =>
  let t := doneTicket v
  if !(s.cmdsOf ctx t).isEmpty then (if v.getLsbD 32 then s.abortTicket ctx t else s.replayTicket ctx t)
  else if !(s.seqsAt ctx t).isEmpty then (if v.getLsbD 32 then s.endTicket ctx t else s.resumeTicket ctx t)
  else s.answerRecord ctx t

/-! #### Watchpoint status (R337, R340) -/

/-- A write of any value clears WPSi. -/
def State.clearWatch (s : State) (ctx n : Nat) : State :=
  s.updCtx ctx (fun c => { c with watch := c.watch.modify n (fun w => { w with
    hit := false
    cls := 0
    agent := 0
    count := 0
    off := 0 }) })

def execWpsClear (x : SwrOps) (s : State) : Result :=
  swrIssue (.wpsClear x) x s fun _ c _ s => s.clearWatch c (x.sreg.toNat - 0x070)

/-! #### Every register -/

/-- MGOV.CAP of the core or cores that SCORE names (R307, R336). -/
def State.putCap (s : State) (i : Iss) (v : W64) : State :=
  let cap := max 1 (min 256 v.toNat)
  let set := fun (s : State) core => { s with cores := { s.cores with cap := sset 256 s.cores.cap core cap } }
  match i.scoreCore with
  | none => (List.range Config.cores).foldl set s
  | some core => if core < Config.cores then set s core else s

/-- The effect of SWR on the register n (R336, R337). -/
def State.swr (s : State) (n : Nat) (i : Iss) (ctx : Nat) (v : W64) : State :=
  if n = 0x021 then s.invalidate i ctx (min 2 (v.toNat % 4)) v
  else if n = 0x050 || n = 0x051 then s.ringReset ctx n v
  else if n = 0x056 then s.svcDone ctx v
  else if 0x070 ≤ n && n ≤ 0x077 then s.clearWatch ctx (n - 0x070)
  else if n = 0x080 then s.updCtx i.c.num (fun c => { c with sctx := v })
  else if n = 0x081 then s.updCtx i.c.num (fun c => { c with score := v })
  else if n = 0x090 then s.putCap i v
  else s.updCtx ctx (fun c => c.setSreg n v)

/-- SWR. -/
def execSwr (x : SwrOps) (s : State) : Result :=
  swrIssue (.swr x) x s fun i c v s => s.swr x.sreg.toNat i c v

/-! ### PREEMPT, SPARK and WATCH (R338 to R340) -/

/-- The common course of PREEMPT and PREEMPT.RES: a request of the context (R338). -/
def preemptIssue (i0 : Instr) (x : OpA) (res : Bool) (s : State) : Result :=
  issue i0 x.h { srcs := [{ field := 2, op := x.a, n := 1, uni := true }], uni := some true, flat := true, execOnly := true } 1 s fun i k s =>
    if i.anyProgram k.ts then (s.faultPath i 0x12 0 0xD6, .stay)
    else (s.updCtx (regsNat ((k.vals.headD (0, [])).2.headD [])) (fun c => { c with requests := c.requests ++ [res] }), .next [])

def execPreempt (x : OpA) (s : State) : Result := preemptIssue (.preempt x) x false s
def execPreemptRes (x : OpA) (s : State) : Result := preemptIssue (.preemptRes x) x true s

/-- SPARK: one spark, with the tag of the lowest taking position. -/
def execSpark (x : OpA) (s : State) : Result :=
  issue (.spark x) x.h { srcs := [srcA x.a 1], uni := some false, flat := true, execOnly := true } 1 s fun _ k s =>
    ((s.spark 0 (regsNat ((k.vals.headD (0, [])).2.headD []) % 65536)).1, .next [])

/-- WATCH: the watchpoint watches the physical range that the address names now; a failed translation traps the path, and the
watchpoint stays (R340, R472). A length code from 11 to 15 has no length: a free one acts (log 3). -/
def execWatch (x : OpAB) (s : State) : Result :=
  issue (.watch x) x.h { srcs := [{ field := 2, op := x.a, n := 2, uni := true, strict := true }, { field := 3, op := x.b, n := 1, uni := true }],
                         uni := some true, flat := true, execOnly := true } 1 s fun i k s' =>
    let v := (k.vals.headD (0, [])).2
    let b := regsNat (v.getD 1 [])
    let sz := if bits b 7 4 ≤ 10 then bits b 7 4 else (Config.freeWord s'.ticks).toNat % 11
    let va := regsNat (v.getD 0 []) / 2 ^ sz * 2 ^ sz
    let set := fun (s : State) base => s.updCtx i.c.num (fun c => { c with
      watch := c.watch.modify (b % 8) (fun w => { w with kind := bits b 9 8, sz := sz, base := base }) })
    match s'.translate i.c va i.g.via with
    | .error e =>
      let (cls, addr, detail) := walkFault va false e
      (s'.faultPath i cls addr detail, .stay)
    | .ok e => s.reached (PathRef.waitKey i.r i.p) 0
      (let t := s'.walked i.g.via e
       ((set { t with mem := t.mem.hold i.g.via e } (e.pa va)).tick, .next []))

end Sys2Proof.Machine
end

