-- ==== Sys2Proof/Machine/Save.lean ====
section
/-! DEFINITION. Save.lean: pre-emption and resume of a context and the layout of the save area (R98 to R103, R319, R329, R372,
R444 to R446, R465). -/

namespace Sys2Proof.Machine

/-! ### The layouts (R31, R41, R89, R100 to R102, R319, R329, R372) -/

def PathSt.code : PathSt → Nat
  | .ready => 0 | .signed => 1 | .counterWait => 2 | .queueWait => 3 | .serviceWait => 4

def PathSt.ofCode : Nat → PathSt
  | 1 => .signed | 2 => .counterWait | 3 => .queueWait | 4 => .serviceWait | _ => .ready

/-- The 256 bits of a path-table entry. -/
def Path.code (p : Path) : Nat :=
  p.tmask.toNat + p.skmask.toNat * 2 ^ 64 + bits p.pc.toNat 54 3 * 2 ^ 128 + p.access.toNat * 2 ^ 225 + p.cvi.val * 2 ^ 226
  + min p.age 65536 * 2 ^ 231 + p.skn % 16 * 2 ^ 248 + p.st.code * 2 ^ 252

/-- The 256 bits of a convergence register. -/
def Conv.code (c : Conv) : Nat :=
  c.tmask.toNat + c.wmask.toNat * 2 ^ 64 + bits c.spc.toNat 54 3 * 2 ^ 128 + c.armed.toNat * 2 ^ 211 + c.pend % 4096 * 2 ^ 212
  + c.gen.toNat * 2 ^ 224

/-- The 128 bits of a region. -/
def Region.code (r : Region) : Nat := r.base.toNat + r.str.toNat * 2 ^ 64 + r.ext.toNat * 2 ^ 96 + r.soff.toNat * 2 ^ 112

/-- A region from its 128 bits. -/
def Region.ofNat (x : Nat) : Region :=
  { base := W64.ofBits x 63 0, str := BitVec.ofNat 32 (bits x 95 64), ext := BitVec.ofNat 16 (bits x 111 96), soff := BitVec.ofNat 16 (bits x 127 112) }

/-- A tile-table entry (R397); 0 for an unbound tile. -/
def Tile.code (t : Tile) (dirty : Bool) : Nat :=
  (t.rows - 1) + (t.cols - 1) * 2 ^ 6 + t.off / 32 * 2 ^ 16 + 2 ^ 32 + dirty.toNat * 2 ^ 33 + t.unit * 2 ^ 34
  + (match t.view with | .a56 => 0 | .fp32 => 1 | .n12 => 2) * 2 ^ 36 + t.sa.toNat * 2 ^ 38 + t.sb.toNat * 2 ^ 39 + t.fa.code * 2 ^ 40
  + t.fb.code * 2 ^ 44 + (t.k - 1) * 2 ^ 48

/-- The 1,024 bits of a task record, with the root's place in the area. -/
def Task.code (t : Task) (root : Nat) : Nat :=
  t.entry.toNat + t.args.toNat * 2 ^ 64 + t.lo.toNat * 2 ^ 128 + t.hi.toNat * 2 ^ 192 + t.grain.toNat * 2 ^ 256 + t.resw.toNat * 2 ^ 288
  + t.cctr.toNat * 2 ^ 320 + t.cont.toNat * 2 ^ 384 + t.state % 16 * 2 ^ 448 + t.ver.toNat * 2 ^ 452 + t.rt.toNat * 2 ^ 453
  + root % 2 ^ 14 * 2 ^ 466 + t.prio % 16 * 2 ^ 480 + t.band % 4 * 2 ^ 484 + t.rem.toNat * 2 ^ 512 + t.doneCnt.toNat * 2 ^ 576
  + t.r0.code * 2 ^ 640 + t.r1.code * 2 ^ 768 + t.seed.toNat * 2 ^ 896 + t.stream.toNat * 2 ^ 960 + t.fidx % 64 * 2 ^ 992

/-- The fields of a task record that its 1,024 bits hold; ROOT aside, which the device binds anew (R99). -/
def Task.ofNat (x : Nat) (t : Task) : Task :=
  { t with
    entry := W64.ofBits x 63 0
    args := W64.ofBits x 127 64
    lo := W64.ofBits x 191 128
    hi := W64.ofBits x 255 192
    grain := BitVec.ofNat 32 (bits x 287 256)
    resw := BitVec.ofNat 32 (bits x 319 288)
    cctr := W64.ofBits x 383 320
    cont := W64.ofBits x 447 384
    state := bits x 451 448
    ver := bit x 452
    rt := bit x 453
    prio := bits x 483 480
    band := bits x 485 484
    rem := W64.ofBits x 575 512
    doneCnt := W64.ofBits x 639 576
    r0 := Region.ofNat (bits x 767 640)
    r1 := Region.ofNat (bits x 895 768)
    seed := W64.ofBits x 959 896
    stream := BitVec.ofNat 32 (bits x 991 960)
    fidx := bits x 997 992 }

/-- Bytes with their tags, at an offset of the area. -/
abbrev Image := List (Nat × List (Byte × Bool))

def clean (bs : List Byte) : List (Byte × Bool) := bs.map (fun b => (b, false))
def cleanNat (n x : Nat) : List (Byte × Bool) := clean (leBytes n x)
def regBytes (rs : List Reg) : List (Byte × Bool) := rs.flatMap (fun r => (leBytes 4 r.val.toNat).map (fun b => (b, r.bad)))

/-- A mask of the threads of a warp that satisfy a condition. -/
def Warp.maskBy (w : Warp) (f : Thread → Bool) : W64 := maskOf ((List.range w.threads.length).filter (fun t => match w.threads[t]? with
  | some th => f th
  | none => false))

/-- 64 entries of a path table. -/
def pathTable (ps : List Path) : List (Byte × Bool) :=
  (List.range 64).flatMap (fun k => match ps[k]? with
    | some p => cleanNat 32 p.code
    | none => cleanNat 32 0)

/-- n threads' worth of values, zero for a position that does not exist. -/
def Warp.perThread (w : Warp) (f : Thread → List (Byte × Bool)) (n size : Nat) : List (Byte × Bool) :=
  (List.range n).flatMap (fun t => match w.threads[t]? with
    | some th => f th
    | none => cleanNat size 0)

def tagged (bad : Bool) (bs : List (Byte × Bool)) : List (Byte × Bool) := bs.map (fun b => (b.1, bad))

/-- A branch queue in 4 bytes (R102); they are poisoned when an entry is. -/
def branchBytes (l : List (Bool × Bool)) : List (Byte × Bool) :=
  tagged (l.any (·.2)) (cleanNat 4 ((l.zipIdx.foldl (fun a b => if b.1.1 then a + 2 ^ b.2 else a) 0) % 65536 + l.length * 65536))

/-- The 4 KiB of a warp block (R102). -/
def Warp.block (w : Warp) (oor : Option Nat) : List (Byte × Bool) :=
  let predMask := fun (n : Nat) => tagged (decide (w.maskBy (fun t => t.predBad n) ≠ 0)) (cleanNat 8 (w.maskBy (fun t => t.pred n)).toNat)
  pathTable (w.paths.filter (fun p => !p.access))
  ++ regBytes ((List.range 128).map w.reg)
  ++ (List.range 7).flatMap predMask
  ++ cleanNat 8 (w.maskBy (fun t => t.life = .live)).toNat ++ cleanNat 8 (w.maskBy (fun t => t.life = .helper)).toNat
  ++ cleanNat 8 (w.maskBy (fun t => t.life = .parked)).toNat
  ++ w.perThread (fun t => branchBytes t.br) 64 4
  ++ w.perThread (fun t => (List.range 8).flatMap (fun p => cleanNat 1 (sget [] t.q p).length)) 64 8
  ++ w.perThread (fun t => cleanNat 4 t.iter.toNat) 64 4
  ++ cleanNat 16 w.reg0.code ++ cleanNat 16 w.reg1.code ++ cleanNat 16 0
  ++ cleanNat 8 (match if w.wid = 0 then oor else none with | some o => o % 2 ^ 32 + 2 ^ 63 | none => 0)
  ++ cleanNat 8 0
  ++ cleanNat 8 w.poisonOrigin.toNat
  ++ cleanNat 0x168 0

/-! ### Parts that R101 names without a layout (log 53) -/

def Cls.ofCode : Nat → Cls
  | 0 => .c | 1 => .p | _ => .w

/-- Identity of a group: launch id (8 bytes), linear index (16), coordinates (4 each), warps (4), class (4). -/
def Group.identity (g : Group) : List (Byte × Bool) :=
  cleanNat 8 g.launchId ++ cleanNat 16 g.index ++ cleanNat 4 g.x ++ cleanNat 4 g.y ++ cleanNat 4 g.z ++ cleanNat 4 g.warps.length
  ++ cleanNat 4 g.cls.code ++ cleanNat 20 0

/-- Band and priority (2 bytes each), POOL (4), key (8), stream (4) and the number of version lines (4); the tags of the key and of the
stream are those of their words. -/
def Group.constants (g : Group) : List (Byte × Bool) :=
  cleanNat 2 g.band ++ cleanNat 2 g.prio ++ cleanNat 4 (g.rfg * 2 ^ 26 + g.spg * 2 ^ 20 + g.acg * 2 ^ 14) ++ tagged g.keyBad (cleanNat 8 g.key64.toNat)
  ++ tagged g.streamBad (cleanNat 4 g.stream.toNat) ++ cleanNat 4 g.vlines.length ++ cleanNat 40 0

/-- Bindings of q8 to q15: offset of the ring (8 bytes) and k (4); zero for a port that is not bound. -/
def Group.bindings (g : Group) : List (Byte × Bool) :=
  (List.range 8).flatMap (fun n => match sget none g.ring (8 + n) with
    | some (o, k) => cleanNat 8 o ++ cleanNat 4 k ++ cleanNat 4 0
    | none => cleanNat 16 0)

/-- What an operation slot holds, as numbers: captured fields and progress. -/
def MatOp.held (o : MatOp) : List Nat :=
  [1, (match o.kind with | .mma => 0 | .mmd => 1 | .tld => 2 | .tst => 3), o.tile, o.pc.toNat, o.key.toNat, o.stream.toNat, o.badGen.toNat, (o.ctr.getD 0).toNat,
   o.csp.toNat, o.sat.toNat, o.stamp, o.left, o.chunk, leNat o.desc, o.bind.off, o.bind.rows, o.bind.cols]
def Cmd.held (k : Cmd) : List Nat :=
  [2, (match k.kind with | .ld => 0 | .st => 1 | .cp => 2), k.pc.toNat, leNat k.desc, leNat k.desc2, k.word.toNat, (k.ctr.getD 0).toNat, k.csp.toNat,
   k.sat.toNat, k.key.toNat, k.stream.toNat, k.lines, k.spilled]

/-- An operation slot: 64 bytes that what it holds determines, in a layout that no rule gives (log 3). -/
def slotBytes (held : List Nat) : List (Byte × Bool) := clean ((List.range 64).map (Config.slotByte held))

/-- The 32 operation slots of a group, with the commands that it has issued. -/
def Group.slots (g : Group) (copies : List Cmd) : List (Byte × Bool) :=
  (List.range 32).flatMap (fun n =>
    match g.ops.find? (fun o => o.slot = n), copies.find? (fun k => k.g = g.key && k.slot = n) with
    | some o, _ => slotBytes o.held
    | none, some k => slotBytes k.held
    | none, none => cleanNat 64 0)

/-- Register operands that an operation has captured, A's before B's. -/
def MatSrc.regs? : MatSrc → List Reg
  | .regs runs => runs.flatten
  | _ => []
def MatOp.captured (o : MatOp) : List Reg := o.a.regs? ++ o.b.regs?

/-- The tile table; a tile whose image this save writes is marked (R397). -/
def Group.tileTable (g : Group) (all : Bool) : List (Byte × Bool) :=
  (List.range 64).flatMap (fun n => match g.tile n with
    | some t => cleanNat 16 (t.code (t.dirty || all))
    | none => cleanNat 16 0)

/-! ### Group sections (R101, R103) -/

/-- Offsets of the parts of a group section that vary (R101). -/
structure Section where
  vregs : Nat
  queues : Nat
  access : Nat
  captured : Nat
  scratch : Nat
  acc : Nat
  size : Nat
deriving DecidableEq, Repr

def upTo64K (n : Nat) : Nat := (n + 65535) / 65536 * 65536

/-- The group has matrix operations in flight that captured registers. -/
def Group.captures (g : Group) : Bool := g.ops.any (fun o => match o.a, o.b with | .regs _, _ => true | _, .regs _ => true | _, _ => false)

def Group.layout (g : Group) : Section :=
  let n := g.warps.length
  let vregs := 0x47000
  let queues := vregs + n * g.width * g.nregs * 4
  let access := queues + (if g.dae then n * g.width * 512 else 0)
  let captured := access + (if g.dae then n * 2048 else 0)
  let scratch := upTo64K (captured + (if g.captures then 32 * 32768 else 0))
  let acc := scratch + g.spg * 65536
  { vregs := vregs, queues := queues, access := access, captured := captured, scratch := scratch, acc := acc, size := acc + g.acg * 65536 }

/-- Elements of the bound tiles whose image is written: of the dirty ones, or of all. -/
def Group.images (g : Group) (all : Bool) : List Nat :=
  ((g.tiles.filterMap (fun (t : Nat × Option Tile) => t.2)).filter (fun t => t.dirty || all)).flatMap (fun t =>
    (List.range (t.rows * t.cols)).map (fun e => t.off + e))

/-- The bytes of a group section at `o`; `all` says that every bound tile counts as dirty (R103). -/
def Group.image (g : Group) (copies : List Cmd) (o taskPlace : Nat) (record : Nat) (all : Bool) : Image :=
  let l := g.layout
  let kiln := match g.kiln with
    | some k => cleanNat 8 k.record.toNat ++ cleanNat 4 k.step.toNat ++ cleanNat 4 1 ++ cleanNat 176 0
    | none => cleanNat 192 0
  let warps := g.warps
  [(o, g.identity), (o + 0x40, cleanNat 64 (if g.task.isSome then taskPlace else record)), (o + 0x80, g.constants), (o + 0xC0, g.bindings),
   (o + 0x140, kiln), (o + 0x200, (List.range 16).flatMap (fun k => cleanNat 32 (sget Conv.idle g.cv k).code)),
   (o + 0x400, g.tileTable all), (o + 0x800, g.slots copies)]
  ++ warps.map (fun w => (o + 0x1000 + 4096 * w.wid, w.block g.oor))
  ++ g.vlines.zipIdx.map (fun (v, k) => (o + 0x41000 + 48 * k, cleanNat 8 (32 * v.line) ++ cleanNat 4 v.mask.toNat ++ cleanNat 4 0 ++
      v.bytes.zipIdx.map (fun (b, i) => (b, v.bad.getLsbD (i / 8)))))
  ++ warps.map (fun w => (o + l.vregs + w.wid * g.width * g.nregs * 4,
      w.perThread (fun t => regBytes ((List.range g.nregs).map t.reg)) g.width (4 * g.nregs)))
  ++ (if g.dae then
      warps.map (fun w => (o + l.queues + w.wid * g.width * 512, w.perThread (fun t => (List.range 8).flatMap (fun p =>
        let e := sget [] t.q p
        regBytes ((List.range 16).map (fun k => e.getD k Reg.zero)))) g.width 512)) ++
      warps.map (fun w => (o + l.access + 2048 * w.wid, pathTable (w.paths.filter (fun p => p.access))))
    else [])
  ++ (if g.captures then g.ops.map (fun op => (o + l.captured + 32768 * op.slot, regBytes op.captured)) else [])
  ++ [(o + l.scratch, (List.range (65536 * g.spg)).map (fun i => (sget 0 g.scratch i, setMem g.scratchBad (i / 8))))]
  ++ (g.images all).map (fun e => (o + l.acc + 8 * e, tagged (g.accEl e).2 (cleanNat 8 (g.accEl e).1.toNat)))

/-- Sections in directory order, each with its offset. -/
def sectionOffsets (gs : List Group) : List (Group × Nat) :=
  (gs.foldl (fun (acc : List (Group × Nat) × Nat) g => (acc.1 ++ [(g, acc.2)], acc.2 + upTo64K g.layout.size)) ([], 0x200000)).1

def areaSize (gs : List Group) : Nat := gs.foldl (fun a g => a + upTo64K g.layout.size) 0x200000

/-! ### The area (R100) -/

/-- Task records in order of cluster and index. -/
def taskOrder (ts : List Task) : List Task :=
  ts.foldl (fun l t =>
    let n := fun (t : Task) => t.cluster * 256 + t.index
    l.takeWhile (fun u => n u ≤ n t) ++ [t] ++ l.dropWhile (fun u => n u ≤ n t)) []

/-- A record's place in the area; 0 where it is not held any more, as of a root that is free (DESIGN CHOICE, log 51). -/
def placeOf (ts : List Task) (c i : Nat) : Nat := (findIdx' (fun (t : Task) => t.cluster = c && t.index = i) ts 0).elim 0 (·.1)
/-- The place of a record's root. -/
def Task.rootPlace (t : Task) (ts : List Task) : Nat := (findIdx' (fun (u : Task) => u.family = t.family && u.rt) ts 0).elim 0 (·.1)

/-- The block of a stopped sequencer context (R372, R501). -/
def Seq.block (q : Seq) : List (Byte × Bool) :=
  let flags := 1 + q.xfer.isSome.toNat * 2 + q.wait.isSome.toNat * 4 + q.stopped.isSome.toNat * 8
  let ticket := match q.stopped with | some (some t) => t | _ => 0
  (List.range 32).flatMap (fun i => cleanNat 8 (if i = 0 then 0 else (sget 0 q.x i).toNat)) ++ cleanNat 8 q.pc.toNat ++ cleanNat 4 flags
  ++ cleanNat 4 q.blocks ++ cleanNat 8 q.packets ++ cleanNat 4 ticket ++ cleanNat 228 0

/-- Launches with groups left to admit, in the order of acceptance over all bands (R65 queues them by band; DESIGN CHOICE, log 51). -/
def Saved.pend (v : Saved) : List Launch := v.launches.filter (fun l => l.started < l.record.groups)

/-- Every bound tile of a group counts as dirty: CTXSAVE is not that of the last restore, or the image would stand elsewhere than the
restore found it (R103; log 53). -/
def Ctx.allDirty (c : Ctx) (g : Group) (o : Nat) : Bool := c.ctxSave != c.restoredAt || g.place != some (c.ctxSave.toNat + o + g.layout.acc)

/-- The whole image of a context at offsets of its area (R100); `every` asks for the images of clean tiles, too. -/
def Ctx.image (c : Ctx) (v : Saved) (every : Bool) : Image :=
  let secs := sectionOffsets v.groups
  let tasks := taskOrder v.tasks
  let flags := fun (g : Group) => g.dae.toNat + (!g.vlines.isEmpty).toNat * 2 + g.captures.toNat * 4
  let seq := fun (n : Nat) => match v.seqs.find? (fun (x : Nat × Seq) => x.1 = n) with
    | some x => x.2.block
    | none => cleanNat 512 0
  let track := fun (k : Nat) => cleanNat 8 ((c.slots.filter (fun t => t.slot = k)).foldl (fun (m : W64) t => m ||| t.left) 0).toNat
  let unit := fun (die : Nat) =>
    let bound := (v.groups.filter (fun g => dieOf g.core = die)).filterMap (fun g => g.kiln)
    let keys := (bound.map (fun k => (k.record, k.step))).eraseDups
    (0x1C0000 + 4096 * die, (List.range 64).flatMap (fun e => match keys[e]? with
      | some (r, st) => cleanNat 8 r.toNat ++ cleanNat 4 st.toNat ++ cleanNat 4 ((bound.filter (fun k => k.record = r && k.step = st)).length) ++ cleanNat 48 0
      | none => cleanNat 64 0))
  let recordOf := fun (g : Group) => match v.launches.find? (fun l => l.key = g.launch) with | some l => l.record.code | none => 0
  [(0, cleanNat 8 1 ++ cleanNat 8 v.groups.length ++ cleanNat 8 tasks.length ++ cleanNat 8 v.pend.length ++ cleanNat 8 c.ctxSave.toNat ++ cleanNat 4056 0)]
  ++ secs.zipIdx.map (fun (x, k) => (0x1000 + 16 * k, cleanNat 8 x.2 ++ cleanNat 4 x.1.layout.size ++ cleanNat 4 (flags x.1)))
  ++ tasks.zipIdx.map (fun (t, k) => (0x30000 + 128 * k, cleanNat 128 (t.code (t.rootPlace tasks))))
  ++ v.pend.zipIdx.map (fun (l, k) => (0x1B0000 + 64 * k, cleanNat 64 l.record.code))
  ++ (List.range 4).map unit
  ++ (List.range 128).map (fun n => (0x1C4000 + 512 * n, seq n))
  ++ [(0x1D4000, (List.range 4096).flatMap track), (0x1DC000, cleanNat 0x4000 0)]
  ++ secs.flatMap (fun x => x.1.image v.copies x.2 (match x.1.task with | some (a, b) => placeOf tasks a b | none => 0) (recordOf x.1)
      (every || c.allDirty x.1 x.2))

/-! ### The accesses of a save and of a restore: row requests of class 0 (R79, R98, R143) -/

/-- Write bytes; their tags stand as they are (R417). -/
def State.saveWrite (s : State) (ctx a : Nat) (bs : List (Byte × Bool)) : State :=
  let n := bs.length
  let s := (linesOf a n).foldl (fun s l =>
    let (m, turned) := s.mem.rowLine l true
    ({ s with mem := m }).served (l / 32) 0 turned) s
  let m := s.mem.write a (bs.map (·.1)) false
  let bad := (bs.zipIdx.filter (fun b => b.1.2)).map (fun b => (a + b.2) / 8)
  ({ s with mem := { m with bad := bad.foldl setIns m.bad } }).hostWrite ctx a n

/-- Write an image. -/
def State.writeImage (s : State) (ctx base : Nat) (im : Image) : State := im.foldl (fun s (x : Nat × List (Byte × Bool)) => s.saveWrite ctx (base + x.1) x.2) s

/-- Reach bytes that are read; HOST lines are filled. -/
def State.saveRead (s : State) (ctx a n : Nat) : State :=
  (linesOf a n).foldl (fun s l =>
    let page : TlbEntry := { ctx := ctx, va := 32 * l / 65536 * 65536, size := 65536, frame := 32 * l / 65536 * 65536, attr := 0 }
    let s := s.fillLine page l 0
    let (m, turned) := s.mem.rowLine l false
    ({ s with mem := m }).served (l / 32) 0 turned) s

/-! ### CONTEXT_SAVE -/

/-- The groups of a context. -/
def State.groupsOf (s : State) (ctx : Nat) : List Group := s.groups.filter (fun g => g.ctx = ctx)

/-- Nothing that a save waits for is under way: accesses, kiln operations, invalidations, gangs that stop, copies within a sector
(R81, R289, R319). -/
def State.drained (s : State) (ctx : Nat) : Bool :=
  let mine := fun k => match s.group? k with | some g => decide (g.ctx = ctx) | none => false
  !(s.mem.ops.any (fun o => mine o.g)) && !(s.kops.any (fun o => mine o.g)) && !(s.mem.invals.any (fun v => mine v.g)) &&
  !(s.stops.any (fun x => x.groups.any mine)) && (s.copies.filter (fun k => k.ctx = ctx)).all s.atBoundary

/-- The transfers of a context write what their finished blocks leave (R372); none while one has to wait. -/
def State.quietSeqs (s : State) (c : Ctx) : Option State :=
  (s.seqs.filter (fun (x : Nat × Seq) => x.2.ctx = c.num)).foldlM (fun (s : State) (x : Nat × Seq) => s.quietXfer x.1 x.2 c) s

/-- A path as it is saved: its timer starts again on resume (R78, R99). -/
def Path.stopped (p : Path) : Path := { p with timer := 0, yielded := false, own := false }
/-- A group as it is saved: its saved tiles are clean (R103). -/
def Group.stopped (g : Group) : Group :=
  { g with
    warps := g.warps.map (fun w => { w with occ := 0, paths := w.paths.map Path.stopped })
    tiles := g.tiles.map (fun (t : Nat × Option Tile) => (t.1, t.2.map (fun t => { t with dirty := false }))) }

/-- What a context saves. -/
def State.toSave (s : State) (c : Ctx) : Saved :=
  { groups := s.groupsOf c.num
    launches := s.launches.filter (fun l => l.ctx = c.num)
    tasks := s.tasks.filter (fun t => t.ctx = c.num)
    copies := s.copies.filter (fun k => k.ctx = c.num)
    seqs := s.seqs.filter (fun (x : Nat × Seq) => x.2.ctx = c.num) }

/-- The residency of a context is released (R98 step 5). -/
def State.vacate (s : State) (c : Ctx) (v : Saved) : State :=
  let gone := fun k => v.groups.any (fun g => g.key = k)
  { s with
    groups := s.groups.filter (fun g => g.ctx ≠ c.num)
    launches := s.launches.filter (fun l => l.ctx ≠ c.num)
    tasks := s.tasks.filter (fun t => t.ctx ≠ c.num)
    copies := s.copies.filter (fun k => k.ctx ≠ c.num)
    seqs := s.seqs.filter (fun (x : Nat × Seq) => x.2.ctx ≠ c.num)
    cores := { s.cores with reserved := s.cores.reserved.filter (fun r => !(v.launches.any (fun l => l.key = r.1))) }
    mem := { s.mem with
      walks := s.mem.walks.filter (fun x => !(gone x.g))
      marks := s.mem.marks.filter (fun x => !(gone x.g))
      stalls := s.mem.stalls.filter (fun x => match x.by_ with
        | .thread g .. => !(gone g)
        | .copy k => !(v.copies.any (fun c => c.id = k))
        | _ => true) } }

/-- Why the area cannot be written (R445). -/
def Ctx.saveRefused (c : Ctx) (gs : List Group) : Option Nat :=
  let a := c.ctxSave.toNat
  if a = 0 || a % 65536 ≠ 0 then some 1
  else if !((List.range (areaSize gs / 65536)).all (fun k => backed (a + 65536 * k))) then some 2
  else none

/-- Live spill entries go to the new area when CTXSAVE has changed (R465). -/
def State.moveSpill (s : State) (c : Ctx) : State :=
  match spillBase c.spillAt.toNat, spillBase c.ctxSave.toNat with
  | some old, some new =>
    if old = new then s
    else
      let s := (List.range 2048).foldl (fun (s : State) i =>
        let a := old + 64 * i
        let s := s.saveRead c.num a 64
        let live := bit (s.mem.nat (a + 8) 8) 0
        if live then s.saveWrite c.num (new + 64 * i) ((List.range 64).map (fun k => (s.mem.byte (a + k), s.mem.isBad (a + k))))
        else s.saveWrite c.num (new + 64 * i + 8) (cleanNat 1 0)) s
      s.updCtx c.num (fun c => { c with spillAt := c.ctxSave })
  | _, _ => s

/-- The request at the head of a context's list is done: SAVECTR is advanced (R98, R338). -/
def State.requestDone (s : State) (ctx : Nat) : State :=
  let s := s.updCtx ctx (fun c => { c with requests := c.requests.tail })
  match s.ctx? ctx with
  | some c => if c.saveCtr = 0 then s else s.advance ctx c.saveCtr.toNat 1 11 0
  | none => s

/-- The request at the head failed: its context is contained (R445). -/
def State.saveError (s : State) (ctx cls addr reason : Nat) : State :=
  (s.updCtx ctx (fun c => { c with requests := c.requests.tail })).containCtx ctx { ErrRec.none with
    addr := BitVec.ofNat 64 addr
    cls := cls
    phys := true
    ctx := ctx
    lcyc := s.lcyc 11 0
    detail := reason }

/-- The device's own accesses for a context's save area. -/
def saveKey (ctx : Nat) : Nat × Nat := (1, ctx)

/-- A context that is quiet writes its area and gives up its residency (R98 steps 4 to 6). -/
def State.save (s : State) (c : Ctx) : State :=
  let v := s.toSave c
  let s := ((s.moveSpill c).writeImage c.num c.ctxSave.toNat (c.image v false)).vacate c v
  let kept := { v with groups := v.groups.map Group.stopped }
  let s := s.updCtx c.num (fun c => { c with
    run := .saved
    record := none
    leftover := v.groups.foldl (fun l g => g.accBytes.foldl setIns l) c.leftover
    saved := some kept })
  s.requestDone c.num

/-- CONTEXT_SAVE: the context stops; once it is quiet its state is written to its area and its residency released (R98). -/
def execContextSave (ctx : Nat) (s : State) : Result :=
  match s.ctx? ctx with
  | none => notNow s
  | some c =>
    match c.requests, c.run with
    | false :: _, .saved => .next (s.requestDone ctx)
    | false :: _, .running | false :: _, .contained => .next (s.haltCtx ctx .stopping)
    | false :: _, .stopping =>
      if !(s.drained ctx) then notNow s
      else
        match c.saveRefused (s.groupsOf ctx) with
        | some r => .next (s.saveError ctx 0x1C c.ctxSave.toNat r)
        | none => s.attempt (saveKey ctx) 0 fun s => match s.quietSeqs c with
          | some s => .next (s.save c)
          | none => notNow s
    | _, _ => notNow s

/-! ### CONTEXT_RESUME -/

/-- Parts of an area that must not be poisoned, as offsets and lengths (R446 reason 3). -/
def Ctx.vital (v : Saved) : List (Nat × Nat) :=
  [(0, 4096), (0x1000, 16 * v.groups.length), (0x30000, 128 * v.tasks.length)]
  ++ v.seqs.map (fun (x : Nat × Seq) => (0x1C4000 + 512 * x.1, 512))
  ++ (sectionOffsets v.groups).flatMap (fun (g, o) =>
      [(o + 0x200, 512), (o + 0x400, 1024), (o + 0x800, 2048)]
      ++ g.warps.map (fun w => (o + 0x1000 + 4096 * w.wid, 2048))
      ++ (if g.dae then [(o + g.layout.access, 2048 * g.warps.length)] else []))

/-- Why an area cannot be restored, with the address (R446). -/
def State.resumeRefused (s : State) (c : Ctx) (v : Saved) : Option (Nat × Nat) :=
  let a := c.ctxSave.toNat
  let word := fun o => s.mem.nat (a + o) 8
  if s.mem.nat a 4 ≠ 1 then some (1, a)
  else if 9216 < word 8 || 12288 < word 16 || 1024 < word 24 then some (2, a)
  else ((Ctx.vital v).findSome? (fun (o, n) => ((List.range (n / 8)).find? (fun k => s.mem.isBad (a + o + 8 * k))).map (fun k => a + o + 8 * k))).map (fun p => (3, p))

/-- What a restored 4-byte word is tagged: as it was saved, but where the tag of its 8-byte word has changed since (log 40); `mate` is
the tag with which the other half was saved. -/
def State.restoredTag (s : State) (a : Nat) (old mate : Bool) : Bool := s.mem.isBad a && (old || !mate)

/-- What a restored register holds: the area's bytes and its tag. -/
def State.restoredReg (s : State) (a : Nat) (old mate : Reg) : Reg := ⟨BitVec.ofNat 32 (s.mem.nat a 4), s.restoredTag a old.bad mate.bad⟩

/-- Registers from the area: n words at a, as they were saved. -/
def State.restoredList (s : State) (a n : Nat) (old : Nat → Reg) : List Reg :=
  (List.range n).map (fun k => s.restoredReg (a + 4 * k) (old k) (old (if k % 2 = 0 then k + 1 else k - 1)))

def State.restoredRegs (s : State) (a n : Nat) (old : Nat → Reg) : List (Nat × Reg) :=
  (s.restoredList a n old).zipIdx.foldl (fun (l : List (Nat × Reg)) (r, k) => sset Reg.zero l k r) []

/-- A path from its entry (R31). What it waits on stands in no part of the area: it is that of the saved path of the entry, if that
stands at the same place in the same state; otherwise the path issues its instruction again (log 40). -/
def State.restoredPath (s : State) (a : Nat) (old : Option Path) : Option Path :=
  let x := s.mem.nat a 32
  let st := PathSt.ofCode (bits x 255 252)
  let pc := BitVec.ofNat 64 (8 * bits x 179 128)
  let same := old.filter (fun p => p.st = st && p.pc = pc)
  if bits x 63 0 = 0 then none
  else
    let tmask := W64.ofBits x 63 0
    some { (same.getD (Path.start false pc tmask)) with
      st := if same.isSome || st = .signed then st else .ready
      skn := bits x 251 248
      age := bits x 247 231
      cvi := Fin.ofNat 17 (bits x 230 226)
      access := bit x 225
      pc := pc
      skmask := W64.ofBits x 127 64
      tmask := tmask }

/-- A path table from its 64 entries. -/
def State.restoredPaths (s : State) (a : Nat) (old : List Path) : List Path := (List.range 64).filterMap (fun k => s.restoredPath (a + 32 * k) old[k]?)

/-- A convergence register (R41); what its members have signed stands in no part of the area (log 40). -/
def State.restoredConv (s : State) (a : Nat) (old : Conv) : Conv :=
  let x := s.mem.nat a 32
  { old with
    gen := BitVec.ofNat 32 (bits x 255 224)
    pend := bits x 223 212
    armed := bit x 211
    spc := BitVec.ofNat 64 (8 * bits x 179 128)
    wmask := W64.ofBits x 127 64
    tmask := W64.ofBits x 63 0 }

/-- A branch queue (R102). -/
def State.restoredBr (s : State) (a : Nat) (old mate : List (Bool × Bool)) : List (Bool × Bool) :=
  let x := s.mem.nat a 4
  let was := fun (l : List (Bool × Bool)) => l.any (·.2)
  (List.range (bits x 20 16)).map (fun k => (bit x k, s.restoredTag a (if was old then (old.getD k (false, false)).2 else false) (was old || was mate)))

/-- A thread of a warp from the warp's block and the group's section at `a` (R101, R102). -/
def State.restoredThread (s : State) (g : Group) (a : Nat) (w : Warp) (t : Thread) (i : Nat) : Thread :=
  let block := a + 0x1000 + 4096 * w.wid
  let at_ := fun (n : Nat) => bit (s.mem.nat (block + n) 8) i
  let mate := (w.threads.getD (if i % 2 = 0 then i + 1 else i - 1) (Thread.start false)).br
  let ports := a + g.layout.queues + (w.wid * g.width + i) * 512
  let queue := fun (p : Nat) =>
    let old := sget [] t.q p
    (s.restoredList (ports + 64 * p) 16 (fun k => old.getD k Reg.zero)).take (s.mem.nat (block + 0xB50 + 8 * i + p) 1)
  let t := { t with
    v := s.restoredRegs (a + g.layout.vregs + (w.wid * g.width + i) * g.nregs * 4) g.nregs t.reg
    iter := BitVec.ofNat 32 (s.mem.nat (block + 0xD50 + 4 * i) 4)
    life := if at_ 0xA38 then .live else if at_ 0xA40 then .helper else if at_ 0xA48 then .parked else .ended
    br := s.restoredBr (block + 0xA50 + 4 * i) t.br mate
    q := if g.dae then (List.range 8).foldl (fun l p => sset [] l p (queue p)) [] else t.q }
  (List.range 7).foldl (fun (t : Thread) n =>
    let any := w.threads.any (fun u => u.predBad n)
    t.setPred n (at_ (0xA00 + 8 * n)) (s.mem.isBad (block + 0xA00 + 8 * n) && (t.predBad n || !any))) t

/-- A warp from its block (R102). -/
def State.restoredWarp (s : State) (g : Group) (a : Nat) (w : Warp) : Warp :=
  let block := a + 0x1000 + 4096 * w.wid
  { w with
    w := s.restoredRegs (block + 0x800) 128 w.reg
    paths := s.restoredPaths block (w.paths.filter (fun p => !p.access)) ++
      (if g.dae then s.restoredPaths (a + g.layout.access + 2048 * w.wid) (w.paths.filter (fun p => p.access)) else [])
    reg0 := Region.ofNat (s.mem.nat (block + 0xE50) 16)
    reg1 := Region.ofNat (s.mem.nat (block + 0xE60) 16)
    poisonOrigin := BitVec.ofNat 64 (s.mem.nat (block + 0xE90) 8)
    threads := w.threads.zipIdx.map (fun (t, i) => s.restoredThread g a w t i) }

/-- A version line; whether one store replaced a word whole stands in no part of the area (log 40). -/
def State.restoredLine (s : State) (a : Nat) (old : VLine) : VLine :=
  { old with
    line := s.mem.nat a 8 / 32
    mask := BitVec.ofNat 32 (s.mem.nat (a + 8) 4)
    bytes := s.mem.bytes (a + 16) 32
    bad := ((List.range 4).filter (fun k => s.mem.isBad (a + 16 + 8 * k))).foldl (fun m k => m ||| (1 : BitVec 4) <<< k) 0 }

/-- Captured register operands (R101). -/
def State.restoredSrc (s : State) (a first : Nat) (all : List Reg) : MatSrc → MatSrc
  | .regs runs =>
    let reg := fun (k : Nat) => s.restoredReg (a + 4 * k) (all.getD k Reg.zero) (all.getD (if k % 2 = 0 then k + 1 else k - 1) Reg.zero)
    .regs (runs.foldl (fun (acc : List (List Reg) × Nat) run => (acc.1 ++ [(List.range' acc.2 run.length).map reg], acc.2 + run.length)) ([], first)).1
  | x => x

def State.restoredOp (s : State) (a : Nat) (o : MatOp) : MatOp :=
  let all := o.captured
  { o with
    a := s.restoredSrc a 0 all o.a
    b := s.restoredSrc a o.a.regs?.length all o.b }

/-- The kiln binding of a group: the unit reads its record anew (R319). -/
def State.restoredKiln (s : State) (c : Ctx) (a : Nat) (old : Option KilnBind) : Option KilnBind :=
  if bit (s.mem.nat (a + 12) 4) 0 then
    let record := s.mem.nat a 8
    let fields := match s.readVirt c record 256 with
      | some (bs, _) => BitVec.ofNat 448 (leNat bs)
      | none => (old.map (·.fields)).getD 0
    some { record := BitVec.ofNat 64 record, step := BitVec.ofNat 32 (s.mem.nat (a + 8) 4), fields := fields }
  else none

/-- A group from its section at `a` (R101, R103, R397): every bound tile is restored from the accumulator image. -/
def State.restoredGroup (s : State) (c : Ctx) (g : Group) (a : Nat) : Group :=
  let l := g.layout
  let word := fun (o n : Nat) => s.mem.nat (a + o) n
  let tiles := (List.range 64).foldl (fun (ts : List (Nat × Option Tile)) k =>
    let x := word (0x400 + 16 * k) 16
    sset none ts k (if bit x 32 then some (Tile.of x) else none)) []
  let acc := (tiles.filterMap (·.2)).foldl (fun (acc : List (Nat × AccEl)) t => (List.range (t.rows * t.cols)).foldl (fun acc e =>
    let p := a + l.acc + 8 * (t.off + e)
    sset AccEl.unwritten acc (t.off + e) ⟨some (BitVec.ofNat 64 (s.mem.nat p 8)), s.mem.isBad p⟩) acc) []
  let flag := word 0x1E80 8
  { g with
    launchId := word 0 8
    index := word 8 16
    x := word 24 4
    y := word 28 4
    z := word 32 4
    cls := Cls.ofCode (word 40 4)
    band := word 0x80 2
    prio := word 0x82 2
    key64 := BitVec.ofNat 64 (word 0x88 8)
    keyBad := s.mem.isBad (a + 0x88)
    stream := BitVec.ofNat 32 (word 0x90 4)
    streamBad := s.mem.isBad (a + 0x90)
    ring := (List.range 8).foldl (fun (l : List (Nat × Option (Nat × Nat))) n =>
      let o := 0xC0 + 16 * n
      sset none l (8 + n) (if word (o + 8) 4 = 0 then none else some (word o 8, word (o + 8) 4))) []
    kiln := s.restoredKiln c (a + 0x140) g.kiln
    cv := (List.range 16).foldl (fun l k => sset Conv.idle l k (s.restoredConv (a + 0x200 + 32 * k) (sget Conv.idle g.cv k))) []
    tiles := tiles
    vlines := (g.vlines.take (word 0x94 4)).zipIdx.map (fun (v, k) => s.restoredLine (a + 0x41000 + 48 * k) v)
    oor := if bit flag 63 then some (bits flag 31 0) else none
    ops := g.ops.map (fun o => s.restoredOp (a + l.captured + 32768 * o.slot) o)
    scratch := putCells [] 0 (s.mem.bytes (a + l.scratch) (65536 * g.spg))
    scratchBad := (List.range (8192 * g.spg)).filter (fun k => s.mem.isBad (a + l.scratch + 8 * k))
    acc := acc
    leftover := c.leftover
    place := some (a + l.acc)
    warps := g.warps.map (s.restoredWarp g a) }

def Group.need (g : Group) : Demand := ⟨g.granules, g.warps.length, if g.task.isSome then 1 else warpsOfLane g.rfg g.width g.nreg⟩

/-- Seat one group on a core, when it fits. -/
def State.seatGroup (s : State) (g : Group) (core : Nat) : Option State :=
  if Config.cores ≤ core || setMem s.cores.failed core || ((s.load core (fun _ => true)).add g.need).isNone then none
  else
    ((s.residency core).place g.need).map (fun lanes =>
      { s with groups := s.groups ++ [{ g with
          core := core
          warps := (g.warps.zip (s.places core lanes)).map (fun (x : Warp × (Nat × Nat)) => { x.1 with
            lane := x.2.1
            slot := x.2.2 }) }] })

/-- Seat the groups of one saved cluster on one hardware cluster, each on the core of its place; the old cluster first. -/
def State.seatCluster (s : State) (gs : List Group) : Option State :=
  let old := clusterOf ((gs.headD Group.blank).core)
  (old :: (List.range Config.clusters).filter (· ≠ old)).findSome? (fun h =>
    gs.foldlM (fun (s : State) g => s.seatGroup g (4 * h + g.core % 4)) s)

/-- Seat every saved group; none while some of them does not fit: all of the residency is taken at once, as that of a C launch is, and
none of it is held before (R62, R99; log 40). -/
def State.seatAll (s : State) (gs : List Group) : Option State :=
  ((gs.map (·.mates)).eraseDups).foldlM (fun (s : State) m => s.seatCluster (gs.filter (fun g => g.mates = m))) s

/-- Where each task record goes: its own place when it is free, otherwise a free one of its pool or of another. -/
def State.placeTasks (s : State) (ts : List Task) : List (Task × Nat × Nat) :=
  ts.foldl (fun (l : List (Task × Nat × Nat)) t =>
    let taken := fun (c i : Nat) => s.tasks.any (fun u => u.cluster = c && u.index = i) || l.any (fun x => x.2.1 = c && x.2.2 = i)
    let pools := t.cluster :: (List.range Config.clusters).filter (· ≠ t.cluster)
    let at_ := if taken t.cluster t.index then
        (pools.findSome? (fun c => ((List.range Config.poolSize).find? (fun i => !(taken c i))).map (fun i => (c, i)))).getD (t.cluster, t.index)
      else (t.cluster, t.index)
    l ++ [(t, at_)]) []

/-- Room in the pools for the records (R99). -/
def State.poolRoom (s : State) (n : Nat) : Bool := s.tasks.length + n ≤ Config.clusters * Config.poolSize

/-- Where each program goes: its own sequencer context when it is free, otherwise a free one; none when they do not suffice. -/
def State.placeSeqs (s : State) (qs : List (Nat × Seq)) : Option (List (Nat × Nat × Seq)) :=
  qs.foldlM (fun (l : List (Nat × Nat × Seq)) (x : Nat × Seq) =>
    let taken := fun n => s.seqs.any (fun (y : Nat × Seq) => y.1 = n) || l.any (fun y => y.2.1 = n)
    let at_ := if taken x.1 then (List.range Config.seqContexts).find? (fun n => !(taken n)) else some x.1
    at_.map (fun n => l ++ [(x.1, n, x.2)])) []

/-- A program from its block (R372): what a transfer has captured and a CWAIT waits on are those of the saved program, and a stop that
was ended while it was saved is ended (R502; log 40). -/
def State.restoredSeq (s : State) (a : Nat) (q : Seq) : Seq :=
  let flags := s.mem.nat (a + 0x108) 4
  let ticket := s.mem.nat (a + 0x118) 4
  let blocks := s.mem.nat (a + 0x10C) 4
  { q with
    x := (List.range 31).foldl (fun (l : List (Nat × W64)) i => sset 0 l (i + 1) (BitVec.ofNat 64 (s.mem.nat (a + 8 * (i + 1)) 8))) []
    pc := BitVec.ofNat 64 (s.mem.nat (a + 0x100) 8)
    wait := if bit flags 2 then q.wait else none
    timer := 0
    blocks := blocks
    packets := s.mem.nat (a + 0x110) 8
    xfer := if bit flags 1 then q.xfer.map (fun x => { x with until_ := blocks }) else none
    stopped := if bit flags 3 && q.stopped.isSome then some (if ticket = 0 && q.stopped = some none then none else some ticket) else none }

/-- SEQCTX of the embers that the programs hold is rewritten (R372): `moves` gives the old and the new context of each. An entry that
must not be written stays as it is; none while a write has to wait. -/
def State.rebind (s : State) (c : Ctx) (moves : List (Nat × Nat)) : Option State :=
  (List.range' 1 (c.nemb - 1)).foldlM (fun (s : State) h =>
    let va := (c.embBase.toNat + 32 * h) % 2 ^ 64
    match s.readVirt c va 32 with
    | none => some s
    | some (bs, _) =>
      let e := Ember.ofBytes va h bs
      match moves.find? (fun m => e.state = 2 && m.1 = e.seqctx && m.2 ≠ m.1) with
      | none => some s
      | some m =>
        match s.putEmber c m.2 { e with seqctx := m.2 } with
        | .ok s => some s
        | .error none => none
        | .error (some _) => some s) s

/-- The task records and pending launch records from the area, in its order (R99, R100). -/
def State.restoredTasks (s : State) (a : Nat) (v : Saved) : List Task :=
  ((taskOrder v.tasks).take (s.mem.nat (a + 16) 8)).zipIdx.map (fun (t, k) => Task.ofNat (s.mem.nat (a + 0x30000 + 128 * k) 128) t)

def State.restoredLaunches (s : State) (a : Nat) (v : Saved) : List Launch :=
  let pend := (v.pend.take (s.mem.nat (a + 24) 8)).zipIdx.map (fun (l, k) => { l with record := LaunchRec.ofNat (s.mem.nat (a + 0x1B0000 + 64 * k) 64) })
  (v.launches.filter (fun l => l.record.groups ≤ l.started)) ++ pend

/-- The groups that the directory names, each from its section. -/
def State.restoredGroups (s : State) (c : Ctx) (v : Saved) : List Group :=
  let a := c.ctxSave.toNat
  (v.groups.take (s.mem.nat (a + 8) 8)).zipIdx.map (fun (g, k) => s.restoredGroup c g (a + s.mem.nat (a + 0x1000 + 16 * k) 8))

/-- A copy command goes on at its saved sector, on the engine of its group's cluster (R99); it takes its lines anew. -/
def State.restoredCopy (s : State) (k : Cmd) : State :=
  let (s, id) := s.fresh
  let engine := match s.group? k.g with | some g => clusterOf g.core | none => k.engine
  { s with copies := s.copies ++ [{ k with
      engine := engine
      st := if k.st = .running then .queued else k.st
      taken := id }] }

/-- Put a context's saved state back: groups that are seated are in the state already. ROOT links and the groups' references follow
the records (R99). -/
def State.restore (s : State) (c : Ctx) (v : Saved) (launches : List Launch) (tasks : List (Task × Nat × Nat)) (seqs : List (Nat × Nat × Seq)) : State :=
  let home := fun (c i : Nat) => match tasks.find? (fun x => x.1.cluster = c && x.1.index = i) with
    | some x => x.2
    | none => (c, i)
  let a := c.ctxSave.toNat
  let s := { s with
    groups := mapIf (fun g => g.ctx = c.num) (fun g => { g with task := g.task.map (fun p => home p.1 p.2) }) s.groups
    launches := launches ++ s.launches
    tasks := s.tasks ++ tasks.map (fun x => { x.1 with
      cluster := x.2.1
      index := x.2.2
      rootCluster := (home x.1.rootCluster x.1.rootIndex).1
      rootIndex := (home x.1.rootCluster x.1.rootIndex).2 })
    seqs := s.seqs ++ seqs.map (fun x => (x.2.1, s.restoredSeq (a + 0x1C4000 + 512 * x.1) x.2.2)) }
  let left := fun (t : SlotTrack) => BitVec.ofNat 64 (s.mem.nat (a + 0x1D4000 + 8 * t.slot) 8)
  (v.copies.foldl State.restoredCopy s).updCtx c.num (fun c => { c with
    run := .running
    slots := c.slots.map (fun t => { t with left := left t })
    saved := none
    restoredAt := c.ctxSave })

/-- A saved context is read from its area and goes on, once there is room for all of it; none until then. -/
def State.resume (s : State) (c : Ctx) (v : Saved) : Option State :=
  let a := c.ctxSave.toNat
  let s := (c.image v true).foldl (fun s (x : Nat × List (Byte × Bool)) => s.saveRead c.num (a + x.1) x.2.length) s
  let tasks := s.restoredTasks a v
  if !(s.poolRoom tasks.length) then none
  else
    (s.seatAll (s.restoredGroups c v)).bind (fun t => (s.placeSeqs v.seqs).bind (fun seqs =>
      (t.rebind c (seqs.map (fun x => (x.1, x.2.1)))).map (fun u =>
        (u.restore c v (s.restoredLaunches a v) (s.placeTasks tasks) seqs).requestDone c.num)))

/-- CONTEXT_RESUME: residency for every saved group is taken at once; then the context goes on (R99). A context that is contained and
keeps its residency goes on where it stands (R413 code 4). -/
def execContextResume (ctx : Nat) (s : State) : Result :=
  match s.ctx? ctx with
  | none => notNow s
  | some c =>
    match c.requests, c.run, c.saved with
    | true :: _, .running, _ => .next (s.requestDone ctx)
    | true :: _, .contained, _ | true :: _, .stopping, _ =>
      .next ((s.updCtx ctx (fun c => { c with
        run := .running
        record := none })).requestDone ctx)
    | true :: _, .saved, some v =>
      match s.resumeRefused c v with
      | some (reason, addr) =>
        let s := s.updCtx ctx (fun c => { c with requests := c.requests.tail })
        .next (s.report { ErrRec.none with
          addr := BitVec.ofNat 64 addr
          cls := 0x1D
          domain := 4
          phys := true
          ctx := ctx
          lcyc := s.lcyc 11 0
          detail := reason })
      | none => s.attempt (saveKey ctx) 0 fun s => match s.resume c v with
        | some s => .next s
        | none => notNow s
    | _, _, _ => notNow s

end Sys2Proof.Machine
end

