-- ==== Sys2Proof/Machine/Akoon.lean ====
section
/-! DEFINITION. Akoon.lean: the commands of the control node, their replies and refusals, and bring-up (R382 to R391,
R425). -/

namespace Sys2Proof.Machine

/-! ### Replies and refusals (R382, R383, R425) -/

def Reply.ok (tag : W32) : Reply := { tag := tag, status := 0, value := 0, bytes := [] }

/-- A command is still waiting to complete: a key load or a MODE 0 write (R348, R384). -/
def State.akoonBusy (s : State) : Bool :=
  s.ports.any (fun (p : Nat × Port) => p.2.load.isSome || p.2.mode0.isSome)

/-- The command has been performed. -/
def State.done (s : State) (h : AkHdr) : State := s.tell (Reply.ok h.tag)

/-- An error message about a refused command: no queue takes it, and nothing is contained (R413, R425). -/
def State.refusalNote (s : State) (h : AkHdr) (cls addr detail : Nat) : State :=
  let (s, no) := s.spark 2 0
  let e : ErrRec := { ErrRec.none with
    addr := BitVec.ofNat 64 addr
    cls := cls
    domain := if h.ctx = 0 then 5 else 4
    ctx := h.ctx
    lcyc := s.lcyc 11 0
    spark := no
    detail := detail }
  { s with dev := { s.dev with messages := s.dev.messages ++ [leBytes 64 (e.code 0 true)] } }

/-- REFUSE A COMMAND: it has no effect but its reply and, save for status 7, an error message (R425). -/
def State.deny (s : State) (h : AkHdr) (status : Nat) : State :=
  let s := s.tell { tag := h.tag, status := status, value := 0, bytes := [] }
  if status = 7 then s else s.refusalNote h (0x50 + status) 0 0

/-- A command waits in the inbox, if it does not do so already. -/
def State.await (s : State) (h : AkHdr) (i : Instr) : State :=
  if s.dev.inbox.contains (h.ctx, i) then s
  else { s with
    held := false
    dev := { s.dev with inbox := s.dev.inbox ++ [(h.ctx, i)] } }

/-- A command leaves the inbox. -/
def State.unqueue (s : State) (h : AkHdr) (i : Instr) : State :=
  if s.dev.inbox.contains (h.ctx, i) then { s with dev := { s.dev with inbox := s.dev.inbox.erase (h.ctx, i) } } else s

/-- No command goes before this one: of those that arrived earlier, none names its context, and none of the two names no context
(R383). -/
def State.inTurn (s : State) (h : AkHdr) (i : Instr) : Bool :=
  (s.dev.inbox.takeWhile (· != (h.ctx, i))).all (fun q => q.1 != 0 && h.ctx != 0 && q.1 != h.ctx)

/-- The device has taken the command: it has answered, or holds it for a key slot or a port (R348, R384). -/
def State.took (s t : State) : Bool := s.dev.replies.length != t.dev.replies.length || t.akoonBusy

/-- RUN A COMMAND: after bring-up, in its turn (R383, R386); one that cannot be performed yet waits in the inbox. A device under
containment refuses it (R425). -/
def akoon (i : Instr) (h : AkHdr) (s : State) (f : State → Result) : Result :=
  if s.phase ≠ .ready then notNow s
  else if s.akoonBusy || !(s.inTurn h i) then .next (s.putOff.await h i)
  else if s.dev.contained then .next ((s.deny h 8).unqueue h i)
  else match f s with
    | .next t => .next (if s.took t then t.unqueue h i else t.await h i)
    | r => r

/-- The same for a command that names a context. -/
def akoonIn (i : Instr) (h : AkHdr) (s : State) (f : State → Ctx → Result) : Result :=
  akoon i h s fun s =>
    match s.ctx? h.ctx with
    | none => .next (s.deny h 2)
    | some c => f s c

/-! ### Memory (R188) -/

/-- Agent class of the control node (R340), the class that its requests are counted in (R79; log 46), and its place in line. -/
def nodeClass : Nat := 7
def nodeReq : Nat := reqClass nodeClass
def nodeKey : Nat × Nat := (7, 0)

/-- Some line of a physical range belongs to an engine (R182). -/
def State.ownedRange (s : State) (pa n : Nat) : Bool := (linesOf pa n).any (fun l => s.owned (2 * l))

/-- A write of the control node at a physical address. -/
def State.nodeWrite (s : State) (pa : Nat) (bs : List Byte) : State :=
  let s := (linesOf pa bs.length).foldl (fun (s : State) l =>
    let (m, turned) := s.mem.rowLine l true
    let s : State := { s with mem := m }
    s.served (l / 32) nodeReq turned) s
  let s : State := { s with mem := s.mem.write pa bs false }
  (s.watch false true pa bs.length nodeClass 0).1

/-- IMAGE: bytes to HBM4E by physical address. -/
def execImage (x : AkBytes) (s : State) : Result :=
  akoon (.image x) x.h s fun s =>
    let n := x.bytes.length
    let pa := x.addr.toNat
    if pa % 64 ≠ 0 || n < 64 || 4096 < n then .next (s.deny x.h 3)
    else if !(hbmPa pa) || !(hbmPa (pa + n - 1)) then .next (s.deny x.h 4)
    else if s.ownedRange pa n then notNow s
    else s.attempt nodeKey nodeReq fun s => .next ((s.nodeWrite pa x.bytes).done x.h)

/-- MEMWR: weak writes through a context's tables; one to a page at WB waits (R157). -/
def execMemwr (x : AkBytes) (s : State) : Result :=
  akoonIn (.memwr x) x.h s fun s c =>
    let n := x.bytes.length
    if n < 1 || 4096 < n then .next (s.deny x.h 3)
    else match s.piecesAt c none (piecesOf x.addr.toNat n) with
      | .error _ => .next (s.deny x.h 4)
      | .ok ps =>
        if ps.any (fun p => attrCtr p.e.attr || !(attrW p.e.attr)) then .next (s.deny x.h 4)
        else if wbPiece ps || s.ownedPieces ps then notNow s
        else s.attempt nodeKey nodeReq fun s => .next ((s.engineWrite nodeReq nodeClass 0 ps (clean x.bytes)).done x.h)

/-- MEMRD: relaxed reads through a context's tables; the reply carries the bytes. -/
def execMemrd (x : AkRead) (s : State) : Result :=
  akoonIn (.memrd x) x.h s fun s c =>
    if x.len < 1 || 4096 < x.len then .next (s.deny x.h 3)
    else match s.piecesAt c none (piecesOf x.addr.toNat x.len) with
      | .error _ => .next (s.deny x.h 4)
      | .ok ps =>
        if ps.any (fun p => attrCtr p.e.attr) then .next (s.deny x.h 4)
        else if s.ownedPieces ps then notNow s
        else s.attempt nodeKey nodeReq fun s => match s.engineRead c x.addr.toNat x.len nodeReq nodeClass 0 with
          | none => .next (s.deny x.h 4)
          | some (s, bs) => .next (s.tell { tag := x.h.tag, status := 0, value := 0, bytes := bs.map (·.1) })

/-- CTRMAX: CTR.MAX.rel at system scope. -/
def execCtrmax (x : AkCtr) (s : State) : Result :=
  akoonIn (.ctrmax x) x.h s fun s c =>
    let va := x.addr.toNat
    if va % 16 ≠ 0 then .next (s.deny x.h 3)
    else match s.engineCtr c va with
      | .error _ => .next (s.deny x.h 4)
      | .ok l =>
        if s.wbRange c va 16 then notNow s
        else s.attempt nodeKey nodeReq fun s =>
          let (old, _, bad) := s.ctrGet l
          let s := (s.holdRange c va 16).ctrPut l 0 (leBytes 8 (max old x.v.toNat)) bad
          let s := match l with
            | .phys pa => ((s.served (pa / 1024) nodeReq false).watch true true pa 8 nodeClass 0).1
            | .scratch .. => s
          .next (s.done x.h)

/-! ### Contexts and work -/

/-- CTXNEW: a context with its fabric context record (R346, R365). -/
def execCtxnew (x : AkCtxNew) (s : State) : Result :=
  akoon (.ctxnew x) x.h s fun s =>
    if (s.ctx? x.h.ctx).isSome then .next (s.deny x.h 2)
    else if x.h.ctx < 1 || 255 < x.h.ctx || 4096 < x.npeer || x.nemb < 1 || 65536 < x.nemb then .next (s.deny x.h 3)
    else
      let c : Ctx := { Ctx.start x.h.ctx x.super with
        ptRoot := x.ptroot
        jobId := x.jobId
        peerBase := x.peerBase
        npeer := x.npeer
        embBase := x.embBase
        nemb := x.nemb }
      let s : State := { s with ctxs := s.ctxs ++ [c] }
      .next (s.done x.h)

/-- ROOTGO: a root launch (R86); a record that R438 refuses is refused here, with its reason in the message (R427). -/
def execRootgo (x : AkRoot) (s : State) : Result :=
  akoonIn (.rootgo x) x.h s fun s c =>
    match s.readLaunch c x.addr with
    | .error k =>
      .next ((s.tell { tag := x.h.tag, status := 3, value := 0, bytes := [] }).refusalNote x.h 0x16 x.addr.toNat k)
    | .ok r =>
      let (t, id) := (s.holdRange c x.addr.toNat 64).accept c.num r
      if id = 0 then .next (s.deny x.h 3)
      else .next (t.tell { tag := x.h.tag, status := 0, value := id, bytes := [] })

/-- The eight-byte words of a block, numbered from n, as registers. -/
def blockWords : Nat → Nat → List Byte → List (Nat × W64)
  | 0, _, _ => []
  | k + 1, n, bs => sset 0 (blockWords k (n + 1) (bs.drop 8)) n (BitVec.ofNat 64 (leNat (bs.take 8)))

/-- A program as it starts (R370). -/
def Seq.start (key ctx : Nat) (entry : W64) (block : List Byte) : Seq :=
  { key := key, ctx := ctx, x := blockWords 15 1 block, pc := entry, wait := none, timer := 0, blocks := 0, packets := 0,
    xfer := none, stopped := none }

/-- SEQGO: a ZF program on a free sequencer context (R370). -/
def execSeqgo (x : AkSeq) (s : State) : Result :=
  akoonIn (.seqgo x) x.h s fun s c =>
    if Config.seqContexts ≤ x.seq || s.seqs.any (fun (q : Nat × Seq) => q.1 = x.seq) || x.entry.toNat % 4 ≠ 0 || x.block.length ≠ 120 then
      .next (s.deny x.h 3)
    else
      let (s, key) := s.fresh
      let s : State := { s with seqs := s.seqs ++ [(x.seq, Seq.start key c.num x.entry x.block)] }
      .next (s.done x.h)

/-! ### Ports -/

/-- The fields of a port configuration record (R343). -/
def Port.configure (p : Port) (x : Nat) : Port :=
  { p with
    rwBase := W64.ofBits x 511 448
    rxBase := W64.ofBits x 447 384
    rwSize := bits x 383 375
    rxSize := bits x 374 366
    rto := bits x 351 320
    mac := BitVec.ofNat 48 (bits x 303 256)
    ip := BitVec.ofNat 128 (bits x 255 128)
    sci := W64.ofBits x 127 64
    txan := bits x 7 6
    mode := bits x 1 0 }

/-- Some field other than MODE differs (R384). -/
def Port.differs (p : Port) (x : Nat) : Bool :=
  let q := p.configure x
  q.rwBase != p.rwBase || q.rxBase != p.rxBase || q.rwSize != p.rwSize || q.rxSize != p.rxSize || q.rto != p.rto ||
  q.mac != p.mac || q.ip != p.ip || q.sci != p.sci || q.txan != p.txan

/-- The ranges of a long-reach record break R343 or the limit of R344. -/
def State.longReachBad (s : State) (port x : Nat) : Bool :=
  let others := (s.ports.filter (fun (p : Nat × Port) => p.1 ≠ port && p.2.mode = 2)).length
  decide (8 ≤ others) || bits x 383 375 < 1 || 256 < bits x 383 375 || bits x 374 366 < 1 || 256 < bits x 374 366 ||
  bits x 511 448 % 65536 ≠ 0 || bits x 447 384 % 65536 ≠ 0
/-- They leave HBM4E. -/
def longReachOut (x : Nat) : Bool :=
  decide (2 ^ 39 < bits x 511 448 + bits x 383 375 * 2 ^ 20) || decide (2 ^ 39 < bits x 447 384 + bits x 374 366 * 2 ^ 20)

/-- A port that leaves MODE 0 starts its link afresh (log 5). -/
def Port.restart (p : Port) : Port :=
  { p with
    tx := .open_
    nextLsn := 0
    timer := 0
    resends := 0
    rxLsn := 0
    nacked := false
    ackDue := none
    ackAge := 0
    badFrames := 0
    ctlCredits := 0
    datCredits := 0
    rolled := false
    failed := false
    retrain := none
    lost := 0 }

/-- PORTCFG: the port configuration record; a write of MODE 0 completes once every stored frame is acknowledged (R384). -/
def execPortcfg (x : AkPort) (s : State) : Result :=
  akoon (.portcfg x) x.h s fun s =>
    let v := leNat x.record
    let p := s.port x.port
    let mode := bits v 1 0
    if Config.ports ≤ x.port || x.record.length ≠ 64 || mode = 3 then .next (s.deny x.h 3)
    else if p.mode ≠ 0 && p.differs v then .next (s.deny x.h 5)
    else if mode = 2 && s.longReachBad x.port v then .next (s.deny x.h 3)
    else if mode = 2 && longReachOut v then .next (s.deny x.h 4)
    else if mode = 0 && p.mode ≠ 0 then
      if p.store.isEmpty || p.failed then .next ((s.updPort x.port Port.off).done x.h)
      else .next (s.updPort x.port (fun p => { p with mode0 := some x.h.tag }))
    else
      let fresh := p.mode = 0 && mode ≠ 0
      let s := s.updPort x.port (fun p => (if fresh then p.restart else p).configure v)
      .next (s.done x.h)

/-- KEYLOAD: a key slot; a slot with stored frames keeps its key, and the command waits (R348). -/
def execKeyload (x : AkKey) (s : State) : Result :=
  akoon (.keyload x) x.h s fun s =>
    let k : KeySlot := { sak := x.sak, salt := x.salt, ssci := x.ssci, nextPn := x.nextPn, valid := true }
    if Config.ports ≤ x.port || 4 ≤ x.slot then .next (s.deny x.h 3)
    else if (s.port x.port).slotFree x.slot then .next ((s.applyKey x.port x.slot k x.switch).done x.h)
    else .next (s.updPort x.port (fun p => { p with load := some (x.h.tag, x.slot, k, x.switch) }))

/-! ### Snapshots, power, reset -/

/-- How many blocks a class has (R12, R391). -/
def blocksOf (cls : Nat) : Nat := [Config.cores, Config.llcSlices, 48, 4, Config.ports, 16, 1].getD cls 0

/-- The most that the module draws in a power state, in mW (R19, R387); in state 3 no figure is given but that of R19. -/
def ceiling (power : Nat) : Nat := 1000 * (match power with | 1 => 2600 | 2 => 2000 | _ => 3200)

/-- A count of a snapshot; those of the management controller are sensors: the power, under the ceiling of the states in force (R19,
R387), and the temperature. -/
def Snap.datum (x : Snap) (cls block place : Nat) : Nat :=
  let sensor := (Config.freeSensor x.sense place).toNat
  if cls = 6 then match place with
    | 0 => sensor % (x.power.foldl (fun m p => max m (ceiling p)) 0 + 1)
    | 1 => sensor
    | _ => 0
  else sget 0 x.counts (cls * 2 ^ 20 + block * 2 ^ 4 + place)

/-- The agent class of a block class (R391, R418). -/
def aclsOf (cls : Nat) : Nat := [1, 10, 2, 4, 5, 8, 11].getD cls 11

/-- The 64 bytes of a snapshot record (R391). Its LCYC is the block's own count at the latch (R389; log 44 for the management
controller). -/
def Snap.bytes (x : Snap) (cls block : Nat) : List Byte :=
  leBytes 8 (lcycOf x.coreClock x.fabricClock x.lead (aclsOf cls) block) ++ leBytes 4 0 ++ leBytes 4 x.no.toNat
  ++ leBytes 8 (x.tag.toNat * 2 ^ 16 + x.src.toNat * 2 ^ 32 + cls * 2 ^ 44 + block * 2 ^ 48)
  ++ (List.range 5).flatMap (fun k => leBytes 8 (x.datum cls block k))

/-- SNAPRD: one snapshot record of a spark still held (R390). -/
def execSnaprd (x : AkSnap) (s : State) : Result :=
  akoon (.snaprd x) x.h s fun s =>
    if blocksOf x.cls ≤ x.block then .next (s.deny x.h 3)
    else match s.dev.snaps.find? (fun k => k.no = x.spark) with
      | none => .next (s.deny x.h 7)
      | some k => .next (s.tell { tag := x.h.tag, status := 0, value := 0, bytes := k.bytes x.cls x.block })

/-- SPARK of the control node; the reply's value is the spark's number. -/
def execAkoonSpark (x : AkVal) (s : State) : Result :=
  akoon (.akoonSpark x) x.h s fun s =>
    if 2 ^ 16 ≤ x.value then .next (s.deny x.h 3)
    else
      let (s, no) := s.spark 3 x.value
      .next (s.tell { tag := x.h.tag, status := 0, value := no.toNat, bytes := [] })

/-- POWER (R387). -/
def execPower (x : AkVal) (s : State) : Result :=
  akoon (.power x) x.h s fun s =>
    if 4 ≤ x.value then .next (s.deny x.h 3)
    else if x.value = 3 && !s.groups.isEmpty then .next (s.deny x.h 6)
    else
      let s : State := { s with dev := { s.dev with power := x.value } }
      .next (s.done x.h)

/-- The module at power-up, but for its memory's bytes and what it has sent (R385, R386). -/
def State.powerCycle (s : State) : State :=
  let m : Memory := { Memory.empty with
    cells := s.mem.cells
    bad := s.mem.bad }
  { State.reset with
    agenda := s.agenda
    ticks := s.ticks
    stamp := s.stamp
    mem := m
    net := { State.reset.net with sent := s.net.sent }
    dev := { State.reset.dev with
      replies := s.dev.replies
      messages := s.dev.messages
      readies := s.dev.readies } }

/-- RESET form 0: back to power-up; a device under containment performs it too (R385, R426). -/
def execResetDevice (h : AkHdr) (s : State) : Result :=
  if s.phase ≠ .ready then notNow s
  else if s.akoonBusy || !(s.inTurn h (.resetDevice h)) then .next (s.putOff.await h (.resetDevice h))
  else .next (s.powerCycle.done h)

/-- Remote operations of a context that is gone: no counter is advanced for them, and held advances are not sent. -/
def State.dropRemote (s : State) (ctx : Nat) : State :=
  (s.net.remote.filter (fun o => o.ctx = ctx)).foldl (fun (s : State) o => (s.updRemote o.id (fun o => { o with
    dropped := true
    sent := true
    left := if o.advance.isSome then 0 else o.left - o.refused.length
    advance := none
    refused := [] })).settleOp o.id) s

/-- RESET form 1: the context stops, and everything of it is discarded (R385). -/
def State.removeCtx (s : State) (c : Ctx) : State :=
  let s := s.haltCtx c.num .stopping
  let mine := fun (k : Nat) => match s.group? k with | some g => decide (g.ctx = c.num) | none => false
  let ops := s.mem.ops.filter (fun o => mine o.g)
  let s : State := { s with
    kops := s.kops.filter (fun o => !(mine o.g))
    stops := s.stops.filter (fun x => !(x.groups.any mine))
    mem := { s.mem with
      ops := s.mem.ops.filter (fun o => !(mine o.g))
      reqs := s.mem.reqs.filter (fun r => !(ops.any (fun o => some o.id = r.op)))
      invals := s.mem.invals.filter (fun v => !(mine v.g))
      stalls := s.mem.stalls.filter (fun x => x.ctx ≠ c.num)
      veils := s.mem.veils.filter (fun v => !(mine v.g))
      llc := (s.mem.llc.filter (fun (e : Nat × SectorTag) => e.2.lock = some c.num)).foldl
        (fun l e => sset SectorTag.none l e.1 { e.2 with lock := none }) s.mem.llc } }
  let s := (s.vacate c (s.toSave c)).dropRemote c.num
  { s with ctxs := s.ctxs.filter (fun x => x.num ≠ c.num) }

/-- RESET with any form but 0: form 1 stops the named context and discards it (R385); a form above 1 is malformed (R425). -/
def execResetContext (x : AkVal) (s : State) : Result :=
  if x.value = 0 then notNow s
  else if x.value = 1 then akoonIn (.resetContext x) x.h s fun s c => .next ((s.removeCtx c).done x.h)
  else akoon (.resetContext x) x.h s fun s => .next (s.deny x.h 3)

/-- A code that is no command (R382, R425). -/
def execAkoonUnknownCommand (h : AkHdr) (code : Nat) (s : State) : Result :=
  let i : Instr := .akoonUnknownCommand h code
  if s.phase ≠ .ready || (1 ≤ code && code ≤ 0x0D) then notNow s
  else if s.akoonBusy || !(s.inTurn h i) then .next (s.putOff.await h i)
  else .next ((s.deny h 1).unqueue h i)

/-- The control node sends an image, with its check (R386 step 2): at most 4 MiB, and the check must match, or the image is requested
again. -/
def State.takeImage (s : State) (bytes : List Byte) (check : W32) : State :=
  if s.phase ≠ .bringUp || s.dev.image.isSome then s.putOff
  else if bytes.length ≤ 4 * 2 ^ 20 && Config.imageCrc bytes = check then { s with dev := { s.dev with image := some bytes } }
  else { s with dev := { s.dev with badImages := s.dev.badImages + 1 } }

/-- POWER_UP: with its image checked, bring-up ends with the ready message; every command is accepted from then on (R386). -/
def execPowerUp (s : State) : Result :=
  if s.phase = .bringUp && s.dev.image.isSome then
    .next { s with
      phase := .ready
      dev := { s.dev with readies := s.dev.readies + 1 } }
  else notNow s

end Sys2Proof.Machine
end

