-- ==== Sys2Proof/Machine/Events.lean ====
section
/-! DEFINITION. Events.lean: errors of control state, and physical upsets (R415, R441, R442, R445, R467, R468, R478, R480,
R495). -/

namespace Sys2Proof.Machine

/-! ### Core and tile control (R442, R478) -/

/-- Kindling slots of a core that has failed give their records back: it admits none of them. -/
def State.dropKindles (s : State) (core : Nat) : State :=
  let mine := s.kindles.filter (fun k => k.core = core)
  let gone := mine.flatMap (·.loads)
  let s := mine.foldl (fun (s : State) k => s.updTask k.cluster k.index (fun t => { t with state := 1 })) s
  { s with
    kindles := s.kindles.filter (fun k => k.core ≠ core)
    mem := { s.mem with reqs := s.mem.reqs.filter (fun r => !(r.id ∈ gone)) } }

/-- The groups that a failed core takes with it: the gang of a C group, the cluster of a P group, a W group. -/
def State.gangOfCore (s : State) (g : Group) : List Nat :=
  match g.cls with
  | .c => s.gangOf g
  | .p => g.mates
  | .w => [g.key]

/-- A core is marked failed, and every gang on it faults (R442). -/
def State.failCore (s : State) (core cls detail : Nat) : State :=
  let here := s.groups.filter (fun g => g.core = core)
  let s : State := { s with cores := { s.cores with
    failed := setIns s.cores.failed core
    reserved := s.cores.reserved.filter (fun r => r.2.1 ≠ core) } }
  let s := s.dropKindles core
  (here.foldl (fun (acc : State × List Nat) g =>
    if acc.2.contains g.key then acc
    else
      let keys := s.gangOfCore g
      (acc.1.stopGang keys { ErrRec.none with
        lcyc := s.lcyc 1 core
        cls := cls
        domain := 2
        launch := g.launchId
        group := g.handle
        ctx := g.ctx
        acls := 1
        agent := core
        detail := detail }, acc.2 ++ keys)) (s, [])).1

/-- CORE_CONTROL_ERROR: an uncorrectable error in unit 1 to 5 of R442. -/
def execCoreControlError (core : Nat) (unit : Fin 16) (s : State) : Result :=
  if Config.cores ≤ core || unit.val < 1 || 5 < unit.val then notNow s
  else .next (s.failCore core 0x1B unit.val)

/-- TILE_CONTROL_ERROR: an uncorrectable error in the tile table or in a unit's operation control (R478). -/
def execTileControlError (core : Nat) (unit : Fin 4) (table : Bool) (s : State) : Result :=
  if Config.cores ≤ core then notNow s
  else .next (s.failCore core 0x35 (unit.val + 4 * table.toNat))

/-! ### Upsets -/

def Reg.spoil (r : Reg) : Reg := { r with bad := true }

/-- The write of a context's area, at `pa` of HBM4E, meets an error that cannot be corrected: the save fails (R445 reason 3). -/
def State.areaError (s : State) (ctx pa : Nat) : State :=
  match s.ctx? ctx with
  | none => s
  | some c =>
    if c.requests.head? = some false && c.run = .stopping && s.drained ctx && (c.saveRefused (s.groupsOf ctx)).isNone &&
        decide (c.ctxSave.toNat ≤ pa) && decide (pa < c.ctxSave.toNat + areaSize (s.groupsOf ctx)) && hbmPa pa then s.saveError ctx 0x1C pa 3
    else s

/-- AN UPSET: what an uncorrectable error does to the word that it hits (R415). -/
def State.upset (s : State) : Upset → State
  | .memWord pa => if backed pa then { s with mem := { s.mem with bad := setIns s.mem.bad (pa / 8) } } else s
  | .llcWord pa =>
    let t := s.mem.sector (pa / 1024)
    if t.valid.getLsbD (pa / 32 % 32) then { s with mem := { s.mem with llcBad := setIns s.mem.llcBad (pa / 8) } } else s
  | .header x =>
    if hbmPa (1024 * x) then
      { s with mem := { s.mem with
        badHdr := setIns s.mem.badHdr x
        saidHdr := setDel s.mem.saidHdr x } }
    else s
  | .tag x =>
    s.containDevice { ErrRec.none with
      addr := BitVec.ofNat 64 (1024 * x)
      cls := 0x2F
      phys := true
      lcyc := s.lcyc 10 (sliceOf x)
      acls := 10
      agent := sliceOf x
      detail := sliceOf x }
  | .scratchWord k o => s.updGroup k (fun g => if o < g.spg * 65536 then { g with scratchBad := setIns g.scratchBad (o / 8) } else g)
  | .vreg k w t n => s.updThread k w t (fun th => th.setReg n (th.reg n).spoil)
  | .wreg k w n => s.updWarp k w (fun x => x.setReg n (x.reg n).spoil)
  | .pred k w t n => s.updThread k w t (fun th => if n < 7 then th.setPred n (th.pred n) true else th)
  | .queueEntry k w t port i => s.updThread k w t (fun th => { th with q := sset [] th.q port ((sget [] th.q port).modify i Reg.spoil) })
  | .branchEntry k w t i => s.updThread k w t (fun th => { th with br := th.br.modify i (fun b => (b.1, true)) })
  | .accEl k i => s.updGroup k (fun g => { g with acc := sset AccEl.unwritten g.acc i { sget AccEl.unwritten g.acc i with bad := true } })
  | .genKey k => s.updGroup k (fun g => { g with keyBad := true })
  | .genStream k => s.updGroup k (fun g => { g with streamBad := true })
  | .slotGen k slot => s.updGroup k (fun g => { g with ops := mapIf (fun o => o.slot = slot) (fun o => { o with badGen := true }) g.ops })
  | .areaWrite ctx pa => s.areaError ctx pa
  | .storedFrame port i => s.updPort port (fun p => { p with store := p.store.modify i (fun f => { f with bad := true }) })

/-! ### Places in line that nobody claims any more (R79, R144) -/

/-- The event that a place in line belongs to can still come: its walk, context, packet, program, command, operation, path, record or
port is there and not stopped. -/
def State.claims (s : State) (key : Nat × Nat) : Bool :=
  let works := fun (g : Nat) => match s.group? g with | some g => s.working g | none => false
  let n := key.2
  match key.1 with
  | 0 => s.mem.walks.any (fun w => w.id = n)
  | 1 => match s.ctx? n with | some c => !c.requests.isEmpty | none => false
  | 2 => s.net.arrived.any (fun a => a.i = n)
  | 3 => s.seqs.any (fun (q : Nat × Seq) => q.1 = n && s.runs q.2.ctx)
  | 4 => s.copies.any (fun k => k.id = n && (s.cmdLives k || s.cmdPauses k))
  | 5 => s.groups.any (fun g => s.working g && g.ops.any (fun o => o.stamp = n))
  | 6 => s.kops.any (fun o => o.id = n)
  | 7 => !s.dev.inbox.isEmpty
  | 8 =>
    works (n / 2 / 64 / 64) && match s.warp? (n / 2 / 64 / 64) (n / 2 / 64 % 64) with
      | some w => w.paths.any (fun p => maskLow p.tmask = n / 2 % 64 && p.access.toNat = n % 2)
      | none => false
  | 9 => works (n / 32 / 64)
  | 10 => s.slotFree (n / 4) (n % 4) && (s.nextTask (n / 4)).isSome
  | 11 => (s.port n).mode ≠ 0
  | _ => true

/-- Places in line that nobody claims are given up. -/
def State.tidy (s : State) : State :=
  { s with mem := { s.mem with reqs := s.mem.reqs.filter (fun r => match r.eng with | some k => s.claims k | none => true) } }

/-! ### A request that arrives later (R144) -/

/-- An access of the request's threads that comes after its own touches bytes that it touches: the request does not arrive later than
that (R167, R171). -/
def State.followed (s : State) (r : Req) (o : MemOp) : Bool :=
  let mine := o.parts.filter (fun p => p.pa / 1024 = r.sector)
  s.mem.ops.any (fun q => decide (o.id < q.id) && q.g = o.g && q.w = o.w && q.tmask &&& o.tmask != 0 &&
    q.parts.any (fun b => mine.any (fun a => decide (a.pa < b.pa + q.size) && decide (b.pa < a.pa + o.size))))

/-- A request of a memory instruction arrives at its slice later than others do (R144; log 1). -/
def State.lateTurn (s : State) (req : Nat) : Result :=
  match s.mem.reqs.find? (fun r => r.id = req) with
  | none => notNow s
  | some r =>
    match r.op.bind (fun id => s.mem.ops.find? (fun o => o.id = id)) with
    | none => notNow s
    | some o =>
      if r.turned || s.followed r o then notNow s
      else
        let (s, id) := s.fresh
        let late : Req := { r with
          id := id
          arrived := s.coreClock }
        .next { s with mem := { s.mem with reqs := s.mem.reqs.filter (fun q => q.id ≠ req) ++ [late] } }

/-! ### A fabric event (R390) -/

/-- The fabric raises a spark; the spec does not say at which of its events (log 52). -/
def State.fabricSpark (s : State) : State := (s.spark 4 0).1

end Sys2Proof.Machine
end

