-- ==== Sys2Proof/Machine/Dispatch.lean ====
section
/-! DEFINITION. Dispatch.lean: one arm per constructor of Instr. -/

namespace Sys2Proof.Machine

/-- The meaning of each step. -/
def exec (i : Instr) (s : State) : Host.Outcome State Fault Refusal :=
  match i with
  | .nop x => Sys2Proof.Machine.execNop x s
  | .bra x => Sys2Proof.Machine.execBra x s
  | .brx x => Sys2Proof.Machine.execBrx x s
  | .brq x => Sys2Proof.Machine.execBrq x s
  | .call x => Sys2Proof.Machine.execCall x s
  | .ret x => Sys2Proof.Machine.execRet x s
  | .skip x => Sys2Proof.Machine.execSkip x s
  | .exit x => Sys2Proof.Machine.execExit x s
  | .yield x => Sys2Proof.Machine.execYield x s
  | .sign x => Sys2Proof.Machine.execSign x s
  | .cvset x => Sys2Proof.Machine.execCvset x s
  | .prio x => Sys2Proof.Machine.execPrio x s
  | .mov x => Sys2Proof.Machine.execMov x s
  | .sel x => Sys2Proof.Machine.execSel x s
  | .iadd x => Sys2Proof.Machine.execIadd x s
  | .isub x => Sys2Proof.Machine.execIsub x s
  | .imul x => Sys2Proof.Machine.execImul x s
  | .imulh x => Sys2Proof.Machine.execImulh x s
  | .imad x => Sys2Proof.Machine.execImad x s
  | .imin x => Sys2Proof.Machine.execImin x s
  | .imax x => Sys2Proof.Machine.execImax x s
  | .iabs x => Sys2Proof.Machine.execIabs x s
  | .and x => Sys2Proof.Machine.execAnd x s
  | .or x => Sys2Proof.Machine.execOr x s
  | .xor x => Sys2Proof.Machine.execXor x s
  | .shl x => Sys2Proof.Machine.execShl x s
  | .shr x => Sys2Proof.Machine.execShr x s
  | .sar x => Sys2Proof.Machine.execSar x s
  | .popc x => Sys2Proof.Machine.execPopc x s
  | .clz x => Sys2Proof.Machine.execClz x s
  | .brev x => Sys2Proof.Machine.execBrev x s
  | .bfe x => Sys2Proof.Machine.execBfe x s
  | .bfi x => Sys2Proof.Machine.execBfi x s
  | .icmp x => Sys2Proof.Machine.execIcmp x s
  | .lea x => Sys2Proof.Machine.execLea x s
  | .fadd x => Sys2Proof.Machine.execFadd x s
  | .fsub x => Sys2Proof.Machine.execFsub x s
  | .fmul x => Sys2Proof.Machine.execFmul x s
  | .fma x => Sys2Proof.Machine.execFma x s
  | .fmin x => Sys2Proof.Machine.execFmin x s
  | .fmax x => Sys2Proof.Machine.execFmax x s
  | .fcmp x => Sys2Proof.Machine.execFcmp x s
  | .frnd x => Sys2Proof.Machine.execFrnd x s
  | .dadd x => Sys2Proof.Machine.execDadd x s
  | .dsub x => Sys2Proof.Machine.execDsub x s
  | .dmul x => Sys2Proof.Machine.execDmul x s
  | .dfma x => Sys2Proof.Machine.execDfma x s
  | .dmin x => Sys2Proof.Machine.execDmin x s
  | .dmax x => Sys2Proof.Machine.execDmax x s
  | .dcmp x => Sys2Proof.Machine.execDcmp x s
  | .hadd2 x => Sys2Proof.Machine.execHadd2 x s
  | .hsub2 x => Sys2Proof.Machine.execHsub2 x s
  | .hmul2 x => Sys2Proof.Machine.execHmul2 x s
  | .hfma2 x => Sys2Proof.Machine.execHfma2 x s
  | .hmin2 x => Sys2Proof.Machine.execHmin2 x s
  | .hmax2 x => Sys2Proof.Machine.execHmax2 x s
  | .hcmp2 x => Sys2Proof.Machine.execHcmp2 x s
  | .exp2 x => Sys2Proof.Machine.execExp2 x s
  | .log2 x => Sys2Proof.Machine.execLog2 x s
  | .rcp x => Sys2Proof.Machine.execRcp x s
  | .rsq x => Sys2Proof.Machine.execRsq x s
  | .sqrt x => Sys2Proof.Machine.execSqrt x s
  | .tanh x => Sys2Proof.Machine.execTanh x s
  | .pair x => Sys2Proof.Machine.execPair x s
  | .cvt x => Sys2Proof.Machine.execCvt x s
  | .cvtF8 x => Sys2Proof.Machine.execCvtF8 x s
  | .cvtF6 x => Sys2Proof.Machine.execCvtF6 x s
  | .cvtF4 x => Sys2Proof.Machine.execCvtF4 x s
  | .mxqScale x => Sys2Proof.Machine.execMxqScale x s
  | .mxq x => Sys2Proof.Machine.execMxq x s
  | .mxd x => Sys2Proof.Machine.execMxd x s
  | .unpk x => Sys2Proof.Machine.execUnpk x s
  | .pack x => Sys2Proof.Machine.execPack x s
  | .qx x => Sys2Proof.Machine.execQx x s
  | .perm x => Sys2Proof.Machine.execPerm x s
  | .ptld x => Sys2Proof.Machine.execPtld x s
  | .vote x => Sys2Proof.Machine.execVote x s
  | .wsum x => Sys2Proof.Machine.execWsum x s
  | .wmax x => Sys2Proof.Machine.execWmax x s
  | .wscan x => Sys2Proof.Machine.execWscan x s
  | .ldG x => Sys2Proof.Machine.execLdG x s
  | .ldS x => Sys2Proof.Machine.execLdS x s
  | .stG x => Sys2Proof.Machine.execStG x s
  | .stS x => Sys2Proof.Machine.execStS x s
  | .pref x => Sys2Proof.Machine.execPref x s
  | .llcLock x => Sys2Proof.Machine.execLlcLock x s
  | .llcUnlock x => Sys2Proof.Machine.execLlcUnlock x s
  | .llcUnlockAll x => Sys2Proof.Machine.execLlcUnlockAll x s
  | .fence x => Sys2Proof.Machine.execFence x s
  | .atomG x => Sys2Proof.Machine.execAtomG x s
  | .atomS x => Sys2Proof.Machine.execAtomS x s
  | .atomCasG x => Sys2Proof.Machine.execAtomCasG x s
  | .atomCasS x => Sys2Proof.Machine.execAtomCasS x s
  | .atomCas64G x => Sys2Proof.Machine.execAtomCas64G x s
  | .atomCas64S x => Sys2Proof.Machine.execAtomCas64S x s
  | .ctrInit x => Sys2Proof.Machine.execCtrInit x s
  | .ctrAdd x => Sys2Proof.Machine.execCtrAdd x s
  | .ctrMax x => Sys2Proof.Machine.execCtrMax x s
  | .ctrWait x => Sys2Proof.Machine.execCtrWait x s
  | .ctrRd x => Sys2Proof.Machine.execCtrRd x s
  | .qcfg x => Sys2Proof.Machine.execQcfg x s
  | .copyLd x => Sys2Proof.Machine.execCopyLd x s
  | .copySt x => Sys2Proof.Machine.execCopySt x s
  | .copyCp x => Sys2Proof.Machine.execCopyCp x s
  | .tcfg x => Sys2Proof.Machine.execTcfg x s
  | .tcfgFree x => Sys2Proof.Machine.execTcfgFree x s
  | .tzero x => Sys2Proof.Machine.execTzero x s
  | .mma x => Sys2Proof.Machine.execMma x s
  | .mmd x => Sys2Proof.Machine.execMmd x s
  | .twrr x => Sys2Proof.Machine.execTwrr x s
  | .twrc x => Sys2Proof.Machine.execTwrc x s
  | .trdr x => Sys2Proof.Machine.execTrdr x s
  | .trdc x => Sys2Proof.Machine.execTrdc x s
  | .tld x => Sys2Proof.Machine.execTld x s
  | .tst x => Sys2Proof.Machine.execTst x s
  | .tepi x => Sys2Proof.Machine.execTepi x s
  | .seed x => Sys2Proof.Machine.execSeed x s
  | .seedS x => Sys2Proof.Machine.execSeedS x s
  | .adamw x => Sys2Proof.Machine.execAdamw x s
  | .kstep x => Sys2Proof.Machine.execKstep x s
  | .ksig x => Sys2Proof.Machine.execKsig x s
  | .ktest x => Sys2Proof.Machine.execKtest x s
  | .kreuse x => Sys2Proof.Machine.execKreuse x s
  | .kmap x => Sys2Proof.Machine.execKmap x s
  | .kmapSrc x => Sys2Proof.Machine.execKmapSrc x s
  | .kend x => Sys2Proof.Machine.execKend x s
  | .launch x => Sys2Proof.Machine.execLaunch x s
  | .taskRange x => Sys2Proof.Machine.execTaskRange x s
  | .taskNext x => Sys2Proof.Machine.execTaskNext x s
  | .taskGet x => Sys2Proof.Machine.execTaskGet x s
  | .taskDone x => Sys2Proof.Machine.execTaskDone x s
  | .kindle x => Sys2Proof.Machine.execKindle x s
  | .svc x => Sys2Proof.Machine.execSvc x s
  | .svcWait x => Sys2Proof.Machine.execSvcWait x s
  | .trap x => Sys2Proof.Machine.execTrap x s
  | .eret x => Sys2Proof.Machine.execEret x s
  | .bkpt x => Sys2Proof.Machine.execBkpt x s
  | .srd x => Sys2Proof.Machine.execSrd x s
  | .swr x => Sys2Proof.Machine.execSwr x s
  | .preempt x => Sys2Proof.Machine.execPreempt x s
  | .preemptRes x => Sys2Proof.Machine.execPreemptRes x s
  | .spark x => Sys2Proof.Machine.execSpark x s
  | .watch x => Sys2Proof.Machine.execWatch x s
  | .tlbinvPage x => Sys2Proof.Machine.execTlbinvPage x s
  | .tlbinvContext x => Sys2Proof.Machine.execTlbinvContext x s
  | .tlbinvAll x => Sys2Proof.Machine.execTlbinvAll x s
  | .tlbinvComplete id => Sys2Proof.Machine.execTlbinvComplete id s
  | .svcqRingReset x => Sys2Proof.Machine.execSvcqRingReset x s
  | .svcdoneReply x => Sys2Proof.Machine.execSvcdoneReply x s
  | .spillReplay x => Sys2Proof.Machine.execSpillReplay x s
  | .spillAbort x => Sys2Proof.Machine.execSpillAbort x s
  | .sequencerResume x => Sys2Proof.Machine.execSequencerResume x s
  | .sequencerAbort x => Sys2Proof.Machine.execSequencerAbort x s
  | .wpsClear x => Sys2Proof.Machine.execWpsClear x s
  | .movi x => Sys2Proof.Machine.execMovi x s
  | .addi x => Sys2Proof.Machine.execAddi x s
  | .zfAdd x => Sys2Proof.Machine.execZfAdd x s
  | .zfSub x => Sys2Proof.Machine.execZfSub x s
  | .beq x => Sys2Proof.Machine.execBeq x s
  | .bne x => Sys2Proof.Machine.execBne x s
  | .zfBra imm => Sys2Proof.Machine.execZfBra imm s
  | .xsend x => Sys2Proof.Machine.execXsend x s
  | .xrecv x => Sys2Proof.Machine.execXrecv x s
  | .xred x => Sys2Proof.Machine.execXred x s
  | .xfwd x => Sys2Proof.Machine.execXfwd x s
  | .cwait x => Sys2Proof.Machine.execCwait x s
  | .cadv x => Sys2Proof.Machine.execCadv x s
  | .cadvRmt x => Sys2Proof.Machine.execCadvRmt x s
  | .cadd x => Sys2Proof.Machine.execCadd x s
  | .embBind x => Sys2Proof.Machine.execEmbBind x s
  | .embFold x => Sys2Proof.Machine.execEmbFold x s
  | .zfDone => Sys2Proof.Machine.execZfDone s
  | .image x => Sys2Proof.Machine.execImage x s
  | .memwr x => Sys2Proof.Machine.execMemwr x s
  | .memrd x => Sys2Proof.Machine.execMemrd x s
  | .ctrmax x => Sys2Proof.Machine.execCtrmax x s
  | .ctxnew x => Sys2Proof.Machine.execCtxnew x s
  | .rootgo x => Sys2Proof.Machine.execRootgo x s
  | .seqgo x => Sys2Proof.Machine.execSeqgo x s
  | .portcfg x => Sys2Proof.Machine.execPortcfg x s
  | .keyload x => Sys2Proof.Machine.execKeyload x s
  | .snaprd x => Sys2Proof.Machine.execSnaprd x s
  | .akoonSpark x => Sys2Proof.Machine.execAkoonSpark x s
  | .power x => Sys2Proof.Machine.execPower x s
  | .resetDevice h => Sys2Proof.Machine.execResetDevice h s
  | .resetContext x => Sys2Proof.Machine.execResetContext x s
  | .akoonUnknownCommand h code => Sys2Proof.Machine.execAkoonUnknownCommand h code s
  | .powerUp => Sys2Proof.Machine.execPowerUp s
  | .launchAdmission ctx launch => Sys2Proof.Machine.execLaunchAdmission ctx launch s
  | .generationIssue r => Sys2Proof.Machine.execGenerationIssue r s
  | .pathDue r => Sys2Proof.Machine.execPathDue r s
  | .counterWaitComplete r => Sys2Proof.Machine.execCounterWaitComplete r s
  | .queueWaitComplete r => Sys2Proof.Machine.execQueueWaitComplete r s
  | .serviceReplyComplete r => Sys2Proof.Machine.execServiceReplyComplete r s
  | .serviceSlotFree r => Sys2Proof.Machine.execServiceSlotFree r s
  | .starvationExpiry r => Sys2Proof.Machine.execStarvationExpiry r s
  | .kindlingDispatch core slot => Sys2Proof.Machine.execKindlingDispatch core slot s
  | .workerAdmission core slot => Sys2Proof.Machine.execWorkerAdmission core slot s
  | .contextSave ctx => Sys2Proof.Machine.execContextSave ctx s
  | .contextResume ctx => Sys2Proof.Machine.execContextResume ctx s
  | .loadValueReturn op => Sys2Proof.Machine.execLoadValueReturn op s
  | .pageWalkComplete walk => Sys2Proof.Machine.execPageWalkComplete walk s
  | .llcRequestServe sector => Sys2Proof.Machine.execLlcRequestServe sector s
  | .orientationTurnComplete sector => Sys2Proof.Machine.execOrientationTurnComplete sector s
  | .sectorEviction sector => Sys2Proof.Machine.execSectorEviction sector s
  | .class3Aging sector req => Sys2Proof.Machine.execClass3Aging sector req s
  | .hostFillComplete fill answer => Sys2Proof.Machine.execHostFillComplete fill answer s
  | .hostFillTimeout fill => Sys2Proof.Machine.execHostFillTimeout fill s
  | .wbStallRetry id => Sys2Proof.Machine.execWbStallRetry id s
  | .ownershipRecallComplete cmd line => Sys2Proof.Machine.execOwnershipRecallComplete cmd line s
  | .ownershipWindow cmd => Sys2Proof.Machine.execOwnershipWindow cmd s
  | .copyCommandAccept r => Sys2Proof.Machine.execCopyCommandAccept r s
  | .copyComplete cmd => Sys2Proof.Machine.execCopyComplete cmd s
  | .matrixOpComplete g slot => Sys2Proof.Machine.execMatrixOpComplete g slot s
  | .tileTransferComplete g slot => Sys2Proof.Machine.execTileTransferComplete g slot s
  | .governorWindow core => Sys2Proof.Machine.execGovernorWindow core s
  | .dieBudgetWindow die => Sys2Proof.Machine.execDieBudgetWindow die s
  | .kilnOperation die => Sys2Proof.Machine.execKilnOperation die s
  | .kendComplete die => Sys2Proof.Machine.execKendComplete die s
  | .frameSend port => Sys2Proof.Machine.execFrameSend port s
  | .frameReceive port f => Sys2Proof.Machine.execFrameReceive port f s
  | .linkAckSend port => Sys2Proof.Machine.execLinkAckSend port s
  | .linkAckReceive port n => Sys2Proof.Machine.execLinkAckReceive port n s
  | .linkNackReceive port n => Sys2Proof.Machine.execLinkNackReceive port n s
  | .retryTimeout port => Sys2Proof.Machine.execRetryTimeout port s
  | .replayDone port => Sys2Proof.Machine.execReplayDone port s
  | .keyRollover port => Sys2Proof.Machine.execKeyRollover port s
  | .keyloadApply port => Sys2Proof.Machine.execKeyloadApply port s
  | .portMode0Drain port => Sys2Proof.Machine.execPortMode0Drain port s
  | .laneLockLoss port lanes => Sys2Proof.Machine.execLaneLockLoss port lanes s
  | .retrainComplete port => Sys2Proof.Machine.execRetrainComplete port s
  | .retrainTimeout port => Sys2Proof.Machine.execRetrainTimeout port s
  | .putPacketReceive k => Sys2Proof.Machine.execPutPacketReceive k s
  | .getRequestReceive k => Sys2Proof.Machine.execGetRequestReceive k s
  | .getReplyReceive k => Sys2Proof.Machine.execGetReplyReceive k s
  | .remoteAdvanceReceive k => Sys2Proof.Machine.execRemoteAdvanceReceive k s
  | .transportAckReceive pdc psn => Sys2Proof.Machine.execTransportAckReceive pdc psn s
  | .transportNackReceive pdc psn kind => Sys2Proof.Machine.execTransportNackReceive pdc psn kind s
  | .transportResendTimeout pdc psn => Sys2Proof.Machine.execTransportResendTimeout pdc psn s
  | .remoteAdvanceSend id => Sys2Proof.Machine.execRemoteAdvanceSend id s
  | .cwaitComplete seq => Sys2Proof.Machine.execCwaitComplete seq s
  | .sequencerWaitExpiry seq => Sys2Proof.Machine.execSequencerWaitExpiry seq s
  | .coreControlError core unit => Sys2Proof.Machine.execCoreControlError core unit s
  | .tileControlError core unit table => Sys2Proof.Machine.execTileControlError core unit table s
  | .notAnInstruction cond => Sys2Proof.Machine.execNotAnInstruction cond s
  | .fetchFault detail addr => Sys2Proof.Machine.execFetchFault detail addr s
  | .zfOpcodeNotAllocated word => Sys2Proof.Machine.execZfOpcodeNotAllocated word s
  | .zfWordNotFetched => Sys2Proof.Machine.execZfWordNotFetched s
  | .creditGrant port control units => Sys2Proof.Machine.execCreditGrant port control units s
  | .hostWriteAnswer write ok => Sys2Proof.Machine.execHostWriteAnswer write ok s
  | .hostWriteTimeout write => Sys2Proof.Machine.execHostWriteTimeout write s

end Sys2Proof.Machine
end

