-- ==== Sys2Proof/Machine/Step.lean ====
section
/-! DEFINITION. Step.lean: what happens next (R35 to R38, R53, R73, R74, R371, R389), fetching, cycles, and `step`. -/

namespace Sys2Proof.Machine

/-! ### Fetching (R38, R53, R189 to R191, R453) -/

/-- What a path finds at its program counter: a step for its own stream, or a word of the other stream. -/
inductive Fetched
  | run (i : Instr) (size : Nat)
  | other (size : Nat)
deriving DecidableEq, Repr

/-- One word for a path, with the translation used; else DETAIL and ADDR of R453. -/
def State.fetchWord (s : State) (c : Ctx) (via : Option TlbPlace) (va : Nat) : Except (Nat × Nat) (TlbEntry × W64) :=
  match s.translate c va via with
  | .error (.invalid level) => .error (level * 2, va)
  | .error (.malformed level kind _) => .error (level * 2 + 8 + kind * 16, va)
  | .ok e =>
    if attrX e.attr then .ok (e, BitVec.ofNat 64 (s.mem.nat (e.pa va) 8))
    else .error (1 + (if e.size = 65536 then 4 else 2), va)

/-- The stream of a word (R53, R198): the access bit, when the frame has one and both halves of a pair agree. -/
def streamOf (w : W64) : Option Bool :=
  match bits w.toNat 63 62 with
  | 0 | 2 => some (w.getLsbD 5)
  | 1 => if w.getLsbD 3 = w.getLsbD 34 then some (w.getLsbD 3) else none
  | _ => none

/-- The step that a word with the word after it stands for. -/
def readWord (dae access : Bool) (w lit : W64) : Fetched :=
  if dae && streamOf w = some (!access) then .other (wordSize w)
  else match decodeWord w lit with
    | .ok i => .run i (wordSize w)
    | .error e => .run (.notAnInstruction (Fin.ofNat 16 e.number)) (wordSize w)

/-- FETCH at a path's program counter. -/
def State.fetch (s : State) (g : Group) (c : Ctx) (p : Path) : State × Fetched :=
  let pc := p.pc.toNat
  match s.fetchWord c g.via pc with
  | .error (detail, addr) => (s, .run (.fetchFault detail (BitVec.ofNat 64 addr)) 8)
  | .ok (e, w) =>
    let s : State := { s with mem := s.mem.hold g.via e }
    if wordSize w = 16 then
      match s.fetchWord c g.via (pc + 8) with
      | .error (detail, addr) => (s, .run (.fetchFault detail (BitVec.ofNat 64 addr)) 8)
      | .ok (e', lit) => ({ s with mem := s.mem.hold g.via e' }, readWord g.dae p.access w lit)
    else (s, readWord g.dae p.access w 0)

/-- A write of a system register that has a row of its own is run as that row (R153, R330, R333, R337, R464, R502). -/
def State.rowOf (s : State) (i : Instr) : Instr :=
  match i, s.iss? with
  | .swr o, some x =>
    let n := o.sreg.toNat
    let ts := (maskList (x.taking o.h)).take 1
    let src : Src := { field := 2, op := o.a, n := 2, uni := true }
    let v : W64 := BitVec.ofNat 64 (regsNat (((s.readSrc x o.h src ts).2).headD []))
    let ctx := x.target (ts.headD 0)
    if n = 0x021 then match v.toNat % 4 with
      | 0 => .tlbinvPage o
      | 1 => .tlbinvContext o
      | _ => .tlbinvAll o
    else if n = 0x050 || n = 0x051 then .svcqRingReset o
    else if n = 0x056 then
      if !(s.cmdsOf ctx (doneTicket v)).isEmpty then (if v.getLsbD 32 then .spillAbort o else .spillReplay o)
      else if !(s.seqsAt ctx (doneTicket v)).isEmpty then (if v.getLsbD 32 then .sequencerAbort o else .sequencerResume o)
      else .svcdoneReply o
    else if 0x070 ≤ n && n ≤ 0x077 then .wpsClear o
    else .swr o
  | i, _ => i

/-! ### Paths that may issue -/

/-- Nothing of the path's threads is in the way of an issue: a page walk, a stalled write, an invalidation, an operation that
may still trap, a thread that waits at EXIT for its other stream (R57, R157, R153, R341, R449, R458). -/
def State.clear (s : State) (k w : Nat) (x : Warp) (p : Path) : Bool :=
  let hits := fun (m : W64) => m &&& p.tmask != 0
  !(s.mem.walks.any (fun q => q.g = k && q.w = w && q.access = p.access && hits q.tmask)) &&
  !(s.mem.stalls.any (fun q => match q.by_ with
    | .thread g' w' access _ m => g' = k && w' = w && access = p.access && hits m
    | _ => false)) &&
  !(s.mem.invals.any (fun q => q.g = k && q.w = w && q.access = p.access && hits q.tmask)) &&
  !(s.mem.ops.any (fun o => o.g = k && o.w = w && o.access = p.access && hits o.tmask &&
    (o.kind = .ctrAdd || o.parts.any (fun q => q.hit.isSome || s.watched o.kind.reads o.kind.writes q.pa o.size)))) &&
  !(x.parkedPath p)

/-- The warps of a lane, with their group. -/
def State.laneWarps (s : State) (core lane : Nat) : List (Group × Nat × Warp) :=
  (s.groups.filter (fun g => g.core = core)).flatMap (fun g =>
    (g.warps.zipIdx.filter (fun (x : Warp × Nat) => x.1.lane = lane)).map (fun (x : Warp × Nat) => (g, x.2, x.1)))

/-- The lane is free (R25). -/
def State.laneFree (s : State) (core lane : Nat) : Bool := (s.laneWarps core lane).all (fun x => x.2.2.occ = 0)

/-- A path may issue now: its group works, it is ready, its lane is free and nothing is in its way. -/
def State.mayIssue (s : State) (r : PathRef) : Bool :=
  match s.group? r.g with
  | none => false
  | some g =>
    match g.warps[r.w]? with
    | none => false
    | some x =>
      match x.paths[r.p]? with
      | none => false
      | some p => s.working g && p.st = .ready && p.wait.isNone && s.laneFree g.core x.lane && s.clear g.key r.w x p

/-! ### The choice of a lane (R73, R226) -/

/-- A path as the choice sees it. -/
structure Cand where
  r : PathRef
  slot : Nat
  due : Bool
  yielded : Bool
  band : Nat
  prio : Nat
  age : Nat
  low : Nat
  access : Bool
deriving DecidableEq, Repr

def State.cand (s : State) (g : Group) (w : Nat) (x : Warp) (p : Path) (n : Nat) : Cand :=
  let limit := match s.ctx? g.ctx with | some c => c.ageLim.getD g.band 4096 | none => 4096
  { r := ⟨g.key, w, n⟩, slot := x.slot, due := limit ≤ p.age, yielded := p.yielded, band := g.band, prio := g.prio, age := p.age,
    low := maskLow p.tmask, access := p.access }

/-- a is chosen before b: ties go to the lower warp slot of the lane, then to the lower position, then to the access stream. -/
def Cand.first (a b : Cand) : Bool :=
  let tie := a.slot < b.slot || (a.slot = b.slot && (a.low < b.low || (a.low = b.low && (a.access || !b.access))))
  if a.due != b.due then a.due
  else if a.due then b.age < a.age || (a.age = b.age && tie)
  else if a.yielded != b.yielded then b.yielded
  else if a.band ≠ b.band then b.band < a.band
  else if a.prio ≠ b.prio then b.prio < a.prio
  else b.age < a.age || (a.age = b.age && tie)

def insCand (c : Cand) : List Cand → List Cand
  | [] => [c]
  | d :: ds => if d.first c then d :: insCand c ds else c :: d :: ds

/-- The paths of a lane that may issue, in the order of choice. -/
def State.choices (s : State) (core lane : Nat) : List PathRef :=
  let l := (s.laneWarps core lane).flatMap (fun (g, w, x) =>
    (x.paths.zipIdx.filter (fun (q : Path × Nat) => s.mayIssue ⟨g.key, w, q.2⟩)).map (fun (q : Path × Nat) => s.cand g w x q.1 q.2))
  (l.foldl (fun acc c => insCand c acc) []).map (·.r)

/-! ### Issuing -/

/-- The mark of a put-off issue, the issuer, and what the event reached are gone between steps. -/
def State.close (s : State) : State :=
  { s with
    cur := none
    held := false
    mem := { s.mem with
      touched := []
      misses := [] } }

def closed : Result → Result
  | .next t => .next t.close
  | r => r

/-- ISSUE A PATH: what stands at its program counter is run; a word of the other stream is passed over. -/
def State.issuePath (s : State) (r : PathRef) : Result :=
  match s.group? r.g, s.path? r with
  | some g, some p =>
    match s.ctx? g.ctx with
    | none => notNow s
    | some c =>
      match s.fetch g c p with
      | (s, .other size) => .next ((s.updPath r (fun p => { p with pc := p.pc + BitVec.ofNat 64 size })).settle r.g r.w)
      | (s, .run i size) =>
        let s : State := { (s.updPath r (fun p => p.trim size)) with cur := some (.path r size), held := false }
        exec (s.rowOf i) (s.count 0 g.core 0 1)
  | _, _ => notNow s

/-- The first of the paths whose issue is not put off. -/
def State.issueFirst (s : State) : List PathRef → Result
  | [] => notNow s
  | r :: rs =>
    match s.issuePath r with
    | .next t => if t.held then s.issueFirst rs else .next t.close
    | other => other

/-- The yield marks of a lane end with its choice (R226), and no instruction of an earlier choice occupies it any more (R74). -/
def State.clearLane (s : State) (core lane : Nat) : State :=
  { s with groups := mapIf (fun g => g.core = core) (fun g => { g with
      warps := mapIf (fun w => w.lane = lane) (fun w => { w with paths := w.paths.map (fun p => { p with
        yielded := false
        own := false }) }) g.warps }) s.groups }

/-- AN ISSUE SLOT OF A LANE. -/
def State.laneTurn (s : State) (core lane : Nat) : Result := (s.clearLane core lane).issueFirst (s.choices core lane)

/-! ### Sequencers (R370, R371, R503) -/

/-- A sequencer context may issue. -/
def State.seqReady (s : State) (n : Nat) : Bool :=
  match s.seqs.find? (fun (q : Nat × Seq) => q.1 = n) with
  | none => false
  | some (_, q) => q.stopped.isNone && q.wait.isNone && match s.ctx? q.ctx with | some c => decide (c.run = .running) | none => false

/-- The word at a sequencer's program counter. -/
def State.fetchZf (s : State) (c : Ctx) (va : Nat) : Option W32 :=
  match s.translate c va with
  | .error _ => none
  | .ok e => some (BitVec.ofNat 32 (s.mem.nat (e.pa va) 4))

/-- ISSUE A SEQUENCER CONTEXT. -/
def State.issueSeq (s : State) (n : Nat) : Result :=
  match s.seqs.find? (fun (q : Nat × Seq) => q.1 = n) with
  | none => notNow s
  | some (_, q) =>
    match s.ctx? q.ctx with
    | none => notNow s
    | some c =>
      let s : State := { s with cur := some (.seq n), held := false, seqLast := sset 7 s.seqLast (n / 8) (n % 8) }
      match s.fetchZf c q.pc.toNat with
      | none => exec .zfWordNotFetched s
      | some w =>
        match decodeZf w with
        | .ok i => exec i s
        | .error _ => exec (.zfOpcodeNotAllocated w) s

/-- The first of the contexts whose issue is not put off. -/
def State.issueSeqs (s : State) : List Nat → Result
  | [] => notNow s
  | n :: ns =>
    match s.issueSeq n with
    | .next t => if t.held then s.issueSeqs ns else .next t.close
    | other => other

/-- AN ISSUE SLOT OF A SEQUENCER: its ready contexts in round-robin order. -/
def State.seqTurn (s : State) (k : Nat) : Result :=
  let last := sget 7 s.seqLast k
  s.issueSeqs (((List.range 8).map (fun i => 8 * k + (last + 1 + i) % 8)).filter s.seqReady)

/-! ### Cycles (R25, R74, R78, R389) -/

/-- A path after a cycle: a ready one ages while it is not issuing, and keeps its AGE while its own instruction occupies the lane; a
waiting one runs its timer, but not while its generation stands at a page at WB (R157). -/
def Path.cycle (p : Path) (busy stalled : Bool) : Path :=
  match p.st with
  | .ready =>
    if p.own && busy then p
    else { p with
      age := min 65536 (p.age + 1)
      own := false }
  | _ => { p with timer := if stalled then 0 else p.timer + 1 }

/-- The path's generation stands at a page at WB. -/
def Group.stalledPath (g : Group) (w : Nat) (p : Path) : Bool :=
  (p.st = .signed || (p.st = .serviceWait && p.wait.isNone)) && (g.conv p.cvi w).stalled

def Group.cycleWarp (g : Group) (x : Warp) (w : Nat) : Warp :=
  { x with
    occ := x.occ - 1
    paths := x.paths.map (fun p => p.cycle (0 < x.occ) (g.stalledPath w p)) }

def SectorTag.cycle (t : SectorTag) : SectorTag := { t with turn := t.turn - 1 }

/-- A CYCLE OF THE CORE CLOCK: gangs that stop are gone, lanes go on with what occupies them, ages and timers run. -/
def State.coreCycle (s : State) : State :=
  let s := s.finishStops.tidy
  { s with
    coreClock := s.coreClock + 1
    groups := mapIf s.working (fun g => { g with warps := g.warps.zipIdx.map (fun (x : Warp × Nat) => g.cycleWarp x.1 x.2) }) s.groups
    mem := { s.mem with
      llc := s.mem.llc.map (fun (t : Nat × SectorTag) => (t.1, t.2.cycle))
      fills := s.mem.fills.map (fun f => { f with age := f.age + 1 })
      hwrites := s.mem.hwrites.map (fun w => { w with age := w.age + 1 }) } }

/-- A port after a cycle of the fabric clock (R350, R491). -/
def Port.cycle (p : Port) : Port :=
  { p with
    timer := if p.up && !p.store.isEmpty then p.timer + 1 else p.timer
    ackAge := if p.ackDue.isSome then p.ackAge + 1 else p.ackAge
    retrain := p.retrain.map (· + 1) }

/-- A frame is ready and only credits are missing (R391). -/
def Port.starved (p : Port) : Bool := p.maySend && p.nextPacket.isNone && !(p.ctlQ.isEmpty && p.datQ.isEmpty)

/-- A CYCLE OF THE FABRIC CLOCK: an acknowledgement that has been due for 2,048 cycles is sent (R350). -/
def State.fabricCycle (s : State) : State :=
  let hungry := (s.ports.filter (fun (p : Nat × Port) => p.2.starved)).map (·.1)
  let s := hungry.foldl (fun (s : State) n => s.count 4 n 4 1) s
  let due := (s.ports.filter (fun (p : Nat × Port) => p.2.mayAck && decide (2047 ≤ p.2.ackAge))).map (·.1)
  let s := due.foldl State.sendAck s
  { s with
    fabricClock := s.fabricClock + 1
    ports := s.ports.map (fun (p : Nat × Port) => (p.1, p.2.cycle))
    seqs := s.seqs.map (fun (q : Nat × Seq) =>
      let runs := match s.ctx? q.2.ctx with | some c => decide (c.run = .running) | none => false
      (q.1, if runs && q.2.wait.isSome && q.2.stopped.isNone then { q.2 with timer := q.2.timer + 1 } else q.2))
    net := { s.net with pdcs := s.net.pdcs.map (fun d => { d with
      unacked := d.unacked.map (fun u => { u with age := u.age + 1 }) }) } }

/-- One block counts n cycles more than its domain's clock (R389). -/
def State.blockCycles (s : State) (acls block n : Nat) : State :=
  let k := acls * 2 ^ 16 + block
  { s with lead := sset 0 s.lead k (sget 0 s.lead k + n) }

/-- A TLB gives up a translation of its own accord (R152). -/
def State.tlbDrop (s : State) (place : TlbPlace) (ctx va : Nat) : State :=
  { s with mem := { s.mem with tlb := s.mem.tlb.filter (fun e => !(e.1 = place && e.2.covers ctx va)) } }

def iterate (f : State → State) : Nat → State → State
  | 0, s => s
  | n + 1, s => iterate f n (f s)

/-! ### What may happen next when the agenda names nothing (log 1) -/

/-- The positions of a path table. -/
def State.pathRefs (s : State) : List (PathRef × Path) :=
  s.groups.flatMap (fun g => g.warps.zipIdx.flatMap (fun (x : Warp × Nat) =>
    x.1.paths.zipIdx.map (fun (p : Path × Nat) => ((⟨g.key, x.2, p.2⟩ : PathRef), p.1))))

/-- The armed generations of a group. -/
def Group.gens (g : Group) : List GenRef :=
  (g.cv.filter (fun (c : Nat × Conv) => c.2.armed)).map (fun (c : Nat × Conv) => ⟨g.key, Fin.ofNat 17 c.1, 0⟩)
  ++ (g.warps.zipIdx.filter (fun (x : Warp × Nat) => x.1.cvw.armed)).map (fun (x : Warp × Nat) => ⟨g.key, 16, x.2⟩)

def State.pathEvents (s : State) : List Instr :=
  s.groups.flatMap (fun g => g.gens.flatMap (fun r => [.generationIssue r, .serviceSlotFree r]))
  ++ s.pathRefs.flatMap (fun (r, p) =>
    match p.st with
    | .counterWait => [.counterWaitComplete r, .starvationExpiry r]
    | .queueWait => [.queueWaitComplete r, .starvationExpiry r]
    | .serviceWait => [.serviceReplyComplete r, .starvationExpiry r]
    | .signed => [.starvationExpiry r]
    | .ready => if p.wait.isSome then [.copyCommandAccept r] else [])

def State.memoryEvents (s : State) : List Instr :=
  s.mem.walks.map (fun w => .pageWalkComplete w.id)
  ++ s.mem.llc.map (fun (t : Nat × SectorTag) => .orientationTurnComplete t.1)
  ++ s.mem.reqs.map (fun r => .llcRequestServe r.sector)
  ++ s.mem.ops.map (fun o => .loadValueReturn o.id)
  ++ s.mem.invals.map (fun v => .tlbinvComplete v.id)
  ++ s.mem.stalls.map (fun x => .wbStallRetry x.id)
  ++ s.mem.fills.map (fun f => .hostFillTimeout f.id)
  ++ s.mem.hwrites.map (fun w => .hostWriteTimeout w.id)

def State.engineEvents (s : State) : List Instr :=
  s.copies.flatMap (fun c => [.ownershipWindow c.id, .copyComplete c.id])
  ++ s.groups.flatMap (fun g => g.ops.flatMap (fun o => [.matrixOpComplete g.key o.slot, .tileTransferComplete g.key o.slot]))
  ++ (List.range 4).flatMap (fun d => [.kilnOperation d, .kendComplete d])
  ++ (if s.coreClock % 64 = 0 then (List.range 4).map (fun d => .dieBudgetWindow d) else [])
  ++ (if s.coreClock % 64 = 63 then (s.groups.map (fun g => g.core)).map (fun c => .governorWindow c) else [])

def State.taskEvents (s : State) : List Instr :=
  s.ctxs.flatMap (fun c => [.contextSave c.num, .contextResume c.num])
  ++ s.launches.map (fun l => .launchAdmission l.ctx l.id)
  ++ s.kindles.map (fun k => .workerAdmission k.core k.slot)
  ++ (if s.tasks.any (fun t => t.state = 1) then
        (List.range Config.cores).flatMap (fun c => (List.range 4).map (fun k => .kindlingDispatch c k))
      else [])

def State.fabricEvents (s : State) : List Instr :=
  s.net.arrived.flatMap (fun a => [.putPacketReceive a.i, .getRequestReceive a.i, .getReplyReceive a.i, .remoteAdvanceReceive a.i,
    .transportAckReceive a.packet.pdc a.packet.psn, .transportNackReceive a.packet.pdc a.packet.psn a.packet.op])
  ++ s.net.remote.map (fun o => .remoteAdvanceSend o.id)
  ++ s.ports.flatMap (fun (p : Nat × Port) => [.frameSend p.1, .linkAckSend p.1, .replayDone p.1, .retryTimeout p.1, .keyRollover p.1,
    .keyloadApply p.1, .portMode0Drain p.1, .retrainTimeout p.1])
  ++ s.net.pdcs.flatMap (fun d => d.unacked.map (fun u => .transportResendTimeout d.id u.packet.psn))
  ++ s.seqs.flatMap (fun (q : Nat × Seq) => [.cwaitComplete q.1, .sequencerWaitExpiry q.1])

/-- The lanes that host warps. -/
def State.lanes (s : State) : List (Nat × Nat) := (s.groups.flatMap (fun g => g.warps.map (fun w => (g.core, w.lane)))).eraseDups

def State.internal (s : State) : List Instr :=
  s.dev.inbox.map (·.2) ++ s.pathEvents ++ s.memoryEvents ++ s.engineEvents ++ s.taskEvents ++ s.fabricEvents

/-- All the credits that a port can grant (R352). -/
def State.credits (s : State) : List Turn :=
  s.ports.flatMap (fun (p : Nat × Port) => [.grant p.1 true (p.2.room true), .grant p.1 false (p.2.room false)])

/-- The turns that are tried in order; the clock whose time is behind ticks when nothing else can happen. -/
def State.default (s : State) : List Turn :=
  match s.phase with
  | .bringUp => [.event .powerUp]
  | .ready =>
    s.internal.map .event ++ s.credits ++ s.lanes.map (fun (l : Nat × Nat) => .lane l.1 l.2) ++ (List.range 16).map .seq
    ++ [if s.fabricClock * 19 ≤ s.coreClock * 16 then .fabricCycles 1 else .coreCycles 1]

/-- ONE TURN; one that cannot happen now leaves the state as it is, but for the mark. -/
def State.turn (s : State) : Turn → Result
  | .event i => exec i s
  | .lane core lane => s.laneTurn core lane
  | .seq k => s.seqTurn k
  | .coreCycles n => .next (iterate State.coreCycle n s)
  | .fabricCycles n => .next (iterate State.fabricCycle n s)
  | .blockCycles acls block n => .next (s.blockCycles acls block n)
  | .tlbDrop place ctx va => .next (s.tlbDrop place ctx va)
  | .l0Drop core line => .next { s with mem := { s.mem with l0 := s.mem.l0.filter (· != (core, line)) } }
  | .chunk g slot => s.chunkTurn g slot
  | .source cmd => s.sourceTurn cmd
  | .grant port control units => s.grant port control units
  | .late req => s.lateTurn req
  | .image bytes check => .next (s.takeImage bytes check)
  | .fabricEvent => .next s.fabricSpark
  | .upset u => .next (s.upset u)

/-- The first turn of a list that can happen. -/
def State.firstTurn (s : State) : List Turn → Result
  | [] => .next s
  | t :: ts =>
    match s.turn t with
    | .next u => if u.held then s.firstTurn ts else .next u
    | .fault _ => s.firstTurn ts
    | .refused r => .refused r

/-- ONE STEP: what the agenda names next, else what the state itself gives. -/
def step (s : State) : Host.Outcome State Fault Refusal :=
  match s.agenda with
  | t :: rest => closed (({ s with agenda := rest, cur := none, held := false } : State).turn t)
  | [] => closed (({ s with cur := none, held := false } : State).firstTurn s.default)

/-! ### A word as the next instruction (log 9) -/

/-- Where `withFetchWord` places a program: context, virtual address, its frame, and the tables of its translation. -/
def loadCtx : Nat := 1
def loadVa : Nat := 0x10000
def loadPa : Nat := 0x40000
def loadRoot : Nat := 0x10000

/-- A launch of one thread with registers, scratchpad and accumulators. -/
def loadRecord : LaunchRec :=
  { entry := BitVec.ofNat 64 loadVa, args := 0, gx := 0, gy := 0, gz := 0, gsz := 0, ww := 0, cls := 0, band := 0, prio := 0,
    dae := false, nreg := 15, ver := false, rfg := 16, spg := 8, acg := 8, daew := 0, seed := 0, cctr := 0, cinc := 0 }

/-- The word in memory with its page tables, in a supervisor context. -/
def State.loadWord (s : State) (nbits w : Nat) : State :=
  let m := s.mem.write loadRoot (leBytes 8 (0x20000 + 1)) false
  let m := m.write 0x20000 (leBytes 8 (0x30000 + 1)) false
  let m := m.write (0x30000 + 8) (leBytes 8 (loadPa + 7)) false
  let m := m.write loadPa (leBytes 16 (w % 2 ^ nbits)) false
  let c : Ctx := { Ctx.start loadCtx true with ptRoot := BitVec.ofNat 64 loadRoot }
  { s with
    phase := .ready
    mem := { m with
      tlb := m.tlb.filter (fun e => e.2.ctx ≠ loadCtx)
      walks := []
      stalls := []
      invals := [] }
    ctxs := c :: s.ctxs.filter (fun c => c.num ≠ loadCtx) }

/-- The state with a word as its next instruction: a Lenrus word at the entry of a launch whose one group has started, a ZF
word at the entry of a program that has started. -/
def State.withFetchWord (s : State) (nbits w : Nat) : State :=
  let s := s.loadWord nbits w
  if nbits ≤ 32 then
    { s with
      stamp := s.stamp + 1
      seqs := [(0, Seq.start s.stamp loadCtx (BitVec.ofNat 64 loadVa) [])]
      seqLast := []
      agenda := .seq 0 :: s.agenda }
  else
    let c := Ctx.start loadCtx true
    let l : Launch := { key := s.stamp, ctx := loadCtx, id := 1, record := loadRecord, band := 0, started := 1, exited := 0, broken := false }
    { s with
      stamp := s.stamp + 2
      launches := [l]
      groups := [l.group c (s.stamp + 1) 1 0 0 0 [s.stamp + 1] [(0, 0)]]
      tasks := []
      kindles := []
      copies := []
      kops := []
      stops := []
      agenda := .lane 0 0 :: s.agenda }

end Sys2Proof.Machine
end

