-- ==== Sys2Proof/Safety.lean ====
section
/-! DEFINITION. Safety.lean: what counts as a safe run, and when an instruction performs its own effect: the conditions on the
state and the operands under which nothing holds it back and nothing traps it, and the state that it then leaves. -/

namespace Sys2Proof.Safety

open Sys2Proof.Machine

/-- A step of the device: it went on. -/
def GoesOn (s : State) : Prop := ∃ t, step s = .next t

/-- A run of n steps goes on throughout. -/
def RunsFor (n : Nat) (s : State) : Prop := ∃ t, Sys2Proof.core.run n s = .next t

/-- The device holds no containment: neither of the device nor of a context (R413). -/
def Uncontained (s : State) : Prop := s.dev.contained = false ∧ ∀ c ∈ s.ctxs, c.run ≠ Running.contained

/-- No error message has been sent to the control node (R420). -/
def Silent (s : State) : Prop := s.dev.messages = []

/-- A safe state: no containment, and memory in its canonical form. -/
def Safe (s : State) : Prop := Uncontained s ∧ s.mem.wf = true

end Sys2Proof.Safety

namespace Sys2Proof.Machine

/-! ### Instructions of a path -/

/-- NOTHING STOPS THE ISSUE: the path issues, the registers and lines that it needs are ready (R27, R182), no guard and no
operand that cannot carry poison is poisoned (R415, R517), the operand uses are legal (R430), the generator is good where it draws
(R480), and the queue ports can give and take (R55, R58, R71), with no earlier access in the way of a ring port (R279). -/
structure Clear (s : State) (x : Iss) (h : Hdr) (sh : Shape) : Prop where
  issues : s.iss? = some x
  registers : s.dependency x sh h = false
  lines : s.ringBusy x sh = false
  rings : s.ringWaits x h sh = false
  branches : x.badBranch sh = []
  guards : x.badGuard h = 0
  uses : x.illegal h sh = none
  generator : sh.gen = true → x.g.genBad = 0
  ports : s.portWait x.g x.r.w (x.needs h sh) = none
  operands : s.hurt x h sh = []

/-- What the body of an instruction sees: the positions `ts` and the values of their sources. -/
def State.taken (s : State) (x : Iss) (h : Hdr) (sh : Shape) (ts : List Nat) : Taken :=
  { uni := sh.isUniform, ts := ts, vals := (s.readSrcs x h sh.srcs (sh.readers ts)).2 }

/-- What it sees when nothing stops it. -/
def State.sees (s : State) (x : Iss) (h : Hdr) (sh : Shape) : Taken := s.taken x h sh (x.doing h sh)

/-- The state once its operands have been read: queue ports have given what it takes. -/
def State.afterRead (s : State) (x : Iss) (h : Hdr) (sh : Shape) : State := (s.readSrcs x h sh.srcs (sh.readers (x.doing h sh))).1

/-- THE STATE AFTER AN INSTRUCTION whose issue nothing stops: it acts for every thread that takes it. -/
def State.performed (s : State) (x : Iss) (h : Hdr) (sh : Shape) (per : Nat) (body : Body) : State :=
  s.act x h sh per (x.doing h sh) body

/-- AN INSTRUCTION COMPLETES, and its destination gets a value: in every state in which nothing stops its issue, it writes `f` of
its sources' values to D of every thread that takes it, and its path passes it. The value is taken modulo the width of D. -/
def Writes (i : Instr) (h : Hdr) (sh : Shape) (per : Nat) (f : Iss → Nat → List Nat → Nat) : Prop :=
  ∀ s x, Clear s x h sh → exec i s = .next (s.performed x h sh per (writes sh f))

/-- The same of an instruction that may draw: `f` gets the drawing function of the position (R126, R241). -/
def Draws (i : Instr) (h : Hdr) (sh : Shape) (per : Nat) (f : (Nat → Nat → Nat) → List Nat → Nat) : Prop :=
  ∀ s x, Clear s x h sh → exec i s = .next (s.performed x h sh per (writesSr sh f))

/-! ### Cross-thread instructions -/

/-- A SIGNATURE IS ACCEPTED: a path issues, no register that it needs is awaited (R27), the operand uses are legal (R430), and its
threads are members of an idle register or of one armed at the same instruction (R432). -/
structure SignClear (s : State) (x : Iss) (h : Hdr) (sh : Shape) (cv : CvField) (within : Bool) : Prop where
  issues : s.iss? = some x
  registers : s.dependency x sh h = false
  uses : sh.illegal x (maskCount (x.taking h)) = none
  members : x.misuse cv within = none

/-- The state once a path has signed. -/
def State.withSignature (s : State) (x : Iss) (i : Instr) (h : Hdr) (cv : CvField) : State := (s.signNow x i h cv).occupy x.r 1

/-- The members that supply operands, and those that receive a result. -/
def Gen.readers (e : Gen) (o : GenOps) : List Signer :=
  ((e.conv.signers.take o.upTo).filter e.takes).filter (fun m => !(o.live && e.helper m))
def Gen.writers (e : Gen) (o : GenOps) : List Signer :=
  ((e.conv.signers.take o.upTo).filter e.takes).filter (fun m => !(o.mute && e.helper m))

/-- What the members supply, and the state once queue ports have given it. -/
def State.genVals (t : State) (e : Gen) (o : GenOps) : Vals := (t.genRead e o.h o.srcs (e.readers o)).2
def State.genAfter (t : State) (e : Gen) (o : GenOps) : State := (t.genRead e o.h o.srcs (e.readers o)).1

/-- NOTHING STOPS A GENERATION: every member has signed (R44), none with a poisoned guard or a poisoned operand that cannot carry
poison (R517), the ports can give and take (R250), and no ring that it uses lies in lines of an engine (R182). -/
structure GenClear (t : State) (r : GenRef) (e : Gen) (o : GenOps) : Prop where
  complete : t.gen? r = some e
  guards : e.conv.signers.any (·.bad) = false
  lines : t.genBusy e o.codes = false
  room : e.excess o.srcs (e.readers o) o.dst (e.writers o) = none
  ports : t.genPorts e o.srcs (e.readers o) o.dst (e.writers o) = none
  operands : (t.genVals e o).findSome? (fun m => strictFault { srcs := o.srcs } m.2) = none

/-- THE STATE AFTER A GENERATION HAS ISSUED: its effect, then its register rises and its members pass the instruction (R44). -/
def State.genPerformed (t : State) (e : Gen) (o : GenOps) (body : Gen → Vals → State → State) : State :=
  (body e (t.genVals e o) (t.genAfter e o)).genDone e o.lanes

/-- A CROSS-THREAD INSTRUCTION COMPLETES: the last signature issues its generation with the effect `body`. -/
def Issues (i : Instr) (h : Hdr) (cv : CvField) (o : GenOps) (within : Bool) (body : Gen → Vals → State → State) : Prop :=
  ∀ s x e, SignClear s x h o.shape cv within → GenClear (s.withSignature x i h cv) ⟨x.r.g, cv, x.r.w⟩ e o →
    exec i s = .next ((s.withSignature x i h cv).genPerformed e o body)

/-- A path that signs before the last member only signs. -/
def Signs (i : Instr) (h : Hdr) (cv : CvField) (sh : Shape) (within : Bool) : Prop :=
  ∀ s x, SignClear s x h sh cv within → (s.withSignature x i h cv).gen? ⟨x.r.g, cv, x.r.w⟩ = none →
    exec i s = .next (s.withSignature x i h cv)

/-! ### Accesses -/

/-- AN ACCESS OF GLOBAL MEMORY GOES: its address exists and is aligned, its page's translation is held and allows it, and no write
meets a page at WB (R132, R152, R157, R261, R452). -/
def Reaches (s : State) (x : Iss) (d : Doing) (va : Nat) (e : TlbEntry) : Prop :=
  va < 2 ^ 55 ∧ va % d.size = 0 ∧ s.mem.tlbFind x.g.core x.g.ctx va = some e ∧ d.denied e.attr = none ∧
    ((d.write || d.advance) = true → attrWb e.attr = false)

/-- The state once the accesses of an instruction are under way, which issued in state `s`: one operation that holds each, waiting at
the sector of its physical address, but for a load that the core's L0 serves (R144, R145, R260); it releases what it must (R167 to
R169). -/
def State.underway (t s : State) (x : Iss) (h : Hdr) (k : Taken) (size : Nat) (f : OpForm) (ws : List Want) (tr : Nat → TlbEntry) : State :=
  if ws = [] then t
  else ({ t with stamp := t.stamp + 1 }).launchOp x.g.core
    { id := t.stamp, g := x.r.g, w := x.r.w, access := x.p.access, pc := x.p.pc, kind := f.kind, ty := f.ty, size := size, order := f.order,
      scope := f.scope, d := f.d, tmask := maskOf (ws.flatMap fun w : Want => w.who k.ts), ring := x.g.ringAt f.d,
      after := s.releasing x h f.kind.writes f.order f.scope, parts := ws.map fun w => partOf w (tr w.va) } State.serveHit

/-- AN INSTRUCTION THAT ACCESSES GLOBAL MEMORY COMPLETES ITS ISSUE: its accesses `ws` are under way and its path passes it. -/
def Accesses (i : Instr) (h : Hdr) (sh : Shape) (per kind : Nat) (order : Order) (d : Doing) (ws : Taken → List Want) (f : OpForm) : Prop :=
  ∀ s x tr, Clear s x h sh → s.mustWait x h kind order false = false → (∀ w ∈ ws (s.sees x h sh), Reaches s x d w.va (tr w.va)) →
    exec i s = .next (s.performed x h sh per fun x k t => (t.underway s x h k d.size f (ws k) tr, .next []))

/-- No counter passes 64 bits when the accesses are made in order (R458). -/
def State.noWrap (x : Iss) (k : Taken) (kind : AccessKind) (dst : Dst) (size : Nat) : State → List Want → Bool
  | _, [] => true
  | t, w :: ws =>
    !(effectOf kind size w.data w.bad (leNat ((t.scratchBytes x.g 0 w.va size).map (·.1))) (fun _ => false)).wraps &&
      State.noWrap x k kind dst size (t.scratchDo x k kind dst size w) ws

/-- AN INSTRUCTION THAT ACCESSES SCRATCHPAD COMPLETES: its accesses are performed, lowest position first (R262). Each lies in the
cluster's scratchpad (R137, R456), is aligned (R261) and meets no line of an engine (R182). -/
def ScratchAccesses (i : Instr) (h : Hdr) (sh : Shape) (kind : Nat) (order : Order) (size : Nat) (ws : Taken → List Want) (akind : AccessKind)
    (dst : Dst) : Prop :=
  ∀ s x, Clear s x h sh → s.mustWait x h kind order true = false →
    (∀ w ∈ ws (s.sees x h sh), s.scratchBusy x.g w.va size = false ∧ (s.afterRead x h sh).scratchOut x.g w.va size = none ∧ w.va % size = 0) →
    State.noWrap x (s.sees x h sh) akind dst size (s.afterRead x h sh) (ws (s.sees x h sh)) = true →
    exec i s = .next (s.performed x h sh 1 fun x k t => ((ws k).foldl (fun t w => t.scratchDo x k akind dst size w) t, .next []))

/-- WHAT AN ENGINE, A DEVICE OR A PATH'S ISSUE WOULD LEAD TO, HAPPENS: it is not put off, every sector that it reaches serves it now, in its
class and its orientation (R79, R80, R143, R144), and no HOST line that it reaches is missing (R145). -/
def State.arrives (s : State) (key : Nat × Nat) (cls : Nat) (t : State) : Prop :=
  t.held = false ∧ s.reachAll key cls t.mem.touched = true ∧ t.mem.misses = []

/-- AN SWR COMPLETES (R336, R337): at supervisor level where its register asks for it, with no earlier access of its threads under way, and
with no slot that it must write on a page at WB or behind a write that waits there (R330, R333). It has the effect `f`, in the context
that SCTX names at supervisor level and in its own at program level. -/
def SwrCompletes (i : Instr) (x : SwrOps) (f : Iss → Nat → W64 → State → State) : Prop :=
  ∀ s y, let m := (s.sees y x.h (SwrOps.shape x)).vals.headD (0, [])
    let v := BitVec.ofNat 64 (regsNat (m.2.headD []))
    Clear s y x.h (SwrOps.shape x) → s.mustWait y x.h 2 .ar true = false → s.outstanding y = false →
    (saccess x.sreg.toNat = .super ∨ saccess x.sreg.toNat = .write → y.anyProgram (s.sees y x.h (SwrOps.shape x)).ts = false) →
    s.swrStalls (y.target m.1) x.sreg.toNat v = false →
    exec i s = .next (s.performed y x.h (SwrOps.shape x) 1 fun y _ t => (f y (y.target m.1) v t, .next []))

/-! ### Launches and families -/

/-- Every position acts in order with its address, and D receives the number that each act gives; none when one of them cannot act. -/
def State.eachActs (x : Iss) (k : Taken) (d : Operand) (act : State → W64 → Except Nat (State × Nat)) :
    State → List (Nat × List (List Reg)) → Option State
  | t, [] => some t
  | t, m :: ms =>
    match act t (BitVec.ofNat 64 (regsNat (m.2.headD []))) with
    | .error _ => none
    | .ok (u, n) =>
      State.eachActs x k d act (u.writeDst x.r.g x.r.w x.g { op := d } m.1 (if k.uni then k.ts else [m.1]) (regsOf 1 n false)) ms

/-- A trap that the instruction itself takes follows every earlier access of its threads (R334, R429). -/
def Orderly (s t : State) (x : Iss) : Prop := s.outstanding x = false ∨ x.trapped t = false

/-! ### Sequencers -/

/-- A ZF INSTRUCTION THAT ONLY WRITES A REGISTER OR MOVES ITS PROGRAM: it completes in every state in which a sequencer context
issues it; the program goes on at `pc` with the registers `reg`, and nothing of another program, of memory, of a group, of a
context or of the fabric changes. -/
def SeqMoves (i : Instr) (pc : SIss → W64) (reg : SIss → Fin 32 → W64) : Prop :=
  ∀ s x, s.siss? = some x → ∃ t q, exec i s = .next t ∧ t.seq? x.n = some q ∧ q.pc = pc x ∧ (∀ r, q.reg r = reg x r) ∧
    q.key = x.q.key ∧ q.ctx = x.q.ctx ∧ q.wait = none ∧ q.stopped = x.q.stopped ∧ (∀ n, n ≠ x.n → t.seq? n = s.seq? n) ∧
    t.mem = s.mem ∧ t.groups = s.groups ∧ t.ctxs = s.ctxs ∧ t.ports = s.ports ∧ t.net = s.net

/-- Register d holds v, and every other register what it held; x0 reads 0 (R370). -/
def SIss.holds (x : SIss) (d : Fin 32) (v : W64) (r : Fin 32) : W64 := if r = d ∧ r ≠ 0 then v else x.q.reg r

/-! ### The control node -/

/-- The command port takes a command: bring-up is over, no command before it is waiting, and the device holds no containment
(R383, R386, R425). -/
def State.takesCommand (s : State) : Prop := s.phase = .ready ∧ s.akoonBusy = false ∧ s.dev.inbox = [] ∧ s.dev.contained = false

/-- A reply without an error (R382). -/
def replyTo (h : AkHdr) (value : Nat) (bytes : List Byte) : Reply := { tag := h.tag, status := 0, value := value, bytes := bytes }

/-! ### What a state holds -/

/-- THE HEADERS TELL WHERE THE ZERO LINES ARE: a line of HBM that holds a byte other than 0 has its bit in MASK (R148). -/
def Memory.headed (m : Memory) : Prop := ∀ a, hbmPa a = true → m.byte a ≠ 0 → (m.maskOf (a / 1024)).getLsbD (a / 32 % 32) = true

/-- Vector register n of a thread, register n of a warp, a predicate with its tag, a data queue and the level of a thread, by
group, warp and position; none where there is no such thread. -/
def State.thread? (s : State) (g w u : Nat) : Option Thread := (s.warp? g w).bind fun x => x.threads[u]?
def State.vreg (s : State) (g w u n : Nat) : Option Reg := (s.thread? g w u).map (·.reg n)
def State.wreg (s : State) (g w n : Nat) : Option Reg := (s.warp? g w).map (·.reg n)
def State.preg (s : State) (g w u n : Nat) : Option (Bool × Bool) := (s.thread? g w u).map fun th => (th.pred n, th.predBad n)
def State.queue (s : State) (g w u n : Nat) : Option (List Reg) := (s.thread? g w u).map fun th => sget [] th.q n
def State.level (s : State) (g w u : Nat) : Option (Bool × Bool) := (s.thread? g w u).map fun th => (th.super, th.trapped)

/-- What a group holds beside its registers, its scratchpad and its paths: accumulators, tiles, operations, generator, priority,
convergence registers and bindings. -/
def Group.units (g : Group) : List (Nat × AccEl) × List (Nat × Option Tile) × List MatOp × W64 × W32 × Nat × List (Nat × Conv) × Option KilnBind :=
  (g.acc, g.tiles, g.ops, g.key64, g.stream, g.prio, g.cv, g.kiln)

/-- No operand of the shape is a ring port. -/
def Shape.ringless (sh : Shape) : Prop := ∀ u ∈ sh.fields, ∀ n, u.op = .q n → n.val < 8

/-- The register field `op` of n words holds register k of its kind. -/
def Dst.covers (d : Dst) (vec : Bool) (k : Nat) : Prop :=
  ∃ m, (if vec then (∃ r, d.op = .v r ∧ r.val = m) else (∃ r, d.op = .w r ∧ r.val = m)) ∧ m ≤ k ∧ k < m + d.n

end Sys2Proof.Machine
end

