-- ==== Sys2Proof/Certificates/Slice0/Obligations.lean ====
section
/-! DEFINITION. Obligations.lean: the statements for the provers. -/

open Sys2Proof Sys2Proof.Machine

/-! ### Instructions that compute a destination -/

/-- R231: the integer arithmetic and logical instructions complete and write what R231 gives, for both widths, every modifier
and every operand form. The formulas are those of bit vectors of N bits. -/
def Obligations.IntegerResults : Prop :=
  (∀ x : IntOps, Writes (.mov x) x.h (IntOps.one x) 1 fun _ _ v => arg v 0) ∧
  (∀ x : IntOps, Writes (.sel x) x.h
    { srcs := [srcA x.a (nWords x.w64), srcB x.b (nWords x.w64), srcC x.c 1], dst := some { op := x.d, n := nWords x.w64 } } 1
    fun _ _ v => if arg v 2 = 0 then arg v 1 else arg v 0) ∧
  (∀ x : IntOps, Writes (.iadd x) x.h (IntOps.two x) 1 fun _ _ v =>
    let n := nBits x.w64
    let a := BitVec.ofNat n (arg v 0)
    let b := BitVec.ofNat n (arg v 1)
    if x.sat then
      if x.sgn then (BitVec.ofInt n (max (-2 ^ (n - 1)) (min (2 ^ (n - 1) - 1) (a.toInt + b.toInt)))).toNat
      else min (2 ^ n - 1) (a.toNat + b.toNat)
    else (a + b).toNat) ∧
  (∀ x : IntOps, Writes (.isub x) x.h (IntOps.two x) 1 fun _ _ v =>
    let n := nBits x.w64
    let a := BitVec.ofNat n (arg v 0)
    let b := BitVec.ofNat n (arg v 1)
    if x.sat then
      if x.sgn then (BitVec.ofInt n (max (-2 ^ (n - 1)) (min (2 ^ (n - 1) - 1) (a.toInt - b.toInt)))).toNat
      else a.toNat - b.toNat
    else (a - b).toNat) ∧
  (∀ x : IntOps, Writes (.imul x) x.h (IntOps.two x) 1 fun _ _ v =>
    let n := nBits x.w64
    let a := BitVec.ofNat n (arg v 0)
    let b := BitVec.ofNat n (arg v 1)
    if x.sat then
      if x.sgn then (BitVec.ofInt n (max (-2 ^ (n - 1)) (min (2 ^ (n - 1) - 1) (a.toInt * b.toInt)))).toNat
      else min (2 ^ n - 1) (a.toNat * b.toNat)
    else (a * b).toNat) ∧
  (∀ x : IntOps, Writes (.imulh x) x.h (IntOps.two x) 1 fun _ _ v =>
    let a := BitVec.ofNat 32 (arg v 0)
    let b := BitVec.ofNat 32 (arg v 1)
    if x.sgn then ((a.signExtend 64 * b.signExtend 64) >>> 32).toNat else ((a.setWidth 64 * b.setWidth 64) >>> 32).toNat) ∧
  (∀ x : IntOps, Writes (.imad x) x.h
    { srcs := [srcA x.a 1, srcB x.b 1, srcC x.c (nWords x.w64)], dst := some { op := x.d, n := nWords x.w64 } } 1 fun _ _ v =>
    let n := nBits x.w64
    let a := BitVec.ofNat 32 (arg v 0)
    let b := BitVec.ofNat 32 (arg v 1)
    let c := BitVec.ofNat n (arg v 2)
    if x.sgn then (a.signExtend n * b.signExtend n + c).toNat else (a.setWidth n * b.setWidth n + c).toNat) ∧
  (∀ x : IntOps, Writes (.imin x) x.h (IntOps.two x) 1 fun _ _ v =>
    let n := nBits x.w64
    let a := BitVec.ofNat n (arg v 0)
    let b := BitVec.ofNat n (arg v 1)
    if (if x.sgn then a.slt b else a.ult b) then a.toNat else b.toNat) ∧
  (∀ x : IntOps, Writes (.imax x) x.h (IntOps.two x) 1 fun _ _ v =>
    let n := nBits x.w64
    let a := BitVec.ofNat n (arg v 0)
    let b := BitVec.ofNat n (arg v 1)
    if (if x.sgn then a.slt b else a.ult b) then b.toNat else a.toNat) ∧
  (∀ x : IntOps, Writes (.iabs x) x.h (IntOps.one x) 1 fun _ _ v =>
    let n := nBits x.w64
    let a := BitVec.ofNat n (arg v 0)
    if x.sat && a = BitVec.intMin n then 2 ^ (n - 1) - 1 else a.abs.toNat) ∧
  (∀ x : IntOps, Writes (.and x) x.h (IntOps.two x) 1 fun _ _ v =>
    (BitVec.ofNat (nBits x.w64) (arg v 0) &&& BitVec.ofNat (nBits x.w64) (arg v 1)).toNat) ∧
  (∀ x : IntOps, Writes (.or x) x.h (IntOps.two x) 1 fun _ _ v =>
    (BitVec.ofNat (nBits x.w64) (arg v 0) ||| BitVec.ofNat (nBits x.w64) (arg v 1)).toNat) ∧
  (∀ x : IntOps, Writes (.xor x) x.h (IntOps.two x) 1 fun _ _ v =>
    (BitVec.ofNat (nBits x.w64) (arg v 0) ^^^ BitVec.ofNat (nBits x.w64) (arg v 1)).toNat)

/-- R232, R230, R233: the bit instructions, the comparison and the address computation complete and write what the rules give,
at every boundary of their counts. -/
def Obligations.BitResults : Prop :=
  (∀ x : IntOps, Writes (.shl x) x.h (IntOps.shift x) 1 fun _ _ v => (BitVec.ofNat (nBits x.w64) (arg v 0) <<< arg v 1).toNat) ∧
  (∀ x : IntOps, Writes (.shr x) x.h (IntOps.shift x) 1 fun _ _ v => (BitVec.ofNat (nBits x.w64) (arg v 0) >>> arg v 1).toNat) ∧
  (∀ x : IntOps, Writes (.sar x) x.h (IntOps.shift x) 1 fun _ _ v => ((BitVec.ofNat (nBits x.w64) (arg v 0)).sshiftRight (arg v 1)).toNat) ∧
  (∀ x : IntOps, Writes (.popc x) x.h { srcs := [srcA x.a (nWords x.w64)], dst := some { op := x.d } } 1 fun _ _ v =>
    ((List.range (nBits x.w64)).countP (BitVec.ofNat (nBits x.w64) (arg v 0)).getLsbD)) ∧
  (∀ x : IntOps, Writes (.clz x) x.h { srcs := [srcA x.a (nWords x.w64)], dst := some { op := x.d } } 1 fun _ _ v =>
    ((List.range (nBits x.w64)).countP fun k => BitVec.ofNat (nBits x.w64) (arg v 0) >>> k = 0)) ∧
  (∀ x : IntOps, Writes (.brev x) x.h (IntOps.one x) 1 fun _ _ v => (BitVec.ofNat (nBits x.w64) (arg v 0)).reverse.toNat) ∧
  (∀ x : IntOps, Writes (.bfe x) x.h (IntOps.shift x) 1 fun _ _ v =>
    let n := nBits x.w64
    let a := BitVec.ofNat n (arg v 0)
    let pos := arg v 1 % 256
    let len := arg v 1 / 256 % 256
    if len = 0 ∨ n ≤ pos then 0
    else
      let field := a <<< (n - min (pos + len) n)
      let down := n - (min (pos + len) n - pos)
      if x.sgn then (field.sshiftRight down).toNat else (field >>> down).toNat) ∧
  (∀ x : IntOps, Writes (.bfi x) x.h
    { srcs := [srcA x.a (nWords x.w64), srcB x.b (nWords x.w64), srcC x.c 1], dst := some { op := x.d, n := nWords x.w64 } } 1 fun _ _ v =>
    let n := nBits x.w64
    let a := BitVec.ofNat n (arg v 0)
    let b := BitVec.ofNat n (arg v 1)
    let pos := arg v 2 % 256
    let len := arg v 2 / 256 % 256
    let mask := (BitVec.ofNat n (2 ^ len - 1)) <<< pos
    (a &&& ~~~mask ||| b <<< pos &&& mask).toNat) ∧
  (∀ x : IcmpOps, Writes (.icmp x) x.h
    { srcs := [srcA x.a (nWords x.w64), srcB x.b (nWords x.w64)], dst := some { op := x.d } } 1 fun _ _ v =>
    let n := nBits x.w64
    let a := BitVec.ofNat n (arg v 0)
    let b := BitVec.ofNat n (arg v 1)
    let less := fun (p q : BitVec n) => if x.sgn then p.slt q else p.ult q
    match x.cond with
    | .eq => (a == b).toNat
    | .ne => (a != b).toNat
    | .lt => (less a b).toNat
    | .le => (!less b a).toNat
    | .gt => (less b a).toNat
    | .ge => (!less a b).toNat
    | .un => 0) ∧
  (∀ x : LeaOps, Writes (.lea x) x.h { srcs := [srcA x.a 2, srcB x.b 1], dst := some { op := x.d, n := 2 } } 1 fun _ _ v =>
    let b := BitVec.ofNat 32 (arg v 1)
    (BitVec.ofNat 64 (arg v 0) + ((if x.sgn then b.signExtend 64 else b.setWidth 64) <<< x.k.val)).toNat)

/-- R234 to R238: FP32 and FP64 arithmetic completes; each result is the exact one, rounded once in the instruction's mode with its
saturation. -/
def Obligations.FloatResults : Prop :=
  (∀ x : FloatOps, Writes (.fadd x) x.h (FloatOps.two x false) 1 fun _ _ v =>
    FSpec.fp32.round x.mode 0 x.sat ((FSpec.fp32.decode (arg v 0)).add x.mode (FSpec.fp32.decode (arg v 1)))) ∧
  (∀ x : FloatOps, Writes (.fsub x) x.h (FloatOps.two x false) 1 fun _ _ v =>
    FSpec.fp32.round x.mode 0 x.sat ((FSpec.fp32.decode (arg v 0)).sub x.mode (FSpec.fp32.decode (arg v 1)))) ∧
  (∀ x : FloatOps, Writes (.fmul x) x.h (FloatOps.two x false) 1 fun _ _ v =>
    FSpec.fp32.round x.mode 0 x.sat ((FSpec.fp32.decode (arg v 0)).mul (FSpec.fp32.decode (arg v 1)))) ∧
  (∀ x : FloatOps, Writes (.fma x) x.h (FloatOps.three x false) 1 fun _ _ v =>
    FSpec.fp32.round x.mode 0 x.sat ((FSpec.fp32.decode (arg v 0)).fma x.mode (FSpec.fp32.decode (arg v 1)) (FSpec.fp32.decode (arg v 2)))) ∧
  (∀ x : FMinMaxOps, Writes (.fmin x) x.h (FMinMaxOps.shape x false) 1 fun _ _ v => floatMinMax .fp32 true x.num (arg v 0) (arg v 1)) ∧
  (∀ x : FMinMaxOps, Writes (.fmax x) x.h (FMinMaxOps.shape x false) 1 fun _ _ v => floatMinMax .fp32 false x.num (arg v 0) (arg v 1)) ∧
  (∀ x : FcmpOps, Writes (.fcmp x) x.h (FcmpOps.shape x false) 1 fun _ _ v =>
    if FVal.cond x.cond (FSpec.fp32.decode (arg v 0)) (FSpec.fp32.decode (arg v 1)) then 1 else 0) ∧
  (∀ x : FrndOps, Writes (.frnd x) x.h { srcs := [srcF 2 x.a false], dst := some { op := x.d } } 1 fun _ _ v => fRnd x.mode (arg v 0)) ∧
  (∀ x : FloatOps, Writes (.dadd x) x.h (FloatOps.two x true) 4 fun _ _ v =>
    FSpec.fp64.round x.mode 0 x.sat ((FSpec.fp64.decode (arg v 0)).add x.mode (FSpec.fp64.decode (arg v 1)))) ∧
  (∀ x : FloatOps, Writes (.dsub x) x.h (FloatOps.two x true) 4 fun _ _ v =>
    FSpec.fp64.round x.mode 0 x.sat ((FSpec.fp64.decode (arg v 0)).sub x.mode (FSpec.fp64.decode (arg v 1)))) ∧
  (∀ x : FloatOps, Writes (.dmul x) x.h (FloatOps.two x true) 4 fun _ _ v =>
    FSpec.fp64.round x.mode 0 x.sat ((FSpec.fp64.decode (arg v 0)).mul (FSpec.fp64.decode (arg v 1)))) ∧
  (∀ x : FloatOps, Writes (.dfma x) x.h (FloatOps.three x true) 4 fun _ _ v =>
    FSpec.fp64.round x.mode 0 x.sat ((FSpec.fp64.decode (arg v 0)).fma x.mode (FSpec.fp64.decode (arg v 1)) (FSpec.fp64.decode (arg v 2)))) ∧
  (∀ x : FMinMaxOps, Writes (.dmin x) x.h (FMinMaxOps.shape x true) 4 fun _ _ v => floatMinMax .fp64 true x.num (arg v 0) (arg v 1)) ∧
  (∀ x : FMinMaxOps, Writes (.dmax x) x.h (FMinMaxOps.shape x true) 4 fun _ _ v => floatMinMax .fp64 false x.num (arg v 0) (arg v 1)) ∧
  (∀ x : FcmpOps, Writes (.dcmp x) x.h (FcmpOps.shape x true) 4 fun _ _ v =>
    if FVal.cond x.cond (FSpec.fp64.decode (arg v 0)) (FSpec.fp64.decode (arg v 1)) then 1 else 0)

/-- R239, R240: the packed 16-bit instructions complete and act on each element alone; the special functions complete and write
their function of A. -/
def Obligations.PackedAndSpecialResults : Prop :=
  (∀ x : HalfOps, Writes (.hadd2 x) x.h (HalfOps.two x) 1 fun _ _ v =>
    let f := halfSpec x.f16
    let one := fun a b => f.round x.mode 0 x.sat ((f.decode a).add x.mode (f.decode b))
    one (arg v 0 % 2 ^ 16) (arg v 1 % 2 ^ 16) + 2 ^ 16 * one (arg v 0 / 2 ^ 16 % 2 ^ 16) (arg v 1 / 2 ^ 16 % 2 ^ 16)) ∧
  (∀ x : HalfOps, Writes (.hsub2 x) x.h (HalfOps.two x) 1 fun _ _ v =>
    let f := halfSpec x.f16
    let one := fun a b => f.round x.mode 0 x.sat ((f.decode a).sub x.mode (f.decode b))
    one (arg v 0 % 2 ^ 16) (arg v 1 % 2 ^ 16) + 2 ^ 16 * one (arg v 0 / 2 ^ 16 % 2 ^ 16) (arg v 1 / 2 ^ 16 % 2 ^ 16)) ∧
  (∀ x : HalfOps, Writes (.hmul2 x) x.h (HalfOps.two x) 1 fun _ _ v =>
    let f := halfSpec x.f16
    let one := fun a b => f.round x.mode 0 x.sat ((f.decode a).mul (f.decode b))
    one (arg v 0 % 2 ^ 16) (arg v 1 % 2 ^ 16) + 2 ^ 16 * one (arg v 0 / 2 ^ 16 % 2 ^ 16) (arg v 1 / 2 ^ 16 % 2 ^ 16)) ∧
  (∀ x : HalfOps, Writes (.hfma2 x) x.h (HalfOps.three x) 1 fun _ _ v =>
    let f := halfSpec x.f16
    let one := fun a b c => f.round x.mode 0 x.sat ((f.decode a).fma x.mode (f.decode b) (f.decode c))
    one (arg v 0 % 2 ^ 16) (arg v 1 % 2 ^ 16) (arg v 2 % 2 ^ 16)
      + 2 ^ 16 * one (arg v 0 / 2 ^ 16 % 2 ^ 16) (arg v 1 / 2 ^ 16 % 2 ^ 16) (arg v 2 / 2 ^ 16 % 2 ^ 16)) ∧
  (∀ x : HMinMaxOps, Writes (.hmin2 x) x.h { srcs := [srcH 2 x.a x.f16, srcH 3 x.b x.f16], dst := some { op := x.d } } 1 fun _ _ v =>
    let one := floatMinMax (halfSpec x.f16) true x.num
    one (arg v 0 % 2 ^ 16) (arg v 1 % 2 ^ 16) + 2 ^ 16 * one (arg v 0 / 2 ^ 16 % 2 ^ 16) (arg v 1 / 2 ^ 16 % 2 ^ 16)) ∧
  (∀ x : HMinMaxOps, Writes (.hmax2 x) x.h { srcs := [srcH 2 x.a x.f16, srcH 3 x.b x.f16], dst := some { op := x.d } } 1 fun _ _ v =>
    let one := floatMinMax (halfSpec x.f16) false x.num
    one (arg v 0 % 2 ^ 16) (arg v 1 % 2 ^ 16) + 2 ^ 16 * one (arg v 0 / 2 ^ 16 % 2 ^ 16) (arg v 1 / 2 ^ 16 % 2 ^ 16)) ∧
  (∀ x : HcmpOps, Writes (.hcmp2 x) x.h { srcs := [srcH 2 x.a x.f16, srcH 3 x.b x.f16], dst := some { op := x.d } } 1 fun _ _ v =>
    let f := halfSpec x.f16
    let one := fun a b => if FVal.cond x.cond (f.decode a) (f.decode b) then 1 else 0
    one (arg v 0 % 2 ^ 16) (arg v 1 % 2 ^ 16) + 2 ^ 16 * one (arg v 0 / 2 ^ 16 % 2 ^ 16) (arg v 1 / 2 ^ 16 % 2 ^ 16)) ∧
  (∀ x : OpDA, Writes (.exp2 x) x.h (OpDA.f32 x) 2 fun _ _ v => (exp2F (BitVec.ofNat 32 (arg v 0))).toNat) ∧
  (∀ x : OpDA, Writes (.log2 x) x.h (OpDA.f32 x) 2 fun _ _ v => (log2F (BitVec.ofNat 32 (arg v 0))).toNat) ∧
  (∀ x : OpDA, Writes (.rcp x) x.h (OpDA.f32 x) 2 fun _ _ v => (rcpF (BitVec.ofNat 32 (arg v 0))).toNat) ∧
  (∀ x : OpDA, Writes (.rsq x) x.h (OpDA.f32 x) 2 fun _ _ v => (rsqF (BitVec.ofNat 32 (arg v 0))).toNat) ∧
  (∀ x : OpDA, Writes (.sqrt x) x.h (OpDA.f32 x) 2 fun _ _ v => (sqrtF (BitVec.ofNat 32 (arg v 0))).toNat) ∧
  (∀ x : OpDA, Writes (.tanh x) x.h (OpDA.f32 x) 2 fun _ _ v => (tanhF (BitVec.ofNat 32 (arg v 0))).toNat)

/-- R242 to R249: the conversions and the instructions on groups of elements complete and write what the rules give. CVT of a
narrow source and the two instructions that pick an element of a group trap or report on some data (R431, R479): here they meet
none. -/
def Obligations.ConversionResults : Prop :=
  (∀ (x : CvtOps) s i, Clear s i x.h (CvtOps.shape x) →
    (CvtType.bits x.src < 32 → ∀ m ∈ (s.sees i x.h (CvtOps.shape x)).vals, regsBad (m.2.headD []) = false) →
    exec (.cvt x) s = .next (s.performed i x.h (CvtOps.shape x) (CvtOps.cycles x) (writesSr (CvtOps.shape x) fun dr v =>
      cvtValue x.dst x.src x.sat x.mode (if x.mode = .sr then dr (arg v 1) 0 else 0) (arg v 0)))) ∧
  (∀ x : CvtNarrowOps, Draws (.cvtF8 x) x.h (narrowShape x) 1 fun dr v =>
    narrowValue (if x.alt then .e5m2 else .e4m3) x.sat x.mode (if x.mode = .sr then dr (arg v 2) 0 else 0) (arg v 0) (arg v 1 % 256)) ∧
  (∀ x : CvtNarrowOps, Draws (.cvtF6 x) x.h (narrowShape x) 1 fun dr v =>
    narrowValue (if x.alt then .e2m3 else .e3m2) x.sat x.mode (if x.mode = .sr then dr (arg v 2) 0 else 0) (arg v 0) (arg v 1 % 256)) ∧
  (∀ x : CvtNarrowOps, Draws (.cvtF4 x) x.h (narrowShape x) 1 fun dr v =>
    narrowValue (if x.alt then .mxt2 else .e2m1) x.sat x.mode (if x.mode = .sr then dr (arg v 2) 0 else 0) (arg v 0) (arg v 1 % 256)) ∧
  (∀ x : GroupOps, Writes (.mxqScale x) x.h { srcs := [srcF 2 x.a false], dst := some { op := x.d } } 1 fun _ _ v =>
    mxScaleOf x.fmt (FSpec.fp32.decode (arg v 0)).abs) ∧
  (∀ x : GroupOps, Draws (.mxq x) x.h (mxqShape x) 4 (mxqGroup x)) ∧
  (∀ (x : GroupOps) s i, Clear s i x.h (pickShape x) → (∀ m ∈ (s.sees i x.h (pickShape x)).vals, reservedPick x m.2 = false) →
    exec (.mxd x) s = .next (s.performed i x.h (pickShape x) 1 (writes (pickShape x) fun _ _ v =>
      FSpec.fp32.round x.mode 0 x.sat (mxValue x.fmt (bits (arg v 1) 15 8) (groupElement x.fmt (arg v 0) (arg v 1 % 16)))))) ∧
  (∀ (x : GroupOps) s i, Clear s i x.h (pickShape x) → (∀ m ∈ (s.sees i x.h (pickShape x)).vals, reservedPick x m.2 = false) →
    exec (.unpk x) s = .next (s.performed i x.h (pickShape x) 1 (writes (pickShape x) fun _ _ v =>
      FSpec.fp32.round .rne 0 false (fmtValue x.fmt (groupElement x.fmt (arg v 0) (arg v 1 % 16)))))) ∧
  (∀ x : PackOps, Writes (.pack x) x.h { srcs := [srcF 2 x.a false, srcF 3 x.b false], dst := some { op := x.d } } 1 fun _ _ v =>
    let f := halfSpec x.f16
    f.round x.mode 0 x.sat (FSpec.fp32.decode (arg v 0)) + f.round x.mode 0 x.sat (FSpec.fp32.decode (arg v 1)) * 2 ^ 16)

/-- R199 to R202: a pair completes; every register of both halves is read before either half writes, the lower half writes first,
and a NOP half writes nothing. -/
def Obligations.PairCompletes : Prop :=
  ∀ (x : PairOps) s i, Clear s i (PairOps.hdr x) (PairOps.shape x) →
    exec (.pair x) s = .next (s.performed i (PairOps.hdr x) (PairOps.shape x) (max (halfCycles x.lo) (halfCycles x.hi)) fun i k t =>
      let half := fun (t : State) (y : Half) (pos : Nat) (v : List (List Reg)) =>
        if y.op = .nop then t else t.updThread i.r.g i.r.w pos fun th => th.setReg y.d.val (halfResult y v)
      (k.vals.foldl (fun t m => half (half t x.lo m.1 (m.2.take (halfSrcs x.lo).length)) x.hi m.1
        ((m.2.drop (halfSrcs x.lo).length).take (halfSrcs x.hi).length)) t, .next []))

/-! ### Control -/

/-- R222 to R226: the control instructions complete. NOP and YIELD change nothing but the path's place and its mark; a branch moves
each thread that takes it to its own target; CALL leaves the next address in D; SKIP opens a region over the next words. The
targets are legal (R430 kind 8) and no region is open (kind 10). -/
def Obligations.ControlCompletes : Prop :=
  (∀ (x : Op0) s i, Clear s i x.h { srcs := [], flat := true } →
    exec (.nop x) s = .next (s.performed i x.h { srcs := [], flat := true } 1 fun _ _ t => (t, .next []))) ∧
  (∀ (x : Op0) s i, Clear s i x.h { srcs := [], uni := some false, flat := true } →
    exec (.yield x) s = .next (s.performed i x.h { srcs := [], uni := some false, flat := true } 1 fun i _ t =>
      (t.updPath i.r fun p => { p with yielded := true }, .next []))) ∧
  (∀ (x : OpA) s i, let acc := i.g.dae && i.p.access
    let sh : Shape := { srcs := [{ srcA x.a 1 with strict := true }], uni := some false, flat := true, branch := acc.toNat }
    Clear s i x.h sh → (∀ m ∈ (s.sees i x.h sh).vals, badTarget (relative i m.2) = false) →
    exec (.bra x) s = .next (s.performed i x.h sh 1 fun i k t =>
      (if acc then t.pushBranch i k.ts else t, .next (k.vals.map fun m => (m.1, relative i m.2))))) ∧
  (∀ (x : OpA) s i, let sh : Shape := { srcs := [{ srcA x.a 2 with strict := true }], uni := some false, flat := true }
    Clear s i x.h sh → (∀ m ∈ (s.sees i x.h sh).vals, badTarget (absolute m.2) = false) →
    exec (.brx x) s = .next (s.performed i x.h sh 1 fun _ k t => (t, .next (k.vals.map fun m => (m.1, absolute m.2)))) ∧
    exec (.ret x) s = .next (s.performed i x.h sh 1 fun _ k t => (t, .next (k.vals.map fun m => (m.1, absolute m.2))))) ∧
  (∀ (x : OpA) s i, let sh : Shape := { srcs := [{ srcA x.a 1 with strict := true }], uni := some false, flat := true, branch := 2,
                                        execOnly := true, daeOnly := true }
    Clear s i x.h sh → (∀ m ∈ (s.sees i x.h sh).vals, badTarget (relative i m.2) = false) →
    exec (.brq x) s = .next (s.performed i x.h sh 1 fun i k t =>
      ((maskList i.active).foldl (fun t u => t.updThread i.r.g i.r.w u fun th => { th with br := th.br.drop 1 }) t,
        .next ((k.vals.filter fun m => ((i.thread m.1).br.headD (false, false)).1).map fun m => (m.1, relative i m.2))))) ∧
  (∀ (x : OpDA) s i, let sh : Shape := { srcs := [{ srcA x.a 1 with strict := true }], dst := some { op := x.d, n := 2 }, uni := some false,
                                         flat := true }
    Clear s i x.h sh → (∀ m ∈ (s.sees i x.h sh).vals, badTarget (relative i m.2) = false) →
    exec (.call x) s = .next (s.performed i x.h sh 1 fun i k t =>
      (k.vals.foldl (fun t m => t.writeDst i.r.g i.r.w i.g { op := x.d, n := 2 } m.1 [m.1]
        (regsOf 2 (i.p.pc + BitVec.ofNat 64 i.size).toNat false)) t, .next (k.vals.map fun m => (m.1, relative i m.2))))) ∧
  (∀ (x : SkipOps) s i, let sh : Shape := { srcs := [], uni := some false, flat := true, always := true }
    Clear s i x.h sh → i.p.skn = 0 →
    exec (.skip x) s = .next (s.performed i x.h sh 1 fun i k t =>
      (t.updPath i.r fun p => { p with skn := x.n.val + 1 + wordsIn i.size, skmask := maskOf k.ts }, .next [])))

/-- R49 to R52, R57, R77, R168, R226 to R229, R253, R266 to R268, R390: the other instructions that a path executes alone complete. EXIT
ends its threads, or parks them until both their streams have reached it, and then, if the group can, the group; PRIO sets the
group's priority, at most 15, and CVSET loads the masks of an idle register, where of the warps that do so in one cycle the highest
prevails; PTLD and PREF ask for the lines; LLC.LOCK, LLC.UNLOCK and LLC.UNLOCK.ALL act on each sector and write their code or count;
FENCE passes once nothing that it waits for is under way, and a releasing one marks what stands before it; SPARK raises a spark. -/
def Obligations.PathInstructionsComplete : Prop :=
  (∀ (x : Op0) s i, let sh : Shape := { srcs := [], uni := some false, flat := true }
    Clear s i x.h sh → exec (.exit x) s = .next ((s.performed i x.h sh 1 fun i k t =>
      (t.exitThreads i.r i.p.access (i.p.pc + BitVec.ofNat 64 i.size) k.ts, .next [])).tryEnd i.r.g)) ∧
  (∀ (x : OpA) s i, let sh : Shape := { srcs := [srcA x.a 1], uni := some true }
    Clear s i x.h sh → exec (.prio x) s = .next (s.performed i x.h sh 1 fun i k t =>
      (k.vals.foldl (fun t m => t.updShared i.r.g .prio i.w.wid fun g => { g with prio := min 15 (regsNat (m.2.headD [])) }) t, .next []))) ∧
  (∀ (x : CvsetOps) s i,
    let src := fun f (o : Operand) => ({ field := f, op := o, n := 2, uni := true } : Src)
    let sh : Shape := { srcs := [src 2 x.a, src 3 x.b], uni := some true }
    let cv : CvField := Fin.ofNat 17 x.cv.val
    Clear s i x.h sh → (i.g.conv cv i.r.w).armed = false →
    exec (.cvset x) s = .next (s.performed i x.h sh 1 fun i k t =>
      (t.updShared i.r.g (.cv x.cv.val) i.w.wid fun g => g.updConv cv i.r.w fun c => { c with
        wmask := BitVec.ofNat 64 (regsNat ((k.vals.headD (0, [])).2.getD 0 []))
        tmask := BitVec.ofNat 64 (regsNat ((k.vals.headD (0, [])).2.getD 1 [])) }, .next []))) ∧
  (∀ (x : OpA) s i e, let sh : Shape := { srcs := [{ field := 2, op := x.a, n := 2, strict := true, uni := true }], uni := some true }
    let va := regsNat ((((s.sees i x.h sh).vals.headD (0, [])).2).headD [])
    Clear s i x.h sh → Reaches s i { code := x.a.code, size := 64, plain := true } va e →
    exec (.ptld x) s = .next (s.performed i x.h sh 1 fun i _ t => (t.askPrefetch i.g.core e (e.pa va) 64 false, .next []))) ∧
  (∀ (x : PrefOps) s i, let sh : Shape := { srcs := [strictA x.a 2, strictB x.b 1] }
    Clear s i x.h sh → exec (.pref x) s = .next (s.performed i x.h sh 1 fun i k t =>
      (k.vals.foldl (fun t m => t.prefetch i x.kind (vaG m.2)) t, .next []))) ∧
  (∀ (x : OpDAB) s i, Clear s i x.h (lockShape x) →
    exec (.llcLock x) s = .next (s.performed i x.h (lockShape x) 1 fun i k t => (t.lockAll i k x.d State.lockSector, .next [])) ∧
    exec (.llcUnlock x) s = .next (s.performed i x.h (lockShape x) 1 fun i k t => (t.lockAll i k x.d State.unlockSector, .next []))) ∧
  (∀ (x : OpD) s i, let sh : Shape := { srcs := [], dst := some { op := x.d } }
    Clear s i x.h sh → exec (.llcUnlockAll x) s = .next (s.performed i x.h sh 1 fun i k t =>
      let mine := (t.mem.llc.filter fun e => e.2.lock = some i.c.num).map (·.1)
      let u := { t with mem := mine.foldl (fun m a => m.setSector a { m.sector a with lock := none }) t.mem }
      (k.vals.foldl (fun u m => u.writeDst i.r.g i.r.w i.g { op := x.d } m.1 (if k.uni then k.ts else [m.1])
        (regsOf 1 mine.length false)) u, .next []))) ∧
  (∀ (x : FenceOps) s i, Clear s i x.h { srcs := [] } → s.fenceWaits i x.h x.order = false →
    exec (.fence x) s = .next (s.performed i x.h { srcs := [] } 1 fun i _ t =>
      (if x.order = .rel ∨ x.order = .ar then t.markFence i x.h x.scope else t, .next []))) ∧
  (∀ (x : OpA) s i, let sh : Shape := { srcs := [srcA x.a 1], uni := some false, flat := true, execOnly := true }
    Clear s i x.h sh → exec (.spark x) s = .next (s.performed i x.h sh 1 fun _ k t =>
      ((t.spark 0 (regsNat ((k.vals.headD (0, [])).2.headD []) % 2 ^ 16)).1, .next [])))

/-! ### Cross-thread instructions -/

/-- R227, R251 to R257: a cross-thread instruction issues when its last member signs, and gives each member that takes it its result.
SIGN gives the register's generation before the step; QX and PERM give a value of another member; VOTE, WSUM, WMAX and WSCAN
reduce what the live members supply, poisoned when one of them is. -/
def Obligations.CrossThreadCompletes : Prop :=
  (∀ x : SignOps, Issues (.sign x) x.h x.cv (SignOps.ops x) false fun e _ t =>
    e.takers.foldl (fun t m => t.genWrite e { op := x.d } m [⟨e.conv.gen, false⟩]) t) ∧
  (∀ x : QxOps, Issues (.qx x) x.h x.cv (QxOps.ops x) true fun e vals t =>
    vals.foldl (fun t m =>
      let b := m.2.getD 1 []
      let j := if x.xor then (m.1.pos % 4) ^^^ (regsNat b % 4) else regsNat b % 4
      t.genWrite e { op := x.d } m.1
        ((e.supplies x.h vals (srcA x.a 1) m.1.w (m.1.pos / 4 * 4 + j)).map fun q => ⟨q.val, q.bad || regsBad b⟩)) t) ∧
  (∀ (x : PermOps) s i e, SignClear s i x.h (PermOps.ops x).shape x.cv true →
    let t := s.withSignature i (.perm x) x.h x.cv
    GenClear t ⟨i.r.g, x.cv, i.r.w⟩ e (PermOps.ops x) →
    let a := permTable (t.genVals e (PermOps.ops x))
    ∀ tr, t.genVals e (PermOps.ops x) ≠ [] → a % 64 = 0 → a < 2 ^ 55 → t.translate e.c a e.g.via = .ok tr → attrCtr tr.attr = false →
    t.permWaits e (tr.pa a) = false → t.reachAll e.key 2 [(tr.pa a / 1024, false)] = true →
    ((t.fillLine tr (tr.pa a / 32) e.g.core).fillLine tr (tr.pa a / 32 + 1) e.g.core).mem.misses = [] →
    t.watched true false (tr.pa a) 64 = false → t.tableHit x e = none →
    exec (.perm x) s = .next (t.genPerformed e (PermOps.ops x) fun e vals t =>
      let table := t.seen e.g (tr.pa a) 64
      let t := t.loadTable e tr (tr.pa a)
      vals.foldl (fun t m =>
        t.genWrite e { op := x.d } m.1 ((e.supplies x.h vals (srcA x.a 1) m.1.w ((table.getD m.1.pos (0, false)).1.toNat % 64)).map
          fun q => ⟨q.val, q.bad || (table.getD m.1.pos (0, false)).2⟩)) t)) ∧
  (∀ x : VoteOps, Issues (.vote x) x.h x.cv (VoteOps.ops x) true fun e vals t =>
    e.takers.foldl (fun t m => t.genWrite e { op := x.d, n := if x.mode = .ballot then 2 else 1 } m
      (regsOf (if x.mode = .ballot then 2 else 1) (voteValue x.mode (contributions vals)) (vals.any fun m => m.2.any regsBad))) t) ∧
  (∀ x : SumOps, Issues (.wsum x) x.h x.cv (SumOps.ops x) true fun e vals t =>
    e.takers.foldl (fun t m => t.genWrite e { op := x.d, n := sumWords x.ty } m
      (regsOf (sumWords x.ty) (wsumValue x.ty x.sat x.mode (contributions vals)) (vals.any fun m => m.2.any regsBad))) t) ∧
  (∀ x : MaxOps, Issues (.wmax x) x.h x.cv (MaxOps.ops x) true fun e vals t =>
    e.takers.foldl (fun t m => t.genWrite e { op := x.d, n := maxWords x.ty } m
      (regsOf (maxWords x.ty) (wmaxValue x.ty x.min (contributions vals)) (vals.any fun m => m.2.any regsBad))) t) ∧
  (∀ x : SumOps, Issues (.wscan x) x.h x.cv (SumOps.ops x) true fun e vals t =>
    e.takers.foldl (fun t m => t.genWrite e { op := x.d, n := sumWords x.ty } m
      (regsOf (sumWords x.ty) (wscanValue x.ty x.excl x.sat x.mode e.g.width (contributions vals) m.pos)
        (vals.any fun m => m.2.any regsBad))) t)

/-- R44, R250: a path that signs before the last member of its set has signed only waits; its register holds the signature. -/
def Obligations.EarlySignatureWaits : Prop :=
  (∀ x : SignOps, Signs (.sign x) x.h x.cv (SignOps.ops x).shape false) ∧
  (∀ x : QxOps, Signs (.qx x) x.h x.cv (QxOps.ops x).shape true) ∧
  (∀ x : PermOps, Signs (.perm x) x.h x.cv (PermOps.ops x).shape true) ∧
  (∀ x : VoteOps, Signs (.vote x) x.h x.cv (VoteOps.ops x).shape true) ∧
  (∀ x : SumOps, Signs (.wsum x) x.h x.cv (SumOps.ops x).shape true) ∧
  (∀ x : MaxOps, Signs (.wmax x) x.h x.cv (MaxOps.ops x).shape true) ∧
  (∀ x : SumOps, Signs (.wscan x) x.h x.cv (SumOps.ops x).shape true)

/-! ### Memory -/

/-- R258 to R276, R210: the instructions that access global memory complete their issue: each access that reaches a page is under
way, at the address, of the size and with the data that the operands give. A weak store of a versioned group is held in its
version instead (R97); the store of part of a poisoned word traps (R441) and is not meant here. -/
def Obligations.GlobalAccessesComplete : Prop :=
  (∀ x : MemOps, Accesses (.ldG x) x.h (MemOps.ldShape x false) (memPer x.ty) 0 x.order
    { code := x.a.code, size := typeBytes x.ty, plain := true } (fun k => wants k vaG (fun _ => 0) (fun _ => false))
    { kind := .load, ty := x.ty, order := x.order, scope := x.scope, d := x.d }) ∧
  (∀ (x : MemOps) s i tr, let sh := MemOps.stShape x false
    let d : Doing := { code := x.a.code, size := typeBytes x.ty, write := true, plain := true }
    Clear s i x.h sh → s.mustWait i x.h 1 x.order false = false → partData x (s.sees i x.h sh) = [] →
    (∀ w ∈ storeWants (s.sees i x.h sh) x vaG, Reaches s i d w.va (tr w.va)) →
    (i.g.versioned = false ∨ x.order ≠ .weak →
      exec (.stG x) s = .next (s.performed i x.h sh (memPer x.ty) fun i k t =>
        (t.underway s i x.h k (typeBytes x.ty) { kind := .store, ty := x.ty, order := x.order, scope := x.scope, d := .vz } (storeWants k x vaG) tr,
          .next []))) ∧
    (i.g.versioned = true → x.order = .weak → i.g.vlines.length + (storeWants (s.sees i x.h sh) x vaG).length ≤ 512 →
      exec (.stG x) s = .next (s.performed i x.h sh (memPer x.ty) fun i k t =>
        ((storeWants k x vaG).foldl (fun t w => t.holdStore i ((tr w.va).pa w.va) (leBytes (typeBytes x.ty) w.data) w.bad) t, .next [])))) ∧
  (∀ x : AtomOps, Accesses (.atomG x) x.h (AtomOps.shape x false) 1 2 x.order
    { code := x.a.code, size := 4 * atomWords x.op, write := true, plain := true } (fun k => wantsB k false)
    { kind := .atom x.op, ty := .b32, order := x.order, scope := x.scope, d := x.d }) ∧
  (∀ x : CasOps, Accesses (.atomCasG x) x.h (CasOps.shape x false 1) 1 2 x.order
    { code := x.a.code, size := 4, write := true, plain := true } (fun k => wantsB k false) (casForm x .cas)) ∧
  (∀ x : CasOps, Accesses (.atomCas64G x) x.h (CasOps.shape x false 2) 1 2 x.order
    { code := x.a.code, size := 8, write := true, plain := true } (fun k => wantsB k false) (casForm x .cas64)) ∧
  (∀ x : CtrInitOps, x.scratch = false → x.pclass.val < 7 → x.rscope.val < 6 → ∀ s i tr,
    let sh : Shape := { srcs := [ctrSrcA x.a false, strictB x.b 2], suppress := true }
    Clear s i x.h sh → s.mustWait i x.h 1 x.order false = false →
    (∀ w ∈ wantsB (s.sees i x.h sh) false, Reaches s i (ctrDoing x.a true) w.va (tr w.va)) →
    exec (.ctrInit x) s = .next (s.performed i x.h sh 1 fun i k t =>
      (t.underway s i x.h k 16 { kind := .ctrInit (ctrAttr i.g x.pclass.val x.rscope.val), ty := .b32, order := x.order, scope := x.scope, d := .vz }
        (wantsB k false) tr, .next []))) ∧
  (∀ x : CtrOps, x.scratch = false →
    Accesses (.ctrAdd x) x.h (CtrOps.rmw x) 1 2 x.order (ctrDoing x.a true) (fun k => wantsB k false)
      { kind := .ctrAdd, ty := .b32, order := x.order, scope := x.scope, d := x.d } ∧
    Accesses (.ctrMax x) x.h (CtrOps.rmw x) 1 2 x.order (ctrDoing x.a true) (fun k => wantsB k false)
      { kind := .ctrMax, ty := .b32, order := x.order, scope := x.scope, d := x.d } ∧
    Accesses (.ctrRd x) x.h { srcs := [ctrSrcA x.a false], dst := some { op := x.d, n := 2 }, suppress := true } 1 0 x.order
      (ctrDoing x.a false) (fun k => wantsB k false) { kind := .ctrRd, ty := .b32, order := x.order, scope := x.scope, d := x.d })

/-- R137, R258 to R276: the instructions that access cluster scratchpad complete: each access is performed at once, lowest position
first, at the offset that the operands give; a load's reply is extended and goes to D with the tags of the words read. -/
def Obligations.ScratchpadAccessesComplete : Prop :=
  (∀ (x : MemOps) s i, let sh := MemOps.ldShape x true
    Clear s i x.h sh → s.mustWait i x.h 0 x.order true = false →
    (∀ m ∈ (s.sees i x.h sh).vals, s.scratchBusy i.g (vaS m.2) (typeBytes x.ty) = false ∧
      (s.afterRead i x.h sh).scratchOut i.g (vaS m.2) (typeBytes x.ty) = none ∧ vaS m.2 % typeBytes x.ty = 0) →
    exec (.ldS x) s = .next (s.performed i x.h sh (memPer x.ty) fun i k t =>
      (k.vals.foldl (fun t m =>
        let bs := t.scratchBytes i.g 0 (vaS m.2) (typeBytes x.ty)
        t.writeDst i.r.g i.r.w i.g { op := x.d, n := typeWords x.ty } (if k.uni then k.ts.headD 0 else m.1) (if k.uni then k.ts else [m.1])
          (replyRegs (typeWords x.ty) (extend x.ty (leNat (bs.map (·.1)))) fun j => ((bs.drop (4 * j)).take 4).any (·.2))) t, .next []))) ∧
  (∀ (x : MemOps) s i, let sh := MemOps.stShape x true
    Clear s i x.h sh → s.mustWait i x.h 1 x.order true = false → partData x (s.sees i x.h sh) = [] →
    (∀ m ∈ (s.sees i x.h sh).vals, s.scratchBusy i.g (vaS m.2) (typeBytes x.ty) = false ∧
      (s.afterRead i x.h sh).scratchOut i.g (vaS m.2) (typeBytes x.ty) = none ∧ vaS m.2 % typeBytes x.ty = 0) →
    exec (.stS x) s = .next (s.performed i x.h sh (memPer x.ty) fun i k t =>
      (k.vals.foldl (fun t m => t.putScratch i.g 0 (vaS m.2)
        (leBytes (typeBytes x.ty) (regsNat (m.2.getD 2 []) % 2 ^ (8 * typeBytes x.ty))) (regsBad (m.2.getD 2 []))) t, .next []))) ∧
  (∀ x : AtomOps, ScratchAccesses (.atomS x) x.h (AtomOps.shape x true) 2 x.order (4 * atomWords x.op) (fun k => wantsB k true) (.atom x.op)
    { op := x.d, n := atomWords x.op }) ∧
  (∀ x : CasOps, ScratchAccesses (.atomCasS x) x.h (CasOps.shape x true 1) 2 x.order 4 (fun k => wantsB k true) .cas { op := x.d }) ∧
  (∀ x : CasOps, ScratchAccesses (.atomCas64S x) x.h (CasOps.shape x true 2) 2 x.order 8 (fun k => wantsB k true) .cas64 { op := x.d, n := 2 }) ∧
  (∀ x : CtrInitOps, x.scratch = true → x.pclass.val < 7 → x.rscope.val < 6 → ∀ s i,
    let sh : Shape := { srcs := [ctrSrcA x.a true, strictB x.b 2], suppress := true }
    Clear s i x.h sh → s.mustWait i x.h 1 x.order true = false →
    (∀ w ∈ wantsB (s.sees i x.h sh) true, s.scratchBusy i.g w.va 16 = false ∧ (s.afterRead i x.h sh).scratchOut i.g w.va 16 = none ∧
      w.va % 16 = 0) →
    exec (.ctrInit x) s = .next (s.performed i x.h sh 1 fun i k t =>
      ((wantsB k true).foldl (fun t w => t.scratchDo i k (.ctrInit (ctrAttr i.g x.pclass.val x.rscope.val)) { op := .vz } 16 w) t, .next []))) ∧
  (∀ x : CtrOps, x.scratch = true →
    ScratchAccesses (.ctrAdd x) x.h (CtrOps.rmw x) 2 x.order 16 (fun k => wantsB k true) .ctrAdd { op := x.d, n := 2 } ∧
    ScratchAccesses (.ctrMax x) x.h (CtrOps.rmw x) 2 x.order 16 (fun k => wantsB k true) .ctrMax { op := x.d, n := 2 } ∧
    ScratchAccesses (.ctrRd x) x.h { srcs := [ctrSrcA x.a true], dst := some { op := x.d, n := 2 }, suppress := true } 0 x.order 16
      (fun k => wantsB k true) .ctrRd { op := x.d, n := 2 })

/-- R275, R277: CTR.WAIT completes at once when every counter has reached its target, and D receives the values read; QCFG binds
or unbinds a ring port, and empties the ring when it is asked to. -/
def Obligations.WaitAndPortCompletes : Prop :=
  (∀ (x : CtrOps) s i, let sh := CtrOps.waitShape x
    let k := s.sees i x.h sh
    let u := s.afterRead i x.h sh
    let key := PathRef.waitKey i.r i.p
    Clear s i x.h sh → s.waitFirst i x.h = false → s.mustWait i x.h 0 x.order x.scratch = false →
    (∀ c ∈ u.ctrTests i k x, (x.scratch = true → s.scratchBusy i.g c.1.va 16 = false) ∧
      ∃ t, c.2 = .ok t ∧ u.testHolds i.g t = true ∧ s.testVeiled i.r x.scope t = false) →
    let v := u.testsDone i.r i.g x.d k.uni k.ts ((u.ctrTests i k x).filterMap fun c => c.2.toOption)
    s.arrives key 2 v →
    exec (.ctrWait x) s = .next (s.performed i x.h sh 1 fun _ _ _ => (v.arrive key, .next []))) ∧
  (∀ (x : QcfgOps) s i,
    let src := fun f (o : Operand) => ({ field := f, op := o, strict := true, uni := true } : Src)
    let sh : Shape := { srcs := [src 2 x.a, src 3 x.b], uni := some true }
    let v := ((s.sees i x.h sh).vals.headD (0, [])).2
    let off := regsNat (v.getD 0 [])
    let b := regsNat (v.getD 1 [])
    let e := b % 32
    Clear s i x.h sh → off % 16 = 0 → e < 17 → (e ≠ 0 → (s.afterRead i x.h sh).scratchOut i.g off (16 + 4 * 2 ^ e) = none) →
    (e ≠ 0 → b.testBit 8 = true → s.scratchBusy i.g off 8 = false) →
    exec (.qcfg x) s = .next (s.performed i x.h sh 1 fun i _ t =>
      let t := if e ≠ 0 ∧ b.testBit 8 = true then t.putScratch i.g 0 off (leBytes 8 0) false else t
      (t.updGroup i.r.g fun g => { g with ring := sset none g.ring (8 + x.port.val) (if e = 0 then none else some (off, e)) }, .next [])))

/-! ### Engines and matrix units -/

/-- R281 to R287, R460: a COPY that none of the reasons of R460 rejects is accepted when its engine and its group have room: it takes a
slot and, from its descriptors and its word, the first window of its destination; it is counted (R391). -/
def Obligations.CopyCompletes : Prop :=
  ∀ (x : CopyOps) (kind : CopyKind) s i s1 da s2 db slot,
    let sh := CopyOps.shape x (kind = .st)
    let v := ((s.sees i x.h sh).vals.headD (0, [])).2
    let a := regsNat (v.getD 0 [])
    let b := regsNat (v.getD 1 [])
    let key := PathRef.waitKey i.r i.p
    Clear s i x.h sh → s.fenceWaits i x.h .sc = false → v.any regsBad = false →
    (s.afterRead i x.h sh).descriptor i a = .ok (s1, da, false) →
    (if kind = .cp then s1.descriptor i b = .ok (s2, db, false) else s2 = s1 ∧ db = []) →
    copyReason i kind (Tensor.ofBytes da) (Tensor.ofBytes db) a b = none → s2.copyRoom i.g = some slot →
    s.arrives key 2 (s2.acceptCopy i x kind slot da db b (regsNat (v.getD 2 []))) →
    exec (match kind with | .ld => .copyLd x | .st => .copySt x | .cp => .copyCp x) s =
      .next (s.performed i x.h sh 1 fun i _ _ => ((s2.acceptCopy i x kind slot da db b (regsNat (v.getD 2 []))).arrive key, .next []))

/-- R290 to R295, R305, R306, R475: the tile instructions that one path issues complete. TCFG binds a tile as its word says unless R475
refuses it, TCFG.FREE unbinds it, TZERO writes zero to every element, SEED and SEED.S set the generator, TEPI gives n elements of
a row, TLD and TST start a transfer between a tile and scratchpad in a free slot. -/
def Obligations.TileInstructionsComplete : Prop :=
  (∀ (x : TcfgOps) s i, let sh : Shape := { srcs := [{ field := 2, op := x.a, n := 2, uni := true }], uni := some true, suppress := true }
    let v := (((s.sees i x.h sh).vals.headD (0, [])).2).headD []
    Clear s i x.h sh → s.tileBusy i.g i.w.wid x.tile.val = false → i.g.tcfgRefused x.tile.val (regsNat v) (regsBad v) = none →
    exec (.tcfg x) s = .next (s.performed i x.h sh 1 fun i _ t =>
      ((t.markTile i.r.g i.w.wid x.tile.val).updGroup i.r.g fun g => { g with
        tiles := sset none g.tiles x.tile.val (some { Tile.of (regsNat v) with dirty := g.anyWritten (Tile.of (regsNat v)) }) }, .next []))) ∧
  (∀ (x : TileOps) s i, let sh : Shape := { srcs := [], uni := some true, suppress := true }
    Clear s i x.h sh → s.tileBusy i.g i.w.wid x.tile.val = false →
    exec (.tcfgFree x) s = .next (s.performed i x.h sh 1 fun i _ t =>
      ((t.markTile i.r.g i.w.wid x.tile.val).updGroup i.r.g fun g => { g with tiles := sset none g.tiles x.tile.val none }, .next []))) ∧
  (∀ (x : TileOps) s i t, let sh : Shape := { srcs := [], uni := some true, suppress := true }
    Clear s i x.h sh → s.tileBusy i.g i.w.wid x.tile.val = false → i.g.tile x.tile.val = some t →
    exec (.tzero x) s = .next (s.performed i x.h sh 1 fun i _ u =>
      ((u.markTile i.r.g i.w.wid x.tile.val).updGroup i.r.g fun g => (g.putEls t (t.cells.map fun c => (c.1, c.2, 0, false))).markDirty x.tile.val, .next []))) ∧
  (∀ (x : OpAB) s i,
    let sh : Shape := { srcs := [{ field := 2, op := x.a, n := 2, uni := true }, { field := 3, op := x.b, uni := true }], uni := some true,
                        suppress := true }
    Clear s i x.h sh → exec (.seed x) s = .next (s.performed i x.h sh 1 fun i k t =>
      let v := (k.vals.headD (0, [])).2
      ((t.updShared i.r.g .key i.w.wid fun g => { g with
        key64 := BitVec.ofNat 64 (regsNat (v.getD 0 []))
        keyBad := regsBad (v.getD 0 []) }).updShared i.r.g .stream i.w.wid fun g => { g with
          stream := BitVec.ofNat 32 (regsNat (v.getD 1 []))
          streamBad := regsBad (v.getD 1 []) }, .next []))) ∧
  (∀ (x : SeedSOps) s i, let sh : Shape := { srcs := [{ field := 3, op := x.b, uni := true }], uni := some true, suppress := true }
    Clear s i x.h sh → exec (.seedS x) s = .next (s.performed i x.h sh 1 fun i k t =>
      let v := ((k.vals.headD (0, [])).2).headD []
      (t.updShared i.r.g .stream i.w.wid fun g => { g with stream := BitVec.ofNat 32 (regsNat v), streamBad := regsBad v }, .next []))) ∧
  (∀ (x : TepiOps) s i t, let b : Src := { field := 3, op := x.b, uni := true }
    let n := regsNat (i.words x.h b (maskLow i.p.tmask))
    let sh : Shape := { srcs := [srcA x.a 1, b], dst := some { op := x.d, n := n, group := true } }
    let row := fun (v : List (List Reg)) => regsNat (v.headD []) / 2 ^ 8 % 64
    let col := fun (v : List (List Reg)) => regsNat (v.headD []) % 64
    Clear s i x.h sh → s.tileBusy i.g i.w.wid x.tile.val = false → i.g.tile x.tile.val = some t → 1 ≤ n → n ≤ 16 →
    (∀ m ∈ (s.sees i x.h sh).vals, row m.2 < t.rows ∧ col m.2 + n ≤ t.cols) →
    exec (.tepi x) s = .next (s.performed i x.h sh n fun i k u =>
      (k.vals.foldl (fun u m => u.writeRun i x.d m.1 (if k.uni then k.ts else [m.1])
        ((List.range n).map fun e => Reg.ofNat (i.g.elOut t (row m.2) (col m.2 + e) false x.mode x.sat).1
          ((i.g.elOut t (row m.2) (col m.2 + e) false x.mode x.sat).2 || m.2.any regsBad))) (u.markTile i.r.g i.w.wid x.tile.val), .next []))) ∧
  (∀ (x : TileMoveOps) s i t slot, let sh := TileMoveOps.shape x
    let v := ((s.sees i x.h sh).vals.headD (0, [])).2
    let pair := regsNat (v.getD 1 [])
    Clear s i x.h sh → i.g.tile x.tile.val = some t → t.cols * tileBytes x.fmt ≤ 16 * (pair / 2 ^ 23 % 256) → s.fenceWaits i x.h .sc = false →
    i.g.wins s.coreClock (.tile x.tile.val) i.w.wid = true → (s.afterRead i x.h sh).slotOf i.g = some slot →
    (i.g.genBad = 0 → exec (.tld x) s = .next (s.performed i x.h sh 1 fun i _ u =>
      ((u.markTile i.r.g i.w.wid x.tile.val).launchMat i.r.g (TileMoveOps.move x i .tld t slot pair (regsNat (v.getD 0 []))), .next []))) ∧
    exec (.tst x) s = .next (s.performed i x.h sh 1 fun i _ u =>
      ((u.markTile i.r.g i.w.wid x.tile.val).launchMat i.r.g (TileMoveOps.move x i .tst t slot pair (regsNat (v.getD 0 []))), .next [])))

/-- R296 to R304, R474 to R477: the matrix instructions issue when the last member signs: MMA and MMD put a product of what the issue
captures into a free slot; TWRR and TWRC write a row or a column of a tile in member order; TRDR and TRDC give each member its
element. -/
def Obligations.MatrixCompletes : Prop :=
  (∀ (x : MmaOps) s i e t, let sh : Shape := { srcs := MmaOps.mmaSrcs x i.g, execOnly := true, uni := some false }
    let o : GenOps := { h := x.h, srcs := [] }
    let u := s.withSignature i (.mma x) x.h x.cv
    let pair := fun (a : Src) => if i.lowest x.cv then some (regsNat (i.words x.h a (maskLow i.p.tmask))) else none
    let word := fun (a : Src) => some (regsNat (e.uniform x.h a))
    SignClear s i x.h sh x.cv false →
    MmaOps.mmaCheck x i.g (i.g.members x.cv i.r.w).length (pair (uniSrc 2 x.a 2)) (pair (uniSrc 3 x.b 2)) = none →
    GenClear u ⟨i.r.g, x.cv, i.r.w⟩ e o → e.uniformBad x.h (MmaOps.mmaUni x) = none →
    MmaOps.mmaCheck x e.g e.conv.signers.length (word (uniSrc 2 x.a 2)) (word (uniSrc 3 x.b 2)) = none →
    u.memberWaits e = false → (u.slotOf e.g).isSome = true → u.genTileLate e = false → e.g.tile x.tile.val = some t →
    exec (.mma x) s = .next (u.genPerformed e o fun e _ u => (u.markTiles e).launchMat i.r.g (e.mmaOp u x t) e.conv.place)) ∧
  (∀ (x : MmaOps) s i e t t', let sh : Shape := { srcs := [uniSrc 1 x.d 2, matSource 2 x.a x.aScr (MmaOps.fmtA x i.g), uniSrc 3 x.b 2],
                                                  execOnly := true, uni := some false }
    let o : GenOps := { h := x.h, srcs := [] }
    let u := s.withSignature i (.mmd x) x.h x.cv
    let pair := fun (a : Src) => if i.lowest x.cv then some (regsNat (i.words x.h a (maskLow i.p.tmask))) else none
    let word := fun (a : Src) => some (regsNat (e.uniform x.h a))
    SignClear s i x.h sh x.cv false →
    s.mmdCheck i.c x i.g (i.g.members x.cv i.r.w).length (pair (uniSrc 2 x.a 2)) (pair (uniSrc 3 x.b 2)) = none →
    GenClear u ⟨i.r.g, x.cv, i.r.w⟩ e o → e.uniformBad x.h (MmaOps.mmdUni x) = none →
    u.mmdCheck e.c x e.g e.conv.signers.length (word (uniSrc 2 x.a 2)) (word (uniSrc 3 x.b 2)) = none →
    u.memberWaits e = false → (u.slotOf e.g).isSome = true → u.genTileLate e = false → u.mmdReach e x = .go →
    e.g.tile x.tile.val = some t → e.g.tile (x.tile.val + 1) = some t' →
    exec (.mmd x) s = .next (u.genPerformed e o fun e _ u =>
      match u.engineRead e.c (e.mmdAt x) 64 2 1 e.g.core e.g.via with
      | some (w, bs) => ((w.arrive e.key).markTiles e).launchMat i.r.g (e.mmdOp w x t t' (bs.map (·.1))) e.conv.place
      | none => u)) ∧
  (∀ (x : TileWriteOps) (row : Bool) s i e t, let idx := regsNat (e.uniform x.h (moveIndex x.a)) % 64
    let instr : Instr := if row then .twrr x else .twrc x
    let op := if row then 0xA4 else 0xA5
    let n := i.g.moveLength x.tile.val row
    let o : GenOps := { h := x.h, srcs := [TileWriteOps.src x], upTo := n }
    SignClear s i x.h { srcs := [moveIndex x.a, TileWriteOps.src x], execOnly := true, uni := some false } x.cv false →
    moveSign i x.h x.a x.cv x.tile.val op row = none → GenClear (s.withSignature i instr x.h x.cv) ⟨i.r.g, x.cv, i.r.w⟩ e o →
    let u := s.withSignature i instr x.h x.cv
    e.g.tile x.tile.val = some t → e.g.tileBefore x.tile.val (if e.conv.place = 0 then u.stamp else e.conv.place) = false →
    u.genTileLate e = false → idx < (if row then t.rows else t.cols) →
    exec instr s = .next ((s.withSignature i instr x.h x.cv).genPerformed e o fun e vals u =>
      let els := (e.conv.signers.take n).zipIdx.map fun m =>
        let rs := match vals.find? (fun v => v.1.w = m.1.w && v.1.pos = m.1.pos) with | some v => v.2.headD [] | none => []
        let y := if x.raw then regsNat rs else intoTile t.view x.mode (FSpec.fp32.decode (regsNat rs))
        let bad := regsBad rs || regsBad (e.uniform x.h (moveIndex x.a))
        if row then (idx, m.2, y, bad) else (m.2, idx, y, bad)
      (u.markTiles e).updGroup i.r.g fun g => (g.putEls t els).markDirty x.tile.val)) ∧
  (∀ (x : TileReadOps) (row : Bool) s i e t, let idx := regsNat (e.uniform x.h (moveIndex x.a)) % 64
    let instr : Instr := if row then .trdr x else .trdc x
    let op := if row then 0xA6 else 0xA7
    let n := i.g.moveLength x.tile.val row
    let o : GenOps := { h := x.h, srcs := [], dst := some (TileReadOps.dst x), upTo := n }
    SignClear s i x.h { srcs := [moveIndex x.a], dst := some (TileReadOps.dst x), execOnly := true, uni := some false } x.cv false →
    moveSign i x.h x.a x.cv x.tile.val op row = none → GenClear (s.withSignature i instr x.h x.cv) ⟨i.r.g, x.cv, i.r.w⟩ e o →
    let u := s.withSignature i instr x.h x.cv
    e.g.tile x.tile.val = some t → e.g.tileBefore x.tile.val (if e.conv.place = 0 then u.stamp else e.conv.place) = false →
    u.genTileLate e = false → idx < (if row then t.rows else t.cols) →
    exec instr s = .next ((s.withSignature i instr x.h x.cv).genPerformed e o fun e _ u =>
      (e.conv.signers.take n).zipIdx.foldl (fun u m =>
        if e.takes m.1 then
          let y := if row then e.g.elOut t idx m.2 x.raw x.mode x.sat else e.g.elOut t m.2 idx x.raw x.mode x.sat
          u.genWrite e (TileReadOps.dst x) m.1
            (regsOf (TileReadOps.dst x).n y.1 (y.2 || regsBad (e.uniform x.h (moveIndex x.a))))
        else u) (u.markTiles e)))

/-- R308, R309: ADAMW on operands that carry no poison completes: each thread's weight and moments become those of one step. -/
def Obligations.AdamwCompletes : Prop :=
  ∀ (x : AdamwOps) s i, Clear s i x.h (AdamwOps.shape x) → (∀ m ∈ (s.sees i x.h (AdamwOps.shape x)).vals, m.2.any regsBad = false) →
    exec (.adamw x) s = .next (s.performed i x.h (AdamwOps.shape x) 8 fun i k t =>
      (k.vals.foldl (fun u m =>
        let hy := m.2.getD 2 []
        let step := match hy[7]? with | some r => r.val.toNat | none => 0
        let draw := fun n => if x.sr then draw i.g.key64 i.g.stream.toNat (0x40000000 + i.g.index % 2 ^ 30) step
          ((i.w.wid * i.g.width + m.1) * 16 + n) else 0
        u.writeDst i.r.g i.r.w i.g { op := x.d, n := AdamwOps.words x, group := true } m.1 [m.1]
          ((adamWords x draw (m.2.getD 0 []) (regsNat (m.2.getD 1 [])) hy).map fun n => Reg.ofNat n false)) t, .next []))

/-- R310 to R318, R484, R485: the kiln instructions complete at their issue when no access before them is under way. KSTEP, KSIG, KTEST
and KEND join their unit's queue with what they captured; KREUSE computes an address of the cache; KMAP and KMAP.SRC read a map
of a step that the record keeps, once the unit has performed what stands before them. -/
def Obligations.KilnCompletes : Prop :=
  (∀ (x : OpAB) s i s1 bs e, let sh : Shape := { srcs := [uniSrc 2 x.a 2, uniSrc 3 x.b 1], uni := some true, suppress := true }
    let v := ((s.sees i x.h sh).vals.headD (0, [])).2
    let va := regsNat (v.getD 0 [])
    let key := PathRef.waitKey i.r i.p
    Clear s i x.h sh → s.outstanding i = false → s.fenceWaits i x.h .sc = false → va % 256 = 0 → va < 2 ^ 55 →
    (s.afterRead i x.h sh).kilnRead i.c i.g.kilnAt va 256 = some (s1, bs) → recordRefused (bs.map (·.1)) (bs.any (·.2)) = none →
    s1.translate i.c va i.g.viaEngine = .ok e → attrW e.attr = true →
    let bind : KilnBind := { record := BitVec.ofNat 64 va, step := BitVec.ofNat 32 (regsNat (v.getD 1 [])),
                             fields := BitVec.ofNat 448 (leNat (bs.map (·.1))) }
    let u := (s1.updGroup i.r.g fun g => { g with kiln := some bind }).enqueueKiln i (.kstep x) none (some bind) (s.sees i x.h sh).ts []
    s.arrives key 2 u →
    exec (.kstep x) s = .next (s.performed i x.h sh 1 fun _ _ _ => (u.arrive key, .next []))) ∧
  (∀ (x : OpAB) s i b slot, let sh : Shape := { srcs := [uniSrc 2 x.a 2, uniSrc 3 x.b 1], uni := some true, suppress := true }
    let v := ((s.sees i x.h sh).vals.headD (0, [])).2
    let key := regsNat (v.getD 1 [])
    Clear s i x.h sh → s.outstanding i = false → s.fenceWaits i x.h .sc = false → i.g.kiln = some b → b.keyBad key = false →
    (s.afterRead i x.h sh).slotOf i.g = some slot →
    exec (.ksig x) s = .next (s.performed i x.h sh 1 fun i k t =>
      (t.enqueueKiln i (.ksig x) (some slot) (some b) k.ts [(none, BitVec.ofNat 64 (regsNat (v.getD 0 [])), BitVec.ofNat 64 key)], .next []))) ∧
  (∀ (x : OpDA) s i b, let sh : Shape := { srcs := [{ field := 2, op := x.a, strict := true }], dst := some { op := x.d }, suppress := true }
    Clear s i x.h sh → s.outstanding i = false → s.fenceWaits i x.h .sc = false → i.g.kiln = some b →
    (∀ m ∈ (s.sees i x.h sh).vals, b.keyBad (regsNat (m.2.headD [])) = false) →
    exec (.ktest x) s = .next (s.performed i x.h sh 1 fun i k t =>
      (t.enqueueKiln i (.ktest x) none (some b) k.ts
        (k.vals.map fun m => (if k.uni then none else some m.1, BitVec.ofNat 64 (regsNat (m.2.headD [])), 0)), .next []))) ∧
  (∀ (x : OpDA) s i b, let sh : Shape := { srcs := [{ field := 2, op := x.a, strict := true }], dst := some { op := x.d, n := 2 } }
    Clear s i x.h sh → i.g.kiln = some b → (∀ m ∈ (s.sees i x.h sh).vals, b.keyBad (regsNat (m.2.headD [])) = false) →
    exec (.kreuse x) s = .next (s.performed i x.h sh 1 fun i k t =>
      (k.vals.foldl (fun t m => t.writeDst i.r.g i.r.w i.g { op := x.d, n := 2 } m.1 (if k.uni then k.ts else [m.1])
        (regsOf 2 (b.cacheVa (keyBlock (regsNat (m.2.headD []))) (keyTile (regsNat (m.2.headD [])))) false)) t, .next []))) ∧
  (∀ (x : OpDAB) s i b s1 bs (words : Nat) (instr : Instr)
      (f : Ctx → KilnAt → KilnBind → Nat → Nat → State → Except Nat (State × Option Nat × Bool)), let sh := kmapShape x words
    let step := fun (m : Nat × List (List Reg)) => regsNat (m.2.getD 0 [])
    let key := fun (m : Nat × List (List Reg)) => regsNat (m.2.getD 1 [])
    let top := leNat (bs.map fun (y : Byte × Bool) => y.1)
    (words = 2 ∧ instr = .kmap x ∧ f = (fun c at_ b step key s =>
        let va := b.mapVa step (keyBlock key) 0 + 8 * (key % 2 ^ 16)
        match s.kilnRead c at_ va 8 with
        | some (s, bs) => .ok (s, some (leNat (bs.map (·.1))), bs.any (·.2))
        | none => .error va) ∨
      words = 1 ∧ instr = .kmapSrc x ∧ f = (fun c at_ b step key s => s.mapSearch c at_ b (keyBlock key) (keyTile key) (b.limit + 1) step false)) →
    Clear s i x.h sh → s.outstanding i = false → s.fenceWaits i x.h .sc = false → s.kilnBusy i = false → i.g.kiln = some b →
    (s.afterRead i x.h sh).kilnRead i.c i.g.kilnAt b.stepVa 4 = some (s1, bs) →
    (∀ m ∈ (s.sees i x.h sh).vals, b.keyBad (key m) = false ∧ step m ≤ top ∧ top < step m + b.nmap) →
    let k := s.sees i x.h sh
    let u := k.vals.foldl (fun t m => t.kmapOne i x.d words (key m) m.1 (if k.uni then k.ts else [m.1]) (f i.c i.g.kilnAt b (step m) (key m) t)) s1
    let at_ := PathRef.waitKey i.r i.p
    s.arrives at_ 2 u →
    exec instr s = .next (s.performed i x.h sh 1 fun _ _ _ => (u.arrive at_, .next []))) ∧
  (∀ (x : KendOps) s i, let sh : Shape := { srcs := [uniSrc 1 x.d 2], uni := some true, suppress := true }
    Clear s i x.h sh → s.outstanding i = false → s.fenceWaits i x.h .sc = false →
    exec (.kend x) s = .next (s.performed i x.h sh 1 fun i k t =>
      ((t.updGroup i.r.g fun g => { g with kiln := none }).enqueueKiln i (.kend x) none i.g.kiln k.ts
        [(none, BitVec.ofNat 64 (regsNat (((k.vals.headD (0, [])).2).headD [])), 0)], .next [])))

/-! ### Tasks and services -/

/-- R323 to R329, R92, R93: the task instructions complete. LAUNCH accepts a launch for each address and TASK.RANGE creates a family, and D
receives an identifier or the number of records; TASK.NEXT and TASK.GET hand chunks to the threads of a worker, TASK.GET after a
split when its own record is empty; TASK.DONE ends its threads; KINDLE stages a region of its warp. -/
def Obligations.TaskInstructionsComplete : Prop :=
  (∀ (x : OpDA) s i u, let sh := launchShape x
    let key := PathRef.waitKey i.r i.p
    Clear s i x.h sh → s.mustWait i x.h 2 .rel true = false → s.outstanding i = false →
    State.eachActs i (s.sees i x.h sh) x.d (fun t va => match t.readRecord i va with
      | none => .error 10
      | some (t, bs, bad) => (t.checkLaunch bs bad).map fun r => t.accept i.c.num r) (s.afterRead i x.h sh) (s.sees i x.h sh).vals = some u →
    s.arrives key 2 u →
    exec (.launch x) s = .next (s.performed i x.h sh 1 fun _ _ _ => (u.arrive key, .next []))) ∧
  (∀ (x : OpDA) s i u, let sh := launchShape x
    let key := PathRef.waitKey i.r i.p
    Clear s i x.h sh → s.mustWait i x.h 2 .rel true = false → s.outstanding i = false →
    State.eachActs i (s.sees i x.h sh) x.d (fun t va => match t.readRecord i va with
      | none => .error 10
      | some (t, bs, bad) => (checkRange bs bad).map fun r => t.createFamily i.g i.w r) (s.afterRead i x.h sh) (s.sees i x.h sh).vals = some u →
    let v := if (s.sees i x.h sh).vals = [] then u else u.updWarp i.r.g i.r.w fun w => { w with reg0 := Region.none, reg1 := Region.none }
    s.arrives key 2 v →
    exec (.taskRange x) s = .next (s.performed i x.h sh 1 fun _ _ _ => (v.arrive key, .next []))) ∧
  (∀ (x : OpD) s i cl ix own, Clear s i x.h (chunkShape x) → i.g.task = some (cl, ix) → s.task? cl ix = some own →
    (s.tooLate own (chunkOrder false i.g.core) = false →
      exec (.taskNext x) s = .next (s.performed i x.h (chunkShape x) 1 fun i k t =>
        ((t.updFamily own.family fun t => { t with acted := (s.coreClock, chunkOrder false i.g.core) }).chunks i x.d own.cluster own.index k.ts,
          .next []))) ∧
    (s.tooLate own (chunkOrder true i.g.core) = false →
      exec (.taskGet x) s = .next (s.performed i x.h (chunkShape x) 1 fun i k t =>
        let t := t.updFamily own.family fun t => { t with acted := (s.coreClock, chunkOrder true i.g.core) }
        ((if own.left = 0 ∧ ¬(i.g.versioned = true ∧ 30 ≤ i.g.segments.length) then (t.split i.r.g own).getD t else t).chunks
          i x.d own.cluster own.index k.ts, .next [])))) ∧
  (∀ (x : Op0) s i, let sh : Shape := { srcs := [], uni := some false, suppress := true, execOnly := true }
    Clear s i x.h sh → exec (.taskDone x) s = .next ((s.performed i x.h sh 1 fun i k t =>
      (t.exitThreads i.r i.p.access (i.p.pc + BitVec.ofNat 64 i.size) k.ts, .next [])).tryEnd i.r.g)) ∧
  (∀ (x : KindleOps) s i,
    let src := fun f (o : Operand) => ({ field := f, op := o, n := 2, strict := true, uni := true } : Src)
    let sh : Shape := { srcs := [src 2 x.a, src 3 x.b], uni := some true, suppress := true, execOnly := true }
    Clear s i x.h sh → exec (.kindle x) s = .next (s.performed i x.h sh 1 fun i k t =>
      let v := (k.vals.headD (0, [])).2
      let b := regsNat (v.getD 1 [])
      let r : Region := if b / 2 ^ 32 % 2 ^ 16 = 0 then Region.none else
        { base := BitVec.ofNat 64 (regsNat (v.getD 0 [])), str := BitVec.ofNat 32 b, ext := BitVec.ofNat 16 (b / 2 ^ 32),
          soff := BitVec.ofNat 16 (b / 2 ^ 48) }
      (t.updWarp i.r.g i.r.w fun w => if x.region then { w with reg1 := r } else { w with reg0 := r }, .next [])))

/-- R330 to R332: SVC writes one record for its live members to the next slot of the service queue and gives them its ticket; SVC.WAIT
completes at once when every ticket's reply stands, and D receives the replies. -/
def Obligations.ServiceCompletes : Prop :=
  (∀ (x : SvcOps) s i e ticket ps, let u := s.withSignature i (.svc x) x.h x.cv
    SignClear s i x.h (SvcOps.ops x).shape x.cv true → GenClear u ⟨i.r.g, x.cv, i.r.w⟩ e (SvcOps.ops x) → u.genVals e (SvcOps.ops x) ≠ [] →
    u.freeSlot e.c (serviceBytes e.g.width) = some (ticket, ps) → u.wbRange e.c (e.c.slotVa ticket) (serviceBytes e.g.width) = false →
    u.deviceStalled e.c (e.c.slotVa ticket) (serviceBytes e.g.width) = false →
    exec (.svc x) s = .next (u.genPerformed e (SvcOps.ops x) fun e vals t =>
      vals.foldl (fun t m => t.genWrite e { op := x.d } m.1 (regsOf 1 ticket false))
        (t.writeService e.c e.g (e.warps.headD 0) x.fn.val ticket
          (vals.map fun m => (m.1.pos, regsNat (m.2.getD 0 []), regsNat (m.2.getD 1 [])))))) ∧
  (∀ (x : OpDA) s i, let sh := svcWaitShape x
    let reply := fun (t : State) (m : Nat × List (List Reg)) => t.reply i.c m.1 (BitVec.ofNat 32 (regsNat (m.2.headD [])))
    Clear s i x.h sh → s.outstanding i = false →
    (∀ m ∈ (s.sees i x.h sh).vals, ∃ r slot, reply (s.afterRead i x.h sh) m = .ready r slot) →
    exec (.svcWait x) s = .next (s.performed i x.h sh 1 fun i k t =>
      (t.takeReplies i.g i.r.w x.d k.uni k.ts (k.vals.map fun m => (m.1, reply t m)), .next [])))

/-! ### Exceptions and system registers -/

/-- R334, R335: TRAP makes each thread that takes it enter its handler with its cause, to return to the next instruction; BKPT does so
when breakpoints are enabled and nothing otherwise; ERET returns each thread from its frame. A trap follows every earlier access,
and no thread of the path is in a handler when it traps (R447). -/
def Obligations.TrapAndReturnComplete : Prop :=
  (∀ (x : OpA) s i, let sh : Shape := { srcs := [srcA x.a 1], uni := some false, flat := true, execOnly := true }
    Clear s i x.h sh → s.outstanding i = false →
    (s.afterRead i x.h sh).nested i.r.g i.r.w (maskOf ((s.sees i x.h sh).vals.map (·.1))) = false →
    exec (.trap x) s = .next (s.performed i x.h sh 1 fun i k t =>
      (k.vals.foldl (fun t m => t.enter i.r (maskOf [m.1]) (i.p.pc + BitVec.ofNat 64 i.size) (regsNat (m.2.headD [])) false false) t, .next []))) ∧
  (∀ (x : BkptOps) s i, let sh : Shape := { srcs := [], uni := some false, flat := true, execOnly := true }
    Clear s i x.h sh →
    (i.c.dbgEn.getLsbD 0 = false → exec (.bkpt x) s = .next (s.performed i x.h sh 1 fun _ _ t => (t, .next []))) ∧
    (i.c.dbgEn.getLsbD 0 = true → s.outstanding i = false →
      (s.afterRead i x.h sh).nested i.r.g i.r.w (maskOf (s.sees i x.h sh).ts) = false →
      exec (.bkpt x) s = .next (s.performed i x.h sh 1 fun i k t =>
        (k.ts.foldl (fun t u => t.enter i.r (maskOf [u]) (i.p.pc + BitVec.ofNat 64 i.size) (0x10000 + x.n.toNat) false false) t, .next [])))) ∧
  (∀ (x : Op0) s i, let sh : Shape := { srcs := [], uni := some false, flat := true, execOnly := true }
    Clear s i x.h sh → (∀ t ∈ (s.sees i x.h sh).ts, (i.thread t).super = true ∧ (i.thread t).trapped = true) →
    exec (.eret x) s = .next (s.performed i x.h sh 1 fun i k t => ((t.leave i.r (maskOf k.ts)).1, .next (t.leave i.r (maskOf k.ts)).2)))

/-- R153, R330, R333, R336 to R341, R464, R502: SRD completes for every register at a level that may read it, and writes D; SWR does so at a
level that may write it. TLBINV drops the translations of its form, a new ring base or size empties the ring, SVCDONE answers a
record or replays, resumes or ends what its ticket names, a write of WPS clears the watchpoint, and any other register is written.
PREEMPT and PREEMPT.RES raise a request at supervisor level. WATCH sets a watchpoint at the physical address of a mapped page. -/
def Obligations.SystemInstructionsComplete : Prop :=
  (∀ (x : SrdOps) s i, let sh := SrdOps.shape x
    Clear s i x.h sh → (saccess x.sreg.toNat = .super → i.anyProgram (s.sees i x.h sh).ts = false) →
    exec (.srd x) s = .next (s.performed i x.h sh 1 fun i k t =>
      ((k.vals.foldl (fun t m => t.writeDst i.r.g i.r.w i.g { op := x.d, n := 2 } m.1 (if k.uni then k.ts else [m.1])
        (regsOf 2 (t.sread i m.1 x.sreg.toNat).toNat false)) t).tick, .next []))) ∧
  (∀ x : SwrOps, SwrCompletes (.swr x) x fun i ctx v t => t.swr x.sreg.toNat i ctx v) ∧
  (∀ x : SwrOps, SwrCompletes (.tlbinvPage x) x fun i ctx v t => t.invalidate i ctx 0 v) ∧
  (∀ x : SwrOps, SwrCompletes (.tlbinvContext x) x fun i ctx v t => t.invalidate i ctx 1 v) ∧
  (∀ x : SwrOps, SwrCompletes (.tlbinvAll x) x fun i ctx v t => t.invalidate i ctx 2 v) ∧
  (∀ x : SwrOps, SwrCompletes (.svcqRingReset x) x fun _ ctx v t => t.ringReset ctx x.sreg.toNat v) ∧
  (∀ x : SwrOps, SwrCompletes (.svcdoneReply x) x fun _ ctx v t => t.answerRecord ctx (v.toNat % 2 ^ 32)) ∧
  (∀ x : SwrOps, SwrCompletes (.spillReplay x) x fun _ ctx v t => t.replayTicket ctx (v.toNat % 2 ^ 32)) ∧
  (∀ x : SwrOps, SwrCompletes (.spillAbort x) x fun _ ctx v t => t.abortTicket ctx (v.toNat % 2 ^ 32)) ∧
  (∀ x : SwrOps, SwrCompletes (.sequencerResume x) x fun _ ctx v t => t.resumeTicket ctx (v.toNat % 2 ^ 32)) ∧
  (∀ x : SwrOps, SwrCompletes (.sequencerAbort x) x fun _ ctx v t => t.endTicket ctx (v.toNat % 2 ^ 32)) ∧
  (∀ x : SwrOps, SwrCompletes (.wpsClear x) x fun _ ctx _ t => t.clearWatch ctx (x.sreg.toNat - 0x070)) ∧
  (∀ (x : OpA) s i, let sh : Shape := { srcs := [{ field := 2, op := x.a, n := 1, uni := true }], uni := some true, flat := true,
                                        execOnly := true }
    let ctx := regsNat (((s.sees i x.h sh).vals.headD (0, [])).2.headD [])
    Clear s i x.h sh → i.anyProgram (s.sees i x.h sh).ts = false →
    exec (.preempt x) s = .next (s.performed i x.h sh 1 fun _ _ t =>
      (t.updCtx ctx fun c => { c with requests := c.requests ++ [false] }, .next []))) ∧
  (∀ (x : OpA) s i, let sh : Shape := { srcs := [{ field := 2, op := x.a, n := 1, uni := true }], uni := some true, flat := true,
                                        execOnly := true }
    let ctx := regsNat (((s.sees i x.h sh).vals.headD (0, [])).2.headD [])
    Clear s i x.h sh → i.anyProgram (s.sees i x.h sh).ts = false →
    exec (.preemptRes x) s = .next (s.performed i x.h sh 1 fun _ _ t =>
      (t.updCtx ctx fun c => { c with requests := c.requests ++ [true] }, .next []))) ∧
  (∀ (x : OpAB) s i e,
    let sh : Shape := { srcs := [{ field := 2, op := x.a, n := 2, uni := true, strict := true }, { field := 3, op := x.b, n := 1, uni := true }],
                        uni := some true, flat := true, execOnly := true }
    let v := ((s.sees i x.h sh).vals.headD (0, [])).2
    let b := regsNat (v.getD 1 [])
    let sz := b / 16 % 16
    let va := regsNat (v.getD 0 []) / 2 ^ sz * 2 ^ sz
    let key := PathRef.waitKey i.r i.p
    Clear s i x.h sh → sz ≤ 10 → (s.afterRead i x.h sh).translate i.c va i.g.via = .ok e →
    let t := (s.afterRead i x.h sh).walked i.g.via e
    let u := (({ t with mem := t.mem.hold i.g.via e } : State).updCtx i.c.num fun c => { c with
      watch := c.watch.modify (b % 8) fun w => { w with kind := b / 2 ^ 8 % 4, sz := sz, base := e.pa va } }).tick
    s.arrives key 0 u →
    exec (.watch x) s = .next (s.performed i x.h sh 1 fun _ _ _ => (u.arrive key, .next [])))

/-! ### The sequencers of the fabric -/

/-- R370, R371, R379: the ZF instructions on registers, and the branches, complete with the results that the rules give, and change
nothing else of the machine. -/
def Obligations.SequencerRegisterResults : Prop :=
  (∀ x : ZfImm, SeqMoves (.movi x) (fun i => i.q.pc + 4) fun i => i.holds x.d (i.q.reg x.a * 65536 + BitVec.ofNat 64 x.imm.toNat)) ∧
  (∀ x : ZfImm, SeqMoves (.addi x) (fun i => i.q.pc + 4) fun i => i.holds x.d (i.q.reg x.a + BitVec.ofInt 64 x.imm.toInt)) ∧
  (∀ x : ZfRegs, SeqMoves (.zfAdd x) (fun i => i.q.pc + 4) fun i => i.holds x.d (i.q.reg x.a + i.q.reg x.b)) ∧
  (∀ x : ZfRegs, SeqMoves (.zfSub x) (fun i => i.q.pc + 4) fun i => i.holds x.d (i.q.reg x.a - i.q.reg x.b)) ∧
  (∀ x : ZfImm, SeqMoves (.beq x)
    (fun i => if i.q.reg x.d = i.q.reg x.a then i.q.pc + 4 * BitVec.ofInt 64 x.imm.toInt else i.q.pc + 4) fun i => i.q.reg) ∧
  (∀ x : ZfImm, SeqMoves (.bne x)
    (fun i => if i.q.reg x.d = i.q.reg x.a then i.q.pc + 4 else i.q.pc + 4 * BitVec.ofInt 64 x.imm.toInt) fun i => i.q.reg) ∧
  (∀ imm, SeqMoves (.zfBra imm) (fun i => i.q.pc + 4 * BitVec.ofInt 64 imm.toInt) fun i => i.q.reg)

/-- R353, R355, R366, R367, R371, R374, R379: the ZF instructions on counters and embers complete. CWAIT goes on once VALUE has reached its
bound and else waits; CADV raises VALUE to the larger; CADD adds; CADV.RMT hands its advance over, or holds it while puts that
it covers are open; EMB.BIND binds an idle or new ember, zeroing a new one; EMB.FOLD adds the residuals to the elements and
raises the version; DONE frees the sequencer context. Each happens once every sector that it reaches serves it. -/
def Obligations.SequencerCountersAndEmbersComplete : Prop :=
  (∀ (x : ZfWait) s i v, let va := (i.q.reg x.a).toNat
    let u := (s.countIssue i).seqTouch i.c i.n va
    let t := if (i.q.reg x.b).toNat ≤ v then u.seqNext i (i.q.pc + 4) id
      else u.updSeq i.n fun q => { q with wait := some (i.q.reg x.a, i.q.reg x.b), timer := 0 }
    s.siss? = some i → x.scope.val < 6 → (s.countIssue i).seqCounter i.c va = .ok v → s.arrives (seqKey i.n) 1 t →
    exec (.cwait x) s = .next (t.arrive (seqKey i.n))) ∧
  (∀ (x : ZfAdv) s i l, let va := (i.q.reg x.a).toNat
    let u := s.countIssue i
    let v := (u.holdRange i.c (va / 16 * 16) 16).ctrPut l 0 (leBytes 8 (max (u.ctrGet l).1 (i.q.reg x.b).toNat)) (u.ctrGet l).2.2
    let t := (match l with
      | .phys pa => ((v.served (pa / 1024) 1 false).watch true true pa 8 5 (i.n / 8)).1
      | .scratch _ _ => v).seqNext i (i.q.pc + 4) id
    s.siss? = some i → x.scope.val < 6 → u.ctrStalled i.c va = false → u.engineCtr i.c va = .ok l → s.arrives (seqKey i.n) 1 t →
    exec (.cadv x) s = .next (t.arrive (seqKey i.n))) ∧
  (∀ (x : ZfAdv) s i, let va := (i.q.reg x.a).toNat
    let u := s.countIssue i
    let t := (u.advance i.q.ctx va (i.q.reg x.b).toNat 8 (i.n / 8)).seqNext i (i.q.pc + 4) id
    s.siss? = some i → x.scope.val < 6 → u.ctrStalled i.c va = false → s.arrives (seqKey i.n) 1 t →
    exec (.cadd x) s = .next (t.arrive (seqKey i.n))) ∧
  (∀ (x : ZfRmt) s i s1 p, let n := (i.q.reg x.d).toNat % 4096
    s.siss? = some i → n < i.c.npeer → (s.countIssue i).getPeer i n = .ok (s1, p) →
    let covers := if x.rel then s1.openPuts i n else []
    let s2 := (s1.openRemote i n p none 0).1
    let o := (s1.openRemote i n p none 0).2
    let k : Packet := { kind := .advance, dstIp := p.ip, srcIp := 0, jobId := p.jobId, src := Config.self, pdc := o.pdc, peer := n, psn := 0,
                        addr := i.q.reg x.a, bytes := [], poison := [], len := 8, value := i.q.reg x.b, rel := x.rel, rod := p.rod,
                        addrPoison := false, op := o.id }
    let s3 := s2.updRemote o.id fun o => { o with sent := true, left := 1 }
    let held := (s3.updRemote o.id fun o => { o with covers := covers, advance := some k }).seqNext i (i.q.pc + 4) id
    let gone := (s3.handOver o k).seqNext i (i.q.pc + 4) id
    (covers ≠ [] → s.arrives (seqKey i.n) 1 held → exec (.cadvRmt x) s = .next (held.arrive (seqKey i.n))) ∧
    (covers = [] → s3.sendRoom o.pdc ≠ 0 → s.arrives (seqKey i.n) 1 gone → exec (.cadvRmt x) s = .next (gone.arrive (seqKey i.n)))) ∧
  (∀ (x : ZfRegs) s i s1 e s2, let h := (i.q.reg x.a).toNat % 65536
    let t := s2.seqSet i x.d (e.version.setWidth 64)
    s.siss? = some i → (s.countIssue i).getEmber i h = .ok s1 e → (e.state = 1 ∨ e.state = 3) →
    e.site = (i.q.reg x.b).toNat % 2 ^ 38 → e.broken = false →
    s1.seqWrites i.c i.n s1.stamp ((if e.state = 1 then [(e.base, List.replicate (e.nelem * e.size) ((0 : Byte), false))] else []) ++
      [(e.va, ({ e with state := 2, seqctx := i.n } : Ember).low.map fun b => (b, false))]) = .ok s2 →
    s.arrives (seqKey i.n) 1 t → exec (.embBind x) s = .next (t.arrive (seqKey i.n))) ∧
  (∀ (x : ZfFold) s i s1 e s2 own res s3, let h := (i.q.reg x.a).toNat % 65536
    let z := localSize x.lbf16
    let at_ := ((i.q.reg x.b).toNat + z * e.elo) % 2 ^ 64
    let t := s3.seqNext i (i.q.pc + 4) id
    s.siss? = some i → (s.countIssue i).getEmber i h = .ok s1 e → e.state = 4 → e.broken = false →
    s1.seqReads i.c i.n [(at_, z * e.nelem), (e.base, e.size * e.nelem)] = .ok (s2, [own, res]) →
    s2.seqWrites i.c i.n s2.stamp
      [(at_, elementBytes z (((elements z e.nelem own).zip (elements e.size e.nelem res)).map fun y =>
        (addRne (localSpec x.lbf16) ((localSpec x.lbf16).decode y.1.1) (e.spec.decode y.2.1), y.1.2 || y.2.2))),
        (e.va, ({ e with state := 0, version := e.version + 1 } : Ember).low.map fun b => (b, false))] = .ok s3 →
    s.arrives (seqKey i.n) 1 t → exec (.embFold x) s = .next (t.arrive (seqKey i.n))) ∧
  (∀ s i t, s.siss? = some i → (s.countIssue i).idleEmbers i.n i.c = .ok t → s.arrives (seqKey i.n) 1 (t.dropSeq i.n) →
    exec .zfDone s = .next ((t.dropSeq i.n).arrive (seqKey i.n)))

/-- R182, R184, R353, R372, R375 to R378, R381, R506, R507: a transfer is performed block by block. It begins once its word, its ember and
its peer are good; every block takes its window of destination lines when it begins one, reads the source lines that the
transfer has not read, leaves the bytes that the rules give in its lines, writes each line that no later block of the window
touches next, and gathers its wire bytes, which go out in packets; a bad wire byte or residual is recorded once; after the last
block the ember's version rises, what is left goes out, or the receiver's counter is advanced, and the program goes on. -/
def Obligations.SequencerTransfersComplete : Prop :=
  ∀ (kind : XKind) (x : ZfTransfer) s i,
    let instr : Instr := match kind with | .send => .xsend x | .recv => .xrecv x | .red => .xred x | .fwd => .xfwd x
    let o := XOps.of kind x i.q
    let j := i.q.blocks
    s.siss? = some i →
    (∀ s1 xf, i.q.xfer = none → (s.countIssue i).beginXfer i o = .ok (s1, xf) →
      let q := { i.q with xfer := some xf, blocks := 0, packets := 0 }
      let t := (s1.updSeq i.n fun _ => q).xferStep { i with q := q } o xf
      s.arrives (seqKey i.n) 1 t → exec instr s = .next (t.arrive (seqKey i.n))) ∧
    (∀ xf s1 x1 pss s2 x3, i.q.xfer = some xf → j < o.total → (∀ r, xf.op.bind s.remote? = some r → 2 ≤ s.sendRoom r.pdc) →
      let w := if xf.until_ ≤ j ∧ o.dests xf.ember j ≠ [] then s.seqWindow i.c o j xf else (s, xf)
      w.1.seqLines i.c i.n w.2 (o.reads xf.ember j) = .ok (s1, x1) →
      let out := o.block xf.ember j ((o.reads xf.ember j).map x1.bytes)
      (o.dests xf.ember j).mapM (fun d => s1.seqPieces i.c true x1.taken d.1 d.2) = .ok pss →
      let x2 := { x1 with
        pend := x1.pend ++ out.writes.flatMap fun w => w.2.zipIdx.map fun b => (w.1 + b.2, b.1)
        wire := x1.wire ++ out.wire
        noted4B := xf.noted4B || out.bad4B.isSome
        noted4D := xf.noted4D || out.bad4D.isSome }
      let next := if j + 1 < o.total then linesAt (o.dests xf.ember (j + 1)) else []
      s1.seqPut i.c i.n x2 (((x2.pend.map fun b => b.1 / 32).eraseDups).filter fun l => !(next.contains l)) = .ok (s2, x3) →
      let s3 := s2.updSeq i.n fun q => { q with blocks := j + 1, xfer := some x3 }
      let s4 := match out.bad4B with
        | some a => if xf.noted4B then s3 else s3.noteWire i 0x4B a j
        | none => s3
      let s5 := match out.bad4D with
        | some a => if xf.noted4D then s4 else s4.noteWire i 0x4D a j
        | none => s4
      let t := (if o.sends && o.kind ≠ .fwd then s5.count 5 (i.n / 8) 1 1 else s5).flush i.n o false 2
      s.arrives (seqKey i.n) 1 t → exec instr s = .next (t.arrive (seqKey i.n))) ∧
    (∀ xf s1, i.q.xfer = some xf → o.total ≤ j →
      (∀ e, xf.ember = some e → s.putEmber i.c i.n { e with version := e.version + 1, seqctx := i.n } = .ok s1) → (xf.ember = none → s1 = s) →
      (∀ n, o.sends = true → xf.op = some n →
        let t := (((s1.flush i.n o true 2).updRemote n fun r => { r with sent := true }).settleOp n).seqNext i (i.q.pc + 4) id
        s.arrives (seqKey i.n) 1 t → exec instr s = .next (t.arrive (seqKey i.n))) ∧
      (o.sends = false →
        let t := (match o.ctr i.q with
          | some a => s1.advance i.q.ctx a.toNat o.byteCount 8 (i.n / 8)
          | none => s1).seqNext i (i.q.pc + 4) id
        s.arrives (seqKey i.n) 1 t → exec instr s = .next (t.arrive (seqKey i.n))))

/-- R202, R203, R406, R430, R501, R503: a word that is no instruction traps the path that would issue it with class 0x10 and the first
condition that the word breaks, and one that cannot be fetched with class 0x25; a path whose every thread is suppressed passes
it. A ZF word that is no instruction, or that cannot be fetched, stops its sequencer context with class 0x48. -/
def Obligations.WordsThatAreNoInstruction : Prop :=
  (∀ (cond : Fin 16) s i, s.iss? = some i → s.outstanding i = false →
    exec (.notAnInstruction cond) s = .next (if i.active = 0 then s.finish i.r i.size [] else s.faultPath i 0x10 0 cond.val)) ∧
  (∀ detail addr s i, s.iss? = some i → s.outstanding i = false →
    exec (.fetchFault detail addr) s = .next (s.faultPath i 0x25 addr.toNat detail)) ∧
  (∀ word s i, s.siss? = some i →
    exec (.zfOpcodeNotAllocated word) s =
      .next ((s.countIssue i).stopProg i.q.key i.n i.q.ctx i.q.pc 0x48 0 (zfKind word + word.toNat / 2 ^ 26 * 16))) ∧
  (∀ s i, s.siss? = some i → exec .zfWordNotFetched s = .next ((s.countIssue i).stopProg i.q.key i.n i.q.ctx i.q.pc 0x48 0 9))

/-! ### The control node's commands -/

/-- R188, R382, R383, R388: the commands on memory and counters complete: IMAGE writes its bytes by physical address, MEMWR and MEMRD
go through a context's tables, CTRMAX raises a counter to the larger value; each is answered with its tag, once every sector that
it reaches serves it. -/
def Obligations.MemoryCommandsComplete : Prop :=
  (∀ (x : AkBytes) s, s.takesCommand → x.addr.toNat % 64 = 0 → 64 ≤ x.bytes.length → x.bytes.length ≤ 4096 →
    hbmPa x.addr.toNat = true → hbmPa (x.addr.toNat + x.bytes.length - 1) = true → s.ownedRange x.addr.toNat x.bytes.length = false →
    let t := (s.nodeWrite x.addr.toNat x.bytes).tell (replyTo x.h 0 [])
    s.arrives nodeKey nodeReq t → exec (.image x) s = .next (t.arrive nodeKey)) ∧
  (∀ (x : AkBytes) s c ps, s.takesCommand → s.ctx? x.h.ctx = some c → 1 ≤ x.bytes.length → x.bytes.length ≤ 4096 →
    s.piecesAt c none (piecesOf x.addr.toNat x.bytes.length) = .ok ps → (∀ p ∈ ps, attrCtr p.e.attr = false ∧ attrW p.e.attr = true) →
    wbPiece ps = false → s.ownedPieces ps = false →
    let t := (s.engineWrite nodeReq nodeClass 0 ps (clean x.bytes)).tell (replyTo x.h 0 [])
    s.arrives nodeKey nodeReq t → exec (.memwr x) s = .next (t.arrive nodeKey)) ∧
  (∀ (x : AkRead) s c ps u bs, s.takesCommand → s.ctx? x.h.ctx = some c → 1 ≤ x.len → x.len ≤ 4096 →
    s.piecesAt c none (piecesOf x.addr.toNat x.len) = .ok ps → (∀ p ∈ ps, attrCtr p.e.attr = false) → s.ownedPieces ps = false →
    s.engineRead c x.addr.toNat x.len nodeReq nodeClass 0 = some (u, bs) →
    let t := u.tell (replyTo x.h 0 (bs.map (·.1)))
    s.arrives nodeKey nodeReq t → exec (.memrd x) s = .next (t.arrive nodeKey)) ∧
  (∀ (x : AkCtr) s c l, s.takesCommand → s.ctx? x.h.ctx = some c → x.addr.toNat % 16 = 0 → s.engineCtr c x.addr.toNat = .ok l →
    s.wbRange c x.addr.toNat 16 = false →
    let u := (s.holdRange c x.addr.toNat 16).ctrPut l 0 (leBytes 8 (max (s.ctrGet l).1 x.v.toNat)) (s.ctrGet l).2.2
    let t := (match l with
      | .phys pa => ((u.served (pa / 1024) nodeReq false).watch true true pa 8 nodeClass 0).1
      | .scratch .. => u).tell (replyTo x.h 0 [])
    s.arrives nodeKey nodeReq t → exec (.ctrmax x) s = .next (t.arrive nodeKey))

/-- R86, R87, R346, R365, R370, R382, R427: the commands that start work complete: CTXNEW makes a context that runs, ROOTGO accepts a root
launch and answers its number, SEQGO starts a ZF program on a free sequencer context. -/
def Obligations.WorkCommandsComplete : Prop :=
  (∀ (x : AkCtxNew) s, s.takesCommand → s.ctx? x.h.ctx = none → 1 ≤ x.h.ctx → x.h.ctx ≤ 255 → x.npeer ≤ 4096 → 1 ≤ x.nemb → x.nemb ≤ 65536 →
    exec (.ctxnew x) s = .next (({ s with ctxs := s.ctxs ++ [{ Ctx.start x.h.ctx x.super with
      ptRoot := x.ptroot
      jobId := x.jobId
      peerBase := x.peerBase
      npeer := x.npeer
      embBase := x.embBase
      nemb := x.nemb }] } : State).tell (replyTo x.h 0 []))) ∧
  (∀ (x : AkRoot) s c r t id, s.takesCommand → s.ctx? x.h.ctx = some c → s.readLaunch c x.addr = .ok r →
    (s.holdRange c x.addr.toNat 64).accept c.num r = (t, id) → id ≠ 0 → exec (.rootgo x) s = .next (t.tell (replyTo x.h id []))) ∧
  (∀ (x : AkSeq) s c, s.takesCommand → s.ctx? x.h.ctx = some c → x.seq < Config.seqContexts → (∀ q ∈ s.seqs, q.1 ≠ x.seq) →
    x.entry.toNat % 4 = 0 → x.block.length = 120 →
    exec (.seqgo x) s = .next (({ s with
      stamp := s.stamp + 1
      seqs := s.seqs ++ [(x.seq, Seq.start s.stamp c.num x.entry x.block)] } : State).tell (replyTo x.h 0 [])))

/-- R343, R344, R348, R382, R384, R387, R390, R391: the commands on ports, keys, sparks and power complete: a port configuration record
is written whole, at once or, for MODE 0, once its stored frames are acknowledged; a key slot is loaded once no stored frame is
under it; a snapshot of a held spark is answered; SPARK answers its number; POWER sets the state. -/
def Obligations.PortAndPowerCommandsComplete : Prop :=
  (∀ (x : AkPort) s, let v := leNat x.record
    let p := s.port x.port
    let mode := v % 4
    s.takesCommand → x.port < Config.ports → x.record.length = 64 → mode ≠ 3 → (p.mode ≠ 0 → p.differs v = false) →
    (mode = 2 → s.longReachBad x.port v = false ∧ longReachOut v = false) →
    (mode ≠ 0 ∨ p.mode = 0 →
      exec (.portcfg x) s = .next ((s.updPort x.port fun p => (if p.mode = 0 ∧ mode ≠ 0 then p.restart else p).configure v).tell (replyTo x.h 0 []))) ∧
    (mode = 0 → p.mode ≠ 0 → (p.store = [] ∨ p.failed = true) →
      exec (.portcfg x) s = .next ((s.updPort x.port Port.off).tell (replyTo x.h 0 []))) ∧
    (mode = 0 → p.mode ≠ 0 → p.store ≠ [] → p.failed = false →
      exec (.portcfg x) s = .next (s.updPort x.port fun p => { p with mode0 := some x.h.tag }))) ∧
  (∀ (x : AkKey) s, let k : KeySlot := { sak := x.sak, salt := x.salt, ssci := x.ssci, nextPn := x.nextPn, valid := true }
    s.takesCommand → x.port < Config.ports → x.slot < 4 →
    exec (.keyload x) s = .next (if ∀ f ∈ (s.port x.port).store, f.an ≠ x.slot
      then (s.applyKey x.port x.slot k x.switch).tell (replyTo x.h 0 [])
      else s.updPort x.port fun p => { p with load := some (x.h.tag, x.slot, k, x.switch) })) ∧
  (∀ (x : AkSnap) s k, s.takesCommand → x.block < blocksOf x.cls → s.dev.snaps.find? (fun k => k.no = x.spark) = some k →
    exec (.snaprd x) s = .next (s.tell (replyTo x.h 0 (k.bytes x.cls x.block)))) ∧
  (∀ (x : AkVal) s, s.takesCommand → x.value < 2 ^ 16 →
    exec (.akoonSpark x) s = .next ((s.spark 3 x.value).1.tell (replyTo x.h (s.spark 3 x.value).2.toNat []))) ∧
  (∀ (x : AkVal) s, s.takesCommand → x.value < 4 → (x.value = 3 → s.groups = []) →
    exec (.power x) s = .next (({ s with dev := { s.dev with power := x.value } } : State).tell (replyTo x.h 0 [])))

/-- R382, R385, R386, R425, R426: with its image checked, bring-up ends with the ready message, after which commands are taken; RESET of the device takes it back to
power-up, also under containment, and RESET of a context stops it and discards all of it; a code that is no command is answered
with status 1 and an error message, and does nothing else. -/
def Obligations.ResetAndUnknownCommands : Prop :=
  (∀ s, s.phase = .bringUp → s.dev.image.isSome = true →
    exec .powerUp s = .next { s with phase := .ready, dev := { s.dev with readies := s.dev.readies + 1 } }) ∧
  (∀ h s, s.phase = .ready → s.akoonBusy = false → s.inTurn h (.resetDevice h) = true → ∃ t, exec (.resetDevice h) s = .next t ∧
    t.phase = .bringUp ∧ t.groups = [] ∧ t.ctxs = [] ∧ t.launches = [] ∧ t.seqs = [] ∧ t.ports = State.reset.ports ∧ t.mem.cells = s.mem.cells ∧
    t.dev.contained = false ∧ t.dev.replies = s.dev.replies ++ [replyTo h 0 []]) ∧
  (∀ (x : AkVal) s c, s.takesCommand → x.value = 1 → s.ctx? x.h.ctx = some c →
    exec (.resetContext x) s = .next ((s.removeCtx c).tell (replyTo x.h 0 []))) ∧
  (∀ h code s, let i : Instr := .akoonUnknownCommand h code
    s.phase = .ready → s.akoonBusy = false → s.inTurn h i = true → (code = 0 ∨ 0x0D < code) →
    exec i s = .next ((s.deny h 1).unqueue h i)) ∧
  (∀ h code s, let i : Instr := .akoonUnknownCommand h code
    s.phase = .ready → (s.akoonBusy = true ∨ s.inTurn h i = false) → (code = 0 ∨ 0x0D < code) → s.dev.inbox.contains (h.ctx, i) = false →
    exec i s = .next { s with held := false, dev := { s.dev with inbox := s.dev.inbox ++ [(h.ctx, i)] } })

/-! ### Events -/

/-- R64, R65, R95, R100, R101: the next unit of a launch is admitted when no launch before it can be and a place is found for it; a free
kindling slot takes the next record and starts its region loads; a kindled worker is admitted once its loads have returned and
its lanes are free. -/
def Obligations.AdmissionEventsComplete : Prop :=
  (∀ ctx launch s l c plan, let u := State.reserve s
    u.waitingLaunches.find? (fun l => l.ctx = ctx && l.id = launch) = some l → u.ctx? ctx = some c →
    (∀ m ∈ u.waitingLaunches, m.before l = true → u.seat m = none) → u.seat l = some plan →
    exec (.launchAdmission ctx launch) s = .next ((u.startUnit l c plan).reserve)) ∧
  (∀ core slot s t c, let u := State.reserve s
    u.nextTask core = some t → u.ctx? t.ctx = some c → u.slotFree core slot = true → u.launchFirst core t = false →
    let a := t.lo.toNat
    let b := min t.hi.toNat (a + t.grain.toNat * t.warps * t.width)
    let asked := [t.r0, t.r1].foldl (fun (acc : State × List Nat) r =>
      match r.span a b t.spg with
      | none => acc
      | some (va, n, dst) => ((acc.1.askKindle c t core slot va n dst).1, acc.2 ++ (acc.1.askKindle c t core slot va n dst).2)) (u, [])
    let v : State := { asked.1.updTask t.cluster t.index fun t => { t with state := 2 } with
      kindles := asked.1.kindles ++
        [{ core := core, slot := slot, cluster := t.cluster, index := t.index, loads := asked.2, bytes := [], bad := [] }] }
    u.arrives (10, 4 * core + slot) 0 v → exec (.kindlingDispatch core slot) s = .next (v.arrive (10, 4 * core + slot))) ∧
  (∀ core slot s k t c lanes, s.kindles.find? (fun k => k.core = core && k.slot = slot) = some k → s.task? k.cluster k.index = some t →
    k.loads = [] → s.ctx? t.ctx = some c → s.runs t.ctx = true → setMem s.cores.failed core = false →
    (s.residency core).place t.need = some lanes →
    let u := (s.fresh.1.handle t.ctx).1
    exec (.workerAdmission core slot) s = .next { u.updTask k.cluster k.index fun t => { t with state := 3 } with
      groups := u.groups ++ [t.group c s.stamp (s.fresh.1.handle t.ctx).2 core (u.places core lanes) k]
      kindles := u.kindles.filter fun q => !(q.core = core && q.slot = slot) })

/-- R34, R44, R55, R58, R71, R78, R250, R275, R331, R332, R434, R435: what ends a wait. A complete generation issues once nothing
delays it; a path that has become due changes nothing by itself; CTR.WAIT ends when every counter has reached its target; a
queue wait ends when the ports can give and take; SVC.WAIT ends when its replies are ready; a path whose timer has reached the
limit traps with class 0x15. -/
def Obligations.WaitEventsComplete : Prop :=
  (∀ (parked : Bool) r s e i, s.gen? r = some e → e.conv.instr = some i → e.conv.svcWait = parked → s.sameGen (s.issueGen i r) r = false →
    exec (if parked then .serviceSlotFree r else .generationIssue r) s = .next (s.issueGen i r)) ∧
  (∀ r s g p c, s.group? r.g = some g → s.path? r = some p → s.ctx? g.ctx = some c → s.working g = true → p.st = .ready →
    c.ageLimit g.band ≤ p.age → exec (.pathDue r) s = .next s) ∧
  (∀ r s g p w x, s.waiting r .counterWait = some (g, p, w) → w.instr = .ctrWait x → (∀ t ∈ w.tests, s.testHolds g t = true) →
    (∀ t ∈ w.tests, s.testVeiled r x.scope t = false) → s.dstRoom g r.w { op := x.d, n := 2 } (w.tests.map (·.pos)) = true →
    let t := (s.testsDone r g x.d (CtrOps.waitShape x).isUniform (w.tickets.map (·.1)) w.tests).finish r w.size []
    s.arrives (PathRef.waitKey r p) 2 t → exec (.counterWaitComplete r) s = .next (t.arrive (PathRef.waitKey r p))) ∧
  (∀ r s g p w, s.waiting r .queueWait = some (g, p, w) → (∀ n ∈ w.needs, s.meets g r.w n = true) →
    exec (.queueWaitComplete r) s = .next (s.updPath r fun p => { p with st := .ready, wait := none })) ∧
  (∀ r s g p w x c, s.waiting r .serviceWait = some (g, p, w) → w.instr = .svcWait x → s.ctx? g.ctx = some c →
    let uni := (svcWaitShape x).isUniform
    let all := (if uni then w.tickets.take 1 else w.tickets).map fun m => (m.1, s.reply c m.1 m.2)
    (∀ m ∈ all, ∃ v o, m.2 = .ready v o) → s.dstRoom g r.w { op := x.d } (all.map (·.1)) = true →
    exec (.serviceReplyComplete r) s = .next ((s.takeReplies g r.w x.d uni (w.tickets.map (·.1)) all).finish r w.size [])) ∧
  (∀ r s g p c, s.group? r.g = some g → s.path? r = some p → s.ctx? g.ctx = some c → s.working g = true → p.st ≠ .ready →
    2 ^ c.starvLim ≤ p.timer →
    (∀ o ∈ s.mem.ops, o.g = r.g → o.w = r.w → o.access = p.access → o.tmask &&& p.tmask = 0) → s.waitOver r p = false →
    exec (.starvationExpiry r) s = .next (let u := if p.wait = none then s.unsign r else s
      ((u.updPath r fun p => { p with st := .ready, timer := 0, wait := none }).fault r p.tmask 0x15 1 (p.waitKind c).2
        ((p.waitKind c).1 + c.starvLim * 8)).settle r.g r.w))

/-- R81, R98, R99, R111, R112, R372, R413: a save request first stops its context and, once the context has drained and its sequencers stand
at a block boundary, writes its image and takes its groups off the cores; a resume request reads the area and puts the groups of
a saved context back when every place that they need is free; a contained context that keeps its residency goes on where it
stands; what is asked of a context in that state already is done at once. -/
def Obligations.ContextEventsComplete : Prop :=
  (∀ ctx s c rest, s.ctx? ctx = some c → c.requests = false :: rest → (c.run = .running ∨ c.run = .contained) →
    exec (.contextSave ctx) s = .next (s.haltCtx ctx .stopping)) ∧
  (∀ ctx s c rest u, s.ctx? ctx = some c → c.requests = false :: rest → c.run = .stopping → s.drained ctx = true →
    c.saveRefused (s.groupsOf ctx) = none → s.quietSeqs c = some u →
    let v := u.toSave c
    let t := ((((u.moveSpill c).writeImage c.num c.ctxSave.toNat (c.image v false)).vacate c v).updCtx c.num fun c => { c with
      run := .saved
      record := none
      leftover := v.groups.foldl (fun l g => g.accBytes.foldl setIns l) c.leftover
      saved := some { v with groups := v.groups.map Group.stopped } }).requestDone c.num
    s.arrives (saveKey ctx) 0 t → exec (.contextSave ctx) s = .next (t.arrive (saveKey ctx))) ∧
  (∀ ctx s c rest v t, s.ctx? ctx = some c → c.requests = true :: rest → c.run = .saved → c.saved = some v → s.resumeRefused c v = none →
    let a := c.ctxSave.toNat
    let u := (c.image v true).foldl (fun s (x : Nat × List (Byte × Bool)) => s.saveRead c.num (a + x.1) x.2.length) s
    let tasks := u.restoredTasks a v
    u.poolRoom tasks.length = true → u.seatAll (u.restoredGroups c v) = some t → ∀ seqs, u.placeSeqs v.seqs = some seqs →
    ∀ w, t.rebind c (seqs.map fun x => (x.1, x.2.1)) = some w →
    let done := (w.restore c v (u.restoredLaunches a v) (u.placeTasks tasks) seqs).requestDone c.num
    s.arrives (saveKey ctx) 0 done → exec (.contextResume ctx) s = .next (done.arrive (saveKey ctx))) ∧
  (∀ ctx s c rest, s.ctx? ctx = some c →
    (c.requests = false :: rest → c.run = .saved → exec (.contextSave ctx) s = .next (s.requestDone ctx)) ∧
    (c.requests = true :: rest → c.run = .running → exec (.contextResume ctx) s = .next (s.requestDone ctx)) ∧
    (c.requests = true :: rest → (c.run = .contained ∨ c.run = .stopping) → exec (.contextResume ctx) s =
      .next ((s.updCtx ctx fun c => { c with run := .running, record := none }).requestDone ctx)))

/-- R80, R143, R144, R145, R152, R153, R154, R260, R452, R469: what the memory system does by itself. A request is served at its turn, or
first turns its sector; an aged one of class 3 is served early; a served operation returns its values; a walk holds the
translation that it found; a HOST line that the control node delivers becomes valid, and one that fails is poisoned; TLBINV
completes once no access of the old translations is open, and a stalled write goes on once its page has left WB. -/
def Obligations.MemoryEventsComplete : Prop :=
  (∀ (old : Bool) sector s r, s.nextReq sector = some r → s.aged r = old → r.eng = none →
    let instr : Instr := if old then .class3Aging sector r.id else .llcRequestServe sector
    let t := s.mem.sector r.sector
    let asks := (s.missing r).filter fun l => !(s.mem.fills.any fun f => f.pa = 32 * l)
    (t.turning = false → asks ≠ [] → exec instr s = .next (s.askLines (asks.map (s.fillOf r)))) ∧
    (t.turning = false → s.missing r = [] → t.orient ≠ .col → exec instr s = .next (s.perform r)) ∧
    (t.orient = .col → s.missing r = [] →
      exec instr s = .next (({ s with mem := { s.mem.setSector r.sector { t with orient := if r.col then .turnCol else .turnRow, turn := 16 } with
        reqs := s.mem.reqs.map fun q => if q.id = r.id then { q with turned := true } else q } } : State).count 1 (sliceOf r.sector) 4 1))) ∧
  (∀ sector s, let t := s.mem.sector sector
    t.turn = 0 → t.turning = true →
    let u : State := { s with mem := if t.orient = .turnRow then s.mem.setSector sector { t with orient := .row } else s.mem.touchCol sector false }
    exec (.orientationTurnComplete sector) s = .next (match s.mem.reqs.find? fun r => r.sector = sector && r.turned && r.eng.isNone with
      | some r => u.perform r
      | none => u)) ∧
  (∀ sector s, (s.mem.sector sector).orient = .row ∨ (s.mem.sector sector).orient = .col → (s.mem.sector sector).lock = none →
    exec (.sectorEviction sector) s = .next { s with mem := s.mem.dropSector sector }) ∧
  (∀ op s o now, s.mem.ops.find? (fun o => o.id = op) = some o → s.group? o.g = some now → o.done = true →
    (o.ring ≠ none → ∀ q ∈ s.mem.ops, q.id < o.id → q.g = o.g → q.w = o.w → q.tmask &&& o.tmask ≠ 0 → q.done = true) →
    ((∃ p ∈ o.parts, p.fault = true ∨ p.hit ≠ none) →
      ∀ q ∈ s.mem.ops, q.id < o.id → q.g = o.g → q.w = o.w → q.access = o.access → q.tmask &&& o.tmask = 0) →
    let g := now.boundAs o.d o.ring
    let n := o.words
    let d : Dst := { op := o.d, n := n }
    let good := o.parts.filter fun p => !p.fault
    let at_ := good.filterMap (·.pos)
    (n ≠ 0 → s.dstRoom g o.w d (if at_ = [] then (maskList o.tmask).take 1 else at_) = true) →
    exec (.loadValueReturn op) s = .next (
      let t := if n = 0 then s else good.foldl (fun t p => t.writeDst o.g o.w g d (p.pos.getD (maskLow o.tmask))
        (match p.pos with | some j => [j] | none => maskList o.tmask)
        (replyRegs n (if o.kind = .load then extend o.ty p.val.toNat else p.val.toNat) fun j => p.vbad.getLsbD j)) s
      let t := if n = 0 ∨ o.d = .vz then t else t.originate { o with parts := good }
      (({ t with mem := { t.mem with ops := t.mem.ops.filter fun q => q.id ≠ op } } : State).lateTraps o).tryEnd o.g)) ∧
  (∀ walk s w g c, s.mem.walks.find? (fun w => w.id = walk) = some w → s.group? w.g = some g → s.ctx? g.ctx = some c →
    s.hasWalker w (dieOf g.core) = true →
    let u := ({ s with mem := { s.mem with walks := s.mem.walks.filter fun q => q.id ≠ w.id } } : State).walkRead c w.va.toNat
    (∀ e, u.mem.walk c.num c.ptRoot.toNat w.va.toNat = .ok e →
      let t : State := { u with mem := u.mem.hold g.via e }
      s.arrives (0, walk) 0 t → exec (.pageWalkComplete walk) s = .next (t.arrive (0, walk))) ∧
    (∀ err r, u.mem.walk c.num c.ptRoot.toNat w.va.toNat = .error err → u.pathOf w.g w.w w.access w.tmask = some r →
      u.underWay w.g w.w w.access w.tmask = false →
      let f := walkFault w.va.toNat w.write err
      let t := (u.fault r w.tmask f.1 0 f.2.1 f.2.2).settle w.g w.w
      s.arrives (0, walk) 0 t → exec (.pageWalkComplete walk) s = .next (t.arrive (0, walk)))) ∧
  (∀ fill s f, s.mem.fills.find? (fun f => f.id = fill) = some f →
    (∀ bs, bs.length = 32 → exec (.hostFillComplete fill (some bs)) s = .next (({ s with mem := { s.mem with
      fills := s.mem.fills.filter fun q => q.id ≠ f.id
      cells := putCells s.mem.cells f.pa bs
      bad := putTags s.mem.bad f.pa 32 false } } : State).endFill f)) ∧
    exec (.hostFillComplete fill none) s = .next (s.failFill f) ∧
    (2 ^ 24 ≤ f.age → exec (.hostFillTimeout fill) s = .next (s.failFill f))) ∧
  (∀ write s w, s.mem.hwrites.find? (fun w => w.id = write) = some w →
    exec (.hostWriteAnswer write true) s = .next (s.dropWrite write) ∧
    exec (.hostWriteAnswer write false) s = .next (s.failWrite w) ∧
    (2 ^ 24 ≤ w.age → exec (.hostWriteTimeout write) s = .next (s.failWrite w))) ∧
  (∀ id s v, s.mem.invals.find? (fun v => v.id = id) = some v → s.invalOpen v = false →
    exec (.tlbinvComplete id) s = .next { s with mem := { s.mem with
      invals := s.mem.invals.filter fun v => v.id ≠ id
      stalls := s.mem.stalls.map fun x => if invalCovers v.form v.ctx v.page x.ctx x.va.toNat 16 then { x with ready := true } else x } }) ∧
  (∀ id s x c v acls agent, s.mem.stalls.find? (fun x => x.id = id) = some x → x.ready = true → x.behind s.mem.stalls = false →
    x.by_ = .add v acls agent → s.ctx? x.ctx = some c →
    exec (.wbStallRetry id) s =
      .next (({ s with mem := { s.mem with stalls := s.mem.stalls.filter fun y => y.id ≠ id } } : State).advance x.ctx x.va.toNat v.toNat acls agent))

/-- R79, R81, R182, R281 to R287, R296 to R304, R309 to R326, R387, R461, R463: the engines, the matrix units and the kiln go on by
themselves: a command writes a place that it owns, then the rest of its window, and takes the next window; a command that waits
for its engine issues again; a command that is through advances its counter; a matrix operation or a tile transfer whose cycles
are done leaves its results; a governor window lets a core's units work within their grants, and none keeps its grant; a die's
budget is shared out; the next kiln instruction is performed. -/
def Obligations.EngineEventsComplete : Prop :=
  (∀ cmd line s k place, s.cmd? cmd = some k → k.owned.find? (fun o => o.2 = line) = some (place, line) →
    (s.cmdRuns k = true ∨ s.cmdPauses k = true ∧ k.within place = true) → s.earlierOwner k.taken line = false →
    let t := ((s.begin_ k).writePlace cmd place).1
    s.arrives (cmdKey cmd) 3 t → exec (.ownershipRecallComplete cmd line) s = .next (t.arrive (cmdKey cmd))) ∧
  (∀ cmd s k, s.cmd? cmd = some k → s.cmdRuns k = true → k.read = false →
    let u := s.begin_ k
    let t := (u.workOn cmd (match u.cmd? cmd with | some k => k.owned.map (·.1) | none => [])).nextWindow cmd
    s.arrives (cmdKey cmd) 3 t → exec (.ownershipWindow cmd) s = .next (t.arrive (cmdKey cmd))) ∧
  (∀ cmd s k, s.cmd? cmd = some k → s.cmdRuns k = true → k.read = true → k.halt = none → k.again = [] →
    (∀ o, k.owned.head? = some o → s.earlierOwner k.taken o.2 = false) → (k.owned ≠ [] ∨ k.lines + windowLines < k.image.length) →
    let t := ((s.updCmd cmd fun k => { k with st := .running }).writeWindow cmd (k.owned.map (·.1))).nextWindow cmd
    s.arrives (cmdKey cmd) 3 t → exec (.ownershipWindow cmd) s = .next (t.arrive (cmdKey cmd))) ∧
  (∀ cmd s k, s.cmd? cmd = some k → s.cmdPauses k = true → s.atBoundary k = false →
    let places := (k.owned.map (·.1)).filter k.within
    let t := s.writeWindow cmd places
    places ≠ [] → s.arrives (cmdKey cmd) 3 t → exec (.ownershipWindow cmd) s = .next (t.arrive (cmdKey cmd))) ∧
  (∀ r s g p w, s.waiting r .ready = some (g, p, w) → w.kind = 6 → (s.copyRoom g).isSome = true →
    exec (.copyCommandAccept r) s = .next (s.updPath r fun p => { p with wait := none })) ∧
  (∀ cmd s k, s.cmd? cmd = some k → k.st = .running → k.read = true → k.owned = [] → k.image.length ≤ k.lines + windowLines → k.halt = none →
    k.spilled = 0 → k.again = [] → s.cmdRuns k = true →
    let u := ((s.dropCmd cmd).count 2 k.engine 1 1).count 2 k.engine 2 k.count
    let t := (match k.ctr, u.group? k.g with | some a, some g => u.advanceOf g k.csp a k.count 2 k.engine | _, _ => u).tryEnd k.g
    (s.addWaits k = false → s.arrives (cmdKey cmd) 3 t → exec (.copyComplete cmd) s = .next (t.arrive (cmdKey cmd))) ∧
    (s.addWaits k = true → exec (.copyComplete cmd) s = .next (let u := s.fresh.1
      { u with mem := { u.mem with stalls := u.mem.stalls ++
        [{ id := s.stamp, ctx := k.ctx, va := k.ctr.getD 0, by_ := .copy k.id, ready := false }] } }))) ∧
  (∀ g slot s q c o, s.matReady g slot [.mma, .mmd] = some (q, c, o) →
    let t := (s.chunkSteps g slot (o.chunks - o.chunk)).endMat q o
    s.arrives (MatOp.key5 o) 2 t → exec (.matrixOpComplete g slot) s = .next (t.arrive (MatOp.key5 o))) ∧
  (∀ g slot s q c o, s.matReady g slot [.tld, .tst] = some (q, c, o) →
    (∀ l ∈ o.stLines q, s.earlierOwner o.stamp l = false) →
    let t := (if o.kind = .tld then s.runTld q o else s.runTst q o).endMat q o
    s.arrives (MatOp.key5 o) 2 t → exec (.tileTransferComplete g slot) s = .next (t.arrive (MatOp.key5 o))) ∧
  (∀ core s g o u, u < 4 → s.unitOp core u = some (g, o) → 0 < o.left → (s.unitSt core u).grant.isSome = true →
    sget 0 s.cores.coreWindow core < s.coreWindow core →
    let after := govWindow (powerCap (sget 0 s.cores.diePower (dieOf core)) (sget 256 s.cores.cap core)) 64 0 (s.govUnits core)
    ∃ t, exec (.governorWindow core) s = .next t ∧ t.mem = s.mem ∧ (∀ v, v < 4 → (t.unitSt core v).grant = none) ∧
      sget 0 t.cores.stall core = sget 0 s.cores.stall core + BitVec.ofNat 64 (after.foldl (fun n u => n + u.stall) 0)) ∧
  (∀ die s, s.asks die ≠ [] → sget 0 s.cores.dieWindow die ≤ s.dieWindow →
    let t := ((s.asks die).foldl (fun (x : State × Nat) a =>
      let n := min a.want (x.2 / (a.toggle + 64))
      ({ x.1 with cores := { x.1.cores with
          units := sset ⟨none, 0⟩ x.1.cores.units (4 * a.core + a.unit) ⟨some n, a.held⟩
          coreWindow := sset 0 x.1.cores.coreWindow a.core (x.1.coreWindow a.core) } },
        x.2 - n * (a.toggle + 64))) (s, dieBudget s.dev.power)).1
    exec (.dieBudgetWindow die) s = .next { t with cores := { t.cores with
      dieWindow := sset 0 t.cores.dieWindow die (s.dieWindow + 1)
      diePower := sset 0 t.cores.diePower die s.dev.power } }) ∧
  (∀ die s o g c k t, s.kilnHead die = some (o, g, c) → o.bind = some k →
    let key := (6, o.id)
    let u := (t.count 3 o.die 0 1).dropKiln o
    let gone := exec (.kilnOperation die) s = .next (u.arrive key)
    (∀ x, o.instr = .kstep x → s.runKstep c g.kilnAt o k = some t → s.arrives key 2 u → gone) ∧
    (∀ x, o.instr = .ksig x → s.runKsig g c g.kilnAt o k = some t → s.arrives key 2 u → gone) ∧
    (∀ x, o.instr = .ktest x → s.runKtest g c o k x.d = some t →
      (o.args.length ≤ 1 → s.arrives key 2 u → gone) ∧
      (1 < o.args.length → let v : State := { t with kops := t.kops.map fun q => if q.id = o.id then { q with args := o.args.tail } else q }
        s.arrives key 2 v → exec (.kilnOperation die) s = .next (v.arrive key)))) ∧
  (∀ die s o g c x pos a key rest, s.kilnHead die = some (o, g, c) → o.instr = .kend x → o.args = (pos, a, key) :: rest →
    let t := ((if x.d = .vz then s else s.advanceOf g x.csp a 1 4 die).count 3 die 0 1).dropKiln o
    s.arrives (6, o.id) 2 t → exec (.kendComplete die) s = .next (t.arrive (6, o.id)))

/-- R343, R345, R348, R349, R350, R384, R490 to R493: the link of a port. A frame takes the next link number, leaves its queue and is stored until it is
acknowledged; the next frame in order that is authentic is handed on and is to be acknowledged; acknowledgements free stored
frames; a NACK and the retry timer replay them; keys roll over; a key load and a MODE 0 write that waited are done; lanes that lose
lock retrain; the peer grants credits. -/
def Obligations.LinkEventsComplete : Prop :=
  (∀ port s k, let p := s.port port
    p.maySend = true → p.nextPacket = some k →
    let f : Stored := { lsn := p.nextLsn, an := p.txan, pn := (p.key p.txan).nextPn, mac := p.mac, sci := p.sci, sa := p.key p.txan,
                        control := controlKind k.kind, len := frameLen k, packet := { k with srcIp := p.ip }, bad := false }
    let v := s.updPort port fun p => p.take f
    let v := if p.mode = 2 then v.putFrame (p.slotPa f) f.len else v
    let u := match k.kind with
      | .put | .getReq | .advance => v.updPdc k.pdc fun d => d.updUnacked k.psn fun u => { u with age := 0 }
      | .getReply | .ack | .nack => v
    let t := ((u.send (.frame port f)).count 4 port 0 1).checkPn port
    (s.arrives (portKey port) 1 t → exec (.frameSend port) s = .next (t.arrive (portKey port))) ∧
      (u.port port).nextLsn = p.nextLsn + 1 ∧ (u.port port).store = p.store ++ [f] ∧
      (u.port port).ctlQ = (if f.control then p.ctlQ.tail else p.ctlQ) ∧ (u.port port).datQ = (if f.control then p.datQ else p.datQ.tail) ∧
      (u.port port).ctlCredits = (if f.control then p.ctlCredits - creditsOf f.len else p.ctlCredits) ∧
      (u.port port).datCredits = (if f.control then p.datCredits else p.datCredits - creditsOf f.len) ∧
      (∀ q, q ≠ port → u.port q = s.port q) ∧ (p.mode ≠ 2 → u.mem = s.mem) ∧ u.groups = s.groups ∧ u.seqs = s.seqs ∧ u.ctxs = s.ctxs) ∧
  (∀ port f s, let p := s.port port
    p.takes = true → p.retrain = none → f.lsn = p.rxLsn → (p.key f.an.val).valid = true →
    let n := creditsOf f.len
    let u := s.fresh.1.updPort port fun p => { p with
      rxLsn := p.rxLsn + 1
      rxPn := sset 1 p.rxPn f.an.val (f.pn + 1)
      nacked := false
      badFrames := 0
      ackAge := if p.ackDue.isNone then 0 else p.ackAge
      ackDue := some f.lsn
      grantCtl := if f.control then p.grantCtl - n else p.grantCtl
      grantDat := if f.control then p.grantDat else p.grantDat - n
      heldCtl := if f.control then p.heldCtl + n else p.heldCtl
      heldDat := if f.control then p.heldDat else p.heldDat + n }
    let buf := if p.mode = 2 then some (p.bufPa f.lsn) else none
    let v := match buf with | some pa => u.putFrame pa f.len | none => u
    let t := ({ v with net := { v.net with arrived := v.net.arrived ++
      [{ i := s.stamp, port := port, packet := f.packet, control := f.control, len := f.len, buf := buf }] } } : State).count 4 port 1 1
    (f.authentic = true → (sget 1 p.rxPn f.an.val).toNat ≤ f.pn.toNat → s.arrives (portKey port) 1 t →
      exec (.frameReceive port f) s = .next (t.arrive (portKey port))) ∧
    ((f.authentic = false ∨ f.pn.toNat < (sget 1 p.rxPn f.an.val).toNat) → p.badFrames < 7 →
      exec (.frameReceive port f) s = .next ((s.updPort port fun p => { p with badFrames := p.badFrames + 1 }).sendNack port))) ∧
  (∀ port s n, let p := s.port port
    p.up = true → p.retrain = none → p.ackDue = some n →
    exec (.linkAckSend port) s = .next ((s.updPort port fun p => { p with ackDue := none, ackAge := 0 }).send (.linkAck port n))) ∧
  (∀ port n s, let p := s.port port
    let rest := p.store.filter fun f => !(lsnLe f.lsn n)
    p.up = true → p.retrain = none → exec (.linkAckReceive port n) s = .next (if rest.length = p.store.length then s
      else s.updPort port fun p => { p with store := rest, timer := 0, resends := 0, tx := if p.tx = .full then .open_ else p.tx })) ∧
  (∀ port n s, let p := s.port port
    p.up = true → p.retrain = none → (p.store.any fun f => f.lsn = n) = true → p.tx ≠ .replaying →
    s.arrives (portKey port) 1 (s.replay port n true) →
    exec (.linkNackReceive port n) s = .next ((s.replay port n true).arrive (portKey port))) ∧
  (∀ port s f, let p := s.port port
    p.up = true → p.retrain = none → p.tx ≠ .replaying → p.rto ≤ p.timer → p.store.head? = some f →
    s.arrives (portKey port) 1 (s.replay port f.lsn true) →
    exec (.retryTimeout port) s = .next ((s.replay port f.lsn true).arrive (portKey port))) ∧
  (∀ port s, let p := s.port port
    p.up = true → p.retrain = none → p.tx = .replaying →
    exec (.replayDone port) s = .next (s.updPort port fun p => { p with tx := if p.capacity ≤ p.store.length then .full else .open_ })) ∧
  (∀ port s, (s.port port).up = true → (s.port port).rollDue = true →
    exec (.keyRollover port) s =
      .next ((s.updPort port fun p => { p with txan := (p.txan + 1) % 4, switch_ := false, rolled := false }).checkPn port)) ∧
  (∀ port s tag slot k sw, (s.port port).load = some (tag, slot, k, sw) → (s.port port).slotFree slot = true →
    exec (.keyloadApply port) s = .next ((s.applyKey port slot k sw).tell { tag := tag, status := 0, value := 0, bytes := [] })) ∧
  (∀ port s tag, (s.port port).mode0 = some tag → (s.port port).store = [] ∨ (s.port port).failed = true →
    exec (.portMode0Drain port) s = .next ((s.updPort port Port.off).tell { tag := tag, status := 0, value := 0, bytes := [] })) ∧
  (∀ port lanes s, (s.port port).up = true → lanes ≠ 0 →
    exec (.laneLockLoss port lanes) s = .next (s.updPort port fun p =>
      { p with retrain := some (p.retrain.getD 0), lost := if p.retrain.isSome then p.lost ||| lanes else lanes })) ∧
  (∀ port s n, (s.port port).retrain = some n → n ≤ retrainLimit →
    let u := s.updPort port fun p => { p with retrain := none, lost := 0 }
    let v := u.report (u.portErr port 0x40 6 0 (s.port port).lost.toNat)
    let t := match (s.port port).store.head? with
      | some f => v.replay port f.lsn false
      | none => v
    s.arrives (portKey port) 1 t → exec (.retrainComplete port) s = .next (t.arrive (portKey port))) ∧
  (∀ port s n, (s.port port).retrain = some n → retrainLimit ≤ n → exec (.retrainTimeout port) s = .next (s.failPort port 0x41 0 1)) ∧
  (∀ port control units s, (s.port port).mode ≠ 0 →
    exec (.creditGrant port control units) s = .next (s.updPort port fun p =>
      if control then { p with ctlCredits := p.ctlCredits + units } else { p with datCredits := p.datCredits + units }))

/-- R345, R346, R353, R355, R492, R494, R497, R498, R501: the transport. A packet that is to be applied is applied: a put is written,
a get request is answered with its bytes, a get reply is written and counted, an advance raises its counter, each through the
tables of the context of its JobID; acknowledgements free what they cover; a packet not acknowledged in time is sent again; a
held advance goes out when what it covers is whole. -/
def Obligations.TransportEventsComplete : Prop :=
  (∀ i s a c ps, s.arrived? i .put = some a → s.fate a.packet = .apply → s.receiver a.packet.jobId = some c → a.packet.addrPoison = false →
    s.piecesAt c none (piecesOf a.packet.addr.toNat a.packet.bytes.length) = .ok ps →
    (∀ p ∈ ps, attrCtr p.e.attr = false ∧ attrW p.e.attr = true) → s.packetStalled i = false → wbPiece ps = false → s.ownedPieces ps = false →
    let t := (s.engineWrite 1 5 a.port ps (packetBytes a.packet)).delivered a
    s.arrives (packetKey i) 1 t → exec (.putPacketReceive i) s = .next (t.arrive (packetKey i))) ∧
  (∀ i s a c ps, s.arrived? i .getReq = some a → s.fate a.packet = .apply → s.receiver a.packet.jobId = some c → a.packet.addrPoison = false →
    s.piecesAt c none (piecesOf a.packet.addr.toNat a.packet.len) = .ok ps → (∀ p ∈ ps, attrCtr p.e.attr = false) →
    let got := ps.foldl (fun (x : State × List (Byte × Bool)) p => ((x.1.agentRead 1 6 a.port p).1, x.2 ++ (x.1.agentRead 1 6 a.port p).2)) (s, [])
    let t := ((cutBytes (got.2.length + 1) got.2).zipIdx.foldl (fun t m => t.enqueue a.port { a.packet with
      kind := .getReply
      dstIp := a.packet.srcIp
      src := Config.self
      psn := BitVec.ofNat 32 m.2
      addr := a.packet.value + BitVec.ofNat 64 (4096 * m.2)
      bytes := m.1.map (·.1)
      poison := taggedAt m.1 }) got.1).delivered a
    s.arrives (packetKey i) 1 t → exec (.getRequestReceive i) s = .next (t.arrive (packetKey i))) ∧
  (∀ i s a o c ps, s.arrived? i .getReply = some a → s.remote? a.packet.op = some o → o.get = true →
    let d := s.delivery a.packet.src (replyStream a.packet.op)
    d.has a.packet.psn = false → s.ctx? o.ctx = some c →
    s.piecesAt c none (piecesOf a.packet.addr.toNat a.packet.bytes.length) = .ok ps →
    (∀ p ∈ ps, attrCtr p.e.attr = false ∧ attrW p.e.attr = true) → s.packetStalled i = false → wbPiece ps = false → s.ownedPieces ps = false →
    let t := ((((s.engineWrite 1 5 a.port ps (packetBytes a.packet)).setDelivery (d.take a.packet.psn)).dropArrived i).updRemote o.id fun o =>
      { o with left := o.left - a.packet.bytes.length }).settleOp o.id
    s.arrives (packetKey i) 1 t → exec (.getReplyReceive i) s = .next (t.arrive (packetKey i))) ∧
  (∀ i s a c e, s.arrived? i .advance = some a → s.fate a.packet = .apply → s.receiver a.packet.jobId = some c → a.packet.addrPoison = false →
    let va := a.packet.addr.toNat / 16 * 16
    s.translate c va = .ok e → attrCtr e.attr = true → attrW e.attr = true → s.packetStalled i = false → attrWb e.attr = false →
    let t := ((((s.holdRange c va 16).ctrPut (.phys (e.pa va)) 0 (leBytes 8 (max (s.ctrGet (.phys (e.pa va))).1 a.packet.value.toNat))
      (s.ctrGet (.phys (e.pa va))).2.2).watch true true (e.pa va) 8 6 a.port).1).delivered a
    s.arrives (packetKey i) 1 t → exec (.remoteAdvanceReceive i) s = .next (t.arrive (packetKey i))) ∧
  (∀ pdc psn s a u, s.answered .ack pdc psn 0 = some a →
    ((s.dropArrived a.i).pdc? pdc).bind (fun d => d.unacked.find? fun u => u.packet.psn = psn) = some u →
    let v := (s.dropArrived a.i).updPdc pdc fun d => { d with unacked := d.unacked.filter fun u => u.packet.psn ≠ psn }
    let t := (if u.packet.kind = .getReq then v else v.updRemote u.packet.op fun o => { o with left := o.left - 1 }).settleOp u.packet.op
    s.arrives (packetKey a.i) 1 t → exec (.transportAckReceive pdc psn) s = .next (t.arrive (packetKey a.i))) ∧
  (∀ pdc psn kind s a u o, s.answered .nack pdc psn kind = some a →
    let t := s.dropArrived a.i
    (t.pdc? pdc).bind (fun d => d.unacked.find? fun u => u.packet.psn = psn) = some u → kind ≠ 0 →
    let v := t.updPdc pdc fun d => { d with unacked := d.unacked.filter fun u => u.packet.psn ≠ psn }
    v.remote? u.packet.op = some o → o.dropped = false →
    let w := (v.updRemote o.id fun o => { o with
      refused := if o.dropped then o.refused else o.refused ++ [u.packet] }).stopOp o 0x45 u.packet.addr.toNat (kind % 16 + o.peer * 16)
    s.arrives (packetKey a.i) 1 w → exec (.transportNackReceive pdc psn kind) s = .next (w.arrive (packetKey a.i))) ∧
  (∀ pdc psn s d u, s.pdc? pdc = some d → d.unacked.find? (fun u => u.packet.psn = psn && resendAge ≤ u.age) = some u → u.resends < 4 →
    exec (.transportResendTimeout pdc psn) s = .next (s.resend pdc psn)) ∧
  (∀ id s o k, s.remote? id = some o → o.advance = some k →
    (∀ c ∈ o.covers, ∀ p, s.remote? c = some p → p.sent = true ∧ p.left = 0 ∧ p.refused = []) → s.sendRoom o.pdc ≠ 0 →
    exec (.remoteAdvanceSend id) s = .next ((s.updRemote id fun o => { o with advance := none }).handOver o k)) ∧
  (∀ n s q c a v x, s.seqWaits n = some (q, c, a, v) → s.seqCounter c a.toNat = .ok x → v.toNat ≤ x →
    let t := (s.seqTouch c n a.toNat).seqNext { n := n, q := q, c := c } (q.pc + 4) id
    s.arrives (seqKey n) 1 t → exec (.cwaitComplete n) s = .next (t.arrive (seqKey n))) ∧
  (∀ n s q c a v x, s.seqWaits n = some (q, c, a, v) → s.seqCounter c a.toNat = .ok x → x < v.toNat → 2 ^ c.starvLim ≤ q.timer →
    exec (.sequencerWaitExpiry n) s = .next ((s.updSeq n fun q => { q with wait := none, timer := 0 }).seqStop { n := n, q := q, c := c } 0x4A
      a.toNat c.starvLim))

/-- R442, R478: an uncorrectable error in a core's control, or in the tile table or operation control of a unit, marks the core failed;
nothing is admitted there any more, its gangs are stopped, and each is recorded under class 0x1B or 0x35. -/
def Obligations.ControlErrorsComplete : Prop :=
  (∀ core (unit : Fin 16) s, core < Config.cores → 1 ≤ unit.val → unit.val ≤ 5 →
    exec (.coreControlError core unit) s = .next (s.failCore core 0x1B unit.val)) ∧
  (∀ core (unit : Fin 4) table s, core < Config.cores →
    exec (.tileControlError core unit table) s = .next (s.failCore core 0x35 (unit.val + 4 * table.toNat))) ∧
  (∀ s core cls detail, setMem (State.failCore s core cls detail).cores.failed core = true)

/-! ### Reset, stepping and decoding -/

/-- R386, R389, R148, R387, R413: the machine right after reset. Bring-up is still to end, no context exists, every block's cycle count and the
spark number are 0, every port is in MODE 0, every sector header has its reset value, every core has its full cap, and nothing
is contained. That memory reads 0 and holds no poison, and that nothing else is under way, is the model's choice (logs 1, 2). -/
def Obligations.ResetState : Prop :=
  let s := State.reset
  s.phase = .bringUp ∧ s.ctxs = [] ∧ s.groups = [] ∧ s.launches = [] ∧ s.seqs = [] ∧ (∀ acls block, s.lcyc acls block = 0) ∧ s.dev.spark = 0 ∧
  (∀ n, (s.port n).mode = 0) ∧ (∀ x, sget 0xFFFFFFFF s.mem.mask x = 0xFFFFFFFF) ∧ (∀ core, sget 256 s.cores.cap core = 256) ∧
  s.dev.contained = false ∧ (∀ a, s.mem.byte a = 0 ∧ s.mem.isBad a = false) ∧ s.mem.wf = true ∧
  s.mem.headed ∧ s.agenda = [] ∧ s.cur = none ∧ s.held = false

/-- R38, R53, R189 to R191, R203: what a path finds at its program counter is what it runs. When the translation of PC is executable and
the bytes there, with the next 8 for a literal frame, decode to an instruction, its issue is the meaning of that instruction,
at the path, with the translation held in a TLB, the regions that the word leaves closed, and the issue counted; an SWR to a
register that has a row of its own runs as that row. A step whose turn is a lane is the issue of the path that the lane chooses
(log 1). -/
def Obligations.StepRunsDecoded : Prop :=
  (∀ (u : State) r g c p e i, u.group? r.g = some g → u.path? r = some p → u.ctx? g.ctx = some c →
    u.translate c p.pc.toNat g.via = .ok e → attrX e.attr = true →
    let w := BitVec.ofNat 64 (u.mem.nat (e.pa p.pc.toNat) 8)
    wordSize w = 8 → (g.dae = true → streamOf w ≠ some (!p.access)) → decodeWord w 0 = .ok i →
    let t : State := { u with mem := u.mem.hold g.via e }
    let v : State := { t.updPath r fun p => p.trim 8 with cur := some (.path r 8), held := false }
    u.issuePath r = exec (v.rowOf i) (v.count 0 g.core 0 1)) ∧
  (∀ (u : State) r g c p e e' i, u.group? r.g = some g → u.path? r = some p → u.ctx? g.ctx = some c →
    u.translate c p.pc.toNat g.via = .ok e → attrX e.attr = true →
    let w := BitVec.ofNat 64 (u.mem.nat (e.pa p.pc.toNat) 8)
    let t : State := { u with mem := u.mem.hold g.via e }
    wordSize w = 16 → t.translate c (p.pc.toNat + 8) g.via = .ok e' → attrX e'.attr = true → (g.dae = true → streamOf w ≠ some (!p.access)) →
    decodeWord w (BitVec.ofNat 64 (t.mem.nat (e'.pa (p.pc.toNat + 8)) 8)) = .ok i →
    let t' : State := { t with mem := t.mem.hold g.via e' }
    let v : State := { t'.updPath r fun p => p.trim 16 with cur := some (.path r 16), held := false }
    u.issuePath r = exec (v.rowOf i) (v.count 0 g.core 0 1)) ∧
  (∀ (s : State) i, (∀ x, i ≠ .swr x) → s.rowOf i = i) ∧
  (∀ s core lane rest r rs t, s.agenda = .lane core lane :: rest →
    let u : State := { s with agenda := rest, cur := none, held := false }
    u.choices core lane = r :: rs → (u.clearLane core lane).issuePath r = .next t → t.held = false → step s = .next t.close) ∧
  (∀ s i rest, s.agenda = .event i :: rest → ∀ t, exec i { s with agenda := rest, cur := none, held := false } = .next t →
    step s = .next t.close)

/-- R370, R371, R373, R503: what a sequencer context finds at its program counter is what it runs. When PC is translated and the 4
bytes there decode to a ZF instruction, its issue is the meaning of that instruction, and a word that does not decode runs as
ZF_OPCODE_NOT_ALLOCATED. A step whose turn is the sequencer issues its next ready context (log 1). -/
def Obligations.StepRunsSequencerWord : Prop :=
  (∀ (u : State) n q c e, u.seq? n = some q → u.ctx? q.ctx = some c → u.translate c q.pc.toNat = .ok e →
    let w := BitVec.ofNat 32 (u.mem.nat (e.pa q.pc.toNat) 4)
    let v : State := { u with cur := some (.seq n), held := false, seqLast := sset 7 u.seqLast (n / 8) (n % 8) }
    (∀ i, decodeZf w = .ok i → u.issueSeq n = exec i v) ∧
    (∀ f, decodeZf w = .error f → u.issueSeq n = exec (.zfOpcodeNotAllocated w) v)) ∧
  (∀ (u : State) n q c e, u.seq? n = some q → u.ctx? q.ctx = some c → u.translate c q.pc.toNat = .error e →
    u.issueSeq n = exec .zfWordNotFetched { u with cur := some (.seq n), held := false, seqLast := sset 7 u.seqLast (n / 8) (n % 8) }) ∧
  (∀ s k rest n ns t, s.agenda = .seq k :: rest →
    let u : State := { s with agenda := rest, cur := none, held := false }
    ((List.range 8).map (fun i => 8 * k + (sget 7 u.seqLast k + 1 + i) % 8)).filter u.seqReady = n :: ns →
    u.issueSeq n = .next t → t.held = false → step s = .next t.close)

/-- R189 to R203, R373: decoding and encoding agree. The words of every well-formed instruction decode to it, with every operand at
every value that the encoding admits; a row of SWR decodes as SWR (R337). -/
def Obligations.EncodeDecode : Prop :=
  ∀ i w, i.wf = true → encode i = some w → decodeWords w = .ok i.asWord

/-- R190 to R210, R373: words written out from the encoding tables decode to the instructions they stand for. -/
def Obligations.DecodeWords : Prop :=
  let h : Hdr := { ps := 7, pn := false, acc := false, lit := none }
  decodeWord 0x049002004E032400 0 = .ok (.iadd { h := { h with ps := 2 }, d := .v 4, a := .v 4, b := .imm 257, c := .vz, w64 := false,
                                                 sat := false, sgn := false }) ∧
  decodeWord 0x01FA484909212400 0 = .ok (.exit { h := h }) ∧
  decodeWord 0x4100A04010010090 0 = .ok (.pair { acc := false, hi := { op := .iadd, d := 5, s := 8, m3 := 0 },
                                                 lo := { op := .fadd, d := 4, s := 9, m3 := 0 } }) ∧
  decodeWord 0x0056486FE9212400 0 = .ok (.bra { h := { h with ps := 2, pn := true }, a := .imm 254 }) ∧
  decodeWord 0x22FA4840480C0202 0 = .ok (.ctrWait { h := h, d := .vz, a := .w 4, b := .w 6, scratch := false, scope := .dev, order := .acq }) ∧
  decodeWord 0x28BA0A4088141846 0 = .ok (.mma { h := h, d := .w 20, a := .w 8, b := .w 10, tile := 3, cv := 1, csp := false, aScr := true,
                                                 bScr := true }) ∧
  decodeWord 0x34380300400A1C00 0 = .ok (.svc { h := h, d := .v 6, a := .v 4, b := .v 5, fn := 3, cv := 16 }) ∧
  decodeWord 0x2E90004919212400 0 = .ok (.ktest { h := { h with ps := 2 }, d := .v 0, a := .sv .tid }) ∧
  decodeZf 0x4064400B = .ok (.xsend { d := 3, a := 4, b := 8, wf := 3, wbk := 2, sr := false, lf := false, ownFin := false, acc := false }) ∧
  decodeZf 0x65A26017 = .ok (.cadvRmt { d := 13, a := 2, b := 12, rel := true }) ∧
  decodeZf 0x258AFFFC = .ok (.bne { d := 12, a := 10, imm := 0xFFFC }) ∧
  decodeZf 0xFC000000 = .ok .zfDone

/-- R34, R36: between steps nothing is half done: whatever a step does, after it no instruction is at issue or held back, and no access
is looking for its sectors or its HOST lines. -/
def Obligations.NothingAtIssueKept : Prop :=
  ∀ s t, step s = .next t → t.cur = none ∧ t.held = false ∧ t.mem.touched = [] ∧ t.mem.misses = []

/-! ### Memory and registers -/

/-- R3: multi-byte values lie in memory little-endian: after a write of the n bytes of a value, byte j at its address is bits
[8j+7:8j] of it, and reading n bytes gives the value. -/
def Obligations.MemoryIsLittleEndian : Prop :=
  ∀ (m : Memory) pa n v bad,
    (∀ j, j < n → (m.write pa (leBytes n v) bad).byte (pa + j) = BitVec.ofNat 8 (v / 2 ^ (8 * j))) ∧
    (m.write pa (leBytes n v) bad).nat pa n = v % 2 ^ (8 * n)

/-- R131, R148, R149, R415 to R417: reading memory after a write. A byte of the write reads as what was written and every other byte as
before; where sector headers tell the zero lines, they tell them after the write, and a read by header gives the same bytes; a
word replaced whole takes the tag of the data, a word written in part is poisoned afterwards when the data is or it was, and
every other word keeps its tag; and the memory keeps its canonical form. -/
def Obligations.MemoryReadAfterWrite : Prop :=
  ∀ (m : Memory) pa bs bad, let n := m.write pa bs bad
    (∀ a, n.byte a = if pa ≤ a ∧ a < pa + bs.length then bs.getD (a - pa) 0 else m.byte a) ∧
    (m.headed → n.headed ∧ ∀ a, n.read a = if pa ≤ a ∧ a < pa + bs.length then bs.getD (a - pa) 0 else m.read a) ∧
    (∀ w, pa ≤ 8 * w → 8 * w + 8 ≤ pa + bs.length → setMem n.bad w = bad) ∧
    (∀ w, bs ≠ [] → pa < 8 * w + 8 → 8 * w < pa + bs.length → ¬(pa ≤ 8 * w ∧ 8 * w + 8 ≤ pa + bs.length) → setMem n.bad w = (bad || setMem m.bad w)) ∧
    (∀ w, 8 * w + 8 ≤ pa ∨ pa + bs.length ≤ 8 * w → setMem n.bad w = setMem m.bad w) ∧
    (m.wf = true → n.wf = true)

/-- R113, R194, R202: reading a register after a write. A written register reads as what was written, with its tag, and every other
register of every thread and every warp reads as before; the same of predicates. -/
def Obligations.RegisterReadAfterWrite : Prop :=
  (∀ (s : State) g w u n r, (s.thread? g w u).isSome = true →
    let t := s.updThread g w u fun th => th.setReg n r
    t.vreg g w u n = some r ∧ (∀ g' w' u' n', (g', w', u', n') ≠ (g, w, u, n) → t.vreg g' w' u' n' = s.vreg g' w' u' n') ∧
    (∀ g' w' n', t.wreg g' w' n' = s.wreg g' w' n') ∧ (∀ g' w' u' n', t.preg g' w' u' n' = s.preg g' w' u' n')) ∧
  (∀ (s : State) g w n r, (s.warp? g w).isSome = true →
    let t := s.updWarp g w fun x => x.setReg n r
    t.wreg g w n = some r ∧ (∀ g' w' n', (g', w', n') ≠ (g, w, n) → t.wreg g' w' n' = s.wreg g' w' n') ∧
    (∀ g' w' u' n', t.vreg g' w' u' n' = s.vreg g' w' u' n') ∧ (∀ g' w' u' n', t.preg g' w' u' n' = s.preg g' w' u' n')) ∧
  (∀ (s : State) g w u n b bad, n < 7 → (s.thread? g w u).isSome = true →
    let t := s.updThread g w u fun th => th.setPred n b bad
    t.preg g w u n = some (b, bad) ∧
    (∀ g' w' u' n', n' < 7 → (g', w', u', n') ≠ (g, w, u, n) → t.preg g' w' u' n' = s.preg g' w' u' n') ∧
    (∀ g' w' u' n', t.vreg g' w' u' n' = s.vreg g' w' u' n'))

/-- R26, R33, R194: THE FRAME of every instruction that computes a destination (integer, bit, floating-point, packed, special-function and
conversion instructions without stochastic rounding): its destination apart, every vector register, every warp register, every
predicate and every thread's level is unchanged; so are the accumulators, tiles, generators and bindings of every group, every
byte of memory and its tag, the contexts with their special registers, and the rest of the machine. Scratchpad changes only
through ring ports. -/
def Obligations.ComputeFrame : Prop :=
  ∀ i h sh per f, Writes i h sh per f → ∀ s x t, Clear s x h sh → exec i s = .next t →
    (∀ g w u n, ¬(g = x.r.g ∧ w = x.r.w ∧ u ∈ x.doing h sh ∧ ∃ d, sh.dst = some d ∧ d.covers true n) → t.vreg g w u n = s.vreg g w u n) ∧
    (∀ g w n, ¬(g = x.r.g ∧ w = x.r.w ∧ ∃ d, sh.dst = some d ∧ d.covers false n) → t.wreg g w n = s.wreg g w n) ∧
    (∀ g w u n, n < 7 → ¬(g = x.r.g ∧ w = x.r.w ∧ u ∈ x.doing h sh ∧ ∃ d m, sh.dst = some d ∧ d.op = .p m ∧ m.val = n) →
      t.preg g w u n = s.preg g w u n) ∧
    (∀ g w u, t.level g w u = s.level g w u) ∧ (∀ g, (t.group? g).map Group.units = (s.group? g).map Group.units) ∧
    (∀ a, t.mem.byte a = s.mem.byte a ∧ t.mem.isBad a = s.mem.isBad a) ∧
    t.ctxs = s.ctxs ∧ t.launches = s.launches ∧ t.tasks = s.tasks ∧ t.seqs = s.seqs ∧ t.ports = s.ports ∧ t.net = s.net ∧ t.dev = s.dev ∧
    (sh.ringless → ∀ g, (t.group? g).map (·.scratch) = (s.group? g).map (·.scratch))

/-- R26, R113, R194, R195, R416: WHAT AN INSTRUCTION THAT COMPUTES A DESTINATION LEAVES THERE, for every thread that takes it: the words
of its value in consecutive vector registers; in warp registers the words of the last thread; in a predicate, of the thread or
of every taking thread when it is uniform, whether a word is nonzero; in a data queue the words behind those that stood there.
Each word is poisoned when a source is. -/
def Obligations.ComputedDestination : Prop :=
  ∀ i h sh per f, Writes i h sh per f → ∀ s x d, Clear s x h sh → sh.dst = some d → x.doing h sh ≠ [] → ∃ t, exec i s = .next t ∧
    let vals := (s.sees x h sh).vals
    let value := fun (m : Nat × List (List Reg)) => regsOf d.n (f x m.1 (m.2.map regsNat)) (m.2.any regsBad)
    (∀ r, d.op = .v r → ∀ m ∈ vals, (s.thread? x.r.g x.r.w m.1).isSome = true → ∀ j, j < d.n →
      t.vreg x.r.g x.r.w m.1 (r.val + j) = (value m)[j]?) ∧
    (∀ r, d.op = .w r → ∀ m, vals.getLast? = some m → (s.warp? x.r.g x.r.w).isSome = true → ∀ j, j < d.n →
      t.wreg x.r.g x.r.w (r.val + j) = (value m)[j]?) ∧
    (∀ n, d.op = .p n → ∀ m ∈ vals, ∀ u ∈ (if sh.isUniform then x.doing h sh else [m.1]), (s.thread? x.r.g x.r.w u).isSome = true →
      t.preg x.r.g x.r.w u n.val = some ((value m).any (fun r => r.val != 0), (value m).any (·.bad))) ∧
    (∀ n, d.op = .q n → n.val < 8 → ∀ m ∈ vals, t.queue x.r.g x.r.w m.1 n.val =
      ((s.afterRead x h sh).queue x.r.g x.r.w m.1 n.val).map (· ++ value m))

/-- R260, R429: an instruction that accesses global memory changes no byte of memory at its issue, whichever it is: what it stores is
written when its home slice serves it. Every vector register, warp register and predicate keeps its value until the reply. No header
of its sectors that is bad is still to be reported. -/
def Obligations.IssueOfAccessLeavesMemory : Prop :=
  ∀ i h sh per kind order d ws f, Accesses i h sh per kind order d ws f → ∀ s x (tr : Nat → TlbEntry) t, Clear s x h sh → s.mustWait x h kind order false = false →
    (∀ w ∈ ws (s.sees x h sh), Reaches s x d w.va (tr w.va)) →
    (∀ w ∈ ws (s.sees x h sh), ∀ y ∈ sectorsOf ((tr w.va).pa w.va) d.size, setMem s.mem.badHdr y = true → setMem s.mem.saidHdr y = true) →
    exec i s = .next t →
    (∀ a, t.mem.byte a = s.mem.byte a ∧ t.mem.isBad a = s.mem.isBad a) ∧ (∀ g w u n, t.vreg g w u n = s.vreg g w u n) ∧
    (∀ g w n, t.wreg g w n = s.wreg g w n) ∧ (∀ g w u n, t.preg g w u n = s.preg g w u n) ∧ t.ctxs = s.ctxs

/-- R144, R166, R258, R262, R267 to R273, R417: AN ACCESS IS SERVED at its home slice, or a 4-byte piece of a weak wide one. Only the bytes
of its parts in the sector can change, and a load or CTR.RD changes none; an operation of one part leaves there what its kind
gives, and holds, for its reply, the value that stood there. Nothing of a group changes yet. The sector is held by rows or not
at all, its HOST bytes are in the LLC, its header is good or already reported, and the group has threads that have not ended. -/
def Obligations.ServedAccess : Prop :=
  ∀ sector s r id o g, s.nextReq sector = some r → s.aged r = false → r.eng = none → s.missing r = [] →
    (s.mem.sector sector).turning = false → (s.mem.sector sector).orient ≠ .col →
    r.op = some id → s.mem.ops.find? (fun o => o.id = id) = some o → s.group? o.g = some g → g.allEnded = false →
    (∀ p ∈ o.parts, ∀ x ∈ sectorsOf (p.pa + 4 * r.piece) o.unit, setMem s.mem.badHdr x = true → setMem s.mem.saidHdr x = true) →
    ∃ t, exec (.llcRequestServe sector) s = .next t ∧ t.groups = s.groups ∧ (s.mem.headed → t.mem.headed) ∧
      (∀ a, (∀ p ∈ o.parts, p.pa / 1024 = sector → p.served = false → a < p.pa + 4 * r.piece ∨ p.pa + 4 * r.piece + max o.unit 16 ≤ a) →
        t.mem.byte a = s.mem.byte a) ∧
      ((o.kind = .load ∨ o.kind = .ctrRd) → ∀ a, t.mem.byte a = s.mem.byte a) ∧
      (∀ p, o.parts = [p] → p.pa / 1024 = sector → p.served = false → p.got.getLsbD r.piece = false →
        let pa := p.pa + 4 * r.piece
        let read := if o.kind = .load then s.seen g pa o.unit else s.mem.readAt pa o.unit
        let e := effectOf o.kind o.unit (p.data.toNat / 2 ^ (32 * r.piece)) p.bad (leNat (read.map (·.1))) fun j => ((read.drop (4 * j)).take 4).any (·.2)
        (∀ off bs bad, e.put = some (off, bs, bad) → ∀ j, j < bs.length → t.mem.byte (pa + off + j) = bs.getD j 0) ∧
        (o.words ≠ 0 → o.d ≠ .vz → ∃ q, t.mem.ops.find? (fun o => o.id = id) = some { o with parts := [q] } ∧
          q.got = p.got ||| 1 <<< r.piece ∧ q.served = (List.range o.pieces).all (fun j => q.got.getLsbD j) ∧
          q.val = p.val ||| BitVec.ofNat 128 (e.val * 2 ^ (32 * r.piece)) ∧ q.fault = e.wraps))

/-- R258, R267 to R273: what each kind of access leaves in memory and returns, in terms of bit vectors: a store leaves its data; an atomic leaves
its function of the old value and its operand and returns the old value; a compare and swap leaves the new value when the old
one is the expected one; the counter instructions act on VALUE, and an add beyond 64 bits does not happen. -/
def Obligations.AccessEffects : Prop :=
  (∀ size data dbad x bad, (effectOf .store size data dbad x bad).put = some (0, leBytes size data, dbad)) ∧
  (∀ size data dbad x bad, let e := effectOf .load size data dbad x bad
    e.val = x ∧ e.put = none) ∧
  (∀ (a b : BitVec 32), atomValue .add a.toNat b.toNat = (a + b).toNat ∧ atomValue .and a.toNat b.toNat = (a &&& b).toNat ∧
    atomValue .or a.toNat b.toNat = (a ||| b).toNat ∧ atomValue .xor a.toNat b.toNat = (a ^^^ b).toNat ∧
    atomValue .exch a.toNat b.toNat = b.toNat ∧ atomValue .minS a.toNat b.toNat = (if b.slt a then b else a).toNat ∧
    atomValue .maxS a.toNat b.toNat = (if a.slt b then b else a).toNat ∧ atomValue .minN a.toNat b.toNat = (if b.ult a then b else a).toNat ∧
    atomValue .maxN a.toNat b.toNat = (if a.ult b then b else a).toNat) ∧
  (∀ (a b : BitVec 64), atomValue .add64 a.toNat b.toNat = (a + b).toNat ∧ atomValue .and64 a.toNat b.toNat = (a &&& b).toNat ∧
    atomValue .or64 a.toNat b.toNat = (a ||| b).toNat ∧ atomValue .xor64 a.toNat b.toNat = (a ^^^ b).toNat ∧
    atomValue .exch64 a.toNat b.toNat = b.toNat ∧ atomValue .minS64 a.toNat b.toNat = (if b.slt a then b else a).toNat ∧
    atomValue .maxS64 a.toNat b.toNat = (if a.slt b then b else a).toNat ∧ atomValue .minN64 a.toNat b.toNat = (if b.ult a then b else a).toNat ∧
    atomValue .maxN64 a.toNat b.toNat = (if a.ult b then b else a).toNat) ∧
  (∀ op size data dbad x bad, let e := effectOf (.atom op) size data dbad x bad
    e.val = x ∧ ∃ tag, e.put = some (0, leBytes size (atomValue op x (data % 2 ^ (8 * size))), tag)) ∧
  (∀ (new cmp : BitVec 32) dbad (x : BitVec 32), let e := effectOf .cas 4 (cmp.toNat + new.toNat * 2 ^ 32) dbad x.toNat fun _ => false
    e.val = x.toNat ∧ e.put = if x = cmp then some (0, leBytes 4 new.toNat, false) else none) ∧
  (∀ (v attr bound : BitVec 64) dbad, let old := v.toNat + attr.toNat * 2 ^ 64
    let add := effectOf .ctrAdd 16 bound.toNat dbad old fun _ => false
    let top := effectOf .ctrMax 16 bound.toNat dbad old fun _ => false
    let read := effectOf .ctrRd 16 bound.toNat dbad old fun _ => false
    add.val = v.toNat ∧ add.wraps = decide (2 ^ 64 ≤ v.toNat + bound.toNat) ∧
    add.put = (if 2 ^ 64 ≤ v.toNat + bound.toNat then none else some (0, leBytes 8 (v.toNat + bound.toNat), false)) ∧
    top.val = v.toNat ∧ top.put = some (0, leBytes 8 (max v.toNat bound.toNat), false) ∧ read.val = v.toNat ∧ read.put = none)

/-! ### Traps and waits -/

/-- R27, R55, R58, R71, R182, R429, R430, R480, R517: the checks that every instruction of a path has in common, for each that issues by
them. One whose registers are awaited, whose ring an engine owns, or whose push to a ring has earlier accesses before it (R279), is put
off; an illegal use traps the path with class 0x11 and the kind and field of R430; a draw from a bad generator with 0x36; a port
that cannot give or take makes the path wait; else the threads with a poisoned guard, a poisoned entry of the branch queue, or a
poisoned operand that cannot carry poison, trap with class 0x60 and the others perform it. A trap waits for the earlier accesses
of the threads (R429). -/
def Obligations.CommonChecks : Prop :=
  ∀ (i : Instr) (h : Hdr) (sh : Shape) per body, (∀ s, exec i s = issue i h sh per s body) → ∀ s x, s.iss? = some x →
    ((s.dependency x sh h = true ∨ s.ringBusy x sh = true ∨ s.ringWaits x h sh = true) → exec i s = .next s.putOff) ∧
    (s.outstanding x = true → ∀ t, issueAt i h sh per s body x = .next t → x.trapped t = true → exec i s = .next s.putOff) ∧
    (s.dependency x sh h = false → s.ringBusy x sh = false → s.ringWaits x h sh = false → s.outstanding x = false →
      (∀ detail, x.illegal h sh = some detail → exec i s = .next (s.faultPath x 0x11 0 detail)) ∧
      (x.illegal h sh = none → sh.gen = true → x.doing h sh ≠ [] → x.g.genBad ≠ 0 → exec i s = .next (s.faultPath x 0x36 0 x.g.genBad)) ∧
      (x.illegal h sh = none → (sh.gen = false ∨ x.doing h sh = [] ∨ x.g.genBad = 0) →
        (∀ pw, s.portWait x.g x.r.w (x.needs h sh) = some pw → exec i s = .next (s.portStop x i pw (x.needs h sh))) ∧
        (s.portWait x.g x.r.w (x.needs h sh) = none →
          let hurt := s.hurt x h sh
          exec i s = .next ((s.trapAll x.r ((maskList (x.badGuard h)).map (fun t => ⟨t, 0x60, 0, 0x4A0 + h.ps.val⟩) ++
            (x.badBranch sh).map (fun t => ⟨t, 0x60, 0, 0x4A7⟩) ++ hurt.map fun b => ⟨b.1, 0x60, 0, b.2⟩)).act x h sh per
            ((x.doing h sh).filter fun t => !((x.badBranch sh).contains t) && !(hurt.any fun b => b.1 = t)) body))))

/-- R334, R423: TAKING AN EXCEPTION. Each thread that enters its handler has the return address, the cause code and its level, with the
fault bit, in its last four vector registers, unpoisoned, runs at supervisor level and leaves its path for one at TRAPVEC; its
other registers, every other thread, and memory stay as they were. -/
def Obligations.TrapEntry : Prop :=
  ∀ (s : State) r m ret cause fault skip g p c, s.group? r.g = some g → s.path? r = some p → s.ctx? g.ctx = some c → s.nested r.g r.w m = false →
    let t := s.enter r m ret cause fault skip
    let n := g.nregs
    (∀ u ∈ maskList m, ∀ l, s.level r.g r.w u = some l →
      t.vreg r.g r.w u (n - 4) = some ⟨BitVec.ofNat 32 ret.toNat, false⟩ ∧
      t.vreg r.g r.w u (n - 3) = some ⟨BitVec.ofNat 32 (ret.toNat / 2 ^ 32), false⟩ ∧
      t.vreg r.g r.w u (n - 2) = some ⟨BitVec.ofNat 32 cause, false⟩ ∧
      t.vreg r.g r.w u (n - 1) = some ⟨BitVec.ofNat 32 (l.1.toNat + 2 * fault.toNat), false⟩ ∧
      t.level r.g r.w u = some (true, true)) ∧
    (∀ u k, k < n - 4 → t.vreg r.g r.w u k = s.vreg r.g r.w u k) ∧
    (∀ g' w' u, (g' ≠ r.g ∨ w' ≠ r.w ∨ u ∉ maskList m) → t.thread? g' w' u = s.thread? g' w' u) ∧
    (∃ w, t.warp? r.g r.w = some w ∧ (∃ q ∈ w.paths, q.pc = (c.trapVec &&& 0x007FFFFFFFFFFFF8) ∧ q.tmask = m ∧ q.st = .ready ∧ q.access = p.access) ∧
      (∃ q ∈ w.paths, q = p.without m)) ∧
    t.mem = s.mem ∧ t.ctxs = s.ctxs

/-- R424: without a handler an error of domain thread or path stops the gang instead, and its record holds DOMAIN = 2. -/
def Obligations.ErrorWithoutHandlerStopsGang : Prop :=
  ∀ (s : State) r m ret cls domain addr detail skip g c, m ≠ 0 → s.group? r.g = some g → s.ctx? g.ctx = some c → c.trapVec = 0 →
    let e := { s.pathErr r m cls domain addr detail with domain := 2 }
    s.faultAt r m ret cls domain addr detail skip = s.stopGang (s.gangOf g) e ∧
    (s.folds e.ctx = none → (∀ x ∈ s.stops, ∀ k ∈ x.groups, k ∉ s.gangOf g) →
      let t := s.faultAt r m ret cls domain addr detail skip
      t.stops = s.stops ++ [{ groups := s.gangOf g, err := e }] ∧
      (∀ q ∈ t.groups, q.key ∈ s.gangOf g → q.stop = true) ∧ t.mem = s.mem ∧ (∀ g w u n, t.vreg g w u n = s.vreg g w u n))

/-- R447: a trap entry of a thread that is in a handler, or of a thread of a supervisor context, contains the context, and its frame is
not written. -/
def Obligations.NestedTrapContains : Prop :=
  ∀ (s : State) r m ret cause fault skip g p c, s.group? r.g = some g → s.path? r = some p → s.ctx? g.ctx = some c →
    s.nested r.g r.w m = true → s.dev.contained = false → c.run ≠ .contained →
    let t := s.enter r m ret cause fault skip
    (∃ d, t.ctx? g.ctx = some d ∧ d.run = .contained) ∧ (∀ g w u n, t.vreg g w u n = s.vreg g w u n) ∧ (∀ g w u, t.level g w u = s.level g w u)

/-- R33, R34: merging moves no thread: after it every thread stands where it stood, at the same address of the same stream; no path is
empty, and no two paths are left that merge. -/
def Obligations.MergingKeepsThreads : Prop :=
  ∀ w : Warp,
    (∀ u pc access, (∃ p ∈ w.settle.paths, p.tmask.getLsbD u = true ∧ p.pc = pc ∧ p.access = access) ↔
      (∃ p ∈ w.paths, p.tmask.getLsbD u = true ∧ p.pc = pc ∧ p.access = access)) ∧
    (∀ p ∈ w.settle.paths, p.tmask ≠ 0) ∧ w.settle.paths.Pairwise (fun p q => w.merges p q = false) ∧ w.settle.threads = w.threads

/-- R455: a TLBINV whose form field holds 3 acts as form 2, invalidating everything: its row is that of form 2, and the effect of that
row leaves no translation in any TLB. -/
def Obligations.InvalidationFormThree : Prop :=
  (∀ (s : State) (x : SwrOps) i, x.sreg.toNat = 0x021 → s.iss? = some i →
    let src : Src := { field := 2, op := x.a, n := 2, uni := true }
    let v := BitVec.ofNat 64 (regsNat (((s.readSrc i x.h src ((maskList (i.taking x.h)).take 1)).2).headD []))
    (v.toNat % 4 = 2 ∨ v.toNat % 4 = 3) → s.rowOf (.swr x) = .tlbinvAll x) ∧
  (∀ (s : State) i c v, (s.invalidate i c 2 v).mem.tlb = [])

/-- R483: KSIG, KTEST, KREUSE and KMAP issued with no binding fault with class 0x39. -/
def Obligations.KilnNeedsBinding : Prop :=
  ∀ s i, i.g.kiln = none → s.outstanding i = false →
    let stop := fun (h : Hdr) (sh : Shape) (op : Nat) =>
      i.unpop sh (i.doing h sh) s ((s.afterRead i h sh).faultPath i 0x39 0 op)
    (∀ (x : OpAB) , let sh : Shape := { srcs := [uniSrc 2 x.a 2, uniSrc 3 x.b 1], uni := some true, suppress := true }
      Clear s i x.h sh → i.doing x.h sh ≠ [] → exec (.ksig x) s = .next (stop x.h sh 0xB9)) ∧
    (∀ (x : OpDA), let sh : Shape := { srcs := [{ field := 2, op := x.a, strict := true }], dst := some { op := x.d }, suppress := true }
      Clear s i x.h sh → i.doing x.h sh ≠ [] → exec (.ktest x) s = .next (stop x.h sh 0xBA)) ∧
    (∀ (x : OpDA), let sh : Shape := { srcs := [{ field := 2, op := x.a, strict := true }], dst := some { op := x.d, n := 2 } }
      Clear s i x.h sh → i.doing x.h sh ≠ [] → exec (.kreuse x) s = .next (stop x.h sh 0xBB)) ∧
    (∀ (x : OpDAB), (Clear s i x.h (kmapShape x 2) → i.doing x.h (kmapShape x 2) ≠ [] →
        exec (.kmap x) s = .next (stop x.h (kmapShape x 2) 0xBC)) ∧
      (Clear s i x.h (kmapShape x 1) → i.doing x.h (kmapShape x 1) ≠ [] → exec (.kmapSrc x) s = .next (stop x.h (kmapShape x 1) 0xBC)))

/-- R440: TASK.NEXT and TASK.GET outside a worker group fault with class 0x18. TASK.DONE acts as EXIT, there and in a worker group. -/
def Obligations.TasksOutsideWorkers : Prop :=
  (∀ (x : OpD) s i, i.g.task = none → s.outstanding i = false → Clear s i x.h (chunkShape x) → i.doing x.h (chunkShape x) ≠ [] →
    exec (.taskNext x) s = .next (i.unpop (chunkShape x) (i.doing x.h (chunkShape x)) s ((s.afterRead i x.h (chunkShape x)).faultPath i 0x18 0 0xC2)) ∧
    exec (.taskGet x) s = .next (i.unpop (chunkShape x) (i.doing x.h (chunkShape x)) s ((s.afterRead i x.h (chunkShape x)).faultPath i 0x18 0 0xC3))) ∧
  (∀ (x : Op0) s i, let body : Body := fun i k t => (t.exitThreads i.r i.p.access (i.p.pc + BitVec.ofNat 64 i.size) k.ts, .next [])
    let exit : Shape := { srcs := [], uni := some false, flat := true }
    let done : Shape := { srcs := [], uni := some false, suppress := true, execOnly := true }
    (Clear s i x.h exit → exec (.exit x) s = .next ((s.performed i x.h exit 1 body).tryEnd i.r.g)) ∧
    (Clear s i x.h done → exec (.taskDone x) s = .next ((s.performed i x.h done 1 body).tryEnd i.r.g)))
end

