-- ==== Sys2Proof/Laws/Issue.lean ====
section
/-! SUPPORT. Laws/Issue.lean: the course of an issue, once for every instruction of a path. -/

namespace Sys2Proof.Machine

theorem trapAll_nil (s : State) (r : PathRef) : s.trapAll r [] = s := by
  have e : (List.range 64).findSome? (fun _ => (none : Option ThreadErr)) = none := by simp
  simp only [State.trapAll, List.find?_nil, e]
  induction List.range' 0x10 0x60 with
  | nil => rfl
  | cons a l ih => simpa only [List.foldl_cons] using ih

theorem withIssue_of {s : State} {x : Iss} (h : s.iss? = some x) (f : Iss → Result) : withIssue s f = f x := by
  simp [withIssue, h]

theorem maskList_zero : maskList 0 = [] := by decide

theorem orderly_next {s t : State} {x : Iss} (h : Orderly s t x) : x.orderly s (.next t) = .next t := by
  rcases h with h | h <;> simp [Iss.orderly, h]

/-- The common checks let an instruction pass that nothing stops. -/
theorem issueAt_clear {s : State} {x : Iss} {h : Hdr} {sh : Shape} (c : Clear s x h sh) (i : Instr) (per : Nat) (body : Body) :
    issueAt i h sh per s body x = .next (s.performed x h sh per body) := by
  obtain ⟨_, hreg, hlin, hring, hbr, hgrd, huse, hgen, hport, hops⟩ := c
  have hg : (sh.gen && !(x.doing h sh).isEmpty && decide (x.g.genBad ≠ 0)) = false := by
    cases e : sh.gen
    · simp
    · simp [hgen e]
  have hf : ∀ l : List Nat, l.filter (fun t => !(([] : List (Nat × Nat)).any (fun b => decide (b.1 = t)))) = l := by
    intro l; simp
  simp only [issueAt, hreg, hlin, hring, hbr, hgrd, huse, hg, hport, hops, Bool.or_false, Bool.false_eq_true, if_false, maskList_zero,
    List.map_nil, List.append_nil, trapAll_nil, List.contains_nil, Bool.not_false, Bool.true_and, hf, State.performed]

theorem issue_clear {s : State} {x : Iss} {h : Hdr} {sh : Shape} (c : Clear s x h sh) (i : Instr) (per : Nat) (body : Body)
    (o : Orderly s (s.performed x h sh per body) x) : issue i h sh per s body = .next (s.performed x h sh per body) := by
  rw [issue, withIssue_of c.issues, issueAt_clear c, orderly_next o]

end Sys2Proof.Machine
end

