-- ==== Sys2Proof/Laws/Frame.lean ====
section
/-! SUPPORT. Laws/Frame.lean: what reading operands, writing a destination and passing an instruction leave unchanged. -/

namespace Sys2Proof.Machine

/-- Which threads of a group are in a handler, with what says where the group stands. -/
def Group.traps (g : Group) : Nat × Nat × Bool × List (List Bool) :=
  (g.key, g.ctx, g.stop, g.warps.map (fun w => w.threads.map (·.trapped)))

/-- Only groups have changed, and no thread has entered or left a handler, no group has stopped. -/
structure Calm (s t : State) : Prop where
  only : { t with groups := s.groups } = s
  traps : t.groups.map Group.traps = s.groups.map Group.traps

/-- Which context runs. -/
def Ctx.stands (c : Ctx) : Nat × Running := (c.num, c.run)

/-- No thread has entered or left a handler, no group and no context has stopped. -/
structure Still (s t : State) : Prop where
  ctxs : t.ctxs.map Ctx.stands = s.ctxs.map Ctx.stands
  traps : t.groups.map Group.traps = s.groups.map Group.traps

theorem Still.refl (s : State) : Still s s := ⟨rfl, rfl⟩
theorem Still.trans {s t u : State} (a : Still s t) (b : Still t u) : Still s u := ⟨b.ctxs.trans a.ctxs, b.traps.trans a.traps⟩

theorem Calm.refl (s : State) : Calm s s := ⟨rfl, rfl⟩

theorem Calm.trans {s t u : State} (a : Calm s t) (b : Calm t u) : Calm s u := by
  refine ⟨?_, b.traps.trans a.traps⟩
  have ha := a.only
  have hb := b.only
  rw [← ha, ← hb]

theorem Calm.eq {s t : State} (h : Calm s t) : t = { s with groups := t.groups } := by
  have := h.only
  rw [← this]

theorem Calm.still {s t : State} (h : Calm s t) : Still s t := ⟨by rw [h.eq], h.traps⟩

theorem still_foldl {α : Type} (l : List α) (f : State → α → State) (hf : ∀ s a, Still s (f s a)) (s : State) : Still s (l.foldl f s) := by
  induction l generalizing s with
  | nil => exact Still.refl s
  | cons a l ih => exact (hf s a).trans (ih (f s a))

theorem calm_updGroup (s : State) (k : Nat) (f : Group → Group) (hf : ∀ g, (f g).traps = g.traps) : Calm s (s.updGroup k f) := by
  refine ⟨rfl, ?_⟩
  simp only [State.updGroup, mapIf, List.map_map]
  apply List.map_congr_left
  intro g _
  simp only [Function.comp_apply]
  split
  · exact hf g
  · rfl

theorem calm_updWarp (s : State) (k w : Nat) (f : Warp → Warp) (hf : ∀ x, (f x).threads.map (·.trapped) = x.threads.map (·.trapped)) :
    Calm s (s.updWarp k w f) := by
  apply calm_updGroup
  intro g
  simp only [Group.traps, Group.updWarp, Prod.mk.injEq, true_and]
  apply List.ext_getElem
  · simp
  · intro i h1 h2
    simp only [List.getElem_map, List.getElem_modify]
    split
    · exact hf _
    · rfl

theorem calm_updThread (s : State) (k w t : Nat) (f : Thread → Thread) (hf : ∀ x, (f x).trapped = x.trapped) : Calm s (s.updThread k w t f) := by
  apply calm_updWarp
  intro x
  simp only [Warp.updThread]
  apply List.ext_getElem
  · simp
  · intro i h1 h2
    simp only [List.getElem_map, List.getElem_modify]
    split
    · exact hf _
    · rfl

theorem calm_updPath (s : State) (r : PathRef) (f : Path → Path) : Calm s (s.updPath r f) := calm_updWarp s r.g r.w _ (fun _ => rfl)

theorem calm_foldl {α : Type} (l : List α) (f : State → α → State) (hf : ∀ s a, Calm s (f s a)) (s : State) : Calm s (l.foldl f s) := by
  induction l generalizing s with
  | nil => exact Calm.refl s
  | cons a l ih => exact (hf s a).trans (ih (f s a))

theorem calm_putScratch (s : State) (g : Group) (k o : Nat) (bs : List Byte) (bad : Bool) : Calm s (s.putScratch g k o bs bad) := by
  apply calm_foldl
  intro s a
  simp only [State.putScratchByte]
  split
  · exact Calm.refl s
  · exact calm_updGroup _ _ _ (fun _ => rfl)

theorem calm_ringPush (s : State) (g : Group) (base k : Nat) (rs : List Reg) : Calm s (s.ringPush g base k rs) := by
  simp only [State.ringPush]
  exact (calm_foldl _ _ (fun s a => calm_putScratch s g 0 _ _ _) s).trans (calm_putScratch _ g 0 _ _ _)

theorem setReg_trapped (th : Thread) (n : Nat) (r : Reg) : (th.setReg n r).trapped = th.trapped := rfl

theorem calm_writeDst (s : State) (g w : Nat) (gr : Group) (d : Dst) (t : Nat) (ps : List Nat) (rs : List Reg) :
    Calm s (s.writeDst g w gr d t ps rs) := by
  unfold State.writeDst
  split
  · apply calm_updThread
    intro x
    generalize rs.zipIdx = l
    induction l generalizing x with
    | nil => rfl
    | cons a l ih => simpa using (ih _).trans (setReg_trapped _ _ _)
  · apply calm_updWarp
    intro x
    generalize rs.zipIdx = l
    induction l generalizing x with
    | nil => rfl
    | cons a l ih => simpa [Warp.setReg] using ih _
  · split
    · exact calm_updThread _ _ _ _ _ (fun _ => rfl)
    · split
      · exact calm_ringPush _ _ _ _ _
      · exact Calm.refl s
  · exact calm_foldl _ _ (fun s u => calm_updThread s g w u (fun th => th.setPred _ (rs.any fun r => r.val != 0) (regsBad rs)) (fun _ => rfl)) s
  · exact Calm.refl s

theorem pop_trapped (th : Thread) (n k : Nat) : (th.pop n k).1.trapped = th.trapped := rfl

theorem calm_readSrc (s : State) (x : Iss) (h : Hdr) (a : Src) (ts : List Nat) : Calm s (s.readSrc x h a ts).1 := by
  unfold State.readSrc
  split
  · rename_i n _
    split
    · suffices H : ∀ (l : List Nat) (acc : State × List (List Reg)), Calm acc.1 (l.foldl (fun (s, acc) t =>
          match (s.warp? x.r.g x.r.w).bind (fun w => w.threads[t]?) with
          | none => (s, acc ++ [regsOf a.n 0 false])
          | some th => (s.updThread x.r.g x.r.w t (fun th => (th.pop n.val a.n).1), acc ++ [(th.pop n.val a.n).2])) acc).1 from H ts (s, [])
      intro l
      induction l with
      | nil => intro acc; exact Calm.refl _
      | cons t l ih =>
        intro acc
        rw [List.foldl_cons]
        refine Calm.trans ?_ (ih _)
        dsimp only
        split
        · exact Calm.refl _
        · exact calm_updThread _ _ _ _ _ (fun th => pop_trapped th _ _)
    · split
      · exact Calm.refl s
      · exact calm_putScratch _ _ _ _ _ _
  · exact Calm.refl s

theorem calm_readSrcs (s : State) (x : Iss) (h : Hdr) (l : List Src) (ts : List Nat) : Calm s (s.readSrcs x h l ts).1 := by
  suffices H : ∀ (l : List Src) (acc : State × List (List (List Reg))), Calm acc.1 (l.foldl (fun (s, acc) a =>
      let (s, c) := s.readSrc x h a ts; (s, acc ++ [c])) acc).1 from H l (s, [])
  intro l
  induction l with
  | nil => intro acc; exact Calm.refl _
  | cons a l ih =>
    intro acc
    obtain ⟨s, acc⟩ := acc
    rw [List.foldl_cons]
    exact (calm_readSrc s x h a ts).trans (ih ((s.readSrc x h a ts).1, acc ++ [(s.readSrc x h a ts).2]))

theorem mergeInto_calm (w : Warp) : w.settle.threads = w.threads := rfl

theorem calm_occupy (s : State) (r : PathRef) (n : Nat) : Calm s (s.occupy r n) := calm_updWarp _ _ _ _ (fun _ => rfl)

theorem calm_settle (s : State) (k w : Nat) : Calm s (s.settle k w) := calm_updWarp _ _ _ _ (fun _ => rfl)

theorem calm_finish (s : State) (r : PathRef) (size : Nat) (moves : List (Nat × W64)) : Calm s (s.finish r size moves) := by
  apply calm_updWarp
  intro x
  dsimp only
  split <;> rfl

/-- What the issuing path's group, warp and context were. -/
theorem iss_spec {s : State} {x : Iss} (h : s.iss? = some x) :
    s.cur = some (.path x.r x.size) ∧ s.group? x.r.g = some x.g ∧ x.g.warps[x.r.w]? = some x.w ∧ x.w.paths[x.r.p]? = some x.p ∧
      s.ctx? x.g.ctx = some x.c := by
  unfold State.iss? at h
  split at h
  · rename_i r size hc
    simp only [Option.bind_eq_some_iff, Option.map_eq_some_iff] at h
    obtain ⟨g, hg, w, hw, p, hp, c, hx, rfl⟩ := h
    exact ⟨hc, hg, hw, hp, hx⟩
  · simp at h

theorem find_traps (k : Nat) : ∀ l m : List Group, m.map Group.traps = l.map Group.traps → ∀ g, l.find? (fun g => g.key = k) = some g →
    ∃ q, m.find? (fun g => g.key = k) = some q ∧ q.traps = g.traps
  | [], [], _, g, h => by simp at h
  | [], _ :: _, e, _, _ => by simp at e
  | _ :: _, [], e, _, _ => by simp at e
  | a :: l, b :: m, e, g, h => by
    simp only [List.map_cons, List.cons.injEq] at e
    have hk : b.key = a.key := congrArg (·.1) e.1
    simp only [List.find?_cons] at h ⊢
    rw [hk]
    by_cases ha : a.key = k
    · simp only [ha, decide_true] at h ⊢
      exact ⟨b, rfl, by cases h; exact e.1⟩
    · simp only [ha, decide_false] at h ⊢
      exact find_traps k l m e.2 g h

theorem find_stands (k : Nat) : ∀ l m : List Ctx, m.map Ctx.stands = l.map Ctx.stands → ∀ c, l.find? (fun c => c.num = k) = some c →
    ∃ d, m.find? (fun c => c.num = k) = some d ∧ d.run = c.run
  | [], [], _, c, h => by simp at h
  | [], _ :: _, e, _, _ => by simp at e
  | _ :: _, [], e, _, _ => by simp at e
  | a :: l, b :: m, e, c, h => by
    simp only [List.map_cons, List.cons.injEq, Ctx.stands, Prod.mk.injEq] at e
    simp only [List.find?_cons] at h ⊢
    rw [e.1.1]
    by_cases ha : a.num = k
    · simp only [ha, decide_true] at h ⊢
      exact ⟨b, rfl, by cases h; exact e.1.2⟩
    · simp only [ha, decide_false] at h ⊢
      exact find_stands k l m e.2 c h

/-- No thread has trapped. -/
theorem trapped_still {s t : State} {x : Iss} (h : s.iss? = some x) (c : Still s t) : x.trapped t = false := by
  obtain ⟨_, hg, hw, _, hc⟩ := iss_spec h
  obtain ⟨q, hq, e⟩ := find_traps x.r.g s.groups t.groups c.traps x.g hg
  have hq' : t.group? x.r.g = some q := hq
  simp only [Group.traps, Prod.mk.injEq] at e
  obtain ⟨_, ectx, estop, ew⟩ := e
  obtain ⟨d, hd, ed⟩ := find_stands q.ctx s.ctxs t.ctxs c.ctxs x.c (by rw [ectx]; exact hc)
  have hctx : t.ctx? q.ctx = some d := hd
  simp only [Iss.trapped, hq', hctx, estop, ed, bne_self_eq_false, Bool.or_false, Bool.and_not_self, Bool.false_or]
  split
  · rfl
  · rename_i w hw2
    have e1 : w.threads.map (·.trapped) = x.w.threads.map (·.trapped) := by
      have := congrArg (fun l => l[x.r.w]?) ew
      simpa [hw, hw2] using this
    rw [List.any_eq_false]
    rintro ⟨a, b⟩ hab
    have : ∀ (l m : List Thread), l.map (·.trapped) = m.map (·.trapped) → (a, b) ∈ l.zip m → a.trapped = b.trapped := by
      intro l
      induction l with
      | nil => intro m _ h; simp at h
      | cons u l ih =>
        intro m e h
        cases m with
        | nil => simp at h
        | cons v m =>
          simp only [List.map_cons, List.cons.injEq] at e
          simp only [List.zip_cons_cons, List.mem_cons, Prod.mk.injEq] at h
          rcases h with ⟨rfl, rfl⟩ | h
          · exact e.1
          · exact ih m e.2 h
    simp [this _ _ e1 hab]

/-- Nothing is given back to a queue when no thread has trapped. -/
theorem unpop_still {s t : State} {x : Iss} (h : s.iss? = some x) (c : Still s t) (sh : Shape) (ts : List Nat) (s0 : State) :
    x.unpop sh ts s0 t = t := by
  obtain ⟨_, hg, hw, _, _⟩ := iss_spec h
  obtain ⟨q, hq, e⟩ := find_traps x.r.g s.groups t.groups c.traps x.g hg
  have hq' : t.group? x.r.g = some q := hq
  simp only [Group.traps, Prod.mk.injEq] at e
  obtain ⟨_, _, _, ew⟩ := e
  simp only [Iss.unpop, State.warp?, hq', Option.bind_some]
  split
  · rfl
  · rename_i w hw2
    have e1 : w.threads.map (·.trapped) = x.w.threads.map (·.trapped) := by
      have := congrArg (fun l => l[x.r.w]?) ew
      simpa [hw, hw2] using this
    rw [if_pos]
    · rw [List.isEmpty_iff, List.filter_eq_nil_iff]
      intro i _
      have := congrArg (fun l => l[i]?) e1
      simp only [List.getElem?_map] at this
      cases h1 : w.threads[i]? with
      | none => simp
      | some th =>
        rw [h1] at this
        cases h2 : x.w.threads[i]? with
        | none => rw [h2] at this; simp at this
        | some tx =>
          rw [h2] at this
          simp only [Option.map_some, Option.some.injEq] at this
          simp [Iss.thread, h2, this]

theorem calm_writes (sh : Shape) (f : Iss → Nat → List Nat → Nat) (x : Iss) (k : Taken) (s : State) : Calm s (writes sh f x k s).1 := by
  unfold writes
  split
  · exact Calm.refl s
  · exact calm_foldl _ _ (fun s v => calm_writeDst s _ _ _ _ _ _ _) s

/-- An instruction whose body is calm leaves all but groups unchanged, and traps nothing. -/
theorem calm_act {s : State} {x : Iss} (i : s.iss? = some x) (h : Hdr) (sh : Shape) (per : Nat) (ts : List Nat) (body : Body)
    (hb : ∀ k s, Calm s (body x k s).1) : Calm s (s.act x h sh per ts body) := by
  unfold State.act
  dsimp only
  split
  · exact (calm_occupy _ _ _).trans (calm_finish _ _ _ _)
  · have h1 := calm_readSrcs s x h sh.srcs (sh.readers ts)
    have h2 := h1.trans (hb { uni := sh.isUniform, ts := ts, vals := (s.readSrcs x h sh.srcs (sh.readers ts)).2 } _)
    rw [unpop_still i h2.still]
    split
    · exact h2.trans ((calm_occupy _ _ _).trans (calm_finish _ _ _ _))
    · exact h2
    · exact h2.trans (calm_occupy _ _ _)

theorem calm_performed {s : State} {x : Iss} (i : s.iss? = some x) (h : Hdr) (sh : Shape) (per : Nat) (body : Body)
    (hb : ∀ k s, Calm s (body x k s).1) : Calm s (s.performed x h sh per body) := calm_act i h sh per _ body hb

theorem still_act {s : State} {x : Iss} (i : s.iss? = some x) (h : Hdr) (sh : Shape) (per : Nat) (ts : List Nat) (body : Body)
    (hb : Still (s.readSrcs x h sh.srcs (sh.readers ts)).1 (body x (s.taken x h sh ts) (s.readSrcs x h sh.srcs (sh.readers ts)).1).1) :
    Still s (s.act x h sh per ts body) := by
  unfold State.act
  dsimp only
  split
  · exact ((calm_occupy _ _ _).trans (calm_finish _ _ _ _)).still
  · have h2 := (calm_readSrcs s x h sh.srcs (sh.readers ts)).still.trans hb
    unfold State.taken at h2
    rw [unpop_still i h2]
    split
    · exact h2.trans ((calm_occupy _ _ _).trans (calm_finish _ _ _ _)).still
    · exact h2
    · exact h2.trans (calm_occupy _ _ _).still

/-- An instruction that nothing stops and that traps nothing performs. -/
theorem issue_still {s : State} {x : Iss} {h : Hdr} {sh : Shape} (c : Clear s x h sh) (i : Instr) (per : Nat) (body : Body)
    (hb : Still (s.afterRead x h sh) (body x (s.sees x h sh) (s.afterRead x h sh)).1) :
    issue i h sh per s body = .next (s.performed x h sh per body) :=
  issue_clear c i per body (.inr (trapped_still c.issues (still_act c.issues h sh per _ body hb)))

/-- A calm instruction that nothing stops performs. -/
theorem issue_calm {s : State} {x : Iss} {h : Hdr} {sh : Shape} (c : Clear s x h sh) (i : Instr) (per : Nat) (body : Body)
    (hb : ∀ k s, Calm s (body x k s).1) : issue i h sh per s body = .next (s.performed x h sh per body) :=
  issue_still c i per body (hb _ _).still

/-- An instruction that computes its destination performs when nothing stops it. -/
theorem compute_clear {s : State} {x : Iss} {h : Hdr} {sh : Shape} (c : Clear s x h sh) (i : Instr) (per : Nat)
    (f : Iss → Nat → List Nat → Nat) : compute i h sh per s f = .next (s.performed x h sh per (writes sh f)) :=
  issue_calm c i per _ (fun k s => calm_writes sh f x k s)

theorem regsOf_congr (bad : Bool) : ∀ (n x y : Nat), x % 2 ^ (32 * n) = y % 2 ^ (32 * n) → regsOf n x bad = regsOf n y bad
  | 0, _, _, _ => rfl
  | n + 1, x, y, e => by
    have h : 2 ^ (32 * (n + 1)) = 2 ^ 32 * 2 ^ (32 * n) := by rw [← Nat.pow_add]; congr 1; omega
    rw [h] at e
    have e1 : x % 2 ^ 32 = y % 2 ^ 32 := by
      rw [← Nat.mod_mod_of_dvd x ⟨2 ^ (32 * n), rfl⟩, e, Nat.mod_mod_of_dvd y ⟨2 ^ (32 * n), rfl⟩]
    have e2 : x / 2 ^ 32 % 2 ^ (32 * n) = y / 2 ^ 32 % 2 ^ (32 * n) := by
      rw [← Nat.mod_mul_right_div_self, e, Nat.mod_mul_right_div_self]
    simp only [regsOf, regsOf_congr bad n _ _ e2, Reg.ofNat]
    rw [show BitVec.ofNat 32 x = BitVec.ofNat 32 y from by apply BitVec.eq_of_toNat_eq; simpa using e1]

/-- Only the value modulo the width of D counts. -/
theorem writes_congr {sh : Shape} {f g : Iss → Nat → List Nat → Nat}
    (e : ∀ d, sh.dst = some d → ∀ x t v, f x t v % 2 ^ (32 * d.n) = g x t v % 2 ^ (32 * d.n)) : writes sh f = writes sh g := by
  funext x k s
  unfold writes
  split
  · rfl
  · rename_i d hd
    simp only [fun v : Nat × List (List Reg) => regsOf_congr (v.2.any regsBad) d.n _ _ (e d hd x v.1 (v.2.map regsNat))]

/-- An instruction whose meaning is `compute` completes, and writes any value that agrees with its own on the width of D. -/
theorem writes_of_compute {i j : Instr} {h : Hdr} {sh : Shape} {per : Nat} {f g : Iss → Nat → List Nat → Nat}
    (m : ∀ s, exec i s = compute j h sh per s f)
    (e : ∀ d, sh.dst = some d → ∀ x t v, f x t v % 2 ^ (32 * d.n) = g x t v % 2 ^ (32 * d.n)) : Writes i h sh per g := by
  intro s x c
  rw [m, compute_clear c, writes_congr e]

/-- Two bodies that do the same to what the instruction sees perform the same. -/
theorem performed_congr {s : State} {x : Iss} {h : Hdr} {sh : Shape} {per : Nat} {a b : Body}
    (e : a x (s.sees x h sh) (s.afterRead x h sh) = b x (s.sees x h sh) (s.afterRead x h sh)) :
    s.performed x h sh per a = s.performed x h sh per b := by
  unfold State.sees State.taken State.afterRead at e
  simp only [State.performed, State.act, e]

end Sys2Proof.Machine
end

