-- ==== Sys2Proof/Laws/Bodies.lean ====
section
/-! SUPPORT. Laws/Bodies.lean: an instruction performs the body that says what its own does when nothing goes wrong; what the shared
bodies leave unchanged. -/

namespace Sys2Proof.Machine

/-- An instruction that nothing stops performs any body that does the same to what the instruction sees and traps nothing. -/
theorem issue_body {s : State} {x : Iss} {h : Hdr} {sh : Shape} (c : Clear s x h sh) (i : Instr) (per : Nat) (a b : Body)
    (e : a x (s.sees x h sh) (s.afterRead x h sh) = b x (s.sees x h sh) (s.afterRead x h sh))
    (hb : Still (s.afterRead x h sh) (b x (s.sees x h sh) (s.afterRead x h sh)).1) :
    issue i h sh per s a = .next (s.performed x h sh per b) := by
  rw [issue_still c i per a (by rw [e]; exact hb), performed_congr e]

/-- Targets that are all legal: nothing traps, and each thread goes to its own. -/
theorem branch_good (s : State) (x : Iss) (a : Operand) (l : List (Nat × W64)) (h : ∀ m ∈ l, badTarget m.2 = false) :
    s.branch x a l = (s, .next l) := by
  have e1 : l.filter (fun m => badTarget m.2) = [] := by
    rw [List.filter_eq_nil_iff]; intro m hm; simp [h m hm]
  have e2 : l.filter (fun m => !badTarget m.2) = l := by
    rw [List.filter_eq_self]; intro m hm; simp [h m hm]
  simp only [State.branch, e1, e2, List.map_nil, trapAll_nil]

theorem calm_pushBranch (s : State) (x : Iss) (l : List Nat) : Calm s (s.pushBranch x l) := by
  unfold State.pushBranch
  split
  · exact Calm.refl s
  · apply calm_foldl
    intro s t
    exact calm_updThread s _ _ _ _ (fun _ => rfl)

theorem still_tick (s : State) : Still s s.tick := ⟨rfl, rfl⟩

theorem still_writesSr (sh : Shape) (f : (Nat → Nat → Nat) → List Nat → Nat) (x : Iss) (k : Taken) (s : State) :
    Still s (writesSr sh f x k s).1 := by
  unfold writesSr
  split
  · exact Still.refl s
  · dsimp only
    split
    · refine Still.trans (Calm.still ?_) (still_tick _)
      apply calm_foldl
      intro s v
      exact calm_writeDst s _ _ _ _ _ _ _
    · refine Calm.still ?_
      apply calm_foldl
      intro s v
      exact calm_writeDst s _ _ _ _ _ _ _

/-- An instruction whose meaning is `computeSr` completes. -/
theorem draws_of_computeSr {i j : Instr} {h : Hdr} {sh : Shape} {per : Nat} {f g : (Nat → Nat → Nat) → List Nat → Nat}
    (m : ∀ s, exec i s = computeSr j h sh per s f) (e : f = g) : Draws i h sh per g := by
  intro s x c
  rw [m, computeSr, e]
  exact issue_still c _ _ _ (still_writesSr _ _ _ _ _)

/-- A change of groups that keeps each group's key and its warps' paths keeps every path. -/
theorem path_updGroup (s : State) (k : Nat) (f : Group → Group) (r : PathRef) (hk : ∀ g, (f g).key = g.key)
    (hp : ∀ g, (f g).warps.map (·.paths) = g.warps.map (·.paths)) : (s.updGroup k f).path? r = s.path? r := by
  have hg : ∀ l : List Group, ((mapIf (fun g => g.key = k) f l).find? (fun g => decide (g.key = r.g))).bind
      (fun g => (g.warps[r.w]?).bind (fun w => w.paths[r.p]?)) =
      (l.find? (fun g => decide (g.key = r.g))).bind (fun g => (g.warps[r.w]?).bind (fun w => w.paths[r.p]?)) := by
    intro l
    induction l with
    | nil => rfl
    | cons g l ih =>
      simp only [mapIf, List.map_cons, List.find?_cons] at ih ⊢
      have e : (if decide (g.key = k) then f g else g).key = g.key := by split <;> simp [hk]
      rw [e]
      by_cases h : g.key = r.g
      · simp only [h, decide_true, Option.bind_some]
        have e2 : (if decide (g.key = k) then f g else g).warps.map (·.paths) = g.warps.map (·.paths) := by split <;> simp [hp]
        have := congrArg (fun l => (l[r.w]?).bind (fun ps => ps[r.p]?)) e2
        rw [h] at this
        simpa [Option.bind_map, Function.comp_def] using this
      · simp only [h, decide_false]
        exact ih
  have := hg s.groups
  simpa [State.path?, State.warp?, State.group?, State.updGroup, Option.bind_assoc] using this

/-- Changing a thread leaves every path where it is. -/
theorem path_updThread (s : State) (k w t : Nat) (f : Thread → Thread) (r : PathRef) : (s.updThread k w t f).path? r = s.path? r := by
  apply path_updGroup
  · intro g; rfl
  · intro g
    apply List.ext_getElem
    · simp [Group.updWarp]
    · intro i h1 h2
      simp only [Group.updWarp, List.getElem_map, List.getElem_modify]
      split <;> rfl

theorem path_foldl {α : Type} (r : PathRef) (l : List α) (f : State → α → State) (hf : ∀ s a, (f s a).path? r = s.path? r) (s : State) :
    (l.foldl f s).path? r = s.path? r := by
  induction l generalizing s with
  | nil => rfl
  | cons a l ih => exact (ih _).trans (hf s a)

theorem path_putScratch (s : State) (g : Group) (k o : Nat) (bs : List Byte) (bad : Bool) (r : PathRef) :
    (s.putScratch g k o bs bad).path? r = s.path? r := by
  apply path_foldl
  intro s a
  simp only [State.putScratchByte]
  split
  · rfl
  · exact path_updGroup _ _ _ _ (fun _ => rfl) (fun _ => rfl)

theorem path_readSrc (s : State) (x : Iss) (h : Hdr) (a : Src) (ts : List Nat) (r : PathRef) : (s.readSrc x h a ts).1.path? r = s.path? r := by
  unfold State.readSrc
  split
  · rename_i n _
    split
    · suffices H : ∀ (l : List Nat) (acc : State × List (List Reg)), (l.foldl (fun (s, acc) t =>
          match (s.warp? x.r.g x.r.w).bind (fun w => w.threads[t]?) with
          | none => (s, acc ++ [regsOf a.n 0 false])
          | some th => (s.updThread x.r.g x.r.w t (fun th => (th.pop n.val a.n).1), acc ++ [(th.pop n.val a.n).2])) acc).1.path? r =
            acc.1.path? r from H ts (s, [])
      intro l
      induction l with
      | nil => intro acc; rfl
      | cons t l ih =>
        intro acc
        rw [List.foldl_cons]
        refine (ih _).trans ?_
        dsimp only
        split
        · rfl
        · exact path_updThread _ _ _ _ _ _
    · split
      · rfl
      · exact path_putScratch _ _ _ _ _ _ _
  · rfl

/-- Reading operands leaves every path where it is. -/
theorem path_afterRead (s : State) (x : Iss) (h : Hdr) (sh : Shape) (r : PathRef) : (s.afterRead x h sh).path? r = s.path? r := by
  unfold State.afterRead State.readSrcs
  generalize sh.readers (x.doing h sh) = ts
  suffices H : ∀ (l : List Src) (acc : State × List (List (List Reg))), (l.foldl (fun (s, acc) a =>
      let (s, c) := s.readSrc x h a ts; (s, acc ++ [c])) acc).1.path? r = acc.1.path? r from H sh.srcs (s, [])
  intro l
  induction l with
  | nil => intro acc; rfl
  | cons a l ih =>
    intro acc
    obtain ⟨s, acc⟩ := acc
    rw [List.foldl_cons]
    exact (ih ((s.readSrc x h a ts).1, acc ++ [(s.readSrc x h a ts).2])).trans (path_readSrc s x h a ts r)

/-- The issuing path, as the state has it. -/
theorem path_of_iss {s : State} {x : Iss} (h : s.iss? = some x) : s.path? x.r = some x.p := by
  obtain ⟨_, h1, h2, h3, _⟩ := iss_spec h
  simp [State.path?, State.warp?, h1, h2, h3]

end Sys2Proof.Machine
end

