-- ==== Sys2Proof/Laws/Gen.lean ====
section
/-! SUPPORT. Laws/Gen.lean: signing and the issue of a generation, once for every cross-thread instruction. -/

namespace Sys2Proof.Machine

theorem calm_updConv (s : State) (r : GenRef) (f : Conv → Conv) : Calm s (s.updConv r f) := by
  apply calm_updGroup
  intro g
  unfold Group.updConv
  split
  · simp only [Group.traps, Group.updWarp, Prod.mk.injEq, true_and]
    apply List.ext_getElem
    · simp
    · intro i h1 h2
      simp only [List.getElem_map, List.getElem_modify]
      split <;> rfl
  · rfl

theorem calm_signNow (s : State) (x : Iss) (i : Instr) (h : Hdr) (cv : CvField) : Calm s (s.signNow x i h cv) := by
  unfold State.signNow
  exact ((calm_updConv _ _ _).trans (calm_updPath _ _ _)).trans (calm_settle _ _ _)

theorem calm_withSignature (s : State) (x : Iss) (i : Instr) (h : Hdr) (cv : CvField) : Calm s (s.withSignature x i h cv) :=
  (calm_signNow s x i h cv).trans (calm_occupy _ _ _)

theorem calm_genSrc (s : State) (e : Gen) (h : Hdr) (a : Src) (ms : List Signer) : Calm s (s.genSrc e h a ms).1 := by
  unfold State.genSrc
  suffices H : ∀ (ms : List Signer) (acc : State × List (List Reg)), Calm acc.1 (ms.foldl (fun (s, acc) m =>
      if isRing a.op && e.helper m then (s, acc ++ [regsOf a.n 0 false])
      else
        let (s, l) := s.readSrc (e.iss m.w) h a [m.pos]
        (s, acc ++ l)) acc).1 from H ms (s, [])
  intro ms
  induction ms with
  | nil => intro acc; exact Calm.refl _
  | cons m ms ih =>
    intro acc
    rw [List.foldl_cons]
    refine Calm.trans ?_ (ih _)
    dsimp only
    split
    · exact Calm.refl _
    · exact calm_readSrc _ _ _ _ _

theorem calm_genRead (s : State) (e : Gen) (h : Hdr) (l : List Src) (ms : List Signer) : Calm s (s.genRead e h l ms).1 := by
  unfold State.genRead
  suffices H : ∀ (l : List Src) (acc : State × List (List (List Reg))), Calm acc.1 (l.foldl (fun (s, acc) a =>
      let (s, c) := s.genSrc e h a ms; (s, acc ++ [c])) acc).1 from H l (s, [])
  intro l
  induction l with
  | nil => intro acc; exact Calm.refl _
  | cons a l ih =>
    intro acc
    obtain ⟨s, acc⟩ := acc
    rw [List.foldl_cons]
    exact (calm_genSrc s e h a ms).trans (ih ((s.genSrc e h a ms).1, acc ++ [(s.genSrc e h a ms).2]))

theorem calm_genAfter (s : State) (e : Gen) (o : GenOps) : Calm s (s.genAfter e o) := calm_genRead _ _ _ _ _

theorem calm_genWrite (s : State) (e : Gen) (d : Dst) (m : Signer) (rs : List Reg) : Calm s (s.genWrite e d m rs) := by
  unfold State.genWrite
  split
  · exact Calm.refl s
  · exact calm_writeDst _ _ _ _ _ _ _ _

theorem calm_genDone (s : State) (e : Gen) (b : Bool) : Calm s (s.genDone e b) := by
  unfold State.genDone
  dsimp only
  refine Calm.trans (calm_updConv s e.r (fun c => { c with
    gen := c.gen + 1, armed := false, pend := 0, instr := none, signers := [], svcWait := false, stalled := false, place := 0 })) ?_
  apply calm_foldl
  intro s w
  exact calm_updWarp _ _ _ _ (fun _ => rfl)

/-- A generation that nothing stops issues with its body, once its own gate lets it. -/
theorem runGen_clear {t : State} {r : GenRef} {e : Gen} {o : GenOps} (c : GenClear t r e o) (gate : Gen → Vals → State → Gate)
    (body : Gen → Vals → State → State) (hg : gate e (t.genVals e o) t = .go) : t.runGen r o gate body = t.genPerformed e o body := by
  obtain ⟨h1, h2, h3, h4, h5, h6⟩ := c
  have er : (if o.live = true then ((e.conv.signers.take o.upTo).filter e.takes).filter (fun m => !(e.helper m))
      else (e.conv.signers.take o.upTo).filter e.takes) = e.readers o := by
    unfold Gen.readers
    cases o.live
    · simp only [Bool.false_eq_true, if_false, Bool.false_and, Bool.not_false]
      exact (List.filter_eq_self.mpr (fun _ _ => rfl)).symm
    · simp
  have ew : (if o.mute = true then ((e.conv.signers.take o.upTo).filter e.takes).filter (fun m => !(e.helper m))
      else (e.conv.signers.take o.upTo).filter e.takes) = e.writers o := by
    unfold Gen.writers
    cases o.mute
    · simp only [Bool.false_eq_true, if_false, Bool.false_and, Bool.not_false]
      exact (List.filter_eq_self.mpr (fun _ _ => rfl)).symm
    · simp
  unfold State.genVals at h6 hg
  simp only [State.runGen, h1, er, ew, h2, h3, h4, h5, h6, hg, Bool.false_eq_true, if_false]
  rfl

/-- A generation that is not complete does not issue. -/
theorem runGen_waits {t : State} {r : GenRef} (h : t.gen? r = none) (o : GenOps) (gate : Gen → Vals → State → Gate)
    (body : Gen → Vals → State → State) : t.runGen r o gate body = t := by
  simp only [State.runGen, h]

/-- A signature that is accepted is given, and then `go` acts. -/
theorem signAt_clear {s : State} {x : Iss} {h : Hdr} {sh : Shape} {cv : CvField} {within : Bool} (c : SignClear s x h sh cv within)
    (i : Instr) (check : Iss → State → Option (Nat × Nat × Nat)) (go : GenRef → State → State) (hc : check x s = none)
    (st : Still s (go ⟨x.r.g, cv, x.r.w⟩ (s.withSignature x i h cv))) :
    signAt i h cv sh within check go s = .next (go ⟨x.r.g, cv, x.r.w⟩ (s.withSignature x i h cv)) := by
  obtain ⟨h1, h2, h3, h4⟩ := c
  rw [signAt, withIssue_of h1]
  simp only [h2, h3, h4, hc, Bool.false_eq_true, if_false]
  exact orderly_next (.inr (trapped_still h1 st))

/-- A cross-thread instruction whose meaning signs and runs its generation completes. -/
theorem signAt_issues {s : State} {x : Iss} {h : Hdr} {o : GenOps} {cv : CvField} {within : Bool} {e : Gen}
    (c : SignClear s x h o.shape cv within) (i : Instr) (check : Iss → State → Option (Nat × Nat × Nat)) (hc : check x s = none)
    (gate : Gen → Vals → State → Gate) (body : Gen → Vals → State → State)
    (k : GenClear (s.withSignature x i h cv) ⟨x.r.g, cv, x.r.w⟩ e o)
    (hg : gate e ((s.withSignature x i h cv).genVals e o) (s.withSignature x i h cv) = .go)
    (hb : Still ((s.withSignature x i h cv).genAfter e o)
      (body e ((s.withSignature x i h cv).genVals e o) ((s.withSignature x i h cv).genAfter e o))) :
    signAt i h cv o.shape within check (fun r t => t.runGen r o gate body) s = .next ((s.withSignature x i h cv).genPerformed e o body) := by
  have er := runGen_clear k gate body hg
  have st : Still s ((s.withSignature x i h cv).runGen ⟨x.r.g, cv, x.r.w⟩ o gate body) := by
    rw [er]
    exact ((calm_withSignature s x i h cv).still.trans (calm_genAfter _ e o).still).trans (hb.trans (calm_genDone _ e o.lanes).still)
  rw [signAt_clear c i check (fun r t => t.runGen r o gate body) hc st]
  simp only [er]

/-- The same of an instruction with no gate of its own and no check. -/
theorem signAt_plain {s : State} {x : Iss} {h : Hdr} {o : GenOps} {cv : CvField} {within : Bool} {e : Gen}
    (c : SignClear s x h o.shape cv within) (i : Instr) (body : Gen → Vals → State → State)
    (k : GenClear (s.withSignature x i h cv) ⟨x.r.g, cv, x.r.w⟩ e o) (hb : ∀ e v t, Calm t (body e v t)) :
    signAt i h cv o.shape within noCheck (fun r t => t.runGen r o noGate body) s = .next ((s.withSignature x i h cv).genPerformed e o body) :=
  signAt_issues c i noCheck rfl noGate body k rfl (hb _ _ _).still

theorem calm_genWrites (e : Gen) (d : Dst) (l : List Signer) (f : Signer → List Reg) (t : State) :
    Calm t (l.foldl (fun t m => t.genWrite e d m (f m)) t) := by
  apply calm_foldl
  intro s m
  exact calm_genWrite _ _ _ _ _

/-- A reduction that nothing stops gives every taker its result. -/
theorem reduceGen_clear {t : State} {r : GenRef} {e : Gen} {o : GenOps} (c : GenClear t r e o) {d : Dst} (hd : o.dst = some d)
    (f : List (Nat × Nat) → Nat → Nat) : t.reduceGen r o f = t.genPerformed e o fun e vals t =>
      e.takers.foldl (fun t m => t.genWrite e d m (regsOf d.n (f (contributions vals) m.pos) (vals.any fun m => m.2.any regsBad))) t := by
  rw [State.reduceGen, runGen_clear c noGate _ rfl]
  simp only [State.genPerformed, hd]

/-- A reduction completes. -/
theorem reduce_issues {s : State} {x : Iss} {h : Hdr} {o : GenOps} {cv : CvField} {within : Bool} {e : Gen}
    (c : SignClear s x h o.shape cv within) (i : Instr) (k : GenClear (s.withSignature x i h cv) ⟨x.r.g, cv, x.r.w⟩ e o) {d : Dst}
    (hd : o.dst = some d) (f : List (Nat × Nat) → Nat → Nat) (go : GenRef → State → State)
    (hg : go ⟨x.r.g, cv, x.r.w⟩ (s.withSignature x i h cv) = (s.withSignature x i h cv).reduceGen ⟨x.r.g, cv, x.r.w⟩ o f) :
    signAt i h cv o.shape within noCheck go s = .next ((s.withSignature x i h cv).genPerformed e o fun e vals t =>
      e.takers.foldl (fun t m => t.genWrite e d m (regsOf d.n (f (contributions vals) m.pos) (vals.any fun m => m.2.any regsBad))) t) := by
  rw [reduceGen_clear k hd] at hg
  rw [signAt_clear c i noCheck go rfl, hg]
  rw [hg]
  exact ((calm_withSignature s x i h cv).still.trans (calm_genAfter _ e o).still).trans
    ((calm_genWrites _ _ _ _ _).trans (calm_genDone _ e o.lanes)).still

/-- A cross-thread instruction whose set is not complete only signs. -/
theorem signAt_waits {s : State} {x : Iss} {h : Hdr} {sh : Shape} {cv : CvField} {within : Bool} (c : SignClear s x h sh cv within)
    (i : Instr) (check : Iss → State → Option (Nat × Nat × Nat)) (go : GenRef → State → State) (hc : check x s = none)
    (hg : go ⟨x.r.g, cv, x.r.w⟩ (s.withSignature x i h cv) = s.withSignature x i h cv) :
    signAt i h cv sh within check go s = .next (s.withSignature x i h cv) := by
  rw [signAt_clear c i check go hc (by rw [hg]; exact (calm_withSignature s x i h cv).still), hg]

end Sys2Proof.Machine
end

