-- ==== Sys2Proof/Laws/Still.lean ====
section
/-! SUPPORT. Laws/Still.lean: what reports, engines and ends of threads leave: no thread enters or leaves a handler, and no gang and no
context stops. -/

namespace Sys2Proof.Machine

theorem mapIf_map {α β : Type} (p : α → Bool) (f : α → α) (g : α → β) (h : ∀ a, g (f a) = g a) (l : List α) :
    (mapIf p f l).map g = l.map g := by
  simp only [mapIf, List.map_map]
  apply List.map_congr_left
  intro a _
  simp only [Function.comp_apply]
  split <;> simp [h]

theorem still_updCtx (s : State) (n : Nat) (f : Ctx → Ctx) (h : ∀ c, (f c).stands = c.stands) : Still s (s.updCtx n f) :=
  ⟨mapIf_map _ _ _ h _, rfl⟩

theorem still_memory (s : State) (m : Memory) : Still s { s with mem := m } := ⟨rfl, rfl⟩

theorem still_writePieces (ps : List (Nat × Nat)) : ∀ (s : State) (bs : List Byte) (bad : Bool), Still s (s.writePieces ps bs bad) := by
  induction ps with
  | nil => intro s _ _; exact Still.refl s
  | cons p ps ih =>
    intro s bs bad
    exact (still_memory s ((s.mem.write p.1 (bs.take p.2) bad).through p.1 p.2)).trans (ih _ _ _)

theorem still_holdRange (s : State) (c : Ctx) (va n : Nat) (via : Option TlbPlace) : Still s (s.holdRange c va n via) := by
  unfold State.holdRange
  apply still_foldl; intro s a
  split
  · exact Still.refl s
  · exact still_memory _ _

theorem still_spark (s : State) (a b : Nat) : Still s (s.spark a b).1 := by
  unfold State.spark
  dsimp only
  split <;> exact ⟨rfl, rfl⟩

theorem still_watchAny (s : State) (r w : Bool) (ps : List (Nat × Nat)) (cls agent : Nat) : Still s (s.watchAny r w ps cls agent).1 := by
  have one : ∀ (l : List (Watch × Nat)) (c : Ctx) (s : State) (hit : Option Nat), Still s (l.foldl (fun (s, hit) (w', i) =>
      match ps.find? (fun p => w'.watches r w p.1 p.2) with
      | some p =>
        let s := s.updCtx c.num (fun c => { c with watch := c.watch.modify i (fun w => w.take p.1 cls agent) })
        let s := if w'.hit then s else (s.spark 1 0).1
        (s, match hit with | some j => some (min i j) | none => some i)
      | none => (s, hit)) (s, hit)).1 := by
    intro l c
    induction l with
    | nil => intro s _; exact Still.refl s
    | cons a l ih =>
      intro s hit
      rw [List.foldl_cons]
      obtain ⟨a, i⟩ := a
      dsimp -failIfUnchanged only
      cases ps.find? (fun p => a.watches r w p.1 p.2) with
      | none => exact ih _ _
      | some p =>
        refine Still.trans ?_ (ih _ _)
        clear ih
        have h := still_updCtx s c.num (fun c => { c with watch := c.watch.modify i (fun w => w.take p.1 cls agent) }) (fun _ => rfl)
        split
        · exact h
        · exact h.trans (still_spark _ _ _)
  unfold State.watchAny
  generalize s.ctxs = l
  suffices H : ∀ (l : List Ctx) (a : State × Option Nat), Still a.1 (l.foldl (fun (s, hit) c =>
    c.watch.zipIdx.foldl (fun (s, hit) (w', i) =>
      match ps.find? (fun p => w'.watches r w p.1 p.2) with
      | some p =>
        let s := s.updCtx c.num (fun c => { c with watch := c.watch.modify i (fun w => w.take p.1 cls agent) })
        let s := if w'.hit then s else (s.spark 1 0).1
        (s, match hit with | some j => some (min i j) | none => some i)
      | none => (s, hit)) (s, hit)) a).1 from H l (s, none)
  intro l
  induction l with
  | nil => intro a; exact Still.refl _
  | cons c l ih => intro a; rw [List.foldl_cons]; exact (one _ c a.1 a.2).trans (ih _)

theorem still_watch (s : State) (r w : Bool) (pa n cls agent : Nat) : Still s (s.watch r w pa n cls agent).1 := still_watchAny _ _ _ _ _ _

theorem still_ctrPut (s : State) (c : CtrLoc) (o : Nat) (bs : List Byte) (bad : Bool) : Still s (s.ctrPut c o bs bad) := by
  unfold State.ctrPut
  split
  · exact ⟨rfl, rfl⟩
  · exact (calm_updGroup s _ _ (fun _ => by rfl)).still

theorem still_ctrAdd (s : State) (l : CtrLoc) (v : Nat) : Still s (s.ctrAdd l v).1 := by
  unfold State.ctrAdd
  dsimp only
  split <;> exact still_ctrPut _ _ _ _ _

theorem still_count (s : State) (cls block place n : Nat) : Still s (s.count cls block place n) := ⟨rfl, rfl⟩

theorem still_served (s : State) (x cls : Nat) (turned : Bool) : Still s (s.served x cls turned) := by
  unfold State.served
  dsimp only
  split <;> exact ⟨rfl, rfl⟩

theorem still_deviceAdd (s : State) (ctx va v acls agent : Nat) (via : Option TlbPlace) :
    Still s (s.deviceAdd ctx va v acls agent via).1 := by
  unfold State.deviceAdd
  cases s.ctx? ctx with
  | none => exact Still.refl s
  | some c =>
    dsimp only
    cases s.engineCtr c va via with
    | error _ => exact Still.refl s
    | ok l =>
      dsimp only
      split
      · exact ⟨rfl, rfl⟩
      · have h := (still_holdRange s c va 16 via).trans (still_ctrAdd (s.holdRange c va 16 via) l v)
        generalize (s.holdRange c va 16 via).ctrAdd l v = u at h ⊢
        obtain ⟨t, k⟩ := u
        dsimp only at h ⊢
        split
        · refine h.trans ?_
          exact (still_served t _ _ _).trans (still_watch _ _ _ _ _ _ _)
        · exact h

theorem still_deviceStore (s : State) (c : Ctx) (va : Nat) (bs : List Byte) (k : Option W64) (raise : Bool) :
    Still s (s.deviceStore c va bs k raise).1 := by
  have h : ∀ o : Option (List (Nat × Nat)), Still s (match o with | none => s | some ps => s.writePieces ps bs false) := by
    intro o; cases o with
    | none => exact Still.refl s
    | some ps => exact still_writePieces _ _ _ _
  have u : ∀ t : State, Still t (if raise then t.updCtx c.num (fun c => { c with pnqHead := c.pnqHead + 1 }) else t) := by
    intro t
    cases raise
    · exact Still.refl t
    · exact still_updCtx _ _ _ (fun _ => rfl)
  have hu := (h (s.range? c plainW none (piecesOf va bs.length))).trans (u _)
  unfold State.deviceStore
  cases hr : s.range? c plainW none (piecesOf va bs.length) <;> cases k <;> simp only [hr] at hu ⊢
  · exact hu
  · exact hu.trans (still_deviceAdd _ _ _ _ _ _ _)
  · exact hu
  · exact hu.trans (still_deviceAdd _ _ _ _ _ _ _)

theorem still_deviceWrite (s : State) (c : Ctx) (va : Nat) (bs : List Byte) (k : Option W64) (raise : Bool) :
    Still s (s.deviceWrite c va bs k raise).1 := by
  unfold State.deviceWrite
  dsimp only
  split
  · exact ⟨rfl, rfl⟩
  · exact still_deviceStore _ _ _ _ _ _

theorem still_putRecord (s : State) (e : ErrRec) : Still s (s.putRecord e).1 := by
  unfold State.putRecord
  dsimp only
  split
  · exact Still.trans (still_spark s 2 0) ⟨rfl, rfl⟩
  · split
    · exact Still.trans (still_spark s 2 0) ⟨rfl, rfl⟩
    · rename_i c _ _ ticket ps _
      have h := ((still_spark s 2 0).trans (still_updCtx (s.spark 2 0).1 c.num (fun c => { c with svcqHead := c.svcqHead + 1 }) (fun _ => rfl)))
      dsimp only
      split
      · have w := fun bs k => h.trans (still_deviceWrite _ c (c.slotVa ticket) bs k false)
        exact ⟨(w _ _).ctxs, (w _ _).traps⟩
      · exact h.trans (still_deviceWrite _ _ _ _ _ _)

theorem still_emit (s : State) (e : ErrRec) : Still s (s.emit e).1 := by
  unfold State.emit
  dsimp only
  split
  · exact (still_putRecord _ _).trans (still_putRecord _ _)
  · exact still_putRecord _ _

theorem still_patch (s : State) (ctx ticket : Nat) (f : Nat → Nat) : Still s (s.patch ctx ticket f) := by
  unfold State.patch
  split
  · exact Still.refl s
  · split
    · exact Still.refl s
    · dsimp only
      split
      · exact still_writePieces _ _ _ _
      · exact Still.refl s

theorem still_folds {s t : State} {ctx : Nat} (h : s.folds ctx = some t) : Still s t := by
  unfold State.folds at h
  split at h
  · injection h with h; subst h; exact ⟨rfl, rfl⟩
  · split at h
    · split at h
      · have u := still_updCtx s ctx (fun c => { c with ovf := min 0xFFFF (c.ovf + 1) }) (fun _ => rfl)
        dsimp only at h
        split at h <;> injection h with h <;> subst h
        · exact u.trans (still_patch _ _ _ _)
        · exact u
      · contradiction
    · contradiction

/-- A REPORT stops nothing. -/
theorem still_report (s : State) (e : ErrRec) : Still s (s.report e) := by
  unfold State.report
  split
  · exact still_folds ‹_›
  · exact still_emit _ _

theorem still_advance (s : State) (ctx va v acls agent : Nat) (via : Option TlbPlace) : Still s (s.advance ctx va v acls agent via) := by
  unfold State.advance
  dsimp only
  split
  · exact still_deviceAdd _ _ _ _ _ _ _
  · exact (still_deviceAdd _ _ _ _ _ _ _).trans (still_report _ _)

theorem still_noteHeader (s : State) (ctx pa n : Nat) : Still s (s.noteHeader ctx pa n) := by
  unfold State.noteHeader
  apply still_foldl; intro s x
  split
  · exact Still.trans (still_memory s { s.mem with saidHdr := setIns s.mem.saidHdr x }) (still_report _ _)
  · exact Still.refl s

theorem still_notify (s : State) (c : Ctx) (va core n : Nat) : Still s (s.notify c va core n) := by
  unfold State.notify
  dsimp only
  split
  · exact still_report _ _
  · split
    · exact still_deviceWrite _ _ _ _ _ _
    · exact (still_deviceWrite _ _ _ _ _ _).trans (still_report _ _)

theorem still_countFill (s : State) (ctx va core : Nat) : Still s (s.countFill ctx va core) := by
  unfold State.countFill
  split
  · exact Still.refl s
  · dsimp only
    split
    · exact Still.refl s
    · split
      · exact Still.refl s
      · split
        · exact (still_deviceWrite _ _ _ _ _ _).trans (still_notify _ _ _ _ _)
        · exact still_deviceWrite _ _ _ _ _ _

theorem still_fillLine (s : State) (e : TlbEntry) (line core : Nat) : Still s (s.fillLine e line core) := by
  unfold State.fillLine
  dsimp only
  split
  · exact still_memory _ _
  · exact Still.refl s

theorem still_walkRead (s : State) (c : Ctx) (va : Nat) : Still s (s.walkRead c va) := by
  unfold State.walkRead
  apply still_foldl
  intro s pa
  exact Still.trans (still_memory s _) (still_served _ _ _ _)

theorem still_walked (s : State) (via : Option TlbPlace) (e : TlbEntry) : Still s (s.walked via e) := by
  unfold State.walked
  split
  · exact still_walkRead _ _ _
  · exact Still.refl s

theorem still_agentRead (s : State) (req cls agent : Nat) (p : Piece) : Still s (s.agentRead req cls agent p).1 := by
  unfold State.agentRead
  dsimp only
  refine Still.trans ?_ (still_noteHeader _ _ _ _)
  refine Still.trans ?_ (still_watch _ _ _ _ _ _ _)
  refine Still.trans (still_walked s p.via p.e) ?_
  refine Still.trans (still_memory _ ((s.walked p.via p.e).mem.hold p.via p.e)) ?_
  apply still_foldl; intro s l
  refine Still.trans (still_fillLine s p.e l (coreOf cls agent)) ?_
  refine Still.trans ?_ (still_served _ _ _ _)
  exact ⟨rfl, rfl⟩

/-- WHAT AN ENGINE READS stops nothing. -/
theorem still_engineRead {s t : State} {c : Ctx} {va n req cls agent : Nat} {via : Option TlbPlace} {bs : List (Byte × Bool)}
    (h : s.engineRead c va n req cls agent via = some (t, bs)) : Still s t := by
  unfold State.engineRead at h
  split at h
  · contradiction
  · rename_i ps _
    have all : ∀ (ps : List Piece) (s : State) (acc : List (Byte × Bool)),
        Still s (ps.foldl (fun (s, acc) p => let (s, b) := s.agentRead req cls agent p; (s, acc ++ b)) (s, acc)).1 := by
      intro ps
      induction ps with
      | nil => intro s _; exact Still.refl s
      | cons p ps ih => intro s acc; rw [List.foldl_cons]; exact (still_agentRead _ _ _ _ _).trans (ih _ _)
    injection h with h
    have := all ps s []
    rw [h] at this
    exact this

/-! ### Ends of threads -/

theorem still_slotLeave (s : State) (c n : Nat) : Still s (s.slotLeave c n) := by
  unfold State.slotLeave
  split
  · exact Still.refl s
  · dsimp only
    have h := still_updCtx s c (fun c => { c with slots := c.slots.filter (fun t => !(t.slot = n && t.left = 0)) }) (fun _ => rfl)
    split
    · exact h
    · split
      · exact h.trans (still_deviceWrite _ _ _ _ _ _)
      · exact h

theorem still_slotsForget (s : State) (c k w : Nat) (m : W64) : Still s (s.slotsForget c k w m) := by
  unfold State.slotsForget
  split
  · exact Still.refl s
  · dsimp only
    refine Still.trans (still_updCtx s c (fun c => { c with
      slots := mapIf (fun t => t.g = k && t.w = w) (fun t => { t with left := t.left &&& ~~~m }) c.slots }) (fun _ => rfl)) ?_
    apply still_foldl; intro s a
    split
    · exact still_slotLeave _ _ _
    · exact Still.refl s

theorem exit_trapped (ts : List Nat) (w : Warp) : (w.exit ts).threads.map (·.trapped) = w.threads.map (·.trapped) := by
  unfold Warp.exit
  dsimp only
  rw [List.map_map]
  have each : ∀ (w : Warp), (ts.foldl (fun w t => w.updThread t (fun th => { th with
    life := match th.life with | .live => .helper | .helper => .parked | l => l
    exitE := false
    exitA := false })) w).threads.map (·.trapped) = w.threads.map (·.trapped) := by
    induction ts with
    | nil => intro w; rfl
    | cons t ts ih =>
      intro w
      rw [List.foldl_cons, ih]
      apply List.ext_getElem
      · simp [Warp.updThread]
      · intro i h1 h2
        simp only [Warp.updThread, List.getElem_map, List.getElem_modify]
        split <;> rfl
  rw [← each w]
  generalize (ts.foldl _ w) = y
  apply List.ext_getElem
  · simp
  · intro i h1 h2
    simp [Function.comp]
    split <;> rfl

theorem leaveSets_traps (g : Group) (w : Nat) (ts : List Nat) : (g.leaveSets w ts).traps = g.traps := by
  unfold Group.leaveSets
  simp only [Group.traps, Group.updWarp, Prod.mk.injEq, true_and]
  apply List.ext_getElem
  · simp
  · intro i h1 h2
    simp only [List.getElem_map, List.getElem_modify]
    split <;> rfl

theorem still_exitNow (s : State) (k w : Nat) (ts : List Nat) : Still s (s.exitNow k w ts) := by
  unfold State.exitNow
  split
  · dsimp only
    refine Still.trans (Calm.still (calm_updWarp _ _ _ _ ?_)) (Still.trans (Calm.still (calm_updGroup _ _ _ ?_)) (still_slotsForget _ _ _ _ _))
    · intro x; exact exit_trapped ts x
    · intro g; exact leaveSets_traps _ _ _
  · exact Still.refl s

/-- THREADS THAT EXIT trap nothing. -/
theorem still_exitThreads (s : State) (r : PathRef) (a : Bool) (next : W64) (ts : List Nat) : Still s (s.exitThreads r a next ts) := by
  unfold State.exitThreads
  split
  · exact Still.refl s
  · split
    · generalize hf : (fun (s : State) t =>
        s.updThread r.g r.w t (fun th => if a then { th with exitA := true } else { th with exitE := true })) = f
      have hc : ∀ s t, Calm s (f s t) := by
        intro s t
        rw [← hf]
        exact calm_updThread _ _ _ _ _ (fun th => by split <;> rfl)
      dsimp only
      refine Still.trans (calm_foldl ts f hc s).still ?_
      split
      · exact Still.refl _
      · refine Still.trans (Calm.still ?_) (still_exitNow _ _ _ _)
        unfold State.parkAt
        split
        · exact Calm.refl _
        · exact calm_updWarp _ _ _ _ (fun _ => rfl)
    · exact still_exitNow _ _ _ _

end Sys2Proof.Machine
end

