-- ==== Sys2Proof/Laws/Access.lean ====
section
/-! SUPPORT. Laws/Access.lean: what the issue of accesses of global memory and of scratchpad can do when every access is allowed. -/

namespace Sys2Proof.Machine

theorem mem_of_calm {s t : State} (h : Calm s t) : t.mem = s.mem := by rw [h.eq]

/-- The state once operands have been read differs in groups only. -/
theorem mem_afterRead (s : State) (x : Iss) (h : Hdr) (sh : Shape) : (s.afterRead x h sh).mem = s.mem := mem_of_calm (calm_readSrcs _ _ _ _ _)

theorem checkGlobal_reaches {s t : State} {x : Iss} {d : Doing} {va : Nat} {e : TlbEntry} (m : t.mem = s.mem) (r : Reaches s x d va e) :
    t.checkGlobal x.g d va = .ok e := by
  obtain ⟨a, b, c, f, -⟩ := r
  have : ¬ 2 ^ 55 ≤ va := by omega
  simp only [State.checkGlobal, m, c, f, b]
  rw [if_neg this, if_neg (by simp)]

theorem still_hostWrite (s : State) (ctx pa n : Nat) : Still s (s.hostWrite ctx pa n) := by
  unfold State.hostWrite
  split <;> exact ⟨rfl, rfl⟩

theorem still_putAt (s : State) (g : Group) (pa : Nat) (put : Option (Nat × List Byte × Bool)) : Still s (s.putAt g pa put) := by
  unfold State.putAt
  split
  · exact Still.refl s
  · exact Still.trans (still_memory s _) (still_hostWrite _ _ _ _)

theorem still_lineOf (s : State) (g : Group) (o : MemOp) (pa j : Nat) (wrote : Bool) : Still s (s.lineOf g o pa j wrote) := by
  unfold State.lineOf
  dsimp only
  split <;> exact ⟨rfl, rfl⟩

theorem still_noteAccess (s : State) (g : Group) (o : MemOp) (pa : Nat) (wraps : Bool) : Still s (s.noteAccess g o pa wraps).1 := by
  have h : Still s (if o.kind.reads then s.noteHeader g.ctx pa o.unit else s) := by
    split
    · exact still_noteHeader _ _ _ _
    · exact Still.refl s
  unfold State.noteAccess
  cases wraps
  · exact h.trans (still_watch _ _ _ _ _ _ _)
  · exact h

/-- Serving one piece of an access stops nothing. -/
theorem still_servePiece (s : State) (o : MemOp) (p : Part) (j : Nat) (hit : Bool) : Still s (s.servePiece o p j hit).1 := by
  unfold State.servePiece
  cases s.group? o.g with
  | none => exact Still.refl s
  | some g =>
    refine Still.trans ?_ (still_memory _ _)
    refine Still.trans ?_ (still_noteAccess _ _ _ _ _)
    have cleared : ∀ (t : State) (b : Bool) (n : Nat), Still t (if b then { t with mem := t.mem.clearWord n } else t) := by
      intro t b n
      cases b
      · exact Still.refl t
      · exact still_memory t _
    cases hit
    · exact ((still_putAt s g _ _).trans (cleared _ _ _)).trans (still_lineOf _ _ _ _ _ _)
    · exact (still_putAt s g _ _).trans (cleared _ _ _)

theorem still_serveHit (s : State) (o : MemOp) (p : Part) : Still s (s.serveHit o p).1 := by
  have all : ∀ (l : List Nat) (a : State × Part), Still a.1 (l.foldl (fun (s, p) j => s.servePiece o p j true) a).1 := by
    intro l
    induction l with
    | nil => intro a; exact Still.refl _
    | cons j l ih => intro a; rw [List.foldl_cons]; exact (still_servePiece _ _ _ _ _).trans (ih _)
  exact all _ (s, p)

theorem still_launchOp (s : State) (core : Nat) (o : MemOp) (serve : State → MemOp → Part → State × Part)
    (hs : ∀ s o p, Still s (serve s o p).1) : Still s (s.launchOp core o serve) := by
  have parts : ∀ (l : List Part) (a : State × List Part), Still a.1 (l.foldl (fun (s, acc) p =>
      if s.hitsL0 core o p then let (s, p) := serve s o p; (s, acc ++ [p]) else (s, acc ++ [p])) a).1 := by
    intro l
    induction l with
    | nil => intro a; exact Still.refl _
    | cons p l ih =>
      intro a
      rw [List.foldl_cons]
      refine Still.trans ?_ (ih _)
      dsimp only
      split
      · exact hs _ _ _
      · exact Still.refl _
  have h := parts o.parts (s, [])
  unfold State.launchOp
  generalize o.parts.foldl (fun (s, acc) p =>
      if s.hitsL0 core o p then let (s, p) := serve s o p; (s, acc ++ [p]) else (s, acc ++ [p])) (s, []) = u at h ⊢
  obtain ⟨t, ps⟩ := u
  dsimp only at h ⊢
  refine h.trans (Still.trans (still_memory t { t.mem with ops := t.mem.ops ++ [{ o with parts := ps }] }) ?_)
  apply still_foldl; intro s a
  apply still_foldl; intro s b
  exact ⟨rfl, rfl⟩

theorem still_underway (t s : State) (x : Iss) (h : Hdr) (k : Taken) (size : Nat) (f : OpForm) (ws : List Want) (tr : Nat → TlbEntry) :
    Still t (t.underway s x h k size f ws tr) := by
  unfold State.underway
  split
  · exact Still.refl _
  · exact Still.trans (t := { t with stamp := t.stamp + 1 }) ⟨rfl, rfl⟩ (still_launchOp _ _ _ _ still_serveHit)

/-- Accesses of which each goes: each has its translation, none traps, none meets WB and none needs a walk. -/
theorem sift_reaches {s t : State} {x : Iss} (k : Taken) (d : Doing) (ws : List Want) (tr : Nat → TlbEntry) (m : t.mem = s.mem)
    (r : ∀ w ∈ ws, Reaches s x d w.va (tr w.va)) :
    t.sift x k d ws = { walk := false, errs := [], wb := [], run := ws.map fun w => (w, tr w.va) } := by
  have c : ws.map (fun w => (w, t.checkGlobal x.g d w.va)) = ws.map fun w => (w, Checked.ok (tr w.va)) :=
    List.map_congr_left fun w h => by rw [checkGlobal_reaches m (r w h)]
  have g : ∀ w ∈ ws, ((d.write || d.advance) && attrWb (tr w.va).attr) = false := by
    intro w hw
    cases hd : (d.write || d.advance)
    · rfl
    · simp [(r w hw).2.2.2.2 hd]
  unfold State.sift
  dsimp only
  rw [c]
  have o : ws.filterMap (fun w => some (w, tr w.va)) = ws.map fun w => (w, tr w.va) := by
    induction ws <;> simp_all
  have z : ws.flatMap (fun _ => ([] : List ThreadErr)) = [] := by
    induction ws <;> simp_all
  have w1 : (ws.map fun w => (w, tr w.va)).filter (fun c : Want × TlbEntry => (d.write || d.advance) && attrWb c.2.attr) = [] := by
    rw [List.filter_eq_nil_iff]
    intro y hy
    obtain ⟨w, h, rfl⟩ := List.mem_map.1 hy
    simp [g w h]
  have w2 : (ws.map fun w => (w, tr w.va)).filter (fun c : Want × TlbEntry => !((d.write || d.advance) && attrWb c.2.attr)) =
      ws.map fun w => (w, tr w.va) := by
    rw [List.filter_eq_self]
    intro y hy
    obtain ⟨w, h, rfl⟩ := List.mem_map.1 hy
    simp [g w h]
  simp only [List.filterMap_map, List.flatMap_map, Function.comp_def, o, z, w1, w2]
  simp

/-- WHAT EVERY ISSUE OF GLOBAL ACCESSES DOES when each of them goes. -/
theorem goEach_reaches {s t : State} {x : Iss} (sh : Shape) (k : Taken) (d : Doing) (ws : List Want)
    (make : State → List (Want × TlbEntry) → State) (tr : Nat → TlbEntry) (m : t.mem = s.mem) (r : ∀ w ∈ ws, Reaches s x d w.va (tr w.va)) :
    t.goEach s x sh k d ws make = (if ws = [] then t else make t (ws.map fun w => (w, tr w.va)), .next []) := by
  unfold State.goEach
  rw [sift_reaches k d ws tr m r]
  simp [trapAll_nil]

/-- THE ISSUE OF GLOBAL ACCESSES of which each goes: they are under way, and nothing else happens. -/
theorem goGlobal_reaches {s t : State} {x : Iss} (h : Hdr) (sh : Shape) (k : Taken) (d : Doing) (ws : List Want) (f : OpForm)
    (tr : Nat → TlbEntry) (m : t.mem = s.mem) (r : ∀ w ∈ ws, Reaches s x d w.va (tr w.va)) :
    t.goGlobal s x h sh k d ws f = (t.underway s x h k d.size f ws tr, .next []) := by
  unfold State.goGlobal
  rw [goEach_reaches sh k d ws _ tr m r]
  unfold State.underway
  simp [State.fresh, List.map_map, List.flatMap_map, Function.comp_def]

/-- AN INSTRUCTION THAT ACCESSES GLOBAL MEMORY by `goGlobal` completes its issue. -/
theorem accesses_of {i j : Instr} {h : Hdr} {sh : Shape} {per kind : Nat} {order : Order} {d : Doing} {ws : Taken → List Want} {f : OpForm}
    (m : ∀ s, exec i s = issueMem j h sh per kind order false s fun x k t => t.goGlobal s x h sh k d (ws k) f) :
    Accesses i h sh per kind order d ws f := by
  intro s x tr c w r
  rw [m, issueMem, withIssue_of c.issues, w, if_neg (by simp)]
  have e := goGlobal_reaches h sh (s.sees x h sh) d (ws (s.sees x h sh)) f tr (mem_afterRead s x h sh) r
  exact issue_body c _ _ _ (fun x k t => (t.underway s x h k d.size f (ws k) tr, .next [])) e (still_underway _ _ _ _ _ _ _ _ _)

/-! ### What reaches sectors (R79, R80, R143, R144) -/

/-- What arrives happens. -/
theorem reaching_arrives {s t : State} {key : Nat × Nat} {cls : Nat} (a : s.arrives key cls t) : s.reaching key cls t = .ok (t.arrive key) := by
  unfold State.reaching
  rw [if_pos (by simp [a.2.1, a.2.2])]

theorem attempt_arrives {s t : State} {key : Nat × Nat} {cls : Nat} {run : State → Result} (h : run s = .next t) (a : s.arrives key cls t) :
    s.attempt key cls run = .next (t.arrive key) := by
  unfold State.attempt
  rw [h]
  simp only [a.1, Bool.false_eq_true, if_false, reaching_arrives a]

theorem reached_arrives {s : State} {key : Nat × Nat} {cls : Nat} {r : State × Flow} (a : s.arrives key cls r.1) :
    s.reached key cls r = (r.1.arrive key, r.2) := by
  unfold State.reached
  simp only [a.1, Bool.false_eq_true, if_false, reaching_arrives a]

/-- What is put off does not happen. -/
theorem attempt_held {s t : State} {key : Nat × Nat} {cls : Nat} {run : State → Result} (h : run s = .next t) (a : t.held = true) :
    s.attempt key cls run = notNow s := by
  unfold State.attempt
  rw [h]
  simp only [a, if_true]

theorem still_arrive (s : State) (key : Nat × Nat) : Still s (s.arrive key) := ⟨rfl, rfl⟩

end Sys2Proof.Machine
end

