-- ==== Sys2Proof/Laws/Encoding.lean ====
section
/-! SUPPORT. Laws/Encoding.lean: the fields of a word read back as they were written (R190 to R204, R373). -/

set_option Elab.async false

namespace Sys2Proof.Laws.Encoding

/-! ### Codes -/

theorem special_code (x : SpecialValue) :
    0x491 ≤ x.code ∧ x.code < 0x4A0 ∧ SpecialValue.ofCode x.code = x := by cases x <;> decide

@[simp] theorem operand_ofCode (o : Operand) : Operand.ofCode o.code = o := by
  cases o with
  | v n => simp [Operand.code, Operand.ofCode, n.isLt]
  | w n =>
    have := n.isLt
    simp [Operand.code, Operand.ofCode, show ¬ (1024 + n.val < 1024) by omega, show 1024 + n.val < 1152 by omega]
  | q n =>
    have := n.isLt
    simp [Operand.code, Operand.ofCode, show ¬ (1152 + n.val < 1024) by omega,
      show ¬ (1152 + n.val < 1152) by omega, show 1152 + n.val < 1168 by omega]
  | vz => decide
  | sv x =>
    have := special_code x
    simp [Operand.code, Operand.ofCode, show ¬ (x.code < 1024) by omega, show ¬ (x.code < 1152) by omega,
      show ¬ (x.code < 1168) by omega, show ¬ (x.code = 1168) by omega, show x.code < 1184 by omega, this]
  | p n =>
    have := n.isLt
    simp [Operand.code, Operand.ofCode, show ¬ (1184 + n.val < 1024) by omega, show ¬ (1184 + n.val < 1152) by omega,
      show ¬ (1184 + n.val < 1168) by omega, show ¬ (1184 + n.val = 1168) by omega,
      show ¬ (1184 + n.val < 1184) by omega, show 1184 + n.val < 1191 by omega]
  | imm n =>
    have := n.isLt
    simp [Operand.code, Operand.ofCode, show ¬ (1536 + n.val < 1024) by omega, show ¬ (1536 + n.val < 1152) by omega,
      show ¬ (1536 + n.val < 1168) by omega, show ¬ (1536 + n.val = 1168) by omega,
      show ¬ (1536 + n.val < 1184) by omega, show ¬ (1536 + n.val < 1191) by omega,
      show ¬ (1536 + n.val < 1536) by omega, show 1536 + n.val < 2047 by omega]
  | lit => decide

theorem operand_code (o : Operand) :
    o.code < 2048 ∧ (o.code < 0x4A7 ∨ 0x600 ≤ o.code) ∧ (o.code = 0x7FF → o = .lit) := by
  cases o with
  | v n | w n | q n | p n | imm n => have := n.isLt; simp [Operand.code]; omega
  | vz | lit => decide
  | sv x => have := special_code x; simp [Operand.code]; omega

@[simp] theorem mode_ofCode (x : Mode) : Mode.ofCode x.code = x := by cases x <;> rfl
@[simp] theorem fmt_ofCode (x : Fmt) : Fmt.ofCode x.code = x := by cases x <;> rfl
@[simp] theorem order_ofCode (x : Order) : Order.ofCode x.code = x := by cases x <;> rfl
@[simp] theorem scope_ofCode (x : Scope) : Scope.ofCode x.code = x := by cases x <;> rfl
@[simp] theorem cond_ofCode (x : Cond) : Cond.ofCode x.code = x := by cases x <;> rfl
@[simp] theorem cvtType_ofCode (x : CvtType) : CvtType.ofCode x.code = x := by cases x <;> rfl
@[simp] theorem memType_ofCode (x : MemType) : MemType.ofCode x.code = x := by cases x <;> rfl
@[simp] theorem atomOp_ofCode (x : AtomOp) : AtomOp.ofCode x.code = x := by cases x <;> rfl
@[simp] theorem voteMode_ofCode (x : VoteMode) : VoteMode.ofCode x.code = x := by cases x <;> rfl
@[simp] theorem sumType_ofCode (x : SumType) : SumType.ofCode x.code = x := by cases x <;> rfl
@[simp] theorem maxType_ofCode (x : MaxType) : MaxType.ofCode x.code = x := by cases x <;> rfl
@[simp] theorem prefKind_ofCode (x : PrefKind) : PrefKind.ofCode x.code = x := by cases x <;> rfl
@[simp] theorem tileFmt_ofCode (x : TileFmt) : TileFmt.ofCode x.code = x := by cases x <;> rfl
@[simp] theorem halfOp_ofCode (x : HalfOp) : HalfOp.ofCode x.code = some x := by cases x <;> rfl

theorem mode_code (x : Mode) : x.code ≤ 4 ∧ (x.noSr = true → x.code ≤ 3) := by cases x <;> decide
theorem fmt_code (x : Fmt) : x.code ≤ 14 ∧ (x.isMx = true → 5 ≤ x.code ∧ x.code ≤ 9 ∨ x.code = 11)
    ∧ (x.unpkOk = true → 1 ≤ x.code ∧ x.code ≤ 11) := by cases x <;> decide
theorem order_code (x : Order) : x.code ≤ 5 := by cases x <;> decide
theorem scope_code (x : Scope) : x.code ≤ 5 := by cases x <;> decide
theorem cond_code (x : Cond) : x.code ≤ 6 ∧ (x.intOk = true → x.code ≤ 5) := by cases x <;> decide
theorem cvtType_code (x : CvtType) : x.code ≤ 11 ∧ (x.isFloat = true ↔ x.code ≤ 3) := by cases x <;> decide
theorem memType_code (x : MemType) : x.code ≤ 6 := by cases x <;> decide
theorem atomOp_code (x : AtomOp) : x.code ≤ 20 := by cases x <;> decide
theorem voteMode_code (x : VoteMode) : x.code ≤ 3 := by cases x <;> decide
theorem sumType_code (x : SumType) : x.code ≤ 3 := by cases x <;> decide
theorem maxType_code (x : MaxType) : x.code ≤ 5 := by cases x <;> decide
theorem prefKind_code (x : PrefKind) : x.code ≤ 2 := by cases x <;> decide
theorem tileFmt_code (x : TileFmt) : x.code ≤ 3 := by cases x <;> decide
theorem halfOp_code (x : HalfOp) : x.code < 128 := by cases x <;> decide

/-! ### The word of a set of fields -/

/-- The fields stand within their widths (R192). -/
structure Fits (r : Raw) : Prop where
  op : r.op < 256
  ps : r.ps < 8
  pn : r.pn < 2
  d : r.d < 2048
  a : r.a < 2048
  b : r.b < 2048
  c : r.c < 2048
  m : r.m < 64

theorem ofWord_word (r : Raw) (f : Fits r) :
    Raw.ofWord r.word r.lit = r ∧ bits r.word 63 62 = (if r.lit.isSome then 2 else 0) ∧ r.word < 2 ^ 64 := by
  obtain ⟨op, ps, pn, d, a, b, c, m, lit⟩ := r
  obtain ⟨h1, h2, h3, h4, h5, h6, h7, h8⟩ := f
  simp only at h1 h2 h3 h4 h5 h6 h7 h8
  cases lit <;>
    simp only [Raw.ofWord, Raw.word, bits, Nat.shiftRight_eq_div_pow, Raw.mk.injEq, Option.isSome] <;>
    refine ⟨⟨?_, ?_, ?_, ?_, ?_, ?_, ?_, ?_, trivial⟩, ?_, ?_⟩ <;> simp <;> omega

/-- Decoding a word of fields decodes the fields. -/
theorem decodeWord_word (r : Raw) (f : Fits r) :
    decodeWords (.lenrus (BitVec.ofNat 64 r.word) r.lit) = r.decode := by
  obtain ⟨h1, h2, h3⟩ := ofWord_word r f
  have ht : (BitVec.ofNat 64 r.word).toNat = r.word := by
    rw [BitVec.toNat_ofNat]; exact Nat.mod_eq_of_lt h3
  simp only [decodeWords, decodeWord, ht, h2]
  cases hl : r.lit with
  | none => simp only [hl] at h1; simp [h1]
  | some x => simp only [hl] at h1; simp [h1]

/-! ### What a field may hold -/

/-- A field's value for its use in a word with header `h`: the checks of R428 on one operand field. -/
def Takes (h : Hdr) : Use → Nat → Prop
  | .unused, n => n = 0x490
  | .src, n | .dst, n => n < 2048 ∧ codeAllocated n = true ∧ (n = 0x7FF → h.lit.isSome = true)
  | .fn, n => n < 2048

theorem takes_src {h : Hdr} {o : Operand} (k : o.srcOk h = true) : Takes h .src o.code := by
  obtain ⟨h1, h2, h3⟩ := operand_code o
  refine ⟨h1, by simpa [codeAllocated] using h2, fun e => ?_⟩
  simpa [Operand.srcOk, h3 e] using k

theorem takes_dst {h : Hdr} {o : Operand} (k : o.dstOk = true) :
    Takes h .dst o.code ∧ o.code ≠ 0x7FF ∧ (Operand.ofCode o.code).dstOk = true := by
  obtain ⟨h1, h2, h3⟩ := operand_code o
  have h4 : o.code ≠ 0x7FF := fun e => by simp [h3 e, Operand.dstOk] at k
  exact ⟨⟨h1, by simpa [codeAllocated] using h2, fun e => absurd e h4⟩, h4, by simpa using k⟩

theorem takes_dSrc {h : Hdr} {o : Operand} (k : o.dSrcOk = true) : Takes h .src o.code ∧ o.code ≠ 0x7FF := by
  obtain ⟨h1, h2, h3⟩ := operand_code o
  have h4 : o.code ≠ 0x7FF := fun e => by simp [h3 e, Operand.dSrcOk] at k
  exact ⟨⟨h1, by simpa [codeAllocated] using h2, fun e => absurd e h4⟩, h4⟩

theorem takes_lt {h : Hdr} {u : Use} {n : Nat} (k : Takes h u n) : n < 2048 := by
  cases u with
  | unused => simp only [Takes] at k; omega
  | src | dst => exact k.1
  | fn => exact k

theorem takes_checks (h : Hdr) (u : Use) (n : Nat) (t : Takes h u n) :
    ((u = .src || u = .dst) && !codeAllocated n) = false ∧
    (!(decide (u = Use.fn)) && decide (n = 0x7FF) && h.lit.isNone) = false ∧
    (u = .unused && !(decide (n = 0x490))) = false := by
  cases u <;> simp only [Takes] at t <;> simp [t]
  all_goals
    intro e
    have := t.2.2 e
    cases hh : h.lit <;> simp_all

/-- No condition of R428 holds of fields that an accepted layout takes. -/
theorem reject_none {h : Hdr} {r : Raw} {l : Layout} (hlit : r.lit = h.lit) (hg : ¬ (r.ps = 7 ∧ r.pn = 1))
    (fd : Takes h l.d r.d) (fd' : r.d ≠ 0x7FF) (fw : l.d = .dst → r.dOp.dstOk = true) (fa : Takes h l.a r.a)
    (fb : Takes h l.b r.b) (fc : Takes h l.c r.c) (hM : l.m = true) (hs : l.sub = true) (hk : l.mark = true) :
    r.reject l = none := by
  obtain ⟨d1, d2, d3⟩ := takes_checks h _ _ fd
  obtain ⟨a1, a2, a3⟩ := takes_checks h _ _ fa
  obtain ⟨b1, b2, b3⟩ := takes_checks h _ _ fb
  obtain ⟨c1, c2, c3⟩ := takes_checks h _ _ fc
  rw [← hlit] at d2 a2 b2 c2
  have hw : (l.d = .dst && !r.dOp.dstOk) = false := by
    by_cases e : l.d = .dst
    · simp [fw e]
    · simp [e]
  simp only [Raw.reject]
  refine (if_neg (by simpa using hg)).trans ?_
  refine (if_neg (by rw [d1, a1, b1, c1]; decide)).trans ?_
  refine (if_neg (by rw [d2, a2, b2, c2]; simpa using fd')).trans ?_
  refine (if_neg (by rw [hw]; decide)).trans ?_
  refine (if_neg (by rw [d3, a3, b3, c3, hM]; decide)).trans ?_
  rw [hs, hk]
  rfl

/-- The fields of an instruction decode to it when its opcode's layout accepts them (R204, R428). -/
theorem full {h : Hdr} {op d a b c m : Nat} {l : Layout} (hg : h.ok = true) (hop : op < 256) (hm : m < 32)
    (hl : (h.raw op d a b c m).layout = some l) (fd : Takes h l.d d) (fd' : d ≠ 0x7FF)
    (fw : l.d = .dst → (Operand.ofCode d).dstOk = true) (fa : Takes h l.a a) (fb : Takes h l.b b) (fc : Takes h l.c c)
    (hM : l.m = true) (hs : l.sub = true) (hk : l.mark = true) :
    decodeWords (.lenrus (BitVec.ofNat 64 (h.raw op d a b c m).word) (h.raw op d a b c m).lit) = .ok l.instr := by
  have hp : h.ps.val < 8 := h.ps.isLt
  have hn : h.pn.toNat < 2 := Bool.toNat_lt h.pn
  have ha : h.acc.toNat < 2 := Bool.toNat_lt h.acc
  rw [decodeWord_word _ ⟨hop, hp, hn, takes_lt fd, takes_lt fa, takes_lt fb, takes_lt fc, by simp only [Hdr.raw]; omega⟩]
  have hr : (h.raw op d a b c m).reject l = none := by
    refine reject_none (h := h) rfl ?_ fd fd' fw fa fb fc hM hs hk
    rintro ⟨e1, e2⟩
    simp only [Hdr.raw] at e1 e2
    have e3 : h.ps = 7 := Fin.ext e1
    have e4 : h.pn = true := by cases e : h.pn <;> simp_all
    simp [Hdr.ok, e3, e4] at hg
  simp [Raw.decode, hl, hr]

/-! ### Reading the fields back -/

section Fields
variable (h : Hdr) (op a b c m : Nat) (o : Operand)

@[simp] theorem raw_dOp (d : Operand) : (h.raw op d.code a b c m).dOp = d := by simp [Raw.dOp, Hdr.raw]
@[simp] theorem raw_aOp (d : Nat) : (h.raw op d o.code b c m).aOp = o := by simp [Raw.aOp, Hdr.raw]
@[simp] theorem raw_bOp (d : Nat) : (h.raw op d a o.code c m).bOp = o := by simp [Raw.bOp, Hdr.raw]
@[simp] theorem raw_cOp (d : Nat) : (h.raw op d a b o.code m).cOp = o := by simp [Raw.cOp, Hdr.raw]
@[simp] theorem raw_f (d hi lo : Nat) : (h.raw op d a b c m).f hi lo = bits c hi lo := rfl
@[simp] theorem raw_c (d : Nat) : (h.raw op d a b c m).c = c := rfl
theorem ofCode_vz : Operand.ofCode 0x490 = .vz := by decide
@[simp] theorem raw_aVz (d : Nat) : (h.raw op d 0x490 b c m).aOp = .vz := ofCode_vz
@[simp] theorem raw_bVz (d : Nat) : (h.raw op d a 0x490 c m).bOp = .vz := ofCode_vz
@[simp] theorem raw_cVz (d : Nat) : (h.raw op d a b 0x490 m).cOp = .vz := ofCode_vz

theorem bit_eq (x n : Nat) : bit x n = decide (x / 2 ^ n % 2 = 1) := by
  simp [bit, Nat.testBit_eq_decide_div_mod_eq]

theorem bits_eq (x hi lo : Nat) : bits x hi lo = x / 2 ^ lo % 2 ^ (hi + 1 - lo) := by
  simp [bits, Nat.shiftRight_eq_div_pow]

theorem decide_toNat (x : Bool) : decide (x.toNat = 1) = x := by cases x <;> rfl

/-- The header and the M bits of a word's fields: the access bit is M[5] (R195, R198). -/
theorem raw_m (d : Nat) (x y : Bool) (z : Nat) (hz : z < 8) (hm : m = x.toNat * 16 + y.toNat * 8 + z) :
    m < 32 ∧ (h.raw op d a b c m).hdr = h ∧ (h.raw op d a b c m).m4 = x ∧ (h.raw op d a b c m).m3 = y
      ∧ (h.raw op d a b c m).m20 = z ∧ bit (h.raw op d a b c m).m 0 = decide (z % 2 = 1)
      ∧ bit (h.raw op d a b c m).m 1 = decide (z / 2 % 2 = 1) ∧ bit (h.raw op d a b c m).m 2 = decide (z / 4 % 2 = 1)
      ∧ (h.raw op d a b c m).m0 = decide (z % 2 = 1) ∧ bits (h.raw op d a b c m).m 1 0 = z % 4 := by
  subst hm
  have hx := Bool.toNat_lt x
  have hy := Bool.toNat_lt y
  have ha := Bool.toNat_lt h.acc
  have e5 : bit (h.acc.toNat * 32 + (x.toNat * 16 + y.toNat * 8 + z)) 5 = h.acc := by
    rw [bit_eq]; cases h.acc <;> cases x <;> cases y <;> simp <;> omega
  have e4 : bit (h.acc.toNat * 32 + (x.toNat * 16 + y.toNat * 8 + z)) 4 = x := by
    rw [bit_eq]; cases h.acc <;> cases x <;> cases y <;> simp <;> omega
  have e3 : bit (h.acc.toNat * 32 + (x.toNat * 16 + y.toNat * 8 + z)) 3 = y := by
    rw [bit_eq]; cases h.acc <;> cases x <;> cases y <;> simp <;> omega
  refine ⟨by omega, ?_, e4, e3, ?_, ?_, ?_, ?_, ?_, ?_⟩
  · obtain ⟨ps, pn, acc, lit⟩ := h
    simp only [Raw.hdr, Hdr.raw] at e5 ⊢
    simp only [e5, Hdr.mk.injEq, and_true]
    exact ⟨Fin.ext (Nat.mod_eq_of_lt ps.isLt), by cases pn <;> rfl⟩
  · simp only [Raw.m20, bits_eq, Hdr.raw]; simp; omega
  · simp only [bit_eq, Hdr.raw, decide_eq_decide]; omega
  · simp only [bit_eq, Hdr.raw, decide_eq_decide]; omega
  · simp only [bit_eq, Hdr.raw, decide_eq_decide]; omega
  · simp only [Raw.m0, bit_eq, Hdr.raw, decide_eq_decide]; omega
  · simp only [bits_eq, Hdr.raw]; simp; omega

end Fields

end Sys2Proof.Laws.Encoding
end

