-- ==== Sys2Proof/Laws/Store.lean ====
section
/-! SUPPORT. Laws/Store.lean: what reading a sparse store gives after a write, and that writes keep its canonical form. -/

namespace Sys2Proof.Machine

variable {α : Type}

theorem sget_sdel_same (d : α) (l : List (Nat × α)) (n : Nat) : sget d (sdel l n) n = d := by
  induction l with
  | nil => rfl
  | cons a t ih =>
    by_cases h : n = a.1
    · simp only [sdel, h, if_true]; rw [← h]; exact ih
    · simp only [sdel, h, if_false, sget]; exact ih

theorem sget_sdel_ne (d : α) (l : List (Nat × α)) {n m : Nat} (hm : m ≠ n) : sget d (sdel l n) m = sget d l m := by
  induction l with
  | nil => rfl
  | cons a t ih =>
    by_cases h : n = a.1
    · simp only [sdel, h, if_true, sget]
      rw [if_neg (by rw [← h]; exact hm), ← h]; exact ih
    · simp only [sdel, h, if_false, sget, ih]

theorem sget_sput_same (d : α) (l : List (Nat × α)) (n : Nat) (x : α) (h : sget d l n = d) (hl : ∀ p ∈ l, p.1 ≠ n) :
    sget d (sput l n x) n = x := by
  induction l with
  | nil => simp [sput, sget]
  | cons a t ih =>
    by_cases hk : n < a.1
    · simp [sput, hk, sget]
    · have ha : n ≠ a.1 := fun e => hl a (by simp) e.symm
      simp only [sput, hk, if_false, sget, ha]
      refine ih ?_ (fun p hp => hl p (by simp [hp]))
      simpa [sget, ha] using h

theorem sget_sput_ne (d : α) (l : List (Nat × α)) {n m : Nat} (x : α) (hm : m ≠ n) : sget d (sput l n x) m = sget d l m := by
  induction l with
  | nil => simp [sput, sget, hm]
  | cons a t ih =>
    by_cases hk : n < a.1
    · simp [sput, hk, sget, hm]
    · simp only [sput, hk, if_false, sget, ih]

theorem sdel_keys (l : List (Nat × α)) (n : Nat) : ∀ p ∈ sdel l n, p.1 ≠ n := by
  induction l with
  | nil => simp [sdel]
  | cons a t ih =>
    by_cases h : n = a.1
    · simp only [sdel, h, if_true]; rw [← h]; exact ih
    · simp only [sdel, h, if_false, List.mem_cons]
      rintro p (rfl | hp)
      · exact fun e => h e.symm
      · exact ih p hp

@[simp] theorem sget_sset_same [DecidableEq α] (d : α) (l : List (Nat × α)) (n : Nat) (x : α) : sget d (sset d l n x) n = x := by
  by_cases h : x = d
  · simp [sset, h, sget_sdel_same]
  · simp only [sset, h, if_false]
    exact sget_sput_same d _ n x (sget_sdel_same d l n) (sdel_keys l n)

theorem sget_sset_ne [DecidableEq α] (d : α) (l : List (Nat × α)) {n m : Nat} (x : α) (hm : m ≠ n) : sget d (sset d l n x) m = sget d l m := by
  by_cases h : x = d
  · simp only [sset, h, if_true]; exact sget_sdel_ne d l hm
  · simp only [sset, h, if_false]; rw [sget_sput_ne d _ x hm, sget_sdel_ne d l hm]

theorem sget_sset [DecidableEq α] (d : α) (l : List (Nat × α)) (n m : Nat) (x : α) : sget d (sset d l n x) m = if m = n then x else sget d l m := by
  by_cases h : m = n
  · simp [h]
  · simp [h, sget_sset_ne d l x h]

/-! ### The canonical form -/

theorem sabove_sdel [DecidableEq α] {k n : Nat} {l : List (Nat × α)} (d : α) (h : sabove k l = true) (hw : swf d l = true) : sabove k (sdel l n) = true := by
  induction l generalizing k with
  | nil => rfl
  | cons a t ih =>
    simp only [swf, Bool.and_eq_true] at hw
    have hk : k < a.1 := by simpa [sabove] using h
    by_cases hn : n = a.1
    · simp only [sdel, hn, if_true]
      rw [← hn]
      refine ih ?_ hw.2
      have : sabove a.1 t = true := hw.1.2
      cases t with
      | nil => rfl
      | cons b u => simp only [sabove, decide_eq_true_eq] at this ⊢; omega
    · simp only [sdel, hn, if_false, sabove, decide_eq_true_eq]; exact hk

theorem swf_sdel [DecidableEq α] (d : α) (l : List (Nat × α)) (n : Nat) (h : swf d l = true) : swf d (sdel l n) = true := by
  induction l with
  | nil => rfl
  | cons a t ih =>
    have h0 := h
    simp only [swf, Bool.and_eq_true] at h
    by_cases hn : n = a.1
    · simp only [sdel, hn, if_true]; rw [← hn]; exact ih h.2
    · simp only [sdel, hn, if_false, swf, Bool.and_eq_true]
      exact ⟨⟨h.1.1, sabove_sdel d h.1.2 h.2⟩, ih h.2⟩

theorem sabove_sput {k n : Nat} {l : List (Nat × α)} (x : α) (h : sabove k l = true) (hk : k < n) : sabove k (sput l n x) = true := by
  cases l with
  | nil => simpa [sput, sabove] using hk
  | cons a t =>
    by_cases hn : n < a.1
    · simpa [sput, hn, sabove] using hk
    · simpa [sput, hn, sabove] using h

theorem swf_sput [DecidableEq α] (d : α) (l : List (Nat × α)) (n : Nat) (x : α) (h : swf d l = true) (hx : x ≠ d) (hl : ∀ p ∈ l, p.1 ≠ n) :
    swf d (sput l n x) = true := by
  induction l with
  | nil => simp [sput, swf, hx, sabove]
  | cons a t ih =>
    have h0 := h
    simp only [swf, Bool.and_eq_true] at h
    by_cases hn : n < a.1
    · simp only [sput, hn, if_true, swf, Bool.and_eq_true]
      refine ⟨⟨by simp [hx], by simpa [sabove] using hn⟩, ?_⟩
      exact h
    · have ha : a.1 ≠ n := hl a (by simp)
      simp only [sput, hn, if_false, swf, Bool.and_eq_true]
      exact ⟨⟨h.1.1, sabove_sput x h.1.2 (by omega)⟩, ih h.2 (fun p hp => hl p (by simp [hp]))⟩

theorem swf_sset [DecidableEq α] (d : α) (l : List (Nat × α)) (n : Nat) (x : α) (h : swf d l = true) : swf d (sset d l n x) = true := by
  by_cases hx : x = d
  · simp only [sset, hx, if_true]; exact swf_sdel d l n h
  · simp only [sset, hx, if_false]; exact swf_sput d _ n x (swf_sdel d l n h) hx (sdel_keys l n)

/-! ### Sets -/

theorem setMem_setIns (l : List Nat) (n m : Nat) : setMem (setIns l n) m = (decide (m = n) || setMem l m) := by
  induction l with
  | nil => by_cases h : m = n <;> simp [setIns, setMem, h]
  | cons a t ih =>
    by_cases h1 : n = a
    · subst h1
      by_cases h : m = n <;> simp [setIns, setMem, h]
    · by_cases h2 : n < a
      · by_cases h : m = n <;> simp [setIns, setMem, h1, h2, h]
      · by_cases h : m = a
        · simp [setIns, setMem, h1, h2, h]
        · simp [setIns, setMem, h1, h2, h, ih]

theorem setMem_setDel (l : List Nat) (n m : Nat) : setMem (setDel l n) m = (!decide (m = n) && setMem l m) := by
  induction l with
  | nil => simp [setDel, setMem]
  | cons a t ih =>
    by_cases h1 : n = a
    · subst h1
      by_cases h : m = n
      · subst h; simpa [setDel] using ih
      · simp [setDel, setMem, h, ih]
    · by_cases h : m = a
      · have : ¬ a = n := fun e => h1 e.symm
        simp [setDel, setMem, h1, h, this]
      · simp [setDel, setMem, h1, h, ih]

/-- Every element is above n. -/
def setAbove (n : Nat) : List Nat → Bool
  | [] => true
  | k :: _ => n < k

theorem setwf_cons (a : Nat) (l : List Nat) : setwf (a :: l) = (setAbove a l && setwf l) := by cases l <;> rfl

theorem setAbove_setIns {k n : Nat} {l : List Nat} (h : setAbove k l = true) (hk : k < n) : setAbove k (setIns l n) = true := by
  cases l with
  | nil => simpa [setIns, setAbove] using hk
  | cons a t =>
    by_cases h1 : n = a
    · simpa [setIns, h1, setAbove] using h
    · by_cases h2 : n < a
      · simpa [setIns, h1, h2, setAbove] using hk
      · simpa [setIns, h1, h2, setAbove] using h

theorem setwf_setIns (l : List Nat) (n : Nat) (h : setwf l = true) : setwf (setIns l n) = true := by
  induction l with
  | nil => rfl
  | cons a t ih =>
    rw [setwf_cons] at h
    simp only [Bool.and_eq_true] at h
    by_cases h1 : n = a
    · simp only [setIns, h1, if_true]; rw [setwf_cons]; simp [h]
    · by_cases h2 : n < a
      · simp only [setIns, h1, h2, if_false, if_true]
        rw [setwf_cons, setwf_cons, h.1, h.2]; simp [setAbove, h2]
      · simp only [setIns, h1, h2, if_false]
        rw [setwf_cons]
        simp only [Bool.and_eq_true]
        exact ⟨setAbove_setIns h.1 (by omega), ih h.2⟩

theorem setAbove_setDel {k n : Nat} {l : List Nat} (h : setAbove k l = true) (hw : setwf l = true) : setAbove k (setDel l n) = true := by
  induction l generalizing k with
  | nil => rfl
  | cons a t ih =>
    rw [setwf_cons] at hw
    simp only [Bool.and_eq_true] at hw
    have hk : k < a := by simpa [setAbove] using h
    by_cases h1 : n = a
    · simp only [setDel, h1, if_true]
      rw [← h1]
      refine ih ?_ hw.2
      cases t with
      | nil => rfl
      | cons b u => have := hw.1; simp only [setAbove, decide_eq_true_eq] at this ⊢; omega
    · simpa [setDel, h1, setAbove] using hk

theorem setwf_setDel (l : List Nat) (n : Nat) (h : setwf l = true) : setwf (setDel l n) = true := by
  induction l with
  | nil => rfl
  | cons a t ih =>
    rw [setwf_cons] at h
    simp only [Bool.and_eq_true] at h
    by_cases h1 : n = a
    · simp only [setDel, h1, if_true]; rw [← h1]; exact ih h.2
    · simp only [setDel, h1, if_false]
      rw [setwf_cons]; simp only [Bool.and_eq_true]
      exact ⟨setAbove_setDel h.1 h.2, ih h.2⟩

end Sys2Proof.Machine
end

