-- ==== Sys2Proof/Laws/Memory.lean ====
section
/-! SUPPORT. Laws/Memory.lean: what memory reads after each of its operations, and that each keeps its canonical form. -/

namespace Sys2Proof.Machine

/-! ### Bytes -/

theorem putCells_get (bs : List Byte) : ∀ (cells : List Host.Cell) (pa a : Nat),
    sget Memory.unlisted (putCells cells pa bs) a =
      if pa ≤ a ∧ a < pa + bs.length then bs.getD (a - pa) 0 else sget Memory.unlisted cells a := by
  induction bs with
  | nil => intro cells pa a; simp [putCells] <;> (intro h1 h2; omega)
  | cons b bs ih =>
    intro cells pa a
    simp only [putCells, ih, List.length_cons]
    by_cases h1 : pa + 1 ≤ a ∧ a < pa + 1 + bs.length
    · have h2 : pa ≤ a ∧ a < pa + (bs.length + 1) := by omega
      have h3 : a - pa = (a - (pa + 1)) + 1 := by omega
      rw [if_pos h1, if_pos h2, h3]; simp
    · rw [if_neg h1]
      by_cases h4 : a = pa
      · subst h4
        rw [if_pos (by omega)]; simp
      · rw [if_neg (by omega), sget_sset_ne _ _ _ h4]

theorem putCells_wf (bs : List Byte) : ∀ (cells : List Host.Cell) (pa : Nat), swf Memory.unlisted cells = true →
    swf Memory.unlisted (putCells cells pa bs) = true := by
  induction bs with
  | nil => intro cells pa h; exact h
  | cons b bs ih => intro cells pa h; exact ih _ _ (swf_sset _ _ _ _ h)

/-! ### Tags -/

theorem mem_wordsOf (a n w : Nat) : w ∈ wordsOf a n ↔ n ≠ 0 ∧ a < 8 * w + 8 ∧ 8 * w < a + n := by
  unfold wordsOf
  by_cases h : n = 0
  · simp [h]
  · simp only [h, if_false, List.mem_range'_1, ne_eq, not_false_eq_true, true_and]; omega

theorem putTags_fold (a n : Nat) (bad : Bool) (l : List Nat) : ∀ (tags : List Nat) (w : Nat),
    setMem (l.foldl (fun t w => if bad then setIns t w else if a ≤ 8 * w && 8 * w + 8 ≤ a + n then setDel t w else t) tags) w =
      if w ∈ l then (if bad then true else if a ≤ 8 * w && 8 * w + 8 ≤ a + n then false else setMem tags w) else setMem tags w := by
  induction l with
  | nil => intro tags w; simp
  | cons b l ih =>
    intro tags w
    rw [List.foldl_cons, ih]
    cases bad with
    | true =>
      simp only [if_true, setMem_setIns, List.mem_cons]
      by_cases h1 : w ∈ l <;> by_cases h2 : w = b <;> simp [h1, h2]
    | false =>
      simp only [Bool.false_eq_true, if_false, List.mem_cons]
      by_cases h2 : w = b
      · subst h2
        by_cases hc : (a ≤ 8 * w && 8 * w + 8 ≤ a + n) = true
        · simp [hc, setMem_setDel]
        · by_cases h1 : w ∈ l <;> simp [hc, h1]
      · by_cases hc : (a ≤ 8 * b && 8 * b + 8 ≤ a + n) = true
        · simp only [hc, if_true, setMem_setDel, h2, decide_false, Bool.not_false, Bool.true_and, false_or]
        · simp only [hc, h2, false_or]; rfl

theorem putTags_mem (tags : List Nat) (a n : Nat) (bad : Bool) (w : Nat) : setMem (putTags tags a n bad) w =
    if n ≠ 0 ∧ a < 8 * w + 8 ∧ 8 * w < a + n then (if bad then true else if a ≤ 8 * w && 8 * w + 8 ≤ a + n then false else setMem tags w)
    else setMem tags w := by
  simp only [putTags, putTags_fold, mem_wordsOf]

theorem putTags_wf (tags : List Nat) (a n : Nat) (bad : Bool) (h : setwf tags = true) : setwf (putTags tags a n bad) = true := by
  unfold putTags
  generalize wordsOf a n = l
  induction l generalizing tags with
  | nil => exact h
  | cons b l ih =>
    refine ih _ ?_
    dsimp only
    split
    · exact setwf_setIns _ _ h
    · split
      · exact setwf_setDel _ _ h
      · exact h

theorem foldl_setIns_wf (l tags : List Nat) (h : setwf tags = true) : setwf (l.foldl setIns tags) = true := by
  induction l generalizing tags with
  | nil => exact h
  | cons b l ih => exact ih _ (setwf_setIns _ _ h)

/-! ### Headers -/

/-- A header update rewrites MASK and OFF of the sectors of the range, and nothing else. -/
theorem header_cells (m : Memory) (a n : Nat) :
    (m.header a n).cells = m.cells ∧ (m.header a n).bad = m.bad ∧ (m.header a n).llcBad = m.llcBad := by
  unfold Memory.header
  generalize sectorsOf a n = l
  induction l generalizing m with
  | nil => exact ⟨rfl, rfl, rfl⟩
  | cons b l ih => exact ih (m.header1 b)

theorem header_mask_wf (m : Memory) (a n : Nat) (h : swf (0xFFFFFFFF : W32) m.mask = true ∧ swf (0 : BitVec 5) m.off = true) :
    swf (0xFFFFFFFF : W32) (m.header a n).mask = true ∧ swf (0 : BitVec 5) (m.header a n).off = true := by
  unfold Memory.header
  generalize sectorsOf a n = l
  induction l generalizing m with
  | nil => exact h
  | cons b l ih => exact ih (m.header1 b) ⟨swf_sset _ _ _ _ h.1, swf_sset (0 : BitVec 5) m.off b 0 h.2⟩

/-- MASK of a sector that the range meets is what its lines hold; of another, what it was. -/
theorem header_mask (m : Memory) (a n x : Nat) : (m.header a n).maskOf x = if x ∈ sectorsOf a n then m.maskNow x else m.maskOf x := by
  unfold Memory.header
  generalize sectorsOf a n = l
  have now : ∀ (l : List Nat) (k : Memory), k.cells = m.cells →
      (l.foldl Memory.header1 k).maskOf x = if x ∈ l then m.maskNow x else k.maskOf x := by
    intro l
    induction l with
    | nil => intro k _; simp
    | cons b l ih =>
      intro k hc
      have hk : k.maskNow b = m.maskNow b := by simp only [Memory.maskNow, hc]
      rw [List.foldl_cons, ih (k.header1 b) hc]
      simp only [List.mem_cons]
      by_cases h : x = b
      · subst h
        simp only [true_or, if_true, Memory.maskOf, Memory.header1, sget_sset_same, hk, ite_self]
      · simp only [h, false_or, Memory.maskOf, Memory.header1, sget_sset_ne _ _ _ h]
  exact now l m rfl

theorem sget_listed {d : Byte} : ∀ {l : List Host.Cell} {a : Nat}, sget d l a ≠ d → (a, sget d l a) ∈ l := by
  intro l
  induction l with
  | nil => intro a h; simp [sget] at h
  | cons c l ih =>
    intro a h
    obtain ⟨k, v⟩ := c
    simp only [sget] at h ⊢
    by_cases e : a = k
    · simp [e]
    · simp only [e, if_false] at h ⊢
      exact List.mem_cons_of_mem _ (ih h)

/-- A line that holds a byte other than 0 has its bit in MASK. -/
theorem maskNow_bit (m : Memory) {a : Nat} (h : m.byte a ≠ 0) : (m.maskNow (a / 1024)).getLsbD (a / 32 % 32) = true := by
  have hm : (a, m.byte a) ∈ m.cells := sget_listed (d := Memory.unlisted) h
  have keep : ∀ (l : List Host.Cell) (b : BitVec 32), b.getLsbD (a / 32 % 32) = true →
      (l.foldl (fun (b : BitVec 32) (c : Host.Cell) => if c.1 / 1024 = a / 1024 && c.2 != 0#8 then b ||| ((1 : BitVec 32) <<< (c.1 / 32 % 32)) else b)
        b).getLsbD (a / 32 % 32) = true := by
    intro l
    induction l with
    | nil => intro b hb; exact hb
    | cons c l ih =>
      intro b hb
      rw [List.foldl_cons]
      apply ih
      split
      · simp [hb]
      · exact hb
  unfold Memory.maskNow
  generalize (0 : BitVec 32) = b
  generalize m.cells = l at hm
  induction l generalizing b with
  | nil => cases hm
  | cons c l ih =>
    rw [List.foldl_cons]
    rcases List.mem_cons.1 hm with e | e
    · apply keep
      subst e
      have h' : (m.byte a != 0#8) = true := by simpa using h
      simp only [decide_true, h', Bool.and_self, if_true, BitVec.getLsbD_or]
      have : a / 32 % 32 < 32 := Nat.mod_lt _ (by decide)
      simp [this]
    · exact ih _ e

/-! ### Writes -/

theorem write_cells (m : Memory) (pa : Nat) (bs : List Byte) (bad : Bool) : (m.write pa bs bad).cells = putCells m.cells pa bs := by
  unfold Memory.write
  split
  · exact (header_cells _ _ _).1
  · rfl

theorem write_bad (m : Memory) (pa : Nat) (bs : List Byte) (bad : Bool) : (m.write pa bs bad).bad = putTags m.bad pa bs.length bad := by
  unfold Memory.write
  split
  · exact (header_cells _ _ _).2.1
  · rfl

/-- A byte after a write. -/
theorem write_byte (m : Memory) (pa : Nat) (bs : List Byte) (bad : Bool) (a : Nat) :
    (m.write pa bs bad).byte a = if pa ≤ a ∧ a < pa + bs.length then bs.getD (a - pa) 0 else m.byte a := by
  simp only [Memory.byte, write_cells, putCells_get]

theorem write_llcBad (m : Memory) (pa : Nat) (bs : List Byte) (bad : Bool) :
    (m.write pa bs bad).llcBad = putTags m.llcBad pa bs.length false := by
  unfold Memory.write
  split
  · exact (header_cells _ _ _).2.2
  · rfl

theorem wf_iff (m : Memory) : m.wf = true ↔
    swf Memory.unlisted m.cells = true ∧ setwf m.bad = true ∧ setwf m.llcBad = true ∧
      swf (0xFFFFFFFF : W32) m.mask = true ∧ swf (0 : BitVec 5) m.off = true := by
  simp [Memory.wf, and_assoc]

/-- A write keeps the canonical form. -/
theorem write_wf (m : Memory) (pa : Nat) (bs : List Byte) (bad : Bool) (h : m.wf = true) : (m.write pa bs bad).wf = true := by
  rw [wf_iff] at h ⊢
  refine ⟨by rw [write_cells]; exact putCells_wf _ _ _ h.1, by rw [write_bad]; exact putTags_wf _ _ _ _ h.2.1,
    by rw [write_llcBad]; exact putTags_wf _ _ _ _ h.2.2.1, ?_⟩
  unfold Memory.write
  split
  · exact header_mask_wf _ _ _ h.2.2.2
  · exact h.2.2.2

/-- Where the headers tell the zero lines, a read by headers and a read of the data give the same byte (R149). -/
theorem read_headed {m : Memory} (h : m.headed) (a : Nat) : m.read a = m.byte a := by
  unfold Memory.read
  split
  · rename_i c
    rw [Bool.and_eq_true] at c
    by_cases z : m.byte a = 0
    · exact z.symm
    · have := c.2
      rw [Memory.packedAt, if_pos (h a c.1 z)] at this
      simp at this
  · rfl

theorem mem_sectorsOf (a n x : Nat) : x ∈ sectorsOf a n ↔ n ≠ 0 ∧ a / 1024 ≤ x ∧ x ≤ (a + n - 1) / 1024 := by
  unfold sectorsOf
  split
  · simp [*]
  · simp only [List.mem_range'_1]; omega

/-- A write keeps the headers telling. -/
theorem write_headed (m : Memory) (pa : Nat) (bs : List Byte) (bad : Bool) (h : m.headed) : (m.write pa bs bad).headed := by
  intro a ha z
  rw [write_byte] at z
  have other : ¬ (pa ≤ a ∧ a < pa + bs.length) → m.byte a ≠ 0 := fun n => by rwa [if_neg n] at z
  by_cases hp : hbmPa pa = true
  · have em : (m.write pa bs bad).maskOf (a / 1024) =
        (({ m with cells := putCells m.cells pa bs, bad := putTags m.bad pa bs.length bad, llcBad := putTags m.llcBad pa bs.length false } : Memory).header
          pa bs.length).maskOf (a / 1024) := by
      unfold Memory.write
      simp only [hp, if_true]
      rfl
    rw [em, header_mask]
    by_cases hs : a / 1024 ∈ sectorsOf pa bs.length
    · rw [if_pos hs]
      apply maskNow_bit
      show sget Memory.unlisted (putCells m.cells pa bs) a ≠ 0
      rw [putCells_get]
      exact z
    · rw [if_neg hs]
      rw [mem_sectorsOf] at hs
      exact h a ha (other (by omega))
  · have em : (m.write pa bs bad).maskOf (a / 1024) = m.maskOf (a / 1024) := by
      unfold Memory.write
      simp only [hp]
      rfl
    rw [em]
    refine h a ha (other ?_)
    simp only [hbmPa, decide_eq_true_eq] at ha hp
    omega

/-- A HOST fill keeps the canonical form. -/
theorem fill_wf (m : Memory) (pa : Nat) (bs : List Byte) (h : m.wf = true) :
    ({ m with cells := putCells m.cells pa bs, bad := putTags m.bad pa bs.length false } : Memory).wf = true := by
  rw [wf_iff] at h ⊢
  exact ⟨putCells_wf _ _ _ h.1, putTags_wf _ _ _ _ h.2.1, h.2.2⟩

/-- Poisoning words keeps the canonical form. -/
theorem spoil_wf (m : Memory) (l : List Nat) (h : m.wf = true) : ({ m with bad := l.foldl setIns m.bad } : Memory).wf = true := by
  rw [wf_iff] at h ⊢
  exact ⟨h.1, foldl_setIns_wf _ _ h.2.1, h.2.2⟩

/-! ### Operations on tags of the LLC and on translations: no byte and no header changes -/

/-- Two memories hold the same bytes and headers. -/
def Memory.Same (m n : Memory) : Prop :=
  n.cells = m.cells ∧ n.mask = m.mask ∧ n.off = m.off ∧ n.badHdr = m.badHdr ∧ n.saidHdr = m.saidHdr ∧ (m.wf = true → n.wf = true)

theorem Memory.Same.refl (m : Memory) : m.Same m := ⟨rfl, rfl, rfl, rfl, rfl, id⟩
theorem Memory.Same.trans {a b c : Memory} (h : a.Same b) (k : b.Same c) : a.Same c := by
  obtain ⟨h1, h2, h3, h4, h5, h6⟩ := h
  obtain ⟨k1, k2, k3, k4, k5, k6⟩ := k
  exact ⟨k1.trans h1, k2.trans h2, k3.trans h3, k4.trans h4, k5.trans h5, k6 ∘ h6⟩
theorem Memory.Same.byte {m n : Memory} (h : m.Same n) (a : Nat) : n.byte a = m.byte a := by simp only [Memory.byte, h.1]
theorem Memory.Same.read {m n : Memory} (h : m.Same n) (a : Nat) : n.read a = m.read a := by
  have e : ∀ x r, n.packedAt x r = m.packedAt x r := by
    intro x r
    unfold Memory.packedAt Memory.maskOf Memory.offOf
    rw [h.2.1, h.2.2.1]
  unfold Memory.read
  rw [h.byte, e]
theorem Memory.Same.headed {m n : Memory} (h : m.Same n) (k : m.headed) : n.headed := by
  intro a ha z
  rw [h.byte] at z
  simpa only [Memory.maskOf, h.2.1] using k a ha z
theorem Memory.Same.wf {m n : Memory} (h : m.Same n) (w : m.wf = true) : n.wf = true := h.2.2.2.2.2 w

theorem setSector_same (m : Memory) (x : Nat) (t : SectorTag) : m.Same (m.setSector x t) := ⟨rfl, rfl, rfl, rfl, rfl, id⟩
theorem dropL0_same (m : Memory) (k : Option Nat) (p : Nat → Bool) : m.Same (m.dropL0 k p) := ⟨rfl, rfl, rfl, rfl, rfl, id⟩

theorem foldl_setDel_wf (l tags : List Nat) (h : setwf tags = true) : setwf (l.foldl setDel tags) = true := by
  induction l generalizing tags with
  | nil => exact h
  | cons b l ih => exact ih _ (setwf_setDel _ _ h)

theorem dropSector_same (m : Memory) (x : Nat) : m.Same (m.dropSector x) := by
  refine ⟨rfl, rfl, rfl, rfl, rfl, fun h => ?_⟩
  rw [wf_iff] at h ⊢
  exact ⟨h.1, foldl_setIns_wf _ _ h.2.1, foldl_setDel_wf _ _ h.2.2.1, h.2.2.2⟩
theorem makeRoom_same (m : Memory) (x : Nat) : m.Same (m.makeRoom x) := by
  unfold Memory.makeRoom
  split
  · split
    · exact dropSector_same _ _
    · exact .refl m
  · exact .refl m
theorem room_same (m : Memory) (x : Nat) (t : SectorTag) (b : Bool) : m.Same (if b then m.makeRoom x else (m.makeRoom x).setSector x t) := by
  split
  · exact makeRoom_same m x
  · exact (makeRoom_same m x).trans (setSector_same _ _ _)
theorem touchRow_same (m : Memory) (l : Nat) (w : Bool) (c : Option Nat) : m.Same (m.touchRow l w c) := by
  unfold Memory.touchRow
  cases w
  · exact room_same _ _ _ _
  · exact (room_same _ _ _ _).trans (dropL0_same _ c (fun x => decide (x = l)))
theorem touchCol_same (m : Memory) (x : Nat) (w : Bool) : m.Same (m.touchCol x w) := (room_same m x _ _).trans (dropL0_same _ _ _)
theorem reach_same (m : Memory) (x : Nat) (c : Bool) : m.Same (m.reach x c) := by
  unfold Memory.reach
  split
  · exact .refl m
  · exact ⟨rfl, rfl, rfl, rfl, rfl, id⟩
theorem rowLine_same (m : Memory) (l : Nat) (w : Bool) (c : Option Nat) : m.Same (m.rowLine l w c).1 :=
  (reach_same m _ _).trans (touchRow_same _ _ _ _)
theorem colSector_same (m : Memory) (x : Nat) (w : Bool) : m.Same (m.colSector x w).1 := (reach_same m _ _).trans (touchCol_same _ _ _)
theorem through_same (m : Memory) (pa n : Nat) : m.Same (m.through pa n) := by
  unfold Memory.through
  generalize linesOf pa n = l
  induction l generalizing m with
  | nil => exact .refl m
  | cons b l ih =>
    refine Memory.Same.trans (Memory.Same.trans ?_ (dropL0_same _ _ _)) (ih _)
    split
    · exact setSector_same _ _ _
    · exact .refl m
theorem holdAt_same (m : Memory) (p : TlbPlace) (e : TlbEntry) : m.Same (m.holdAt p e) := by
  unfold Memory.holdAt
  split
  · exact .refl m
  · exact ⟨rfl, rfl, rfl, rfl, rfl, id⟩
theorem hold_same (m : Memory) (via : Option TlbPlace) (e : TlbEntry) : m.Same (m.hold via e) := by
  unfold Memory.hold
  split
  · exact (holdAt_same _ _ _).trans (holdAt_same _ _ _)
  · exact holdAt_same _ _ _
  · exact .refl m

/-- Memory lists nothing after reset. -/
theorem reset_mem_wf : State.reset.mem.wf = true := by decide
theorem reset_mem_headed : State.reset.mem.headed := by
  intro a _ h
  exact absurd rfl h

end Sys2Proof.Machine
end

