-- ==== Sys2Proof/Laws/PerInstr.lean ====
section
/-! SUPPORT. Laws/PerInstr.lean: the family Encoding: decoding the words of an instruction gives it back (R189 to R204,
R373), one lemma per constructor of Instr. -/

set_option Elab.async false

set_option linter.unusedSimpArgs false

namespace Sys2Proof.Laws.Encoding

/-- The words of a well-formed instruction decode to it; an SWR with a row of its own decodes as SWR. -/
def Statement (i : Instr) : Prop := i.wf = true → ∀ w, encode i = some w → decodeWords w = .ok i.asWord

/-- The word of the fields `r` decodes to `i`. -/
def RoundTrip (r : Raw) (i : Instr) : Prop := decodeWords (.lenrus (BitVec.ofNat 64 r.word) r.lit) = .ok i

theorem of_fields {i : Instr} {r : Raw} (he : encode i = some (.lenrus (BitVec.ofNat 64 r.word) r.lit))
    (h : i.wf = true → RoundTrip r i.asWord) : Statement i := by
  intro hw w e
  rw [he] at e
  cases e
  exact h hw

theorem of_none {i : Instr} (he : encode i = none) : Statement i := by
  intro _ w e
  rw [he] at e
  cases e

/-! ### The map of the major opcodes (R203) -/

section Map
variable {h : Hdr} {op d a b c m : Nat}
theorem in_control (k : op / 16 = 0) : (h.raw op d a b c m).layout = (h.raw op d a b c m).control := by
  simp [Raw.layout, Hdr.raw, k]
theorem in_integer (k : op / 16 = 1 ∨ op / 16 = 2) : (h.raw op d a b c m).layout = (h.raw op d a b c m).integer := by
  rcases k with k | k <;> simp [Raw.layout, Hdr.raw, k]
theorem in_floating (k : op / 16 = 3 ∨ op / 16 = 4) : (h.raw op d a b c m).layout = (h.raw op d a b c m).floating := by
  rcases k with k | k <;> simp [Raw.layout, Hdr.raw, k]
theorem in_convert (k : op / 16 = 5) : (h.raw op d a b c m).layout = (h.raw op d a b c m).convert := by
  simp [Raw.layout, Hdr.raw, k]
theorem in_cross (k : op / 16 = 6) : (h.raw op d a b c m).layout = (h.raw op d a b c m).cross := by
  simp [Raw.layout, Hdr.raw, k]
theorem in_memory (k : op / 16 = 7) : (h.raw op d a b c m).layout = (h.raw op d a b c m).memory := by
  simp [Raw.layout, Hdr.raw, k]
theorem in_atomic (k : op / 16 = 8 ∨ op / 16 = 9) : (h.raw op d a b c m).layout = (h.raw op d a b c m).atomic := by
  rcases k with k | k <;> simp [Raw.layout, Hdr.raw, k]
theorem in_matrix (k : op / 16 = 10 ∨ op / 16 = 11) : (h.raw op d a b c m).layout = (h.raw op d a b c m).matrix := by
  rcases k with k | k <;> simp [Raw.layout, Hdr.raw, k]
theorem in_system (k : op / 16 = 12 ∨ op / 16 = 13) : (h.raw op d a b c m).layout = (h.raw op d a b c m).system := by
  rcases k with k | k <;> simp [Raw.layout, Hdr.raw, k]
end Map

/-! ### Shapes of full words -/

theorem takes_if {h : Hdr} {o : Operand} {u : Bool} (k : (if u then o.srcOk h else decide (o = .vz)) = true) :
    Takes h (if u then .src else .unused) o.code := by
  cases u with
  | true => exact takes_src k
  | false => simp at k; subst k; rfl

theorem takes_scratch {h : Hdr} {o : Operand} (k : o.scratchOk = true) : Takes h .src o.code :=
  takes_src (by cases o <;> simp_all [Operand.scratchOk, Operand.srcOk, Operand.evenW, Operand.uniform])

theorem takes_matrix {h : Hdr} {o : Operand} {s : Bool} (k : o.matrixOk s = true) : Takes h .src o.code :=
  takes_src (by cases s <;> cases o <;> simp_all [Operand.matrixOk, Operand.srcOk, Operand.evenW, Operand.isV])

theorem takes_group {h : Hdr} {o : Operand} {n : Nat} (k : o.groupOk n = true) : Takes h .src o.code :=
  takes_src (by cases o <;> simp_all [Operand.groupOk, Operand.srcOk])

theorem takes_hyper {h : Hdr} {o : Operand} (k : o.hyperOk = true) : Takes h .src o.code :=
  takes_src (by cases o <;> simp_all [Operand.hyperOk, Operand.srcOk])

theorem group_dst {o : Operand} {n : Nat} (k : o.groupOk n = true) : o.dstOk = true := by
  cases o <;> simp_all [Operand.groupOk, Operand.dstOk]

theorem chunk_dst {o : Operand} (k : chunkDOk o = true) : o.dstOk = true := by
  cases o <;> simp_all [chunkDOk, Operand.dstOk]

theorem quad_src {h : Hdr} {o : Operand} (k : o.quadOk = true) : o.srcOk h = true := by
  have e : o ≠ .lit := by
    rintro rfl
    exact absurd k (by decide)
  simp [Operand.srcOk, e]

theorem fin_ofNat {n : Nat} [NeZero n] (x : Fin n) : Fin.ofNat n x.val = x := Fin.ofNat_val_eq_self x
theorem cv_ofNat (x : CvField) : (Fin.ofNat 17 x.val : CvField) = x := fin_ofNat x
theorem tile_ofNat (x : Fin 64) : Fin.ofNat 64 x.val = x := fin_ofNat x

/-- A field of 5 bits below another: F[4:0] and F[10:5]. -/
theorem low5 (t v : Nat) (h : v < 32) :
    (t < 64 → bits (t * 32 + v) 10 5 = t) ∧ bits (t * 32 + v) 4 0 = v ∧ True := by
  refine ⟨fun k => ?_, ?_, trivial⟩ <;> rw [bits_eq] <;> simp <;> omega

/-- A special register's number as F and M[4] (R197, R337). -/
theorem high1 (s : BitVec 12) : ∃ y : Bool, s.toNat / 2048 = y.toNat
    ∧ BitVec.ofNat 12 ((if y then 2048 else 0) + s.toNat % 2048) = s := by
  have h := s.isLt
  rcases (show s.toNat / 2048 = 0 ∨ s.toNat / 2048 = 1 by omega) with e | e
  · exact ⟨false, e, BitVec.eq_of_toNat_eq (by simp <;> omega)⟩
  · exact ⟨true, e, BitVec.eq_of_toNat_eq (by simp <;> omega)⟩

theorem op0_ok {x : Op0} {op : Nat} {k : Op0 → Instr} (hop : op < 256)
    (hl : (x.fields op).layout = some ((x.fields op).op0 k))
    (hok : x.ok = true) : RoundTrip (x.fields op) (k x) := by
  simp only [Op0.ok, Bool.and_eq_true, and_assoc] at hok
  have hg := hok
  obtain ⟨m1, mh, m4, m3, m20, m0b, m1b, m2b, m0, m10⟩ :=
    raw_m x.h op 0x490 0x490 0x490 0 0x490 false false (0) (by decide) (by simp)
  have e := full hg hop m1 hl rfl (by decide) (fun q => by cases q) rfl rfl rfl
    (by
      simp [Raw.mz, Raw.mz0, Raw.op0, Op0.fields, m4, m3, m20]) rfl rfl
  refine e.trans ?_
  simp only [Raw.op0, Op0.fields, Raw.mode, Raw.order, Raw.tile, Raw.cv, mh, m4, m3, m20, m0, m0b, m1b, m2b, m10, raw_dOp, raw_aOp, raw_bOp, raw_cOp, raw_aVz, raw_bVz, raw_cVz, raw_f, raw_c, mode_ofCode, order_ofCode, scope_ofCode, fmt_ofCode, cond_ofCode, cvtType_ofCode, memType_ofCode, atomOp_ofCode, voteMode_ofCode, sumType_ofCode, maxType_ofCode, prefKind_ofCode, tileFmt_ofCode] <;> rfl

theorem opA_ok {x : OpA} {op : Nat} {k : OpA → Instr} (hop : op < 256)
    (hl : (x.fields op 0).layout = some ((x.fields op 0).opA k))
    (hok : x.ok = true) : RoundTrip (x.fields op 0) (k x) := by
  simp only [OpA.ok, Bool.and_eq_true, and_assoc] at hok
  obtain ⟨hg, ha⟩ := hok
  obtain ⟨m1, mh, m4, m3, m20, m0b, m1b, m2b, m0, m10⟩ :=
    raw_m x.h op x.a.code 0x490 0x490 0 0x490 false false (0) (by decide) (by simp)
  have e := full hg hop m1 hl rfl (by decide) (fun q => by cases q) (takes_src ha) rfl rfl
    (by
      simp [Raw.mz, Raw.mz0, Raw.opA, OpA.fields, m4, m3, m20]) rfl rfl
  refine e.trans ?_
  simp only [Raw.opA, OpA.fields, Raw.mode, Raw.order, Raw.tile, Raw.cv, mh, m4, m3, m20, m0, m0b, m1b, m2b, m10, raw_dOp, raw_aOp, raw_bOp, raw_cOp, raw_aVz, raw_bVz, raw_cVz, raw_f, raw_c, mode_ofCode, order_ofCode, scope_ofCode, fmt_ofCode, cond_ofCode, cvtType_ofCode, memType_ofCode, atomOp_ofCode, voteMode_ofCode, sumType_ofCode, maxType_ofCode, prefKind_ofCode, tileFmt_ofCode] <;> rfl

theorem opD_ok {x : OpD} {op : Nat} {mk : Bool} {k : OpD → Instr} (hop : op < 256)
    (hl : (x.fields op 0x490).layout = some ((x.fields op 0x490).opD mk k))
    (hk : mk = true) (hok : x.ok = true) : RoundTrip (x.fields op 0x490) (k x) := by
  simp only [OpD.ok, Bool.and_eq_true, and_assoc] at hok
  obtain ⟨hg, hd⟩ := hok
  obtain ⟨m1, mh, m4, m3, m20, m0b, m1b, m2b, m0, m10⟩ :=
    raw_m x.h op 0x490 0x490 0x490 0 x.d.code false false (0) (by decide) (by simp)
  have td := takes_dst (h := x.h) hd
  have e := full hg hop m1 hl td.1 td.2.1 (fun _ => td.2.2) rfl rfl rfl
    (by
      simp [Raw.mz, Raw.mz0, Raw.opD, OpD.fields, m4, m3, m20]) rfl (by
      exact hk)
  refine e.trans ?_
  simp only [Raw.opD, OpD.fields, Raw.mode, Raw.order, Raw.tile, Raw.cv, mh, m4, m3, m20, m0, m0b, m1b, m2b, m10, raw_dOp, raw_aOp, raw_bOp, raw_cOp, raw_aVz, raw_bVz, raw_cVz, raw_f, raw_c, mode_ofCode, order_ofCode, scope_ofCode, fmt_ofCode, cond_ofCode, cvtType_ofCode, memType_ofCode, atomOp_ofCode, voteMode_ofCode, sumType_ofCode, maxType_ofCode, prefKind_ofCode, tileFmt_ofCode] <;> rfl

theorem opDA_ok {x : OpDA} {op : Nat} {mk : Bool} {k : OpDA → Instr} (hop : op < 256)
    (hl : (x.fields op).layout = some ((x.fields op).opDA mk k))
    (hk : mk = true) (hok : x.ok = true) : RoundTrip (x.fields op) (k x) := by
  simp only [OpDA.ok, Bool.and_eq_true, and_assoc] at hok
  obtain ⟨hg, hd, ha⟩ := hok
  obtain ⟨m1, mh, m4, m3, m20, m0b, m1b, m2b, m0, m10⟩ :=
    raw_m x.h op x.a.code 0x490 0x490 0 x.d.code false false (0) (by decide) (by simp)
  have td := takes_dst (h := x.h) hd
  have e := full hg hop m1 hl td.1 td.2.1 (fun _ => td.2.2) (takes_src ha) rfl rfl
    (by
      simp [Raw.mz, Raw.mz0, Raw.opDA, OpDA.fields, m4, m3, m20]) rfl (by
      exact hk)
  refine e.trans ?_
  simp only [Raw.opDA, OpDA.fields, Raw.mode, Raw.order, Raw.tile, Raw.cv, mh, m4, m3, m20, m0, m0b, m1b, m2b, m10, raw_dOp, raw_aOp, raw_bOp, raw_cOp, raw_aVz, raw_bVz, raw_cVz, raw_f, raw_c, mode_ofCode, order_ofCode, scope_ofCode, fmt_ofCode, cond_ofCode, cvtType_ofCode, memType_ofCode, atomOp_ofCode, voteMode_ofCode, sumType_ofCode, maxType_ofCode, prefKind_ofCode, tileFmt_ofCode] <;> rfl

theorem opAB_ok {x : OpAB} {op : Nat} {k : OpAB → Instr} (hop : op < 256)
    (hl : (x.fields op 0x490).layout = some ((x.fields op 0x490).opAB k))
    (hok : x.ok = true) : RoundTrip (x.fields op 0x490) (k x) := by
  simp only [OpAB.ok, Bool.and_eq_true, and_assoc] at hok
  obtain ⟨hg, ha, hb⟩ := hok
  obtain ⟨m1, mh, m4, m3, m20, m0b, m1b, m2b, m0, m10⟩ :=
    raw_m x.h op x.a.code x.b.code 0x490 0 0x490 false false (0) (by decide) (by simp)
  have e := full hg hop m1 hl rfl (by decide) (fun q => by cases q) (takes_src ha) (takes_src hb) rfl
    (by
      simp [Raw.mz, Raw.mz0, Raw.opAB, OpAB.fields, m4, m3, m20]) rfl rfl
  refine e.trans ?_
  simp only [Raw.opAB, OpAB.fields, Raw.mode, Raw.order, Raw.tile, Raw.cv, mh, m4, m3, m20, m0, m0b, m1b, m2b, m10, raw_dOp, raw_aOp, raw_bOp, raw_cOp, raw_aVz, raw_bVz, raw_cVz, raw_f, raw_c, mode_ofCode, order_ofCode, scope_ofCode, fmt_ofCode, cond_ofCode, cvtType_ofCode, memType_ofCode, atomOp_ofCode, voteMode_ofCode, sumType_ofCode, maxType_ofCode, prefKind_ofCode, tileFmt_ofCode] <;> rfl

theorem int_ok {x : IntOps} {op : Nat} {uB uC w64 sat sgn : Bool} {k : IntOps → Instr} (hop : op < 256)
    (hl : (x.fields op).layout = some ((x.fields op).intL uB uC w64 sat sgn k))
    (hok : x.ok uB uC w64 sat sgn = true) : RoundTrip (x.fields op) (k x) := by
  simp only [IntOps.ok, Bool.and_eq_true, and_assoc] at hok
  obtain ⟨hg, hd, ha, hb, hc, k4, k3, k0⟩ := hok
  have hz : x.sgn.toNat < 8 := by have := Bool.toNat_lt x.sgn; omega
  obtain ⟨m1, mh, m4, m3, m20, m0b, m1b, m2b, m0, m10⟩ :=
    raw_m x.h op x.a.code x.b.code x.c.code _ x.d.code x.w64 x.sat (x.sgn.toNat) hz rfl
  have td := takes_dst (h := x.h) hd
  have e := full hg hop m1 hl td.1 td.2.1 (fun _ => td.2.2) (takes_src ha) (takes_if hb) (takes_if hc)
    (by
      simp only [Raw.intL, IntOps.fields, m3, m4, m20]; cases hs : x.sgn <;> simp_all) rfl rfl
  refine e.trans ?_
  simp only [Raw.intL, IntOps.fields, Raw.mode, Raw.order, Raw.tile, Raw.cv, mh, m4, m3, m20, m0, m0b, m1b, m2b, m10, raw_dOp, raw_aOp, raw_bOp, raw_cOp, raw_aVz, raw_bVz, raw_cVz, raw_f, raw_c, mode_ofCode, order_ofCode, scope_ofCode, fmt_ofCode, cond_ofCode, cvtType_ofCode, memType_ofCode, atomOp_ofCode, voteMode_ofCode, sumType_ofCode, maxType_ofCode, prefKind_ofCode, tileFmt_ofCode]
  cases x with | mk h d a b c w s g => cases g <;> rfl

theorem float_ok {x : FloatOps} {op : Nat} {uC : Bool} {k : FloatOps → Instr} (hop : op < 256)
    (hl : (x.fields op).layout = some ((x.fields op).floatL uC k))
    (hok : x.ok uC = true) : RoundTrip (x.fields op) (k x) := by
  simp only [FloatOps.ok, Bool.and_eq_true, and_assoc] at hok
  obtain ⟨hg, hd, ha, hb, hc, hn⟩ := hok
  have hz : x.mode.code < 8 := by have := mode_code x.mode; omega
  obtain ⟨m1, mh, m4, m3, m20, m0b, m1b, m2b, m0, m10⟩ :=
    raw_m x.h op x.a.code x.b.code x.c.code (x.sat.toNat * 8 + x.mode.code) x.d.code false x.sat (x.mode.code) hz (by simp)
  have td := takes_dst (h := x.h) hd
  have e := full hg hop m1 hl td.1 td.2.1 (fun _ => td.2.2) (takes_src ha) (takes_src hb) (takes_if hc)
    (by
      simp [Raw.mz, Raw.mz0, Raw.floatL, FloatOps.fields, m4, m3, m20]) (by
      simpa only [Raw.floatL, FloatOps.fields, m20, decide_eq_true_eq] using (mode_code x.mode).2 hn) rfl
  refine e.trans ?_
  simp only [Raw.floatL, FloatOps.fields, Raw.mode, Raw.order, Raw.tile, Raw.cv, mh, m4, m3, m20, m0, m0b, m1b, m2b, m10, raw_dOp, raw_aOp, raw_bOp, raw_cOp, raw_aVz, raw_bVz, raw_cVz, raw_f, raw_c, mode_ofCode, order_ofCode, scope_ofCode, fmt_ofCode, cond_ofCode, cvtType_ofCode, memType_ofCode, atomOp_ofCode, voteMode_ofCode, sumType_ofCode, maxType_ofCode, prefKind_ofCode, tileFmt_ofCode] <;> rfl

theorem minMax_ok {x : FMinMaxOps} {op : Nat} {k : FMinMaxOps → Instr} (hop : op < 256)
    (hl : (x.fields op).layout = some ((x.fields op).minMaxL k))
    (hok : x.ok = true) : RoundTrip (x.fields op) (k x) := by
  simp only [FMinMaxOps.ok, Bool.and_eq_true, and_assoc] at hok
  obtain ⟨hg, hd, ha, hb⟩ := hok
  have hz : x.num.toNat < 8 := by have := Bool.toNat_lt x.num; omega
  obtain ⟨m1, mh, m4, m3, m20, m0b, m1b, m2b, m0, m10⟩ :=
    raw_m x.h op x.a.code x.b.code 0x490 x.num.toNat x.d.code false false (x.num.toNat) hz (by simp)
  have td := takes_dst (h := x.h) hd
  have e := full hg hop m1 hl td.1 td.2.1 (fun _ => td.2.2) (takes_src ha) (takes_src hb) rfl
    (by
      simp only [Raw.minMaxL, Raw.mz0, FMinMaxOps.fields, m4, m3, m20]; cases x.num <;> rfl) rfl rfl
  refine e.trans ?_
  simp only [Raw.minMaxL, FMinMaxOps.fields, Raw.mode, Raw.order, Raw.tile, Raw.cv, mh, m4, m3, m20, m0, m0b, m1b, m2b, m10, raw_dOp, raw_aOp, raw_bOp, raw_cOp, raw_aVz, raw_bVz, raw_cVz, raw_f, raw_c, mode_ofCode, order_ofCode, scope_ofCode, fmt_ofCode, cond_ofCode, cvtType_ofCode, memType_ofCode, atomOp_ofCode, voteMode_ofCode, sumType_ofCode, maxType_ofCode, prefKind_ofCode, tileFmt_ofCode]
  cases x with | mk h d a b n => cases n <;> rfl

theorem fcmp_ok {x : FcmpOps} {op : Nat} {k : FcmpOps → Instr} (hop : op < 256)
    (hl : (x.fields op).layout = some ((x.fields op).fcmpL k))
    (hok : x.ok = true) : RoundTrip (x.fields op) (k x) := by
  simp only [FcmpOps.ok, Bool.and_eq_true, and_assoc] at hok
  obtain ⟨hg, hd, ha, hb⟩ := hok
  have hc := (cond_code x.cond).1
  obtain ⟨m1, mh, m4, m3, m20, m0b, m1b, m2b, m0, m10⟩ :=
    raw_m x.h op x.a.code x.b.code x.cond.code 0 x.d.code false false (0) (by decide) (by simp)
  have td := takes_dst (h := x.h) hd
  have e := full hg hop m1 hl td.1 td.2.1 (fun _ => td.2.2) (takes_src ha) (takes_src hb) (show _ < 2048 by omega)
    (by
      simp [Raw.mz, Raw.mz0, Raw.fcmpL, FcmpOps.fields, m4, m3, m20]) (by
      simp only [Raw.fcmpL, FcmpOps.fields, raw_c]; exact decide_eq_true hc) rfl
  refine e.trans ?_
  simp only [Raw.fcmpL, FcmpOps.fields, Raw.mode, Raw.order, Raw.tile, Raw.cv, mh, m4, m3, m20, m0, m0b, m1b, m2b, m10, raw_dOp, raw_aOp, raw_bOp, raw_cOp, raw_aVz, raw_bVz, raw_cVz, raw_f, raw_c, mode_ofCode, order_ofCode, scope_ofCode, fmt_ofCode, cond_ofCode, cvtType_ofCode, memType_ofCode, atomOp_ofCode, voteMode_ofCode, sumType_ofCode, maxType_ofCode, prefKind_ofCode, tileFmt_ofCode] <;> rfl

theorem half_ok {x : HalfOps} {op : Nat} {uC : Bool} {k : HalfOps → Instr} (hop : op < 256)
    (hl : (x.fields op).layout = some ((x.fields op).halfL uC k))
    (hok : x.ok uC = true) : RoundTrip (x.fields op) (k x) := by
  simp only [HalfOps.ok, Bool.and_eq_true, and_assoc] at hok
  obtain ⟨hg, hd, ha, hb, hc, hn⟩ := hok
  have hz : x.mode.code < 8 := by have := mode_code x.mode; omega
  obtain ⟨m1, mh, m4, m3, m20, m0b, m1b, m2b, m0, m10⟩ :=
    raw_m x.h op x.a.code x.b.code x.c.code _ x.d.code x.f16 x.sat (x.mode.code) hz rfl
  have td := takes_dst (h := x.h) hd
  have e := full hg hop m1 hl td.1 td.2.1 (fun _ => td.2.2) (takes_src ha) (takes_src hb) (takes_if hc)
    rfl (by
      simpa only [Raw.halfL, HalfOps.fields, m20, decide_eq_true_eq] using (mode_code x.mode).2 hn) rfl
  refine e.trans ?_
  simp only [Raw.halfL, HalfOps.fields, Raw.mode, Raw.order, Raw.tile, Raw.cv, mh, m4, m3, m20, m0, m0b, m1b, m2b, m10, raw_dOp, raw_aOp, raw_bOp, raw_cOp, raw_aVz, raw_bVz, raw_cVz, raw_f, raw_c, mode_ofCode, order_ofCode, scope_ofCode, fmt_ofCode, cond_ofCode, cvtType_ofCode, memType_ofCode, atomOp_ofCode, voteMode_ofCode, sumType_ofCode, maxType_ofCode, prefKind_ofCode, tileFmt_ofCode] <;> rfl

theorem hminMax_ok {x : HMinMaxOps} {op : Nat} {k : HMinMaxOps → Instr} (hop : op < 256)
    (hl : (x.fields op).layout = some ((x.fields op).hminMaxL k))
    (hok : x.ok = true) : RoundTrip (x.fields op) (k x) := by
  simp only [HMinMaxOps.ok, Bool.and_eq_true, and_assoc] at hok
  obtain ⟨hg, hd, ha, hb⟩ := hok
  have hz : x.num.toNat < 8 := by have := Bool.toNat_lt x.num; omega
  obtain ⟨m1, mh, m4, m3, m20, m0b, m1b, m2b, m0, m10⟩ :=
    raw_m x.h op x.a.code x.b.code 0x490 (x.f16.toNat * 16 + x.num.toNat) x.d.code x.f16 false (x.num.toNat) hz (by simp)
  have td := takes_dst (h := x.h) hd
  have e := full hg hop m1 hl td.1 td.2.1 (fun _ => td.2.2) (takes_src ha) (takes_src hb) rfl
    (by
      simp only [Raw.hminMaxL, Raw.mz0, HMinMaxOps.fields, m4, m3, m20]; cases x.num <;> simp) rfl rfl
  refine e.trans ?_
  simp only [Raw.hminMaxL, HMinMaxOps.fields, Raw.mode, Raw.order, Raw.tile, Raw.cv, mh, m4, m3, m20, m0, m0b, m1b, m2b, m10, raw_dOp, raw_aOp, raw_bOp, raw_cOp, raw_aVz, raw_bVz, raw_cVz, raw_f, raw_c, mode_ofCode, order_ofCode, scope_ofCode, fmt_ofCode, cond_ofCode, cvtType_ofCode, memType_ofCode, atomOp_ofCode, voteMode_ofCode, sumType_ofCode, maxType_ofCode, prefKind_ofCode, tileFmt_ofCode]
  cases x with | mk h d a b f n => cases n <;> rfl

theorem narrow_ok {x : CvtNarrowOps} {op : Nat} {k : CvtNarrowOps → Instr} (hop : op < 256)
    (hl : (x.fields op).layout = some ((x.fields op).narrowL k))
    (hok : x.ok = true) : RoundTrip (x.fields op) (k x) := by
  simp only [CvtNarrowOps.ok, Bool.and_eq_true, and_assoc] at hok
  obtain ⟨hg, hd, ha, hb, hc⟩ := hok
  have hz : x.mode.code < 8 := by have := mode_code x.mode; omega
  obtain ⟨m1, mh, m4, m3, m20, m0b, m1b, m2b, m0, m10⟩ :=
    raw_m x.h op x.a.code x.b.code x.c.code _ x.d.code x.alt x.sat (x.mode.code) hz rfl
  have td := takes_dst (h := x.h) hd
  have e := full hg hop m1 hl td.1 td.2.1 (fun _ => td.2.2) (takes_src ha) (takes_src hb) (takes_src hc)
    rfl (by
      simpa only [Raw.narrowL, CvtNarrowOps.fields, m20, decide_eq_true_eq] using (mode_code x.mode).1) rfl
  refine e.trans ?_
  simp only [Raw.narrowL, CvtNarrowOps.fields, Raw.mode, Raw.order, Raw.tile, Raw.cv, mh, m4, m3, m20, m0, m0b, m1b, m2b, m10, raw_dOp, raw_aOp, raw_bOp, raw_cOp, raw_aVz, raw_bVz, raw_cVz, raw_f, raw_c, mode_ofCode, order_ofCode, scope_ofCode, fmt_ofCode, cond_ofCode, cvtType_ofCode, memType_ofCode, atomOp_ofCode, voteMode_ofCode, sumType_ofCode, maxType_ofCode, prefKind_ofCode, tileFmt_ofCode] <;> rfl

theorem sum_ok {x : SumOps} {op : Nat} {scan : Bool} {k : SumOps → Instr} (hop : op < 256)
    (hl : (x.fields op).layout = some ((x.fields op).sumL scan k))
    (hok : x.ok scan = true) : RoundTrip (x.fields op) (k x) := by
  simp only [SumOps.ok, Bool.and_eq_true, and_assoc] at hok
  obtain ⟨hg, hd, ha, hn, hx, hf⟩ := hok
  have hz : x.mode.code < 8 := by have := mode_code x.mode; omega
  have hc := x.cv.isLt
  have ht := sumType_code x.ty
  obtain ⟨f1, f2, f3⟩ := low5 x.ty.code x.cv.val (by omega)
  have f4 : bits (x.ty.code * 32 + x.cv.val) 10 7 = 0 := by rw [bits_eq]; simp <;> omega
  have f5 : bits (x.ty.code * 32 + x.cv.val) 6 5 = x.ty.code := by rw [bits_eq]; simp <;> omega
  obtain ⟨m1, mh, m4, m3, m20, m0b, m1b, m2b, m0, m10⟩ :=
    raw_m x.h op x.a.code 0x490 (x.ty.code * 32 + x.cv.val) _ x.d.code x.excl x.sat (x.mode.code) hz rfl
  have td := takes_dst (h := x.h) hd
  have e := full hg hop m1 hl td.1 td.2.1 (fun _ => td.2.2) (takes_src ha) rfl (show _ < 2048 by omega)
    (by
      simp only [Raw.sumL, Raw.mz, SumOps.fields, m4, m3, m20, raw_f, f5, sumType_ofCode]
      cases hi : x.ty.isFloat <;> simp_all [Mode.code]) (by
      have := (mode_code x.mode).2 hn
      simp only [Raw.sumL, Raw.cvOk, SumOps.fields, m20, raw_f, f2, f4]
      simp <;> omega) rfl
  refine e.trans ?_
  simp only [Raw.sumL, SumOps.fields, f2, f5, Raw.mode, Raw.order, Raw.tile, Raw.cv, mh, m4, m3, m20, m0, m0b, m1b, m2b, m10, raw_dOp, raw_aOp, raw_bOp, raw_cOp, raw_aVz, raw_bVz, raw_cVz, raw_f, raw_c, mode_ofCode, order_ofCode, scope_ofCode, fmt_ofCode, cond_ofCode, cvtType_ofCode, memType_ofCode, atomOp_ofCode, voteMode_ofCode, sumType_ofCode, maxType_ofCode, prefKind_ofCode, tileFmt_ofCode, cv_ofNat] <;> rfl

theorem ld_ok {x : MemOps} {op : Nat} {k : MemOps → Instr} (hop : op < 256)
    (hl : (x.fields op).layout = some ((x.fields op).ldL k)) (hok : x.ldOk = true) : RoundTrip (x.fields op) (k x) := by
  simp only [MemOps.ldOk, Bool.and_eq_true, and_assoc] at hok
  obtain ⟨hg, hd, ha, hb, ho, hf, hq⟩ := hok
  have ht := memType_code x.ty
  have hs := scope_code x.scope
  have hor := order_code x.order
  have f1 : bits (x.scope.code * 16 + x.ty.code) 3 0 = x.ty.code := by rw [bits_eq]; simp <;> omega
  have f2 : bits (x.scope.code * 16 + x.ty.code) 6 4 = x.scope.code := by rw [bits_eq]; simp <;> omega
  have f3 : bits (x.scope.code * 16 + x.ty.code) 10 7 = 0 := by rw [bits_eq]; simp <;> omega
  obtain ⟨m1, mh, m4, m3, m20, m0b, m1b, m2b, m0, m10⟩ :=
    raw_m x.h op x.a.code x.b.code (x.scope.code * 16 + x.ty.code) x.order.code x.d.code false false x.order.code (by omega) (by simp)
  have hmem : (x.fields op).mem = x := by
    simp only [Raw.mem, MemOps.fields, f1, f2, Raw.mode, Raw.order, Raw.tile, Raw.cv, mh, m4, m3, m20, m0, m0b, m1b, m2b, m10, raw_dOp, raw_aOp, raw_bOp, raw_cOp, raw_aVz, raw_bVz, raw_cVz, raw_f, raw_c, mode_ofCode, order_ofCode, scope_ofCode, fmt_ofCode, cond_ofCode, cvtType_ofCode, memType_ofCode, atomOp_ofCode, voteMode_ofCode, sumType_ofCode, maxType_ofCode, prefKind_ofCode, tileFmt_ofCode]
  have hord : (x.fields op).order = x.order := by
    simp only [MemOps.fields, Raw.mode, Raw.order, Raw.tile, Raw.cv, mh, m4, m3, m20, m0, m0b, m1b, m2b, m10, raw_dOp, raw_aOp, raw_bOp, raw_cOp, raw_aVz, raw_bVz, raw_cVz, raw_f, raw_c, mode_ofCode, order_ofCode, scope_ofCode, fmt_ofCode, cond_ofCode, cvtType_ofCode, memType_ofCode, atomOp_ofCode, voteMode_ofCode, sumType_ofCode, maxType_ofCode, prefKind_ofCode, tileFmt_ofCode]
  have td := takes_dst (h := x.h) hd
  have e := full hg hop m1 hl td.1 td.2.1 (fun _ => td.2.2) (takes_src ha) (takes_src hb) (show _ < 2048 by omega)
    (by simp only [Raw.ldL, Raw.mz, MemOps.fields, m4, m3, m20]; rfl)
    (by
      simp only [Raw.ldL, Raw.memSub, hmem, hord, ho, hf]
      simp only [MemOps.fields, raw_f, f1, f2, f3, m20]
      simp <;> omega)
    (by simp only [Raw.ldL, hmem]; simp only [MemOps.fields, raw_dOp]; exact hq)
  refine e.trans ?_
  simp only [Raw.ldL, hmem]

theorem st_ok {x : MemOps} {op : Nat} {k : MemOps → Instr} (hop : op < 256)
    (hl : (x.fields op).layout = some ((x.fields op).stL k)) (hok : x.stOk = true) : RoundTrip (x.fields op) (k x) := by
  simp only [MemOps.stOk, Bool.and_eq_true, and_assoc] at hok
  obtain ⟨hg, hd, ha, hb, ho, hf, hs8, hs16, hq⟩ := hok
  have ht := memType_code x.ty
  have hs := scope_code x.scope
  have hor := order_code x.order
  have f1 : bits (x.scope.code * 16 + x.ty.code) 3 0 = x.ty.code := by rw [bits_eq]; simp <;> omega
  have f2 : bits (x.scope.code * 16 + x.ty.code) 6 4 = x.scope.code := by rw [bits_eq]; simp <;> omega
  have f3 : bits (x.scope.code * 16 + x.ty.code) 10 7 = 0 := by rw [bits_eq]; simp <;> omega
  obtain ⟨m1, mh, m4, m3, m20, m0b, m1b, m2b, m0, m10⟩ :=
    raw_m x.h op x.a.code x.b.code (x.scope.code * 16 + x.ty.code) x.order.code x.d.code false false x.order.code (by omega) (by simp)
  have hmem : (x.fields op).mem = x := by
    simp only [Raw.mem, MemOps.fields, f1, f2, Raw.mode, Raw.order, Raw.tile, Raw.cv, mh, m4, m3, m20, m0, m0b, m1b, m2b, m10, raw_dOp, raw_aOp, raw_bOp, raw_cOp, raw_aVz, raw_bVz, raw_cVz, raw_f, raw_c, mode_ofCode, order_ofCode, scope_ofCode, fmt_ofCode, cond_ofCode, cvtType_ofCode, memType_ofCode, atomOp_ofCode, voteMode_ofCode, sumType_ofCode, maxType_ofCode, prefKind_ofCode, tileFmt_ofCode]
  have hord : (x.fields op).order = x.order := by
    simp only [MemOps.fields, Raw.mode, Raw.order, Raw.tile, Raw.cv, mh, m4, m3, m20, m0, m0b, m1b, m2b, m10, raw_dOp, raw_aOp, raw_bOp, raw_cOp, raw_aVz, raw_bVz, raw_cVz, raw_f, raw_c, mode_ofCode, order_ofCode, scope_ofCode, fmt_ofCode, cond_ofCode, cvtType_ofCode, memType_ofCode, atomOp_ofCode, voteMode_ofCode, sumType_ofCode, maxType_ofCode, prefKind_ofCode, tileFmt_ofCode]
  have td := takes_dSrc (h := x.h) hd
  have e := full hg hop m1 hl td.1 td.2 (fun q => by cases q) (takes_src ha) (takes_src hb) (show _ < 2048 by omega)
    (by simp only [Raw.stL, Raw.mz, MemOps.fields, m4, m3, m20]; rfl)
    (by
      simp only [Raw.stL, Raw.memSub, hmem, hord, ho, hs8, hs16, hf]
      simp only [MemOps.fields, raw_f, f1, f2, f3, m20]
      simp <;> omega)
    (by simp only [Raw.stL, hmem]; simp only [MemOps.fields, raw_dOp]; exact hq)
  refine e.trans ?_
  simp only [Raw.stL, hmem]

theorem atom_ok {x : AtomOps} {op : Nat} {k : AtomOps → Instr} (hop : op < 256)
    (hl : (x.fields op).layout = some ((x.fields op).atomL k))
    (hok : x.ok = true) : RoundTrip (x.fields op) (k x) := by
  simp only [AtomOps.ok, Bool.and_eq_true, and_assoc] at hok
  obtain ⟨hg, hd, ha, hb, ho⟩ := hok
  have hz : x.order.code < 8 := by have := order_code x.order; omega
  have ht := atomOp_code x.op
  have hs := scope_code x.scope
  have hor := order_code x.order
  have f1 : bits (x.scope.code * 32 + x.op.code) 4 0 = x.op.code := by rw [bits_eq]; simp <;> omega
  have f2 : bits (x.scope.code * 32 + x.op.code) 7 5 = x.scope.code := by rw [bits_eq]; simp <;> omega
  have f3 : bits (x.scope.code * 32 + x.op.code) 10 8 = 0 := by rw [bits_eq]; simp <;> omega
  obtain ⟨m1, mh, m4, m3, m20, m0b, m1b, m2b, m0, m10⟩ :=
    raw_m x.h op x.a.code x.b.code (x.scope.code * 32 + x.op.code) x.order.code x.d.code false false (x.order.code) hz (by simp)
  have td := takes_dst (h := x.h) hd
  have e := full hg hop m1 hl td.1 td.2.1 (fun _ => td.2.2) (takes_src ha) (takes_src hb) (show _ < 2048 by omega)
    (by
      simp [Raw.mz, Raw.mz0, Raw.atomL, AtomOps.fields, m4, m3, m20]) (by
      simp only [Raw.atomL, Raw.order, AtomOps.fields, raw_f, f1, f2, f3, m20, order_ofCode, ho]; simp <;> omega) rfl
  refine e.trans ?_
  simp only [Raw.atomL, AtomOps.fields, f1, f2, Raw.mode, Raw.order, Raw.tile, Raw.cv, mh, m4, m3, m20, m0, m0b, m1b, m2b, m10, raw_dOp, raw_aOp, raw_bOp, raw_cOp, raw_aVz, raw_bVz, raw_cVz, raw_f, raw_c, mode_ofCode, order_ofCode, scope_ofCode, fmt_ofCode, cond_ofCode, cvtType_ofCode, memType_ofCode, atomOp_ofCode, voteMode_ofCode, sumType_ofCode, maxType_ofCode, prefKind_ofCode, tileFmt_ofCode] <;> rfl

theorem cas_ok {x : CasOps} {op : Nat} {mk : Bool} {k : CasOps → Instr} (hop : op < 256)
    (hl : (x.fields op).layout = some ((x.fields op).casL mk k))
    (hk : mk = true) (hok : x.ok = true) : RoundTrip (x.fields op) (k x) := by
  simp only [CasOps.ok, Bool.and_eq_true, and_assoc] at hok
  obtain ⟨hg, hd, ha, hb, ho⟩ := hok
  have hz : x.order.code < 8 := by have := order_code x.order; omega
  have hs := scope_code x.scope
  have hor := order_code x.order
  have f1 : bits (x.scope.code * 32) 4 0 = 0 := by rw [bits_eq]; simp <;> omega
  have f2 : bits (x.scope.code * 32) 7 5 = x.scope.code := by rw [bits_eq]; simp <;> omega
  have f3 : bits (x.scope.code * 32) 10 8 = 0 := by rw [bits_eq]; simp <;> omega
  obtain ⟨m1, mh, m4, m3, m20, m0b, m1b, m2b, m0, m10⟩ :=
    raw_m x.h op x.a.code x.b.code (x.scope.code * 32) x.order.code x.d.code false false (x.order.code) hz (by simp)
  have td := takes_dst (h := x.h) hd
  have e := full hg hop m1 hl td.1 td.2.1 (fun _ => td.2.2) (takes_src ha) (takes_src hb) (show _ < 2048 by omega)
    (by
      simp [Raw.mz, Raw.mz0, Raw.casL, CasOps.fields, m4, m3, m20]) (by
      simp only [Raw.casL, Raw.order, CasOps.fields, raw_f, f1, f2, f3, m20, order_ofCode, ho]; simp <;> omega) (by
      exact hk)
  refine e.trans ?_
  simp only [Raw.casL, CasOps.fields, f1, f2, Raw.mode, Raw.order, Raw.tile, Raw.cv, mh, m4, m3, m20, m0, m0b, m1b, m2b, m10, raw_dOp, raw_aOp, raw_bOp, raw_cOp, raw_aVz, raw_bVz, raw_cVz, raw_f, raw_c, mode_ofCode, order_ofCode, scope_ofCode, fmt_ofCode, cond_ofCode, cvtType_ofCode, memType_ofCode, atomOp_ofCode, voteMode_ofCode, sumType_ofCode, maxType_ofCode, prefKind_ofCode, tileFmt_ofCode] <;> rfl

theorem ctr_ok {x : CtrOps} {op : Nat} {uB : Bool} {ord : Order → Bool} {k : CtrOps → Instr} (hop : op < 256)
    (hl : (x.fields op).layout = some ((x.fields op).ctrL uB ord k))
    (hok : x.ok uB ord = true) : RoundTrip (x.fields op) (k x) := by
  simp only [CtrOps.ok, Bool.and_eq_true, and_assoc] at hok
  obtain ⟨hg, hd, ha, hb, ho⟩ := hok
  have hz : x.order.code < 8 := by have := order_code x.order; omega
  have hs := scope_code x.scope
  have hor := order_code x.order
  have hb' := Bool.toNat_lt x.scratch
  have f1 : bit (x.scope.code * 2 + x.scratch.toNat) 0 = x.scratch := by rw [bit_eq]; cases x.scratch <;> simp <;> omega
  have f2 : bits (x.scope.code * 2 + x.scratch.toNat) 3 1 = x.scope.code := by rw [bits_eq]; simp <;> omega
  have f3 : bits (x.scope.code * 2 + x.scratch.toNat) 10 4 = 0 := by rw [bits_eq]; simp <;> omega
  obtain ⟨m1, mh, m4, m3, m20, m0b, m1b, m2b, m0, m10⟩ :=
    raw_m x.h op x.a.code x.b.code (x.scope.code * 2 + x.scratch.toNat) x.order.code x.d.code false false (x.order.code) hz (by simp)
  have td := takes_dst (h := x.h) hd
  have e := full hg hop m1 hl td.1 td.2.1 (fun _ => td.2.2) (takes_src ha) (takes_if hb) (show _ < 2048 by omega)
    (by
      simp [Raw.mz, Raw.mz0, Raw.ctrL, CtrOps.fields, m4, m3, m20]) (by
      simp only [Raw.ctrL, Raw.order, CtrOps.fields, raw_f, f2, f3, m20, order_ofCode, ho]; simp <;> omega) rfl
  refine e.trans ?_
  simp only [Raw.ctrL, CtrOps.fields, f1, f2, Raw.mode, Raw.order, Raw.tile, Raw.cv, mh, m4, m3, m20, m0, m0b, m1b, m2b, m10, raw_dOp, raw_aOp, raw_bOp, raw_cOp, raw_aVz, raw_bVz, raw_cVz, raw_f, raw_c, mode_ofCode, order_ofCode, scope_ofCode, fmt_ofCode, cond_ofCode, cvtType_ofCode, memType_ofCode, atomOp_ofCode, voteMode_ofCode, sumType_ofCode, maxType_ofCode, prefKind_ofCode, tileFmt_ofCode] <;> rfl

theorem copy_ok {x : CopyOps} {op : Nat} {sr sat mo : Bool} {k : CopyOps → Instr} (hop : op < 256)
    (hl : (x.fields op).layout = some ((x.fields op).copyL sr sat mo k))
    (hok : x.ok sr sat mo = true) : RoundTrip (x.fields op) (k x) := by
  simp only [CopyOps.ok, Bool.and_eq_true, and_assoc] at hok
  obtain ⟨hg, ha, hb, hc, hr, hs, hm⟩ := hok
  have hz : x.mode.code < 8 := by have := mode_code x.mode; omega
  obtain ⟨m1, mh, m4, m3, m20, m0b, m1b, m2b, m0, m10⟩ :=
    raw_m x.h op x.a.code x.b.code x.c.code _ 0x490 x.csp x.sat (x.mode.code) hz rfl
  have e := full hg hop m1 hl rfl (by decide) (fun q => by cases q) (takes_src ha) (takes_src hb) (takes_src hc)
    (by
      simp only [Raw.copyL, Raw.mz, CopyOps.fields, m4, m3, m20]
      cases mo <;> simp_all [Mode.code]) (by
      have := mode_code x.mode
      simp only [Raw.copyL, CopyOps.fields, m20]
      cases sr <;> simp_all) rfl
  refine e.trans ?_
  simp only [Raw.copyL, CopyOps.fields, Raw.mode, Raw.order, Raw.tile, Raw.cv, mh, m4, m3, m20, m0, m0b, m1b, m2b, m10, raw_dOp, raw_aOp, raw_bOp, raw_cOp, raw_aVz, raw_bVz, raw_cVz, raw_f, raw_c, mode_ofCode, order_ofCode, scope_ofCode, fmt_ofCode, cond_ofCode, cvtType_ofCode, memType_ofCode, atomOp_ofCode, voteMode_ofCode, sumType_ofCode, maxType_ofCode, prefKind_ofCode, tileFmt_ofCode] <;> rfl

theorem tileWrite_ok {x : TileWriteOps} {op : Nat} {k : TileWriteOps → Instr} (hop : op < 256)
    (hl : (x.fields op).layout = some ((x.fields op).tileWriteL k))
    (hok : x.ok = true) : RoundTrip (x.fields op) (k x) := by
  simp only [TileWriteOps.ok, Bool.and_eq_true, and_assoc] at hok
  obtain ⟨hg, ha, hb, hn⟩ := hok
  have hz : x.mode.code < 8 := by have := mode_code x.mode; omega
  have hc := x.cv.isLt
  have ht := x.tile.isLt
  obtain ⟨f1, f2, f3⟩ := low5 x.tile.val x.cv.val (by omega)
  obtain ⟨m1, mh, m4, m3, m20, m0b, m1b, m2b, m0, m10⟩ :=
    raw_m x.h op x.a.code x.b.code (x.tile.val * 32 + x.cv.val) (x.raw.toNat * 16 + x.mode.code) 0x490 x.raw false (x.mode.code) hz (by simp)
  have e := full hg hop m1 hl rfl (by decide) (fun q => by cases q) (takes_src ha) (takes_src hb) (show _ < 2048 by omega)
    (by
      simp [Raw.mz, Raw.mz0, Raw.tileWriteL, TileWriteOps.fields, m4, m3, m20]) (by
      have := (mode_code x.mode).2 hn
      simp only [Raw.tileWriteL, Raw.cvOk, TileWriteOps.fields, raw_f, f2, m20]; simp <;> omega) rfl
  refine e.trans ?_
  simp only [Raw.tileWriteL, TileWriteOps.fields, f1 ht, f2, Raw.mode, Raw.order, Raw.tile, Raw.cv, mh, m4, m3, m20, m0, m0b, m1b, m2b, m10, raw_dOp, raw_aOp, raw_bOp, raw_cOp, raw_aVz, raw_bVz, raw_cVz, raw_f, raw_c, mode_ofCode, order_ofCode, scope_ofCode, fmt_ofCode, cond_ofCode, cvtType_ofCode, memType_ofCode, atomOp_ofCode, voteMode_ofCode, sumType_ofCode, maxType_ofCode, prefKind_ofCode, tileFmt_ofCode, cv_ofNat, tile_ofNat] <;> rfl

theorem tileRead_ok {x : TileReadOps} {op : Nat} {k : TileReadOps → Instr} (hop : op < 256)
    (hl : (x.fields op).layout = some ((x.fields op).tileReadL k))
    (hok : x.ok = true) : RoundTrip (x.fields op) (k x) := by
  simp only [TileReadOps.ok, Bool.and_eq_true, and_assoc] at hok
  obtain ⟨hg, hd, ha, hn⟩ := hok
  have hz : x.mode.code < 8 := by have := mode_code x.mode; omega
  have hc := x.cv.isLt
  have ht := x.tile.isLt
  obtain ⟨f1, f2, f3⟩ := low5 x.tile.val x.cv.val (by omega)
  obtain ⟨m1, mh, m4, m3, m20, m0b, m1b, m2b, m0, m10⟩ :=
    raw_m x.h op x.a.code 0x490 (x.tile.val * 32 + x.cv.val) _ x.d.code x.raw x.sat (x.mode.code) hz rfl
  have td := takes_dst (h := x.h) hd
  have e := full hg hop m1 hl td.1 td.2.1 (fun _ => td.2.2) (takes_src ha) rfl (show _ < 2048 by omega)
    rfl (by
      have := (mode_code x.mode).2 hn
      simp only [Raw.tileReadL, Raw.cvOk, TileReadOps.fields, raw_f, f2, m20]; simp <;> omega) rfl
  refine e.trans ?_
  simp only [Raw.tileReadL, TileReadOps.fields, f1 ht, f2, Raw.mode, Raw.order, Raw.tile, Raw.cv, mh, m4, m3, m20, m0, m0b, m1b, m2b, m10, raw_dOp, raw_aOp, raw_bOp, raw_cOp, raw_aVz, raw_bVz, raw_cVz, raw_f, raw_c, mode_ofCode, order_ofCode, scope_ofCode, fmt_ofCode, cond_ofCode, cvtType_ofCode, memType_ofCode, atomOp_ofCode, voteMode_ofCode, sumType_ofCode, maxType_ofCode, prefKind_ofCode, tileFmt_ofCode, cv_ofNat, tile_ofNat] <;> rfl

theorem tileMove_ok {x : TileMoveOps} {op : Nat} {sat : Bool} {k : TileMoveOps → Instr} (hop : op < 256)
    (hl : (x.fields op).layout = some ((x.fields op).tileMoveL sat k))
    (hok : x.ok sat = true) : RoundTrip (x.fields op) (k x) := by
  simp only [TileMoveOps.ok, Bool.and_eq_true, and_assoc] at hok
  obtain ⟨hg, hd, ha, hn, hs⟩ := hok
  have hz : x.mode.code < 8 := by have := mode_code x.mode; omega
  have hc := tileFmt_code x.fmt
  have ht := x.tile.isLt
  obtain ⟨f1, f2, f3⟩ := low5 x.tile.val x.fmt.code (by omega)
  have f4 : bits (x.tile.val * 32 + x.fmt.code) 4 2 = 0 := by rw [bits_eq]; simp <;> omega
  have f5 : bits (x.tile.val * 32 + x.fmt.code) 1 0 = x.fmt.code := by rw [bits_eq]; simp <;> omega
  obtain ⟨m1, mh, m4, m3, m20, m0b, m1b, m2b, m0, m10⟩ :=
    raw_m x.h op x.a.code 0x490 (x.tile.val * 32 + x.fmt.code) _ x.d.code x.csp x.sat (x.mode.code) hz rfl
  have td := takes_dSrc (h := x.h) hd
  have e := full hg hop m1 hl td.1 td.2 (fun q => by cases q) (takes_scratch ha) rfl (show _ < 2048 by omega)
    (by
      simp only [Raw.tileMoveL, Raw.mz, TileMoveOps.fields, m4, m3, m20]; simpa using hs) (by
      have := (mode_code x.mode).2 hn
      simp only [Raw.tileMoveL, TileMoveOps.fields, raw_f, f4, m20]; simp <;> omega) (by
      simpa only [Raw.tileMoveL, TileMoveOps.fields, raw_aOp] using ha)
  refine e.trans ?_
  simp only [Raw.tileMoveL, TileMoveOps.fields, f1 ht, f5, Raw.mode, Raw.order, Raw.tile, Raw.cv, mh, m4, m3, m20, m0, m0b, m1b, m2b, m10, raw_dOp, raw_aOp, raw_bOp, raw_cOp, raw_aVz, raw_bVz, raw_cVz, raw_f, raw_c, mode_ofCode, order_ofCode, scope_ofCode, fmt_ofCode, cond_ofCode, cvtType_ofCode, memType_ofCode, atomOp_ofCode, voteMode_ofCode, sumType_ofCode, maxType_ofCode, prefKind_ofCode, tileFmt_ofCode, tile_ofNat] <;> rfl

theorem swr_ok {x : SwrOps} (hok : x.ok = true) : RoundTrip x.fields (.swr x) := by
  simp only [SwrOps.ok, Bool.and_eq_true, and_assoc] at hok
  obtain ⟨hg, ha⟩ := hok
  obtain ⟨y, hy, hs⟩ := high1 x.sreg
  obtain ⟨m1, mh, m4, m3, m20, -⟩ :=
    raw_m x.h 0xD5 x.a.code 0x490 (x.sreg.toNat % 2048) (x.sreg.toNat / 2048 * 16) 0x490 y false 0 (by decide) (by rw [hy]; simp)
  have hl : (x.h.raw 0xD5 0x490 x.a.code 0x490 (x.sreg.toNat % 2048) (x.sreg.toNat / 2048 * 16)).layout = some _ :=
    (in_system (by decide)).trans rfl
  have e := full hg (by decide) m1 hl rfl (by decide) (fun q => by cases q) (takes_src ha) rfl (show _ < 2048 by omega)
    (by simp only [SwrOps.fields, Raw.mz, m4, m3, m20]; rfl) rfl rfl
  refine e.trans ?_
  simp only [Raw.swrOps, SwrOps.fields, mh, m4, raw_c, raw_dOp, raw_aOp, hs] <;> rfl

/-! ### One lemma per constructor -/

theorem nop (x : Op0) : Statement (.nop x) :=
  of_fields rfl (op0_ok (k := .nop) (by decide) ((in_control (by decide)).trans rfl))

theorem bra (x : OpA) : Statement (.bra x) :=
  of_fields rfl (opA_ok (k := .bra) (by decide) ((in_control (by decide)).trans rfl))

theorem brx (x : OpA) : Statement (.brx x) :=
  of_fields rfl (opA_ok (k := .brx) (by decide) ((in_control (by decide)).trans rfl))

theorem brq (x : OpA) : Statement (.brq x) :=
  of_fields rfl (opA_ok (k := .brq) (by decide) ((in_control (by decide)).trans rfl))

theorem call (x : OpDA) : Statement (.call x) := of_fields rfl fun hok => by
  simp only [Instr.wf, Bool.and_eq_true] at hok
  exact opDA_ok (k := .call) (by decide) ((in_control (by decide)).trans rfl)
    (by simpa only [OpDA.fields, raw_dOp] using hok.2) hok.1

theorem ret (x : OpA) : Statement (.ret x) :=
  of_fields rfl (opA_ok (k := .ret) (by decide) ((in_control (by decide)).trans rfl))

theorem skip (x : SkipOps) : Statement (.skip x) := of_fields rfl fun hok => by
  simp only [Instr.wf, Bool.and_eq_true, and_assoc] at hok
  have hg := hok
  have hn := x.n.isLt
  have f1 : bits x.n.val 10 3 = 0 := by rw [bits_eq]; simp <;> omega
  have f2 : bits x.n.val 2 0 = x.n.val := by rw [bits_eq]; simp <;> omega
  obtain ⟨m1, mh, m4, m3, m20, m0b, m1b, m2b, m0, m10⟩ :=
    raw_m x.h 0x06 0x490 0x490 x.n.val 0 0x490 false false (0) (by decide) (by simp)
  have hl : (x.h.raw 0x06 0x490 0x490 0x490 x.n.val 0).layout = some _ := ((in_control (by decide)).trans rfl)
  have e := full hg (by decide) m1 hl rfl (by decide) (fun q => by cases q) rfl rfl (show _ < 2048 by omega)
    (by
      simp [Raw.mz, Raw.mz0, Raw.op0, m4, m3, m20]) (by
      simp only [raw_f, f1]; rfl) rfl
  refine e.trans ?_
  simp only [f2, Raw.mode, Raw.order, Raw.tile, Raw.cv, mh, m4, m3, m20, m0, m0b, m1b, m2b, m10, raw_dOp, raw_aOp, raw_bOp, raw_cOp, raw_aVz, raw_bVz, raw_cVz, raw_f, raw_c, mode_ofCode, order_ofCode, scope_ofCode, fmt_ofCode, cond_ofCode, cvtType_ofCode, memType_ofCode, atomOp_ofCode, voteMode_ofCode, sumType_ofCode, maxType_ofCode, prefKind_ofCode, tileFmt_ofCode, fin_ofNat] <;> rfl

theorem exit (x : Op0) : Statement (.exit x) :=
  of_fields rfl (op0_ok (k := .exit) (by decide) ((in_control (by decide)).trans rfl))

theorem yield (x : Op0) : Statement (.yield x) :=
  of_fields rfl (op0_ok (k := .yield) (by decide) ((in_control (by decide)).trans rfl))

theorem sign (x : SignOps) : Statement (.sign x) := of_fields rfl fun hok => by
  simp only [Instr.wf, Bool.and_eq_true, and_assoc] at hok
  obtain ⟨hg, hd⟩ := hok
  have hc := x.cv.isLt
  obtain ⟨-, f2, -⟩ := low5 0 x.cv.val (by omega)
  have f1 : bits x.cv.val 10 5 = 0 := by rw [bits_eq]; simp <;> omega
  simp only [Nat.zero_mul, Nat.zero_add] at f2
  obtain ⟨m1, mh, m4, m3, m20, m0b, m1b, m2b, m0, m10⟩ :=
    raw_m x.h 0x09 0x490 0x490 x.cv.val 0 x.d.code false false (0) (by decide) (by simp)
  have td := takes_dst (h := x.h) hd
  have hl : (x.h.raw 0x09 x.d.code 0x490 0x490 x.cv.val 0).layout = some _ := ((in_control (by decide)).trans rfl)
  have e := full hg (by decide) m1 hl td.1 td.2.1 (fun _ => td.2.2) rfl rfl (show _ < 2048 by omega)
    (by
      simp [Raw.mz, Raw.mz0, Raw.op0, m4, m3, m20]) (by
      simp only [Raw.cvOk, raw_f, f1, f2]; simp <;> omega) rfl
  refine e.trans ?_
  simp only [f2, Raw.mode, Raw.order, Raw.tile, Raw.cv, mh, m4, m3, m20, m0, m0b, m1b, m2b, m10, raw_dOp, raw_aOp, raw_bOp, raw_cOp, raw_aVz, raw_bVz, raw_cVz, raw_f, raw_c, mode_ofCode, order_ofCode, scope_ofCode, fmt_ofCode, cond_ofCode, cvtType_ofCode, memType_ofCode, atomOp_ofCode, voteMode_ofCode, sumType_ofCode, maxType_ofCode, prefKind_ofCode, tileFmt_ofCode, cv_ofNat] <;> rfl

theorem cvset (x : CvsetOps) : Statement (.cvset x) := of_fields rfl fun hok => by
  simp only [Instr.wf, Bool.and_eq_true, and_assoc] at hok
  obtain ⟨hg, ha, hb⟩ := hok
  have hc := x.cv.isLt
  obtain ⟨-, f2, -⟩ := low5 0 x.cv.val (by omega)
  have f1 : bits x.cv.val 10 5 = 0 := by rw [bits_eq]; simp <;> omega
  simp only [Nat.zero_mul, Nat.zero_add] at f2
  obtain ⟨m1, mh, m4, m3, m20, m0b, m1b, m2b, m0, m10⟩ :=
    raw_m x.h 0x0A x.a.code x.b.code x.cv.val 0 0x490 false false (0) (by decide) (by simp)
  have hl : (x.h.raw 0x0A 0x490 x.a.code x.b.code x.cv.val 0).layout = some _ := ((in_control (by decide)).trans rfl)
  have e := full hg (by decide) m1 hl rfl (by decide) (fun q => by cases q) (takes_src ha) (takes_src hb) (show _ < 2048 by omega)
    (by
      simp [Raw.mz, Raw.mz0, Raw.opAB, m4, m3, m20]) (by
      simp only [raw_f, f1, f2]; simp <;> omega) rfl
  refine e.trans ?_
  simp only [f2, Raw.mode, Raw.order, Raw.tile, Raw.cv, mh, m4, m3, m20, m0, m0b, m1b, m2b, m10, raw_dOp, raw_aOp, raw_bOp, raw_cOp, raw_aVz, raw_bVz, raw_cVz, raw_f, raw_c, mode_ofCode, order_ofCode, scope_ofCode, fmt_ofCode, cond_ofCode, cvtType_ofCode, memType_ofCode, atomOp_ofCode, voteMode_ofCode, sumType_ofCode, maxType_ofCode, prefKind_ofCode, tileFmt_ofCode, fin_ofNat] <;> rfl

theorem prio (x : OpA) : Statement (.prio x) :=
  of_fields rfl (opA_ok (k := .prio) (by decide) ((in_control (by decide)).trans rfl))

theorem mov (x : IntOps) : Statement (.mov x) :=
  of_fields rfl (int_ok (k := .mov) (by decide) ((in_integer (by decide)).trans rfl))

theorem sel (x : IntOps) : Statement (.sel x) :=
  of_fields rfl (int_ok (k := .sel) (by decide) ((in_integer (by decide)).trans rfl))

theorem iadd (x : IntOps) : Statement (.iadd x) :=
  of_fields rfl (int_ok (k := .iadd) (by decide) ((in_integer (by decide)).trans rfl))

theorem isub (x : IntOps) : Statement (.isub x) :=
  of_fields rfl (int_ok (k := .isub) (by decide) ((in_integer (by decide)).trans rfl))

theorem imul (x : IntOps) : Statement (.imul x) :=
  of_fields rfl (int_ok (k := .imul) (by decide) ((in_integer (by decide)).trans rfl))

theorem imulh (x : IntOps) : Statement (.imulh x) :=
  of_fields rfl (int_ok (k := .imulh) (by decide) ((in_integer (by decide)).trans rfl))

theorem imad (x : IntOps) : Statement (.imad x) :=
  of_fields rfl (int_ok (k := .imad) (by decide) ((in_integer (by decide)).trans rfl))

theorem imin (x : IntOps) : Statement (.imin x) :=
  of_fields rfl (int_ok (k := .imin) (by decide) ((in_integer (by decide)).trans rfl))

theorem imax (x : IntOps) : Statement (.imax x) :=
  of_fields rfl (int_ok (k := .imax) (by decide) ((in_integer (by decide)).trans rfl))

theorem iabs (x : IntOps) : Statement (.iabs x) :=
  of_fields rfl (int_ok (k := .iabs) (by decide) ((in_integer (by decide)).trans rfl))

theorem and (x : IntOps) : Statement (.and x) :=
  of_fields rfl (int_ok (k := .and) (by decide) ((in_integer (by decide)).trans rfl))

theorem or (x : IntOps) : Statement (.or x) :=
  of_fields rfl (int_ok (k := .or) (by decide) ((in_integer (by decide)).trans rfl))

theorem xor (x : IntOps) : Statement (.xor x) :=
  of_fields rfl (int_ok (k := .xor) (by decide) ((in_integer (by decide)).trans rfl))

theorem shl (x : IntOps) : Statement (.shl x) :=
  of_fields rfl (int_ok (k := .shl) (by decide) ((in_integer (by decide)).trans rfl))

theorem shr (x : IntOps) : Statement (.shr x) :=
  of_fields rfl (int_ok (k := .shr) (by decide) ((in_integer (by decide)).trans rfl))

theorem sar (x : IntOps) : Statement (.sar x) :=
  of_fields rfl (int_ok (k := .sar) (by decide) ((in_integer (by decide)).trans rfl))

theorem popc (x : IntOps) : Statement (.popc x) :=
  of_fields rfl (int_ok (k := .popc) (by decide) ((in_integer (by decide)).trans rfl))

theorem clz (x : IntOps) : Statement (.clz x) :=
  of_fields rfl (int_ok (k := .clz) (by decide) ((in_integer (by decide)).trans rfl))

theorem brev (x : IntOps) : Statement (.brev x) :=
  of_fields rfl (int_ok (k := .brev) (by decide) ((in_integer (by decide)).trans rfl))

theorem bfe (x : IntOps) : Statement (.bfe x) :=
  of_fields rfl (int_ok (k := .bfe) (by decide) ((in_integer (by decide)).trans rfl))

theorem bfi (x : IntOps) : Statement (.bfi x) :=
  of_fields rfl (int_ok (k := .bfi) (by decide) ((in_integer (by decide)).trans rfl))

theorem icmp (x : IcmpOps) : Statement (.icmp x) := of_fields rfl fun hok => by
  simp only [Instr.wf, Bool.and_eq_true, and_assoc] at hok
  obtain ⟨hg, hd, ha, hb, hc⟩ := hok
  have hz : x.sgn.toNat < 8 := by have := Bool.toNat_lt x.sgn; omega
  have hc' := cond_code x.cond
  obtain ⟨m1, mh, m4, m3, m20, m0b, m1b, m2b, m0, m10⟩ :=
    raw_m x.h 0x25 x.a.code x.b.code x.cond.code (x.w64.toNat * 16 + x.sgn.toNat) x.d.code x.w64 false (x.sgn.toNat) hz (by simp)
  have td := takes_dst (h := x.h) hd
  have hl : (x.h.raw 0x25 x.d.code x.a.code x.b.code x.cond.code (x.w64.toNat * 16 + x.sgn.toNat)).layout = some _ := ((in_integer (by decide)).trans rfl)
  have e := full hg (by decide) m1 hl td.1 td.2.1 (fun _ => td.2.2) (takes_src ha) (takes_src hb) (show _ < 2048 by omega)
    (by
      simp only [Raw.intL, m4, m3, m20]; cases x.sgn <;> simp) (by
      simp only [raw_c]; exact decide_eq_true (hc'.2 hc)) rfl
  refine e.trans ?_
  simp only [Raw.mode, Raw.order, Raw.tile, Raw.cv, mh, m4, m3, m20, m0, m0b, m1b, m2b, m10, raw_dOp, raw_aOp, raw_bOp, raw_cOp, raw_aVz, raw_bVz, raw_cVz, raw_f, raw_c, mode_ofCode, order_ofCode, scope_ofCode, fmt_ofCode, cond_ofCode, cvtType_ofCode, memType_ofCode, atomOp_ofCode, voteMode_ofCode, sumType_ofCode, maxType_ofCode, prefKind_ofCode, tileFmt_ofCode]
  cases x with | mk h d a b c w g => cases g <;> rfl

theorem lea (x : LeaOps) : Statement (.lea x) := of_fields rfl fun hok => by
  simp only [Instr.wf, Bool.and_eq_true, and_assoc] at hok
  obtain ⟨hg, hd, ha, hb⟩ := hok
  have hz : x.sgn.toNat < 8 := by have := Bool.toNat_lt x.sgn; omega
  have hn := x.k.isLt
  have f1 : bits x.k.val 10 3 = 0 := by rw [bits_eq]; simp <;> omega
  have f2 : bits x.k.val 2 0 = x.k.val := by rw [bits_eq]; simp <;> omega
  obtain ⟨m1, mh, m4, m3, m20, m0b, m1b, m2b, m0, m10⟩ :=
    raw_m x.h 0x26 x.a.code x.b.code x.k.val x.sgn.toNat x.d.code false false (x.sgn.toNat) hz (by simp)
  have td := takes_dst (h := x.h) hd
  have hl : (x.h.raw 0x26 x.d.code x.a.code x.b.code x.k.val x.sgn.toNat).layout = some _ := ((in_integer (by decide)).trans rfl)
  have e := full hg (by decide) m1 hl td.1 td.2.1 (fun _ => td.2.2) (takes_src ha) (takes_src hb) (show _ < 2048 by omega)
    (by
      simp only [Raw.intL, m4, m3, m20]; cases x.sgn <;> simp) (by
      simp only [raw_f, f1]; rfl) rfl
  refine e.trans ?_
  simp only [f2, Raw.mode, Raw.order, Raw.tile, Raw.cv, mh, m4, m3, m20, m0, m0b, m1b, m2b, m10, raw_dOp, raw_aOp, raw_bOp, raw_cOp, raw_aVz, raw_bVz, raw_cVz, raw_f, raw_c, mode_ofCode, order_ofCode, scope_ofCode, fmt_ofCode, cond_ofCode, cvtType_ofCode, memType_ofCode, atomOp_ofCode, voteMode_ofCode, sumType_ofCode, maxType_ofCode, prefKind_ofCode, tileFmt_ofCode, fin_ofNat]
  cases x with | mk h d a b k g => cases g <;> rfl

theorem fadd (x : FloatOps) : Statement (.fadd x) :=
  of_fields rfl (float_ok (k := .fadd) (by decide) ((in_floating (by decide)).trans rfl))

theorem fsub (x : FloatOps) : Statement (.fsub x) :=
  of_fields rfl (float_ok (k := .fsub) (by decide) ((in_floating (by decide)).trans rfl))

theorem fmul (x : FloatOps) : Statement (.fmul x) :=
  of_fields rfl (float_ok (k := .fmul) (by decide) ((in_floating (by decide)).trans rfl))

theorem fma (x : FloatOps) : Statement (.fma x) :=
  of_fields rfl (float_ok (k := .fma) (by decide) ((in_floating (by decide)).trans rfl))

theorem fmin (x : FMinMaxOps) : Statement (.fmin x) :=
  of_fields rfl (minMax_ok (k := .fmin) (by decide) ((in_floating (by decide)).trans rfl))

theorem fmax (x : FMinMaxOps) : Statement (.fmax x) :=
  of_fields rfl (minMax_ok (k := .fmax) (by decide) ((in_floating (by decide)).trans rfl))

theorem fcmp (x : FcmpOps) : Statement (.fcmp x) :=
  of_fields rfl (fcmp_ok (k := .fcmp) (by decide) ((in_floating (by decide)).trans rfl))

theorem frnd (x : FrndOps) : Statement (.frnd x) := of_fields rfl fun hok => by
  simp only [Instr.wf, Bool.and_eq_true, and_assoc] at hok
  obtain ⟨hg, hd, ha, hn⟩ := hok
  have hz : x.mode.code < 8 := by have := mode_code x.mode; omega
  obtain ⟨m1, mh, m4, m3, m20, m0b, m1b, m2b, m0, m10⟩ :=
    raw_m x.h 0x37 x.a.code 0x490 0x490 x.mode.code x.d.code false false (x.mode.code) hz (by simp)
  have td := takes_dst (h := x.h) hd
  have hl : (x.h.raw 0x37 x.d.code x.a.code 0x490 0x490 x.mode.code).layout = some _ := ((in_floating (by decide)).trans rfl)
  have e := full hg (by decide) m1 hl td.1 td.2.1 (fun _ => td.2.2) (takes_src ha) rfl rfl
    (by
      simp only [Raw.mz, m4, m3, m20]; rfl) (by
      simp only [m20]; exact decide_eq_true ((mode_code x.mode).2 hn)) rfl
  refine e.trans ?_
  simp only [Raw.mode, Raw.order, Raw.tile, Raw.cv, mh, m4, m3, m20, m0, m0b, m1b, m2b, m10, raw_dOp, raw_aOp, raw_bOp, raw_cOp, raw_aVz, raw_bVz, raw_cVz, raw_f, raw_c, mode_ofCode, order_ofCode, scope_ofCode, fmt_ofCode, cond_ofCode, cvtType_ofCode, memType_ofCode, atomOp_ofCode, voteMode_ofCode, sumType_ofCode, maxType_ofCode, prefKind_ofCode, tileFmt_ofCode] <;> rfl

theorem dadd (x : FloatOps) : Statement (.dadd x) :=
  of_fields rfl (float_ok (k := .dadd) (by decide) ((in_floating (by decide)).trans rfl))

theorem dsub (x : FloatOps) : Statement (.dsub x) :=
  of_fields rfl (float_ok (k := .dsub) (by decide) ((in_floating (by decide)).trans rfl))

theorem dmul (x : FloatOps) : Statement (.dmul x) :=
  of_fields rfl (float_ok (k := .dmul) (by decide) ((in_floating (by decide)).trans rfl))

theorem dfma (x : FloatOps) : Statement (.dfma x) :=
  of_fields rfl (float_ok (k := .dfma) (by decide) ((in_floating (by decide)).trans rfl))

theorem dmin (x : FMinMaxOps) : Statement (.dmin x) :=
  of_fields rfl (minMax_ok (k := .dmin) (by decide) ((in_floating (by decide)).trans rfl))

theorem dmax (x : FMinMaxOps) : Statement (.dmax x) :=
  of_fields rfl (minMax_ok (k := .dmax) (by decide) ((in_floating (by decide)).trans rfl))

theorem dcmp (x : FcmpOps) : Statement (.dcmp x) :=
  of_fields rfl (fcmp_ok (k := .dcmp) (by decide) ((in_floating (by decide)).trans rfl))

theorem hadd2 (x : HalfOps) : Statement (.hadd2 x) :=
  of_fields rfl (half_ok (k := .hadd2) (by decide) ((in_floating (by decide)).trans rfl))

theorem hsub2 (x : HalfOps) : Statement (.hsub2 x) :=
  of_fields rfl (half_ok (k := .hsub2) (by decide) ((in_floating (by decide)).trans rfl))

theorem hmul2 (x : HalfOps) : Statement (.hmul2 x) :=
  of_fields rfl (half_ok (k := .hmul2) (by decide) ((in_floating (by decide)).trans rfl))

theorem hfma2 (x : HalfOps) : Statement (.hfma2 x) :=
  of_fields rfl (half_ok (k := .hfma2) (by decide) ((in_floating (by decide)).trans rfl))

theorem hmin2 (x : HMinMaxOps) : Statement (.hmin2 x) :=
  of_fields rfl (hminMax_ok (k := .hmin2) (by decide) ((in_floating (by decide)).trans rfl))

theorem hmax2 (x : HMinMaxOps) : Statement (.hmax2 x) :=
  of_fields rfl (hminMax_ok (k := .hmax2) (by decide) ((in_floating (by decide)).trans rfl))

theorem hcmp2 (x : HcmpOps) : Statement (.hcmp2 x) := of_fields rfl fun hok => by
  simp only [Instr.wf, HcmpOps.ok, Bool.and_eq_true, and_assoc] at hok
  obtain ⟨hg, hd, ha, hb⟩ := hok
  have hc := (cond_code x.cond).1
  obtain ⟨m1, mh, m4, m3, m20, m0b, m1b, m2b, m0, m10⟩ :=
    raw_m x.h 0x46 x.a.code x.b.code x.cond.code (x.f16.toNat * 16) x.d.code x.f16 false (0) (by decide) (by simp)
  have td := takes_dst (h := x.h) hd
  have hl : (x.h.raw 0x46 x.d.code x.a.code x.b.code x.cond.code (x.f16.toNat * 16)).layout = some _ := ((in_floating (by decide)).trans rfl)
  have e := full hg (by decide) m1 hl td.1 td.2.1 (fun _ => td.2.2) (takes_src ha) (takes_src hb) (show _ < 2048 by omega)
    (by
      simp only [Raw.mz, m4, m3, m20]; rfl) (by
      simp only [Raw.fcmpL, raw_c]; exact decide_eq_true hc) rfl
  refine e.trans ?_
  simp only [Raw.mode, Raw.order, Raw.tile, Raw.cv, mh, m4, m3, m20, m0, m0b, m1b, m2b, m10, raw_dOp, raw_aOp, raw_bOp, raw_cOp, raw_aVz, raw_bVz, raw_cVz, raw_f, raw_c, mode_ofCode, order_ofCode, scope_ofCode, fmt_ofCode, cond_ofCode, cvtType_ofCode, memType_ofCode, atomOp_ofCode, voteMode_ofCode, sumType_ofCode, maxType_ofCode, prefKind_ofCode, tileFmt_ofCode] <;> rfl

theorem exp2 (x : OpDA) : Statement (.exp2 x) :=
  of_fields rfl (opDA_ok (k := .exp2) (by decide) ((in_floating (by decide)).trans rfl) rfl)

theorem log2 (x : OpDA) : Statement (.log2 x) :=
  of_fields rfl (opDA_ok (k := .log2) (by decide) ((in_floating (by decide)).trans rfl) rfl)

theorem rcp (x : OpDA) : Statement (.rcp x) :=
  of_fields rfl (opDA_ok (k := .rcp) (by decide) ((in_floating (by decide)).trans rfl) rfl)

theorem rsq (x : OpDA) : Statement (.rsq x) :=
  of_fields rfl (opDA_ok (k := .rsq) (by decide) ((in_floating (by decide)).trans rfl) rfl)

theorem sqrt (x : OpDA) : Statement (.sqrt x) :=
  of_fields rfl (opDA_ok (k := .sqrt) (by decide) ((in_floating (by decide)).trans rfl) rfl)

theorem tanh (x : OpDA) : Statement (.tanh x) :=
  of_fields rfl (opDA_ok (k := .tanh) (by decide) ((in_floating (by decide)).trans rfl) rfl)

theorem cvt (x : CvtOps) : Statement (.cvt x) := of_fields rfl fun hok => by
  simp only [Instr.wf, CvtOps.ok, Bool.and_eq_true, and_assoc] at hok
  obtain ⟨hg, hd, ha, hb, hn⟩ := hok
  have hz : x.mode.code < 8 := by have := mode_code x.mode; omega
  have h1 := cvtType_code x.src
  have h2 := cvtType_code x.dst
  have f1 : bits (x.src.code * 16 + x.dst.code) 3 0 = x.dst.code := by rw [bits_eq]; simp <;> omega
  have f2 : bits (x.src.code * 16 + x.dst.code) 7 4 = x.src.code := by rw [bits_eq]; simp <;> omega
  have f3 : bits (x.src.code * 16 + x.dst.code) 10 8 = 0 := by rw [bits_eq]; simp <;> omega
  obtain ⟨m1, mh, m4, m3, m20, m0b, m1b, m2b, m0, m10⟩ :=
    raw_m x.h 0x50 x.a.code x.b.code (x.src.code * 16 + x.dst.code) (x.sat.toNat * 8 + x.mode.code) x.d.code false x.sat (x.mode.code) hz (by simp)
  have td := takes_dst (h := x.h) hd
  have hl : (x.h.raw 0x50 x.d.code x.a.code x.b.code (x.src.code * 16 + x.dst.code) (x.sat.toNat * 8 + x.mode.code)).layout = some _ := ((in_convert (by decide)).trans rfl)
  have e := full hg (by decide) m1 hl td.1 td.2.1 (fun _ => td.2.2) (takes_src ha) (takes_src hb) (show _ < 2048 by omega)
    (by
      simp only [Raw.mz, m4, m3, m20]; rfl) (by
      have hm := mode_code x.mode
      simp only [raw_f, f1, f2, f3, m20]
      rcases (by simpa using hn) with hq | hq
      · have := h2.2.1 hq; simp <;> omega
      · have := hm.2 hq; simp <;> omega) rfl
  refine e.trans ?_
  simp only [f1, f2, Raw.mode, Raw.order, Raw.tile, Raw.cv, mh, m4, m3, m20, m0, m0b, m1b, m2b, m10, raw_dOp, raw_aOp, raw_bOp, raw_cOp, raw_aVz, raw_bVz, raw_cVz, raw_f, raw_c, mode_ofCode, order_ofCode, scope_ofCode, fmt_ofCode, cond_ofCode, cvtType_ofCode, memType_ofCode, atomOp_ofCode, voteMode_ofCode, sumType_ofCode, maxType_ofCode, prefKind_ofCode, tileFmt_ofCode] <;> rfl

theorem cvtF8 (x : CvtNarrowOps) : Statement (.cvtF8 x) :=
  of_fields rfl (narrow_ok (k := .cvtF8) (by decide) ((in_convert (by decide)).trans rfl))

theorem cvtF6 (x : CvtNarrowOps) : Statement (.cvtF6 x) :=
  of_fields rfl (narrow_ok (k := .cvtF6) (by decide) ((in_convert (by decide)).trans rfl))

theorem cvtF4 (x : CvtNarrowOps) : Statement (.cvtF4 x) :=
  of_fields rfl (narrow_ok (k := .cvtF4) (by decide) ((in_convert (by decide)).trans rfl))

theorem mxqScale (x : GroupOps) : Statement (.mxqScale x) := of_fields rfl fun hok => by
  simp only [Instr.wf, GroupOps.mxqScaleOk, Bool.and_eq_true, and_assoc] at hok
  obtain ⟨hg, hd, ha, hb, hf⟩ := hok
  have hm := mode_code x.mode
  have hfc := fmt_code x.fmt
  have f1 : bits (1 * 16 + x.fmt.code) 3 0 = x.fmt.code := by rw [bits_eq]; simp <;> omega
  have f2 : bits (1 * 16 + x.fmt.code) 10 5 = 0 := by rw [bits_eq]; simp <;> omega
  have f3 : bits (1 * 16 + x.fmt.code) 10 5 = 0 := by rw [bits_eq]; simp <;> omega
  have f4 : bit (1 * 16 + x.fmt.code) 4 = true := by rw [bit_eq]; simp <;> omega
  obtain ⟨m1, mh, m4, m3, m20, m0b, m1b, m2b, m0, m10⟩ :=
    raw_m x.h 0x54 x.a.code x.b.code (1 * 16 + x.fmt.code) (x.sat.toNat * 8 + x.mode.code) x.d.code false x.sat x.mode.code (by omega) (by simp)
  have hgr : (x.h.raw 0x54 x.d.code x.a.code x.b.code (1 * 16 + x.fmt.code) (x.sat.toNat * 8 + x.mode.code)).group = x := by
    simp only [Raw.group, GroupOps.fields, f1, Raw.mode, Raw.order, Raw.tile, Raw.cv, mh, m4, m3, m20, m0, m0b, m1b, m2b, m10, raw_dOp, raw_aOp, raw_bOp, raw_cOp, raw_aVz, raw_bVz, raw_cVz, raw_f, raw_c, mode_ofCode, order_ofCode, scope_ofCode, fmt_ofCode, cond_ofCode, cvtType_ofCode, memType_ofCode, atomOp_ofCode, voteMode_ofCode, sumType_ofCode, maxType_ofCode, prefKind_ofCode, tileFmt_ofCode]
  have hb4 : bit (x.fields 0x54 1).c 4 = true := f4
  have td := takes_dst (h := x.h) hd
  have hl : (x.fields 0x54 1).layout = some _ := (in_convert (by decide)).trans (congrArg some (if_pos hb4))
  have e := full hg (by decide) m1 hl td.1 td.2.1 (fun _ => td.2.2) (takes_src ha) (by simp at hb; rw [hb]; rfl) (show _ < 2048 by omega)
    (by
      simp only [Raw.mz, GroupOps.fields, m4, m3, m20]; rfl)
    (by
      have := hfc.2.1 hf
      simp only [Raw.mxFmtOk, GroupOps.fields, raw_f, f1, f2, m20]; simp <;> omega)
    (by
      rfl)
  refine e.trans ?_
  simp only [hgr]; rfl

theorem mxq (x : GroupOps) : Statement (.mxq x) := of_fields rfl fun hok => by
  simp only [Instr.wf, GroupOps.mxqOk, Bool.and_eq_true, and_assoc] at hok
  obtain ⟨hg, hdg, hag, hb, hf⟩ := hok
  have hm := mode_code x.mode
  have hfc := fmt_code x.fmt
  have f1 : bits (0 * 16 + x.fmt.code) 3 0 = x.fmt.code := by rw [bits_eq]; simp <;> omega
  have f2 : bits (0 * 16 + x.fmt.code) 10 5 = 0 := by rw [bits_eq]; simp <;> omega
  have f3 : bits (0 * 16 + x.fmt.code) 10 4 = 0 := by rw [bits_eq]; simp <;> omega
  have f4 : bit (0 * 16 + x.fmt.code) 4 = false := by rw [bit_eq]; simp <;> omega
  obtain ⟨m1, mh, m4, m3, m20, m0b, m1b, m2b, m0, m10⟩ :=
    raw_m x.h 0x54 x.a.code x.b.code (0 * 16 + x.fmt.code) (x.sat.toNat * 8 + x.mode.code) x.d.code false x.sat x.mode.code (by omega) (by simp)
  have hgr : (x.h.raw 0x54 x.d.code x.a.code x.b.code (0 * 16 + x.fmt.code) (x.sat.toNat * 8 + x.mode.code)).group = x := by
    simp only [Raw.group, GroupOps.fields, f1, Raw.mode, Raw.order, Raw.tile, Raw.cv, mh, m4, m3, m20, m0, m0b, m1b, m2b, m10, raw_dOp, raw_aOp, raw_bOp, raw_cOp, raw_aVz, raw_bVz, raw_cVz, raw_f, raw_c, mode_ofCode, order_ofCode, scope_ofCode, fmt_ofCode, cond_ofCode, cvtType_ofCode, memType_ofCode, atomOp_ofCode, voteMode_ofCode, sumType_ofCode, maxType_ofCode, prefKind_ofCode, tileFmt_ofCode]
  have hb4 : bit (x.fields 0x54 0).c 4 = false := f4
  have hd := group_dst hdg
  have ha := hag
  have td := takes_dst (h := x.h) hd
  have hl : (x.fields 0x54 0).layout = some _ := (in_convert (by decide)).trans (congrArg some (if_neg (show ¬ (bit (x.fields 0x54 0).c 4 = true) by rw [hb4]; decide)))
  have e := full hg (by decide) m1 hl td.1 td.2.1 (fun _ => td.2.2) (takes_group ha) (takes_src hb) (show _ < 2048 by omega)
    (by
      simp only [Raw.mz, GroupOps.fields, m4, m3, m20]; rfl)
    (by
      have := hfc.2.1 hf
      simp only [Raw.mxFmtOk, GroupOps.fields, raw_f, f1, f2, m20]; simp <;> omega)
    (by
      simp only [hgr, raw_dOp, raw_aOp, hdg, hag, Bool.and_self])
  refine e.trans ?_
  simp only [hgr]; rfl

theorem mxd (x : GroupOps) : Statement (.mxd x) := of_fields rfl fun hok => by
  simp only [Instr.wf, GroupOps.mxdOk, Bool.and_eq_true, and_assoc] at hok
  obtain ⟨hg, hd, ha, hb, hf, hn⟩ := hok
  have hm := mode_code x.mode
  have hfc := fmt_code x.fmt
  have f1 : bits (0 * 16 + x.fmt.code) 3 0 = x.fmt.code := by rw [bits_eq]; simp <;> omega
  have f2 : bits (0 * 16 + x.fmt.code) 10 5 = 0 := by rw [bits_eq]; simp <;> omega
  have f3 : bits (0 * 16 + x.fmt.code) 10 4 = 0 := by rw [bits_eq]; simp <;> omega
  have f4 : bit (0 * 16 + x.fmt.code) 4 = false := by rw [bit_eq]; simp <;> omega
  obtain ⟨m1, mh, m4, m3, m20, m0b, m1b, m2b, m0, m10⟩ :=
    raw_m x.h 0x55 x.a.code x.b.code (0 * 16 + x.fmt.code) (x.sat.toNat * 8 + x.mode.code) x.d.code false x.sat x.mode.code (by omega) (by simp)
  have hgr : (x.h.raw 0x55 x.d.code x.a.code x.b.code (0 * 16 + x.fmt.code) (x.sat.toNat * 8 + x.mode.code)).group = x := by
    simp only [Raw.group, GroupOps.fields, f1, Raw.mode, Raw.order, Raw.tile, Raw.cv, mh, m4, m3, m20, m0, m0b, m1b, m2b, m10, raw_dOp, raw_aOp, raw_bOp, raw_cOp, raw_aVz, raw_bVz, raw_cVz, raw_f, raw_c, mode_ofCode, order_ofCode, scope_ofCode, fmt_ofCode, cond_ofCode, cvtType_ofCode, memType_ofCode, atomOp_ofCode, voteMode_ofCode, sumType_ofCode, maxType_ofCode, prefKind_ofCode, tileFmt_ofCode]
  have hb4 : bit (x.fields 0x55 0).c 4 = false := f4
  have td := takes_dst (h := x.h) hd
  have hl : (x.fields 0x55 0).layout = some _ := (in_convert (by decide)).trans rfl
  have e := full hg (by decide) m1 hl td.1 td.2.1 (fun _ => td.2.2) (takes_group ha) (takes_src hb) (show _ < 2048 by omega)
    (by
      simp only [Raw.mz, GroupOps.fields, m4, m3, m20]; rfl)
    (by
      have := hfc.2.1 hf
      have := hm.2 hn
      simp only [Raw.mxFmtOk, GroupOps.fields, raw_f, f1, f3, m20]; simp <;> omega)
    (by
      simp only [hgr, raw_aOp, ha])
  refine e.trans ?_
  simp only [hgr]; rfl

theorem unpk (x : GroupOps) : Statement (.unpk x) := of_fields rfl fun hok => by
  simp only [Instr.wf, GroupOps.unpkOk, Bool.and_eq_true, and_assoc] at hok
  obtain ⟨hg, hd, ha, hb, hf, hs, hn⟩ := hok
  have hm := mode_code x.mode
  have hfc := fmt_code x.fmt
  have f1 : bits (0 * 16 + x.fmt.code) 3 0 = x.fmt.code := by rw [bits_eq]; simp <;> omega
  have f2 : bits (0 * 16 + x.fmt.code) 10 5 = 0 := by rw [bits_eq]; simp <;> omega
  have f3 : bits (0 * 16 + x.fmt.code) 10 4 = 0 := by rw [bits_eq]; simp <;> omega
  have f4 : bit (0 * 16 + x.fmt.code) 4 = false := by rw [bit_eq]; simp <;> omega
  obtain ⟨m1, mh, m4, m3, m20, m0b, m1b, m2b, m0, m10⟩ :=
    raw_m x.h 0x56 x.a.code x.b.code (0 * 16 + x.fmt.code) (x.sat.toNat * 8 + x.mode.code) x.d.code false x.sat x.mode.code (by omega) (by simp)
  have hgr : (x.h.raw 0x56 x.d.code x.a.code x.b.code (0 * 16 + x.fmt.code) (x.sat.toNat * 8 + x.mode.code)).group = x := by
    simp only [Raw.group, GroupOps.fields, f1, Raw.mode, Raw.order, Raw.tile, Raw.cv, mh, m4, m3, m20, m0, m0b, m1b, m2b, m10, raw_dOp, raw_aOp, raw_bOp, raw_cOp, raw_aVz, raw_bVz, raw_cVz, raw_f, raw_c, mode_ofCode, order_ofCode, scope_ofCode, fmt_ofCode, cond_ofCode, cvtType_ofCode, memType_ofCode, atomOp_ofCode, voteMode_ofCode, sumType_ofCode, maxType_ofCode, prefKind_ofCode, tileFmt_ofCode]
  have hb4 : bit (x.fields 0x56 0).c 4 = false := f4
  have td := takes_dst (h := x.h) hd
  have hl : (x.fields 0x56 0).layout = some _ := (in_convert (by decide)).trans rfl
  have e := full hg (by decide) m1 hl td.1 td.2.1 (fun _ => td.2.2) (takes_group ha) (takes_src hb) (show _ < 2048 by omega)
    (by
      simp only [Raw.mz, GroupOps.fields, m4, m3, m20]; simp_all [Mode.code])
    (by
      have := hfc.2.2 hf
      simp only [Raw.unpkFmtOk, GroupOps.fields, raw_f, f1, f3]; simp <;> omega)
    (by
      simp only [hgr, raw_aOp, ha])
  refine e.trans ?_
  simp only [hgr]; rfl

theorem pack (x : PackOps) : Statement (.pack x) := of_fields rfl fun hok => by
  simp only [Instr.wf, PackOps.ok, Bool.and_eq_true, and_assoc] at hok
  obtain ⟨hg, hd, ha, hb, hn⟩ := hok
  have hz : x.mode.code < 8 := by have := mode_code x.mode; omega
  have hb' := Bool.toNat_lt x.f16
  have f1 : bit x.f16.toNat 0 = x.f16 := by cases x.f16 <;> rfl
  obtain ⟨m1, mh, m4, m3, m20, m0b, m1b, m2b, m0, m10⟩ :=
    raw_m x.h 0x57 x.a.code x.b.code x.f16.toNat (x.sat.toNat * 8 + x.mode.code) x.d.code false x.sat (x.mode.code) hz (by simp)
  have td := takes_dst (h := x.h) hd
  have hl : (x.h.raw 0x57 x.d.code x.a.code x.b.code x.f16.toNat (x.sat.toNat * 8 + x.mode.code)).layout = some _ := ((in_convert (by decide)).trans rfl)
  have e := full hg (by decide) m1 hl td.1 td.2.1 (fun _ => td.2.2) (takes_src ha) (takes_src hb) (show _ < 2048 by omega)
    (by
      simp only [Raw.mz, m4, m3, m20]; rfl) (by
      have := (mode_code x.mode).2 hn
      simp only [raw_c, m20]
      exact Bool.and_eq_true_iff.2 ⟨decide_eq_true (by omega), decide_eq_true this⟩) rfl
  refine e.trans ?_
  simp only [f1, Raw.mode, Raw.order, Raw.tile, Raw.cv, mh, m4, m3, m20, m0, m0b, m1b, m2b, m10, raw_dOp, raw_aOp, raw_bOp, raw_cOp, raw_aVz, raw_bVz, raw_cVz, raw_f, raw_c, mode_ofCode, order_ofCode, scope_ofCode, fmt_ofCode, cond_ofCode, cvtType_ofCode, memType_ofCode, atomOp_ofCode, voteMode_ofCode, sumType_ofCode, maxType_ofCode, prefKind_ofCode, tileFmt_ofCode] <;> rfl

theorem qx (x : QxOps) : Statement (.qx x) := of_fields rfl fun hok => by
  simp only [Instr.wf, Bool.and_eq_true, and_assoc] at hok
  obtain ⟨hg, hd, ha, hb⟩ := hok
  have hc := x.cv.isLt
  have hx := Bool.toNat_lt x.xor
  obtain ⟨-, f2, -⟩ := low5 x.xor.toNat x.cv.val (by omega)
  have f1 : bits (x.xor.toNat * 32 + x.cv.val) 10 6 = 0 := by rw [bits_eq]; simp <;> omega
  have f3 : bit (x.xor.toNat * 32 + x.cv.val) 5 = x.xor := by rw [bit_eq]; cases x.xor <;> simp <;> omega
  obtain ⟨m1, mh, m4, m3, m20, m0b, m1b, m2b, m0, m10⟩ :=
    raw_m x.h 0x60 x.a.code x.b.code (x.xor.toNat * 32 + x.cv.val) 0 x.d.code false false (0) (by decide) (by simp)
  have td := takes_dst (h := x.h) hd
  have hl : (x.h.raw 0x60 x.d.code x.a.code x.b.code (x.xor.toNat * 32 + x.cv.val) 0).layout = some _ := ((in_cross (by decide)).trans rfl)
  have e := full hg (by decide) m1 hl td.1 td.2.1 (fun _ => td.2.2) (takes_src ha) (takes_src hb) (show _ < 2048 by omega)
    (by
      simp only [Raw.mz, m4, m3, m20]; rfl) (by
      simp only [Raw.cvOk, raw_f, f1, f2]; simp <;> omega) rfl
  refine e.trans ?_
  simp only [f2, f3, Raw.mode, Raw.order, Raw.tile, Raw.cv, mh, m4, m3, m20, m0, m0b, m1b, m2b, m10, raw_dOp, raw_aOp, raw_bOp, raw_cOp, raw_aVz, raw_bVz, raw_cVz, raw_f, raw_c, mode_ofCode, order_ofCode, scope_ofCode, fmt_ofCode, cond_ofCode, cvtType_ofCode, memType_ofCode, atomOp_ofCode, voteMode_ofCode, sumType_ofCode, maxType_ofCode, prefKind_ofCode, tileFmt_ofCode, cv_ofNat] <;> rfl

theorem perm (x : PermOps) : Statement (.perm x) := of_fields rfl fun hok => by
  simp only [Instr.wf, Bool.and_eq_true, and_assoc] at hok
  obtain ⟨hg, hd, ha, hb⟩ := hok
  have hc := x.cv.isLt
  obtain ⟨-, f2, -⟩ := low5 0 x.cv.val (by omega)
  have f1 : bits x.cv.val 10 5 = 0 := by rw [bits_eq]; simp <;> omega
  simp only [Nat.zero_mul, Nat.zero_add] at f2
  obtain ⟨m1, mh, m4, m3, m20, m0b, m1b, m2b, m0, m10⟩ :=
    raw_m x.h 0x61 x.a.code x.b.code x.cv.val 0 x.d.code false false (0) (by decide) (by simp)
  have td := takes_dst (h := x.h) hd
  have hl : (x.h.raw 0x61 x.d.code x.a.code x.b.code x.cv.val 0).layout = some _ := ((in_cross (by decide)).trans rfl)
  have e := full hg (by decide) m1 hl td.1 td.2.1 (fun _ => td.2.2) (takes_src ha) (takes_src hb) (show _ < 2048 by omega)
    (by
      simp only [Raw.mz, m4, m3, m20]; rfl) (by
      simp only [Raw.cvOk, raw_f, f1, f2]; simp <;> omega) rfl
  refine e.trans ?_
  simp only [f2, Raw.mode, Raw.order, Raw.tile, Raw.cv, mh, m4, m3, m20, m0, m0b, m1b, m2b, m10, raw_dOp, raw_aOp, raw_bOp, raw_cOp, raw_aVz, raw_bVz, raw_cVz, raw_f, raw_c, mode_ofCode, order_ofCode, scope_ofCode, fmt_ofCode, cond_ofCode, cvtType_ofCode, memType_ofCode, atomOp_ofCode, voteMode_ofCode, sumType_ofCode, maxType_ofCode, prefKind_ofCode, tileFmt_ofCode, cv_ofNat] <;> rfl

theorem ptld (x : OpA) : Statement (.ptld x) :=
  of_fields rfl (opA_ok (k := .ptld) (by decide) ((in_cross (by decide)).trans rfl))

theorem vote (x : VoteOps) : Statement (.vote x) := of_fields rfl fun hok => by
  simp only [Instr.wf, Bool.and_eq_true, and_assoc] at hok
  obtain ⟨hg, hd, ha⟩ := hok
  have hc := x.cv.isLt
  have hx := voteMode_code x.mode
  obtain ⟨-, f2, -⟩ := low5 x.mode.code x.cv.val (by omega)
  have f1 : bits (x.mode.code * 32 + x.cv.val) 10 7 = 0 := by rw [bits_eq]; simp <;> omega
  have f3 : bits (x.mode.code * 32 + x.cv.val) 6 5 = x.mode.code := by rw [bits_eq]; simp <;> omega
  obtain ⟨m1, mh, m4, m3, m20, m0b, m1b, m2b, m0, m10⟩ :=
    raw_m x.h 0x63 x.a.code 0x490 (x.mode.code * 32 + x.cv.val) 0 x.d.code false false (0) (by decide) (by simp)
  have td := takes_dst (h := x.h) hd
  have hl : (x.h.raw 0x63 x.d.code x.a.code 0x490 (x.mode.code * 32 + x.cv.val) 0).layout = some _ := ((in_cross (by decide)).trans rfl)
  have e := full hg (by decide) m1 hl td.1 td.2.1 (fun _ => td.2.2) (takes_src ha) rfl (show _ < 2048 by omega)
    (by
      simp only [Raw.mz, m4, m3, m20]; rfl) (by
      simp only [Raw.cvOk, raw_f, f1, f2]; simp <;> omega) rfl
  refine e.trans ?_
  simp only [f2, f3, Raw.mode, Raw.order, Raw.tile, Raw.cv, mh, m4, m3, m20, m0, m0b, m1b, m2b, m10, raw_dOp, raw_aOp, raw_bOp, raw_cOp, raw_aVz, raw_bVz, raw_cVz, raw_f, raw_c, mode_ofCode, order_ofCode, scope_ofCode, fmt_ofCode, cond_ofCode, cvtType_ofCode, memType_ofCode, atomOp_ofCode, voteMode_ofCode, sumType_ofCode, maxType_ofCode, prefKind_ofCode, tileFmt_ofCode, cv_ofNat] <;> rfl

theorem wsum (x : SumOps) : Statement (.wsum x) :=
  of_fields rfl (sum_ok (k := .wsum) (by decide) ((in_cross (by decide)).trans rfl))

theorem wmax (x : MaxOps) : Statement (.wmax x) := of_fields rfl fun hok => by
  simp only [Instr.wf, Bool.and_eq_true, and_assoc] at hok
  obtain ⟨hg, hd, ha⟩ := hok
  have hc := x.cv.isLt
  have hx := maxType_code x.ty
  obtain ⟨-, f2, -⟩ := low5 x.ty.code x.cv.val (by omega)
  have f1 : bits (x.ty.code * 32 + x.cv.val) 10 8 = 0 := by rw [bits_eq]; simp <;> omega
  have f3 : bits (x.ty.code * 32 + x.cv.val) 7 5 = x.ty.code := by rw [bits_eq]; simp <;> omega
  obtain ⟨m1, mh, m4, m3, m20, m0b, m1b, m2b, m0, m10⟩ :=
    raw_m x.h 0x65 x.a.code 0x490 (x.ty.code * 32 + x.cv.val) (x.min.toNat * 16) x.d.code x.min false (0) (by decide) (by simp)
  have td := takes_dst (h := x.h) hd
  have hl : (x.h.raw 0x65 x.d.code x.a.code 0x490 (x.ty.code * 32 + x.cv.val) (x.min.toNat * 16)).layout = some _ := ((in_cross (by decide)).trans rfl)
  have e := full hg (by decide) m1 hl td.1 td.2.1 (fun _ => td.2.2) (takes_src ha) rfl (show _ < 2048 by omega)
    (by
      simp only [Raw.mz, m4, m3, m20]; rfl) (by
      simp only [Raw.cvOk, raw_f, f1, f2, f3]; simp <;> omega) rfl
  refine e.trans ?_
  simp only [f2, f3, Raw.mode, Raw.order, Raw.tile, Raw.cv, mh, m4, m3, m20, m0, m0b, m1b, m2b, m10, raw_dOp, raw_aOp, raw_bOp, raw_cOp, raw_aVz, raw_bVz, raw_cVz, raw_f, raw_c, mode_ofCode, order_ofCode, scope_ofCode, fmt_ofCode, cond_ofCode, cvtType_ofCode, memType_ofCode, atomOp_ofCode, voteMode_ofCode, sumType_ofCode, maxType_ofCode, prefKind_ofCode, tileFmt_ofCode, cv_ofNat] <;> rfl

theorem wscan (x : SumOps) : Statement (.wscan x) :=
  of_fields rfl (sum_ok (k := .wscan) (by decide) ((in_cross (by decide)).trans rfl))

theorem ldG (x : MemOps) : Statement (.ldG x) :=
  of_fields rfl (ld_ok (k := .ldG) (by decide) ((in_memory (by decide)).trans rfl))

theorem ldS (x : MemOps) : Statement (.ldS x) :=
  of_fields rfl (ld_ok (k := .ldS) (by decide) ((in_memory (by decide)).trans rfl))

theorem stG (x : MemOps) : Statement (.stG x) :=
  of_fields rfl (st_ok (k := .stG) (by decide) ((in_memory (by decide)).trans rfl))

theorem stS (x : MemOps) : Statement (.stS x) :=
  of_fields rfl (st_ok (k := .stS) (by decide) ((in_memory (by decide)).trans rfl))

theorem pref (x : PrefOps) : Statement (.pref x) := of_fields rfl fun hok => by
  simp only [Instr.wf, Bool.and_eq_true, and_assoc] at hok
  obtain ⟨hg, ha, hb⟩ := hok
  have hx := prefKind_code x.kind
  have f1 : bits x.kind.code 10 2 = 0 := by rw [bits_eq]; simp <;> omega
  have f2 : bits x.kind.code 1 0 = x.kind.code := by rw [bits_eq]; simp <;> omega
  obtain ⟨m1, mh, m4, m3, m20, m0b, m1b, m2b, m0, m10⟩ :=
    raw_m x.h 0x74 x.a.code x.b.code x.kind.code 0 0x490 false false (0) (by decide) (by simp)
  have hl : (x.h.raw 0x74 0x490 x.a.code x.b.code x.kind.code 0).layout = some _ := ((in_memory (by decide)).trans rfl)
  have e := full hg (by decide) m1 hl rfl (by decide) (fun q => by cases q) (takes_src ha) (takes_src hb) (show _ < 2048 by omega)
    (by
      simp [Raw.mz, Raw.mz0, Raw.opAB, m4, m3, m20]) (by
      simp only [raw_f, f1, f2]; simp <;> omega) rfl
  refine e.trans ?_
  simp only [f2, Raw.mode, Raw.order, Raw.tile, Raw.cv, mh, m4, m3, m20, m0, m0b, m1b, m2b, m10, raw_dOp, raw_aOp, raw_bOp, raw_cOp, raw_aVz, raw_bVz, raw_cVz, raw_f, raw_c, mode_ofCode, order_ofCode, scope_ofCode, fmt_ofCode, cond_ofCode, cvtType_ofCode, memType_ofCode, atomOp_ofCode, voteMode_ofCode, sumType_ofCode, maxType_ofCode, prefKind_ofCode, tileFmt_ofCode] <;> rfl

theorem llcLock (x : OpDAB) : Statement (.llcLock x) := of_fields rfl fun hok => by
  simp only [Instr.wf, OpDAB.ok, Bool.and_eq_true, and_assoc] at hok
  obtain ⟨hg, hd, ha, hb⟩ := hok
  obtain ⟨m1, mh, m4, m3, m20, m0b, m1b, m2b, m0, m10⟩ :=
    raw_m x.h 0x75 x.a.code x.b.code 0x490 0 x.d.code false false (0) (by decide) (by simp)
  have td := takes_dst (h := x.h) hd
  have hl : (x.h.raw 0x75 x.d.code x.a.code x.b.code 0x490 0).layout = some _ := ((in_memory (by decide)).trans rfl)
  have e := full hg (by decide) m1 hl td.1 td.2.1 (fun _ => td.2.2) (takes_src ha) (takes_src hb) rfl
    (by
      simp [Raw.mz, Raw.mz0, Raw.opAB, OpDAB.fields, m4, m3, m20]) rfl rfl
  refine e.trans ?_
  simp only [OpDAB.fields, Raw.mode, Raw.order, Raw.tile, Raw.cv, mh, m4, m3, m20, m0, m0b, m1b, m2b, m10, raw_dOp, raw_aOp, raw_bOp, raw_cOp, raw_aVz, raw_bVz, raw_cVz, raw_f, raw_c, mode_ofCode, order_ofCode, scope_ofCode, fmt_ofCode, cond_ofCode, cvtType_ofCode, memType_ofCode, atomOp_ofCode, voteMode_ofCode, sumType_ofCode, maxType_ofCode, prefKind_ofCode, tileFmt_ofCode] <;> rfl

theorem llcUnlock (x : OpDAB) : Statement (.llcUnlock x) := of_fields rfl fun hok => by
  simp only [Instr.wf, OpDAB.ok, Bool.and_eq_true, and_assoc] at hok
  obtain ⟨hg, hd, ha, hb⟩ := hok
  obtain ⟨m1, mh, m4, m3, m20, -⟩ := raw_m x.h 0x76 x.a.code x.b.code 0 0 x.d.code false false 0 (by decide) rfl
  have td := takes_dst (h := x.h) hd
  have hl : (x.fields 0x76 0 0).layout = some _ := (in_memory (by decide)).trans (congrArg some (if_neg (show ¬ (bit 0 0 = true) by decide)))
  have e := full hg (by decide) m1 hl td.1 td.2.1
    (fun _ => td.2.2) (takes_src ha) (takes_src hb) (show _ < 2048 by decide)
    (by simp only [Raw.opAB, Raw.mz, m4, m3, m20]; rfl) (decide_eq_true (show bits 0 10 1 = 0 by decide)) rfl
  refine e.trans ?_
  simp only [mh, raw_dOp, raw_aOp, raw_bOp] <;> rfl

theorem llcUnlockAll (x : OpD) : Statement (.llcUnlockAll x) := of_fields rfl fun hok => by
  simp only [Instr.wf, OpD.ok, Bool.and_eq_true, and_assoc] at hok
  obtain ⟨hg, hd⟩ := hok
  obtain ⟨m1, mh, m4, m3, m20, -⟩ := raw_m x.h 0x76 0x490 0x490 1 0 x.d.code false false 0 (by decide) rfl
  have td := takes_dst (h := x.h) hd
  have hl : (x.fields 0x76 1).layout = some _ := (in_memory (by decide)).trans (congrArg some (if_pos (show bit 1 0 = true by decide)))
  have e := full hg (by decide) m1 hl td.1 td.2.1
    (fun _ => td.2.2) rfl rfl (show _ < 2048 by decide)
    (by simp only [Raw.opD, Raw.mz, m4, m3, m20]; rfl) (decide_eq_true (show bits 1 10 1 = 0 by decide)) rfl
  refine e.trans ?_
  simp only [Raw.opD, mh, raw_dOp] <;> rfl

theorem fence (x : FenceOps) : Statement (.fence x) := of_fields rfl fun hok => by
  simp only [Instr.wf, Bool.and_eq_true, and_assoc] at hok
  obtain ⟨hg, ho⟩ := hok
  have hz : x.order.code < 8 := by have := order_code x.order; omega
  have hs := scope_code x.scope
  have hor := order_code x.order
  have f1 : bits x.scope.code 10 3 = 0 := by rw [bits_eq]; simp <;> omega
  have f2 : bits x.scope.code 2 0 = x.scope.code := by rw [bits_eq]; simp <;> omega
  obtain ⟨m1, mh, m4, m3, m20, m0b, m1b, m2b, m0, m10⟩ :=
    raw_m x.h 0x77 0x490 0x490 x.scope.code x.order.code 0x490 false false (x.order.code) hz (by simp)
  have hl : (x.h.raw 0x77 0x490 0x490 0x490 x.scope.code x.order.code).layout = some _ := ((in_memory (by decide)).trans rfl)
  have e := full hg (by decide) m1 hl rfl (by decide) (fun q => by cases q) rfl rfl (show _ < 2048 by omega)
    (by
      simp only [Raw.mz, m4, m3, m20]; rfl) (by
      simp only [Raw.order, raw_f, f1, f2, m20, order_ofCode, ho]; simp <;> omega) rfl
  refine e.trans ?_
  simp only [f2, Raw.mode, Raw.order, Raw.tile, Raw.cv, mh, m4, m3, m20, m0, m0b, m1b, m2b, m10, raw_dOp, raw_aOp, raw_bOp, raw_cOp, raw_aVz, raw_bVz, raw_cVz, raw_f, raw_c, mode_ofCode, order_ofCode, scope_ofCode, fmt_ofCode, cond_ofCode, cvtType_ofCode, memType_ofCode, atomOp_ofCode, voteMode_ofCode, sumType_ofCode, maxType_ofCode, prefKind_ofCode, tileFmt_ofCode] <;> rfl

theorem atomG (x : AtomOps) : Statement (.atomG x) :=
  of_fields rfl (atom_ok (k := .atomG) (by decide) ((in_atomic (by decide)).trans rfl))

theorem atomS (x : AtomOps) : Statement (.atomS x) :=
  of_fields rfl (atom_ok (k := .atomS) (by decide) ((in_atomic (by decide)).trans rfl))

theorem atomCasG (x : CasOps) : Statement (.atomCasG x) :=
  of_fields rfl (cas_ok (k := .atomCasG) (by decide) ((in_atomic (by decide)).trans rfl) rfl)

theorem atomCasS (x : CasOps) : Statement (.atomCasS x) :=
  of_fields rfl (cas_ok (k := .atomCasS) (by decide) ((in_atomic (by decide)).trans rfl) rfl)

theorem atomCas64G (x : CasOps) : Statement (.atomCas64G x) := of_fields rfl fun hok => by
  simp only [Instr.wf, CasOps.ok64, Bool.and_eq_true] at hok
  exact cas_ok (k := .atomCas64G) (by decide) ((in_atomic (by decide)).trans rfl)
    (by simpa only [CasOps.fields, raw_bOp] using hok.1.2)
    (by simp only [CasOps.ok, hok.1.1.1.1, hok.1.1.1.2, hok.1.1.2, quad_src hok.1.2, hok.2, Bool.and_self])

theorem atomCas64S (x : CasOps) : Statement (.atomCas64S x) := of_fields rfl fun hok => by
  simp only [Instr.wf, CasOps.ok64, Bool.and_eq_true] at hok
  exact cas_ok (k := .atomCas64S) (by decide) ((in_atomic (by decide)).trans rfl)
    (by simpa only [CasOps.fields, raw_bOp] using hok.1.2)
    (by simp only [CasOps.ok, hok.1.1.1.1, hok.1.1.1.2, hok.1.1.2, quad_src hok.1.2, hok.2, Bool.and_self])

theorem ctrInit (x : CtrInitOps) : Statement (.ctrInit x) := of_fields rfl fun hok => by
  simp only [Instr.wf, Bool.and_eq_true, and_assoc] at hok
  obtain ⟨hg, ha, hb, ho⟩ := hok
  have hz : x.order.code < 8 := by have := order_code x.order; omega
  have hs := scope_code x.scope
  have hor := order_code x.order
  have hb' := Bool.toNat_lt x.scratch
  have hr := x.rscope.isLt
  have hp := x.pclass.isLt
  have f1 : bit (x.rscope.val * 256 + x.pclass.val * 16 + x.scope.code * 2 + x.scratch.toNat) 0 = x.scratch := by
    rw [bit_eq]; cases x.scratch <;> simp <;> omega
  have f2 : bits (x.rscope.val * 256 + x.pclass.val * 16 + x.scope.code * 2 + x.scratch.toNat) 3 1 = x.scope.code := by
    rw [bits_eq]; simp <;> omega
  have f3 : bits (x.rscope.val * 256 + x.pclass.val * 16 + x.scope.code * 2 + x.scratch.toNat) 7 4 = x.pclass.val := by
    rw [bits_eq]; simp <;> omega
  have f4 : bits (x.rscope.val * 256 + x.pclass.val * 16 + x.scope.code * 2 + x.scratch.toNat) 10 8 = x.rscope.val := by
    rw [bits_eq]; simp <;> omega
  obtain ⟨m1, mh, m4, m3, m20, m0b, m1b, m2b, m0, m10⟩ :=
    raw_m x.h 0x88 x.a.code x.b.code (x.rscope.val * 256 + x.pclass.val * 16 + x.scope.code * 2 + x.scratch.toNat) x.order.code 0x490 false false (x.order.code) hz (by simp)
  have hl : (x.h.raw 0x88 0x490 x.a.code x.b.code (x.rscope.val * 256 + x.pclass.val * 16 + x.scope.code * 2 + x.scratch.toNat) x.order.code).layout = some _ := ((in_atomic (by decide)).trans rfl)
  have e := full hg (by decide) m1 hl rfl (by decide) (fun q => by cases q) (takes_src ha) (takes_src hb) (show _ < 2048 by omega)
    (by
      simp only [Raw.mz, m4, m3, m20]; rfl) (by
      simp only [Raw.order, raw_f, f2, m20, order_ofCode, ho]; simp <;> omega) rfl
  refine e.trans ?_
  simp only [f1, f2, f3, f4, Raw.mode, Raw.order, Raw.tile, Raw.cv, mh, m4, m3, m20, m0, m0b, m1b, m2b, m10, raw_dOp, raw_aOp, raw_bOp, raw_cOp, raw_aVz, raw_bVz, raw_cVz, raw_f, raw_c, mode_ofCode, order_ofCode, scope_ofCode, fmt_ofCode, cond_ofCode, cvtType_ofCode, memType_ofCode, atomOp_ofCode, voteMode_ofCode, sumType_ofCode, maxType_ofCode, prefKind_ofCode, tileFmt_ofCode, fin_ofNat] <;> rfl

theorem ctrAdd (x : CtrOps) : Statement (.ctrAdd x) :=
  of_fields rfl (ctr_ok (k := .ctrAdd) (by decide) ((in_atomic (by decide)).trans rfl))

theorem ctrMax (x : CtrOps) : Statement (.ctrMax x) :=
  of_fields rfl (ctr_ok (k := .ctrMax) (by decide) ((in_atomic (by decide)).trans rfl))

theorem ctrWait (x : CtrOps) : Statement (.ctrWait x) :=
  of_fields rfl (ctr_ok (k := .ctrWait) (by decide) ((in_atomic (by decide)).trans rfl))

theorem ctrRd (x : CtrOps) : Statement (.ctrRd x) :=
  of_fields rfl (ctr_ok (k := .ctrRd) (by decide) ((in_atomic (by decide)).trans rfl))

theorem qcfg (x : QcfgOps) : Statement (.qcfg x) := of_fields rfl fun hok => by
  simp only [Instr.wf, Bool.and_eq_true, and_assoc] at hok
  obtain ⟨hg, ha, hb⟩ := hok
  have hn := x.port.isLt
  have f1 : bits x.port.val 10 3 = 0 := by rw [bits_eq]; simp <;> omega
  have f2 : bits x.port.val 2 0 = x.port.val := by rw [bits_eq]; simp <;> omega
  obtain ⟨m1, mh, m4, m3, m20, m0b, m1b, m2b, m0, m10⟩ :=
    raw_m x.h 0x8E x.a.code x.b.code x.port.val 0 0x490 false false (0) (by decide) (by simp)
  have hl : (x.h.raw 0x8E 0x490 x.a.code x.b.code x.port.val 0).layout = some _ := ((in_atomic (by decide)).trans rfl)
  have e := full hg (by decide) m1 hl rfl (by decide) (fun q => by cases q) (takes_src ha) (takes_src hb) (show _ < 2048 by omega)
    (by
      simp [Raw.mz, Raw.mz0, Raw.opAB, m4, m3, m20]) (by
      simp only [raw_f, f1]; rfl) rfl
  refine e.trans ?_
  simp only [f2, Raw.mode, Raw.order, Raw.tile, Raw.cv, mh, m4, m3, m20, m0, m0b, m1b, m2b, m10, raw_dOp, raw_aOp, raw_bOp, raw_cOp, raw_aVz, raw_bVz, raw_cVz, raw_f, raw_c, mode_ofCode, order_ofCode, scope_ofCode, fmt_ofCode, cond_ofCode, cvtType_ofCode, memType_ofCode, atomOp_ofCode, voteMode_ofCode, sumType_ofCode, maxType_ofCode, prefKind_ofCode, tileFmt_ofCode, fin_ofNat] <;> rfl

theorem copyLd (x : CopyOps) : Statement (.copyLd x) :=
  of_fields rfl (copy_ok (k := .copyLd) (by decide) ((in_atomic (by decide)).trans rfl))

theorem copySt (x : CopyOps) : Statement (.copySt x) :=
  of_fields rfl (copy_ok (k := .copySt) (by decide) ((in_atomic (by decide)).trans rfl))

theorem copyCp (x : CopyOps) : Statement (.copyCp x) :=
  of_fields rfl (copy_ok (k := .copyCp) (by decide) ((in_atomic (by decide)).trans rfl))

theorem tcfg (x : TcfgOps) : Statement (.tcfg x) := of_fields rfl fun hok => by
  simp only [Instr.wf, Bool.and_eq_true, and_assoc] at hok
  obtain ⟨hg, ha⟩ := hok
  have ht := x.tile.isLt
  obtain ⟨f1, f2, f3⟩ := low5 x.tile.val 0 (by omega)
  simp only [Nat.add_zero] at f1 f2 f3
  obtain ⟨m1, mh, m4, m3, m20, m0b, m1b, m2b, m0, m10⟩ :=
    raw_m x.h 0xA0 x.a.code 0x490 (x.tile.val * 32) 0 0x490 false false (0) (by decide) (by simp)
  have hl : (x.h.raw 0xA0 0x490 x.a.code 0x490 (x.tile.val * 32) 0).layout = some _ := ((in_matrix (by decide)).trans (congrArg some (if_neg (by rw [m4]; decide))))
  have e := full hg (by decide) m1 hl rfl (by decide) (fun q => by cases q) (takes_src ha) rfl (show _ < 2048 by omega)
    (by
      simp only [Raw.op0, Raw.opA, Raw.mz, m4, m3, m20]; rfl) (by
      simp only [raw_f, f2]; rfl) rfl
  refine e.trans ?_
  simp only [f1 ht, Raw.mode, Raw.order, Raw.tile, Raw.cv, mh, m4, m3, m20, m0, m0b, m1b, m2b, m10, raw_dOp, raw_aOp, raw_bOp, raw_cOp, raw_aVz, raw_bVz, raw_cVz, raw_f, raw_c, mode_ofCode, order_ofCode, scope_ofCode, fmt_ofCode, cond_ofCode, cvtType_ofCode, memType_ofCode, atomOp_ofCode, voteMode_ofCode, sumType_ofCode, maxType_ofCode, prefKind_ofCode, tileFmt_ofCode, tile_ofNat] <;> rfl

theorem tcfgFree (x : TileOps) : Statement (.tcfgFree x) := of_fields rfl fun hok => by
  simp only [Instr.wf, Bool.and_eq_true, and_assoc] at hok
  have hg := hok
  have ht := x.tile.isLt
  obtain ⟨f1, f2, f3⟩ := low5 x.tile.val 0 (by omega)
  simp only [Nat.add_zero] at f1 f2 f3
  obtain ⟨m1, mh, m4, m3, m20, m0b, m1b, m2b, m0, m10⟩ :=
    raw_m x.h 0xA0 0x490 0x490 (x.tile.val * 32) 16 0x490 true false (0) (by decide) (by simp)
  have hl : (x.h.raw 0xA0 0x490 0x490 0x490 (x.tile.val * 32) 16).layout = some _ := ((in_matrix (by decide)).trans (congrArg some (if_pos m4)))
  have e := full hg (by decide) m1 hl rfl (by decide) (fun q => by cases q) rfl rfl (show _ < 2048 by omega)
    (by
      simp only [Raw.op0, Raw.opA, Raw.mz, m4, m3, m20]; rfl) (by
      simp only [raw_f, f2]; rfl) rfl
  refine e.trans ?_
  simp only [f1 ht, Raw.mode, Raw.order, Raw.tile, Raw.cv, mh, m4, m3, m20, m0, m0b, m1b, m2b, m10, raw_dOp, raw_aOp, raw_bOp, raw_cOp, raw_aVz, raw_bVz, raw_cVz, raw_f, raw_c, mode_ofCode, order_ofCode, scope_ofCode, fmt_ofCode, cond_ofCode, cvtType_ofCode, memType_ofCode, atomOp_ofCode, voteMode_ofCode, sumType_ofCode, maxType_ofCode, prefKind_ofCode, tileFmt_ofCode, tile_ofNat] <;> rfl

theorem tzero (x : TileOps) : Statement (.tzero x) := of_fields rfl fun hok => by
  simp only [Instr.wf, Bool.and_eq_true, and_assoc] at hok
  have hg := hok
  have ht := x.tile.isLt
  obtain ⟨f1, f2, f3⟩ := low5 x.tile.val 0 (by omega)
  simp only [Nat.add_zero] at f1 f2 f3
  obtain ⟨m1, mh, m4, m3, m20, m0b, m1b, m2b, m0, m10⟩ :=
    raw_m x.h 0xA1 0x490 0x490 (x.tile.val * 32) 0 0x490 false false (0) (by decide) (by simp)
  have hl : (x.h.raw 0xA1 0x490 0x490 0x490 (x.tile.val * 32) 0).layout = some _ := ((in_matrix (by decide)).trans rfl)
  have e := full hg (by decide) m1 hl rfl (by decide) (fun q => by cases q) rfl rfl (show _ < 2048 by omega)
    (by
      simp only [Raw.op0, Raw.opA, Raw.mz, m4, m3, m20]; rfl) (by
      simp only [raw_f, f2]; rfl) rfl
  refine e.trans ?_
  simp only [f1 ht, Raw.mode, Raw.order, Raw.tile, Raw.cv, mh, m4, m3, m20, m0, m0b, m1b, m2b, m10, raw_dOp, raw_aOp, raw_bOp, raw_cOp, raw_aVz, raw_bVz, raw_cVz, raw_f, raw_c, mode_ofCode, order_ofCode, scope_ofCode, fmt_ofCode, cond_ofCode, cvtType_ofCode, memType_ofCode, atomOp_ofCode, voteMode_ofCode, sumType_ofCode, maxType_ofCode, prefKind_ofCode, tileFmt_ofCode, tile_ofNat] <;> rfl

theorem mma (x : MmaOps) : Statement (.mma x) := of_fields rfl fun hok => by
  simp only [Instr.wf, MmaOps.ok, Bool.and_eq_true, and_assoc] at hok
  obtain ⟨hg, hd, ha, hb⟩ := hok
  have hc := x.cv.isLt
  have ht := x.tile.isLt
  obtain ⟨f1, f2, f3⟩ := low5 x.tile.val x.cv.val (by omega)
  have h1 := Bool.toNat_lt x.aScr
  have h2 := Bool.toNat_lt x.bScr
  obtain ⟨m1, mh, m4, m3, m20, m0b, m1b, m2b, m0, m10⟩ :=
    raw_m x.h 0xA2 x.a.code x.b.code (x.tile.val * 32 + x.cv.val) (x.csp.toNat * 16 + x.aScr.toNat * 4 + x.bScr.toNat * 2) x.d.code x.csp false
      (x.aScr.toNat * 4 + x.bScr.toNat * 2) (by omega) (by simp <;> omega)
  have hA : decide ((x.aScr.toNat * 4 + x.bScr.toNat * 2) / 4 % 2 = 1) = x.aScr := by cases x.aScr <;> cases x.bScr <;> rfl
  have hB : decide ((x.aScr.toNat * 4 + x.bScr.toNat * 2) / 2 % 2 = 1) = x.bScr := by cases x.aScr <;> cases x.bScr <;> rfl
  have hZ : decide ((x.aScr.toNat * 4 + x.bScr.toNat * 2) % 2 = 1) = false := by cases x.aScr <;> cases x.bScr <;> rfl
  rw [hA] at m2b
  rw [hB] at m1b
  rw [hZ] at m0
  have hmma : (x.fields 0xA2).mma x.bScr = x := by
    simp only [Raw.mma, MmaOps.fields, f1 ht, f2, Raw.mode, Raw.order, Raw.tile, Raw.cv, mh, m4, m3, m20, m0, m0b, m1b, m2b, m10, raw_dOp, raw_aOp, raw_bOp, raw_cOp, raw_aVz, raw_bVz, raw_cVz, raw_f, raw_c, mode_ofCode, order_ofCode, scope_ofCode, fmt_ofCode, cond_ofCode, cvtType_ofCode, memType_ofCode, atomOp_ofCode, voteMode_ofCode, sumType_ofCode, maxType_ofCode, prefKind_ofCode, tileFmt_ofCode, cv_ofNat, tile_ofNat]
  have td := takes_dSrc (h := x.h) hd
  have hl : (x.fields 0xA2).layout = some _ := (in_matrix (by decide)).trans rfl
  have e := full hg (by decide) m1 hl td.1 td.2 (fun q => by cases q) (takes_matrix ha) (takes_matrix hb) (show _ < 2048 by omega)
    (by
      simp only [Raw.mz, m4, m3, m20, m0]; rfl)
    (by
      simp only [Raw.cvOk, raw_f, f2]; simp <;> omega)
    (by
      simp only [raw_aOp, raw_bOp, m1b, m2b, ha, hb, Bool.and_self])
  refine e.trans ?_
  simp only [m1b]
  exact congrArg (fun y => Except.ok (Instr.mma y)) hmma

theorem mmd (x : MmaOps) : Statement (.mmd x) := of_fields rfl fun hok => by
  simp only [Instr.wf, MmaOps.mmdOk, Bool.and_eq_true, and_assoc] at hok
  obtain ⟨hg, hd, ha, hb, hs, ht2⟩ := hok
  have hc := x.cv.isLt
  have ht := x.tile.isLt
  obtain ⟨f1, f2, f3⟩ := low5 x.tile.val x.cv.val (by omega)
  have f4 : bits (x.tile.val * 32 + x.cv.val) 5 5 = 0 := by simp at ht2; rw [bits_eq]; simp <;> omega
  have hs' : x.bScr = false := by simpa using hs
  have h1 := Bool.toNat_lt x.aScr
  have h2 := Bool.toNat_lt x.bScr
  obtain ⟨m1, mh, m4, m3, m20, m0b, m1b, m2b, m0, m10⟩ :=
    raw_m x.h 0xA3 x.a.code x.b.code (x.tile.val * 32 + x.cv.val) (x.csp.toNat * 16 + x.aScr.toNat * 4 + x.bScr.toNat * 2) x.d.code x.csp false
      (x.aScr.toNat * 4 + x.bScr.toNat * 2) (by omega) (by simp <;> omega)
  have hA : decide ((x.aScr.toNat * 4 + x.bScr.toNat * 2) / 4 % 2 = 1) = x.aScr := by cases x.aScr <;> cases x.bScr <;> rfl
  have hB : decide ((x.aScr.toNat * 4 + x.bScr.toNat * 2) / 2 % 2 = 1) = x.bScr := by cases x.aScr <;> cases x.bScr <;> rfl
  have hZ : decide ((x.aScr.toNat * 4 + x.bScr.toNat * 2) % 2 = 1) = false := by cases x.aScr <;> cases x.bScr <;> rfl
  rw [hA] at m2b
  rw [hB] at m1b
  rw [hZ] at m0
  have hmma : (x.fields 0xA3).mma x.bScr = x := by
    simp only [Raw.mma, MmaOps.fields, f1 ht, f2, Raw.mode, Raw.order, Raw.tile, Raw.cv, mh, m4, m3, m20, m0, m0b, m1b, m2b, m10, raw_dOp, raw_aOp, raw_bOp, raw_cOp, raw_aVz, raw_bVz, raw_cVz, raw_f, raw_c, mode_ofCode, order_ofCode, scope_ofCode, fmt_ofCode, cond_ofCode, cvtType_ofCode, memType_ofCode, atomOp_ofCode, voteMode_ofCode, sumType_ofCode, maxType_ofCode, prefKind_ofCode, tileFmt_ofCode, cv_ofNat, tile_ofNat]
  have td := takes_dSrc (h := x.h) hd
  have hl : (x.fields 0xA3).layout = some _ := (in_matrix (by decide)).trans rfl
  have e := full hg (by decide) m1 hl td.1 td.2 (fun q => by cases q) (takes_matrix ha) (takes_src hb) (show _ < 2048 by omega)
    (by
      have hq : (x.aScr.toNat * 4 + x.bScr.toNat * 2) % 4 = 0 := by rw [hs']; cases x.aScr <;> rfl
      simp only [Raw.mz, m4, m3, m20, m10, hq]; rfl)
    (by
      simp only [Raw.cvOk, raw_f, raw_c, f2, f4]; simp <;> omega)
    (by
      simp only [raw_aOp, m2b, ha])
  refine e.trans ?_
  rw [hs'] at hmma
  exact congrArg (fun y => Except.ok (Instr.mmd y)) hmma

theorem twrr (x : TileWriteOps) : Statement (.twrr x) :=
  of_fields rfl (tileWrite_ok (k := .twrr) (by decide) ((in_matrix (by decide)).trans rfl))

theorem twrc (x : TileWriteOps) : Statement (.twrc x) :=
  of_fields rfl (tileWrite_ok (k := .twrc) (by decide) ((in_matrix (by decide)).trans rfl))

theorem trdr (x : TileReadOps) : Statement (.trdr x) :=
  of_fields rfl (tileRead_ok (k := .trdr) (by decide) ((in_matrix (by decide)).trans rfl))

theorem trdc (x : TileReadOps) : Statement (.trdc x) :=
  of_fields rfl (tileRead_ok (k := .trdc) (by decide) ((in_matrix (by decide)).trans rfl))

theorem tld (x : TileMoveOps) : Statement (.tld x) :=
  of_fields rfl (tileMove_ok (k := .tld) (by decide) ((in_matrix (by decide)).trans rfl))

theorem tst (x : TileMoveOps) : Statement (.tst x) :=
  of_fields rfl (tileMove_ok (k := .tst) (by decide) ((in_matrix (by decide)).trans rfl))

theorem tepi (x : TepiOps) : Statement (.tepi x) := of_fields rfl fun hok => by
  simp only [Instr.wf, TepiOps.ok, Bool.and_eq_true, and_assoc] at hok
  obtain ⟨hg, hd, ha, hb, hn⟩ := hok
  have hz : x.mode.code < 8 := by have := mode_code x.mode; omega
  have ht := x.tile.isLt
  obtain ⟨f1, f2, f3⟩ := low5 x.tile.val 0 (by omega)
  simp only [Nat.add_zero] at f1 f2 f3
  obtain ⟨m1, mh, m4, m3, m20, m0b, m1b, m2b, m0, m10⟩ :=
    raw_m x.h 0xAA x.a.code x.b.code (x.tile.val * 32) (x.sat.toNat * 8 + x.mode.code) x.d.code false x.sat (x.mode.code) hz (by simp)
  have td := takes_dst (h := x.h) hd
  have hl : (x.h.raw 0xAA x.d.code x.a.code x.b.code (x.tile.val * 32) (x.sat.toNat * 8 + x.mode.code)).layout = some _ := ((in_matrix (by decide)).trans rfl)
  have e := full hg (by decide) m1 hl td.1 td.2.1 (fun _ => td.2.2) (takes_src ha) (takes_src hb) (show _ < 2048 by omega)
    (by
      simp only [Raw.mz, m4, m3, m20]; rfl) (by
      have := (mode_code x.mode).2 hn
      simp only [raw_f, f2, m20]; simp <;> omega) rfl
  refine e.trans ?_
  simp only [f1 ht, Raw.mode, Raw.order, Raw.tile, Raw.cv, mh, m4, m3, m20, m0, m0b, m1b, m2b, m10, raw_dOp, raw_aOp, raw_bOp, raw_cOp, raw_aVz, raw_bVz, raw_cVz, raw_f, raw_c, mode_ofCode, order_ofCode, scope_ofCode, fmt_ofCode, cond_ofCode, cvtType_ofCode, memType_ofCode, atomOp_ofCode, voteMode_ofCode, sumType_ofCode, maxType_ofCode, prefKind_ofCode, tileFmt_ofCode, tile_ofNat] <;> rfl

theorem seed (x : OpAB) : Statement (.seed x) := of_fields rfl fun hok => by
  simp only [Instr.wf, OpAB.ok, Bool.and_eq_true, and_assoc] at hok
  obtain ⟨hg, ha, hb⟩ := hok
  obtain ⟨m1, mh, m4, m3, m20, m0b, m1b, m2b, m0, m10⟩ :=
    raw_m x.h 0xAB x.a.code x.b.code 0 0 0x490 false false (0) (by decide) (by simp)
  have hl : (x.h.raw 0xAB 0x490 x.a.code x.b.code 0 0).layout = some _ := ((in_matrix (by decide)).trans (congrArg some (if_neg (by rw [m4]; decide))))
  have e := full hg (by decide) m1 hl rfl (by decide) (fun q => by cases q) (takes_src ha) (takes_src hb) (show _ < 2048 by decide)
    (by
      simp only [Raw.opAB, Raw.mz, m4, m3, m20]; rfl) rfl rfl
  refine e.trans ?_
  simp only [Raw.opAB, OpAB.fields, Raw.mode, Raw.order, Raw.tile, Raw.cv, mh, m4, m3, m20, m0, m0b, m1b, m2b, m10, raw_dOp, raw_aOp, raw_bOp, raw_cOp, raw_aVz, raw_bVz, raw_cVz, raw_f, raw_c, mode_ofCode, order_ofCode, scope_ofCode, fmt_ofCode, cond_ofCode, cvtType_ofCode, memType_ofCode, atomOp_ofCode, voteMode_ofCode, sumType_ofCode, maxType_ofCode, prefKind_ofCode, tileFmt_ofCode] <;> rfl

theorem seedS (x : SeedSOps) : Statement (.seedS x) := of_fields rfl fun hok => by
  simp only [Instr.wf, Bool.and_eq_true, and_assoc] at hok
  obtain ⟨hg, hb⟩ := hok
  obtain ⟨m1, mh, m4, m3, m20, m0b, m1b, m2b, m0, m10⟩ :=
    raw_m x.h 0xAB 0x490 x.b.code 0 16 0x490 true false (0) (by decide) (by simp)
  have hl : (x.h.raw 0xAB 0x490 0x490 x.b.code 0 16).layout = some _ := ((in_matrix (by decide)).trans (congrArg some (if_pos m4)))
  have e := full hg (by decide) m1 hl rfl (by decide) (fun q => by cases q) rfl (takes_src hb) (show _ < 2048 by decide)
    (by
      simp only [Raw.mz, m4, m3, m20]; rfl) rfl rfl
  refine e.trans ?_
  simp only [Raw.mode, Raw.order, Raw.tile, Raw.cv, mh, m4, m3, m20, m0, m0b, m1b, m2b, m10, raw_dOp, raw_aOp, raw_bOp, raw_cOp, raw_aVz, raw_bVz, raw_cVz, raw_f, raw_c, mode_ofCode, order_ofCode, scope_ofCode, fmt_ofCode, cond_ofCode, cvtType_ofCode, memType_ofCode, atomOp_ofCode, voteMode_ofCode, sumType_ofCode, maxType_ofCode, prefKind_ofCode, tileFmt_ofCode] <;> rfl

theorem adamw (x : AdamwOps) : Statement (.adamw x) := of_fields rfl fun hok => by
  simp only [Instr.wf, AdamwOps.ok, Bool.and_eq_true, and_assoc] at hok
  obtain ⟨hg, hdg, ha, hbg, hs⟩ := hok
  have hz : x.sr.toNat * 4 < 8 := by have := Bool.toNat_lt x.sr; omega
  obtain ⟨m1, mh, m4, m3, m20, m0b, m1b, m2b, m0, m10⟩ :=
    raw_m x.h 0xB0 x.a.code x.b.code 0x490 (x.bf16.toNat * 16 + x.sr.toNat * 4) x.d.code x.bf16 false (x.sr.toNat * 4) hz (by simp)
  have td := takes_dst (h := x.h) (group_dst hdg)
  have hl : (x.h.raw 0xB0 x.d.code x.a.code x.b.code 0x490 (x.bf16.toNat * 16 + x.sr.toNat * 4)).layout = some _ := ((in_matrix (by decide)).trans rfl)
  have e := full hg (by decide) m1 hl td.1 td.2.1 (fun _ => td.2.2) (takes_src ha) (takes_hyper hbg) rfl
    (by
      simp only [Raw.mz, m4, m3, m20]; rfl) (by
      simp only [m4, m20]; cases h1 : x.sr <;> simp_all) (by
      simp only [raw_dOp, raw_bOp, hdg, hbg, Bool.and_self])
  refine e.trans ?_
  simp only [Raw.mode, Raw.order, Raw.tile, Raw.cv, mh, m4, m3, m20, m0, m0b, m1b, m2b, m10, raw_dOp, raw_aOp, raw_bOp, raw_cOp, raw_aVz, raw_bVz, raw_cVz, raw_f, raw_c, mode_ofCode, order_ofCode, scope_ofCode, fmt_ofCode, cond_ofCode, cvtType_ofCode, memType_ofCode, atomOp_ofCode, voteMode_ofCode, sumType_ofCode, maxType_ofCode, prefKind_ofCode, tileFmt_ofCode]
  cases x with | mk h d a b f r => cases r <;> rfl

theorem kstep (x : OpAB) : Statement (.kstep x) :=
  of_fields rfl (opAB_ok (k := .kstep) (by decide) ((in_matrix (by decide)).trans rfl))

theorem ksig (x : OpAB) : Statement (.ksig x) := of_fields rfl fun hok => by
  simp only [Instr.wf, Bool.and_eq_true, and_assoc] at hok
  obtain ⟨hg, ha, hb⟩ := hok
  obtain ⟨m1, mh, m4, m3, m20, m0b, m1b, m2b, m0, m10⟩ :=
    raw_m x.h 0xB9 x.a.code x.b.code 0x490 0 0x490 false false (0) (by decide) (by simp)
  have hl : (x.h.raw 0xB9 0x490 x.a.code x.b.code 0x490 0).layout = some _ := ((in_matrix (by decide)).trans rfl)
  have e := full hg (by decide) m1 hl rfl (by decide) (fun q => by cases q) (takes_scratch ha) (takes_src hb) rfl
    (by
      simp [Raw.mz, Raw.mz0, Raw.opAB, OpAB.fields, m4, m3, m20]) rfl (by
      simpa only [OpAB.fields, raw_aOp] using ha)
  refine e.trans ?_
  simp only [Raw.opAB, OpAB.fields, Raw.mode, Raw.order, Raw.tile, Raw.cv, mh, m4, m3, m20, m0, m0b, m1b, m2b, m10, raw_dOp, raw_aOp, raw_bOp, raw_cOp, raw_aVz, raw_bVz, raw_cVz, raw_f, raw_c, mode_ofCode, order_ofCode, scope_ofCode, fmt_ofCode, cond_ofCode, cvtType_ofCode, memType_ofCode, atomOp_ofCode, voteMode_ofCode, sumType_ofCode, maxType_ofCode, prefKind_ofCode, tileFmt_ofCode] <;> rfl

theorem ktest (x : OpDA) : Statement (.ktest x) := of_fields rfl fun hok => by
  simp only [Instr.wf, Bool.and_eq_true] at hok
  exact opDA_ok (k := .ktest) (by decide) ((in_matrix (by decide)).trans rfl)
    (by simpa only [OpDA.fields, raw_dOp] using hok.2) hok.1

theorem kreuse (x : OpDA) : Statement (.kreuse x) := of_fields rfl fun hok => by
  simp only [Instr.wf, Bool.and_eq_true] at hok
  exact opDA_ok (k := .kreuse) (by decide) ((in_matrix (by decide)).trans rfl)
    (by simpa only [OpDA.fields, raw_dOp] using hok.2) hok.1

theorem kmap (x : OpDAB) : Statement (.kmap x) := of_fields rfl fun hok => by
  simp only [Instr.wf, OpDAB.ok, Bool.and_eq_true, and_assoc] at hok
  obtain ⟨hg, hd, ha, hb, hp⟩ := hok
  obtain ⟨m1, mh, m4, m3, m20, m0b, m1b, m2b, m0, m10⟩ :=
    raw_m x.h 0xBC x.a.code x.b.code 0x490 0 x.d.code false false (0) (by decide) (by simp)
  have td := takes_dst (h := x.h) hd
  have hl : (x.h.raw 0xBC x.d.code x.a.code x.b.code 0x490 0).layout = some _ := ((in_matrix (by decide)).trans rfl)
  have e := full hg (by decide) m1 hl td.1 td.2.1 (fun _ => td.2.2) (takes_src ha) (takes_src hb) rfl
    (by
      simp only [OpDAB.fields, Raw.mz, m4, m3, m20]; rfl) rfl (by
      simp only [OpDAB.fields, raw_dOp]; simp only [hp, Bool.or_true])
  refine e.trans ?_
  simp only [OpDAB.fields]
  rw [if_neg (by rw [m4]; decide)]
  simp only [Raw.mode, Raw.order, Raw.tile, Raw.cv, mh, m4, m3, m20, m0, m0b, m1b, m2b, m10, raw_dOp, raw_aOp, raw_bOp, raw_cOp, raw_aVz, raw_bVz, raw_cVz, raw_f, raw_c, mode_ofCode, order_ofCode, scope_ofCode, fmt_ofCode, cond_ofCode, cvtType_ofCode, memType_ofCode, atomOp_ofCode, voteMode_ofCode, sumType_ofCode, maxType_ofCode, prefKind_ofCode, tileFmt_ofCode] <;> rfl

theorem kmapSrc (x : OpDAB) : Statement (.kmapSrc x) := of_fields rfl fun hok => by
  simp only [Instr.wf, OpDAB.ok, Bool.and_eq_true, and_assoc] at hok
  obtain ⟨hg, hd, ha, hb⟩ := hok
  obtain ⟨m1, mh, m4, m3, m20, m0b, m1b, m2b, m0, m10⟩ :=
    raw_m x.h 0xBC x.a.code x.b.code 0x490 16 x.d.code true false (0) (by decide) (by simp)
  have td := takes_dst (h := x.h) hd
  have hl : (x.h.raw 0xBC x.d.code x.a.code x.b.code 0x490 16).layout = some _ := ((in_matrix (by decide)).trans rfl)
  have e := full hg (by decide) m1 hl td.1 td.2.1 (fun _ => td.2.2) (takes_src ha) (takes_src hb) rfl
    (by
      simp only [OpDAB.fields, Raw.mz, m4, m3, m20]; rfl) rfl (by
      simp only [OpDAB.fields, m4, Bool.true_or])
  refine e.trans ?_
  simp only [OpDAB.fields]
  rw [if_pos m4]
  simp only [Raw.mode, Raw.order, Raw.tile, Raw.cv, mh, m4, m3, m20, m0, m0b, m1b, m2b, m10, raw_dOp, raw_aOp, raw_bOp, raw_cOp, raw_aVz, raw_bVz, raw_cVz, raw_f, raw_c, mode_ofCode, order_ofCode, scope_ofCode, fmt_ofCode, cond_ofCode, cvtType_ofCode, memType_ofCode, atomOp_ofCode, voteMode_ofCode, sumType_ofCode, maxType_ofCode, prefKind_ofCode, tileFmt_ofCode] <;> rfl

theorem kend (x : KendOps) : Statement (.kend x) := of_fields rfl fun hok => by
  simp only [Instr.wf, Bool.and_eq_true, and_assoc] at hok
  obtain ⟨hg, hd⟩ := hok
  obtain ⟨m1, mh, m4, m3, m20, m0b, m1b, m2b, m0, m10⟩ :=
    raw_m x.h 0xBD 0x490 0x490 0x490 (x.csp.toNat * 16) x.d.code x.csp false (0) (by decide) (by simp)
  have td := takes_dSrc (h := x.h) hd
  have hl : (x.h.raw 0xBD x.d.code 0x490 0x490 0x490 (x.csp.toNat * 16)).layout = some _ := ((in_matrix (by decide)).trans rfl)
  have e := full hg (by decide) m1 hl td.1 td.2 (fun q => by cases q) rfl rfl rfl
    (by
      simp only [Raw.mz, m4, m3, m20]; rfl) rfl rfl
  refine e.trans ?_
  simp only [Raw.mode, Raw.order, Raw.tile, Raw.cv, mh, m4, m3, m20, m0, m0b, m1b, m2b, m10, raw_dOp, raw_aOp, raw_bOp, raw_cOp, raw_aVz, raw_bVz, raw_cVz, raw_f, raw_c, mode_ofCode, order_ofCode, scope_ofCode, fmt_ofCode, cond_ofCode, cvtType_ofCode, memType_ofCode, atomOp_ofCode, voteMode_ofCode, sumType_ofCode, maxType_ofCode, prefKind_ofCode, tileFmt_ofCode] <;> rfl

theorem launch (x : OpDA) : Statement (.launch x) :=
  of_fields rfl (opDA_ok (k := .launch) (by decide) ((in_system (by decide)).trans rfl) rfl)

theorem taskRange (x : OpDA) : Statement (.taskRange x) :=
  of_fields rfl (opDA_ok (k := .taskRange) (by decide) ((in_system (by decide)).trans rfl) rfl)

theorem taskNext (x : OpD) : Statement (.taskNext x) := of_fields rfl fun hok => by
  simp only [Instr.wf, Bool.and_eq_true] at hok
  exact opD_ok (k := .taskNext) (by decide) ((in_system (by decide)).trans rfl)
    (by simpa only [OpD.fields, raw_dOp] using hok.2)
    (by simp only [OpD.ok, hok.1, chunk_dst hok.2, Bool.and_self])

theorem taskGet (x : OpD) : Statement (.taskGet x) := of_fields rfl fun hok => by
  simp only [Instr.wf, Bool.and_eq_true] at hok
  exact opD_ok (k := .taskGet) (by decide) ((in_system (by decide)).trans rfl)
    (by simpa only [OpD.fields, raw_dOp] using hok.2)
    (by simp only [OpD.ok, hok.1, chunk_dst hok.2, Bool.and_self])

theorem taskDone (x : Op0) : Statement (.taskDone x) :=
  of_fields rfl (op0_ok (k := .taskDone) (by decide) ((in_system (by decide)).trans rfl))

theorem kindle (x : KindleOps) : Statement (.kindle x) := of_fields rfl fun hok => by
  simp only [Instr.wf, Bool.and_eq_true, and_assoc] at hok
  obtain ⟨hg, ha, hb⟩ := hok
  obtain ⟨m1, mh, m4, m3, m20, m0b, m1b, m2b, m0, m10⟩ :=
    raw_m x.h 0xC5 x.a.code x.b.code 0x490 (x.region.toNat * 16) 0x490 x.region false (0) (by decide) (by simp)
  have hl : (x.h.raw 0xC5 0x490 x.a.code x.b.code 0x490 (x.region.toNat * 16)).layout = some _ := ((in_system (by decide)).trans rfl)
  have e := full hg (by decide) m1 hl rfl (by decide) (fun q => by cases q) (takes_src ha) (takes_src hb) rfl
    (by
      simp only [Raw.mz, m4, m3, m20]; rfl) rfl rfl
  refine e.trans ?_
  simp only [Raw.mode, Raw.order, Raw.tile, Raw.cv, mh, m4, m3, m20, m0, m0b, m1b, m2b, m10, raw_dOp, raw_aOp, raw_bOp, raw_cOp, raw_aVz, raw_bVz, raw_cVz, raw_f, raw_c, mode_ofCode, order_ofCode, scope_ofCode, fmt_ofCode, cond_ofCode, cvtType_ofCode, memType_ofCode, atomOp_ofCode, voteMode_ofCode, sumType_ofCode, maxType_ofCode, prefKind_ofCode, tileFmt_ofCode] <;> rfl

theorem svc (x : SvcOps) : Statement (.svc x) := of_fields rfl fun hok => by
  simp only [Instr.wf, Bool.and_eq_true, and_assoc] at hok
  obtain ⟨hg, hd, ha, hb⟩ := hok
  have hc := x.cv.isLt
  have ht := x.fn.isLt
  obtain ⟨f1, f2, f3⟩ := low5 x.fn.val x.cv.val (by omega)
  obtain ⟨m1, mh, m4, m3, m20, m0b, m1b, m2b, m0, m10⟩ :=
    raw_m x.h 0xD0 x.a.code x.b.code (x.fn.val * 32 + x.cv.val) 0 x.d.code false false (0) (by decide) (by simp)
  have td := takes_dst (h := x.h) hd
  have hl : (x.h.raw 0xD0 x.d.code x.a.code x.b.code (x.fn.val * 32 + x.cv.val) 0).layout = some _ := ((in_system (by decide)).trans rfl)
  have e := full hg (by decide) m1 hl td.1 td.2.1 (fun _ => td.2.2) (takes_src ha) (takes_src hb) (show _ < 2048 by omega)
    (by
      simp [Raw.mz, Raw.mz0, Raw.opAB, m4, m3, m20]) (by
      simp only [Raw.cvOk, raw_f, f2]; simp <;> omega) rfl
  refine e.trans ?_
  simp only [f1 ht, f2, Raw.mode, Raw.order, Raw.tile, Raw.cv, mh, m4, m3, m20, m0, m0b, m1b, m2b, m10, raw_dOp, raw_aOp, raw_bOp, raw_cOp, raw_aVz, raw_bVz, raw_cVz, raw_f, raw_c, mode_ofCode, order_ofCode, scope_ofCode, fmt_ofCode, cond_ofCode, cvtType_ofCode, memType_ofCode, atomOp_ofCode, voteMode_ofCode, sumType_ofCode, maxType_ofCode, prefKind_ofCode, tileFmt_ofCode, cv_ofNat, tile_ofNat] <;> rfl

theorem svcWait (x : OpDA) : Statement (.svcWait x) :=
  of_fields rfl (opDA_ok (k := .svcWait) (by decide) ((in_system (by decide)).trans rfl) rfl)

theorem trap (x : OpA) : Statement (.trap x) :=
  of_fields rfl (opA_ok (k := .trap) (by decide) ((in_system (by decide)).trans rfl))

theorem eret (x : Op0) : Statement (.eret x) :=
  of_fields rfl (op0_ok (k := .eret) (by decide) ((in_system (by decide)).trans rfl))

theorem bkpt (x : BkptOps) : Statement (.bkpt x) := of_fields rfl fun hok => by
  simp only [Instr.wf] at hok
  have hn := x.n.isLt
  have f1 : bits x.n.toNat 10 8 = 0 := by rw [bits_eq]; simp <;> omega
  have f2 : bits x.n.toNat 7 0 = x.n.toNat := by rw [bits_eq]; simp <;> omega
  obtain ⟨m1, mh, m4, m3, m20, -⟩ := raw_m x.h 0xD9 0x490 0x490 x.n.toNat 0 0x490 false false 0 (by decide) rfl
  have hl : (x.h.raw 0xD9 0x490 0x490 0x490 x.n.toNat 0).layout = some _ := (in_system (by decide)).trans rfl
  have e := full hok (by decide) m1 hl rfl (by decide) (fun q => by cases q) rfl rfl
    (show _ < 2048 by omega) (by simp only [Raw.op0, Raw.mz, m4, m3, m20]; rfl) (by simp only [raw_f, f1]; rfl) rfl
  refine e.trans ?_
  simp only [mh, raw_f, f2, BitVec.ofNat_toNat, BitVec.setWidth_eq] <;> rfl

theorem srd (x : SrdOps) : Statement (.srd x) := of_fields rfl fun hok => by
  simp only [Instr.wf, Bool.and_eq_true, and_assoc] at hok
  obtain ⟨hg, hd⟩ := hok
  obtain ⟨y, hy, hs⟩ := high1 x.sreg
  obtain ⟨m1, mh, m4, m3, m20, -⟩ :=
    raw_m x.h 0xD4 0x490 0x490 (x.sreg.toNat % 2048) (x.sreg.toNat / 2048 * 16) x.d.code y false 0 (by decide) (by rw [hy]; simp)
  have td := takes_dst (h := x.h) hd
  have hl : (x.h.raw 0xD4 x.d.code 0x490 0x490 (x.sreg.toNat % 2048) (x.sreg.toNat / 2048 * 16)).layout = some _ :=
    (in_system (by decide)).trans rfl
  have e := full hg (by decide) m1 hl td.1 td.2.1 (fun _ => td.2.2) rfl rfl (show _ < 2048 by omega)
    (by simp only [SwrOps.fields, Raw.mz, m4, m3, m20]; rfl) rfl rfl
  refine e.trans ?_
  simp only [Raw.swrOps, SwrOps.fields, mh, m4, raw_c, raw_dOp, raw_aOp, hs] <;> rfl

theorem swr (x : SwrOps) : Statement (.swr x) := of_fields rfl swr_ok

theorem preempt (x : OpA) : Statement (.preempt x) := of_fields rfl fun hok => by
  simp only [Instr.wf, OpA.ok, Bool.and_eq_true, and_assoc] at hok
  obtain ⟨hg, ha⟩ := hok
  obtain ⟨m1, mh, m4, m3, m20, m0b, m1b, m2b, m0, m10⟩ :=
    raw_m x.h 0xD6 x.a.code 0x490 0x490 0 0x490 false false (0) (by decide) (by simp)
  have hl : (x.h.raw 0xD6 0x490 x.a.code 0x490 0x490 0).layout = some _ := ((in_system (by decide)).trans rfl)
  have e := full hg (by decide) m1 hl rfl (by decide) (fun q => by cases q) (takes_src ha) rfl rfl
    (by
      simp only [OpA.fields, Raw.mz, m4, m3, m20]; rfl) rfl rfl
  refine e.trans ?_
  simp only [OpA.fields]
  rw [if_neg (by rw [m4]; decide)]
  simp only [Raw.mode, Raw.order, Raw.tile, Raw.cv, mh, m4, m3, m20, m0, m0b, m1b, m2b, m10, raw_dOp, raw_aOp, raw_bOp, raw_cOp, raw_aVz, raw_bVz, raw_cVz, raw_f, raw_c, mode_ofCode, order_ofCode, scope_ofCode, fmt_ofCode, cond_ofCode, cvtType_ofCode, memType_ofCode, atomOp_ofCode, voteMode_ofCode, sumType_ofCode, maxType_ofCode, prefKind_ofCode, tileFmt_ofCode] <;> rfl

theorem preemptRes (x : OpA) : Statement (.preemptRes x) := of_fields rfl fun hok => by
  simp only [Instr.wf, OpA.ok, Bool.and_eq_true, and_assoc] at hok
  obtain ⟨hg, ha⟩ := hok
  obtain ⟨m1, mh, m4, m3, m20, m0b, m1b, m2b, m0, m10⟩ :=
    raw_m x.h 0xD6 x.a.code 0x490 0x490 16 0x490 true false (0) (by decide) (by simp)
  have hl : (x.h.raw 0xD6 0x490 x.a.code 0x490 0x490 16).layout = some _ := ((in_system (by decide)).trans rfl)
  have e := full hg (by decide) m1 hl rfl (by decide) (fun q => by cases q) (takes_src ha) rfl rfl
    (by
      simp only [OpA.fields, Raw.mz, m4, m3, m20]; rfl) rfl rfl
  refine e.trans ?_
  simp only [OpA.fields]
  rw [if_pos m4]
  simp only [Raw.mode, Raw.order, Raw.tile, Raw.cv, mh, m4, m3, m20, m0, m0b, m1b, m2b, m10, raw_dOp, raw_aOp, raw_bOp, raw_cOp, raw_aVz, raw_bVz, raw_cVz, raw_f, raw_c, mode_ofCode, order_ofCode, scope_ofCode, fmt_ofCode, cond_ofCode, cvtType_ofCode, memType_ofCode, atomOp_ofCode, voteMode_ofCode, sumType_ofCode, maxType_ofCode, prefKind_ofCode, tileFmt_ofCode] <;> rfl

theorem spark (x : OpA) : Statement (.spark x) :=
  of_fields rfl (opA_ok (k := .spark) (by decide) ((in_system (by decide)).trans rfl))

theorem watch (x : OpAB) : Statement (.watch x) :=
  of_fields rfl (opAB_ok (k := .watch) (by decide) ((in_system (by decide)).trans rfl))

theorem tlbinvPage (x : SwrOps) : Statement (.tlbinvPage x) := of_fields rfl swr_ok

theorem tlbinvContext (x : SwrOps) : Statement (.tlbinvContext x) := of_fields rfl swr_ok

theorem tlbinvAll (x : SwrOps) : Statement (.tlbinvAll x) := of_fields rfl swr_ok

theorem svcqRingReset (x : SwrOps) : Statement (.svcqRingReset x) := of_fields rfl swr_ok

theorem svcdoneReply (x : SwrOps) : Statement (.svcdoneReply x) := of_fields rfl swr_ok

theorem spillReplay (x : SwrOps) : Statement (.spillReplay x) := of_fields rfl swr_ok

theorem spillAbort (x : SwrOps) : Statement (.spillAbort x) := of_fields rfl swr_ok

theorem sequencerResume (x : SwrOps) : Statement (.sequencerResume x) := of_fields rfl swr_ok

theorem sequencerAbort (x : SwrOps) : Statement (.sequencerAbort x) := of_fields rfl swr_ok

theorem wpsClear (x : SwrOps) : Statement (.wpsClear x) := of_fields rfl swr_ok


/-! ### Pair words (R199 to R202) -/

theorem half_word (x : Half) (acc : Bool) :
    RawHalf.ofWord (x.raw acc).word = x.raw acc ∧ (x.raw acc).word < 2 ^ 31 := by
  obtain ⟨op, d, s, m3⟩ := x
  have h1 := halfOp_code op
  have h2 := d.isLt
  have h3 := s.isLt
  have h4 := m3.isLt
  have h5 := Bool.toNat_lt acc
  simp only [Half.raw, RawHalf.word, RawHalf.ofWord, bits_eq, RawHalf.mk.injEq]
  refine ⟨⟨?_, ?_, ?_, ?_, ?_⟩, ?_⟩ <;> simp <;> omega

theorem half_half (x : Half) (acc : Bool) : (x.raw acc).half x.op = x := by
  obtain ⟨op, d, s, m3⟩ := x
  simp only [Half.raw, RawHalf.half, Half.mk.injEq, true_and]
  exact ⟨fin_ofNat d, fin_ofNat s, fin_ofNat m3⟩

theorem pair (x : PairOps) : Statement (.pair x) := by
  intro hw w e
  simp only [encode, Option.some.injEq] at e
  subst e
  obtain ⟨h1, h2⟩ := half_word x.hi x.acc
  obtain ⟨h3, h4⟩ := half_word x.lo x.acc
  have hb : x.word < 2 ^ 64 := by simp only [PairOps.word]; omega
  have ht : (BitVec.ofNat 64 x.word).toNat = x.word := by
    rw [BitVec.toNat_ofNat]; exact Nat.mod_eq_of_lt hb
  have b1 : bits x.word 63 62 = 1 := by rw [bits_eq]; simp [PairOps.word]; omega
  have b2 : bits x.word 61 31 = (x.hi.raw x.acc).word := by rw [bits_eq]; simp [PairOps.word]; omega
  have b3 : bits x.word 30 0 = (x.lo.raw x.acc).word := by rw [bits_eq]; simp [PairOps.word]; omega
  simp only [decodeWords, decodeWord, ht, b1, b2, b3, h1, h3]
  have e1 : HalfOp.ofCode (x.hi.raw x.acc).op = some x.hi.op := halfOp_ofCode _
  have e2 : HalfOp.ofCode (x.lo.raw x.acc).op = some x.lo.op := halfOp_ofCode _
  have e3 : (x.hi.raw x.acc).acc = (x.lo.raw x.acc).acc := rfl
  have e4 : decide ((x.hi.raw x.acc).acc = 1) = x.acc := decide_toNat x.acc
  simp only [Instr.wf, PairOps.ok, Bool.and_eq_true, and_assoc] at hw
  obtain ⟨w1, w2, w3, w4, w5, w6, w7⟩ := hw
  simp only [decodePair, e1, e2, half_half, w1, w2, w3, w4, w5, w6, w7, e3]
  simp [e4, ← e3]
  rfl

/-! ### ZF words (R373) -/

/-- The word of ZF fields within their widths decodes as the fields do. -/
theorem zf_word (r : ZfRaw) (h1 : r.op < 64) (h2 : r.d < 32) (h3 : r.a < 32) (h4 : r.imm < 65536) :
    decodeWords (.zf (BitVec.ofNat 32 r.word)) = r.decode := by
  have hb : r.word < 2 ^ 32 := by simp only [ZfRaw.word]; omega
  have ht : (BitVec.ofNat 32 r.word).toNat = r.word := by
    rw [BitVec.toNat_ofNat]; exact Nat.mod_eq_of_lt hb
  have e : ZfRaw.ofWord r.word = r := by
    obtain ⟨op, d, a, imm⟩ := r
    simp only at h1 h2 h3 h4
    simp only [ZfRaw.ofWord, ZfRaw.word, bits_eq, ZfRaw.mk.injEq]
    refine ⟨?_, ?_, ?_, ?_⟩ <;> simp <;> omega
  simp only [decodeWords, decodeZf, ht, e]

theorem of_zf {i : Instr} {r : ZfRaw} (he : encode i = some (.zf (BitVec.ofNat 32 r.word))) (h1 : r.op < 64)
    (h2 : r.d < 32) (h3 : r.a < 32) (h4 : r.imm < 65536) (h : i.wf = true → r.decode = .ok i.asWord) : Statement i := by
  intro hw w e
  rw [he] at e
  cases e
  exact (zf_word r h1 h2 h3 h4).trans (h hw)

theorem zImm_fields (x : ZfImm) (op : Nat) : (x.fields op).zImm = x := by
  obtain ⟨d, a, imm⟩ := x
  simp only [ZfImm.fields, ZfRaw.zImm, ZfImm.mk.injEq]
  exact ⟨fin_ofNat d, fin_ofNat a, by simp⟩

/-- A register number above the function bits of a word (R373). -/
theorem high5 (b : Fin 32) (v : Nat) (h : v < 2048) :
    b.val * 2048 + v < 65536 ∧ Fin.ofNat 32 (bits (b.val * 2048 + v) 15 11) = b ∧ bits (b.val * 2048 + v) 15 11 = b.val
      ∧ bits (b.val * 2048 + v) 10 0 = v := by
  have hb := b.isLt
  have e : bits (b.val * 2048 + v) 15 11 = b.val := by rw [bits_eq]; simp; omega
  exact ⟨by omega, by rw [e]; exact fin_ofNat b, e, by rw [bits_eq]; simp; omega⟩

theorem regs_fields (x : ZfRegs) (op : Nat) :
    (x.fields op).imm < 65536 ∧ (x.fields op).regs = x ∧ (x.fields op).fn = 0 := by
  obtain ⟨d, a, b⟩ := x
  obtain ⟨h1, h2, h3, h4⟩ := high5 b 0 (by decide)
  simp only [Nat.add_zero] at h1 h2 h3 h4
  simp only [ZfRegs.fields, ZfRaw.regs, ZfRaw.b, ZfRaw.fn, ZfRegs.mk.injEq]
  exact ⟨h1, ⟨fin_ofNat d, fin_ofNat a, h2⟩, h4⟩

/-- The function bits of a transfer (R375). -/
def xferFn (x : ZfTransfer) : Nat :=
  x.acc.toNat * 128 + x.ownFin.toNat * 64 + x.lf.toNat * 32 + x.sr.toNat * 16 + x.wbk.val * 4 + x.wf.val

theorem xferFn_bits (x : ZfTransfer) : xferFn x < 256 ∧ bits (xferFn x) 1 0 = x.wf.val ∧ bits (xferFn x) 3 2 = x.wbk.val
    ∧ bit (xferFn x) 4 = x.sr ∧ bit (xferFn x) 5 = x.lf ∧ bit (xferFn x) 6 = x.ownFin ∧ bit (xferFn x) 7 = x.acc
    ∧ bits (xferFn x) 10 8 = 0 := by
  obtain ⟨d, a, b, wf, wbk, sr, lf, own, acc⟩ := x
  have h1 := wf.isLt
  have h2 := wbk.isLt
  simp only [xferFn, bits_eq, bit_eq]
  cases sr <;> cases lf <;> cases own <;> cases acc <;>
    (refine ⟨?_, ?_, ?_, ?_, ?_, ?_, ?_, ?_⟩ <;> simp <;> omega)

theorem transfer_fields (x : ZfTransfer) (op : Nat) :
    (x.fields op).imm < 65536 ∧ (x.fields op).transfer = x ∧ bits (x.fields op).fn 10 8 = 0 ∧ (x.fields op).b = x.b.val := by
  obtain ⟨h1, h2, h3, h4⟩ := high5 x.b (xferFn x) (by have := (xferFn_bits x).1; omega)
  obtain ⟨g0, g1, g2, g3, g4, g5, g6, g7⟩ := xferFn_bits x
  have e : (x.fields op).imm = x.b.val * 2048 + xferFn x := by simp only [ZfTransfer.fields, xferFn]; omega
  have ef : (x.fields op).fn = xferFn x := by simp only [ZfRaw.fn, e, h4]
  have eb : (x.fields op).b = x.b.val := by simp only [ZfRaw.b, e, h3]
  refine ⟨by omega, ?_, by rw [ef]; exact g7, eb⟩
  simp only [ZfRaw.transfer, ef, eb, g1, g2, g3, g4, g5, g6, fin_ofNat]
  simp only [ZfTransfer.fields, fin_ofNat]

theorem of_xfer {x : ZfTransfer} {op : Nat} {uB sr lf own acc : Bool} {k : ZfTransfer → Instr}
    (hb : uB || decide (x.b = 0)) (h1 : !x.sr || sr) (h2 : !x.lf || lf) (h3 : !x.ownFin || own) (h4 : !x.acc || acc) :
    (x.fields op).xfer uB sr lf own acc k = .ok (k x) := by
  obtain ⟨-, e1, e2, e3⟩ := transfer_fields x op
  simp only [ZfRaw.xfer, e1, e2, e3]
  rw [if_neg, if_neg]
  · cases x with | mk d a b wf wbk s l o c => cases s <;> cases l <;> cases o <;> cases c <;> simp_all
  · cases uB <;> simp_all

theorem movi (x : ZfImm) : Statement (.movi x) :=
  of_zf (r := x.fields 0x01) rfl (show 0x01 < 64 by decide) x.d.isLt x.a.isLt x.imm.isLt
    fun _ => (show ZfRaw.decode _ = .ok (.movi (x.fields 0x01).zImm) from rfl).trans (by rw [zImm_fields]; rfl)
theorem addi (x : ZfImm) : Statement (.addi x) :=
  of_zf (r := x.fields 0x02) rfl (show 0x02 < 64 by decide) x.d.isLt x.a.isLt x.imm.isLt
    fun _ => (show ZfRaw.decode _ = .ok (.addi (x.fields 0x02).zImm) from rfl).trans (by rw [zImm_fields]; rfl)
theorem beq (x : ZfImm) : Statement (.beq x) :=
  of_zf (r := x.fields 0x08) rfl (show 0x08 < 64 by decide) x.d.isLt x.a.isLt x.imm.isLt
    fun _ => (show ZfRaw.decode _ = .ok (.beq (x.fields 0x08).zImm) from rfl).trans (by rw [zImm_fields]; rfl)
theorem bne (x : ZfImm) : Statement (.bne x) :=
  of_zf (r := x.fields 0x09) rfl (show 0x09 < 64 by decide) x.d.isLt x.a.isLt x.imm.isLt
    fun _ => (show ZfRaw.decode _ = .ok (.bne (x.fields 0x09).zImm) from rfl).trans (by rw [zImm_fields]; rfl)

theorem of_regs {x : ZfRegs} {op : Nat} {k : ZfRegs → Instr} :
    ZfRaw.need ((x.fields op).fn = 0) (k (x.fields op).regs) = .ok (k x) := by
  obtain ⟨-, e1, e2⟩ := regs_fields x op
  simp [ZfRaw.need, e1, e2]
theorem zfAdd (x : ZfRegs) : Statement (.zfAdd x) :=
  of_zf (r := x.fields 0x03) rfl (show 0x03 < 64 by decide) x.d.isLt x.a.isLt (regs_fields x _).1 fun _ => of_regs (k := .zfAdd)
theorem zfSub (x : ZfRegs) : Statement (.zfSub x) :=
  of_zf (r := x.fields 0x04) rfl (show 0x04 < 64 by decide) x.d.isLt x.a.isLt (regs_fields x _).1 fun _ => of_regs (k := .zfSub)
theorem embBind (x : ZfRegs) : Statement (.embBind x) :=
  of_zf (r := x.fields 0x20) rfl (show 0x20 < 64 by decide) x.d.isLt x.a.isLt (regs_fields x _).1 fun _ => of_regs (k := .embBind)

theorem zfBra (imm : BitVec 16) : Statement (.zfBra imm) :=
  of_zf (r := ⟨0x0A, 0, 0, imm.toNat⟩) rfl (show 0x0A < 64 by decide) (show 0 < 32 by decide) (show 0 < 32 by decide) imm.isLt
    fun _ => show Except.ok (Instr.zfBra (BitVec.ofNat 16 imm.toNat)) = _ by simp [Instr.asWord]

theorem xsend (x : ZfTransfer) : Statement (.xsend x) :=
  of_zf (r := x.fields 0x10) rfl (show 0x10 < 64 by decide) x.d.isLt x.a.isLt (transfer_fields x _).1
    fun h => of_xfer (k := .xsend) (by simp) (by simp) (by simp) (by simp) (by simpa [Instr.wf] using h)
theorem xred (x : ZfTransfer) : Statement (.xred x) :=
  of_zf (r := x.fields 0x12) rfl (show 0x12 < 64 by decide) x.d.isLt x.a.isLt (transfer_fields x _).1
    fun h => of_xfer (k := .xred) (by simp) (by simp) (by simp) (by simp) (by simpa [Instr.wf] using h)
theorem xrecv (x : ZfTransfer) : Statement (.xrecv x) :=
  of_zf (r := x.fields 0x11) rfl (show 0x11 < 64 by decide) x.d.isLt x.a.isLt (transfer_fields x _).1
    fun h => by
      simp only [Instr.wf, Bool.and_eq_true, Bool.not_eq_true', decide_eq_true_eq] at h
      exact of_xfer (k := .xrecv) (by simp [h]) (by simp [h]) (by simp) (by simp [h]) (by simp)
theorem xfwd (x : ZfTransfer) : Statement (.xfwd x) :=
  of_zf (r := x.fields 0x13) rfl (show 0x13 < 64 by decide) x.d.isLt x.a.isLt (transfer_fields x _).1
    fun h => by
      simp only [Instr.wf, Bool.and_eq_true, Bool.not_eq_true', decide_eq_true_eq] at h
      exact of_xfer (k := .xfwd) (by simp [h]) (by simp [h]) (by simp [h]) (by simp [h]) (by simp [h])

theorem cwait (x : ZfWait) : Statement (.cwait x) := by
  have hs := x.scope.isLt
  obtain ⟨h1, h2, h3, h4⟩ := high5 x.b x.scope.val (by omega)
  have g1 : bits x.scope.val 10 3 = 0 := by rw [bits_eq]; simp; omega
  have g2 : bits x.scope.val 2 0 = x.scope.val := by rw [bits_eq]; simp <;> omega
  refine of_zf (r := ⟨0x18, 0, x.a.val, x.b.val * 2048 + x.scope.val⟩) rfl (show 0x18 < 64 by decide) (show 0 < 32 by decide) x.a.isLt h1 fun _ => ?_
  show ZfRaw.need _ (.cwait _) = _
  simp only [ZfRaw.need, ZfRaw.b, ZfRaw.fn, h2, h4, g1, g2, fin_ofNat]
  rfl

/-- The function bits of the advances (R503). -/
theorem adv_bits (rel : Bool) (s : Fin 8) : s.val * 4 + rel.toNat * 2 < 2048 ∧ bits (s.val * 4 + rel.toNat * 2) 10 5 = 0
    ∧ bits (s.val * 4 + rel.toNat * 2) 4 2 = s.val ∧ bit (s.val * 4 + rel.toNat * 2) 0 = false
    ∧ bit (s.val * 4 + rel.toNat * 2) 1 = rel := by
  have hs := s.isLt
  simp only [bits_eq, bit_eq]
  cases rel <;> (refine ⟨?_, ?_, ?_, ?_, ?_⟩ <;> simp <;> omega)

theorem adv_fields (x : ZfAdv) (op : Nat) : (x.fields op).imm = x.b.val * 2048 + (x.scope.val * 4 + x.rel.toNat * 2) := by
  simp only [ZfAdv.fields]; omega

theorem cadv (x : ZfAdv) : Statement (.cadv x) := by
  obtain ⟨g0, g1, g2, g3, g4⟩ := adv_bits x.rel x.scope
  obtain ⟨h1, h2, h3, h4⟩ := high5 x.b _ g0
  rw [← adv_fields x 0x19] at h1 h2 h3 h4
  refine of_zf (r := x.fields 0x19) rfl (show 0x19 < 64 by decide) (show 0 < 32 by decide) x.a.isLt h1 fun _ => ?_
  have hf : (x.fields 0x19).fn = x.scope.val * 4 + x.rel.toNat * 2 := h4
  have hb : Fin.ofNat 32 (x.fields 0x19).b = x.b := h2
  show (if bit (x.fields 0x19).fn 0 then _ else ZfRaw.need _ (.cadv _)) = _
  simp only [hf, hb, g1, g2, g3, g4, ZfRaw.need, fin_ofNat]
  simp [ZfAdv.fields, Instr.asWord]

theorem cadd (x : ZfAdv) : Statement (.cadd x) := by
  obtain ⟨g0, g1, g2, g3, g4⟩ := adv_bits x.rel x.scope
  obtain ⟨h1, h2, h3, h4⟩ := high5 x.b _ g0
  rw [← adv_fields x 0x1A] at h1 h2 h3 h4
  refine of_zf (r := x.fields 0x1A) rfl (show 0x1A < 64 by decide) (show 0 < 32 by decide) x.a.isLt h1 fun _ => ?_
  have hf : (x.fields 0x1A).fn = x.scope.val * 4 + x.rel.toNat * 2 := h4
  have hb : Fin.ofNat 32 (x.fields 0x1A).b = x.b := h2
  show ZfRaw.need _ (.cadd _) = _
  simp only [hf, hb, g1, g2, g3, g4, ZfRaw.need, fin_ofNat]
  simp [ZfAdv.fields, Instr.asWord]

theorem cadvRmt (x : ZfRmt) : Statement (.cadvRmt x) := by
  obtain ⟨g0, g1, g2, g3, g4⟩ : 20 + x.rel.toNat * 2 + 1 < 2048 ∧ bits (20 + x.rel.toNat * 2 + 1) 10 5 = 0
      ∧ bits (20 + x.rel.toNat * 2 + 1) 4 2 = 5 ∧ bit (20 + x.rel.toNat * 2 + 1) 0 = true
      ∧ bit (20 + x.rel.toNat * 2 + 1) 1 = x.rel := by cases x.rel <;> decide
  obtain ⟨h1, h2, h3, h4⟩ := high5 x.b _ g0
  have e : x.b.val * 2048 + 20 + x.rel.toNat * 2 + 1 = x.b.val * 2048 + (20 + x.rel.toNat * 2 + 1) := by omega
  have he : encode (.cadvRmt x) = some (.zf (BitVec.ofNat 32
      (ZfRaw.word ⟨0x19, x.d.val, x.a.val, x.b.val * 2048 + (20 + x.rel.toNat * 2 + 1)⟩))) := by rw [← e]; rfl
  refine of_zf he (show 0x19 < 64 by decide) x.d.isLt x.a.isLt h1 fun _ => ?_
  show (if bit (ZfRaw.fn ⟨_, _, _, _⟩) 0 then _ else _) = _
  simp only [ZfRaw.fn, ZfRaw.b, h2, h4, g1, g2, g3, g4, fin_ofNat]
  rfl

theorem embFold (x : ZfFold) : Statement (.embFold x) := by
  obtain ⟨g0, g1, g2⟩ : x.lbf16.toNat < 2048 ∧ bits x.lbf16.toNat 10 1 = 0 ∧ bit x.lbf16.toNat 0 = x.lbf16 := by
    cases x.lbf16 <;> decide
  obtain ⟨h1, h2, h3, h4⟩ := high5 x.b _ g0
  refine of_zf (r := ⟨0x21, 0, x.a.val, x.b.val * 2048 + x.lbf16.toNat⟩) rfl (show 0x21 < 64 by decide) (show 0 < 32 by decide) x.a.isLt h1 fun _ => ?_
  show ZfRaw.need _ (.embFold _) = _
  simp only [ZfRaw.need, ZfRaw.b, ZfRaw.fn, h2, h4, g1, g2, fin_ofNat]
  rfl

theorem zfDone : Statement .zfDone :=
  of_zf (r := ⟨0x3F, 0, 0, 0⟩) rfl (show 0x3F < 64 by decide) (show 0 < 32 by decide) (show 0 < 32 by decide) (by decide) fun _ => rfl

/-! ### Commands and events have no word -/

theorem tlbinvComplete (x0 : Nat) : Statement (.tlbinvComplete x0) := of_none rfl
theorem image (x0 : AkBytes) : Statement (.image x0) := of_none rfl
theorem memwr (x0 : AkBytes) : Statement (.memwr x0) := of_none rfl
theorem memrd (x0 : AkRead) : Statement (.memrd x0) := of_none rfl
theorem ctrmax (x0 : AkCtr) : Statement (.ctrmax x0) := of_none rfl
theorem ctxnew (x0 : AkCtxNew) : Statement (.ctxnew x0) := of_none rfl
theorem rootgo (x0 : AkRoot) : Statement (.rootgo x0) := of_none rfl
theorem seqgo (x0 : AkSeq) : Statement (.seqgo x0) := of_none rfl
theorem portcfg (x0 : AkPort) : Statement (.portcfg x0) := of_none rfl
theorem keyload (x0 : AkKey) : Statement (.keyload x0) := of_none rfl
theorem snaprd (x0 : AkSnap) : Statement (.snaprd x0) := of_none rfl
theorem akoonSpark (x0 : AkVal) : Statement (.akoonSpark x0) := of_none rfl
theorem power (x0 : AkVal) : Statement (.power x0) := of_none rfl
theorem resetDevice (x0 : AkHdr) : Statement (.resetDevice x0) := of_none rfl
theorem resetContext (x0 : AkVal) : Statement (.resetContext x0) := of_none rfl
theorem akoonUnknownCommand (x0 : AkHdr) (x1 : Nat) : Statement (.akoonUnknownCommand x0 x1) := of_none rfl
theorem powerUp : Statement .powerUp := of_none rfl
theorem launchAdmission (x0 : Nat) (x1 : Nat) : Statement (.launchAdmission x0 x1) := of_none rfl
theorem generationIssue (x0 : GenRef) : Statement (.generationIssue x0) := of_none rfl
theorem pathDue (x0 : PathRef) : Statement (.pathDue x0) := of_none rfl
theorem counterWaitComplete (x0 : PathRef) : Statement (.counterWaitComplete x0) := of_none rfl
theorem queueWaitComplete (x0 : PathRef) : Statement (.queueWaitComplete x0) := of_none rfl
theorem serviceReplyComplete (x0 : PathRef) : Statement (.serviceReplyComplete x0) := of_none rfl
theorem serviceSlotFree (x0 : GenRef) : Statement (.serviceSlotFree x0) := of_none rfl
theorem starvationExpiry (x0 : PathRef) : Statement (.starvationExpiry x0) := of_none rfl
theorem kindlingDispatch (x0 : Nat) (x1 : Nat) : Statement (.kindlingDispatch x0 x1) := of_none rfl
theorem workerAdmission (x0 : Nat) (x1 : Nat) : Statement (.workerAdmission x0 x1) := of_none rfl
theorem contextSave (x0 : Nat) : Statement (.contextSave x0) := of_none rfl
theorem contextResume (x0 : Nat) : Statement (.contextResume x0) := of_none rfl
theorem loadValueReturn (x0 : Nat) : Statement (.loadValueReturn x0) := of_none rfl
theorem pageWalkComplete (x0 : Nat) : Statement (.pageWalkComplete x0) := of_none rfl
theorem llcRequestServe (x0 : Nat) : Statement (.llcRequestServe x0) := of_none rfl
theorem orientationTurnComplete (x0 : Nat) : Statement (.orientationTurnComplete x0) := of_none rfl
theorem sectorEviction (x0 : Nat) : Statement (.sectorEviction x0) := of_none rfl
theorem class3Aging (x0 : Nat) (x1 : Nat) : Statement (.class3Aging x0 x1) := of_none rfl
theorem hostFillComplete (x0 : Nat) (x1 : Option (List Byte)) : Statement (.hostFillComplete x0 x1) := of_none rfl
theorem hostFillTimeout (x0 : Nat) : Statement (.hostFillTimeout x0) := of_none rfl
theorem wbStallRetry (x0 : Nat) : Statement (.wbStallRetry x0) := of_none rfl
theorem ownershipRecallComplete (x0 : Nat) (x1 : Nat) : Statement (.ownershipRecallComplete x0 x1) := of_none rfl
theorem ownershipWindow (x0 : Nat) : Statement (.ownershipWindow x0) := of_none rfl
theorem copyCommandAccept (x0 : PathRef) : Statement (.copyCommandAccept x0) := of_none rfl
theorem copyComplete (x0 : Nat) : Statement (.copyComplete x0) := of_none rfl
theorem matrixOpComplete (x0 : Nat) (x1 : Nat) : Statement (.matrixOpComplete x0 x1) := of_none rfl
theorem tileTransferComplete (x0 : Nat) (x1 : Nat) : Statement (.tileTransferComplete x0 x1) := of_none rfl
theorem governorWindow (x0 : Nat) : Statement (.governorWindow x0) := of_none rfl
theorem dieBudgetWindow (x0 : Nat) : Statement (.dieBudgetWindow x0) := of_none rfl
theorem kilnOperation (x0 : Nat) : Statement (.kilnOperation x0) := of_none rfl
theorem kendComplete (x0 : Nat) : Statement (.kendComplete x0) := of_none rfl
theorem frameSend (x0 : Nat) : Statement (.frameSend x0) := of_none rfl
theorem frameReceive (x0 : Nat) (x1 : Frame) : Statement (.frameReceive x0 x1) := of_none rfl
theorem linkAckSend (x0 : Nat) : Statement (.linkAckSend x0) := of_none rfl
theorem linkAckReceive (x0 : Nat) (x1 : W32) : Statement (.linkAckReceive x0 x1) := of_none rfl
theorem linkNackReceive (x0 : Nat) (x1 : W32) : Statement (.linkNackReceive x0 x1) := of_none rfl
theorem retryTimeout (x0 : Nat) : Statement (.retryTimeout x0) := of_none rfl
theorem replayDone (x0 : Nat) : Statement (.replayDone x0) := of_none rfl
theorem keyRollover (x0 : Nat) : Statement (.keyRollover x0) := of_none rfl
theorem keyloadApply (x0 : Nat) : Statement (.keyloadApply x0) := of_none rfl
theorem portMode0Drain (x0 : Nat) : Statement (.portMode0Drain x0) := of_none rfl
theorem laneLockLoss (x0 : Nat) (x1 : BitVec 4) : Statement (.laneLockLoss x0 x1) := of_none rfl
theorem retrainComplete (x0 : Nat) : Statement (.retrainComplete x0) := of_none rfl
theorem retrainTimeout (x0 : Nat) : Statement (.retrainTimeout x0) := of_none rfl
theorem putPacketReceive (x0 : Nat) : Statement (.putPacketReceive x0) := of_none rfl
theorem getRequestReceive (x0 : Nat) : Statement (.getRequestReceive x0) := of_none rfl
theorem getReplyReceive (x0 : Nat) : Statement (.getReplyReceive x0) := of_none rfl
theorem remoteAdvanceReceive (x0 : Nat) : Statement (.remoteAdvanceReceive x0) := of_none rfl
theorem transportAckReceive (x0 : Nat) (x1 : W32) : Statement (.transportAckReceive x0 x1) := of_none rfl
theorem transportNackReceive (x0 : Nat) (x1 : W32) (x2 : Nat) : Statement (.transportNackReceive x0 x1 x2) := of_none rfl
theorem transportResendTimeout (x0 : Nat) (x1 : W32) : Statement (.transportResendTimeout x0 x1) := of_none rfl
theorem remoteAdvanceSend (x0 : Nat) : Statement (.remoteAdvanceSend x0) := of_none rfl
theorem cwaitComplete (x0 : Nat) : Statement (.cwaitComplete x0) := of_none rfl
theorem sequencerWaitExpiry (x0 : Nat) : Statement (.sequencerWaitExpiry x0) := of_none rfl
theorem coreControlError (x0 : Nat) (x1 : Fin 16) : Statement (.coreControlError x0 x1) := of_none rfl
theorem tileControlError (x0 : Nat) (x1 : Fin 4) (x2 : Bool) : Statement (.tileControlError x0 x1 x2) := of_none rfl
theorem notAnInstruction (x0 : Fin 16) : Statement (.notAnInstruction x0) := of_none rfl
theorem fetchFault (x0 : Nat) (x1 : W64) : Statement (.fetchFault x0 x1) := of_none rfl
theorem zfOpcodeNotAllocated (x0 : W32) : Statement (.zfOpcodeNotAllocated x0) := of_none rfl
theorem zfWordNotFetched : Statement .zfWordNotFetched := of_none rfl
theorem creditGrant (x0 : Nat) (x1 : Bool) (x2 : Nat) : Statement (.creditGrant x0 x1 x2) := of_none rfl
theorem hostWriteAnswer (x0 : Nat) (x1 : Bool) : Statement (.hostWriteAnswer x0 x1) := of_none rfl
theorem hostWriteTimeout (x0 : Nat) : Statement (.hostWriteTimeout x0) := of_none rfl

end Sys2Proof.Laws.Encoding
end

