-- ==== Sys2Proof/Laws/State.lean ====
section
/-! SUPPORT. Laws/State.lean: what each update of the state leaves: one lemma for each update and each field that it does not change;
then what looking up a part, a register or a predicate gives after an update. -/

namespace Sys2Proof.Machine

/-! ### Fields -/

@[simp] theorem updCtx_phase (s : State) (n : Nat) (f : Ctx → Ctx) : (s.updCtx n f).phase = s.phase := rfl
@[simp] theorem updCtx_agenda (s : State) (n : Nat) (f : Ctx → Ctx) : (s.updCtx n f).agenda = s.agenda := rfl
@[simp] theorem updCtx_cur (s : State) (n : Nat) (f : Ctx → Ctx) : (s.updCtx n f).cur = s.cur := rfl
@[simp] theorem updCtx_held (s : State) (n : Nat) (f : Ctx → Ctx) : (s.updCtx n f).held = s.held := rfl
@[simp] theorem updCtx_ticks (s : State) (n : Nat) (f : Ctx → Ctx) : (s.updCtx n f).ticks = s.ticks := rfl
@[simp] theorem updCtx_stamp (s : State) (n : Nat) (f : Ctx → Ctx) : (s.updCtx n f).stamp = s.stamp := rfl
@[simp] theorem updCtx_coreClock (s : State) (n : Nat) (f : Ctx → Ctx) : (s.updCtx n f).coreClock = s.coreClock := rfl
@[simp] theorem updCtx_fabricClock (s : State) (n : Nat) (f : Ctx → Ctx) : (s.updCtx n f).fabricClock = s.fabricClock := rfl
@[simp] theorem updCtx_lead (s : State) (n : Nat) (f : Ctx → Ctx) : (s.updCtx n f).lead = s.lead := rfl
@[simp] theorem updCtx_mem (s : State) (n : Nat) (f : Ctx → Ctx) : (s.updCtx n f).mem = s.mem := rfl
@[simp] theorem updCtx_launches (s : State) (n : Nat) (f : Ctx → Ctx) : (s.updCtx n f).launches = s.launches := rfl
@[simp] theorem updCtx_groups (s : State) (n : Nat) (f : Ctx → Ctx) : (s.updCtx n f).groups = s.groups := rfl
@[simp] theorem updCtx_tasks (s : State) (n : Nat) (f : Ctx → Ctx) : (s.updCtx n f).tasks = s.tasks := rfl
@[simp] theorem updCtx_kindles (s : State) (n : Nat) (f : Ctx → Ctx) : (s.updCtx n f).kindles = s.kindles := rfl
@[simp] theorem updCtx_copies (s : State) (n : Nat) (f : Ctx → Ctx) : (s.updCtx n f).copies = s.copies := rfl
@[simp] theorem updCtx_kops (s : State) (n : Nat) (f : Ctx → Ctx) : (s.updCtx n f).kops = s.kops := rfl
@[simp] theorem updCtx_ports (s : State) (n : Nat) (f : Ctx → Ctx) : (s.updCtx n f).ports = s.ports := rfl
@[simp] theorem updCtx_net (s : State) (n : Nat) (f : Ctx → Ctx) : (s.updCtx n f).net = s.net := rfl
@[simp] theorem updCtx_seqs (s : State) (n : Nat) (f : Ctx → Ctx) : (s.updCtx n f).seqs = s.seqs := rfl
@[simp] theorem updCtx_seqLast (s : State) (n : Nat) (f : Ctx → Ctx) : (s.updCtx n f).seqLast = s.seqLast := rfl
@[simp] theorem updCtx_cores (s : State) (n : Nat) (f : Ctx → Ctx) : (s.updCtx n f).cores = s.cores := rfl
@[simp] theorem updCtx_dev (s : State) (n : Nat) (f : Ctx → Ctx) : (s.updCtx n f).dev = s.dev := rfl
@[simp] theorem updCtx_stops (s : State) (n : Nat) (f : Ctx → Ctx) : (s.updCtx n f).stops = s.stops := rfl

@[simp] theorem updGroup_phase (s : State) (k : Nat) (f : Group → Group) : (s.updGroup k f).phase = s.phase := rfl
@[simp] theorem updGroup_agenda (s : State) (k : Nat) (f : Group → Group) : (s.updGroup k f).agenda = s.agenda := rfl
@[simp] theorem updGroup_cur (s : State) (k : Nat) (f : Group → Group) : (s.updGroup k f).cur = s.cur := rfl
@[simp] theorem updGroup_held (s : State) (k : Nat) (f : Group → Group) : (s.updGroup k f).held = s.held := rfl
@[simp] theorem updGroup_ticks (s : State) (k : Nat) (f : Group → Group) : (s.updGroup k f).ticks = s.ticks := rfl
@[simp] theorem updGroup_stamp (s : State) (k : Nat) (f : Group → Group) : (s.updGroup k f).stamp = s.stamp := rfl
@[simp] theorem updGroup_coreClock (s : State) (k : Nat) (f : Group → Group) : (s.updGroup k f).coreClock = s.coreClock := rfl
@[simp] theorem updGroup_fabricClock (s : State) (k : Nat) (f : Group → Group) : (s.updGroup k f).fabricClock = s.fabricClock := rfl
@[simp] theorem updGroup_lead (s : State) (k : Nat) (f : Group → Group) : (s.updGroup k f).lead = s.lead := rfl
@[simp] theorem updGroup_mem (s : State) (k : Nat) (f : Group → Group) : (s.updGroup k f).mem = s.mem := rfl
@[simp] theorem updGroup_ctxs (s : State) (k : Nat) (f : Group → Group) : (s.updGroup k f).ctxs = s.ctxs := rfl
@[simp] theorem updGroup_launches (s : State) (k : Nat) (f : Group → Group) : (s.updGroup k f).launches = s.launches := rfl
@[simp] theorem updGroup_tasks (s : State) (k : Nat) (f : Group → Group) : (s.updGroup k f).tasks = s.tasks := rfl
@[simp] theorem updGroup_kindles (s : State) (k : Nat) (f : Group → Group) : (s.updGroup k f).kindles = s.kindles := rfl
@[simp] theorem updGroup_copies (s : State) (k : Nat) (f : Group → Group) : (s.updGroup k f).copies = s.copies := rfl
@[simp] theorem updGroup_kops (s : State) (k : Nat) (f : Group → Group) : (s.updGroup k f).kops = s.kops := rfl
@[simp] theorem updGroup_ports (s : State) (k : Nat) (f : Group → Group) : (s.updGroup k f).ports = s.ports := rfl
@[simp] theorem updGroup_net (s : State) (k : Nat) (f : Group → Group) : (s.updGroup k f).net = s.net := rfl
@[simp] theorem updGroup_seqs (s : State) (k : Nat) (f : Group → Group) : (s.updGroup k f).seqs = s.seqs := rfl
@[simp] theorem updGroup_seqLast (s : State) (k : Nat) (f : Group → Group) : (s.updGroup k f).seqLast = s.seqLast := rfl
@[simp] theorem updGroup_cores (s : State) (k : Nat) (f : Group → Group) : (s.updGroup k f).cores = s.cores := rfl
@[simp] theorem updGroup_dev (s : State) (k : Nat) (f : Group → Group) : (s.updGroup k f).dev = s.dev := rfl
@[simp] theorem updGroup_stops (s : State) (k : Nat) (f : Group → Group) : (s.updGroup k f).stops = s.stops := rfl

@[simp] theorem updWarp_phase (s : State) (k w : Nat) (f : Warp → Warp) : (s.updWarp k w f).phase = s.phase := rfl
@[simp] theorem updWarp_agenda (s : State) (k w : Nat) (f : Warp → Warp) : (s.updWarp k w f).agenda = s.agenda := rfl
@[simp] theorem updWarp_cur (s : State) (k w : Nat) (f : Warp → Warp) : (s.updWarp k w f).cur = s.cur := rfl
@[simp] theorem updWarp_held (s : State) (k w : Nat) (f : Warp → Warp) : (s.updWarp k w f).held = s.held := rfl
@[simp] theorem updWarp_ticks (s : State) (k w : Nat) (f : Warp → Warp) : (s.updWarp k w f).ticks = s.ticks := rfl
@[simp] theorem updWarp_stamp (s : State) (k w : Nat) (f : Warp → Warp) : (s.updWarp k w f).stamp = s.stamp := rfl
@[simp] theorem updWarp_coreClock (s : State) (k w : Nat) (f : Warp → Warp) : (s.updWarp k w f).coreClock = s.coreClock := rfl
@[simp] theorem updWarp_fabricClock (s : State) (k w : Nat) (f : Warp → Warp) : (s.updWarp k w f).fabricClock = s.fabricClock := rfl
@[simp] theorem updWarp_lead (s : State) (k w : Nat) (f : Warp → Warp) : (s.updWarp k w f).lead = s.lead := rfl
@[simp] theorem updWarp_mem (s : State) (k w : Nat) (f : Warp → Warp) : (s.updWarp k w f).mem = s.mem := rfl
@[simp] theorem updWarp_ctxs (s : State) (k w : Nat) (f : Warp → Warp) : (s.updWarp k w f).ctxs = s.ctxs := rfl
@[simp] theorem updWarp_launches (s : State) (k w : Nat) (f : Warp → Warp) : (s.updWarp k w f).launches = s.launches := rfl
@[simp] theorem updWarp_tasks (s : State) (k w : Nat) (f : Warp → Warp) : (s.updWarp k w f).tasks = s.tasks := rfl
@[simp] theorem updWarp_kindles (s : State) (k w : Nat) (f : Warp → Warp) : (s.updWarp k w f).kindles = s.kindles := rfl
@[simp] theorem updWarp_copies (s : State) (k w : Nat) (f : Warp → Warp) : (s.updWarp k w f).copies = s.copies := rfl
@[simp] theorem updWarp_kops (s : State) (k w : Nat) (f : Warp → Warp) : (s.updWarp k w f).kops = s.kops := rfl
@[simp] theorem updWarp_ports (s : State) (k w : Nat) (f : Warp → Warp) : (s.updWarp k w f).ports = s.ports := rfl
@[simp] theorem updWarp_net (s : State) (k w : Nat) (f : Warp → Warp) : (s.updWarp k w f).net = s.net := rfl
@[simp] theorem updWarp_seqs (s : State) (k w : Nat) (f : Warp → Warp) : (s.updWarp k w f).seqs = s.seqs := rfl
@[simp] theorem updWarp_seqLast (s : State) (k w : Nat) (f : Warp → Warp) : (s.updWarp k w f).seqLast = s.seqLast := rfl
@[simp] theorem updWarp_cores (s : State) (k w : Nat) (f : Warp → Warp) : (s.updWarp k w f).cores = s.cores := rfl
@[simp] theorem updWarp_dev (s : State) (k w : Nat) (f : Warp → Warp) : (s.updWarp k w f).dev = s.dev := rfl
@[simp] theorem updWarp_stops (s : State) (k w : Nat) (f : Warp → Warp) : (s.updWarp k w f).stops = s.stops := rfl

@[simp] theorem updThread_phase (s : State) (k w t : Nat) (f : Thread → Thread) : (s.updThread k w t f).phase = s.phase := rfl
@[simp] theorem updThread_agenda (s : State) (k w t : Nat) (f : Thread → Thread) : (s.updThread k w t f).agenda = s.agenda := rfl
@[simp] theorem updThread_cur (s : State) (k w t : Nat) (f : Thread → Thread) : (s.updThread k w t f).cur = s.cur := rfl
@[simp] theorem updThread_held (s : State) (k w t : Nat) (f : Thread → Thread) : (s.updThread k w t f).held = s.held := rfl
@[simp] theorem updThread_ticks (s : State) (k w t : Nat) (f : Thread → Thread) : (s.updThread k w t f).ticks = s.ticks := rfl
@[simp] theorem updThread_stamp (s : State) (k w t : Nat) (f : Thread → Thread) : (s.updThread k w t f).stamp = s.stamp := rfl
@[simp] theorem updThread_coreClock (s : State) (k w t : Nat) (f : Thread → Thread) : (s.updThread k w t f).coreClock = s.coreClock := rfl
@[simp] theorem updThread_fabricClock (s : State) (k w t : Nat) (f : Thread → Thread) : (s.updThread k w t f).fabricClock = s.fabricClock := rfl
@[simp] theorem updThread_lead (s : State) (k w t : Nat) (f : Thread → Thread) : (s.updThread k w t f).lead = s.lead := rfl
@[simp] theorem updThread_mem (s : State) (k w t : Nat) (f : Thread → Thread) : (s.updThread k w t f).mem = s.mem := rfl
@[simp] theorem updThread_ctxs (s : State) (k w t : Nat) (f : Thread → Thread) : (s.updThread k w t f).ctxs = s.ctxs := rfl
@[simp] theorem updThread_launches (s : State) (k w t : Nat) (f : Thread → Thread) : (s.updThread k w t f).launches = s.launches := rfl
@[simp] theorem updThread_tasks (s : State) (k w t : Nat) (f : Thread → Thread) : (s.updThread k w t f).tasks = s.tasks := rfl
@[simp] theorem updThread_kindles (s : State) (k w t : Nat) (f : Thread → Thread) : (s.updThread k w t f).kindles = s.kindles := rfl
@[simp] theorem updThread_copies (s : State) (k w t : Nat) (f : Thread → Thread) : (s.updThread k w t f).copies = s.copies := rfl
@[simp] theorem updThread_kops (s : State) (k w t : Nat) (f : Thread → Thread) : (s.updThread k w t f).kops = s.kops := rfl
@[simp] theorem updThread_ports (s : State) (k w t : Nat) (f : Thread → Thread) : (s.updThread k w t f).ports = s.ports := rfl
@[simp] theorem updThread_net (s : State) (k w t : Nat) (f : Thread → Thread) : (s.updThread k w t f).net = s.net := rfl
@[simp] theorem updThread_seqs (s : State) (k w t : Nat) (f : Thread → Thread) : (s.updThread k w t f).seqs = s.seqs := rfl
@[simp] theorem updThread_seqLast (s : State) (k w t : Nat) (f : Thread → Thread) : (s.updThread k w t f).seqLast = s.seqLast := rfl
@[simp] theorem updThread_cores (s : State) (k w t : Nat) (f : Thread → Thread) : (s.updThread k w t f).cores = s.cores := rfl
@[simp] theorem updThread_dev (s : State) (k w t : Nat) (f : Thread → Thread) : (s.updThread k w t f).dev = s.dev := rfl
@[simp] theorem updThread_stops (s : State) (k w t : Nat) (f : Thread → Thread) : (s.updThread k w t f).stops = s.stops := rfl

@[simp] theorem updPath_phase (s : State) (r : PathRef) (f : Path → Path) : (s.updPath r f).phase = s.phase := rfl
@[simp] theorem updPath_agenda (s : State) (r : PathRef) (f : Path → Path) : (s.updPath r f).agenda = s.agenda := rfl
@[simp] theorem updPath_cur (s : State) (r : PathRef) (f : Path → Path) : (s.updPath r f).cur = s.cur := rfl
@[simp] theorem updPath_held (s : State) (r : PathRef) (f : Path → Path) : (s.updPath r f).held = s.held := rfl
@[simp] theorem updPath_ticks (s : State) (r : PathRef) (f : Path → Path) : (s.updPath r f).ticks = s.ticks := rfl
@[simp] theorem updPath_stamp (s : State) (r : PathRef) (f : Path → Path) : (s.updPath r f).stamp = s.stamp := rfl
@[simp] theorem updPath_coreClock (s : State) (r : PathRef) (f : Path → Path) : (s.updPath r f).coreClock = s.coreClock := rfl
@[simp] theorem updPath_fabricClock (s : State) (r : PathRef) (f : Path → Path) : (s.updPath r f).fabricClock = s.fabricClock := rfl
@[simp] theorem updPath_lead (s : State) (r : PathRef) (f : Path → Path) : (s.updPath r f).lead = s.lead := rfl
@[simp] theorem updPath_mem (s : State) (r : PathRef) (f : Path → Path) : (s.updPath r f).mem = s.mem := rfl
@[simp] theorem updPath_ctxs (s : State) (r : PathRef) (f : Path → Path) : (s.updPath r f).ctxs = s.ctxs := rfl
@[simp] theorem updPath_launches (s : State) (r : PathRef) (f : Path → Path) : (s.updPath r f).launches = s.launches := rfl
@[simp] theorem updPath_tasks (s : State) (r : PathRef) (f : Path → Path) : (s.updPath r f).tasks = s.tasks := rfl
@[simp] theorem updPath_kindles (s : State) (r : PathRef) (f : Path → Path) : (s.updPath r f).kindles = s.kindles := rfl
@[simp] theorem updPath_copies (s : State) (r : PathRef) (f : Path → Path) : (s.updPath r f).copies = s.copies := rfl
@[simp] theorem updPath_kops (s : State) (r : PathRef) (f : Path → Path) : (s.updPath r f).kops = s.kops := rfl
@[simp] theorem updPath_ports (s : State) (r : PathRef) (f : Path → Path) : (s.updPath r f).ports = s.ports := rfl
@[simp] theorem updPath_net (s : State) (r : PathRef) (f : Path → Path) : (s.updPath r f).net = s.net := rfl
@[simp] theorem updPath_seqs (s : State) (r : PathRef) (f : Path → Path) : (s.updPath r f).seqs = s.seqs := rfl
@[simp] theorem updPath_seqLast (s : State) (r : PathRef) (f : Path → Path) : (s.updPath r f).seqLast = s.seqLast := rfl
@[simp] theorem updPath_cores (s : State) (r : PathRef) (f : Path → Path) : (s.updPath r f).cores = s.cores := rfl
@[simp] theorem updPath_dev (s : State) (r : PathRef) (f : Path → Path) : (s.updPath r f).dev = s.dev := rfl
@[simp] theorem updPath_stops (s : State) (r : PathRef) (f : Path → Path) : (s.updPath r f).stops = s.stops := rfl

@[simp] theorem updLaunch_phase (s : State) (k : Nat) (f : Launch → Launch) : (s.updLaunch k f).phase = s.phase := rfl
@[simp] theorem updLaunch_agenda (s : State) (k : Nat) (f : Launch → Launch) : (s.updLaunch k f).agenda = s.agenda := rfl
@[simp] theorem updLaunch_cur (s : State) (k : Nat) (f : Launch → Launch) : (s.updLaunch k f).cur = s.cur := rfl
@[simp] theorem updLaunch_held (s : State) (k : Nat) (f : Launch → Launch) : (s.updLaunch k f).held = s.held := rfl
@[simp] theorem updLaunch_ticks (s : State) (k : Nat) (f : Launch → Launch) : (s.updLaunch k f).ticks = s.ticks := rfl
@[simp] theorem updLaunch_stamp (s : State) (k : Nat) (f : Launch → Launch) : (s.updLaunch k f).stamp = s.stamp := rfl
@[simp] theorem updLaunch_coreClock (s : State) (k : Nat) (f : Launch → Launch) : (s.updLaunch k f).coreClock = s.coreClock := rfl
@[simp] theorem updLaunch_fabricClock (s : State) (k : Nat) (f : Launch → Launch) : (s.updLaunch k f).fabricClock = s.fabricClock := rfl
@[simp] theorem updLaunch_lead (s : State) (k : Nat) (f : Launch → Launch) : (s.updLaunch k f).lead = s.lead := rfl
@[simp] theorem updLaunch_mem (s : State) (k : Nat) (f : Launch → Launch) : (s.updLaunch k f).mem = s.mem := rfl
@[simp] theorem updLaunch_ctxs (s : State) (k : Nat) (f : Launch → Launch) : (s.updLaunch k f).ctxs = s.ctxs := rfl
@[simp] theorem updLaunch_groups (s : State) (k : Nat) (f : Launch → Launch) : (s.updLaunch k f).groups = s.groups := rfl
@[simp] theorem updLaunch_tasks (s : State) (k : Nat) (f : Launch → Launch) : (s.updLaunch k f).tasks = s.tasks := rfl
@[simp] theorem updLaunch_kindles (s : State) (k : Nat) (f : Launch → Launch) : (s.updLaunch k f).kindles = s.kindles := rfl
@[simp] theorem updLaunch_copies (s : State) (k : Nat) (f : Launch → Launch) : (s.updLaunch k f).copies = s.copies := rfl
@[simp] theorem updLaunch_kops (s : State) (k : Nat) (f : Launch → Launch) : (s.updLaunch k f).kops = s.kops := rfl
@[simp] theorem updLaunch_ports (s : State) (k : Nat) (f : Launch → Launch) : (s.updLaunch k f).ports = s.ports := rfl
@[simp] theorem updLaunch_net (s : State) (k : Nat) (f : Launch → Launch) : (s.updLaunch k f).net = s.net := rfl
@[simp] theorem updLaunch_seqs (s : State) (k : Nat) (f : Launch → Launch) : (s.updLaunch k f).seqs = s.seqs := rfl
@[simp] theorem updLaunch_seqLast (s : State) (k : Nat) (f : Launch → Launch) : (s.updLaunch k f).seqLast = s.seqLast := rfl
@[simp] theorem updLaunch_cores (s : State) (k : Nat) (f : Launch → Launch) : (s.updLaunch k f).cores = s.cores := rfl
@[simp] theorem updLaunch_dev (s : State) (k : Nat) (f : Launch → Launch) : (s.updLaunch k f).dev = s.dev := rfl
@[simp] theorem updLaunch_stops (s : State) (k : Nat) (f : Launch → Launch) : (s.updLaunch k f).stops = s.stops := rfl

@[simp] theorem updTask_phase (s : State) (c i : Nat) (f : Task → Task) : (s.updTask c i f).phase = s.phase := rfl
@[simp] theorem updTask_agenda (s : State) (c i : Nat) (f : Task → Task) : (s.updTask c i f).agenda = s.agenda := rfl
@[simp] theorem updTask_cur (s : State) (c i : Nat) (f : Task → Task) : (s.updTask c i f).cur = s.cur := rfl
@[simp] theorem updTask_held (s : State) (c i : Nat) (f : Task → Task) : (s.updTask c i f).held = s.held := rfl
@[simp] theorem updTask_ticks (s : State) (c i : Nat) (f : Task → Task) : (s.updTask c i f).ticks = s.ticks := rfl
@[simp] theorem updTask_stamp (s : State) (c i : Nat) (f : Task → Task) : (s.updTask c i f).stamp = s.stamp := rfl
@[simp] theorem updTask_coreClock (s : State) (c i : Nat) (f : Task → Task) : (s.updTask c i f).coreClock = s.coreClock := rfl
@[simp] theorem updTask_fabricClock (s : State) (c i : Nat) (f : Task → Task) : (s.updTask c i f).fabricClock = s.fabricClock := rfl
@[simp] theorem updTask_lead (s : State) (c i : Nat) (f : Task → Task) : (s.updTask c i f).lead = s.lead := rfl
@[simp] theorem updTask_mem (s : State) (c i : Nat) (f : Task → Task) : (s.updTask c i f).mem = s.mem := rfl
@[simp] theorem updTask_ctxs (s : State) (c i : Nat) (f : Task → Task) : (s.updTask c i f).ctxs = s.ctxs := rfl
@[simp] theorem updTask_launches (s : State) (c i : Nat) (f : Task → Task) : (s.updTask c i f).launches = s.launches := rfl
@[simp] theorem updTask_groups (s : State) (c i : Nat) (f : Task → Task) : (s.updTask c i f).groups = s.groups := rfl
@[simp] theorem updTask_kindles (s : State) (c i : Nat) (f : Task → Task) : (s.updTask c i f).kindles = s.kindles := rfl
@[simp] theorem updTask_copies (s : State) (c i : Nat) (f : Task → Task) : (s.updTask c i f).copies = s.copies := rfl
@[simp] theorem updTask_kops (s : State) (c i : Nat) (f : Task → Task) : (s.updTask c i f).kops = s.kops := rfl
@[simp] theorem updTask_ports (s : State) (c i : Nat) (f : Task → Task) : (s.updTask c i f).ports = s.ports := rfl
@[simp] theorem updTask_net (s : State) (c i : Nat) (f : Task → Task) : (s.updTask c i f).net = s.net := rfl
@[simp] theorem updTask_seqs (s : State) (c i : Nat) (f : Task → Task) : (s.updTask c i f).seqs = s.seqs := rfl
@[simp] theorem updTask_seqLast (s : State) (c i : Nat) (f : Task → Task) : (s.updTask c i f).seqLast = s.seqLast := rfl
@[simp] theorem updTask_cores (s : State) (c i : Nat) (f : Task → Task) : (s.updTask c i f).cores = s.cores := rfl
@[simp] theorem updTask_dev (s : State) (c i : Nat) (f : Task → Task) : (s.updTask c i f).dev = s.dev := rfl
@[simp] theorem updTask_stops (s : State) (c i : Nat) (f : Task → Task) : (s.updTask c i f).stops = s.stops := rfl

@[simp] theorem updPort_phase (s : State) (n : Nat) (f : Port → Port) : (s.updPort n f).phase = s.phase := rfl
@[simp] theorem updPort_agenda (s : State) (n : Nat) (f : Port → Port) : (s.updPort n f).agenda = s.agenda := rfl
@[simp] theorem updPort_cur (s : State) (n : Nat) (f : Port → Port) : (s.updPort n f).cur = s.cur := rfl
@[simp] theorem updPort_held (s : State) (n : Nat) (f : Port → Port) : (s.updPort n f).held = s.held := rfl
@[simp] theorem updPort_ticks (s : State) (n : Nat) (f : Port → Port) : (s.updPort n f).ticks = s.ticks := rfl
@[simp] theorem updPort_stamp (s : State) (n : Nat) (f : Port → Port) : (s.updPort n f).stamp = s.stamp := rfl
@[simp] theorem updPort_coreClock (s : State) (n : Nat) (f : Port → Port) : (s.updPort n f).coreClock = s.coreClock := rfl
@[simp] theorem updPort_fabricClock (s : State) (n : Nat) (f : Port → Port) : (s.updPort n f).fabricClock = s.fabricClock := rfl
@[simp] theorem updPort_lead (s : State) (n : Nat) (f : Port → Port) : (s.updPort n f).lead = s.lead := rfl
@[simp] theorem updPort_mem (s : State) (n : Nat) (f : Port → Port) : (s.updPort n f).mem = s.mem := rfl
@[simp] theorem updPort_ctxs (s : State) (n : Nat) (f : Port → Port) : (s.updPort n f).ctxs = s.ctxs := rfl
@[simp] theorem updPort_launches (s : State) (n : Nat) (f : Port → Port) : (s.updPort n f).launches = s.launches := rfl
@[simp] theorem updPort_groups (s : State) (n : Nat) (f : Port → Port) : (s.updPort n f).groups = s.groups := rfl
@[simp] theorem updPort_tasks (s : State) (n : Nat) (f : Port → Port) : (s.updPort n f).tasks = s.tasks := rfl
@[simp] theorem updPort_kindles (s : State) (n : Nat) (f : Port → Port) : (s.updPort n f).kindles = s.kindles := rfl
@[simp] theorem updPort_copies (s : State) (n : Nat) (f : Port → Port) : (s.updPort n f).copies = s.copies := rfl
@[simp] theorem updPort_kops (s : State) (n : Nat) (f : Port → Port) : (s.updPort n f).kops = s.kops := rfl
@[simp] theorem updPort_net (s : State) (n : Nat) (f : Port → Port) : (s.updPort n f).net = s.net := rfl
@[simp] theorem updPort_seqs (s : State) (n : Nat) (f : Port → Port) : (s.updPort n f).seqs = s.seqs := rfl
@[simp] theorem updPort_seqLast (s : State) (n : Nat) (f : Port → Port) : (s.updPort n f).seqLast = s.seqLast := rfl
@[simp] theorem updPort_cores (s : State) (n : Nat) (f : Port → Port) : (s.updPort n f).cores = s.cores := rfl
@[simp] theorem updPort_dev (s : State) (n : Nat) (f : Port → Port) : (s.updPort n f).dev = s.dev := rfl
@[simp] theorem updPort_stops (s : State) (n : Nat) (f : Port → Port) : (s.updPort n f).stops = s.stops := rfl

@[simp] theorem updSeq_phase (s : State) (n : Nat) (f : Seq → Seq) : (s.updSeq n f).phase = s.phase := rfl
@[simp] theorem updSeq_agenda (s : State) (n : Nat) (f : Seq → Seq) : (s.updSeq n f).agenda = s.agenda := rfl
@[simp] theorem updSeq_cur (s : State) (n : Nat) (f : Seq → Seq) : (s.updSeq n f).cur = s.cur := rfl
@[simp] theorem updSeq_held (s : State) (n : Nat) (f : Seq → Seq) : (s.updSeq n f).held = s.held := rfl
@[simp] theorem updSeq_ticks (s : State) (n : Nat) (f : Seq → Seq) : (s.updSeq n f).ticks = s.ticks := rfl
@[simp] theorem updSeq_stamp (s : State) (n : Nat) (f : Seq → Seq) : (s.updSeq n f).stamp = s.stamp := rfl
@[simp] theorem updSeq_coreClock (s : State) (n : Nat) (f : Seq → Seq) : (s.updSeq n f).coreClock = s.coreClock := rfl
@[simp] theorem updSeq_fabricClock (s : State) (n : Nat) (f : Seq → Seq) : (s.updSeq n f).fabricClock = s.fabricClock := rfl
@[simp] theorem updSeq_lead (s : State) (n : Nat) (f : Seq → Seq) : (s.updSeq n f).lead = s.lead := rfl
@[simp] theorem updSeq_mem (s : State) (n : Nat) (f : Seq → Seq) : (s.updSeq n f).mem = s.mem := rfl
@[simp] theorem updSeq_ctxs (s : State) (n : Nat) (f : Seq → Seq) : (s.updSeq n f).ctxs = s.ctxs := rfl
@[simp] theorem updSeq_launches (s : State) (n : Nat) (f : Seq → Seq) : (s.updSeq n f).launches = s.launches := rfl
@[simp] theorem updSeq_groups (s : State) (n : Nat) (f : Seq → Seq) : (s.updSeq n f).groups = s.groups := rfl
@[simp] theorem updSeq_tasks (s : State) (n : Nat) (f : Seq → Seq) : (s.updSeq n f).tasks = s.tasks := rfl
@[simp] theorem updSeq_kindles (s : State) (n : Nat) (f : Seq → Seq) : (s.updSeq n f).kindles = s.kindles := rfl
@[simp] theorem updSeq_copies (s : State) (n : Nat) (f : Seq → Seq) : (s.updSeq n f).copies = s.copies := rfl
@[simp] theorem updSeq_kops (s : State) (n : Nat) (f : Seq → Seq) : (s.updSeq n f).kops = s.kops := rfl
@[simp] theorem updSeq_ports (s : State) (n : Nat) (f : Seq → Seq) : (s.updSeq n f).ports = s.ports := rfl
@[simp] theorem updSeq_net (s : State) (n : Nat) (f : Seq → Seq) : (s.updSeq n f).net = s.net := rfl
@[simp] theorem updSeq_seqLast (s : State) (n : Nat) (f : Seq → Seq) : (s.updSeq n f).seqLast = s.seqLast := rfl
@[simp] theorem updSeq_cores (s : State) (n : Nat) (f : Seq → Seq) : (s.updSeq n f).cores = s.cores := rfl
@[simp] theorem updSeq_dev (s : State) (n : Nat) (f : Seq → Seq) : (s.updSeq n f).dev = s.dev := rfl
@[simp] theorem updSeq_stops (s : State) (n : Nat) (f : Seq → Seq) : (s.updSeq n f).stops = s.stops := rfl

@[simp] theorem updCmd_phase (s : State) (n : Nat) (f : Cmd → Cmd) : (s.updCmd n f).phase = s.phase := rfl
@[simp] theorem updCmd_agenda (s : State) (n : Nat) (f : Cmd → Cmd) : (s.updCmd n f).agenda = s.agenda := rfl
@[simp] theorem updCmd_cur (s : State) (n : Nat) (f : Cmd → Cmd) : (s.updCmd n f).cur = s.cur := rfl
@[simp] theorem updCmd_held (s : State) (n : Nat) (f : Cmd → Cmd) : (s.updCmd n f).held = s.held := rfl
@[simp] theorem updCmd_ticks (s : State) (n : Nat) (f : Cmd → Cmd) : (s.updCmd n f).ticks = s.ticks := rfl
@[simp] theorem updCmd_stamp (s : State) (n : Nat) (f : Cmd → Cmd) : (s.updCmd n f).stamp = s.stamp := rfl
@[simp] theorem updCmd_coreClock (s : State) (n : Nat) (f : Cmd → Cmd) : (s.updCmd n f).coreClock = s.coreClock := rfl
@[simp] theorem updCmd_fabricClock (s : State) (n : Nat) (f : Cmd → Cmd) : (s.updCmd n f).fabricClock = s.fabricClock := rfl
@[simp] theorem updCmd_lead (s : State) (n : Nat) (f : Cmd → Cmd) : (s.updCmd n f).lead = s.lead := rfl
@[simp] theorem updCmd_mem (s : State) (n : Nat) (f : Cmd → Cmd) : (s.updCmd n f).mem = s.mem := rfl
@[simp] theorem updCmd_ctxs (s : State) (n : Nat) (f : Cmd → Cmd) : (s.updCmd n f).ctxs = s.ctxs := rfl
@[simp] theorem updCmd_launches (s : State) (n : Nat) (f : Cmd → Cmd) : (s.updCmd n f).launches = s.launches := rfl
@[simp] theorem updCmd_groups (s : State) (n : Nat) (f : Cmd → Cmd) : (s.updCmd n f).groups = s.groups := rfl
@[simp] theorem updCmd_tasks (s : State) (n : Nat) (f : Cmd → Cmd) : (s.updCmd n f).tasks = s.tasks := rfl
@[simp] theorem updCmd_kindles (s : State) (n : Nat) (f : Cmd → Cmd) : (s.updCmd n f).kindles = s.kindles := rfl
@[simp] theorem updCmd_kops (s : State) (n : Nat) (f : Cmd → Cmd) : (s.updCmd n f).kops = s.kops := rfl
@[simp] theorem updCmd_ports (s : State) (n : Nat) (f : Cmd → Cmd) : (s.updCmd n f).ports = s.ports := rfl
@[simp] theorem updCmd_net (s : State) (n : Nat) (f : Cmd → Cmd) : (s.updCmd n f).net = s.net := rfl
@[simp] theorem updCmd_seqs (s : State) (n : Nat) (f : Cmd → Cmd) : (s.updCmd n f).seqs = s.seqs := rfl
@[simp] theorem updCmd_seqLast (s : State) (n : Nat) (f : Cmd → Cmd) : (s.updCmd n f).seqLast = s.seqLast := rfl
@[simp] theorem updCmd_cores (s : State) (n : Nat) (f : Cmd → Cmd) : (s.updCmd n f).cores = s.cores := rfl
@[simp] theorem updCmd_dev (s : State) (n : Nat) (f : Cmd → Cmd) : (s.updCmd n f).dev = s.dev := rfl
@[simp] theorem updCmd_stops (s : State) (n : Nat) (f : Cmd → Cmd) : (s.updCmd n f).stops = s.stops := rfl

@[simp] theorem updPdc_phase (s : State) (n : Nat) (f : Pdc → Pdc) : (s.updPdc n f).phase = s.phase := rfl
@[simp] theorem updPdc_agenda (s : State) (n : Nat) (f : Pdc → Pdc) : (s.updPdc n f).agenda = s.agenda := rfl
@[simp] theorem updPdc_cur (s : State) (n : Nat) (f : Pdc → Pdc) : (s.updPdc n f).cur = s.cur := rfl
@[simp] theorem updPdc_held (s : State) (n : Nat) (f : Pdc → Pdc) : (s.updPdc n f).held = s.held := rfl
@[simp] theorem updPdc_ticks (s : State) (n : Nat) (f : Pdc → Pdc) : (s.updPdc n f).ticks = s.ticks := rfl
@[simp] theorem updPdc_stamp (s : State) (n : Nat) (f : Pdc → Pdc) : (s.updPdc n f).stamp = s.stamp := rfl
@[simp] theorem updPdc_coreClock (s : State) (n : Nat) (f : Pdc → Pdc) : (s.updPdc n f).coreClock = s.coreClock := rfl
@[simp] theorem updPdc_fabricClock (s : State) (n : Nat) (f : Pdc → Pdc) : (s.updPdc n f).fabricClock = s.fabricClock := rfl
@[simp] theorem updPdc_lead (s : State) (n : Nat) (f : Pdc → Pdc) : (s.updPdc n f).lead = s.lead := rfl
@[simp] theorem updPdc_mem (s : State) (n : Nat) (f : Pdc → Pdc) : (s.updPdc n f).mem = s.mem := rfl
@[simp] theorem updPdc_ctxs (s : State) (n : Nat) (f : Pdc → Pdc) : (s.updPdc n f).ctxs = s.ctxs := rfl
@[simp] theorem updPdc_launches (s : State) (n : Nat) (f : Pdc → Pdc) : (s.updPdc n f).launches = s.launches := rfl
@[simp] theorem updPdc_groups (s : State) (n : Nat) (f : Pdc → Pdc) : (s.updPdc n f).groups = s.groups := rfl
@[simp] theorem updPdc_tasks (s : State) (n : Nat) (f : Pdc → Pdc) : (s.updPdc n f).tasks = s.tasks := rfl
@[simp] theorem updPdc_kindles (s : State) (n : Nat) (f : Pdc → Pdc) : (s.updPdc n f).kindles = s.kindles := rfl
@[simp] theorem updPdc_copies (s : State) (n : Nat) (f : Pdc → Pdc) : (s.updPdc n f).copies = s.copies := rfl
@[simp] theorem updPdc_kops (s : State) (n : Nat) (f : Pdc → Pdc) : (s.updPdc n f).kops = s.kops := rfl
@[simp] theorem updPdc_ports (s : State) (n : Nat) (f : Pdc → Pdc) : (s.updPdc n f).ports = s.ports := rfl
@[simp] theorem updPdc_seqs (s : State) (n : Nat) (f : Pdc → Pdc) : (s.updPdc n f).seqs = s.seqs := rfl
@[simp] theorem updPdc_seqLast (s : State) (n : Nat) (f : Pdc → Pdc) : (s.updPdc n f).seqLast = s.seqLast := rfl
@[simp] theorem updPdc_cores (s : State) (n : Nat) (f : Pdc → Pdc) : (s.updPdc n f).cores = s.cores := rfl
@[simp] theorem updPdc_dev (s : State) (n : Nat) (f : Pdc → Pdc) : (s.updPdc n f).dev = s.dev := rfl
@[simp] theorem updPdc_stops (s : State) (n : Nat) (f : Pdc → Pdc) : (s.updPdc n f).stops = s.stops := rfl

@[simp] theorem updRemote_phase (s : State) (n : Nat) (f : RemoteOp → RemoteOp) : (s.updRemote n f).phase = s.phase := rfl
@[simp] theorem updRemote_agenda (s : State) (n : Nat) (f : RemoteOp → RemoteOp) : (s.updRemote n f).agenda = s.agenda := rfl
@[simp] theorem updRemote_cur (s : State) (n : Nat) (f : RemoteOp → RemoteOp) : (s.updRemote n f).cur = s.cur := rfl
@[simp] theorem updRemote_held (s : State) (n : Nat) (f : RemoteOp → RemoteOp) : (s.updRemote n f).held = s.held := rfl
@[simp] theorem updRemote_ticks (s : State) (n : Nat) (f : RemoteOp → RemoteOp) : (s.updRemote n f).ticks = s.ticks := rfl
@[simp] theorem updRemote_stamp (s : State) (n : Nat) (f : RemoteOp → RemoteOp) : (s.updRemote n f).stamp = s.stamp := rfl
@[simp] theorem updRemote_coreClock (s : State) (n : Nat) (f : RemoteOp → RemoteOp) : (s.updRemote n f).coreClock = s.coreClock := rfl
@[simp] theorem updRemote_fabricClock (s : State) (n : Nat) (f : RemoteOp → RemoteOp) : (s.updRemote n f).fabricClock = s.fabricClock := rfl
@[simp] theorem updRemote_lead (s : State) (n : Nat) (f : RemoteOp → RemoteOp) : (s.updRemote n f).lead = s.lead := rfl
@[simp] theorem updRemote_mem (s : State) (n : Nat) (f : RemoteOp → RemoteOp) : (s.updRemote n f).mem = s.mem := rfl
@[simp] theorem updRemote_ctxs (s : State) (n : Nat) (f : RemoteOp → RemoteOp) : (s.updRemote n f).ctxs = s.ctxs := rfl
@[simp] theorem updRemote_launches (s : State) (n : Nat) (f : RemoteOp → RemoteOp) : (s.updRemote n f).launches = s.launches := rfl
@[simp] theorem updRemote_groups (s : State) (n : Nat) (f : RemoteOp → RemoteOp) : (s.updRemote n f).groups = s.groups := rfl
@[simp] theorem updRemote_tasks (s : State) (n : Nat) (f : RemoteOp → RemoteOp) : (s.updRemote n f).tasks = s.tasks := rfl
@[simp] theorem updRemote_kindles (s : State) (n : Nat) (f : RemoteOp → RemoteOp) : (s.updRemote n f).kindles = s.kindles := rfl
@[simp] theorem updRemote_copies (s : State) (n : Nat) (f : RemoteOp → RemoteOp) : (s.updRemote n f).copies = s.copies := rfl
@[simp] theorem updRemote_kops (s : State) (n : Nat) (f : RemoteOp → RemoteOp) : (s.updRemote n f).kops = s.kops := rfl
@[simp] theorem updRemote_ports (s : State) (n : Nat) (f : RemoteOp → RemoteOp) : (s.updRemote n f).ports = s.ports := rfl
@[simp] theorem updRemote_seqs (s : State) (n : Nat) (f : RemoteOp → RemoteOp) : (s.updRemote n f).seqs = s.seqs := rfl
@[simp] theorem updRemote_seqLast (s : State) (n : Nat) (f : RemoteOp → RemoteOp) : (s.updRemote n f).seqLast = s.seqLast := rfl
@[simp] theorem updRemote_cores (s : State) (n : Nat) (f : RemoteOp → RemoteOp) : (s.updRemote n f).cores = s.cores := rfl
@[simp] theorem updRemote_dev (s : State) (n : Nat) (f : RemoteOp → RemoteOp) : (s.updRemote n f).dev = s.dev := rfl
@[simp] theorem updRemote_stops (s : State) (n : Nat) (f : RemoteOp → RemoteOp) : (s.updRemote n f).stops = s.stops := rfl

@[simp] theorem count_phase (s : State) (a b c n : Nat) : (s.count a b c n).phase = s.phase := rfl
@[simp] theorem count_agenda (s : State) (a b c n : Nat) : (s.count a b c n).agenda = s.agenda := rfl
@[simp] theorem count_cur (s : State) (a b c n : Nat) : (s.count a b c n).cur = s.cur := rfl
@[simp] theorem count_held (s : State) (a b c n : Nat) : (s.count a b c n).held = s.held := rfl
@[simp] theorem count_ticks (s : State) (a b c n : Nat) : (s.count a b c n).ticks = s.ticks := rfl
@[simp] theorem count_stamp (s : State) (a b c n : Nat) : (s.count a b c n).stamp = s.stamp := rfl
@[simp] theorem count_coreClock (s : State) (a b c n : Nat) : (s.count a b c n).coreClock = s.coreClock := rfl
@[simp] theorem count_fabricClock (s : State) (a b c n : Nat) : (s.count a b c n).fabricClock = s.fabricClock := rfl
@[simp] theorem count_lead (s : State) (a b c n : Nat) : (s.count a b c n).lead = s.lead := rfl
@[simp] theorem count_mem (s : State) (a b c n : Nat) : (s.count a b c n).mem = s.mem := rfl
@[simp] theorem count_ctxs (s : State) (a b c n : Nat) : (s.count a b c n).ctxs = s.ctxs := rfl
@[simp] theorem count_launches (s : State) (a b c n : Nat) : (s.count a b c n).launches = s.launches := rfl
@[simp] theorem count_groups (s : State) (a b c n : Nat) : (s.count a b c n).groups = s.groups := rfl
@[simp] theorem count_tasks (s : State) (a b c n : Nat) : (s.count a b c n).tasks = s.tasks := rfl
@[simp] theorem count_kindles (s : State) (a b c n : Nat) : (s.count a b c n).kindles = s.kindles := rfl
@[simp] theorem count_copies (s : State) (a b c n : Nat) : (s.count a b c n).copies = s.copies := rfl
@[simp] theorem count_kops (s : State) (a b c n : Nat) : (s.count a b c n).kops = s.kops := rfl
@[simp] theorem count_ports (s : State) (a b c n : Nat) : (s.count a b c n).ports = s.ports := rfl
@[simp] theorem count_net (s : State) (a b c n : Nat) : (s.count a b c n).net = s.net := rfl
@[simp] theorem count_seqs (s : State) (a b c n : Nat) : (s.count a b c n).seqs = s.seqs := rfl
@[simp] theorem count_seqLast (s : State) (a b c n : Nat) : (s.count a b c n).seqLast = s.seqLast := rfl
@[simp] theorem count_cores (s : State) (a b c n : Nat) : (s.count a b c n).cores = s.cores := rfl
@[simp] theorem count_stops (s : State) (a b c n : Nat) : (s.count a b c n).stops = s.stops := rfl

@[simp] theorem tick_phase (s : State) : (s.tick).phase = s.phase := rfl
@[simp] theorem tick_agenda (s : State) : (s.tick).agenda = s.agenda := rfl
@[simp] theorem tick_cur (s : State) : (s.tick).cur = s.cur := rfl
@[simp] theorem tick_held (s : State) : (s.tick).held = s.held := rfl
@[simp] theorem tick_stamp (s : State) : (s.tick).stamp = s.stamp := rfl
@[simp] theorem tick_coreClock (s : State) : (s.tick).coreClock = s.coreClock := rfl
@[simp] theorem tick_fabricClock (s : State) : (s.tick).fabricClock = s.fabricClock := rfl
@[simp] theorem tick_lead (s : State) : (s.tick).lead = s.lead := rfl
@[simp] theorem tick_mem (s : State) : (s.tick).mem = s.mem := rfl
@[simp] theorem tick_ctxs (s : State) : (s.tick).ctxs = s.ctxs := rfl
@[simp] theorem tick_launches (s : State) : (s.tick).launches = s.launches := rfl
@[simp] theorem tick_groups (s : State) : (s.tick).groups = s.groups := rfl
@[simp] theorem tick_tasks (s : State) : (s.tick).tasks = s.tasks := rfl
@[simp] theorem tick_kindles (s : State) : (s.tick).kindles = s.kindles := rfl
@[simp] theorem tick_copies (s : State) : (s.tick).copies = s.copies := rfl
@[simp] theorem tick_kops (s : State) : (s.tick).kops = s.kops := rfl
@[simp] theorem tick_ports (s : State) : (s.tick).ports = s.ports := rfl
@[simp] theorem tick_net (s : State) : (s.tick).net = s.net := rfl
@[simp] theorem tick_seqs (s : State) : (s.tick).seqs = s.seqs := rfl
@[simp] theorem tick_seqLast (s : State) : (s.tick).seqLast = s.seqLast := rfl
@[simp] theorem tick_cores (s : State) : (s.tick).cores = s.cores := rfl
@[simp] theorem tick_dev (s : State) : (s.tick).dev = s.dev := rfl
@[simp] theorem tick_stops (s : State) : (s.tick).stops = s.stops := rfl

@[simp] theorem occupy_phase (s : State) (r : PathRef) (n : Nat) : (s.occupy r n).phase = s.phase := rfl
@[simp] theorem occupy_agenda (s : State) (r : PathRef) (n : Nat) : (s.occupy r n).agenda = s.agenda := rfl
@[simp] theorem occupy_cur (s : State) (r : PathRef) (n : Nat) : (s.occupy r n).cur = s.cur := rfl
@[simp] theorem occupy_held (s : State) (r : PathRef) (n : Nat) : (s.occupy r n).held = s.held := rfl
@[simp] theorem occupy_ticks (s : State) (r : PathRef) (n : Nat) : (s.occupy r n).ticks = s.ticks := rfl
@[simp] theorem occupy_stamp (s : State) (r : PathRef) (n : Nat) : (s.occupy r n).stamp = s.stamp := rfl
@[simp] theorem occupy_coreClock (s : State) (r : PathRef) (n : Nat) : (s.occupy r n).coreClock = s.coreClock := rfl
@[simp] theorem occupy_fabricClock (s : State) (r : PathRef) (n : Nat) : (s.occupy r n).fabricClock = s.fabricClock := rfl
@[simp] theorem occupy_lead (s : State) (r : PathRef) (n : Nat) : (s.occupy r n).lead = s.lead := rfl
@[simp] theorem occupy_mem (s : State) (r : PathRef) (n : Nat) : (s.occupy r n).mem = s.mem := rfl
@[simp] theorem occupy_ctxs (s : State) (r : PathRef) (n : Nat) : (s.occupy r n).ctxs = s.ctxs := rfl
@[simp] theorem occupy_launches (s : State) (r : PathRef) (n : Nat) : (s.occupy r n).launches = s.launches := rfl
@[simp] theorem occupy_tasks (s : State) (r : PathRef) (n : Nat) : (s.occupy r n).tasks = s.tasks := rfl
@[simp] theorem occupy_kindles (s : State) (r : PathRef) (n : Nat) : (s.occupy r n).kindles = s.kindles := rfl
@[simp] theorem occupy_copies (s : State) (r : PathRef) (n : Nat) : (s.occupy r n).copies = s.copies := rfl
@[simp] theorem occupy_kops (s : State) (r : PathRef) (n : Nat) : (s.occupy r n).kops = s.kops := rfl
@[simp] theorem occupy_ports (s : State) (r : PathRef) (n : Nat) : (s.occupy r n).ports = s.ports := rfl
@[simp] theorem occupy_net (s : State) (r : PathRef) (n : Nat) : (s.occupy r n).net = s.net := rfl
@[simp] theorem occupy_seqs (s : State) (r : PathRef) (n : Nat) : (s.occupy r n).seqs = s.seqs := rfl
@[simp] theorem occupy_seqLast (s : State) (r : PathRef) (n : Nat) : (s.occupy r n).seqLast = s.seqLast := rfl
@[simp] theorem occupy_cores (s : State) (r : PathRef) (n : Nat) : (s.occupy r n).cores = s.cores := rfl
@[simp] theorem occupy_dev (s : State) (r : PathRef) (n : Nat) : (s.occupy r n).dev = s.dev := rfl
@[simp] theorem occupy_stops (s : State) (r : PathRef) (n : Nat) : (s.occupy r n).stops = s.stops := rfl

@[simp] theorem settle_phase (s : State) (k w : Nat) : (s.settle k w).phase = s.phase := rfl
@[simp] theorem settle_agenda (s : State) (k w : Nat) : (s.settle k w).agenda = s.agenda := rfl
@[simp] theorem settle_cur (s : State) (k w : Nat) : (s.settle k w).cur = s.cur := rfl
@[simp] theorem settle_held (s : State) (k w : Nat) : (s.settle k w).held = s.held := rfl
@[simp] theorem settle_ticks (s : State) (k w : Nat) : (s.settle k w).ticks = s.ticks := rfl
@[simp] theorem settle_stamp (s : State) (k w : Nat) : (s.settle k w).stamp = s.stamp := rfl
@[simp] theorem settle_coreClock (s : State) (k w : Nat) : (s.settle k w).coreClock = s.coreClock := rfl
@[simp] theorem settle_fabricClock (s : State) (k w : Nat) : (s.settle k w).fabricClock = s.fabricClock := rfl
@[simp] theorem settle_lead (s : State) (k w : Nat) : (s.settle k w).lead = s.lead := rfl
@[simp] theorem settle_mem (s : State) (k w : Nat) : (s.settle k w).mem = s.mem := rfl
@[simp] theorem settle_ctxs (s : State) (k w : Nat) : (s.settle k w).ctxs = s.ctxs := rfl
@[simp] theorem settle_launches (s : State) (k w : Nat) : (s.settle k w).launches = s.launches := rfl
@[simp] theorem settle_tasks (s : State) (k w : Nat) : (s.settle k w).tasks = s.tasks := rfl
@[simp] theorem settle_kindles (s : State) (k w : Nat) : (s.settle k w).kindles = s.kindles := rfl
@[simp] theorem settle_copies (s : State) (k w : Nat) : (s.settle k w).copies = s.copies := rfl
@[simp] theorem settle_kops (s : State) (k w : Nat) : (s.settle k w).kops = s.kops := rfl
@[simp] theorem settle_ports (s : State) (k w : Nat) : (s.settle k w).ports = s.ports := rfl
@[simp] theorem settle_net (s : State) (k w : Nat) : (s.settle k w).net = s.net := rfl
@[simp] theorem settle_seqs (s : State) (k w : Nat) : (s.settle k w).seqs = s.seqs := rfl
@[simp] theorem settle_seqLast (s : State) (k w : Nat) : (s.settle k w).seqLast = s.seqLast := rfl
@[simp] theorem settle_cores (s : State) (k w : Nat) : (s.settle k w).cores = s.cores := rfl
@[simp] theorem settle_dev (s : State) (k w : Nat) : (s.settle k w).dev = s.dev := rfl
@[simp] theorem settle_stops (s : State) (k w : Nat) : (s.settle k w).stops = s.stops := rfl

@[simp] theorem finish_phase (s : State) (r : PathRef) (n : Nat) (l : List (Nat × W64)) : (s.finish r n l).phase = s.phase := rfl
@[simp] theorem finish_agenda (s : State) (r : PathRef) (n : Nat) (l : List (Nat × W64)) : (s.finish r n l).agenda = s.agenda := rfl
@[simp] theorem finish_cur (s : State) (r : PathRef) (n : Nat) (l : List (Nat × W64)) : (s.finish r n l).cur = s.cur := rfl
@[simp] theorem finish_held (s : State) (r : PathRef) (n : Nat) (l : List (Nat × W64)) : (s.finish r n l).held = s.held := rfl
@[simp] theorem finish_ticks (s : State) (r : PathRef) (n : Nat) (l : List (Nat × W64)) : (s.finish r n l).ticks = s.ticks := rfl
@[simp] theorem finish_stamp (s : State) (r : PathRef) (n : Nat) (l : List (Nat × W64)) : (s.finish r n l).stamp = s.stamp := rfl
@[simp] theorem finish_coreClock (s : State) (r : PathRef) (n : Nat) (l : List (Nat × W64)) : (s.finish r n l).coreClock = s.coreClock := rfl
@[simp] theorem finish_fabricClock (s : State) (r : PathRef) (n : Nat) (l : List (Nat × W64)) : (s.finish r n l).fabricClock = s.fabricClock := rfl
@[simp] theorem finish_lead (s : State) (r : PathRef) (n : Nat) (l : List (Nat × W64)) : (s.finish r n l).lead = s.lead := rfl
@[simp] theorem finish_mem (s : State) (r : PathRef) (n : Nat) (l : List (Nat × W64)) : (s.finish r n l).mem = s.mem := rfl
@[simp] theorem finish_ctxs (s : State) (r : PathRef) (n : Nat) (l : List (Nat × W64)) : (s.finish r n l).ctxs = s.ctxs := rfl
@[simp] theorem finish_launches (s : State) (r : PathRef) (n : Nat) (l : List (Nat × W64)) : (s.finish r n l).launches = s.launches := rfl
@[simp] theorem finish_tasks (s : State) (r : PathRef) (n : Nat) (l : List (Nat × W64)) : (s.finish r n l).tasks = s.tasks := rfl
@[simp] theorem finish_kindles (s : State) (r : PathRef) (n : Nat) (l : List (Nat × W64)) : (s.finish r n l).kindles = s.kindles := rfl
@[simp] theorem finish_copies (s : State) (r : PathRef) (n : Nat) (l : List (Nat × W64)) : (s.finish r n l).copies = s.copies := rfl
@[simp] theorem finish_kops (s : State) (r : PathRef) (n : Nat) (l : List (Nat × W64)) : (s.finish r n l).kops = s.kops := rfl
@[simp] theorem finish_ports (s : State) (r : PathRef) (n : Nat) (l : List (Nat × W64)) : (s.finish r n l).ports = s.ports := rfl
@[simp] theorem finish_net (s : State) (r : PathRef) (n : Nat) (l : List (Nat × W64)) : (s.finish r n l).net = s.net := rfl
@[simp] theorem finish_seqs (s : State) (r : PathRef) (n : Nat) (l : List (Nat × W64)) : (s.finish r n l).seqs = s.seqs := rfl
@[simp] theorem finish_seqLast (s : State) (r : PathRef) (n : Nat) (l : List (Nat × W64)) : (s.finish r n l).seqLast = s.seqLast := rfl
@[simp] theorem finish_cores (s : State) (r : PathRef) (n : Nat) (l : List (Nat × W64)) : (s.finish r n l).cores = s.cores := rfl
@[simp] theorem finish_dev (s : State) (r : PathRef) (n : Nat) (l : List (Nat × W64)) : (s.finish r n l).dev = s.dev := rfl
@[simp] theorem finish_stops (s : State) (r : PathRef) (n : Nat) (l : List (Nat × W64)) : (s.finish r n l).stops = s.stops := rfl

@[simp] theorem putOff_phase (s : State) : (s.putOff).phase = s.phase := rfl
@[simp] theorem putOff_agenda (s : State) : (s.putOff).agenda = s.agenda := rfl
@[simp] theorem putOff_cur (s : State) : (s.putOff).cur = s.cur := rfl
@[simp] theorem putOff_ticks (s : State) : (s.putOff).ticks = s.ticks := rfl
@[simp] theorem putOff_stamp (s : State) : (s.putOff).stamp = s.stamp := rfl
@[simp] theorem putOff_coreClock (s : State) : (s.putOff).coreClock = s.coreClock := rfl
@[simp] theorem putOff_fabricClock (s : State) : (s.putOff).fabricClock = s.fabricClock := rfl
@[simp] theorem putOff_lead (s : State) : (s.putOff).lead = s.lead := rfl
@[simp] theorem putOff_mem (s : State) : (s.putOff).mem = s.mem := rfl
@[simp] theorem putOff_ctxs (s : State) : (s.putOff).ctxs = s.ctxs := rfl
@[simp] theorem putOff_launches (s : State) : (s.putOff).launches = s.launches := rfl
@[simp] theorem putOff_groups (s : State) : (s.putOff).groups = s.groups := rfl
@[simp] theorem putOff_tasks (s : State) : (s.putOff).tasks = s.tasks := rfl
@[simp] theorem putOff_kindles (s : State) : (s.putOff).kindles = s.kindles := rfl
@[simp] theorem putOff_copies (s : State) : (s.putOff).copies = s.copies := rfl
@[simp] theorem putOff_kops (s : State) : (s.putOff).kops = s.kops := rfl
@[simp] theorem putOff_ports (s : State) : (s.putOff).ports = s.ports := rfl
@[simp] theorem putOff_net (s : State) : (s.putOff).net = s.net := rfl
@[simp] theorem putOff_seqs (s : State) : (s.putOff).seqs = s.seqs := rfl
@[simp] theorem putOff_seqLast (s : State) : (s.putOff).seqLast = s.seqLast := rfl
@[simp] theorem putOff_cores (s : State) : (s.putOff).cores = s.cores := rfl
@[simp] theorem putOff_dev (s : State) : (s.putOff).dev = s.dev := rfl
@[simp] theorem putOff_stops (s : State) : (s.putOff).stops = s.stops := rfl

@[simp] theorem tell_phase (s : State) (r : Reply) : (s.tell r).phase = s.phase := rfl
@[simp] theorem tell_agenda (s : State) (r : Reply) : (s.tell r).agenda = s.agenda := rfl
@[simp] theorem tell_cur (s : State) (r : Reply) : (s.tell r).cur = s.cur := rfl
@[simp] theorem tell_held (s : State) (r : Reply) : (s.tell r).held = s.held := rfl
@[simp] theorem tell_ticks (s : State) (r : Reply) : (s.tell r).ticks = s.ticks := rfl
@[simp] theorem tell_stamp (s : State) (r : Reply) : (s.tell r).stamp = s.stamp := rfl
@[simp] theorem tell_coreClock (s : State) (r : Reply) : (s.tell r).coreClock = s.coreClock := rfl
@[simp] theorem tell_fabricClock (s : State) (r : Reply) : (s.tell r).fabricClock = s.fabricClock := rfl
@[simp] theorem tell_lead (s : State) (r : Reply) : (s.tell r).lead = s.lead := rfl
@[simp] theorem tell_mem (s : State) (r : Reply) : (s.tell r).mem = s.mem := rfl
@[simp] theorem tell_ctxs (s : State) (r : Reply) : (s.tell r).ctxs = s.ctxs := rfl
@[simp] theorem tell_launches (s : State) (r : Reply) : (s.tell r).launches = s.launches := rfl
@[simp] theorem tell_groups (s : State) (r : Reply) : (s.tell r).groups = s.groups := rfl
@[simp] theorem tell_tasks (s : State) (r : Reply) : (s.tell r).tasks = s.tasks := rfl
@[simp] theorem tell_kindles (s : State) (r : Reply) : (s.tell r).kindles = s.kindles := rfl
@[simp] theorem tell_copies (s : State) (r : Reply) : (s.tell r).copies = s.copies := rfl
@[simp] theorem tell_kops (s : State) (r : Reply) : (s.tell r).kops = s.kops := rfl
@[simp] theorem tell_ports (s : State) (r : Reply) : (s.tell r).ports = s.ports := rfl
@[simp] theorem tell_net (s : State) (r : Reply) : (s.tell r).net = s.net := rfl
@[simp] theorem tell_seqs (s : State) (r : Reply) : (s.tell r).seqs = s.seqs := rfl
@[simp] theorem tell_seqLast (s : State) (r : Reply) : (s.tell r).seqLast = s.seqLast := rfl
@[simp] theorem tell_cores (s : State) (r : Reply) : (s.tell r).cores = s.cores := rfl
@[simp] theorem tell_stops (s : State) (r : Reply) : (s.tell r).stops = s.stops := rfl

@[simp] theorem close_phase (s : State) : (s.close).phase = s.phase := rfl
@[simp] theorem close_agenda (s : State) : (s.close).agenda = s.agenda := rfl
@[simp] theorem close_ticks (s : State) : (s.close).ticks = s.ticks := rfl
@[simp] theorem close_stamp (s : State) : (s.close).stamp = s.stamp := rfl
@[simp] theorem close_coreClock (s : State) : (s.close).coreClock = s.coreClock := rfl
@[simp] theorem close_fabricClock (s : State) : (s.close).fabricClock = s.fabricClock := rfl
@[simp] theorem close_lead (s : State) : (s.close).lead = s.lead := rfl
@[simp] theorem close_cells (s : State) : (s.close).mem.cells = s.mem.cells := rfl
@[simp] theorem close_byte (s : State) (a : Nat) : (s.close).mem.byte a = s.mem.byte a := rfl
@[simp] theorem close_read (s : State) (a : Nat) : (s.close).mem.read a = s.mem.read a := rfl
@[simp] theorem close_ctxs (s : State) : (s.close).ctxs = s.ctxs := rfl
@[simp] theorem close_launches (s : State) : (s.close).launches = s.launches := rfl
@[simp] theorem close_groups (s : State) : (s.close).groups = s.groups := rfl
@[simp] theorem close_tasks (s : State) : (s.close).tasks = s.tasks := rfl
@[simp] theorem close_kindles (s : State) : (s.close).kindles = s.kindles := rfl
@[simp] theorem close_copies (s : State) : (s.close).copies = s.copies := rfl
@[simp] theorem close_kops (s : State) : (s.close).kops = s.kops := rfl
@[simp] theorem close_ports (s : State) : (s.close).ports = s.ports := rfl
@[simp] theorem close_net (s : State) : (s.close).net = s.net := rfl
@[simp] theorem close_seqs (s : State) : (s.close).seqs = s.seqs := rfl
@[simp] theorem close_seqLast (s : State) : (s.close).seqLast = s.seqLast := rfl
@[simp] theorem close_cores (s : State) : (s.close).cores = s.cores := rfl
@[simp] theorem close_dev (s : State) : (s.close).dev = s.dev := rfl
@[simp] theorem close_stops (s : State) : (s.close).stops = s.stops := rfl

/-! ### Parts -/

theorem find_mapIf {α : Type} (p : α → Nat) (n j : Nat) (f : α → α) (hf : ∀ a, p (f a) = p a) (l : List α) :
    (mapIf (fun a => decide (p a = n)) f l).find? (fun a => decide (p a = j)) =
      if j = n then (l.find? (fun a => decide (p a = j))).map f else l.find? (fun a => decide (p a = j)) := by
  induction l with
  | nil => simp [mapIf]
  | cons a t ih =>
    simp only [mapIf, List.map_cons, List.find?_cons] at ih ⊢
    by_cases h1 : p a = n
    · by_cases h2 : j = n
      · subst h2; simp [h1, hf]
      · have h3 : ¬ n = j := fun e => h2 e.symm
        simp [h1, hf, h2, h3] at ih ⊢; exact ih
    · by_cases h2 : p a = j
      · have h3 : ¬ j = n := fun e => h1 (h2.trans e)
        simp [h1, h2, h3]
      · simp [h1, h2] at ih ⊢; exact ih

theorem group_updGroup (s : State) (k : Nat) (f : Group → Group) (hf : ∀ g, (f g).key = g.key) (j : Nat) :
    (s.updGroup k f).group? j = if j = k then (s.group? j).map f else s.group? j := find_mapIf Group.key k j f hf s.groups

theorem ctx_updCtx (s : State) (k : Nat) (f : Ctx → Ctx) (hf : ∀ c, (f c).num = c.num) (j : Nat) :
    (s.updCtx k f).ctx? j = if j = k then (s.ctx? j).map f else s.ctx? j := find_mapIf Ctx.num k j f hf s.ctxs

@[simp] theorem ctx_updGroup (s : State) (k j : Nat) (f : Group → Group) : (s.updGroup k f).ctx? j = s.ctx? j := rfl
@[simp] theorem group_updCtx (s : State) (k j : Nat) (f : Ctx → Ctx) : (s.updCtx k f).group? j = s.group? j := rfl

theorem group_updWarp (s : State) (k w : Nat) (f : Warp → Warp) (j : Nat) :
    (s.updWarp k w f).group? j = if j = k then (s.group? j).map (fun g => g.updWarp w f) else s.group? j :=
  group_updGroup s k (fun g => g.updWarp w f) (fun _ => rfl) j

theorem warp_updWarp (s : State) (k w : Nat) (f : Warp → Warp) (j v : Nat) :
    (s.updWarp k w f).warp? j v = if j = k ∧ v = w then (s.warp? j v).map f else s.warp? j v := by
  simp only [State.warp?, group_updWarp]
  by_cases h : j = k
  · subst h
    cases hg : s.group? j with
    | none => simp
    | some g =>
      by_cases hv : v = w
      · subst hv; simp [Group.updWarp, List.getElem?_modify_eq]
      · have : ¬ w = v := fun e => hv e.symm
        simp [Group.updWarp, List.getElem?_modify, this, hv]
  · simp [h]

theorem thread_updWarp (s : State) (k w : Nat) (f : Warp → Warp) (hf : ∀ x, (f x).threads = x.threads) (j v u : Nat) :
    (s.updWarp k w f).thread? j v u = s.thread? j v u := by
  simp only [State.thread?, warp_updWarp]
  by_cases h : j = k ∧ v = w
  · cases hw : s.warp? j v with
    | none => simp [h]
    | some x => simp [h, hf]
  · simp [h]

theorem thread_updThread (s : State) (k w t : Nat) (f : Thread → Thread) (j v u : Nat) :
    (s.updThread k w t f).thread? j v u = if j = k ∧ v = w ∧ u = t then (s.thread? j v u).map f else s.thread? j v u := by
  simp only [State.thread?, State.updThread, warp_updWarp]
  by_cases h : j = k ∧ v = w
  · cases hw : s.warp? j v with
    | none => simp [h]
    | some x =>
      by_cases hu : u = t
      · subst hu; simp [h, Warp.updThread, List.getElem?_modify_eq]
      · have : ¬ t = u := fun e => hu e.symm
        simp [h, Warp.updThread, List.getElem?_modify, this, hu]
  · have : ¬ (j = k ∧ v = w ∧ u = t) := fun e => h ⟨e.1, e.2.1⟩
    simp [h, this]

theorem wreg_updThread (s : State) (k w t : Nat) (f : Thread → Thread) (j v n : Nat) :
    (s.updThread k w t f).wreg j v n = s.wreg j v n := by
  simp only [State.wreg, State.updThread, warp_updWarp]
  by_cases h : j = k ∧ v = w
  · cases hw : s.warp? j v <;> simp [h, Warp.updThread, Warp.reg]
  · simp [h]

/-! ### Registers and predicates -/

@[simp] theorem reg_setReg (t : Thread) (n m : Nat) (r : Reg) : (t.setReg n r).reg m = if m = n then r else t.reg m :=
  sget_sset Reg.zero t.v n m r
@[simp] theorem wreg_setReg (w : Warp) (n m : Nat) (r : Reg) : (w.setReg n r).reg m = if m = n then r else w.reg m :=
  sget_sset Reg.zero w.w n m r
@[simp] theorem pred_setReg (t : Thread) (n m : Nat) (r : Reg) : (t.setReg n r).pred m = t.pred m := rfl
@[simp] theorem predBad_setReg (t : Thread) (n m : Nat) (r : Reg) : (t.setReg n r).predBad m = t.predBad m := rfl
@[simp] theorem reg_setPred (t : Thread) (n m : Nat) (b bad : Bool) : (t.setPred n b bad).reg m = t.reg m := rfl
@[simp] theorem super_setReg (t : Thread) (n : Nat) (r : Reg) : (t.setReg n r).super = t.super := rfl
@[simp] theorem trapped_setReg (t : Thread) (n : Nat) (r : Reg) : (t.setReg n r).trapped = t.trapped := rfl
@[simp] theorem queue_setReg (t : Thread) (n : Nat) (r : Reg) : (t.setReg n r).q = t.q := rfl
@[simp] theorem super_setPred (t : Thread) (n : Nat) (b bad : Bool) : (t.setPred n b bad).super = t.super := rfl
@[simp] theorem trapped_setPred (t : Thread) (n : Nat) (b bad : Bool) : (t.setPred n b bad).trapped = t.trapped := rfl
@[simp] theorem queue_setPred (t : Thread) (n : Nat) (b bad : Bool) : (t.setPred n b bad).q = t.q := rfl

theorem bit_one (n m : Fin 7) : (BitVec.ofNat 7 (1 <<< n.val)).getLsbD m.val = decide (m = n) := by revert n m; decide

theorem bit_put (x : BitVec 7) (b : Bool) (n m : Nat) (hn : n < 7) (hm : m < 7) :
    (if b then x ||| BitVec.ofNat 7 (1 <<< n) else x &&& ~~~(BitVec.ofNat 7 (1 <<< n))).getLsbD m = if m = n then b else x.getLsbD m := by
  have h := bit_one ⟨n, hn⟩ ⟨m, hm⟩
  simp only [Fin.mk.injEq] at h
  cases b
  · rw [if_neg (by decide), BitVec.getLsbD_and, BitVec.getLsbD_not, h]
    by_cases e : m = n <;> simp [e, hm]
  · rw [if_pos rfl, BitVec.getLsbD_or, h]
    by_cases e : m = n <;> simp [e]

theorem pred_setPred (t : Thread) (n m : Nat) (b bad : Bool) (hn : n < 7) (hm : m < 7) :
    (t.setPred n b bad).pred m = if m = n then b else t.pred m := bit_put t.p b n m hn hm

theorem predBad_setPred (t : Thread) (n m : Nat) (b bad : Bool) (hn : n < 7) (hm : m < 7) :
    (t.setPred n b bad).predBad m = if m = n then bad else t.predBad m := bit_put t.pBad bad n m hn hm

end Sys2Proof.Machine
end

