-- ==== Sys2Proof/Laws/Units.lean ====
section
/-! SUPPORT. Laws/Units.lean: what scratchpad accesses, tile moves, products, exits and fetches do when nothing goes wrong. -/

namespace Sys2Proof.Machine

/-- An instruction with no earlier access under way performs any body that does the same to what it sees, also one that traps. -/
theorem outstanding_body {s : State} {x : Iss} {h : Hdr} {sh : Shape} (c : Clear s x h sh) (i : Instr) (per : Nat) (a b : Body) (o : s.outstanding x = false)
    (e : a x (s.sees x h sh) (s.afterRead x h sh) = b x (s.sees x h sh) (s.afterRead x h sh)) :
    issue i h sh per s a = .next (s.performed x h sh per b) := by
  rw [issue_clear c i per a (.inl o), performed_congr e]

/-- An instruction with no earlier access under way whose body stops it stays where it is, in the state that the body leaves. -/
theorem issue_stays {s : State} {i : Iss} {h sh} (c : Clear s i h sh) (ho : s.outstanding i = false) (hd : i.doing h sh ≠ []) (ins : Instr) (per) (body : Body) (u : State)
   (hb : body i { uni := sh.isUniform, ts := i.doing h sh, vals := (s.readSrcs i h sh.srcs (sh.readers (i.doing h sh))).2 } (s.afterRead i h sh) = (u, .stay)) :
   issue ins h sh per s body = .next (i.unpop sh (i.doing h sh) s u) := by
  rw [issue_clear c ins per body (.inl ho)]
  unfold State.performed State.act
  dsimp only
  rw [if_neg (by simp [hd]), show (s.readSrcs i h sh.srcs (sh.readers (i.doing h sh))).1 = s.afterRead i h sh from rfl, hb]

/-- A word is fetched where the translation is executable. -/
theorem fetchWord_ok {s : State} {c via va e} (h : s.translate c va via = .ok e) (hx : attrX e.attr = true) : s.fetchWord c via va = .ok (e, BitVec.ofNat 64 (s.mem.nat (e.pa va) 8)) := by
  unfold State.fetchWord; rw [h]; dsimp only; rw [if_pos hx]

/-- A word of the path's own stream that decodes is run. -/
theorem readWord_run {dae acc : Bool} {w lit i} (h : dae = true → streamOf w ≠ some (!acc)) (hd : decodeWord w lit = .ok i) : readWord dae acc w lit = .run i (wordSize w) := by
  unfold readWord
  rw [if_neg (by cases dae <;> simp at h ⊢; exact h), hd]

theorem cur_foldl {α : Type} (l : List α) (f : State → α → State) (hf : ∀ s a, (f s a).cur = s.cur) (s : State) : (l.foldl f s).cur = s.cur := by
  induction l generalizing s with
  | nil => rfl
  | cons a l ih => rw [List.foldl_cons, ih, hf]

theorem cur_dw0 (s : State) (c : Ctx) (va : Nat) (bs) : (s.deviceWrite c va bs none).1.cur = s.cur := by
  have hp : ∀ (ps : List (Nat × Nat)) (s : State) bs bad, (s.writePieces ps bs bad).cur = s.cur := by
    intro ps
    induction ps with
    | nil => intro s _ _; rfl
    | cons p ps ih => intro s bs bad; unfold State.writePieces; exact ih _ _ _
  unfold State.deviceWrite
  dsimp only
  split
  · rfl
  · unfold State.deviceStore
    cases s.range? c plainW none (piecesOf va bs.length) with
    | none => rfl
    | some ps => exact hp ps s bs false

theorem cur_slotLeave (s : State) (c n : Nat) : (s.slotLeave c n).cur = s.cur := by
  unfold State.slotLeave
  split
  · rfl
  · dsimp only
    split
    · rfl
    · split
      · rw [cur_dw0]; rfl
      · rfl

theorem cur_exitNow (s : State) (k w : Nat) (ts) : (s.exitNow k w ts).cur = s.cur := by
  unfold State.exitNow
  split
  · dsimp only
    unfold State.slotsForget
    split
    · rfl
    · dsimp only
      rw [cur_foldl]; rfl
      intro s a; split
      · exact cur_slotLeave _ _ _
      · rfl
  · rfl

theorem calm_cur {s t : State} (h : Calm s t) : t.cur = s.cur := by rw [h.eq]

/-- Threads that exit leave the issuer as it is. -/
theorem cur_exitThreads (s : State) (r : PathRef) (a next) (ts) : (s.exitThreads r a next ts).cur = s.cur := by
  unfold State.exitThreads
  split
  · rfl
  · split
    · dsimp only
      split
      · rw [cur_foldl]; intro s t; rfl
      · rw [cur_exitNow]
        unfold State.parkAt
        split
        · rw [cur_foldl]; intro s t; rfl
        · show (List.foldl _ s ts).cur = s.cur
          rw [cur_foldl]; intro s t; rfl
    · exact cur_exitNow _ _ _ _

/-- An instruction's effect leaves the issuer as it is when its body does. -/
theorem cur_act {s : State} {x : Iss} (i : s.iss? = some x) (h : Hdr) (sh : Shape) (per : Nat) (ts : List Nat) (body : Body)
    (st : ∀ s k, Still s (body x k s).1)
    (hb : ∀ s k, (body x k s).1.cur = s.cur) : (s.act x h sh per ts body).cur = s.cur := by
  unfold State.act
  dsimp only
  split
  · rw [calm_cur (calm_finish _ _ _ _), calm_cur (calm_occupy _ _ _)]
  · have e : (s.readSrcs x h sh.srcs (sh.readers ts)).1.cur = s.cur := calm_cur (calm_readSrcs _ _ _ _ _)
    rw [unpop_still i ((calm_readSrcs s x h sh.srcs (sh.readers ts)).still.trans (st _ _))]
    split
    · rw [calm_cur (calm_finish _ _ _ _), calm_cur (calm_occupy _ _ _), hb, e]
    · rw [hb, e]
    · rw [calm_cur (calm_occupy _ _ _), hb, e]

theorem still_askPrefetch (s : State) (core : Nat) (e pa n l0) : Still s (s.askPrefetch core e pa n l0) := by
  unfold State.askPrefetch
  repeat' (first | exact Still.refl _ | exact ⟨rfl, rfl⟩ | split)

theorem still_prefetch (s : State) (i : Iss) (k va) : Still s (s.prefetch i k va) := by
  unfold State.prefetch
  split
  · exact Still.refl s
  · split
    · exact Still.refl s
    · split
      · exact Still.refl s
      · rename_i e _ _
        have h : Still s { s.walked i.g.via e with mem := ((s.walked i.g.via e).mem.hold i.g.via e) } :=
          Still.trans (still_walked s _ _) (still_memory _ _)
        dsimp only
        split
        · split
          · exact h.trans (still_served _ _ _ _)
          · exact h.trans (still_askPrefetch _ _ _ _ _ _)
        · exact h.trans (still_askPrefetch _ _ _ _ _ _)
        · exact h.trans (still_askPrefetch _ _ _ _ _ _)

theorem still_askLines (s : State) (fs : List Fill) : Still s (s.askLines fs) := by
  unfold State.askLines
  apply still_foldl; intro s f
  split
  · exact Still.refl s
  · exact ⟨rfl, rfl⟩

theorem still_fillWhole (s : State) (core : Nat) (e x) : Still s (s.fillWhole core e x) := by
  unfold State.fillWhole
  dsimp only
  split
  · exact Still.trans (still_memory s _) (still_askLines _ _)
  · exact still_memory _ _

theorem still_lockSector (s : State) (i : Iss) (e n) : Still s (s.lockSector i e n).1 := by
  unfold State.lockSector
  dsimp only
  split
  · split
    · exact Still.refl s
    · exact ⟨rfl, rfl⟩
  · split
    · exact Still.refl s
    · split
      · exact Still.refl s
      · exact Still.trans (Still.trans (still_memory s _) (still_fillWhole _ _ _ _)) (still_memory _ _)

theorem still_unlockSector (s : State) (i : Iss) (e n) : Still s (s.unlockSector i e n).1 := by
  unfold State.unlockSector; dsimp only
  split
  · exact still_memory _ _
  · exact Still.refl s

theorem still_lockAt (s : State) (i : Iss) (va f) (hf : ∀ s i e n, Still s (f s i e n).1) : Still s (s.lockAt i va f).1 := by
  unfold State.lockAt
  split
  · exact Still.refl s
  · split
    · exact Still.refl s
    · rename_i e _
      exact Still.trans (Still.trans (still_walked s i.g.via e) (still_memory _ _)) (hf _ _ _ _)

theorem still_lockAll (s : State) (i k d f) (hf : ∀ s i e n, Still s (f s i e n).1) : Still s (s.lockAll i k d f) := by
  unfold State.lockAll
  apply still_foldl; intro s a
  exact (still_lockAt s i _ f hf).trans (calm_writeDst _ _ _ _ _ _ _ _).still

theorem isSome_of_traps {l m : List Group} (h : m.map Group.traps = l.map Group.traps) (k : Nat) :
    (m.find? (fun g => g.key = k)).isSome = (l.find? (fun g => g.key = k)).isSome := by
  have : m.map (·.key) = l.map (·.key) := by
    have := congrArg (List.map (fun t : Nat × Nat × Bool × List (List Bool) => t.1)) h
    simpa [List.map_map, Function.comp_def, Group.traps] using this
  have e : ∀ l : List Group, (l.find? (fun g => g.key = k)).isSome = (l.map (·.key)).any (fun a => a = k) := by
    intro l; induction l with
    | nil => rfl
    | cons a l ih => simp only [List.find?_cons, List.map_cons, List.any_cons]; split <;> simp_all
  rw [e, e, this]

theorem scratchByte_isNone {s t : State} (h : Calm s t) (g : Group) (k o : Nat) : (t.scratchByte g k o).isNone = (s.scratchByte g k o).isNone := by
  unfold State.scratchByte
  cases g.locate o with
  | none => rfl
  | some m =>
    simp only [Option.bind_some]
    have := isSome_of_traps h.traps m.1
    unfold State.group?
    rw [Option.isNone_map, Option.isNone_map]
    rw [Bool.eq_iff_iff] at this ⊢
    cases h1 : t.groups.find? (fun g => g.key = m.1) <;> cases h2 : s.groups.find? (fun g => g.key = m.1) <;> simp_all

theorem scratchOut_calm {s t : State} (h : Calm s t) (g : Group) (o n : Nat) : t.scratchOut g o n = s.scratchOut g o n := by
  unfold State.scratchOut
  congr 1; funext a; exact scratchByte_isNone h _ _ _

theorem scratchDo_calm (s : State) (i k kind d size w) : Calm s (s.scratchDo i k kind d size w) := by
  unfold State.scratchDo
  dsimp only
  refine Calm.trans ?_ (calm_writeDst _ _ _ _ _ _ _ _)
  split
  · exact Calm.refl _
  · exact calm_putScratch _ _ _ _ _ _

theorem effect_wraps (kind : AccessKind) (size data : Nat) (db : Bool) (x : Nat) (b c : Nat → Bool) : (effectOf kind size data db x b).wraps = (effectOf kind size data db x c).wraps := by
  cases kind <;> rfl

theorem scratchLoop {i : Iss} {k : Taken} {kind : AccessKind} {dst : Dst} {size : Nat} (ws : List Want) : ∀ (t : State), State.noWrap i k kind dst size t ws = true →
   ws.foldl (fun s w =>
      if (effectOf kind size w.data w.bad (leNat ((s.scratchBytes i.g 0 w.va size).map (·.1))) (fun _ => false)).wraps then s.trapAll i.r ((w.who k.ts).map (fun t => ⟨t, 0x26, w.va, 4⟩)) else s.scratchDo i k kind dst size w) t
    = ws.foldl (fun t w => t.scratchDo i k kind dst size w) t := by
  induction ws with
  | nil => intro t _; rfl
  | cons w ws ih =>
    intro t h
    simp only [State.noWrap, Bool.and_eq_true, Bool.not_eq_true'] at h
    rw [List.foldl_cons, List.foldl_cons, if_neg (by simp [h.1])]
    exact ih _ h.2

/-- SCRATCHPAD ACCESSES none of which fails or waits all happen, in order. -/
theorem goScratch_reaches {s t : State} {i : Iss} {k : Taken} {d : Doing} {kind : AccessKind} {dst : Dst} {ws : List Want}
   (h : ∀ w ∈ ws, s.scratchBusy i.g w.va d.size = false ∧ t.scratchOut i.g w.va d.size = none ∧ w.va % d.size = 0)
   (n : State.noWrap i k kind dst d.size t ws = true) :
   t.goScratch s i k d kind dst ws = (ws.foldl (fun t w => t.scratchDo i k kind dst d.size w) t, .next []) := by
  unfold State.goScratch
  have e1 : ws.any (fun w => s.scratchBusy i.g w.va d.size) = false := by
    rw [List.any_eq_false]; intro w hw; simp [(h w hw).1]
  have e2 : t.scratchErrs i.g k d ws = [] := by
    unfold State.scratchErrs
    rw [List.flatMap_eq_nil_iff]; intro w hw
    simp [(h w hw).2.1, (h w hw).2.2]
  dsimp only
  rw [e1, if_neg (by simp), e2, trapAll_nil]
  have e3 : ws.filter (fun w => !((w.who k.ts).any fun t => ([] : List ThreadErr).any fun b => b.t = t)) = ws := by
    rw [List.filter_eq_self]; intro w _; simp
  rw [e3, scratchLoop ws t n]

/-- An instruction that accesses scratchpad by `goScratch` completes. -/
theorem scratch_of {i j : Instr} {h : Hdr} {sh : Shape} {kind : Nat} {order : Order} {d : Doing} {ws : Taken → List Want} {ak : AccessKind} {dst : Dst}
    (m : ∀ s, exec i s = issueMem j h sh 1 kind order true s fun x k t => t.goScratch s x k d ak dst (ws k)) : ScratchAccesses i h sh kind order d.size ws ak dst := by
  intro s x c w r n
  rw [m, issueMem, withIssue_of c.issues, w, if_neg (by simp)]
  refine issue_body c _ _ _ _ (goScratch_reaches r n) ?_
  apply still_foldl; intro s a; exact (scratchDo_calm _ _ _ _ _ _ _).still

theorem noWrap_of {i : Iss} {k : Taken} {kind : AccessKind} {dst : Dst} {size : Nat} (hk : ∀ z d b x y, (effectOf kind z d b x y).wraps = false) (ws : List Want) : ∀ t, State.noWrap i k kind dst size t ws = true := by
  induction ws with
  | nil => intro t; rfl
  | cons w ws ih => intro t; simp only [State.noWrap, hk, ih]; rfl

theorem foldl_calm_congr {α : Type} {s : State} {f g : State → α → State} {l : List α} (h : ∀ t a, Calm s t → a ∈ l → f t a = g t a)
    (hg : ∀ t a, Calm t (g t a)) : l.foldl f s = l.foldl g s := by
  have : ∀ (m : List α) t, Calm s t → (∀ a ∈ m, a ∈ l) → m.foldl f t = m.foldl g t := by
    intro m; induction m with
    | nil => intro t _ _; rfl
    | cons a m ih =>
      intro t hc hm
      rw [List.foldl_cons, List.foldl_cons, h t a hc (hm a (by simp))]
      exact ih _ (hc.trans (hg _ _)) (fun b hb => hm b (by simp [hb]))
  exact this l s (Calm.refl _) (fun _ h => h)

theorem without_nil (k : Taken) : k.without [] = k := by
  have e : ∀ {α : Type} (l : List α), l.filter (fun _ => true) = l := fun l => by rw [List.filter_eq_self]; simp
  simp [Taken.without, e]

theorem foldl_mem_congr {α β : Type} {f g : β → α → β} {l : List α} (h : ∀ t a, a ∈ l → f t a = g t a) (s : β) : l.foldl f s = l.foldl g s := by
  induction l generalizing s with
  | nil => rfl
  | cons a l ih => rw [List.foldl_cons, List.foldl_cons, h s a (by simp)]; exact ih (fun t b hb => h t b (by simp [hb])) _

/-- An instruction on a tile that nothing holds performs any body that does the same to what it sees. -/
theorem issueTile_body {s : State} {x : Iss} {h : Hdr} {sh : Shape} (c : Clear s x h sh) (i : Instr) (per k : Nat) (a b : Body) (hb : s.tileBusy x.g x.w.wid k = false)
    (e : a x (s.sees x h sh) ((s.afterRead x h sh).markTile x.r.g x.w.wid k) = b x (s.sees x h sh) (s.afterRead x h sh))
    (st : Still (s.afterRead x h sh) (b x (s.sees x h sh) (s.afterRead x h sh)).1) :
    issueTile i h sh per k s a = .next (s.performed x h sh per b) := by
  unfold issueTile
  rw [withIssue_of c.issues]
  rw [hb, if_neg (by simp)]
  exact issue_body c _ _ (fun y k' s => a y k' (s.markTile y.r.g y.w.wid k)) b e st

theorem still_writeRun (s : State) (i d t ps rs) : Still s (s.writeRun i d t ps rs) := by
  unfold State.writeRun
  split
  · apply still_foldl; intro s a; exact (calm_writeDst _ _ _ _ _ _ _ _).still
  · exact (calm_writeDst _ _ _ _ _ _ _ _).still

theorem still_launchMat (s : State) (g o) : Still s (s.launchMat g o) := by
  unfold State.launchMat; dsimp only
  exact Still.trans (t := (s.fresh).1) ⟨rfl, rfl⟩ (calm_updGroup s.fresh.1 g (fun g => { g with ops := g.ops ++ [{ o with stamp := s.fresh.2 }] }) (fun _ => rfl)).still

theorem markDirty_traps (g : Group) (n) : (g.markDirty n).traps = g.traps := by unfold Group.markDirty; first | rfl | (split <;> rfl)

theorem putEls_traps (g : Group) (t l) : (g.putEls t l).traps = g.traps := by unfold Group.putEls; first | rfl | (dsimp only; rfl)

/-- A product issues when its operands are good, its check passes, no member waits and a slot is free. -/
theorem matGate_go {s : State} {e h uni check} (h1 : e.uniformBad h uni = none) (h2 : check = none) (h3 : s.memberWaits e = false) (h4 : (s.slotOf e.g).isSome = true)
    (h5 : s.genTileLate e = false) : s.matGate e h uni check = .go := by
  unfold State.matGate
  rw [h1]; subst h2; simp only [h3, h5]
  cases hh : s.slotOf e.g with
  | none => rw [hh] at h4; simp at h4
  | some a => simp

/-- A move of a tile's row or column issues when the tile is bound and free and holds the index. -/
theorem moveGate_go {tile op : Nat} {row h a} {e : Gen} {v s} {t : Tile} (ht : e.g.tile tile = some t)
   (hb : e.g.tileBefore tile (if e.conv.place = 0 then s.stamp else e.conv.place) = false) (hl : s.genTileLate e = false) (hi : regsNat (e.uniform h (moveIndex a)) % 64 < (if row then t.rows else t.cols)) : moveGate tile op row h a e v s = .go := by
  unfold moveGate moveCheck
  rw [ht]; dsimp only
  rw [if_neg (by omega)]
  dsimp only
  rw [hb, hl]; rfl

/-- A signature leaves the tiles, so what a move covers, as they are. -/
theorem moveLength_sig (s : State) (i : Iss) (ins h cv tile row) (hi : s.iss? = some i) :
   (s.withSignature i ins h cv).moveLength ⟨i.r.g, cv, i.r.w⟩ tile row = i.g.moveLength tile row := by
  have hg : s.group? i.r.g = some i.g := by
    unfold State.iss? at hi
    split at hi <;> try contradiction
    · simp only [Option.bind_eq_some_iff, Option.map_eq_some_iff] at hi
      obtain ⟨g, h1, w, h2, p, h3, c, h4, rfl⟩ := hi; exact h1
  have key : ∀ (t : State) k (f : Group → Group), (∀ g, (f g).key = g.key) → (∀ g, (f g).tiles = g.tiles) →
      ((t.updGroup k f).group? i.r.g).map (·.tiles) = (t.group? i.r.g).map (·.tiles) := by
    intro t k f h1 h2
    rw [Sys2Proof.Machine.group_updGroup _ _ _ h1]
    split
    · rw [Option.map_map]; congr 1; funext g; exact h2 g
    · rfl
  have : ((s.withSignature i ins h cv).group? i.r.g).map (·.tiles) = some i.g.tiles := by
    unfold State.withSignature State.signNow State.occupy State.settle State.updPath State.updWarp State.updConv
    dsimp only
    rw [key _ _ (fun g => g.updWarp i.r.w _) (fun _ => rfl) (fun _ => rfl), key _ _ (fun g => g.updWarp i.r.w _) (fun _ => rfl) (fun _ => rfl), key _ _ (fun g => g.updWarp i.r.w _) (fun _ => rfl) (fun _ => rfl), key, hg]; rfl
    all_goals (intro g; unfold Group.updConv; split <;> rfl)
  unfold State.moveLength
  cases hq : (s.withSignature i ins h cv).group? i.r.g with
  | none => rw [hq] at this; simp at this
  | some q =>
    rw [hq] at this
    simp only [Option.map_some, Option.some.injEq] at this
    simp only [Group.moveLength, Group.tile, this]

end Sys2Proof.Machine
end

