-- ==== Sys2Proof/Tests/Slice0.lean ====
section
/-! SUPPORT. Tests/Slice0.lean: ill-formed terms that WellFormed refuses, words written out from the encoding tables of the
spec, and results of the spec's worked examples. -/

set_option Elab.async false

namespace Sys2Proof.Tests

open Sys2Proof.Machine

/-- The header of an unguarded word without a literal (R193): PS 7, PN 0. -/
def plain : Hdr := { ps := 7, pn := false, acc := false, lit := none }

/-! ### One ill-formed term for each check of WellFormed -/

def good : IntOps := { h := plain, d := .v 4, a := .v 5, b := .v 6, c := .vz, w64 := false, sat := false, sgn := false }

theorem test_wf_good : (Instr.iadd good).wf = true := by decide
theorem test_wf_guard : (Instr.iadd { good with h := { plain with pn := true } }).wf = false := by decide
theorem test_wf_literal : (Instr.iadd { good with b := .lit }).wf = false := by decide
theorem test_wf_destination : (Instr.iadd { good with d := .imm 3 }).wf = false := by decide
theorem test_wf_unused_source : (Instr.iadd { good with c := .v 1 }).wf = false := by decide
theorem test_wf_flag : (Instr.mov { good with b := .vz, sat := true }).wf = false := by decide
theorem test_wf_store_literal :
    (Instr.stG { h := { plain with lit := some 0 }, d := .lit, a := .v 4, b := .vz, ty := .b32, order := .weak, scope := .thr }).wf
      = false := by decide
theorem test_wf_load_order :
    (Instr.ldG { h := plain, d := .v 4, a := .v 6, b := .vz, ty := .b32, order := .rel, scope := .dev }).wf = false := by decide
theorem test_wf_weak_scope :
    (Instr.ldG { h := plain, d := .v 4, a := .v 6, b := .vz, ty := .b32, order := .weak, scope := .dev }).wf = false := by decide
theorem test_wf_b128_register :
    (Instr.ldG { h := plain, d := .v 6, a := .v 8, b := .vz, ty := .b128, order := .weak, scope := .thr }).wf = false := by decide
theorem test_wf_signed_store :
    (Instr.stG { h := plain, d := .v 4, a := .v 6, b := .vz, ty := .s8, order := .weak, scope := .thr }).wf = false := by decide
theorem test_wf_integer_condition :
    (Instr.icmp { h := plain, d := .p 0, a := .v 1, b := .v 2, cond := .un, w64 := false, sgn := false }).wf = false := by decide
theorem test_wf_stochastic_mode :
    (Instr.fadd { h := plain, d := .v 1, a := .v 2, b := .v 3, c := .vz, sat := false, mode := .sr }).wf = false := by decide
theorem test_wf_call_register : (Instr.call { h := plain, d := .v 3, a := .imm 254 }).wf = false := by decide
theorem test_wf_chunk_register : (Instr.taskNext { h := plain, d := .v 6 }).wf = false := by decide
theorem test_wf_group_end :
    (Instr.mxq { h := plain, d := .v 1021, a := .v 0, b := .vz, fmt := .mxe4m3, sat := false, mode := .rne }).wf = false := by decide
theorem test_wf_block_format :
    (Instr.mxd { h := plain, d := .v 1, a := .v 4, b := .v 3, fmt := .e4m3, sat := false, mode := .rne }).wf = false := by decide
theorem test_wf_cas64_register :
    (Instr.atomCas64G { h := plain, d := .v 4, a := .v 6, b := .v 9, order := .ar, scope := .dev }).wf = false := by decide
theorem test_wf_matrix_operand :
    (Instr.mma { h := plain, d := .w 20, a := .w 9, b := .w 10, tile := 3, cv := 1, csp := false, aScr := true, bScr := true }).wf
      = false := by decide
theorem test_wf_scratch_operand :
    (Instr.tld { h := plain, d := .vz, a := .w 5, tile := 0, fmt := .f32, csp := false, sat := false, mode := .rne }).wf = false := by decide
theorem test_wf_odd_tile :
    (Instr.mmd { h := plain, d := .w 20, a := .v 8, b := .w 10, tile := 3, cv := 1, csp := false, aScr := false, bScr := false }).wf
      = false := by decide
theorem test_wf_hyperparameters :
    (Instr.adamw { h := plain, d := .v 0, a := .v 4, b := .w 4, bf16 := false, sr := false }).wf = false := by decide
theorem test_wf_pair_bank :
    (Instr.pair { acc := false, hi := { op := .iadd, d := 8, s := 1, m3 := 0 }, lo := { op := .fadd, d := 4, s := 9, m3 := 0 } }).wf
      = false := by decide
theorem test_wf_pair_nop :
    (Instr.pair { acc := false, hi := { op := .nop, d := 1, s := 0, m3 := 0 }, lo := { op := .fadd, d := 4, s := 9, m3 := 0 } }).wf
      = false := by decide
theorem test_wf_sum_mode :
    (Instr.wsum { h := plain, d := .v 1, a := .v 2, cv := 16, ty := .i32, excl := false, sat := true, mode := .rne }).wf = false := by decide
theorem test_wf_zf_flags :
    (Instr.xrecv { d := 1, a := 2, b := 3, wf := 0, wbk := 0, sr := false, lf := false, ownFin := false, acc := false }).wf = false := by decide
theorem test_wf_known_command : (Instr.akoonUnknownCommand { tag := 0, ctx := 1 } 13).wf = false := by decide

/-! ### Words written out from the encoding tables (R190, R192, R200, R202, R203, R373) -/

/-- The fields of R192 from bit 63 down: frame, OP, PS, PN, D, A, B, C or F, M. -/
def word (frame : BitVec 2) (op : BitVec 8) (ps : BitVec 3) (pn : BitVec 1) (d a b c : BitVec 11) (m : BitVec 6) : W64 :=
  frame ++ op ++ ps ++ pn ++ d ++ a ++ b ++ c ++ m

/-- The instruction that a word decodes to, or the condition that it breaks. -/
def got (r : Except Reject Instr) : Option Instr := r.toOption
def why (r : Except Reject Instr) : Option Reject := match r with | .ok _ => none | .error e => some e

/-- (p2) iadd v4, v4, 1: the inline code of 1 is 0x701 (R195). -/
theorem test_decode_integer : got (decodeWord (word 0 0x12 2 0 0x004 0x004 0x701 0x490 0) 0) =
    some (.iadd { h := { plain with ps := 2 }, d := .v 4, a := .v 4, b := .imm 257, c := .vz, w64 := false, sat := false, sgn := false }) := by decide +kernel
/-- skip of 3 words, of which F[2:0] holds the count less 1 (R226). -/
theorem test_decode_control : got (decodeWord (word 0 0x06 2 1 0x490 0x490 0x490 0x002 0) 0) =
    some (.skip { h := { plain with ps := 2, pn := true }, n := 2 }) := by decide +kernel
/-- fma.rtz.sat v8, v5, v6, v8. -/
theorem test_decode_float : got (decodeWord (word 0 0x33 7 0 0x008 0x005 0x006 0x008 0b001001) 0) =
    some (.fma { h := plain, d := .v 8, a := .v 5, b := .v 6, c := .v 8, sat := true, mode := .rtz }) := by decide +kernel
/-- hmin2 on FP16 elements, and exp2. -/
theorem test_decode_packed : got (decodeWord (word 0 0x44 7 0 0x001 0x002 0x003 0x490 0b010001) 0) =
    some (.hmin2 { h := plain, d := .v 1, a := .v 2, b := .v 3, f16 := true, num := true }) := by decide +kernel
theorem test_decode_special : got (decodeWord (word 0 0x48 7 0 0x001 0x402 0x490 0x490 0b100000) 0) =
    some (.exp2 { h := { plain with acc := true }, d := .v 1, a := .w 2 }) := by decide +kernel
/-- The worked pair of the spec: the upper half iadd v5, v8 and the lower fadd v4, v9. -/
theorem test_decode_pair : got (decodeWord (0b01#2 ++ 0x02#7 ++ 5#10 ++ 8#10 ++ 0#1 ++ 0#3 ++ 0x10#7 ++ 4#10 ++ 9#10 ++ 0#1 ++ 0#3) 0) =
    some (.pair { acc := false, hi := { op := .iadd, d := 5, s := 8, m3 := 0 }, lo := { op := .fadd, d := 4, s := 9, m3 := 0 } }) := by decide +kernel
/-- cvt.s32.f32.rdn: destination type 4 in F[3:0], source type 0 in F[7:4]. -/
theorem test_decode_convert : got (decodeWord (word 0 0x50 7 0 0x001 0x002 0x490 0x004 0b000011) 0) =
    some (.cvt { h := plain, d := .v 1, a := .v 2, b := .vz, dst := .s32, src := .f32, sat := false, mode := .rdn }) := by decide +kernel
/-- wsum.f32 v10, v3, cvw. -/
theorem test_decode_cross : got (decodeWord (word 0 0x64 7 0 0x00A 0x003 0x490 0x010 0) 0) =
    some (.wsum { h := plain, d := .v 10, a := .v 3, cv := 16, ty := .f32, excl := false, sat := false, mode := .rne }) := by decide +kernel
/-- A weak 32-bit load of global memory with a literal offset: the next 8 bytes hold it (R190). -/
theorem test_decode_literal : got (decodeWord (word 2 0x70 7 0 0x001 0x400 0x7FF 0x004 0) 0x1000) =
    some (.ldG { h := { plain with lit := some 0x1000 }, d := .v 1, a := .w 0, b := .lit, ty := .b32, order := .weak, scope := .thr }) := by decide +kernel
/-- atom.max.n32.ar.dev: operation 5 in F[4:0], scope 4 in F[7:5], order 4. -/
theorem test_decode_atomic : got (decodeWord (word 0 0x80 7 0 0x001 0x400 0x002 0x085 0b000100) 0) =
    some (.atomG { h := plain, d := .v 1, a := .w 0, b := .v 2, op := .maxN, order := .ar, scope := .dev }) := by decide +kernel
theorem test_decode_copy : got (decodeWord (word 0 0x90 7 0 0x490 0x404 0x406 0x408 0b010000) 0) =
    some (.copyLd { h := plain, a := .w 4, b := .w 6, c := .w 8, csp := true, sat := false, mode := .rne }) := by decide +kernel
/-- mma.as.bs w20, w8, w10, acc3, cv1: the tile in F[10:5], the register in F[4:0]. -/
theorem test_decode_matrix : got (decodeWord (word 0 0xA2 7 0 0x414 0x408 0x40A 0x061 0b000110) 0) =
    some (.mma { h := plain, d := .w 20, a := .w 8, b := .w 10, tile := 3, cv := 1, csp := false, aScr := true, bScr := true }) := by decide +kernel
theorem test_decode_optimiser : got (decodeWord (word 0 0xB0 7 0 0x000 0x004 0x408 0x490 0b010100) 0) =
    some (.adamw { h := plain, d := .v 0, a := .v 4, b := .w 8, bf16 := true, sr := true }) := by decide +kernel
theorem test_decode_kiln : got (decodeWord (word 0 0xBA 2 0 0x000 0x491 0x490 0x490 0) 0) =
    some (.ktest { h := { plain with ps := 2 }, d := .v 0, a := .sv .tid }) := by decide +kernel
theorem test_decode_task : got (decodeWord (word 0 0xC2 7 0 0x008 0x490 0x490 0x490 0) 0) = some (.taskNext { h := plain, d := .v 8 }) := by decide +kernel
/-- svc v6, v4, v5, 3, cvw. -/
theorem test_decode_service : got (decodeWord (word 0 0xD0 7 0 0x006 0x004 0x005 0x070 0) 0) =
    some (.svc { h := plain, d := .v 6, a := .v 4, b := .v 5, fn := 3, cv := 16 }) := by decide +kernel
/-- srd of special register 0x801: M[4] is bit 11 of its number (R337). -/
theorem test_decode_system : got (decodeWord (word 0 0xD4 7 0 0x004 0x490 0x490 0x001 0b010000) 0) =
    some (.srd { h := plain, d := .v 4, sreg := 0x801 }) := by decide +kernel
/-- ZF words from bit 31 down: OP, D, A, B or the immediate. -/
theorem test_decode_sequencer :
    got (decodeZf (0x09#6 ++ 12#5 ++ 10#5 ++ 0xFFFC#16)) = some (.bne { d := 12, a := 10, imm := 0xFFFC }) ∧
    got (decodeZf (0x19#6 ++ 13#5 ++ 2#5 ++ 12#5 ++ 0#6 ++ 5#3 ++ 1#1 ++ 1#1)) = some (.cadvRmt { d := 13, a := 2, b := 12, rel := true }) := by decide +kernel
/-- Words that are no instruction, with the condition of R428 that each breaks first. -/
theorem test_reject :
    why (decodeWord (word 3 0x12 7 0 0x004 0x004 0x701 0x490 0) 0) = some .frame ∧
    why (decodeWord (word 0 0x0F 7 0 0x490 0x490 0x490 0x490 0) 0) = some .opcode ∧
    why (decodeWord (word 0 0x12 7 1 0x004 0x004 0x701 0x490 0) 0) = some .guard ∧
    why (decodeWord (word 0 0x12 7 0 0x004 0x4A7 0x701 0x490 0) 0) = some .code ∧
    why (decodeWord (word 0 0x12 7 0 0x004 0x7FF 0x701 0x490 0) 0) = some .literal ∧
    why (decodeWord (word 0 0x12 7 0 0x491 0x004 0x701 0x490 0) 0) = some .unwritable ∧
    why (decodeWord (word 0 0x12 7 0 0x004 0x004 0x701 0x491 0) 0) = some .unused ∧
    why (decodeWord (word 0 0x30 7 0 0x004 0x004 0x005 0x490 4) 0) = some .subfield ∧
    why (decodeWord (word 0 0x04 7 0 0x003 0x6FE 0x490 0x490 0) 0) = some .mark := by decide +kernel

/-! ### Worked examples of the spec -/

/-- R230 to R233: iabs of 0x8000_0000 without and with .sat; bfe.s of 0x0F00 at 8, 4 long; a shift by 40. -/
theorem test_integer_examples :
    intAbs 32 false 0x80000000 = 0x80000000 ∧ intAbs 32 true 0x80000000 = 0x7FFFFFFF ∧ bfeN 32 true 0x0F00 0x0408 = 0xFFFFFFFF ∧
    shrN 32 0xFFFFFFFF 40 = 0 := by decide +kernel

/-- R237: fma.rne of 2^24 + 2, 1 and 1 is a tie, which goes to 2^24 + 4. -/
theorem test_fma_example : FSpec.fp32.round .rne 0 false
    ((FSpec.fp32.decode 0x4B800001).fma .rne (FSpec.fp32.decode 0x3F800000) (FSpec.fp32.decode 0x3F800000)) = 0x4B800002 := by
  decide +kernel

/-- The worked RNE values in E2M1: 0.25, 0.75, 1.25, 1.75, 2.5, 3.5, 5 and 7, at scale 1. -/
theorem test_e2m1_examples :
    [0x3E800000, 0x3F400000, 0x3FA00000, 0x3FE00000, 0x40200000, 0x40600000, 0x40A00000, 0x40E00000].map
      (fun a => narrowValue .e2m1 true .rne 0 a 127) = [0, 2, 2, 4, 4, 6, 6, 7] := by decide +kernel

/-- The worked values in FP8. -/
theorem test_fp8_examples :
    [0x3F880000, 0x3F980000, 0x3A800000, 0x3B400000, 0x43E80000, 0x43F00000].map (fun a => narrowValue .e4m3 false .rne 0 a 127)
      = [0x38, 0x3A, 0x00, 0x02, 0x7E, 0x7F] ∧
    narrowValue .e4m3 true .rne 0 0x43F00000 127 = 0x7E ∧ narrowValue .e4m3 false .rtz 0 0x43F00000 127 = 0x7E ∧
    [0x3F900000, 0x3FB00000, 0x47700000].map (fun a => narrowValue .e5m2 false .rne 0 a 127) = [0x3C, 0x3E, 0x7C] ∧
    narrowValue .e5m2 true .rne 0 0x47700000 127 = 0x7B ∧ narrowValue .e5m2 false .rup 0 0xC7700000 127 = 0xFB := by decide +kernel

/-- The worked stochastic rounding: 2.5 in E2M1 gives 2 at the draw 0x7FFF and 3 at 0x8000. -/
theorem test_sr_example :
    narrowValue .e2m1 true .sr 0x7FFF 0x40200000 127 = 4 ∧ narrowValue .e2m1 true .sr 0x8000 0x40200000 127 = 5 := by decide +kernel

/-- R243: the worked conversions. -/
theorem test_cvt_examples :
    cvtValue .s32 .f32 false .rne 0 0x40200000 = 2 ∧ cvtValue .s32 .f32 false .rdn 0 0xC0200000 = 0xFFFFFFFD ∧
    cvtValue .n32 .f32 false .rne 0 0xBF333333 = 0 ∧ cvtValue .s32 .f32 false .rne 0 0x4F32D05E = 0x7FFFFFFF ∧
    cvtValue .s8 .s32 false .rne 0 300 = 44 ∧ cvtValue .s8 .s32 true .rne 0 300 = 127 := by decide +kernel

/-- R129, R257: WSUM and WSCAN of the contributions 16,777,216, 1, 1, 0. -/
theorem test_scan_example :
    let l := [(0, 0x4B800000), (1, 0x3F800000), (2, 0x3F800000), (3, 0)]
    wsumValue .f32 false .rne l = 0x4B800001 ∧
    [0, 1, 2, 3].map (wscanValue .f32 true false .rne 4 l) = [0, 0x4B800000, 0x4B800000, 0x4B800001] := by decide +kernel

/-- R309: the worked step with FP32 moments. -/
theorem test_adamw_example :
    let r := fun n => Reg.ofNat n false
    adamWords { h := plain, d := .v 0, a := .v 4, b := .w 8, bf16 := false, sr := false } (fun _ => 0)
      [r 0x3F800000, r 0, r 0] 0x3F000000
      [r 0x3A800000, r 0x3F600000, r 0x3F7C0000, r 0x33800000, r 0x3D800000, r 0x41000000, r 0x42800000, r 1]
      = [0x3F7FBC00, 0x3D800000, 0x3B800000] := by decide +kernel

/-- R293: the worked binding word: 16 by 16, A56, offset 0 on unit 1, K 128, both operands E4M3. -/
theorem test_tile_word :
    let t := Tile.of 0x007F3304000003CF
    (t.unit = 1 ∧ t.rows = 16 ∧ t.cols = 16 ∧ t.view = .a56) ∧ (t.off = 0 ∧ t.k = 128 ∧ t.fa = .e4m3 ∧ t.fb = .e4m3) := by decide +kernel

/-- R397, R399: the worked entry of a bound tile in the save area, written by the save (dirty) and left as it was (clean). -/
theorem test_tile_entry :
    (Tile.of 0x18000803CF).code true = 0x0000001B000803CF ∧ (Tile.of 0x18000803CF).code false = 0x00000019000803CF := by decide +kernel

/-- R117: the first position of a scan passes a NaN as the canonical one. -/
theorem test_scan_nan : wscanValue .f32 false false .rne 2 [(0, 0x7F800001), (1, 0)] 0 = 0x7FC00000 := by decide +kernel

/-! ### One step -/

/-- A word at the program counter after reset is fetched, decoded and performed: iadd v4, v4, 1 leaves 1 in v4 (R203, R231). -/
theorem test_step_word :
    (match step (State.reset.withFetchWord 64 (word 0 0x12 7 0 0x004 0x004 0x701 0x490 0).toNat) with
     | .next t => (t.groups.map fun g => (g.warps.map fun w => (w.paths.map (·.pc), w.threads.map fun u => u.reg 4)))
     | _ => []) = [[([0x10008], [⟨1, false⟩])]] := by decide +kernel

/-- A ZF word runs on its sequencer: movi x5, x0, 7 (R373, R379). -/
theorem test_step_sequencer :
    (match step (State.reset.withFetchWord 32 (0x01#6 ++ 5#5 ++ 0#5 ++ 7#16 : W32).toNat) with
     | .next t => t.seqs.map fun q => (q.1, q.2.pc, q.2.reg 5)
     | _ => []) = [(0, 0x10004, 7)] := by decide +kernel

end Sys2Proof.Tests
end

