-- ==== Sys2Proof/Tests/States.lean ====
section
/-! SUPPORT. Tests/States.lean: small states for the witnesses: one group of one thread whose path issues, with a page of
data and a page of counters. -/

set_option Elab.async false

namespace Sys2Proof.Tests

open Sys2Proof.Machine

/-! ### The conditions of Safety.lean as decidable conjunctions -/

theorem clear_iff (s : State) (x : Iss) (h : Hdr) (sh : Shape) : Clear s x h sh ↔
    (s.iss? = some x ∧ s.dependency x sh h = false ∧ s.ringBusy x sh = false ∧ s.ringWaits x h sh = false ∧ x.badBranch sh = [] ∧
      x.badGuard h = 0 ∧ x.illegal h sh = none ∧ (sh.gen = true → x.g.genBad = 0) ∧ s.portWait x.g x.r.w (x.needs h sh) = none ∧
      s.hurt x h sh = []) :=
  ⟨fun ⟨a, b, c, d, e, f, g, i, j, k⟩ => ⟨a, b, c, d, e, f, g, i, j, k⟩, fun ⟨a, b, c, d, e, f, g, i, j, k⟩ => ⟨a, b, c, d, e, f, g, i, j, k⟩⟩

/-- The conditions of Clear, evaluated. -/
def clearB (s : State) (x : Iss) (h : Hdr) (sh : Shape) : Bool :=
  decide (s.iss? = some x) && !s.dependency x sh h && !s.ringBusy x sh && !s.ringWaits x h sh && (x.badBranch sh).isEmpty &&
    decide (x.badGuard h = 0) && (x.illegal h sh).isNone && (!sh.gen || decide (x.g.genBad = 0)) && (s.portWait x.g x.r.w (x.needs h sh)).isNone && (s.hurt x h sh).isEmpty

theorem clear_of {s : State} {x : Iss} {h : Hdr} {sh : Shape} (e : clearB s x h sh = true) : Clear s x h sh := by
  simp only [clearB, Bool.and_eq_true, Bool.not_eq_true', decide_eq_true_eq, Bool.or_eq_true, Option.isNone_iff_eq_none,
    List.isEmpty_iff] at e
  obtain ⟨⟨⟨⟨⟨⟨⟨⟨⟨a, b⟩, c⟩, r⟩, q⟩, d⟩, e⟩, f⟩, g⟩, i⟩ := e
  exact ⟨a, b, c, r, q, d, e, fun h => f.resolve_left (by simp [h]), g, i⟩

/-- The condition that what is done happens, evaluated. -/
def arrivesB (s : State) (key : Nat × Nat) (cls : Nat) (t : State) : Bool := !t.held && s.reachAll key cls t.mem.touched && t.mem.misses.isEmpty

theorem arrives_of {s t : State} {key : Nat × Nat} {cls : Nat} (h : arrivesB s key cls t = true) : s.arrives key cls t := by
  simp only [arrivesB, Bool.and_eq_true, Bool.not_eq_true', List.isEmpty_iff] at h
  exact ⟨h.1.1, h.1.2, h.2⟩

theorem signClear_iff (s : State) (x : Iss) (h : Hdr) (sh : Shape) (cv : CvField) (w : Bool) : SignClear s x h sh cv w ↔
    (s.iss? = some x ∧ s.dependency x sh h = false ∧ sh.illegal x (maskCount (x.taking h)) = none ∧ x.misuse cv w = none) :=
  ⟨fun ⟨a, b, c, d⟩ => ⟨a, b, c, d⟩, fun ⟨a, b, c, d⟩ => ⟨a, b, c, d⟩⟩

theorem genClear_iff (t : State) (r : GenRef) (e : Gen) (o : GenOps) : GenClear t r e o ↔
    (t.gen? r = some e ∧ e.conv.signers.any (·.bad) = false ∧ t.genBusy e o.codes = false ∧
      e.excess o.srcs (e.readers o) o.dst (e.writers o) = none ∧ t.genPorts e o.srcs (e.readers o) o.dst (e.writers o) = none ∧
      (t.genVals e o).findSome? (fun m => strictFault { srcs := o.srcs } m.2) = none) :=
  ⟨fun ⟨a, b, c, d, e, f⟩ => ⟨a, b, c, d, e, f⟩, fun ⟨a, b, c, d, e, f⟩ => ⟨a, b, c, d, e, f⟩⟩

/-! ### States -/

/-- An unguarded word without a literal (R193). -/
def h0 : Hdr := { ps := 7, pn := false, acc := false, lit := none }

/-- A supervisor context 1 with one C group of one thread, as withFetchWord leaves it; its page tables map 0x10000. -/
def start : State := State.reset.withFetchWord 64 0
/-- The key of the group. -/
def key : Nat := (start.groups.map Group.key).headD 0
/-- Its memory, where the page tables also map data at 0x20000, readable and writable, and counters at 0x30000. -/
def mapped0 : Memory := (start.mem.write 0x30010 (leBytes 8 0x50003) false).write 0x30018 (leBytes 8 0x6000B) false
/-- The translations that the TLBs of core 0 and cluster 0 hold. -/
def pages : List (TlbPlace × TlbEntry) :=
  [TlbPlace.core 0, TlbPlace.cluster 0].flatMap fun p =>
    [(p, ⟨1, 0x10000, 0x10000, 0x40000, 0x7⟩), (p, ⟨1, 0x20000, 0x10000, 0x50000, 0x3⟩), (p, ⟨1, 0x30000, 0x10000, 0x60000, 0xB⟩)]
/-- The path of the thread issues. -/
def st0 : State := { start with cur := some (.path ⟨key, 0, 0⟩ 8), agenda := [], mem := { mapped0 with tlb := pages } }
/-- The state with words in the thread's registers from v4 on. -/
def withRegs (s : State) (l : List Nat) : State :=
  s.updThread key 0 0 fun th => l.zipIdx.foldl (fun (u : Thread) x => u.setReg (4 + x.2) ⟨BitVec.ofNat 32 x.1, false⟩) th
/-- The same from w4 on. -/
def withWarpRegs (s : State) (l : List Nat) : State :=
  s.updWarp key 0 fun th => l.zipIdx.foldl (fun (u : Warp) x => u.setReg (4 + x.2) ⟨BitVec.ofNat 32 x.1, false⟩) th

def grp0 : Group := {
  key := 0, ctx := 0, launch := 0, launchId := 0, index := 0, x := 0, y := 0, z := 0, ndx := 0, ndy := 0, ndz := 0,
  core := 0, cid := 0, mates := [], handle := 0, cls := .c, width := 0, size := 0, nreg := 0, dae := false, daew := 0, rfg := 0, spg := 0,
  acg := 0, band := 0, prio := 0, key64 := 0, stream := 0, keyBad := false, streamBad := false, scratch := [], scratchBad := [], acc := [], leftover := [], place := none,
  tiles := [], cv := [], ring := [], kiln := none, ops := [], versioned := false, vlines := [], oor := none, task := none, segments := [],
  stop := false, wrote := [], warps := [] }

/-- Who issues in a state, or a stand-in where none does. -/
def who (s : State) : Iss := (s.iss?).getD
  { r := ⟨0, 0, 0⟩, size := 0, g := grp0,
    w := { wid := 0, lane := 0, slot := 0, w := [], cvw := Conv.idle, paths := [], threads := [], reg0 := Region.none, reg1 := Region.none,
           poisonOrigin := 0, occ := 0 },
    p := { st := .ready, skn := 0, age := 0, cvi := 16, access := false, pc := 0, skmask := 0, tmask := 0, timer := 0, yielded := false,
           own := false, redo := 0, wait := none },
    c := Ctx.start 0 false }

/-- The generation that is complete in a state, or a stand-in. -/
def whole (s : State) (r : GenRef) : Gen := (s.gen? r).getD { r := ⟨0, 0, 0⟩, conv := Conv.idle, g := grp0, c := Ctx.start 0 false }

end Sys2Proof.Tests
end

