-- ==== Sys2Proof/Tests/WitnessA.lean ====
section
/-! SUPPORT. Tests/WitnessA.lean: states and operands that meet the hypotheses of the statements on instructions that compute,
branch, sign or access memory. -/

set_option Elab.async false

namespace Sys2Proof.Tests

open Sys2Proof.Machine

def intOps : IntOps := { h := h0, d := .v 4, a := .v 6, b := .imm 257, c := .v 8, w64 := true, sat := true, sgn := true }
def floatOps : FloatOps := { h := h0, d := .v 4, a := .v 6, b := .imm 257, c := .v 8, sat := true, mode := .rne }
def halfOps : HalfOps := { h := h0, d := .v 4, a := .v 6, b := .imm 257, c := .v 8, f16 := true, sat := false, mode := .rdn }
def one (a : Operand) : OpA := { h := h0, a := a }
def two (a b : Operand) : OpAB := { h := h0, a := a, b := b }
def da (d a : Operand) : OpDA := { h := h0, d := d, a := a }
def dab (d a b : Operand) : OpDAB := { h := h0, d := d, a := a, b := b }

theorem witness_IntegerResults : ∀ sh ∈ [IntOps.one intOps, IntOps.two intOps,
    { srcs := [srcA (.v 6) 2, srcB (.imm 257) 2, srcC (.v 8) 1], dst := some { op := .v 4, n := 2 } },
    { srcs := [srcA (.v 6) 1, srcB (.imm 257) 1, srcC (.v 8) 2], dst := some { op := .v 4, n := 2 } }], Clear st0 (who st0) h0 sh := by
  simp only [clear_iff]; decide +kernel

theorem witness_BitResults : ∀ sh ∈ [IntOps.shift intOps, IntOps.one intOps,
    { srcs := [srcA (.v 6) 2], dst := some { op := .v 4 } },
    { srcs := [srcA (.v 6) 2, srcB (.imm 257) 2, srcC (.v 8) 1], dst := some { op := .v 4, n := 2 } },
    { srcs := [srcA (.v 6) 2, srcB (.imm 257) 2], dst := some { op := .p 0 } },
    { srcs := [srcA (.v 6) 2, srcB (.imm 257) 1], dst := some { op := .v 4, n := 2 } }], Clear st0 (who st0) h0 sh := by
  simp only [clear_iff]; decide +kernel

def minMaxOps : FMinMaxOps := { h := h0, d := .v 4, a := .v 6, b := .imm 257, num := true }
def fcmpOps : FcmpOps := { h := h0, d := .p 0, a := .v 6, b := .imm 257, cond := .un }

theorem witness_FloatResults : ∀ sh ∈ [FloatOps.two floatOps false, FloatOps.three floatOps false, FloatOps.two floatOps true,
    FloatOps.three floatOps true, FMinMaxOps.shape minMaxOps false, FMinMaxOps.shape minMaxOps true, FcmpOps.shape fcmpOps false,
    FcmpOps.shape fcmpOps true, { srcs := [srcF 2 (.v 6) false], dst := some { op := .v 4 } }], Clear st0 (who st0) h0 sh := by
  simp only [clear_iff]; decide +kernel

theorem witness_PackedAndSpecialResults : ∀ sh ∈ [HalfOps.two halfOps, HalfOps.three halfOps,
    { srcs := [srcH 2 (.v 6) true, srcH 3 (.imm 257) true], dst := some { op := .v 4 } }, OpDA.f32 (da (.v 4) (.v 6))],
    Clear st0 (who st0) h0 sh := by
  simp only [clear_iff]; decide +kernel

def cvtOps : CvtOps := { h := h0, d := .v 4, a := .v 6, b := .vz, dst := .f32, src := .s8, sat := false, mode := .sr }
def narrowOps : CvtNarrowOps := { h := h0, d := .v 4, a := .v 6, b := .imm 383, c := .v 8, alt := false, sat := true, mode := .sr }
def groupOps : GroupOps := { h := h0, d := .v 4, a := .v 6, b := .imm 271, fmt := .e2m1, sat := false, mode := .rne }

theorem witness_ConversionResults :
    (Clear st0 (who st0) h0 (CvtOps.shape cvtOps) ∧ CvtType.bits cvtOps.src < 32 ∧
      (∀ m ∈ (st0.sees (who st0) h0 (CvtOps.shape cvtOps)).vals, regsBad (m.2.headD []) = false)) ∧
    (∀ sh ∈ [narrowShape narrowOps, mxqShape groupOps, { srcs := [srcF 2 (.v 6) false], dst := some { op := .v 4 } },
      { srcs := [srcF 2 (.v 6) false, srcF 3 (.imm 257) false], dst := some { op := .v 4 } }], Clear st0 (who st0) h0 sh) ∧
    Clear st0 (who st0) h0 (pickShape groupOps) ∧
    (∀ m ∈ (st0.sees (who st0) h0 (pickShape groupOps)).vals, reservedPick groupOps m.2 = false) := by
  and_intros <;> first | decide +kernel | (simp only [clear_iff]; decide +kernel)

def pairOps : PairOps := { acc := false, hi := { op := .iadd, d := 5, s := 8, m3 := 0 }, lo := { op := .fadd, d := 4, s := 9, m3 := 0 } }

theorem witness_PairCompletes : Clear st0 (who st0) (PairOps.hdr pairOps) (PairOps.shape pairOps) := by
  simp only [clear_iff]; decide +kernel

/-! ### Control -/

/-- The same thread in a .dae launch, its execute stream at a word and a value in its branch queue (R53, R56). -/
def stDae : State :=
  (st0.updGroup key fun g => { g with dae := true, daew := 0 }).updThread key 0 0 fun th => { th with br := [(true, false), (false, false)] }

theorem witness_ControlCompletes :
    let flat : Shape := { srcs := [], uni := some false, flat := true }
    let branch : Shape := { srcs := [{ srcA (.imm 254) 1 with strict := true }], uni := some false, flat := true }
    let far : Shape := { srcs := [{ srcA (.v 4) 2 with strict := true }], uni := some false, flat := true }
    let pop : Shape := { srcs := [{ srcA (.imm 254) 1 with strict := true }], uni := some false, flat := true, branch := 2, execOnly := true,
                         daeOnly := true }
    let call : Shape := { branch with dst := some { op := .v 6, n := 2 } }
    Clear st0 (who st0) h0 { srcs := [], flat := true } ∧ Clear st0 (who st0) h0 flat ∧ (who st0).p.skn = 0 ∧
    (Clear st0 (who st0) h0 branch ∧ ∀ m ∈ (st0.sees (who st0) h0 branch).vals, badTarget (relative (who st0) m.2) = false) ∧
    (Clear st0 (who st0) h0 far ∧ ∀ m ∈ (st0.sees (who st0) h0 far).vals, badTarget (absolute m.2) = false) ∧
    (Clear stDae (who stDae) h0 pop ∧ ∀ m ∈ (stDae.sees (who stDae) h0 pop).vals, badTarget (relative (who stDae) m.2) = false) ∧
    (Clear st0 (who st0) h0 call ∧ ∀ m ∈ (st0.sees (who st0) h0 call).vals, badTarget (relative (who st0) m.2) = false) := by
  and_intros <;> first | decide +kernel | (simp only [clear_iff]; decide +kernel)

theorem witness_PathInstructionsComplete :
    let flat : Shape := { srcs := [], uni := some false, flat := true }
    let uni := fun f (o : Operand) => ({ field := f, op := o, n := 2, uni := true } : Src)
    (∀ sh ∈ [flat, { srcs := [srcA (.imm 256) 1], uni := some true }, { srcs := [uni 2 (.w 4), uni 3 (.w 6)], uni := some true }, { srcs := [strictA (.v 4) 2, strictB (.imm 256) 1] },
      lockShape (dab (.v 4) (.v 6) (.imm 320)), { srcs := [], dst := some { op := .v 4 } }, { srcs := [] },
      { srcs := [srcA (.imm 300) 1], uni := some false, flat := true, execOnly := true }], Clear st0 (who st0) h0 sh) ∧
    ((who st0).g.conv (Fin.ofNat 17 3) (who st0).r.w).armed = false ∧ st0.fenceWaits (who st0) h0 .sc = false := by
  and_intros <;> first | decide +kernel | (simp only [clear_iff]; decide +kernel)

/-! ### Cross-thread instructions -/

def signOps : SignOps := { h := h0, d := .v 4, cv := 16 }
def qxOps : QxOps := { h := h0, d := .v 4, a := .v 6, b := .imm 257, cv := 16, xor := true }
/-- The table of PERM lies at the address in w4. -/
def permOps : PermOps := { h := h0, d := .v 4, a := .v 6, b := .w 4, cv := 16 }
def voteOps : VoteOps := { h := h0, d := .v 4, a := .v 6, cv := 16, mode := .ballot }
def sumOps : SumOps := { h := h0, d := .v 4, a := .v 6, cv := 16, ty := .f32, excl := false, sat := false, mode := .rne }
def maxOps : MaxOps := { h := h0, d := .v 4, a := .v 6, cv := 15, ty := .s64, min := true }
/-- cv15 names the one warp and its one thread (R41). -/
def stCv : State := st0.updGroup key fun g => { g with cv := [(15, { Conv.idle with wmask := 1, tmask := 1 })] }
def stTable : State := withWarpRegs st0 [0x20000, 0]

theorem witness_CrossThreadCompletes :
    let u := fun (s : State) (i : Instr) (cv : CvField) => s.withSignature (who s) i h0 cv
    let r := fun (cv : CvField) => (⟨key, cv, 0⟩ : GenRef)
    (SignClear st0 (who st0) h0 (SignOps.ops signOps).shape 16 false ∧
      GenClear (u st0 (.sign signOps) 16) (r 16) (whole (u st0 (.sign signOps) 16) (r 16)) (SignOps.ops signOps)) ∧
    (SignClear st0 (who st0) h0 (QxOps.ops qxOps).shape 16 true ∧
      GenClear (u st0 (.qx qxOps) 16) (r 16) (whole (u st0 (.qx qxOps) 16) (r 16)) (QxOps.ops qxOps)) ∧
    (SignClear st0 (who st0) h0 (VoteOps.ops voteOps).shape 16 true ∧
      GenClear (u st0 (.vote voteOps) 16) (r 16) (whole (u st0 (.vote voteOps) 16) (r 16)) (VoteOps.ops voteOps)) ∧
    (SignClear st0 (who st0) h0 (SumOps.ops sumOps).shape 16 true ∧
      GenClear (u st0 (.wsum sumOps) 16) (r 16) (whole (u st0 (.wsum sumOps) 16) (r 16)) (SumOps.ops sumOps)) ∧
    (SignClear stCv (who stCv) h0 (MaxOps.ops maxOps).shape 15 true ∧
      GenClear (u stCv (.wmax maxOps) 15) (r 15) (whole (u stCv (.wmax maxOps) 15) (r 15)) (MaxOps.ops maxOps)) := by
  and_intros <;> first | decide +kernel | (simp only [signClear_iff, genClear_iff]; decide +kernel)

theorem ok_of {ε α : Type} [DecidableEq α] {r : Except ε α} {a : α} (h : (match r with | .ok b => decide (b = a) | .error _ => false) = true) :
    r = .ok a := by
  cases r with
  | ok b => exact congrArg _ (of_decide_eq_true h)
  | error _ => cases h

theorem witness_CrossThreadCompletes_perm :
    let t := stTable.withSignature (who stTable) (.perm permOps) h0 16
    let e := whole t ⟨key, 16, 0⟩
    let a := permTable (t.genVals e (PermOps.ops permOps))
    SignClear stTable (who stTable) h0 (PermOps.ops permOps).shape 16 true ∧ GenClear t ⟨key, 16, 0⟩ e (PermOps.ops permOps) ∧
    t.genVals e (PermOps.ops permOps) ≠ [] ∧ a % 64 = 0 ∧ a < 2 ^ 55 ∧
    let tr : TlbEntry := ⟨1, 0x20000, 0x10000, 0x50000, 0x3⟩
    t.translate e.c a e.g.via = .ok tr ∧ attrCtr tr.attr = false ∧ t.permWaits e (tr.pa a) = false ∧
    t.reachAll e.key 2 [(tr.pa a / 1024, false)] = true ∧
    ((t.fillLine tr (tr.pa a / 32) e.g.core).fillLine tr (tr.pa a / 32 + 1) e.g.core).mem.misses = [] ∧
    t.watched true false (tr.pa a) 64 = false ∧ t.tableHit permOps e = none := by
  and_intros <;> first | decide +kernel | (simp only [signClear_iff, genClear_iff]; decide +kernel) | (apply ok_of; decide +kernel)

/-- The table that PTLD asks for is the one that PERM reads. -/
theorem witness_PathInstructionsComplete_ptld :
    let sh : Shape := { srcs := [{ field := 2, op := .w 4, n := 2, strict := true, uni := true }], uni := some true }
    Clear stTable (who stTable) h0 sh ∧ regsNat ((((stTable.sees (who stTable) h0 sh).vals.headD (0, [])).2).headD []) = 0x20000 ∧
    Reaches stTable (who stTable) { code := (Operand.w 4).code, size := 64, plain := true } 0x20000 ⟨1, 0x20000, 0x10000, 0x50000, 0x3⟩ := by
  and_intros <;> first | decide +kernel | (simp only [clear_iff]; decide +kernel) | (simp only [Reaches]; decide +kernel)

/-- Two threads of the warp in two paths: the first signs before the second. -/
def stPair : State := st0.updWarp key 0 fun w =>
  { w with threads := w.threads ++ w.threads, paths := w.paths.flatMap fun p => [p, { p with tmask := 2, pc := p.pc + 8 }] }

theorem witness_EarlySignatureWaits :
    (∀ x ∈ [((.sign signOps : Instr), (SignOps.ops signOps).shape, (16 : CvField), false), (.qx qxOps, (QxOps.ops qxOps).shape, 16, true),
        (.perm permOps, (PermOps.ops permOps).shape, 16, true), (.vote voteOps, (VoteOps.ops voteOps).shape, 16, true),
        (.wsum { sumOps with cv := 16 }, (SumOps.ops sumOps).shape, 16, true), (.wmax { maxOps with cv := 16 }, (MaxOps.ops maxOps).shape, 16, true),
        (.wscan { sumOps with cv := 16 }, (SumOps.ops sumOps).shape, 16, true)],
      SignClear stPair (who stPair) h0 x.2.1 x.2.2.1 x.2.2.2 ∧
      (stPair.withSignature (who stPair) x.1 h0 x.2.2.1).gen? ⟨key, x.2.2.1, 0⟩ = none) := by
  simp only [signClear_iff]; decide +kernel

/-! ### Memory -/

def ldOps (ty : MemType) (o : Order) (s : Scope) : MemOps := { h := h0, d := .v 8, a := .v 4, b := .imm 256, ty := ty, order := o, scope := s }
def atomOps : AtomOps := { h := h0, d := .v 8, a := .v 4, b := .v 10, op := .maxN64, order := .ar, scope := .dev }
def casOps : CasOps := { h := h0, d := .v 8, a := .v 4, b := .v 12, order := .rlx, scope := .sys }
def ctrOps (scratch : Bool) (o : Order) : CtrOps := { h := h0, d := .v 8, a := .w 4, b := .imm 256, scratch := scratch, scope := .dev, order := o }
def ctrInitOps (scratch : Bool) : CtrInitOps :=
  { h := h0, a := .w 4, b := .imm 256, scratch := scratch, scope := .dev, pclass := 6, rscope := 5, order := .rel }
/-- The thread's address in v4 is of data, in w4 of a counter. -/
def stMem : State := withWarpRegs (withRegs st0 [0x20040, 0]) [0x30010, 0]
/-- A versioned group. -/
def stVer : State := stMem.updGroup key fun g => { g with versioned := true }
def entry (va : Nat) : TlbEntry := if va < 0x30000 then ⟨1, 0x20000, 0x10000, 0x50000, 0x3⟩ else ⟨1, 0x30000, 0x10000, 0x60000, 0xB⟩
def readW : Doing := { code := 4, size := 4, plain := true }

theorem witness_GlobalAccessesComplete_plain :
    let i := who stMem
    let ld := MemOps.ldShape (ldOps .b32 .acq .dev) false
    let st := MemOps.stShape (ldOps .b16 .rel .dev) false
    (Clear stMem i h0 ld ∧ stMem.mustWait i h0 0 .acq false = false ∧
      ∀ w ∈ wants (stMem.sees i h0 ld) vaG (fun _ => 0) (fun _ => false), Reaches stMem i readW w.va (entry w.va)) ∧
    (Clear stMem i h0 st ∧ stMem.mustWait i h0 1 .rel false = false ∧ partData (ldOps .b16 .rel .dev) (stMem.sees i h0 st) = [] ∧
      i.g.versioned = false ∧ ∀ w ∈ storeWants (stMem.sees i h0 st) (ldOps .b16 .rel .dev) vaG,
        Reaches stMem i { code := 4, size := 2, write := true, plain := true } w.va (entry w.va)) ∧
    (Clear stVer (who stVer) h0 st ∧ stVer.mustWait (who stVer) h0 1 .weak false = false ∧ (who stVer).g.versioned = true ∧
      partData (ldOps .b16 .weak .thr) (stVer.sees (who stVer) h0 st) = [] ∧
      (who stVer).g.vlines.length + (storeWants (stVer.sees (who stVer) h0 st) (ldOps .b16 .weak .thr) vaG).length ≤ 512 ∧
      ∀ w ∈ storeWants (stVer.sees (who stVer) h0 st) (ldOps .b16 .weak .thr) vaG,
        Reaches stVer (who stVer) { code := 4, size := 2, write := true, plain := true } w.va (entry w.va)) := by
  and_intros <;> first | decide +kernel | (simp only [clear_iff]; decide +kernel) | (simp only [Reaches]; decide +kernel)

theorem witness_GlobalAccessesComplete_atomic :
    let i := who stMem
    (∀ x ∈ [(AtomOps.shape atomOps false, 8), (CasOps.shape casOps false 1, 4), (CasOps.shape casOps false 2, 8)],
      Clear stMem i h0 x.1 ∧ stMem.mustWait i h0 2 .ar false = false ∧ ∀ w ∈ wantsB (stMem.sees i h0 x.1) false,
        Reaches stMem i { code := 4, size := x.2, write := true, plain := true } w.va (entry w.va)) ∧
    (∀ x ∈ [({ srcs := [ctrSrcA (.w 4) false, strictB (.imm 256) 2], suppress := true }, true),
        (CtrOps.rmw (ctrOps false .ar), true),
        ({ srcs := [ctrSrcA (.w 4) false], dst := some { op := .v 8, n := 2 }, suppress := true }, false)],
      Clear stMem i h0 x.1 ∧ stMem.mustWait i h0 2 .ar false = false ∧ ∀ w ∈ wantsB (stMem.sees i h0 x.1) false,
        Reaches stMem i (ctrDoing (.w 4) x.2) w.va (entry w.va)) := by
  simp only [clear_iff, Reaches]
  and_intros <;> decide +kernel

/-- The thread's address is an offset of scratchpad. -/
def stScr : State := withWarpRegs (withRegs st0 [0x40, 0]) [0x80, 0]

theorem witness_ScratchpadAccessesComplete :
    let i := who stScr
    let ld := MemOps.ldShape (ldOps .b32 .acq .grp) true
    let st := MemOps.stShape (ldOps .b16 .rel .grp) true
    (Clear stScr i h0 ld ∧ stScr.mustWait i h0 0 .acq true = false ∧ ∀ m ∈ (stScr.sees i h0 ld).vals,
      stScr.scratchBusy i.g (vaS m.2) 4 = false ∧ (stScr.afterRead i h0 ld).scratchOut i.g (vaS m.2) 4 = none ∧ vaS m.2 % 4 = 0) ∧
    (Clear stScr i h0 st ∧ stScr.mustWait i h0 1 .rel true = false ∧ partData (ldOps .b16 .rel .grp) (stScr.sees i h0 st) = [] ∧
      ∀ m ∈ (stScr.sees i h0 st).vals,
        stScr.scratchBusy i.g (vaS m.2) 2 = false ∧ (stScr.afterRead i h0 st).scratchOut i.g (vaS m.2) 2 = none ∧ vaS m.2 % 2 = 0) ∧
    (∀ x ∈ [(AtomOps.shape atomOps true, 8, AccessKind.atom .maxN64, ({ op := .v 8, n := 2 } : Dst)),
        (CasOps.shape casOps true 1, 4, .cas, { op := .v 8 }), (CasOps.shape casOps true 2, 8, .cas64, { op := .v 8, n := 2 }),
        ({ srcs := [ctrSrcA (.w 4) true, strictB (.imm 256) 2], suppress := true }, 16, .ctrInit 0, { op := .vz }),
        (CtrOps.rmw (ctrOps true .ar), 16, .ctrAdd, { op := .v 8, n := 2 }),
        ({ srcs := [ctrSrcA (.w 4) true], dst := some { op := .v 8, n := 2 }, suppress := true }, 16, .ctrRd, { op := .v 8, n := 2 })],
      Clear stScr i h0 x.1 ∧ stScr.mustWait i h0 2 .ar true = false ∧
      (∀ w ∈ wantsB (stScr.sees i h0 x.1) true, stScr.scratchBusy i.g w.va x.2.1 = false ∧
        (stScr.afterRead i h0 x.1).scratchOut i.g w.va x.2.1 = none ∧ w.va % x.2.1 = 0) ∧
      State.noWrap i (stScr.sees i h0 x.1) x.2.2.1 x.2.2.2 x.2.1 (stScr.afterRead i h0 x.1) (wantsB (stScr.sees i h0 x.1) true) = true) := by
  simp only [clear_iff]
  and_intros <;> decide +kernel

def qcfgOps (b : Operand) : QcfgOps := { h := h0, a := .w 4, b := b, port := 7 }

def ringShape (b : Operand) : Shape :=
  { srcs := [{ field := 2, op := .w 4, strict := true, uni := true }, { field := 3, op := b, strict := true, uni := true }], uni := some true }
/-- Every test can be made and holds. -/
def allHold (s : State) (x : CtrOps) : Bool :=
  ((s.afterRead (who s) h0 (CtrOps.waitShape x)).ctrTests (who s) (s.sees (who s) h0 (CtrOps.waitShape x)) x).all fun c =>
    (!x.scratch || !s.scratchBusy (who s).g c.1.va 16) &&
      match c.2 with
      | .ok t => (s.afterRead (who s) h0 (CtrOps.waitShape x)).testHolds (who s).g t && !s.testVeiled (who s).r x.scope t
      | .error _ => false
/-- What its completion leads to. -/
def heldAll (s : State) (x : CtrOps) : State :=
  let k := s.sees (who s) h0 (CtrOps.waitShape x)
  let u := s.afterRead (who s) h0 (CtrOps.waitShape x)
  u.testsDone (who s).r (who s).g x.d k.uni k.ts ((u.ctrTests (who s) k x).filterMap fun c => c.2.toOption)

theorem witness_WaitAndPortCompletes_wait : ∀ x ∈ [(stMem, ctrOps false .acq), (stScr, ctrOps true .rlx)],
    Clear x.1 (who x.1) h0 (CtrOps.waitShape x.2) ∧ x.1.waitFirst (who x.1) h0 = false ∧ x.1.mustWait (who x.1) h0 0 x.2.order x.2.scratch = false ∧
      allHold x.1 x.2 = true ∧ x.1.arrives (PathRef.waitKey (who x.1).r (who x.1).p) 2 (heldAll x.1 x.2) := by
  simp only [clear_iff, State.arrives]; decide +kernel

/-- The word of B that a binding with these operands reads: n, and whether it empties the ring. -/
def ringWord (h : Hdr) (b : Operand) : Nat :=
  regsNat ((((stScr.sees (who stScr) h (ringShape b)).vals.headD (0, [])).2.getD 1 []))
def hLit : Hdr := { h0 with lit := some 0x104 }

/-- Unbinding, a ring of 4 entries, and one of 16 that is emptied. -/
theorem witness_WaitAndPortCompletes_unbind : Clear stScr (who stScr) h0 (ringShape (.imm 256)) ∧ ringWord h0 (.imm 256) = 0 :=
  ⟨clear_of (by decide +kernel), by decide +kernel⟩
theorem witness_WaitAndPortCompletes_small : Clear stScr (who stScr) h0 (ringShape (.imm 258)) ∧ ringWord h0 (.imm 258) = 2 ∧
    (stScr.afterRead (who stScr) h0 (ringShape (.imm 258))).scratchOut (who stScr).g 0x80 (16 + 4 * 2 ^ 2) = none :=
  ⟨clear_of (by decide +kernel), by decide +kernel, by decide +kernel⟩
theorem witness_WaitAndPortCompletes_large : Clear stScr (who stScr) hLit (ringShape .lit) ∧ ringWord hLit .lit = 0x104 ∧
    (stScr.afterRead (who stScr) hLit (ringShape .lit)).scratchOut (who stScr).g 0x80 (16 + 4 * 2 ^ 4) = none ∧
    stScr.scratchBusy (who stScr).g 0x80 8 = false :=
  ⟨clear_of (by decide +kernel), by decide +kernel, by decide +kernel, by decide +kernel⟩

end Sys2Proof.Tests
end

