-- ==== Sys2Proof/Tests/WitnessB.lean ====
section
/-! SUPPORT. Tests/WitnessB.lean: states and operands that meet the hypotheses of the statements on engines, matrix units, kilns,
tasks, services, traps and system registers. -/

set_option Elab.async false

namespace Sys2Proof.Tests

open Sys2Proof.Machine

def signClearB (s : State) (x : Iss) (h : Hdr) (sh : Shape) (cv : CvField) (within : Bool) : Bool :=
  decide (s.iss? = some x) && !s.dependency x sh h && (sh.illegal x (maskCount (x.taking h))).isNone && (x.misuse cv within).isNone

theorem signClear_of {s : State} {x : Iss} {h : Hdr} {sh : Shape} {cv : CvField} {w : Bool} (e : signClearB s x h sh cv w = true) :
    SignClear s x h sh cv w := by
  simp only [signClearB, Bool.and_eq_true, Bool.not_eq_true', decide_eq_true_eq, Option.isNone_iff_eq_none] at e
  exact ⟨e.1.1.1, e.1.1.2, e.1.2, e.2⟩

def genClearB (t : State) (r : GenRef) (e : Gen) (o : GenOps) : Bool :=
  decide (t.gen? r = some e) && !e.conv.signers.any (·.bad) && !t.genBusy e o.codes &&
    (e.excess o.srcs (e.readers o) o.dst (e.writers o)).isNone && (t.genPorts e o.srcs (e.readers o) o.dst (e.writers o)).isNone &&
    ((t.genVals e o).findSome? (fun m => strictFault { srcs := o.srcs } m.2)).isNone

theorem genClear_of {t : State} {r : GenRef} {e : Gen} {o : GenOps} (h : genClearB t r e o = true) : GenClear t r e o := by
  simp only [genClearB, Bool.and_eq_true, Bool.not_eq_true', decide_eq_true_eq, Option.isNone_iff_eq_none] at h
  exact ⟨h.1.1.1.1.1, h.1.1.1.1.2, h.1.1.1.2, h.1.1.2, h.1.2, h.2⟩

/-- The state with bytes at a virtual address of the data page. -/
def withData (s : State) (va n x : Nat) : State := { s with mem := s.mem.write (0x50000 + (va - 0x20000)) (leBytes n x) false }

/-! ### COPY -/

/-- A tensor of two rows of four FP32 elements at 0x20100, described at 0x20000. -/
def descWord : Nat := 0x20100 + 4 * 2 ^ 128 + 2 * 2 ^ 160 + 4 * 2 ^ 192
def copyOps : CopyOps := { h := h0, a := .w 4, b := .w 6, c := .w 8, csp := false, sat := false, mode := .rne }
def stCopy (b : Nat) : State := withWarpRegs (withData st0 0x20000 32 descWord) [0x20000, 0, b, 0, 0, 0]
/-- What the statement asks of the descriptors, the word and the room. -/
def copyGoes (kind : CopyKind) (b : Nat) : Bool :=
  let s := stCopy b
  match (s.afterRead (who s) h0 (CopyOps.shape copyOps (kind = .st))).descriptor (who s) 0x20000 with
  | .ok (s1, da, false) =>
    if kind = .cp then
      match s1.descriptor (who s) b with
      | .ok (s2, db, false) => (copyReason (who s) kind (Tensor.ofBytes da) (Tensor.ofBytes db) 0x20000 b).isNone && goes s s2 da db
      | _ => false
    else (copyReason (who s) kind (Tensor.ofBytes da) (Tensor.ofBytes []) 0x20000 b).isNone && goes s s1 da []
  | _ => false
where
  /-- A slot is free, and every sector that the acceptance reaches serves it. -/
  goes (s t : State) (da db : List Byte) : Bool :=
    match t.copyRoom (who s).g with
    | some slot => arrivesB s (PathRef.waitKey (who s).r (who s).p) 2 (t.acceptCopy (who s) copyOps kind slot da db b 0)
    | none => false

theorem witness_CopyCompletes : ∀ x ∈ [(CopyKind.ld, 2 ^ 24), (.st, 2 ^ 24), (.cp, 0x20000)],
    clearB (stCopy x.2) (who (stCopy x.2)) h0 (CopyOps.shape copyOps (x.1 = .st)) = true ∧
    (stCopy x.2).fenceWaits (who (stCopy x.2)) h0 .sc = false ∧
    (((stCopy x.2).sees (who (stCopy x.2)) h0 (CopyOps.shape copyOps (x.1 = .st))).vals.map fun m => m.2.map regsNat) = [[0x20000, x.2, 0]] ∧
    copyGoes x.1 x.2 = true := by decide +kernel

/-! ### Tiles -/

/-- A tile of 2 rows and 4 columns of FP32 with K 16 at offset 0 of unit 1, and the same with K 2 for a dual product. -/
def tileWord (rows cols k : Nat) (off : Nat) : Nat := (rows - 1) + (cols - 1) * 64 + off * 2 ^ 16 + 2 ^ 34 + 2 ^ 36 + (k - 1) * 2 ^ 48
def stTile : State :=
  withRegs (withWarpRegs (st0.updGroup key fun g => { g with acg := 1, tiles := [(2, some (Tile.of (tileWord 2 4 16 0)))] })
    [0, 0, 2 ^ 23 * 1, 0]) [0, 0]
def tepiOps : TepiOps := { h := h0, d := .v 16, a := .v 4, b := .imm 260, tile := 2, sat := false, mode := .rne }
def moveOps : TileMoveOps := { h := h0, d := .w 8, a := .w 6, tile := 2, fmt := .f32, csp := false, sat := false, mode := .rne }

theorem witness_TileInstructionsComplete_config :
    Clear stTile (who stTile) h0 { srcs := [{ field := 2, op := .w 4, n := 2, uni := true }], uni := some true, suppress := true } ∧
    stTile.tileBusy (who stTile).g (who stTile).w.wid 63 = false ∧ (who stTile).g.tcfgRefused 63 (tileWord 64 64 65536 1) false = none ∧
    Clear stTile (who stTile) h0 { srcs := [], uni := some true, suppress := true } ∧ stTile.tileBusy (who stTile).g (who stTile).w.wid 2 = false ∧
    (who stTile).g.tile 2 = some (Tile.of (tileWord 2 4 16 0)) :=
  ⟨clear_of (by decide +kernel), by decide +kernel, by decide +kernel, clear_of (by decide +kernel), by decide +kernel, by decide +kernel⟩

theorem witness_TileInstructionsComplete_seed :
    Clear stTile (who stTile) h0 { srcs := [{ field := 2, op := .w 4, n := 2, uni := true }, { field := 3, op := .w 6, uni := true }],
                                   uni := some true, suppress := true } ∧
    Clear stTile (who stTile) h0 { srcs := [{ field := 3, op := .imm 256, uni := true }], uni := some true, suppress := true } :=
  ⟨clear_of (by decide +kernel), clear_of (by decide +kernel)⟩

/-- Four elements from column 0 on: the last column is reached. -/
theorem witness_TileInstructionsComplete_elements :
    let b : Src := { field := 3, op := .imm 260, uni := true }
    let sh : Shape := { srcs := [srcA (.v 4) 1, b], dst := some { op := .v 16, n := 4, group := true } }
    regsNat ((who stTile).words h0 b (maskLow (who stTile).p.tmask)) = 4 ∧ Clear stTile (who stTile) h0 sh ∧
    ((stTile.sees (who stTile) h0 sh).vals.map fun m => regsNat (m.2.headD [])) = [0] :=
  ⟨by decide +kernel, clear_of (by decide +kernel), by decide +kernel⟩

theorem witness_TileInstructionsComplete_move :
    let sh := TileMoveOps.shape moveOps
    Clear stTile (who stTile) h0 sh ∧ 4 * tileBytes moveOps.fmt ≤ 16 * (2 ^ 23 / 2 ^ 23 % 256) ∧
    stTile.fenceWaits (who stTile) h0 .sc = false ∧ (stTile.afterRead (who stTile) h0 sh).slotOf (who stTile).g = some 0 ∧ (who stTile).g.genBad = 0 ∧
    (who stTile).g.wins stTile.coreClock (.tile 2) (who stTile).w.wid = true ∧ (who stTile).g.tile 2 = some (Tile.of (tileWord 2 4 16 0)) :=
  ⟨clear_of (by decide +kernel), by decide +kernel, by decide +kernel, by decide +kernel, by decide +kernel, by decide +kernel, by decide +kernel⟩

/-! ### Matrix instructions -/

/-- A layout-1 descriptor of an FP32 tensor. -/
def desc (base pitch rows cols : Nat) : Nat := base + pitch * 2 ^ 128 + rows * 2 ^ 160 + cols * 2 ^ 192 + 2 ^ 230
/-- Tiles 2 and 3 as a dual product needs them, its two descriptors at 0x20000, and a panel word of RP 4. -/
def stMat : State :=
  withWarpRegs (withData (withData (st0.updGroup key fun g => { g with
      acg := 1, tiles := [(2, some (Tile.of (tileWord 2 4 16 0))), (3, some (Tile.of (tileWord 4 16 2 1)))] })
    0x20000 32 (desc 0x20400 16 4 16)) 0x20020 32 (desc 0x21000 8 2 4)) [4 * 2 ^ 23, 0, 0x20000, 0, 1, 0]
def mmaOps : MmaOps := { h := h0, d := .vz, a := .w 4, b := .w 4, tile := 2, cv := 16, csp := false, aScr := true, bScr := true }
def mmdOps : MmaOps := { mmaOps with b := .w 6, bScr := false }
def genOf (i : Instr) : Gen := whole (stMat.withSignature (who stMat) i h0 16) ⟨key, 16, 0⟩

theorem witness_MatrixCompletes_mma :
    let sh : Shape := { srcs := MmaOps.mmaSrcs mmaOps (who stMat).g, execOnly := true, uni := some false }
    let u := stMat.withSignature (who stMat) (.mma mmaOps) h0 16
    let e := genOf (.mma mmaOps)
    let word := fun (a : Src) => some (regsNat (e.uniform h0 a))
    SignClear stMat (who stMat) h0 sh 16 false ∧ GenClear u ⟨key, 16, 0⟩ e { h := h0, srcs := [] } ∧
    (MmaOps.mmaCheck mmaOps (who stMat).g 1 (some (4 * 2 ^ 23)) (some (4 * 2 ^ 23))).isNone = true ∧
    (e.uniformBad h0 (MmaOps.mmaUni mmaOps)).isNone = true ∧
    (MmaOps.mmaCheck mmaOps e.g e.conv.signers.length (word (uniSrc 2 (.w 4) 2)) (word (uniSrc 3 (.w 4) 2))).isNone = true ∧
    u.memberWaits e = false ∧ (u.slotOf e.g).isSome = true ∧ u.genTileLate e = false ∧ (e.g.tile 2).isSome = true :=
  ⟨signClear_of (by decide +kernel), genClear_of (by decide +kernel), by decide +kernel, by decide +kernel, by decide +kernel, by decide +kernel,
    by decide +kernel, by decide +kernel, by decide +kernel⟩

theorem witness_MatrixCompletes_mmd :
    let sh : Shape := { srcs := [uniSrc 1 .vz 2, matSource 2 (.w 4) true (MmaOps.fmtA mmdOps (who stMat).g), uniSrc 3 (.w 6) 2],
                        execOnly := true, uni := some false }
    let u := stMat.withSignature (who stMat) (.mmd mmdOps) h0 16
    let e := genOf (.mmd mmdOps)
    let word := fun (a : Src) => some (regsNat (e.uniform h0 a))
    SignClear stMat (who stMat) h0 sh 16 false ∧ GenClear u ⟨key, 16, 0⟩ e { h := h0, srcs := [] } ∧
    (stMat.mmdCheck (who stMat).c mmdOps (who stMat).g 1 (some (4 * 2 ^ 23)) (some 0x20000)).isNone = true ∧
    (e.uniformBad h0 (MmaOps.mmdUni mmdOps)).isNone = true ∧
    (u.mmdCheck e.c mmdOps e.g e.conv.signers.length (word (uniSrc 2 (.w 4) 2)) (word (uniSrc 3 (.w 6) 2))).isNone = true ∧
    u.memberWaits e = false ∧ (u.slotOf e.g).isSome = true ∧ u.genTileLate e = false ∧ u.mmdReach e mmdOps = .go ∧
    (e.g.tile 2).isSome = true ∧ (e.g.tile 3).isSome = true :=
  ⟨signClear_of (by decide +kernel), genClear_of (by decide +kernel), by decide +kernel, by decide +kernel, by decide +kernel, by decide +kernel, by decide +kernel,
    by decide +kernel, by decide +kernel, by decide +kernel, by decide +kernel⟩

/-- The last row of the tile, which the one member writes and reads. -/
def twOps : TileWriteOps := { h := h0, a := .w 8, b := .v 4, tile := 2, cv := 16, raw := true, mode := .rne }
def trOps : TileReadOps := { h := h0, d := .v 4, a := .w 8, tile := 2, cv := 16, raw := false, sat := true, mode := .rne }

theorem witness_MatrixCompletes_write :
    let n := (who stMat).g.moveLength 2 true
    let o : GenOps := { h := h0, srcs := [TileWriteOps.src twOps], upTo := n }
    let e := genOf (.twrr twOps)
    SignClear stMat (who stMat) h0 { srcs := [moveIndex (.w 8), TileWriteOps.src twOps], execOnly := true, uni := some false } 16 false ∧
    moveSign (who stMat) h0 (.w 8) 16 2 0xA4 true = none ∧ moveSign (who stMat) h0 (.w 8) 16 2 0xA5 false = none ∧
    GenClear (stMat.withSignature (who stMat) (.twrr twOps) h0 16) ⟨key, 16, 0⟩ e o ∧
    e.g.tileBefore 2 (if e.conv.place = 0 then (stMat.withSignature (who stMat) (.twrr twOps) h0 16).stamp else e.conv.place) = false ∧
    (stMat.withSignature (who stMat) (.twrr twOps) h0 16).genTileLate e = false ∧
    regsNat (e.uniform h0 (moveIndex (.w 8))) % 64 = 1 :=
  ⟨signClear_of (by decide +kernel), by decide +kernel, by decide +kernel, genClear_of (by decide +kernel), by decide +kernel, by decide +kernel, by decide +kernel⟩

theorem witness_MatrixCompletes_read :
    let n := (who stMat).g.moveLength 2 false
    let o : GenOps := { h := h0, srcs := [], dst := some (TileReadOps.dst trOps), upTo := n }
    let e := genOf (.trdc trOps)
    SignClear stMat (who stMat) h0 { srcs := [moveIndex (.w 8)], dst := some (TileReadOps.dst trOps), execOnly := true, uni := some false } 16
      false ∧
    moveSign (who stMat) h0 (.w 8) 16 2 0xA6 true = none ∧ moveSign (who stMat) h0 (.w 8) 16 2 0xA7 false = none ∧
    GenClear (stMat.withSignature (who stMat) (.trdc trOps) h0 16) ⟨key, 16, 0⟩ e o ∧
    e.g.tileBefore 2 (if e.conv.place = 0 then (stMat.withSignature (who stMat) (.trdc trOps) h0 16).stamp else e.conv.place) = false ∧
    (stMat.withSignature (who stMat) (.trdc trOps) h0 16).genTileLate e = false ∧
    regsNat (e.uniform h0 (moveIndex (.w 8))) % 64 = 1 :=
  ⟨signClear_of (by decide +kernel), by decide +kernel, by decide +kernel, genClear_of (by decide +kernel), by decide +kernel, by decide +kernel, by decide +kernel⟩

/-! ### ADAMW -/

def adamOps : AdamwOps := { h := h0, d := .v 4, a := .v 4, b := .w 8, bf16 := true, sr := true }
theorem witness_AdamwCompletes : Clear st0 (who st0) h0 (AdamwOps.shape adamOps) ∧
    ((st0.sees (who st0) h0 (AdamwOps.shape adamOps)).vals.all fun m => !m.2.any regsBad) = true :=
  ⟨clear_of (by decide +kernel), by decide +kernel⟩

end Sys2Proof.Tests
end

