-- ==== Sys2Proof/Tests/WitnessC.lean ====
section
/-! SUPPORT. Tests/WitnessC.lean: states and operands that meet the hypotheses of the statements on kilns, tasks, services, traps and
system registers. -/

set_option Elab.async false

namespace Sys2Proof.Tests

open Sys2Proof.Machine

/-! ### Kilns -/

/-- A record at 0x20000 of one block of one tile, at step 1, with signatures, cache and maps in the same page; the word of the key is
0, the last that the record has. -/
def kilnWord : Nat := 0x20400 * 2 ^ 64 + 0x20800 * 2 ^ 128 + 0x20C00 * 2 ^ 192 + 2 ^ 256
def stKiln0 : State := withRegs (withWarpRegs (withData st0 0x20000 256 kilnWord) [0x20000, 0, 1, 0, 0, 0]) [1, 0]
def bound : KilnBind := { record := 0x20000, step := 1, fields := BitVec.ofNat 448 kilnWord }
def stKiln : State := stKiln0.updGroup key fun g => { g with kiln := some bound }
def kstepShape : Shape := { srcs := [uniSrc 2 (.w 4) 2, uniSrc 3 (.w 6) 1], uni := some true, suppress := true }
def ksigShape : Shape := { srcs := [uniSrc 2 (.w 4) 2, uniSrc 3 (.w 8) 1], uni := some true, suppress := true }
def kread (s : State) (sh : Shape) (va n : Nat) : Option (State × List (Byte × Bool)) :=
  (s.afterRead (who s) h0 sh).kilnRead (who s).c (who s).g.kilnAt va n

theorem witness_KilnCompletes_kstep :
    Clear stKiln0 (who stKiln0) h0 kstepShape ∧ stKiln0.outstanding (who stKiln0) = false ∧ stKiln0.fenceWaits (who stKiln0) h0 .sc = false ∧
    ((stKiln0.sees (who stKiln0) h0 kstepShape).vals.map fun m => m.2.map regsNat) = [[0x20000, 1]] ∧
    (match kread stKiln0 kstepShape 0x20000 256 with
      | some (s1, bs) => (recordRefused (bs.map (·.1)) (bs.any (·.2))).isNone &&
          (match s1.translate (who stKiln0).c 0x20000 (who stKiln0).g.viaEngine with | .ok e => attrW e.attr | .error _ => false) &&
          decide (bs.map (·.1) = leBytes 256 kilnWord) &&
          arrivesB stKiln0 (PathRef.waitKey (who stKiln0).r (who stKiln0).p) 2
            ((s1.updGroup key fun g => { g with kiln := some bound }).enqueueKiln (who stKiln0) (.kstep (two (.w 4) (.w 6))) none (some bound)
              (stKiln0.sees (who stKiln0) h0 kstepShape).ts [])
      | none => false) = true :=
  ⟨clear_of (by decide +kernel), by decide +kernel, by decide +kernel, by decide +kernel, by decide +kernel⟩

theorem witness_KilnCompletes_bound :
    Clear stKiln (who stKiln) h0 ksigShape ∧ stKiln.outstanding (who stKiln) = false ∧ stKiln.fenceWaits (who stKiln) h0 .sc = false ∧
    (who stKiln).g.kiln = some bound ∧ bound.keyBad 0 = false ∧ ((stKiln.afterRead (who stKiln) h0 ksigShape).slotOf (who stKiln).g).isSome = true ∧
    Clear stKiln (who stKiln) h0 { srcs := [{ field := 2, op := .imm 256, strict := true }], dst := some { op := .v 8 }, suppress := true } ∧
    Clear stKiln (who stKiln) h0 { srcs := [{ field := 2, op := .imm 256, strict := true }], dst := some { op := .v 8, n := 2 } } ∧
    Clear stKiln (who stKiln) h0 { srcs := [uniSrc 1 .vz 2], uni := some true, suppress := true } :=
  ⟨clear_of (by decide +kernel), by decide +kernel, by decide +kernel, by decide +kernel, by decide +kernel, by decide +kernel,
    clear_of (by decide +kernel), clear_of (by decide +kernel), clear_of (by decide +kernel)⟩

theorem witness_KilnCompletes_map : ∀ n ∈ [1, 2],
    clearB stKiln (who stKiln) h0 (kmapShape (dab (.v 8) (.v 4) (.imm 256)) n) = true ∧ stKiln.kilnBusy (who stKiln) = false ∧
    ((stKiln.sees (who stKiln) h0 (kmapShape (dab (.v 8) (.v 4) (.imm 256)) n)).vals.map fun m => m.2.map regsNat) = [[1, 0]] ∧
    ((kread stKiln (kmapShape (dab (.v 8) (.v 4) (.imm 256)) n) bound.stepVa 4).map fun x => leNat (x.2.map (·.1))) = some 1 ∧ bound.nmap = 1 := by
  decide +kernel

/-- What KMAP leads to, for step 1 and key 0. -/
def mapped : State :=
  match kread stKiln (kmapShape (dab (.v 8) (.v 4) (.imm 256)) 2) bound.stepVa 4 with
  | some (t, _) => t.kmapOne (who stKiln) (.v 8) 2 0 0 [0] (match t.kilnRead (who stKiln).c (who stKiln).g.kilnAt (bound.mapVa 1 0 0) 8 with
    | some (u, bs) => .ok (u, some (leNat (bs.map (·.1))), bs.any (·.2))
    | none => .error 0)
  | none => stKiln

theorem witness_KilnCompletes_mapped : stKiln.arrives (PathRef.waitKey (who stKiln).r (who stKiln).p) 2 mapped := arrives_of (by decide +kernel)

/-! ### Tasks -/

/-- A record of a launch of one thread, and a range of the indices 0 to 7 with grain 1, at 0x20000 and 0x20040. -/
def launchWord : Nat := 0x10000 + 2 ^ 237 + 2 ^ 282
def rangeWord : Nat := 0x10000 + 8 * 2 ^ 192 + 2 ^ 384 + (2 ^ 6 + 2 ^ 26) * 2 ^ 416
def stTask : State := withRegs (withData (withData st0 0x20000 64 launchWord) 0x20040 64 rangeWord) [0x20000, 0, 0x20040, 0]
def launches (a : Operand) : OpDA := da (.v 8) a

/-- What LAUNCH and TASK.RANGE lead to. -/
def launched : Option State :=
  State.eachActs (who stTask) (stTask.sees (who stTask) h0 (launchShape (launches (.v 4)))) (.v 8) (fun t va => match t.readRecord (who stTask) va with
    | none => .error 10
    | some (t, bs, bad) => (t.checkLaunch bs bad).map fun r => t.accept 1 r) (stTask.afterRead (who stTask) h0 (launchShape (launches (.v 4))))
    (stTask.sees (who stTask) h0 (launchShape (launches (.v 4)))).vals
def ranged : Option State :=
  State.eachActs (who stTask) (stTask.sees (who stTask) h0 (launchShape (launches (.v 6)))) (.v 8) (fun t va => match t.readRecord (who stTask) va with
    | none => .error 10
    | some (t, bs, bad) => (checkRange bs bad).map fun r => t.createFamily (who stTask).g (who stTask).w r)
    (stTask.afterRead (who stTask) h0 (launchShape (launches (.v 6)))) (stTask.sees (who stTask) h0 (launchShape (launches (.v 6)))).vals
def taskArrives (u : Option State) : Bool :=
  match u with
  | some u => arrivesB stTask (PathRef.waitKey (who stTask).r (who stTask).p) 2 (u.updWarp key 0 fun w => { w with reg0 := Region.none, reg1 := Region.none })
  | none => false

theorem witness_TaskInstructionsComplete_create :
    Clear stTask (who stTask) h0 (launchShape (launches (.v 4))) ∧ Clear stTask (who stTask) h0 (launchShape (launches (.v 6))) ∧
    stTask.mustWait (who stTask) h0 2 .rel true = false ∧ stTask.outstanding (who stTask) = false ∧ (who stTask).c.num = 1 ∧
    taskArrives launched = true ∧ taskArrives ranged = true :=
  ⟨clear_of (by decide +kernel), clear_of (by decide +kernel), by decide +kernel, by decide +kernel, by decide +kernel, by decide +kernel,
    by decide +kernel⟩

/-- The family that TASK.RANGE made, with the group as the worker of one of its records. -/
def stWorker : State :=
  match ranged with
  | some u => { (u.updGroup key fun g => { g with task := (u.tasks.map fun t => (t.cluster, t.index)).head?, cls := .w }) with cur := st0.cur }
  | none => st0

theorem witness_TaskInstructionsComplete_run :
    Clear stWorker (who stWorker) h0 (chunkShape { h := h0, d := .v 4 }) ∧
    (match (who stWorker).g.task with
      | some (cl, ix) => match stWorker.task? cl ix with
        | some own => !stWorker.tooLate own (chunkOrder false (who stWorker).g.core) && !stWorker.tooLate own (chunkOrder true (who stWorker).g.core)
        | none => false
      | none => false) = true ∧
    Clear stWorker (who stWorker) h0 { srcs := [], uni := some false, suppress := true, execOnly := true } ∧
    Clear stWorker (who stWorker) h0
      { srcs := [{ field := 2, op := .w 4, n := 2, strict := true, uni := true }, { field := 3, op := .w 6, n := 2, strict := true, uni := true }],
        uni := some true, suppress := true, execOnly := true } :=
  ⟨clear_of (by decide +kernel), by decide +kernel, clear_of (by decide +kernel), clear_of (by decide +kernel)⟩

/-! ### Services -/

/-- The service queue lies at 0x20000 with 16 slots, the second of which holds a reply of 5 to the thread. -/
def stServe : State :=
  withRegs (withData (st0.updCtx 1 fun c => { c with svcqBase := 0x20000, svcqHead := 2, svcqTail := 1 }) (0x20000 + 544) 40
    (serviceHead 1 0 0 0 0 0 0 1 + 2 ^ 216 + 5 * 2 ^ 256)) [1, 0]
def svcOps : SvcOps := { h := h0, d := .v 8, a := .v 4, b := .imm 256, fn := 63, cv := 16 }

theorem witness_ServiceCompletes_svc :
    let u := stServe.withSignature (who stServe) (.svc svcOps) h0 16
    let e := whole u ⟨key, 16, 0⟩
    SignClear stServe (who stServe) h0 (SvcOps.ops svcOps).shape 16 true ∧ GenClear u ⟨key, 16, 0⟩ e (SvcOps.ops svcOps) ∧
    u.genVals e (SvcOps.ops svcOps) ≠ [] ∧ ((u.freeSlot e.c (serviceBytes e.g.width)).map (·.1)) = some 2 ∧
    u.wbRange e.c (e.c.slotVa 2) (serviceBytes e.g.width) = false ∧ u.deviceStalled e.c (e.c.slotVa 2) (serviceBytes e.g.width) = false :=
  ⟨signClear_of (by decide +kernel), genClear_of (by decide +kernel), by decide +kernel, by decide +kernel, by decide +kernel, by decide +kernel⟩

theorem witness_ServiceCompletes_wait :
    let sh := svcWaitShape (launches (.v 4))
    Clear stServe (who stServe) h0 sh ∧ stServe.outstanding (who stServe) = false ∧
    ((stServe.sees (who stServe) h0 sh).vals.map fun m =>
      match (stServe.afterRead (who stServe) h0 sh).reply (who stServe).c m.1 (BitVec.ofNat 32 (regsNat (m.2.headD []))) with
      | .ready r slot => (r.val.toNat, slot)
      | _ => (0, none)) = [(5, some 1)] :=
  ⟨clear_of (by decide +kernel), by decide +kernel, by decide +kernel⟩

/-! ### Traps and system registers -/

/-- The thread is in no handler; breakpoints are enabled; the thread is in a handler. -/
def stUser : State := (st0.updThread key 0 0 fun th => { th with super := false, trapped := false }).updCtx 1 fun c => { c with super := false }
def stDebug : State := stUser.updCtx 1 fun c => { c with dbgEn := 1 }
def stHandler : State := st0.updThread key 0 0 fun th => { th with super := true, trapped := true }
def trapShape : Shape := { srcs := [srcA (.v 4) 1], uni := some false, flat := true, execOnly := true }
def flatShape : Shape := { srcs := [], uni := some false, flat := true, execOnly := true }

theorem witness_TrapAndReturnComplete :
    Clear stUser (who stUser) h0 trapShape ∧ stUser.outstanding (who stUser) = false ∧
    (stUser.afterRead (who stUser) h0 trapShape).nested key 0 (maskOf ((stUser.sees (who stUser) h0 trapShape).vals.map (·.1))) = false ∧
    Clear stUser (who stUser) h0 flatShape ∧ (who stUser).c.dbgEn.getLsbD 0 = false ∧
    Clear stDebug (who stDebug) h0 flatShape ∧ (who stDebug).c.dbgEn.getLsbD 0 = true ∧ stDebug.outstanding (who stDebug) = false ∧
    (stDebug.afterRead (who stDebug) h0 flatShape).nested key 0 (maskOf (stDebug.sees (who stDebug) h0 flatShape).ts) = false ∧
    Clear stHandler (who stHandler) h0 flatShape ∧
    (∀ t ∈ (stHandler.sees (who stHandler) h0 flatShape).ts, ((who stHandler).thread t).super = true ∧ ((who stHandler).thread t).trapped = true) :=
  ⟨clear_of (by decide +kernel), by decide +kernel, by decide +kernel, clear_of (by decide +kernel), by decide +kernel,
    clear_of (by decide +kernel), by decide +kernel, by decide +kernel, by decide +kernel, clear_of (by decide +kernel), by decide +kernel⟩

/-- What SWR asks for besides a free path: the level, and no slot at a page at WB. -/
def swrGoes (n : BitVec 12) : Bool :=
  let sh := SwrOps.shape { h := h0, sreg := n, a := .w 4 }
  clearB st0 (who st0) h0 sh && !(who st0).anyProgram (st0.sees (who st0) h0 sh).ts &&
    !st0.swrStalls ((who st0).target ((st0.sees (who st0) h0 sh).vals.headD (0, [])).1) n.toNat
      (BitVec.ofNat 64 (regsNat ((((st0.sees (who st0) h0 sh).vals.headD (0, [])).2).headD [])))

/-- Reads of a register open to all, of one for the supervisor level and of one that is absent. -/
theorem witness_SystemInstructionsComplete_reads :
    (∀ n ∈ ([0x000, 0x07F, 0x010, 0x091, 0xFFF] : List (BitVec 12)), clearB st0 (who st0) h0 (SrdOps.shape { h := h0, d := .v 4, sreg := n }) = true) ∧
    (who st0).anyProgram (st0.sees (who st0) h0 (SrdOps.shape { h := h0, d := .v 4, sreg := 0x091 })).ts = false := by
  and_intros <;> decide +kernel

/-- A register with no row of its own, TLBINV, the ring of the service queue, SVCDONE and the first watchpoint. -/
theorem witness_SystemInstructionsComplete_writes :
    (∀ n ∈ ([0x050, 0x021, 0x040, 0x041, 0x044, 0x070] : List (BitVec 12)), swrGoes n = true) ∧
    st0.mustWait (who st0) h0 2 .ar true = false ∧ st0.outstanding (who st0) = false := by
  and_intros <;> decide +kernel

/-- A watchpoint of 1,024 bytes in the data page. -/
theorem witness_SystemInstructionsComplete_requests :
    let watch : Shape := { srcs := [{ field := 2, op := .w 4, n := 2, uni := true, strict := true }, { field := 3, op := .w 6, n := 1, uni := true }],
                           uni := some true, flat := true, execOnly := true }
    let pre : Shape := { srcs := [{ field := 2, op := .w 4, n := 1, uni := true }], uni := some true, flat := true, execOnly := true }
    let s := withWarpRegs st0 [0x20400, 0, 0x3A7]
    let e : TlbEntry := ⟨1, 0x20000, 0x10000, 0x50000, 0x3⟩
    let t := (s.afterRead (who s) h0 watch).walked (who s).g.via e
    Clear s (who s) h0 pre ∧ (who s).anyProgram (s.sees (who s) h0 pre).ts = false ∧ Clear s (who s) h0 watch ∧
    ((s.sees (who s) h0 watch).vals.map fun m => m.2.map regsNat) = [[0x20400, 0x3A7]] ∧ 0x3A7 / 16 % 16 ≤ 10 ∧
    (s.afterRead (who s) h0 watch).translate (who s).c 0x20400 (who s).g.via = .ok e ∧
    s.arrives (PathRef.waitKey (who s).r (who s).p) 0 ((({ t with mem := t.mem.hold (who s).g.via e } : State).updCtx 1 fun c => { c with
      watch := c.watch.modify 7 fun w => { w with kind := 3, sz := 10, base := e.pa 0x20400 } }).tick) :=
  ⟨clear_of (by decide +kernel), by decide +kernel, clear_of (by decide +kernel), by decide +kernel, by decide +kernel, ok_of (by decide +kernel),
    arrives_of (by decide +kernel)⟩

end Sys2Proof.Tests
end

