-- ==== Sys2Proof/Tests/WitnessD.lean ====
section
/-! SUPPORT. Tests/WitnessD.lean: states and operands that meet the hypotheses of the statements on the sequencers of the fabric and
the control node's commands. -/

set_option Elab.async false

namespace Sys2Proof.Tests

open Sys2Proof.Machine

/-! ### Sequencers -/

/-- The state that a step goes on in, or the one before it. -/
def go (s : State) (r : Result) : State := match r with | .next t => t | _ => s

/-- Context 1 with one sequencer context, which issues: x4 is the address of a counter, x5 a value, x6 the address of an element,
x7 the number of an ember, x8 to x11 the operands of a transfer of one element to peer 0. The peers lie at 0x21000, the embers at
0x20000: ember 1 is in state `e` with one FP32 element at 0x20400. -/
def seqStart : State := State.reset.withFetchWord 32 0
def emberWord (e : Nat) : Nat := e + 2 ^ 160 + 0x20400 * 2 ^ 192
def stSeq (e : Nat) : State :=
  { (seqStart.updCtx 1 fun c => { c with npeer := 1, peerBase := 0x21000, nemb := 2, embBase := 0x20000 }) with
    cur := some (.seq 0), agenda := []
    seqs := [(0, { Seq.start 7 1 0x10000 [] with
      x := [(4, 0x30010), (5, 3), (6, 0x20100), (7, 1), (8, 0x20100), (9, 0x20100), (10, 0), (11, 1)] })]
    mem := (((seqStart.mem.write 0x30010 (leBytes 8 0x50003) false).write 0x30018 (leBytes 8 0x6000B) false).write 0x50020
      (leBytes 32 (emberWord e)) false).write 0x51000 (leBytes 32 (0xFFFFFFFFF * 2 ^ 92)) false }
def seqWho (s : State) : SIss := (s.siss?).getD { n := 0, q := Seq.start 0 0 0 [], c := Ctx.start 0 false }

theorem witness_SequencerRegisterResults : (stSeq 0).siss? = some (seqWho (stSeq 0)) ∧ (seqWho (stSeq 0)).q.reg 5 = 3 := by decide +kernel

/-- CWAIT on a counter at 0 that goes on and one that waits; CADV, CADD and CADV.RMT with operands that the statement takes. -/
theorem witness_SequencerCountersAndEmbersComplete_counters :
    let s := stSeq 0
    let i := seqWho s
    s.siss? = some i ∧ (i.q.reg 4).toNat = 0x30010 ∧ (s.seqCounter i.c 0x30010).toOption = some 0 ∧ (i.q.reg 0).toNat ≤ 0 ∧
    ¬(i.q.reg 5).toNat ≤ 0 ∧ s.ctrStalled i.c 0x30010 = false ∧ (s.engineCtr i.c 0x30010).toOption = some (.phys 0x60010) ∧
    (i.q.reg 10).toNat % 4096 < i.c.npeer ∧ ((s.getPeer i 0).toOption.map fun x => x.2.ports) = some 0xFFFFFFFFF := by
  and_intros <;> decide +kernel

/-- What the step leads to happens. -/
def seqArrives (s t : State) : Bool := arrivesB s (seqKey 0) 1 t
def counted (s : State) : State := s.countIssue (seqWho s)

/-- CWAIT goes on, and waits; CADV and CADD act. -/
theorem witness_SequencerCountersAndEmbersComplete_arrive :
    let s := stSeq 0
    let i := seqWho s
    let u := (counted s).seqTouch i.c 0 0x30010
    let v := ((counted s).holdRange i.c 0x30010 16).ctrPut (.phys 0x60010) 0 (leBytes 8 (max ((counted s).ctrGet (.phys 0x60010)).1 3))
      ((counted s).ctrGet (.phys 0x60010)).2.2
    seqArrives s (u.seqNext i (i.q.pc + 4) id) = true ∧
    seqArrives s (u.updSeq 0 fun q => { q with wait := some (i.q.reg 4, i.q.reg 5), timer := 0 }) = true ∧
    seqArrives s (((v.served (0x60010 / 1024) 1 false).watch true true 0x60010 8 5 0).1.seqNext i (i.q.pc + 4) id) = true ∧
    seqArrives s (((counted s).advance 1 0x30010 3 8 0).seqNext i (i.q.pc + 4) id) = true := by
  and_intros <;> decide +kernel

/-- What CADV.RMT sends, or holds while a transfer to its peer is open. -/
def remoteOk (s : State) (held : Bool) : Bool :=
  match (counted s).getPeer (seqWho s) 0 with
  | .error _ => false
  | .ok (s1, p) =>
    let covers := s1.openPuts (seqWho s) 0
    let s2 := (s1.openRemote (seqWho s) 0 p none 0).1
    let o := (s1.openRemote (seqWho s) 0 p none 0).2
    let k : Packet := { kind := .advance, dstIp := p.ip, srcIp := 0, jobId := p.jobId, src := Config.self, pdc := o.pdc, peer := 0, psn := 0,
                        addr := (seqWho s).q.reg 4, bytes := [], poison := [], len := 8, value := (seqWho s).q.reg 5, rel := true, rod := p.rod,
                        addrPoison := false, op := o.id }
    let s3 := s2.updRemote o.id fun o => { o with sent := true, left := 1 }
    if held then
      !covers.isEmpty && seqArrives s ((s3.updRemote o.id fun o => { o with covers := covers, advance := some k }).seqNext (seqWho s)
        ((seqWho s).q.pc + 4) id)
    else covers.isEmpty && s3.sendRoom o.pdc ≠ 0 && seqArrives s ((s3.handOver o k).seqNext (seqWho s) ((seqWho s).q.pc + 4) id)

def bindOk (s : State) (i : SIss) : Bool :=
  match (counted s).getEmber i 1 with
  | .ok s1 e => (e.state = 1 || e.state = 3) && e.site = (i.q.reg 0).toNat % 2 ^ 38 && !e.broken &&
    (match s1.seqWrites i.c i.n s1.stamp ((if e.state = 1 then [(e.base, List.replicate (e.nelem * e.size) ((0 : Byte), false))] else []) ++
      [(e.va, ({ e with state := 2, seqctx := i.n } : Ember).low.map fun b => (b, false))]) with
     | .ok s2 => seqArrives s (s2.seqSet i 12 (e.version.setWidth 64))
     | .error _ => false)
  | _ => false
def foldOk (s : State) (i : SIss) : Bool :=
  match (counted s).getEmber i 1 with
  | .ok s1 e => decide (e.state = 4) && !e.broken && e.nelem = 1 && e.elo = 0 &&
    (match s1.seqReads i.c i.n [(0x20100, 4), (e.base, e.size)] with
     | .ok (s2, [own, res]) =>
       let out := ((elements 4 1 own).zip (elements e.size 1 res)).map fun y =>
         (addRne (localSpec false) ((localSpec false).decode y.1.1) (e.spec.decode y.2.1), y.1.2 || y.2.2)
       (match s2.seqWrites i.c i.n s2.stamp [(0x20100, elementBytes 4 out),
         (e.va, ({ e with state := 0, version := e.version + 1 } : Ember).low.map fun b => (b, false))] with
        | .ok s3 => seqArrives s (s3.seqNext i (i.q.pc + 4) id)
        | .error _ => false)
     | _ => false)
  | _ => false
def doneOk (s : State) : Bool :=
  match (counted s).idleEmbers 0 (seqWho s).c with
  | .ok t => seqArrives s (t.dropSeq 0)
  | .error _ => false
theorem witness_SequencerCountersAndEmbersComplete_embers :
    bindOk (stSeq 1) (seqWho (stSeq 1)) = true ∧ bindOk (stSeq 3) (seqWho (stSeq 3)) = true ∧ foldOk (stSeq 4) (seqWho (stSeq 4)) = true ∧
    doneOk (stSeq 2) = true := by
  and_intros <;> decide +kernel

/-- A transfer of one FP32 element, without an ember, or with the ember that x7 names. -/
def xfer (ember : Bool) : ZfTransfer := { d := 0, a := 8, b := if ember then 7 else 0, wf := 0, wbk := 0, sr := false, lf := false, ownFin := false, acc := false }
def xferInstr (k : XKind) (x : ZfTransfer) : Instr := match k with | .send => .xsend x | .recv => .xrecv x | .red => .xred x | .fwd => .xfwd x
/-- The one block of the transfer is done; and the transfer has begun with none done. -/
def stBegun (k : XKind) (ember : Bool) (e : Nat) : State := go (stSeq e) (exec (xferInstr k (xfer ember)) (stSeq e))
def ops (k : XKind) (ember : Bool) (s : State) : XOps := XOps.of k (xfer ember) (seqWho s).q
def stZero (k : XKind) (ember : Bool) (e : Nat) : State :=
  match (stSeq e).beginXfer (seqWho (stSeq e)) (ops k ember (stSeq e)) with
  | .ok (t, x) => t.updSeq 0 fun q => { q with xfer := some x, blocks := 0, packets := 0 }
  | .error _ => stSeq e
/-- A context is in a transfer with these blocks done, with or without an ember, with or without an operation. -/
def inXfer (s : State) (blocks : Nat) (ember op : Bool) : Bool :=
  match (seqWho s).q.xfer with
  | some x => (seqWho s).q.blocks = blocks && x.ember.isSome = ember && x.op.isSome = op && (s.siss?).isSome
  | none => false
/-- The transfer begins. -/
def beginOk (k : XKind) (ember : Bool) : Bool :=
  let s := stSeq 2
  match (counted s).beginXfer (seqWho s) (ops k ember s) with
  | .ok (s1, xf) =>
    let q := { (seqWho s).q with xfer := some xf, blocks := 0, packets := 0 }
    seqArrives s ((s1.updSeq 0 fun _ => q).xferStep { seqWho s with q := q } (ops k ember s) xf)
  | .error _ => false
/-- The block is performed: its lines can be read and written, its operation's connection has room, and no byte of it is bad. -/
def blockOk (k : XKind) (ember : Bool) : Bool :=
  let s := stZero k ember 2
  let i := seqWho s
  let o := ops k ember s
  match i.q.xfer with
  | none => false
  | some xf =>
    let w := if xf.until_ ≤ 0 ∧ o.dests xf.ember 0 ≠ [] then s.seqWindow i.c o 0 xf else (s, xf)
    ((xf.op.bind s.remote?).all fun r => decide (2 ≤ s.sendRoom r.pdc)) &&
      match w.1.seqLines i.c 0 w.2 (o.reads xf.ember 0) with
      | .error _ => false
      | .ok (s1, x1) =>
        let out := o.block xf.ember 0 ((o.reads xf.ember 0).map x1.bytes)
        let x2 := { x1 with
          pend := x1.pend ++ out.writes.flatMap fun w => w.2.zipIdx.map fun b => (w.1 + b.2, b.1)
          wire := x1.wire ++ out.wire }
        ((o.dests xf.ember 0).mapM fun d => s1.seqPieces i.c true x1.taken d.1 d.2).toOption.isSome && out.bad4B.isNone && out.bad4D.isNone &&
          match s1.seqPut i.c 0 x2 (((x2.pend.map fun b => b.1 / 32).eraseDups).filter fun _ => true) with
          | .error _ => false
          | .ok (s2, x3) =>
            let s3 := s2.updSeq 0 fun q => { q with blocks := 1, xfer := some x3 }
            seqArrives s ((if o.sends && o.kind ≠ .fwd then s3.count 5 0 1 1 else s3).flush 0 o false 2)
/-- The transfer ends. -/
def endOk (k : XKind) (ember : Bool) : Bool :=
  let s := stBegun k ember 2
  let i := seqWho s
  let o := ops k ember s
  match i.q.xfer with
  | none => false
  | some xf =>
    match (match xf.ember with | some e => s.putEmber i.c 0 { e with version := e.version + 1, seqctx := 0 } | none => .ok s) with
    | .error _ => false
    | .ok s1 =>
      match xf.op with
      | some n => seqArrives s ((((s1.flush 0 o true 2).updRemote n fun r => { r with sent := true }).settleOp n).seqNext i (i.q.pc + 4) id)
      | none => seqArrives s (s1.seqNext i (i.q.pc + 4) id)

/-- Nothing is open that CADV.RMT covers; with a transfer under way, that one is. -/
theorem witness_SequencerCountersAndEmbersComplete_remote :
    remoteOk (stSeq 0) false = true ∧ remoteOk { stBegun .send false 2 with cur := some (.seq 0), mem := (stSeq 2).mem } true = true := by
  and_intros <;> decide +kernel

/-- Each of the four begins, with no ember and with a bound one. -/
theorem witness_SequencerTransfersComplete_begin : ∀ x ∈ [(XKind.send, false), (.send, true), (.recv, false), (.red, true), (.fwd, false)],
    ((stSeq 2).siss?).isSome = true ∧ (seqWho (stSeq 2)).q.xfer.isNone = true ∧ beginOk x.1 x.2 = true := by decide +kernel
theorem witness_SequencerTransfersComplete_block : ∀ x ∈ [(XKind.send, false), (.send, true), (.recv, false), (.red, true), (.fwd, false)],
    inXfer (stZero x.1 x.2 2) 0 x.2 (x.1 ≠ .recv) = true ∧ (ops x.1 x.2 (stZero x.1 x.2 2)).total = 1 ∧ blockOk x.1 x.2 = true := by
  decide +kernel
theorem witness_SequencerTransfersComplete_end : ∀ x ∈ [(XKind.send, false), (.send, true), (.recv, false), (.red, true), (.fwd, false)],
    inXfer (stBegun x.1 x.2 2) 1 x.2 (x.1 ≠ .recv) = true ∧ (ops x.1 x.2 (stBegun x.1 x.2 2)).sends = (decide (x.1 ≠ .recv)) ∧
    endOk x.1 x.2 = true := by decide +kernel

/-! ### Words that are no instruction -/

theorem witness_WordsThatAreNoInstruction :
    st0.iss? = some (who st0) ∧ st0.outstanding (who st0) = false ∧ (stSeq 0).siss? = some (seqWho (stSeq 0)) := by decide +kernel

/-! ### Commands -/

/-- Bring-up is over and context 1 has its pages; the records of a launch lie at 0x20000. -/
def stNode : State := { st0 with cur := none, groups := [], mem := st0.mem.write 0x50000 (leBytes 64 (0x10000 + 2 ^ 237 + 2 ^ 282)) false }
def hdr (ctx : Nat) : AkHdr := { ctx := ctx, tag := 9 }
def ctx1 : Ctx := (stNode.ctx? 1).getD (Ctx.start 0 false)
def pcs (va n : Nat) : List Piece := ((stNode.piecesAt ctx1 none (piecesOf va n)).toOption).getD []

theorem node_takes : stNode.takesCommand := ⟨by decide +kernel, by decide +kernel, by decide +kernel, by decide +kernel⟩

/-- A byte and 4,096 bytes of the data page for MEMWR and MEMRD; 64 bytes at the end of HBM4E for IMAGE; a counter. -/
theorem witness_MemoryCommandsComplete :
    stNode.takesCommand ∧ stNode.ctx? 1 = some ctx1 ∧ hbmPa (2 ^ 39 - 64) = true ∧ hbmPa (2 ^ 39 - 64 + 64 - 1) = true ∧
    stNode.ownedRange (2 ^ 39 - 64) 64 = false ∧
    (∀ n ∈ [1, 4096], pcs 0x20000 n ≠ [] ∧ (∀ p ∈ pcs 0x20000 n, attrCtr p.e.attr = false ∧ attrW p.e.attr = true) ∧
      wbPiece (pcs 0x20000 n) = false ∧ stNode.ownedPieces (pcs 0x20000 n) = false) ∧
    (stNode.engineCtr ctx1 0x30010).toOption = some (.phys 0x60010) ∧ stNode.wbRange ctx1 0x30010 16 = false :=
  ⟨node_takes, by and_intros <;> decide +kernel⟩

/-- The replies to the four commands on memory are sent. -/
theorem witness_MemoryCommandsComplete_arrive :
    let nodeArrives := fun (t : State) (bs : List Byte) => arrivesB stNode nodeKey nodeReq (t.tell (replyTo (hdr 1) 0 bs))
    nodeArrives (stNode.nodeWrite (2 ^ 39 - 64) (List.replicate 64 1)) [] = true ∧
    nodeArrives (stNode.engineWrite nodeReq nodeClass 0 (pcs 0x20000 1) (clean [1])) [] = true ∧
    (match stNode.engineRead ctx1 0x20000 4096 nodeReq nodeClass 0 with
      | some (u, bs) => nodeArrives u (bs.map (·.1))
      | none => false) = true ∧
    (let u := (stNode.holdRange ctx1 0x30010 16).ctrPut (.phys 0x60010) 0 (leBytes 8 (max (stNode.ctrGet (.phys 0x60010)).1 1))
       (stNode.ctrGet (.phys 0x60010)).2.2
     nodeArrives ((u.served (0x60010 / 1024) nodeReq false).watch true true 0x60010 8 nodeClass 0).1 [] = true) := by
  and_intros <;> decide +kernel

theorem witness_WorkCommandsComplete :
    stNode.takesCommand ∧ stNode.ctx? 255 = none ∧ stNode.ctx? 1 = some ctx1 ∧
    ((stNode.readLaunch ctx1 0x20000).toOption.map fun r => decide (((stNode.holdRange ctx1 0x20000 64).accept 1 r).2 ≠ 0)) = some true ∧
    (∀ q ∈ stNode.seqs, q.1 ≠ Config.seqContexts - 1) :=
  ⟨node_takes, by and_intros <;> decide +kernel⟩

/-- A port in MODE 1 with a stored frame under key 1, and the state after a SPARK. -/
def frame1 : Stored :=
  { lsn := 0, an := 1, pn := 0, mac := 0, sci := 0, sa := KeySlot.reset, control := true, len := 64, bad := false,
    packet := { kind := .advance, dstIp := 0, srcIp := 0, jobId := 0, src := 0, pdc := 0, peer := 0, psn := 0, addr := 0, bytes := [], poison := [], len := 8,
                value := 0, rel := false, rod := false, addrPoison := false, op := 0 } }
def stPort : State := stNode.updPort 35 fun p => { p with mode := 1, rto := 8192, store := [frame1] }
def stSpark : State := (stNode.spark 3 0xFFFF).1
def portRec (mode : Nat) : List Byte := leBytes 64 (mode + 8192 * 2 ^ 320)
def longRec : List Byte := leBytes 64 (2 + 8192 * 2 ^ 320 + 256 * 2 ^ 366 + 256 * 2 ^ 375 + (2 ^ 39 - 2 ^ 28) * 2 ^ 448)

theorem witness_PortAndPowerCommandsComplete :
    stNode.takesCommand ∧ (stPort.phase = .ready ∧ stPort.akoonBusy = false ∧ stPort.dev.inbox = [] ∧ stPort.dev.contained = false) ∧ 35 < Config.ports ∧
    (portRec 1).length = 64 ∧ (stNode.port 35).mode = 0 ∧ (stPort.port 35).mode = 1 ∧ (stPort.port 35).differs (leNat (portRec 0)) = false ∧
    (stPort.port 35).store ≠ [] ∧ (stPort.port 35).failed = false ∧
    longRec.length = 64 ∧ leNat longRec % 4 = 2 ∧ stNode.longReachBad 35 (leNat longRec) = false ∧ longReachOut (leNat longRec) = false ∧
    (stSpark.phase = .ready ∧ stSpark.akoonBusy = false ∧ stSpark.dev.inbox = [] ∧ stSpark.dev.contained = false) ∧ 0 < blocksOf 0 ∧
    (stSpark.dev.snaps.find? fun k => k.no = stSpark.dev.spark - 1).isSome = true ∧ stNode.groups = [] := by
  refine ⟨node_takes, ?_⟩; and_intros <;> decide +kernel

/-- The device with its image checked; a command of context 1 that waits behind another. -/
def stImage : State := { State.reset with dev := { State.reset.dev with image := some [] } }
def stBusy : State := { stNode with dev := { stNode.dev with inbox := [(1, .resetDevice (hdr 1))] } }

theorem witness_ResetAndUnknownCommands :
    stImage.phase = .bringUp ∧ stImage.dev.image.isSome = true ∧ stNode.phase = .ready ∧ stNode.akoonBusy = false ∧
    stNode.inTurn (hdr 0) (.resetDevice (hdr 0)) = true ∧ stNode.takesCommand ∧ stNode.ctx? 1 = some ctx1 ∧
    stNode.inTurn (hdr 1) (.akoonUnknownCommand (hdr 1) 14) = true ∧ stBusy.phase = .ready ∧
    stBusy.inTurn (hdr 1) (.akoonUnknownCommand (hdr 1) 0) = false ∧ stBusy.dev.inbox.contains (1, .akoonUnknownCommand (hdr 1) 0) = false :=
  ⟨by decide +kernel, by decide +kernel, by decide +kernel, by decide +kernel, by decide +kernel, node_takes, by decide +kernel,
    by decide +kernel, by decide +kernel, by decide +kernel, by decide +kernel⟩

end Sys2Proof.Tests
end

