-- ==== Sys2Proof/Tests/WitnessSave.lean ====
section
/-! SUPPORT. Tests/WitnessSave.lean: the writes of a save and the reads of a resume below the HOST range ask for no HOST line and hold
nothing back, so a save and a resume with no group at all arrive; the save area itself (more than 64 KiB) is never evaluated. -/

set_option Elab.async false

namespace Sys2Proof.Tests

open Sys2Proof.Machine

/-! ### What the writes and the reads keep -/

/-- A state of the same tasks and contexts that holds nothing back and asks for no more HOST lines. -/
def Kept (s t : State) : Prop := t.held = s.held ∧ t.mem.misses = s.mem.misses ∧ t.tasks = s.tasks ∧ t.ctxs = s.ctxs

theorem Kept.refl (s : State) : Kept s s := ⟨rfl, rfl, rfl, rfl⟩
theorem Kept.trans {s t u : State} (a : Kept s t) (b : Kept t u) : Kept s u :=
  ⟨b.1.trans a.1, b.2.1.trans a.2.1, b.2.2.1.trans a.2.2.1, b.2.2.2.trans a.2.2.2⟩
theorem kept_foldl {α : Type} {f : State → α → State} (l : List α) (h : ∀ s, ∀ x ∈ l, Kept s (f s x)) (s : State) : Kept s (l.foldl f s) := by
  induction l generalizing s with
  | nil => exact Kept.refl s
  | cons x l ih => exact (h s x (by simp)).trans (ih (fun s y m => h s y (by simp [m])) _)
theorem kept_memory {s : State} {m : Memory} (h : m.misses = s.mem.misses) : Kept s { s with mem := m } := ⟨rfl, h, rfl, rfl⟩
theorem kept_served (s : State) (x cls : Nat) (turned : Bool) : Kept s (s.served x cls turned) := by
  unfold State.served; split <;> exact ⟨rfl, rfl, rfl, rfl⟩

theorem misses_reach (m : Memory) (x : Nat) (col : Bool) : (m.reach x col).misses = m.misses := by unfold Memory.reach; split <;> rfl
theorem misses_makeRoom (m : Memory) (x : Nat) : (m.makeRoom x).misses = m.misses := by
  unfold Memory.makeRoom; split
  · split <;> rfl
  · rfl
theorem misses_touchRow (m : Memory) (line : Nat) (write : Bool) (core : Option Nat) : (m.touchRow line write core).misses = m.misses := by
  unfold Memory.touchRow; dsimp only
  split <;> split <;> first
    | exact misses_makeRoom m _
    | exact misses_makeRoom m _
theorem misses_rowLine (m : Memory) (line : Nat) (write : Bool) : (m.rowLine line write).1.misses = m.misses :=
  (misses_touchRow _ _ _ _).trans (misses_reach _ _ _)
theorem misses_write (m : Memory) (pa : Nat) (bs : List Byte) (bad : Bool) : (m.write pa bs bad).misses = m.misses := by
  unfold Memory.write; dsimp only
  split
  · unfold Memory.rebuild Memory.header; dsimp only
    generalize sectorsOf pa bs.length = l
    suffices ∀ m : Memory, (l.foldl Memory.header1 m).misses = m.misses from this _
    induction l with
    | nil => exact fun _ => rfl
    | cons x l ih => exact fun m => (ih _).trans (by unfold Memory.header1; dsimp only; repeat' split <;> rfl)
  · rfl

/-! ### The writes of a save -/

theorem kept_hostWrite (s : State) (ctx pa n : Nat) : Kept s (s.hostWrite ctx pa n) := by
  unfold State.hostWrite; split <;> exact ⟨rfl, rfl, rfl, rfl⟩

theorem kept_saveWrite (s : State) (ctx a : Nat) (bs : List (Byte × Bool)) : Kept s (s.saveWrite ctx a bs) := by
  unfold State.saveWrite; dsimp only
  have e := kept_foldl (linesOf a bs.length) (f := fun s l => ({ s with mem := (s.mem.rowLine l true).1 } : State).served (l / 32) 0 (s.mem.rowLine l true).2)
    (fun s l _ => (kept_memory (misses_rowLine s.mem l true)).trans (kept_served _ _ _ _)) s
  revert e
  generalize List.foldl _ s _ = t
  exact fun e => (e.trans (kept_memory (by exact misses_write t.mem a _ false))).trans (kept_hostWrite _ _ _ _)
theorem kept_writeImage (s : State) (ctx base : Nat) (im : Image) : Kept s (s.writeImage ctx base im) :=
  kept_foldl im (fun s x _ => kept_saveWrite s ctx (base + x.1) x.2) s

/-! ### The reads of a resume -/

theorem kept_fillLine (s : State) (e : TlbEntry) (l core : Nat) (h : 32 * l < 2 ^ 51) : Kept s (s.fillLine e l core) := by
  unfold State.fillLine; dsimp only
  rw [if_neg]
  · exact Kept.refl s
  · simp [hostPa]; omega
theorem kept_saveRead (s : State) (ctx a n : Nat) (h : a + n ≤ 2 ^ 51) : Kept s (s.saveRead ctx a n) := by
  unfold State.saveRead
  refine kept_foldl _ (fun s l m => ?_) s
  have : 32 * l < 2 ^ 51 := by
    unfold linesOf at m
    split at m
    · cases m
    · have := (List.mem_range'.mp m); omega
  exact (kept_fillLine s _ l 0 this).trans ((kept_memory (misses_rowLine _ l false)).trans (kept_served _ _ _ _))

/-- A save of nothing that runs: no group, launch, task, copy or sequencer program. -/
def nothing : Saved := ⟨[], [], [], [], []⟩

theorem length_leBytes (n x : Nat) : (leBytes n x).length = n := by
  induction n generalizing x with
  | zero => rfl
  | succ n ih => simp [leBytes, ih]
theorem length_cleanNat (n x : Nat) : (cleanNat n x).length = n := by simp [cleanNat, clean, length_leBytes]
theorem length_flat {α β : Type} (f : α → List β) (n : Nat) (h : ∀ x, (f x).length = n) (l : List α) : (l.flatMap f).length = n * l.length := by
  induction l with
  | nil => rfl
  | cons x l ih => simp [List.flatMap_cons, h, ih, Nat.mul_add, Nat.add_comm]
theorem image_ends (c : Ctx) : ∀ x ∈ c.image nothing true, x.1 + x.2.length ≤ 0x1E0000 := by
  intro x m
  simp [Ctx.image, nothing, sectionOffsets, taskOrder] at m
  obtain rfl | ⟨_, _, h, -⟩ | ⟨a, ha, rfl⟩ | ⟨a, ha, rfl⟩ | rfl | rfl := m
  · simp [length_cleanNat]
  · exact absurd h (List.not_mem_nil)
  · simp only [length_flat _ 64 (fun _ => length_cleanNat 64 0), List.length_range]; omega
  · simp only [length_cleanNat]; omega
  · simp only [length_flat _ 8 (fun _ => length_cleanNat 8 _), List.length_range]; omega
  · simp [length_cleanNat]
theorem kept_readImage (s : State) (c : Ctx) (h : c.ctxSave.toNat + 0x1E0000 ≤ 2 ^ 51) :
    Kept s ((c.image nothing true).foldl (fun s (x : Nat × List (Byte × Bool)) => s.saveRead c.num (c.ctxSave.toNat + x.1) x.2.length) s) :=
  kept_foldl _ (fun s x m => kept_saveRead s _ _ _ (by have := image_ends c x m; omega)) s

/-! ### The end of a save and of a resume -/

/-- Nothing is held back and no HOST line is asked for, and no context has a save counter. -/
def Calm (s : State) : Prop := s.held = false ∧ s.mem.misses = [] ∧ ∀ c ∈ s.ctxs, c.saveCtr = 0
theorem Kept.calm {s t : State} (k : Kept s t) (h : Calm s) : Calm t := ⟨k.1.trans h.1, k.2.1.trans h.2.1, k.2.2.2 ▸ h.2.2⟩

theorem calm_updCtx {s : State} {n : Nat} {f : Ctx → Ctx} (hf : ∀ c, (f c).saveCtr = c.saveCtr) (h : Calm s) : Calm (s.updCtx n f) := by
  refine ⟨h.1, h.2.1, fun c m => ?_⟩
  obtain ⟨d, hd, rfl⟩ := List.mem_map.mp (show c ∈ s.ctxs.map _ from m)
  split
  · exact (hf d).trans (h.2.2 d hd)
  · exact h.2.2 d hd
theorem calm_requestDone {s : State} {n : Nat} (h : Calm s) : Calm (s.requestDone n) := by
  have u : Calm (s.updCtx n fun c => { c with requests := c.requests.tail }) := calm_updCtx (fun _ => rfl) h
  unfold State.requestDone
  dsimp only
  split
  · next c e => rw [if_pos (u.2.2 c (List.mem_of_find?_eq_some e))]; exact u
  · exact u
theorem reachAll_empty {s : State} (key : Nat × Nat) (cls : Nat) (needs : List (Nat × Bool)) (h : s.mem.llc = []) (r : s.mem.reqs = []) :
    s.reachAll key cls needs = true := by
  have o : ∀ x, (s.mem.sector x).orient = .absent := fun x => by rw [Memory.sector, h]; rfl
  unfold State.reachAll
  rw [List.all_eq_true]
  intro x _
  unfold State.inReach
  simp only [o, r, List.all_nil, decide_true, Bool.true_or, Bool.and_true]
theorem arrives_calm {s t : State} (key : Nat × Nat) (cls : Nat) (h : s.mem.llc = []) (r : s.mem.reqs = []) (c : Calm t) : s.arrives key cls t :=
  ⟨c.1, reachAll_empty key cls _ h r, c.2.1⟩

theorem calm_vacate {s : State} (c : Ctx) (v : Saved) (h : Calm s) : Calm (s.vacate c v) := ⟨h.1, h.2.1, h.2.2⟩
theorem calm_restore {s : State} (c : Ctx) (l : List Launch) (t : List (Task × Nat × Nat)) (q : List (Nat × Nat × Seq)) (h : Calm s) :
    Calm (s.restore c nothing l t q) := by
  unfold State.restore
  exact calm_updCtx (fun _ => rfl) ⟨h.1, h.2.1, h.2.2⟩

/-- What CONTEXT_SAVE answers with, of a context whose spill area is at no address. -/
theorem saving_arrives {s : State} {c : Ctx} (key : Nat × Nat) (l : s.mem.llc = []) (r : s.mem.reqs = []) (h : Calm s) (p : c.spillAt = 0) :
    let v := s.toSave c
    s.arrives key 0 (((((s.moveSpill c).writeImage c.num c.ctxSave.toNat (c.image v false)).vacate c v).updCtx c.num fun c => { c with
      run := .saved
      record := none
      leftover := v.groups.foldl (fun l g => g.accBytes.foldl setIns l) c.leftover
      saved := some { v with groups := v.groups.map Group.stopped } }).requestDone c.num) := by
  have still : s.moveSpill c = s := by unfold State.moveSpill; rw [p]; rfl
  have w : Calm ((s.moveSpill c).writeImage c.num c.ctxSave.toNat (c.image (s.toSave c) false)) := still.symm ▸ (kept_writeImage s _ _ _).calm h
  exact arrives_calm _ _ l r (calm_requestDone (calm_updCtx (fun _ => rfl) (calm_vacate c _ w)))

/-- What CONTEXT_RESUME answers with, of a context that saved nothing, once the reads of the area have kept what it looks at. -/
theorem resuming_arrives {s u : State} {c : Ctx} (key : Nat × Nat) (l : s.mem.llc = []) (r : s.mem.reqs = []) (h : Calm s) (k : Kept s u)
    (t : s.tasks = []) (n : c.nemb = 0) (a : Nat) :
    u.poolRoom (u.restoredTasks a nothing).length = true ∧ u.seatAll (u.restoredGroups c nothing) = some u ∧ u.placeSeqs nothing.seqs = some [] ∧
      u.rebind c [] = some u ∧
      s.arrives key 0 ((u.restore c nothing (u.restoredLaunches a nothing) (u.placeTasks (u.restoredTasks a nothing)) []).requestDone c.num) := by
  have g : u.restoredGroups c nothing = [] := by simp [State.restoredGroups, nothing]
  have w : u.restoredTasks a nothing = [] := by simp [State.restoredTasks, nothing, taskOrder]
  rw [g, w]
  refine ⟨?_, rfl, rfl, ?_, arrives_calm _ _ l r (calm_requestDone (calm_restore c _ _ _ (k.calm h)))⟩
  · unfold State.poolRoom; rw [k.2.2.1, t]; rfl
  · unfold State.rebind; rw [n]; rfl

end Sys2Proof.Tests
end

