-- ==== Sys2Proof/Tests/WitnessE.lean ====
section
/-! SUPPORT. Tests/WitnessE.lean: states that meet the hypotheses of the statements on the events of admission, waits and contexts. -/

set_option Elab.async false

namespace Sys2Proof.Tests

open Sys2Proof.Machine

/-! ### Admission -/

/-- After a ROOTGO; after a TASK.RANGE; after the dispatch of its first record. -/
def stLaunched : State := (go stNode (exec (.rootgo ⟨hdr 1, 0x20000⟩) stNode)).reserve
def stFamily : State := go stTask (exec (.taskRange (launches (.v 6))) stTask)
def stKindled : State := go stFamily (exec (.kindlingDispatch 0 0) stFamily)

theorem witness_AdmissionEventsComplete_launch :
    ((State.reserve stLaunched).waitingLaunches.map fun l => (l.ctx, l.id, ((State.reserve stLaunched).seat l).isSome,
      (State.reserve stLaunched).waitingLaunches.all fun m => !m.before l)) = [(1, 2, true, true)] ∧ ((State.reserve stLaunched).ctx? 1).isSome = true := by
  and_intros <;> decide +kernel
theorem witness_AdmissionEventsComplete_kindling :
    (((State.reserve stFamily).nextTask 0).map fun t => ((t.cluster, t.index), ((State.reserve stFamily).ctx? t.ctx).isSome,
      (State.reserve stFamily).slotFree 0 0, (State.reserve stFamily).launchFirst 0 t)) = some ((0, 0), true, true, false) := by decide +kernel
/-- What the dispatch of the first record on core 0 does, as the statement says it. -/
def kindled : State :=
  let u := State.reserve stFamily
  match u.nextTask 0 with
  | none => u
  | some t => match u.ctx? t.ctx with
    | none => u
    | some c =>
      let a := t.lo.toNat
      let b := min t.hi.toNat (a + t.grain.toNat * t.warps * t.width)
      let asked := [t.r0, t.r1].foldl (fun (acc : State × List Nat) r =>
        match r.span a b t.spg with
        | none => acc
        | some (va, n, dst) => ((acc.1.askKindle c t 0 0 va n dst).1, acc.2 ++ (acc.1.askKindle c t 0 0 va n dst).2)) (u, [])
      { asked.1.updTask t.cluster t.index fun t => { t with state := 2 } with
        kindles := asked.1.kindles ++ [{ core := 0, slot := 0, cluster := t.cluster, index := t.index, loads := asked.2, bytes := [], bad := [] }] }
theorem witness_AdmissionEventsComplete_arrives : arrivesB (State.reserve stFamily) (10, 0) 0 kindled = true := by decide +kernel
theorem witness_AdmissionEventsComplete_worker :
    ((stKindled.kindles.find? fun k => k.core = 0 && k.slot = 0).map fun k => (k.cluster, k.index, k.loads)) = some (0, 0, []) ∧
    ((stKindled.task? 0 0).map fun t => ((stKindled.ctx? t.ctx).map (·.run), ((stKindled.residency 0).place t.need).isSome)) =
      some (some Running.running, true) ∧ setMem stKindled.cores.failed 0 = false := by and_intros <;> decide +kernel

/-! ### Waits -/

def r0 : PathRef := ⟨key, 0, 0⟩
/-- A complete generation that has not issued, and one that waits for a slot of the service queue. -/
def stWhole : State := { st0.withSignature (who st0) (.sign signOps) h0 16 with cur := none }
def stParked : State := ({ stServe.withSignature (who stServe) (.svc svcOps) h0 16 with cur := none } : State).updConv ⟨key, 16, 0⟩ fun c => { c with svcWait := true }
def genGoes (s : State) (i : Instr) (parked : Bool) : Bool :=
  match s.gen? ⟨key, 16, 0⟩ with
  | some e => decide (e.conv.instr = some i) && e.conv.svcWait = parked && !s.sameGen (s.issueGen i ⟨key, 16, 0⟩) ⟨key, 16, 0⟩
  | none => false
theorem witness_WaitEventsComplete_generation : genGoes stWhole (.sign signOps) false = true ∧ genGoes stParked (.svc svcOps) true = true := by
  and_intros <;> decide +kernel

/-- The path has the age of the limit, or the timer of the starvation limit while it waits for a counter. -/
def stAged : State := st0.updPath r0 fun p => { p with age := 4096 }
def ctrWaitOps : CtrOps := { ctrOps false .acq with b := .imm 257 }
/-- The counter is of class 6, which a C group may wait for (R70). -/
def stTimed : State := { stMem with mem := stMem.mem.write 0x60018 (leBytes 8 (6 * 2 ^ 8)) false }
def stWaiting : State := go stTimed (exec (.ctrWait ctrWaitOps) stTimed)
def stReached : State := { stWaiting with mem := stWaiting.mem.write 0x60010 (leBytes 8 1) false }
def stStarved : State := stWaiting.updPath r0 fun p => { p with timer := 2 ^ 31 }

theorem witness_WaitEventsComplete_due : ((stAged.path? r0).map fun p => (p.st, p.age)) = some (.ready, 4096) ∧
    (stAged.group? key).isSome = true ∧ ((stAged.group? key).all fun g => stAged.working g && decide ((who st0).c.ageLimit g.band ≤ 4096)) = true := by
  and_intros <;> decide +kernel
theorem witness_WaitEventsComplete_counter :
    ((stReached.waiting r0 .counterWait).map fun x => (decide (x.2.2.instr = .ctrWait ctrWaitOps), x.2.2.tests.all (stReached.testHolds x.1),
      stReached.dstRoom x.1 0 { op := .v 8, n := 2 } (x.2.2.tests.map (·.pos)))) = some (true, true, true) := by decide +kernel
theorem witness_WaitEventsComplete_starved :
    ((stStarved.path? r0).map fun p => (p.st, decide (2 ^ (who st0).c.starvLim ≤ p.timer), stStarved.waitOver r0 p)) = some (.counterWait, true, false) ∧
    (stStarved.group? key).all stStarved.working = true ∧ stStarved.mem.ops = [] := by and_intros <;> decide +kernel

/-- No veil hides the counter, and what the end of the wait does arrives. -/
def countedWait : Option (Bool × Bool) :=
  (stReached.waiting r0 .counterWait).map fun x =>
    let t := (stReached.testsDone r0 x.1 ctrWaitOps.d (CtrOps.waitShape ctrWaitOps).isUniform (x.2.2.tickets.map (·.1)) x.2.2.tests).finish r0 x.2.2.size []
    (x.2.2.tests.any (stReached.testVeiled r0 ctrWaitOps.scope), arrivesB stReached (PathRef.waitKey r0 x.2.1) 2 t)
theorem witness_WaitEventsComplete_counted : countedWait = some (false, true) := by decide +kernel

/-- In a .dae launch, a read of an empty data queue waits; then the queue holds a value. -/
def stPop : State := stDae.updGroup key fun g => { g with daew := 0x18 }
def stQueued : State := (go stPop (exec (.iadd { intOps with a := .q 0, w64 := false }) stPop)).updThread key 0 0 fun th => { th with q := [(0, [⟨5, false⟩])] }
theorem witness_WaitEventsComplete_queue :
    ((stQueued.waiting r0 .queueWait).map fun x => (x.2.2.needs.isEmpty, x.2.2.needs.all (stQueued.meets x.1 0))) = some (false, true) := by
  decide +kernel

/-- The slot of ticket 1 holds no reply; then it holds one. -/
def stAsked : State :=
  let s := withData stServe (0x20000 + 544) 40 (serviceHead 1 0 0 0 0 0 0 1 + 5 * 2 ^ 256)
  go s (exec (.svcWait (launches (.v 4))) s)
def stAnswered : State := withData stAsked (0x20000 + 544) 40 (serviceHead 1 0 0 0 0 0 0 1 + 2 ^ 216 + 5 * 2 ^ 256)
theorem witness_WaitEventsComplete_service :
    ((stAnswered.waiting r0 .serviceWait).map fun x => (decide (x.2.2.instr = .svcWait (launches (.v 4))),
      x.2.2.tickets.map (fun m => match stAnswered.reply (who stServe).c m.1 m.2 with | .ready _ _ => true | _ => false),
      stAnswered.dstRoom x.1 0 { op := .v 8 } [0])) = some (true, [true], true) ∧ stAnswered.ctx? 1 = some (who stServe).c := by
  and_intros <;> decide +kernel

/-! ### Contexts -/

/-- A context with a save request, which then stops; one that is contained asks for the same. -/
def stAsk : State := stNode.updCtx 1 fun c => { c with requests := [false], ctxSave := 0x70000 }
def stStop : State := go stAsk (exec (.contextSave 1) stAsk)
def ctxS : Ctx := (stStop.ctx? 1).getD ctx1
/-- A saved context, whose save held nothing that runs, with a resume request and the head of its area. -/
def stResume : State :=
  { stNode.updCtx 1 fun c => { c with requests := [true], ctxSave := 0x70000, run := .saved, saved := some nothing } with
    mem := stNode.mem.write 0x70000 [1] false }
def ctxR : Ctx := (stResume.ctx? 1).getD ctx1
def asks (s : State) (a : Bool) (r : Running) : State := s.updCtx 1 fun c => { c with requests := [a], run := r }
def asked (s : State) : Option (List Bool × Running) := (s.ctx? 1).map fun c => (c.requests, c.run)

theorem witness_ContextEventsComplete_stop : asked stAsk = some ([false], .running) ∧ asked (asks stAsk false .contained) = some ([false], .contained) ∧
    asked (asks stAsk false .saved) = some ([false], .saved) ∧ asked (asks stAsk true .running) = some ([true], .running) ∧
    asked (asks stAsk true .contained) = some ([true], .contained) ∧ asked (asks stAsk true .stopping) = some ([true], .stopping) := by
  and_intros <;> decide +kernel

/-- The save: its conditions, and what it does arrives. -/
theorem witness_ContextEventsComplete_save : stStop.ctx? 1 = some ctxS ∧ (ctxS.requests, ctxS.run) = ([false], .stopping) ∧ stStop.drained 1 = true ∧
    ctxS.saveRefused (stStop.groupsOf 1) = none ∧ stStop.quietSeqs ctxS = some stStop := by and_intros <;> decide +kernel
theorem witness_ContextEventsComplete_saved : stStop.mem.llc = [] ∧ stStop.mem.reqs = [] ∧ stStop.held = false ∧ stStop.mem.misses = [] ∧
    (∀ c ∈ stStop.ctxs, c.saveCtr = 0) ∧ ctxS.spillAt = 0 := by and_intros <;> decide +kernel
theorem witness_ContextEventsComplete_saving :
    let v := stStop.toSave ctxS
    stStop.arrives (saveKey 1) 0 (((((stStop.moveSpill ctxS).writeImage ctxS.num ctxS.ctxSave.toNat (ctxS.image v false)).vacate ctxS v).updCtx ctxS.num fun c => { c with
      run := .saved
      record := none
      leftover := v.groups.foldl (fun l g => g.accBytes.foldl setIns l) c.leftover
      saved := some { v with groups := v.groups.map Group.stopped } }).requestDone ctxS.num) := by
  obtain ⟨l, r, h, m, c, p⟩ := witness_ContextEventsComplete_saved
  exact saving_arrives _ l r ⟨h, m, c⟩ p

/-- The resume: its conditions, whatever the reads of the area leave of the translations and the counts, and it arrives. -/
theorem witness_ContextEventsComplete_resume : stResume.ctx? 1 = some ctxR ∧ (ctxR.requests, ctxR.run, ctxR.saved) = ([true], .saved, some nothing) ∧
    stResume.resumeRefused ctxR nothing = none ∧ stResume.tasks = [] ∧ ctxR.nemb = 0 := by and_intros <;> decide +kernel
theorem witness_ContextEventsComplete_resumed : stResume.mem.llc = [] ∧ stResume.mem.reqs = [] ∧ stResume.held = false ∧ stResume.mem.misses = [] ∧
    (∀ c ∈ stResume.ctxs, c.saveCtr = 0) ∧ ctxR.ctxSave = 0x70000 := by and_intros <;> decide +kernel
theorem witness_ContextEventsComplete_resuming :
    let a := ctxR.ctxSave.toNat
    let u := (ctxR.image nothing true).foldl (fun s (x : Nat × List (Byte × Bool)) => s.saveRead ctxR.num (a + x.1) x.2.length) stResume
    let tasks := u.restoredTasks a nothing
    u.poolRoom tasks.length = true ∧ u.seatAll (u.restoredGroups ctxR nothing) = some u ∧ u.placeSeqs nothing.seqs = some [] ∧
      u.rebind ctxR [] = some u ∧
      stResume.arrives (saveKey 1) 0 ((u.restore ctxR nothing (u.restoredLaunches a nothing) (u.placeTasks tasks) []).requestDone ctxR.num) := by
  obtain ⟨l, r, h, m, c, p⟩ := witness_ContextEventsComplete_resumed
  obtain ⟨-, -, -, t, n⟩ := witness_ContextEventsComplete_resume
  exact resuming_arrives _ l r ⟨h, m, c⟩ (kept_readImage stResume ctxR (by rw [p]; decide)) t n _

end Sys2Proof.Tests
end

