-- ==== Sys2Proof/Tests/WitnessF.lean ====
section
/-! SUPPORT. Tests/WitnessF.lean: states that meet the hypotheses of the statements on the events of memory and of the engines. -/

set_option Elab.async false

namespace Sys2Proof.Tests

open Sys2Proof.Machine

/-! ### Memory -/

/-- A load waits at sector 320, whose address is 0x50040; its request as one of class 3 that has aged; its sector as a column. -/
def stLoading : State := { go stMem (exec (.ldG (ldOps .b32 .weak .thr)) stMem) with cur := none }
def stOld : State :=
  { stLoading with coreClock := 4096, mem := { stLoading.mem with reqs := stLoading.mem.reqs.map fun r => { r with cls := 3 } } }
def stCol : State := { stLoading with mem := stLoading.mem.setSector 320 ⟨.col, 0, 0, none, 0⟩ }
/-- A prefetch of a HOST line that the LLC does not hold. -/
def stAway : State :=
  let hostReq : Req := { id := 9, sector := 2 ^ 41, cls := 2, arrived := 0, op := none, kindle := none, pa := 2 ^ 51, len := 32, dst := 0,
                         turned := false, col := false, eng := none, piece := 0, tr := some ⟨1, 0x20000, 0x10000, 2 ^ 51, 0x3⟩ }
  { stLoading with mem := { stLoading.mem with reqs := [hostReq] } }
def serves (s : State) (x : Nat) (old miss : Bool) : Option (Bool × Bool × Bool) := (s.nextReq x).map fun r =>
  (s.aged r == old, r.eng.isNone && r.sector == x && !(s.mem.sector x).turning, (s.missing r).isEmpty != miss)
theorem witness_MemoryEventsComplete_serve :
    (serves stLoading 320 false false = some (true, true, true) ∧ (stLoading.mem.sector 320).orient = .absent) ∧
    serves stOld 320 true false = some (true, true, true) ∧
    (serves stCol 320 false false = some (true, true, true) ∧ (stCol.mem.sector 320).orient = .col) ∧
    (serves stAway (2 ^ 41) false true = some (true, true, true) ∧ stAway.mem.fills = []) := by and_intros <;> decide +kernel

/-- The turn that the load asked for has ended; the load has been served. -/
def stTurn : State := go stCol (exec (.llcRequestServe 320) stCol)
def stTurned : State := { stTurn with mem := stTurn.mem.setSector 320 { stTurn.mem.sector 320 with turn := 0 } }
def stServed : State := go stLoading (exec (.llcRequestServe 320) stLoading)
theorem witness_MemoryEventsComplete_turn :
    ((stTurned.mem.sector 320).turn, (stTurned.mem.sector 320).turning) = (0, true) ∧
    (stTurned.mem.reqs.find? fun r => r.sector = 320 && r.turned && r.eng.isNone).isSome = true ∧
    ((stServed.mem.sector 320).orient, (stServed.mem.sector 320).lock) = (.row, none) := by and_intros <;> decide +kernel
theorem witness_MemoryEventsComplete_return :
    ((stServed.mem.ops.find? fun o => o.id = 3).map fun o => (o.done, o.ring, o.parts.all (fun p => !p.fault && p.hit.isNone), ((stServed.group? o.g).map fun g =>
      stServed.dstRoom (g.boundAs o.d o.ring) o.w { op := o.d, n := o.words } ((o.parts.filter fun p => !p.fault).filterMap (·.pos))))) =
      some (true, none, true, some true) := by decide +kernel

/-- No TLB holds a translation of the data: the load walks. The page tables map it, or do not. -/
def stWalking (mapped : Bool) : State :=
  let m := if mapped then stMem.mem else stMem.mem.write 0x30010 (leBytes 8 0) false
  let s : State := { stMem with mem := { m with tlb := stMem.mem.tlb.filter fun e => e.2.va = 0x10000 } }
  go s (exec (.ldG (ldOps .b32 .weak .thr)) s)
def walks (s : State) : List (Bool × Bool × Bool × Bool) := s.mem.walks.map fun w =>
  match s.group? w.g with
  | none => (false, false, false, false)
  | some g => match s.ctx? g.ctx with
    | none => (false, false, false, false)
    | some c =>
      let u := ({ s with mem := { s.mem with walks := s.mem.walks.filter fun q => q.id ≠ w.id } } : State).walkRead c w.va.toNat
      match u.mem.walk c.num c.ptRoot.toNat w.va.toNat with
      | .ok e => (s.hasWalker w (dieOf g.core), true, true, arrivesB s (0, w.id) 0 { u with mem := u.mem.hold g.via e })
      | .error err => match u.pathOf w.g w.w w.access w.tmask with
        | none => (false, false, false, false)
        | some r =>
          let f := walkFault w.va.toNat w.write err
          (s.hasWalker w (dieOf g.core), false, !u.underWay w.g w.w w.access w.tmask, arrivesB s (0, w.id) 0 ((u.fault r w.tmask f.1 0 f.2.1 f.2.2).settle w.g w.w))
theorem witness_MemoryEventsComplete_walk : walks (stWalking true) = [(true, true, true, true)] ∧ walks (stWalking false) = [(true, false, true, true)] := by
  and_intros <;> decide +kernel

/-- Outstanding with the control node: a fill and a write, each at its limit; TLBINVs of each form; a stalled advance that is ready. -/
def stDevice : State := { st0 with mem := { st0.mem with
  fills := [⟨5, 2 ^ 51, 1, 0x20000, 0, 0x43, true, 2 ^ 24⟩]
  hwrites := [⟨6, 2 ^ 51, 4, 1, 2 ^ 24⟩]
  invals := [⟨7, 0, 1, 0x2, key, 0, false, 1⟩, ⟨8, 2, 1, 0, key, 0, false, 1⟩]
  stalls := [⟨9, 1, 0x30010, .add 1 8 0, true⟩] } }
theorem witness_MemoryEventsComplete_device :
    ((stDevice.mem.fills.find? fun f => f.id = 5).map (·.age)) = some (2 ^ 24) ∧
    ((stDevice.mem.hwrites.find? fun w => w.id = 6).map (·.age)) = some (2 ^ 24) ∧
    (∀ v ∈ stDevice.mem.invals, stDevice.invalOpen v = false) ∧
    ((stDevice.mem.stalls.find? fun x => x.id = 9).map fun x => (x.ready, x.behind stDevice.mem.stalls, (stDevice.ctx? x.ctx).isSome)) =
      some (true, false, true) := by and_intros <;> decide +kernel

/-! ### Engines -/

/-- A load of the copy engine has been accepted, and owns its lines; it has read its source; it has written them. -/
def stCopied : State := { go (stCopy (2 ^ 24)) (exec (.copyLd copyOps) (stCopy (2 ^ 24))) with cur := none }
def noCmd : Cmd :=
  { id := 0, engine := 0, ctx := 0, g := 0, slot := 0, pc := 0, kind := .ld, desc := [], desc2 := [], word := 0, ctr := none, csp := false
    sat := false, mode := .rne, key := 0, stream := 0, st := .queued, image := [], read := false, src := [], list := none, noted := []
    halt := none, lines := 0, owned := [], ticket := none, stopTicket := none, spilled := 0, again := [], count := 0, taken := 0 }
def command (s : State) : Cmd := (s.cmd? 3).getD noCmd
def stReading : State := stCopied.begin_ (command stCopied)
def stWritten : State := go stCopied (exec (.ownershipWindow 3) stCopied)
/-- Its context stops when one of two lines of a sector has been written. -/
def stHalfway : State := (stReading.updCmd 3 fun k => { k with
  image := k.image ++ k.image.map fun l => { l with at_ := l.at_ + 1 }
  owned := [(1, 524291)] }).updCtx 1 fun c => { c with run := .stopping }
def lineOk (s : State) (paused : Bool) : Bool :=
  let k := command s
  match k.owned with
  | [] => false
  | (place, line) :: _ =>
    (if paused then !s.cmdRuns k && s.cmdPauses k && k.within place else s.cmdRuns k) && !s.earlierOwner k.taken line &&
      arrivesB s (cmdKey 3) 3 ((s.begin_ k).writePlace 3 place).1
theorem witness_EngineEventsComplete_line : lineOk stCopied false = true ∧ lineOk stHalfway true = true := by and_intros <;> decide +kernel

theorem witness_EngineEventsComplete_first :
    stCopied.cmd? 3 = some (command stCopied) ∧ stCopied.cmdRuns (command stCopied) = true ∧ (command stCopied).read = false ∧
    (let u := stReading
     arrivesB stCopied (cmdKey 3) 3 ((u.workOn 3 (match u.cmd? 3 with | some k => k.owned.map (·.1) | none => [])).nextWindow 3)) = true := by
  and_intros <;> decide +kernel
theorem witness_EngineEventsComplete_window :
    stReading.cmd? 3 = some (command stReading) ∧ stReading.cmdRuns (command stReading) = true ∧ (command stReading).read = true ∧ (command stReading).halt = none ∧
    (command stReading).again = [] ∧ ((command stReading).owned.head?.map fun o => stReading.earlierOwner (command stReading).taken o.2) = some false ∧
    arrivesB stReading (cmdKey 3) 3
      (((stReading.updCmd 3 fun k => { k with st := .running }).writeWindow 3 ((command stReading).owned.map (·.1))).nextWindow 3) = true := by
  and_intros <;> decide +kernel
theorem witness_EngineEventsComplete_pause :
    stHalfway.cmd? 3 = some (command stHalfway) ∧ stHalfway.cmdPauses (command stHalfway) = true ∧ stHalfway.atBoundary (command stHalfway) = false ∧
    (let places := ((command stHalfway).owned.map (·.1)).filter (command stHalfway).within
     places ≠ [] ∧ arrivesB stHalfway (cmdKey 3) 3 (stHalfway.writeWindow 3 places) = true) := by and_intros <;> decide +kernel

/-- The path waits for room in its engine, which has room. -/
def stRoom : State := st0.updPath r0 fun p => { p with
  wait := some { instr := .copyLd copyOps, size := 8, tests := [], tickets := [], needs := [], kind := 6, addr := 0 } }
theorem witness_EngineEventsComplete_room :
    ((stRoom.waiting r0 .ready).map fun x => (x.2.2.kind, (stRoom.copyRoom x.1).isSome)) = some (6, true) := by decide +kernel

/-- A copy that is through; with a counter on a page at WB = 1. -/
def stWb : State := { (stWritten.updCmd 3 fun k => { k with ctr := some 0x30010 }) with
  mem := { stWritten.mem with tlb := stWritten.mem.tlb.map fun e => if e.2.va = 0x30000 then (e.1, { e.2 with attr := e.2.attr ||| 0x80 }) else e } }
def throughOk (s : State) (waits : Bool) : Bool :=
  let k := command s
  let u := ((s.dropCmd 3).count 2 k.engine 1 1).count 2 k.engine 2 k.count
  let t := (match k.ctr, u.group? k.g with | some a, some g => u.advanceOf g k.csp a k.count 2 k.engine | _, _ => u).tryEnd k.g
  decide (s.cmd? 3 = some k) && k.st == .running && k.read && k.owned.isEmpty && decide (k.image.length ≤ k.lines + windowLines) && k.halt.isNone &&
    k.spilled == 0 && k.again.isEmpty && s.cmdRuns k && (s.addWaits k == waits) && (waits || arrivesB s (cmdKey 3) 3 t)
theorem witness_EngineEventsComplete_copy : throughOk stWritten false = true ∧ throughOk stWb true = true := by and_intros <;> decide +kernel

/-- A product, a dual product and a tile transfer are under way; their units are granted cycles, then work. -/
def stWorking (i : Instr) (s : State) : State := { go s (exec i s) with cur := none }
def stGranted (i : Instr) (s : State) : State :=
  let t := go (stWorking i s) (exec (.dieBudgetWindow 0) (stWorking i s))
  { t with coreClock := t.coreClock + 64 }
def stDone (i : Instr) (s : State) : State := (stGranted i s).updGroup key fun g => { g with ops := g.ops.map fun o => { o with left := 0 } }
def dispatched : List (Instr × State × MatKind) :=
  [(.mma mmaOps, stMat, .mma), (.mmd mmdOps, stMat, .mmd), (.tld moveOps, stTile, .tld), (.tst moveOps, stTile, .tst)]
def matOk (i : Instr) (s : State) (kind : MatKind) : Bool :=
  let s := stDone i s
  match s.matReady key 0 [kind] with
  | none => false
  | some (q, _, o) =>
    let t := match kind with
      | .tld => s.runTld q o
      | .tst => s.runTst q o
      | _ => s.chunkSteps key 0 (o.chunks - o.chunk)
    o.kind == kind && (o.stLines q).all (fun l => !s.earlierOwner o.stamp l) && arrivesB s (MatOp.key5 o) 2 (t.endMat q o)
theorem witness_EngineEventsComplete_matrix : ∀ x ∈ dispatched, matOk x.1 x.2.1 x.2.2 = true := by decide +kernel
theorem witness_EngineEventsComplete_governor : ∀ x ∈ dispatched.take 2,
    (stWorking x.1 x.2.1).asks 0 ≠ [] ∧ sget 0 (stWorking x.1 x.2.1).cores.dieWindow 0 ≤ (stWorking x.1 x.2.1).dieWindow ∧
    (((stGranted x.1 x.2.1).unitOp 0 1).map fun y => (decide (0 < y.2.left), ((stGranted x.1 x.2.1).unitSt 0 1).grant.isSome)) = some (true, true) ∧
    sget 0 (stGranted x.1 x.2.1).cores.coreWindow 0 < (stGranted x.1 x.2.1).coreWindow 0 := by
  decide +kernel

/-- A KSTEP, KSIG, KTEST (of one key, of two) or KEND stands at the head of its unit's queue. -/
def kilnOk (i : Instr) (s : State) (two : Bool) : Bool :=
  let w := stWorking i s
  let s : State := if two then { w with kops := w.kops.map fun q => { q with args := q.args ++ q.args } } else w
  match s.kilnHead 0 with
  | none => false
  | some (o, g, c) =>
    let gone := fun (t : State) => arrivesB s (6, o.id) 2 ((t.count 3 o.die 0 1).dropKiln o)
    match i, o.bind with
    | .kstep _, some k => ((s.runKstep c g.kilnAt o k).map gone).getD false
    | .ksig _, some k => ((s.runKsig g c g.kilnAt o k).map gone).getD false
    | .ktest x, some k => ((s.runKtest g c o k x.d).map fun t => if two then
        decide (o.args.length = 2) && arrivesB s (6, o.id) 2 { t with kops := t.kops.map fun q => if q.id = o.id then { q with args := o.args.tail } else q }
        else decide (o.args.length = 1) && gone t).getD false
    | .kend x, _ => match o.args with
      | (_, a, _) :: _ => gone (if x.d = .vz then s else s.advanceOf g x.csp a 1 4 0)
      | [] => false
    | _, _ => false
theorem witness_EngineEventsComplete_kiln : ∀ x ∈ [((.kstep (two (.w 4) (.w 6)) : Instr), stKiln0), (.ksig (two (.w 4) (.w 8)), stKiln),
    (.ktest (da (.v 8) (.imm 256)), stKiln), (.kend { h := h0, d := .vz, csp := false }, stKiln)], kilnOk x.1 x.2 false = true := by decide +kernel
theorem witness_EngineEventsComplete_keys : kilnOk (.ktest (da (.v 8) (.imm 256))) stKiln true = true := by decide +kernel

end Sys2Proof.Tests
end

