-- ==== Sys2Proof/Tests/WitnessG.lean ====
section
/-! SUPPORT. Tests/WitnessG.lean: states that meet the hypotheses of the statements on the links, the transport and the steps. -/

set_option Elab.async false

namespace Sys2Proof.Tests

open Sys2Proof.Machine

/-! ### Links -/

def keyOn : KeySlot := { sak := 1, salt := 0, ssci := 0, nextPn := 1, valid := true }
def pkt (k : PacketKind) (addr : Nat) (n : Nat) : Packet :=
  { kind := k, dstIp := 0, srcIp := 0, jobId := 0, src := 0, pdc := 0, peer := 0, psn := 0, addr := BitVec.ofNat 64 addr, bytes := List.replicate n 7
    poison := [], len := n, value := 3, rel := false, rod := false, addrPoison := false, op := 2 }
/-- Port 35 is up with a key; a packet waits in each queue, and credits cover them. -/
def stUp : State := stNode.updPort 35 fun p => { p with
  mode := 1, keys := [(0, keyOn)], ctlQ := [pkt .advance 0x30010 8], datQ := [pkt .put 0x20100 64], ctlCredits := 100, datCredits := 100 }
/-- The same with one frame stored under key 1, which the timer's limit has reached. -/
def stHeld : State := stUp.updPort 35 fun p => { p with store := [frame1], timer := 8192, ackDue := some 4 }
def stReplay : State := stHeld.updPort 35 fun p => { p with tx := .replaying }
/-- A roll-over is due; a key load, a MODE 0 write and a retrain wait. -/
def stRoll : State := stUp.updPort 35 fun p => { p with keys := [(0, { keyOn with nextPn := 2 ^ 62 }), (1, keyOn)] }
def stLate : State := stUp.updPort 35 fun p => { p with load := some (9, 2, keyOn, false), mode0 := some 9, retrain := some retrainLimit }
/-- A frame in order whose packet number is no old one; one that is not authentic. -/
def frameIn (good : Bool) : Frame := { lsn := 0, an := 0, pn := 1, authentic := good, control := false, len := 128, packet := pkt .put 0x20100 64 }
def linkArrives (s t : State) : Bool := arrivesB s (portKey 35) 1 t

/-- What the sending of the frame leads to, as the statement says it. -/
def frameSent (s : State) (k : Packet) : State :=
  let p := s.port 35
  let f : Stored := { lsn := p.nextLsn, an := p.txan, pn := (p.key p.txan).nextPn, mac := p.mac, sci := p.sci, sa := p.key p.txan,
                      control := controlKind k.kind, len := frameLen k, packet := { k with srcIp := p.ip }, bad := false }
  let v := s.updPort 35 fun p => p.take f
  let u := match k.kind with
    | .put | .getReq | .advance => v.updPdc k.pdc fun d => d.updUnacked k.psn fun u => { u with age := 0 }
    | .getReply | .ack | .nack => v
  ((u.send (.frame 35 f)).count 4 35 0 1).checkPn 35
theorem witness_LinkEventsComplete_send :
    ((stUp.port 35).maySend, (stUp.port 35).mode, ((stUp.port 35).nextPacket).map fun k => linkArrives stUp (frameSent stUp k)) = (true, 1, some true) := by
  decide +kernel
theorem witness_LinkEventsComplete_receive :
    ((stUp.port 35).takes, (stUp.port 35).retrain, (frameIn true).lsn, ((stUp.port 35).key 0).valid, (stUp.port 35).mode) =
      (true, none, (stUp.port 35).rxLsn, true, 1) ∧
    (sget 1 (stUp.port 35).rxPn 0).toNat ≤ (frameIn true).pn.toNat ∧ (stUp.port 35).badFrames < 7 ∧
    (let u := stUp.fresh.1.updPort 35 fun p => { p with rxLsn := p.rxLsn + 1, rxPn := sset 1 p.rxPn 0 2, nacked := false, badFrames := 0,
                                                        ackAge := 0, ackDue := some 0, grantDat := p.grantDat - 2, heldDat := p.heldDat + 2 }
     linkArrives stUp (({ u with net := { u.net with arrived := u.net.arrived ++
       [{ i := stUp.stamp, port := 35, packet := (frameIn true).packet, control := false, len := 128, buf := none }] } } : State).count 4 35 1 1)) = true := by
  and_intros <;> decide +kernel
theorem witness_LinkEventsComplete_answers :
    ((stHeld.port 35).up, (stHeld.port 35).retrain, (stHeld.port 35).ackDue, ((stHeld.port 35).store.any fun f => f.lsn = 0)) =
      (true, none, some 4, true) ∧
    (stHeld.port 35).tx ≠ .replaying ∧ (stHeld.port 35).rto ≤ (stHeld.port 35).timer ∧ (stHeld.port 35).store.head? = some frame1 ∧
    linkArrives stHeld (stHeld.replay 35 0 true) = true ∧ linkArrives stHeld (stHeld.replay 35 frame1.lsn true) = true ∧
    ((stReplay.port 35).up, (stReplay.port 35).retrain, (stReplay.port 35).tx) = (true, none, .replaying) := by and_intros <;> decide +kernel
theorem witness_LinkEventsComplete_keys :
    ((stRoll.port 35).up, (stRoll.port 35).rollDue) = (true, true) ∧
    ((stLate.port 35).load.isSome, (stLate.port 35).slotFree 2, (stLate.port 35).mode0, (stLate.port 35).store.isEmpty) = (true, true, some 9, true) ∧
    (stLate.port 35).retrain = some retrainLimit ∧ (stLate.port 35).mode ≠ 0 ∧
    (let u := stLate.updPort 35 fun p => { p with retrain := none, lost := 0 }
     linkArrives stLate (u.report (u.portErr 35 0x40 6 0 (stLate.port 35).lost.toNat))) = true := by and_intros <;> decide +kernel

/-! ### Transport -/

/-- A packet of each kind has arrived at port 35 and is to be applied; operation 2 of the device is open with one packet or one byte
left; its packet 0 has not been acknowledged for the resend time. -/
def remoteOp (get : Bool) (adv : Option Packet) : RemoteOp :=
  { id := 2, prog := 7, ctx := 1, pc := 0x10000, peer := 0, entry := { ip := 0, ports := 0xFFFFFFFFF, rod := false, jobId := 0 }, pdc := 0,
    left := 1, sent := true, get := get, ctr := none, bytes := 8, advance := adv, covers := [], refused := [], agent := 0, withheld := false,
    dropped := false }
def stNet (k : PacketKind) (addr n : Nat) : State := { stNode with net := { stNode.net with
  arrived := [{ i := 5, port := 35, packet := pkt k addr n, control := controlKind k, len := 64 + n, buf := none }]
  remote := [remoteOp (decide (k = .getReply)) (if k = .advance then some (pkt .advance 0x30010 8) else none)]
  pdcs := [{ id := 0, ctx := 1, peer := 0, nextPsn := 1,
             unacked := [{ packet := pkt .put 0x20100 8, ports := 1, port := some 35, resends := 3, age := resendAge, said := false }] }] } }
def packetArrives (s t : State) : Bool := arrivesB s (packetKey 5) 1 t
def arrivedOk (k : PacketKind) (addr n : Nat) (act : State → Arrived → State) : Bool :=
  let s := stNet k addr n
  match s.arrived? 5 k with
  | some a => decide (s.fate a.packet = .apply) && (s.receiver a.packet.jobId).isSome && !a.packet.addrPoison && !s.packetStalled 5 &&
      packetArrives s (act s a)
  | none => false
def toPages : List Piece := pcs 0x20100 64
theorem witness_TransportEventsComplete_pages :
    (toPages.map fun p => (attrCtr p.e.attr, attrW p.e.attr)) = [(false, true)] ∧ wbPiece toPages = false ∧ stNode.ownedPieces toPages = false ∧
    ((stNet .put 0x20100 64).piecesAt ctx1 none (piecesOf 0x20100 64)).toOption = some toPages ∧ (stNet .put 0x20100 64).ctx? 1 = some ctx1 ∧
    (((stNet .advance 0x30010 8).translate ctx1 0x30010).toOption.map fun e => (attrCtr e.attr, attrW e.attr, attrWb e.attr)) =
      some (true, true, false) ∧
    (((stNet .getReply 0x20100 64).remote? 2).map fun o => (o.get, ((stNet .getReply 0x20100 64).delivery 0 (replyStream 2)).has 0)) =
      some (true, false) := by and_intros <;> decide +kernel
def getBytes (s : State) (a : Arrived) : State :=
  let got := toPages.foldl (fun (x : State × List (Byte × Bool)) p => ((x.1.agentRead 1 6 a.port p).1, x.2 ++ (x.1.agentRead 1 6 a.port p).2)) (s, [])
  ((cutBytes (got.2.length + 1) got.2).zipIdx.foldl (fun t m => t.enqueue a.port { a.packet with
    kind := .getReply
    dstIp := a.packet.srcIp
    src := Config.self
    psn := BitVec.ofNat 32 m.2
    addr := a.packet.value + BitVec.ofNat 64 (4096 * m.2)
    bytes := m.1.map (·.1)
    poison := taggedAt m.1 }) got.1).delivered a
def takeReply (s : State) (a : Arrived) : State :=
  let d := s.delivery a.packet.src (replyStream a.packet.op)
  ((((s.engineWrite 1 5 a.port toPages (packetBytes a.packet)).setDelivery (d.take a.packet.psn)).dropArrived 5).updRemote 2 fun o =>
    { o with left := o.left - a.packet.bytes.length }).settleOp 2
def raise (s : State) (a : Arrived) : State :=
  ((((s.holdRange ctx1 0x30010 16).ctrPut (.phys 0x60010) 0 (leBytes 8 (max (s.ctrGet (.phys 0x60010)).1 a.packet.value.toNat))
    (s.ctrGet (.phys 0x60010)).2.2).watch true true 0x60010 8 6 a.port).1).delivered a
theorem witness_TransportEventsComplete_apply :
    arrivedOk .put 0x20100 64 (fun s a => (s.engineWrite 1 5 a.port toPages (packetBytes a.packet)).delivered a) = true ∧
    arrivedOk .getReq 0x20100 64 getBytes = true ∧ arrivedOk .getReply 0x20100 64 takeReply = true ∧ arrivedOk .advance 0x30010 8 raise = true := by
  and_intros <;> decide +kernel
/-- The acknowledgement of packet 0, or a NACK of kind 2, and what it leads to. -/
def answeredOk (k : PacketKind) : Bool :=
  match (stNet k 0 0).answered k 0 0 2 with
  | none => false
  | some a =>
    let t := (stNet k 0 0).dropArrived a.i
    let v := t.updPdc 0 fun d => { d with unacked := d.unacked.filter fun u => u.packet.psn ≠ 0 }
    match (t.pdc? 0).bind fun d => d.unacked.find? fun u => u.packet.psn = 0 with
    | none => false
    | some u => if k = .ack then
        decide (u.packet.kind ≠ .getReq) && packetArrives (stNet k 0 0) ((v.updRemote u.packet.op fun o => { o with left := o.left - 1 }).settleOp u.packet.op)
      else match v.remote? u.packet.op with
        | none => false
        | some o => !o.dropped && packetArrives (stNet k 0 0) ((v.updRemote o.id fun o => { o with
            refused := if o.dropped then o.refused else o.refused ++ [u.packet] }).stopOp o 0x45 u.packet.addr.toNat (2 % 16 + o.peer * 16))
theorem witness_TransportEventsComplete_answers : answeredOk .ack = true ∧ answeredOk .nack = true := ⟨by decide +kernel, by decide +kernel⟩
theorem witness_TransportEventsComplete_unacked :
    (((stNet .ack 0 0).pdc? 0).map fun d => d.unacked.map fun u => (u.packet.psn, u.resends, decide (resendAge ≤ u.age))) = some [(0, 3, true)] := by
  decide +kernel
theorem witness_TransportEventsComplete_remote :
    (((stNet .advance 0x30010 8).remote? 2).map fun o => (o.advance.isSome, o.covers)) = some (true, []) ∧
    (stNet .advance 0x30010 8).sendRoom 0 ≠ 0 := ⟨by decide +kernel, by decide +kernel⟩

/-- A sequencer context waits in CWAIT for 0, or for 3 with its timer at the limit. -/
def stCwait (v : W64) : State := (stSeq 0).updSeq 0 fun q => { q with wait := some (0x30010, v), timer := 2 ^ 31 }
def cwaitOk (v : W64) : Bool := match (stCwait v).seqWaits 0 with
  | some (q, c, a, u) => a = 0x30010 && u = v && ((stCwait v).seqCounter c a.toNat).toOption == some 0 && decide (2 ^ c.starvLim ≤ q.timer) &&
      (v != 0 || arrivesB (stCwait v) (seqKey 0) 1 (((stCwait v).seqTouch c 0 a.toNat).seqNext { n := 0, q := q, c := c } (q.pc + 4) id))
  | none => false
theorem witness_TransportEventsComplete_wait : cwaitOk 0 = true ∧ cwaitOk 3 = true := ⟨by decide +kernel, by decide +kernel⟩

/-! ### Steps -/

/-- A word at the program counter of a path or of a sequencer context, and the turn that issues it. -/
def wordOf (i : Instr) : Nat := match encode i with
  | some (.lenrus w l) => w.toNat + (l.getD 0).toNat * 2 ^ 64
  | some (.zf w) => w.toNat
  | none => 0
def stFetch (i : Instr) : State := { State.reset.withFetchWord 128 (wordOf i) with agenda := [.lane 0 0] }
def stFetchZf (i : Instr) : State := { State.reset.withFetchWord 32 (wordOf i) with agenda := [.seq 0] }
def short : Instr := .iadd { intOps with w64 := false, sat := false, sgn := false, c := .vz }
def long : Instr := .iadd { h := { h0 with lit := some 5 }, d := .v 4, a := .v 6, b := .lit, c := .vz, w64 := false, sat := false, sgn := false }
/-- The word of this size is found at the path's program counter. -/
def finds (s : State) (i : Instr) (size : Nat) : Bool :=
  match s.group? key, s.path? r0 with
  | some g, some p => match s.ctx? g.ctx with
    | some c => match s.translate c p.pc.toNat g.via with
      | .ok e =>
        let w := BitVec.ofNat 64 (s.mem.nat (e.pa p.pc.toNat) 8)
        let t : State := { s with mem := s.mem.hold g.via e }
        let l := if size = 16 then match t.translate c (p.pc.toNat + 8) g.via with
            | .ok e' => if attrX e'.attr then some (BitVec.ofNat 64 (t.mem.nat (e'.pa (p.pc.toNat + 8)) 8)) else none
            | .error _ => none
          else some 0
        attrX e.attr && !g.dae && wordSize w = size &&
          (match l.map (decodeWord w) with | some (.ok j) => decide (j = i) | _ => false)
      | .error _ => false
    | none => false
  | _, _ => false
theorem witness_StepRunsDecoded_fetch :
    short.wf = true ∧ long.wf = true ∧ finds (stFetch short) short 8 = true ∧ finds (stFetch long) long 16 = true :=
  ⟨by decide +kernel, by decide +kernel, by decide +kernel, by decide +kernel⟩
def issues (r : Result) : Bool := match r with | .next t => !t.held | _ => false
def idle (s : State) : State := { s with agenda := [], cur := none, held := false }
theorem witness_StepRunsDecoded_turn : ∀ i ∈ [short, long],
    (idle (stFetch i)).choices 0 0 = [r0] ∧ issues (((idle (stFetch i)).clearLane 0 0).issuePath r0) = true := by decide +kernel
/-- The turn of an event. -/
def stEvent : State := { stAged with agenda := [.event (.pathDue r0)] }
theorem witness_StepRunsDecoded_event : issues (exec (.pathDue r0) (idle stEvent)) = true := by decide +kernel
def zfFinds (s : State) (i : Instr) : Bool :=
  match s.seq? 0, s.ctx? 1 with
  | some q, some c => match s.translate c q.pc.toNat with
    | .ok e => match decodeZf (BitVec.ofNat 32 (s.mem.nat (e.pa q.pc.toNat) 4)) with | .ok j => decide (j = i) | .error _ => false
    | .error _ => false
  | _, _ => false
/-- A sequencer word that is no instruction, and one whose page is not mapped. -/
def stNoWord : State := { State.reset.withFetchWord 32 0xF8000000 with agenda := [.seq 0] }
def stNoPage : State := stNoWord.updSeq 0 fun q => { q with pc := 0x7000000 }
theorem witness_StepRunsSequencerWord :
    zfFinds (stFetchZf (.movi { d := 5, a := 0, imm := 7 })) (.movi { d := 5, a := 0, imm := 7 }) = true ∧
    ((List.range 8).map (fun i => (sget 7 (idle (stFetchZf .zfDone)).seqLast 0 + 1 + i) % 8)).filter (idle (stFetchZf .zfDone)).seqReady = [0] ∧
    issues ((idle (stFetchZf .zfDone)).issueSeq 0) = true := ⟨by decide +kernel, by decide +kernel, by decide +kernel⟩
theorem witness_StepRunsSequencerWord_stops :
    ((stNoWord.seq? 0).map fun q => (stNoWord.ctx? q.ctx).map fun c => ((stNoWord.translate c q.pc.toNat).toOption).map fun e =>
      (decodeZf (BitVec.ofNat 32 (stNoWord.mem.nat (e.pa q.pc.toNat) 4))).toOption) = some (some (some none)) ∧
    ((stNoPage.seq? 0).map fun q => (stNoPage.ctx? q.ctx).map fun c => (stNoPage.translate c q.pc.toNat).toOption) = some (some none) :=
  ⟨by decide +kernel, by decide +kernel⟩
/-- A step that goes on (R34, R36). -/
theorem witness_NothingAtIssueKept : issues (step (stFetch short)) = true := by decide +kernel
theorem witness_EncodeDecode : short.wf = true ∧ encode short ≠ none ∧ Instr.zfDone.wf = true ∧ encode .zfDone ≠ none :=
  ⟨by decide +kernel, by decide +kernel, by decide +kernel, by decide +kernel⟩

end Sys2Proof.Tests
end

