-- ==== Sys2Proof/Tests/WitnessH.lean ====
section
/-! SUPPORT. Tests/WitnessH.lean: states and operands that meet the hypotheses of the statements on registers, frames, checks, traps
and the rules stated one by one. -/

set_option Elab.async false

namespace Sys2Proof.Tests

open Sys2Proof.Machine

theorem witness_RegisterReadAfterWrite :
    (st0.thread? key 0 0).isSome = true ∧ (st0.warp? key 0).isSome = true ∧ 6 < 7 := ⟨by decide +kernel, by decide +kernel, by decide⟩

/-! ### Instructions that compute -/

def addV : IntOps := { h := h0, d := .v 4, a := .v 6, b := .imm 257, c := .vz, w64 := true, sat := false, sgn := false }
def addOut (d : Operand) : IntOps := { addV with d := d, w64 := false }
theorem writes_iadd (x : IntOps) : Writes (.iadd x) x.h (IntOps.two x) 1 fun _ _ v =>
    intResult (nBits x.w64) x.sat x.sgn (intOf (nBits x.w64) x.sgn (arg v 0) + intOf (nBits x.w64) x.sgn (arg v 1)) :=
  writes_of_compute (fun _ => rfl) (fun _ _ _ _ _ => rfl)

/-- A pair of vector registers, a warp register, a predicate and a data queue as destinations: something is done in each. -/
theorem witness_ComputeFrame : ∀ x ∈ [addV, addOut (.w 4), addOut (.p 0)],
    clearB st0 (who st0) h0 (IntOps.two x) = true ∧ (IntOps.two x).dst.isSome = true ∧ (who st0).doing h0 (IntOps.two x) ≠ [] := by decide +kernel
theorem witness_ComputedDestination : ∀ x ∈ [addV, addOut (.w 4), addOut (.p 0)],
    ((IntOps.two x).dst.isSome = true ∧ (st0.sees (who st0) h0 (IntOps.two x)).vals ≠ [] ∧ (st0.warp? key 0).isSome = true) := by decide +kernel

/-! ### Accesses -/

theorem accesses_ld (x : MemOps) : Accesses (.ldG x) x.h (MemOps.ldShape x false) (memPer x.ty) 0 x.order
    { code := x.a.code, size := typeBytes x.ty, plain := true } (fun k => wants k vaG (fun _ => 0) (fun _ => false))
    { kind := .load, ty := x.ty, order := x.order, scope := x.scope, d := x.d } := accesses_of fun _ => rfl
def reachesB (s : State) (x : Iss) (d : Doing) (va : Nat) (e : TlbEntry) : Bool :=
  decide (va < 2 ^ 55) && decide (va % d.size = 0) && decide (s.mem.tlbFind x.g.core x.g.ctx va = some e) && (d.denied e.attr).isNone &&
    (!(d.write || d.advance) || !attrWb e.attr)
theorem witness_IssueOfAccessLeavesMemory :
    clearB stMem (who stMem) h0 (MemOps.ldShape (ldOps .b32 .weak .thr) false) = true ∧ stMem.mustWait (who stMem) h0 0 .weak false = false ∧ stMem.mem.badHdr = [] ∧
    ((wants (stMem.sees (who stMem) h0 (MemOps.ldShape (ldOps .b32 .weak .thr) false)) vaG (fun _ => 0) (fun _ => false)).all fun w =>
      reachesB stMem (who stMem) readW w.va (entry w.va)) = true :=
  ⟨by decide +kernel, by decide +kernel, by decide +kernel, by decide +kernel⟩

/-- One part waits at its sector: a load, and a store. -/
def stStoring : State := { go stMem (exec (.stG (ldOps .b16 .weak .thr)) stMem) with cur := none }
def servedOk (s : State) : Bool := match s.nextReq 320 with
  | some r => !s.aged r && r.eng.isNone && (s.missing r).isEmpty && !(s.mem.sector 320).turning && decide ((s.mem.sector 320).orient ≠ .col) &&
    match r.op.bind fun id => s.mem.ops.find? fun o => o.id = id with
    | some o => (o.parts.map fun p => (p.pa / 1024, p.served, p.got.getLsbD r.piece)) = [(320, false, false)] && (s.group? o.g).any fun g => !g.allEnded
    | none => false
  | none => false
theorem witness_ServedAccess : servedOk stLoading = true ∧ servedOk stStoring = true ∧ stLoading.mem.badHdr = [] :=
  ⟨by decide +kernel, by decide +kernel, by decide +kernel⟩

/-! ### The common checks -/

theorem issue_iadd (x : IntOps) : ∃ body, ∀ s, exec (.iadd x) s = issue (.iadd x) x.h (IntOps.two x) 1 s body := ⟨_, fun _ => rfl⟩
/-- v8 waits for a load; v255 lies beyond the thread's registers. -/
def stAwait : State := { stMem with mem := { stLoading.mem with tlb := pages } }
theorem witness_CommonChecks_registers :
    (stAwait.iss?).isSome = true ∧ stAwait.dependency (who stAwait) (IntOps.two { addV with d := .v 8 }) h0 = true ∧
    ((who st0).illegal h0 (IntOps.two { addV with a := .v 255 })).isSome = true ∧
    st0.dependency (who st0) (IntOps.two { addV with a := .v 255 }) h0 = false ∧ st0.outstanding (who st0) = false :=
  ⟨by decide +kernel, by decide +kernel, by decide +kernel, by decide +kernel, by decide +kernel⟩
theorem witness_CommonChecks_trap :
    stAwait.outstanding (who stAwait) = true ∧
    (match issueAt (.iadd { addV with a := .v 255 }) h0 (IntOps.two { addV with a := .v 255 }) 1 stAwait (fun _ _ s => (s, .next [])) (who stAwait) with
      | .next t => (who stAwait).trapped t
      | _ => false) = true := ⟨by decide +kernel, by decide +kernel⟩
/-- A data queue that is empty; a poisoned address of a far branch; a bad generator for a conversion that draws. -/
def popShape : Shape := IntOps.one { intOps with a := .q 0, w64 := false }
def stPoison : State := st0.updThread key 0 0 fun th => th.setReg 4 ⟨0, true⟩
def farShape : Shape := { srcs := [{ srcA (.v 4) 2 with strict := true }], uni := some false, flat := true }
def stNoGen : State := st0.updGroup key fun g => { g with keyBad := true }
def plainChecks (s : State) (sh : Shape) : Bool :=
  (s.iss?).isSome && !s.dependency (who s) sh h0 && !s.ringBusy (who s) sh && !s.outstanding (who s) && ((who s).illegal h0 sh).isNone
theorem witness_CommonChecks_port :
    plainChecks stPop popShape = true ∧ (stPop.portWait (who stPop).g 0 ((who stPop).needs h0 popShape)).isSome = true :=
  ⟨by decide +kernel, by decide +kernel⟩
theorem witness_CommonChecks_poison :
    plainChecks stPoison farShape = true ∧ (stPoison.portWait (who stPoison).g 0 ((who stPoison).needs h0 farShape)).isNone = true ∧
    ((stPoison.hurt (who stPoison) h0 farShape).map (·.1)) = [0] := ⟨by decide +kernel, by decide +kernel, by decide +kernel⟩
theorem witness_CommonChecks_generator :
    plainChecks stNoGen (CvtOps.shape cvtOps) = true ∧ (CvtOps.shape cvtOps).gen = true ∧ (who stNoGen).g.genBad ≠ 0 ∧
    (who stNoGen).doing h0 (CvtOps.shape cvtOps) ≠ [] := ⟨by decide +kernel, by decide +kernel, by decide +kernel, by decide +kernel⟩

/-! ### Traps -/

def ctxUser : Ctx := (stUser.ctx? 1).getD (Ctx.start 0 false)
theorem witness_TrapEntry :
    stUser.group? key = some (who stUser).g ∧ stUser.path? r0 = some (who stUser).p ∧ stUser.ctx? (who stUser).g.ctx = some ctxUser ∧
    stUser.nested key 0 1 = false ∧ stUser.level key 0 0 = some (false, false) ∧ 0 ∈ maskList 1 ∧ (who stUser).g.nregs = 256 :=
  ⟨by decide +kernel, by decide +kernel, by decide +kernel, by decide +kernel, by decide +kernel, by decide +kernel, by decide +kernel⟩
theorem witness_ErrorWithoutHandlerStopsGang :
    ctxUser.trapVec = 0 ∧ (stUser.folds 1).isNone = true ∧ stUser.stops = [] ∧ stUser.gangOf (who stUser).g = [key] :=
  ⟨by decide +kernel, by decide +kernel, by decide +kernel, by decide +kernel⟩
/-- A thread in a handler, and a thread of a supervisor context. -/
def stTrapped : State := stUser.updThread key 0 0 fun th => { th with trapped := true }
theorem witness_NestedTrapContains :
    stTrapped.nested key 0 1 = true ∧ st0.nested key 0 1 = true ∧ stTrapped.dev.contained = false ∧ ctxUser.run ≠ .contained ∧
    (stTrapped.path? r0).isSome = true := ⟨by decide +kernel, by decide +kernel, by decide +kernel, by decide +kernel, by decide +kernel⟩

/-! ### Rules stated one by one -/

def tlbinv : SwrOps := { h := h0, sreg := 0x021, a := .w 4 }
def formOf (s : State) : Nat :=
  regsNat (((s.readSrc (who s) h0 { field := 2, op := .w 4, n := 2, uni := true } ((maskList ((who s).taking h0)).take 1)).2).headD []) % 4
theorem witness_InvalidationFormThree :
    ((withWarpRegs st0 [3, 0]).iss?).isSome = true ∧ formOf (withWarpRegs st0 [3, 0]) = 3 ∧ formOf (withWarpRegs st0 [2, 0]) = 2 :=
  ⟨by decide +kernel, by decide +kernel, by decide +kernel⟩
def kilnShapes : List Shape :=
  [ksigShape, { srcs := [{ field := 2, op := .imm 256, strict := true }], dst := some { op := .v 8 }, suppress := true },
    { srcs := [{ field := 2, op := .imm 256, strict := true }], dst := some { op := .v 8, n := 2 } }, kmapShape (dab (.v 8) (.v 4) (.imm 256)) 2,
    kmapShape (dab (.v 8) (.v 4) (.imm 256)) 1]
theorem witness_KilnNeedsBinding : (who stKiln0).g.kiln = none ∧ stKiln0.outstanding (who stKiln0) = false ∧
    ∀ sh ∈ kilnShapes, clearB stKiln0 (who stKiln0) h0 sh = true ∧ (who stKiln0).doing h0 sh ≠ [] :=
  ⟨by decide +kernel, by decide +kernel, by decide +kernel⟩
theorem witness_TasksOutsideWorkers : (who st0).g.task = none ∧ st0.outstanding (who st0) = false ∧
    clearB st0 (who st0) h0 (chunkShape { h := h0, d := .v 4 }) = true ∧ (who st0).doing h0 (chunkShape { h := h0, d := .v 4 }) ≠ [] ∧
    clearB st0 (who st0) h0 { srcs := [], uni := some false, flat := true } = true ∧
    clearB stWorker (who stWorker) h0 { srcs := [], uni := some false, suppress := true, execOnly := true } = true :=
  ⟨by decide +kernel, by decide +kernel, by decide +kernel, by decide +kernel, by decide +kernel, by decide +kernel⟩

end Sys2Proof.Tests
end

section
/-! PROOFS. What a value reads as after it is written to memory byte by byte (R3). -/

namespace Sys2Proof.Machine

/-! ### Little-endian bytes of a value -/

theorem leBytes_eq_map (n v : Nat) : leBytes n v = (List.range n).map fun j => BitVec.ofNat 8 (v / 2 ^ (8 * j)) := by
  induction n generalizing v with
  | zero => rfl
  | succ n ih =>
    have shift (j : Nat) : v / 256 / 2 ^ (8 * j) = v / 2 ^ (8 * (j + 1)) := by
      rw [Nat.div_div_eq_div_mul, Nat.mul_succ, Nat.add_comm, Nat.pow_add]
    simp [leBytes, ih, List.range_succ_eq_map, shift]

theorem leNat_leBytes (n v : Nat) : leNat (leBytes n v) = v % 2 ^ (8 * n) := by
  induction n generalizing v with
  | zero => simp [leBytes, leNat, Nat.mod_one]
  | succ n ih =>
    calc leNat (leBytes (n + 1) v)
        = v % 256 + 256 * (v / 256 % 2 ^ (8 * n)) := by simp [leBytes, leNat, ih]
      _ = v % (256 * 2 ^ (8 * n)) := Nat.mod_mul.symm
      _ = v % 2 ^ (8 * (n + 1)) := by rw [Nat.mul_succ, Nat.add_comm, Nat.pow_add]

/-! ### Memory after the write of a value -/

theorem byte_write_leBytes (m : Memory) (pa n v : Nat) (bad : Bool) {j : Nat} (h : j < n) :
    (m.write pa (leBytes n v) bad).byte (pa + j) = BitVec.ofNat 8 (v / 2 ^ (8 * j)) := by
  simp [write_byte, leBytes_eq_map, h]

theorem bytes_write_leBytes (m : Memory) (pa n v : Nat) (bad : Bool) : (m.write pa (leBytes n v) bad).bytes pa n = leBytes n v := by
  have each : ∀ j ∈ List.range n, (m.write pa (leBytes n v) bad).byte (pa + j) = BitVec.ofNat 8 (v / 2 ^ (8 * j)) :=
    fun _ hj => byte_write_leBytes m pa n v bad (List.mem_range.mp hj)
  rw [Memory.bytes, List.map_congr_left each, ← leBytes_eq_map]

/-- Settles O45: the bytes of the range read as the bytes written, and those make up the value below 2^(8n). -/
theorem memoryIsLittleEndian : Obligations.MemoryIsLittleEndian := by
  intro m pa n v bad
  refine ⟨fun _ => byte_write_leBytes m pa n v bad, ?_⟩
  rw [Memory.nat, bytes_write_leBytes, leNat_leBytes]

end Sys2Proof.Machine
end

section
/-! PROOFS. What admits work: launches, kindling slots and worker groups (R64, R65, R95, R96). -/

namespace Sys2Proof.Machine

/-- No launch before it can be admitted, so the launch that finds a place is. -/
theorem execLaunchAdmission_seated {ctx launch : Nat} {s : State} {l : Launch} {c : Ctx} {plan : List (List Nat)}
    (hl : s.reserve.waitingLaunches.find? (fun l => l.ctx = ctx && l.id = launch) = some l) (hc : s.reserve.ctx? ctx = some c)
    (hfirst : ∀ m ∈ s.reserve.waitingLaunches, m.before l = true → s.reserve.seat m = none) (hplan : s.reserve.seat l = some plan) :
    execLaunchAdmission ctx launch s = .next (s.reserve.startUnit l c plan).reserve := by
  have none_before : s.reserve.waitingLaunches.any (fun m => m.before l && (s.reserve.seat m).isSome) = false := by
    simp only [List.any_eq_false, Bool.and_eq_true, not_and]
    intro m hm hb
    simp [hfirst m hm hb]
  simp only [execLaunchAdmission, hl, hc, none_before, hplan, Bool.false_eq_true, if_false]

theorem execWorkerAdmission_loaded {core slot : Nat} {s : State} {k : Kindle} {t : Task} {c : Ctx} {lanes : List Nat}
    (hk : s.kindles.find? (fun k => k.core = core && k.slot = slot) = some k) (ht : s.task? k.cluster k.index = some t) (hloads : k.loads = [])
    (hc : s.ctx? t.ctx = some c) (hruns : s.runs t.ctx = true) (hcore : setMem s.cores.failed core = false)
    (hlanes : (s.residency core).place t.need = some lanes) :
    let u := (s.fresh.1.handle t.ctx).1
    execWorkerAdmission core slot s = .next { u.updTask k.cluster k.index fun t => { t with state := 3 } with
      groups := u.groups ++ [t.group c s.stamp (s.fresh.1.handle t.ctx).2 core (u.places core lanes) k]
      kindles := u.kindles.filter fun q => !(q.core = core && q.slot = slot) } := by
  simp only [execWorkerAdmission, hk, ht, hc, hlanes, hloads, hruns, hcore, List.isEmpty_nil, Bool.not_true, Bool.or_false,
    Bool.false_eq_true, if_false]
  rfl

/-- Settles O31: each event's conditions choose the one branch of its meaning in which it happens; a dispatch is an attempt that arrives. -/
theorem admissionEventsComplete : Obligations.AdmissionEventsComplete := by
  refine ⟨fun ctx launch s l c plan hl hc hfirst hplan => execLaunchAdmission_seated hl hc hfirst hplan,
    fun core slot s t c ht hc hslot hlaunch harr => ?_,
    fun core slot s k t c lanes hk ht hloads hc hruns hcore hlanes => execWorkerAdmission_loaded hk ht hloads hc hruns hcore hlanes⟩
  show execKindlingDispatch core slot s = _
  simp only [execKindlingDispatch, ht, hc, hslot, hlaunch, Bool.not_true, Bool.or_false, Bool.false_eq_true, if_false]
  exact attempt_arrives rfl harr

end Sys2Proof.Machine
end

section
/-! PROOFS. What a context's requests do: saving, resuming, and going on where it stands (R81, R98, R99, R413). -/

namespace Sys2Proof.Machine

section Save
variable {ctx : Nat} {s : State} {c : Ctx} {rest : List Bool}

theorem execContextSave_stops (hc : s.ctx? ctx = some c) (hreq : c.requests = false :: rest) (hrun : c.run = .running ∨ c.run = .contained) :
    execContextSave ctx s = .next (s.haltCtx ctx .stopping) := by
  rcases hrun with hrun | hrun <;> simp only [execContextSave, hc, hreq, hrun]

theorem execContextSave_saved (hc : s.ctx? ctx = some c) (hreq : c.requests = false :: rest) (hrun : c.run = .saved) :
    execContextSave ctx s = .next (s.requestDone ctx) := by
  simp only [execContextSave, hc, hreq, hrun]

/-- A drained context whose sequencers stand at a block boundary writes its area, once it reaches it. -/
theorem execContextSave_quiet {u : State} (hc : s.ctx? ctx = some c) (hreq : c.requests = false :: rest) (hrun : c.run = .stopping)
    (hdrained : s.drained ctx = true) (hok : c.saveRefused (s.groupsOf ctx) = none) (hquiet : s.quietSeqs c = some u)
    (harr : s.arrives (saveKey ctx) 0 (u.save c)) : execContextSave ctx s = .next ((u.save c).arrive (saveKey ctx)) := by
  simp only [execContextSave, hc, hreq, hrun, hdrained, hok, Bool.not_true, Bool.false_eq_true, if_false]
  exact attempt_arrives (by simp only [hquiet]) harr

theorem execContextResume_running (hc : s.ctx? ctx = some c) (hreq : c.requests = true :: rest) (hrun : c.run = .running) :
    execContextResume ctx s = .next (s.requestDone ctx) := by
  simp only [execContextResume, hc, hreq, hrun]

theorem execContextResume_stands (hc : s.ctx? ctx = some c) (hreq : c.requests = true :: rest) (hrun : c.run = .contained ∨ c.run = .stopping) :
    execContextResume ctx s = .next ((s.updCtx ctx fun c => { c with run := .running, record := none }).requestDone ctx) := by
  rcases hrun with hrun | hrun <;> simp only [execContextResume, hc, hreq, hrun]

/-- A saved context for all of which there is room goes on, once its area is reached. -/
theorem execContextResume_seated {v : Saved} {t : State} (hc : s.ctx? ctx = some c) (hreq : c.requests = true :: rest) (hrun : c.run = .saved)
    (hsaved : c.saved = some v) (hok : s.resumeRefused c v = none) (hseat : s.resume c v = some t) (harr : s.arrives (saveKey ctx) 0 t) :
    execContextResume ctx s = .next (t.arrive (saveKey ctx)) := by
  simp only [execContextResume, hc, hreq, hrun, hsaved, hok]
  exact attempt_arrives (by simp only [hseat]) harr

end Save

/-- Settles O33: a request and the state of its context choose one branch; a save and a resume of a saved context are attempts that arrive. -/
theorem contextEventsComplete : Obligations.ContextEventsComplete := by
  refine ⟨fun ctx s c rest => execContextSave_stops,
    fun ctx s c rest u hc hreq hrun hdrained hok hquiet harr => execContextSave_quiet hc hreq hrun hdrained hok hquiet harr,
    fun ctx s c rest v t hc hreq hrun hsaved hok hroom hseat seqs hplace w hbind harr =>
      execContextResume_seated hc hreq hrun hsaved hok ?_ harr,
    fun ctx s c rest hc => ⟨execContextSave_saved hc, execContextResume_running hc, execContextResume_stands hc⟩⟩
  simp only [State.resume, hroom, hseat, hplace, hbind, Bool.not_true, Bool.false_eq_true, if_false, Option.bind_some, Option.map_some]

end Sys2Proof.Machine
end

section
/-! PROOFS. What the memory system does by itself (R80, R143 to R145, R152 to R154, R260, R452, R469). -/

namespace Sys2Proof.Machine

/-! ### Requests at a sector -/

section Serve
variable {s : State} {r : Req}

theorem not_turning_of_col {t : SectorTag} (h : t.orient = .col) : t.turning = false := by simp [SectorTag.turning, h]

theorem tryServe_asks (heng : r.eng = none) (hturn : (s.mem.sector r.sector).turning = false)
    (hask : ((s.missing r).filter fun l => !(s.mem.fills.any fun f => f.pa = 32 * l)) ≠ []) :
    s.tryServe r = some (s.askLines (((s.missing r).filter fun l => !(s.mem.fills.any fun f => f.pa = 32 * l)).map (s.fillOf r))) := by
  have some_missing : s.missing r ≠ [] := fun h => hask (by simp [h])
  simp [State.tryServe, heng, hturn, some_missing, hask]

theorem tryServe_performs (heng : r.eng = none) (hturn : (s.mem.sector r.sector).turning = false) (hmiss : s.missing r = [])
    (hrow : (s.mem.sector r.sector).orient ≠ .col) : s.tryServe r = some (s.perform r) := by
  simp [State.tryServe, heng, hturn, hmiss, hrow]

theorem tryServe_turns (heng : r.eng = none) (hcol : (s.mem.sector r.sector).orient = .col) (hmiss : s.missing r = []) :
    s.tryServe r = some (s.startTurn r) := by
  simp [State.tryServe, heng, not_turning_of_col hcol, hmiss, hcol]

/-- A sector serves its next request by one event or the other, as the request is aged or not. -/
theorem exec_serves {old : Bool} {sector : Nat} {t : State} (hr : s.nextReq sector = some r) (hold : s.aged r = old) (ht : s.tryServe r = some t) :
    exec (if old then .class3Aging sector r.id else .llcRequestServe sector) s = .next t := by
  cases old with
  | false =>
    show execLlcRequestServe sector s = .next t
    simp [execLlcRequestServe, hr, hold, ht]
  | true =>
    show execClass3Aging sector r.id s = .next t
    simp [execClass3Aging, hr, hold, ht]

end Serve

/-! ### Turns of a sector -/

/-- The sector's turn ends: it is held in its new orientation. -/
def Memory.endTurn (m : Memory) (sector : Nat) : Memory :=
  if (m.sector sector).orient = .turnRow then m.setSector sector { m.sector sector with orient := .row } else m.touchCol sector false

theorem makeRoom_reqs (m : Memory) (x : Nat) : (m.makeRoom x).reqs = m.reqs := by
  unfold Memory.makeRoom
  repeat' split
  all_goals rfl

theorem touchCol_reqs (m : Memory) (x : Nat) (write : Bool) : (m.touchCol x write).reqs = m.reqs := by
  unfold Memory.touchCol Memory.dropL0
  dsimp only
  split <;> exact makeRoom_reqs m x

theorem endTurn_reqs (m : Memory) (sector : Nat) : (m.endTurn sector).reqs = m.reqs := by
  unfold Memory.endTurn
  split
  · rfl
  · exact touchCol_reqs m sector false

/-- The request that a turn was for is sought among those that were there before the turn ended: its end adds and drops none. -/
theorem execOrientationTurnComplete_turned {s : State} {sector : Nat} (hzero : (s.mem.sector sector).turn = 0)
    (hturn : (s.mem.sector sector).turning = true) :
    let u : State := { s with mem := s.mem.endTurn sector }
    execOrientationTurnComplete sector s = .next (match s.mem.reqs.find? fun r => r.sector = sector && r.turned && r.eng.isNone with
      | some r => u.perform r
      | none => u) := by
  rw [← endTurn_reqs s.mem sector]
  simp only [execOrientationTurnComplete, hzero, hturn, decide_true, Bool.and_self, if_true, Memory.endTurn]
  split <;> simp only [*]

/-! ### Replies -/

/-- Threads of an operation that is to trap have no earlier access under way, so nothing delays the trap. -/
theorem trapsEarly_eq_false {s : State} {o : MemOp}
    (h : (∃ p ∈ o.parts, p.fault = true ∨ p.hit ≠ none) →
      ∀ q ∈ s.mem.ops, q.id < o.id → q.g = o.g → q.w = o.w → q.access = o.access → q.tmask &&& o.tmask = 0) : s.trapsEarly o = false := by
  simp only [State.trapsEarly, Bool.and_eq_false_imp, List.any_eq_true, List.any_eq_false, Bool.or_eq_true, Option.isSome_iff_ne_none]
  intro traps q hq
  simpa using h traps q hq

/-- No earlier operation of the same threads that pushes to the ring of this one is still to be served. -/
theorem ring_free {s : State} {o : MemOp}
    (h : o.ring ≠ none → ∀ q ∈ s.mem.ops, q.id < o.id → q.g = o.g → q.w = o.w → q.tmask &&& o.tmask ≠ 0 → q.done = true) :
    (o.ring.isSome && s.mem.ops.any fun q => q.id < o.id && q.g = o.g && q.w = o.w && q.tmask &&& o.tmask != 0 && !q.done) = false := by
  simp only [Bool.and_eq_false_imp, List.any_eq_false, Option.isSome_iff_ne_none]
  intro hring q hq
  simpa using h hring q hq

/-- The reply of a part writes the destination of its thread, or of every thread of the operation. -/
def State.writePart (s : State) (o : MemOp) (g : Group) (p : Part) : State :=
  s.writeDst o.g o.w g { op := o.d, n := o.words } (p.pos.getD (maskLow o.tmask)) (match p.pos with | some j => [j] | none => maskList o.tmask)
    (replyRegs o.words (if o.kind = .load then extend o.ty p.val.toNat else p.val.toNat) fun j => p.vbad.getLsbD j)

/-- What the reply of an operation leaves before its threads trap: its destination is written, and the operation is over. -/
def State.afterReply (s : State) (o : MemOp) (g : Group) : State :=
  let good := o.parts.filter fun p => !p.fault
  let t := if o.words = 0 then s else good.foldl (fun t p => t.writePart o g p) s
  let t := if o.words = 0 ∨ o.d = .vz then t else t.originate { o with parts := good }
  { t with mem := { t.mem with ops := t.mem.ops.filter fun q => q.id ≠ o.id } }

theorem execLoadValueReturn_replied {op : Nat} {s : State} {o : MemOp} {now : Group} (ho : s.mem.ops.find? (fun o => o.id = op) = some o)
    (hnow : s.group? o.g = some now) (hdone : o.done = true) (htrap : s.trapsEarly o = false)
    (hring : (o.ring.isSome && s.mem.ops.any fun q => q.id < o.id && q.g = o.g && q.w = o.w && q.tmask &&& o.tmask != 0 && !q.done) = false)
    (hroom : o.words ≠ 0 → let at_ := (o.parts.filter fun p => !p.fault).filterMap (·.pos)
      s.dstRoom (now.boundAs o.d o.ring) o.w { op := o.d, n := o.words } (if at_ = [] then (maskList o.tmask).take 1 else at_) = true) :
    execLoadValueReturn op s = .next (((s.afterReply o (now.boundAs o.d o.ring)).lateTraps o).tryEnd o.g) := by
  have hid : o.id = op := by simpa using List.find?_some ho
  have room : (decide (o.words ≠ 0) && !(s.dstRoom (now.boundAs o.d o.ring) o.w { op := o.d, n := o.words }
      (if ((o.parts.filter fun p => !p.fault).filterMap (·.pos)).isEmpty then (maskList o.tmask).take 1
        else (o.parts.filter fun p => !p.fault).filterMap (·.pos)))) = false := by simpa using hroom
  simp only [execLoadValueReturn, ho, hnow, hdone, htrap, hring, room, Bool.not_true, Bool.or_false, Bool.false_eq_true, if_false]
  rw [foldl_mem_congr (g := fun t p => t.writePart o (now.boundAs o.d o.ring) p)
    (by intro t p _; cases hp : p.pos <;> simp only [State.writePart, hp, Option.getD])]
  by_cases hsilent : o.words = 0 ∨ o.d = .vz
  · have : (decide (o.words = 0) || decide (o.d = .vz)) = true := by simpa using hsilent
    simp only [State.afterReply, this, hsilent, hid, if_true]
  · have : (decide (o.words = 0) || decide (o.d = .vz)) = false := by simpa using hsilent
    simp only [State.afterReply, this, hsilent, hid, Bool.false_eq_true, if_false]

/-! ### Walks -/

section Walk
variable {s : State} {w : Walk} {g : Group} {c : Ctx}

/-- A walk leaves its walker, and its reads of the tables reach their sectors. -/
def State.walkEnds (s : State) (w : Walk) (c : Ctx) : State :=
  ({ s with mem := { s.mem with walks := s.mem.walks.filter fun q => q.id ≠ w.id } } : State).walkRead c w.va.toNat

variable (hg : s.group? w.g = some g) (hc : s.ctx? g.ctx = some c)
include hg hc

theorem endWalk_found {e : TlbEntry} (he : (s.walkEnds w c).mem.walk c.num c.ptRoot.toNat w.va.toNat = .ok e) :
    s.endWalk w = { s.walkEnds w c with mem := (s.walkEnds w c).mem.hold g.via e } := by
  have hg' (m : Memory) : ({ s with mem := m } : State).group? w.g = some g := hg
  have hc' (m : Memory) : ({ s with mem := m } : State).ctx? g.ctx = some c := hc
  unfold State.walkEnds at he ⊢
  simp only [State.endWalk, hg', hc', he]

/-- The walk failed, and no earlier access of the threads that wait for it is under way: they trap. -/
theorem endWalk_failed {err : WalkErr} {r : PathRef} (herr : (s.walkEnds w c).mem.walk c.num c.ptRoot.toNat w.va.toNat = .error err)
    (hpath : (s.walkEnds w c).pathOf w.g w.w w.access w.tmask = some r) (hunder : (s.walkEnds w c).underWay w.g w.w w.access w.tmask = false) :
    let f := walkFault w.va.toNat w.write err
    s.endWalk w = ((s.walkEnds w c).fault r w.tmask f.1 0 f.2.1 f.2.2).settle w.g w.w := by
  have hg' (m : Memory) : ({ s with mem := m } : State).group? w.g = some g := hg
  have hc' (m : Memory) : ({ s with mem := m } : State).ctx? g.ctx = some c := hc
  unfold State.walkEnds at herr hpath hunder ⊢
  simp only [State.endWalk, hg', hc', herr, hpath, hunder, Bool.false_eq_true, if_false]

omit hc in
theorem execPageWalkComplete_arrives {walk : Nat} {t : State} (hw : s.mem.walks.find? (fun w => w.id = walk) = some w)
    (hwalker : s.hasWalker w (dieOf g.core) = true) (ht : s.endWalk w = t) (harr : s.arrives (0, walk) 0 t) :
    execPageWalkComplete walk s = .next (t.arrive (0, walk)) := by
  simp only [execPageWalkComplete, hw, hg, hwalker, if_true]
  exact attempt_arrives (congrArg _ ht) harr

end Walk

/-! ### The obligation -/

/-- Settles O34: each event's conditions choose the branch of its meaning in which it happens; a walk that ends is an attempt that
arrives. -/
theorem memoryEventsComplete : Obligations.MemoryEventsComplete := by
  refine ⟨fun old sector s r hr hold heng => ⟨fun hturn hask => exec_serves hr hold (tryServe_asks heng hturn hask),
      fun hturn hmiss hrow => exec_serves hr hold (tryServe_performs heng hturn hmiss hrow),
      fun hcol hmiss => (exec_serves hr hold (tryServe_turns heng hcol hmiss)).trans ?_⟩,
    fun sector s hzero hturn => execOrientationTurnComplete_turned hzero hturn, fun sector s hheld hlock => ?_,
    fun op s o now ho hnow hdone hring htrap hroom => ?_,
    fun walk s w g c hw hg hc hwalker => ⟨
      fun e he harr => execPageWalkComplete_arrives hg hw hwalker (endWalk_found hg hc he) harr,
      fun err r herr hpath hunder harr => execPageWalkComplete_arrives hg hw hwalker (endWalk_failed hg hc herr hpath hunder) harr⟩,
    fun fill s f hf => ⟨fun bs hbs => ?_, ?_, fun hage => ?_⟩,
    fun write s w hw => ⟨?_, ?_, fun hage => ?_⟩,
    fun id s v hv hopen => ?_, fun id s x c v acls agent hx hready hbehind hby hc => ?_⟩
  · simp only [State.startTurn, mapIf, decide_eq_true_eq]
  · show execSectorEviction sector s = _
    simp [execSectorEviction, hheld, hlock]
  · have hid : o.id = op := by simpa using List.find?_some ho
    subst hid
    exact execLoadValueReturn_replied ho hnow hdone (trapsEarly_eq_false htrap) (ring_free hring) hroom
  · show execHostFillComplete fill (some bs) s = _
    simp only [execHostFillComplete, hf, hbs, if_true]
  · show execHostFillComplete fill none s = _
    simp only [execHostFillComplete, hf]
  · show execHostFillTimeout fill s = _
    simp only [execHostFillTimeout, hf, hage, if_true]
  · show execHostWriteAnswer write true s = _
    simp only [execHostWriteAnswer, hw, if_true]
  · show execHostWriteAnswer write false s = _
    simp [execHostWriteAnswer, hw]
  · show execHostWriteTimeout write s = _
    simp only [execHostWriteTimeout, hw, hage, if_true]
  · show execTlbinvComplete id s = _
    simp [execTlbinvComplete, hv, hopen, mapIf]
  · show execWbStallRetry id s = _
    simp [execWbStallRetry, hx, hready, hbehind, hby, hc]

end Sys2Proof.Machine
end

section
/-! PROOFS. What the engines, the matrix units and the kilns do by themselves (R79, R81, R182, R281 to R287, R296 to R304, R307, R310 to R319,
R387, R461, R463). -/

namespace Sys2Proof.Machine

/-! ### Commands of the copy engines -/

section Copy
variable {s : State} {cmd : Nat} {k : Cmd}

theorem cmd_updCmd (s : State) (n : Nat) (f : Cmd → Cmd) (hf : ∀ k, (f k).id = k.id) (j : Nat) :
    (s.updCmd n f).cmd? j = if j = n then (s.cmd? j).map f else s.cmd? j := find_mapIf Cmd.id n j f hf s.copies

theorem cmd_id (hk : s.cmd? cmd = some k) : k.id = cmd := by simpa using List.find?_some hk

theorem not_pauses_of_runs (h : s.cmdRuns k = true) : s.cmdPauses k = false := by
  have running : ∀ c, s.ctx? k.ctx = some c → c.run = .running := by
    intro c hc
    simp only [State.cmdRuns, State.cmdLives, hc, Bool.and_eq_true, decide_eq_true_eq] at h
    obtain ⟨⟨⟨_, hrun⟩, _⟩, _⟩ := h
    exact hrun
  cases hc : s.ctx? k.ctx with
  | none => simp [State.cmdPauses, hc]
  | some c => simp [State.cmdPauses, hc, running c hc]

theorem not_stalled_of_runs (h : s.cmdRuns k = true) : s.cmdStalled k.id = false := by
  simp only [State.cmdRuns, Bool.and_eq_true, Bool.not_eq_true'] at h
  obtain ⟨⟨_, hstall⟩, _⟩ := h
  exact hstall

theorem execOwnershipRecallComplete_writes {line place : Nat} (hk : s.cmd? cmd = some k)
    (howned : k.owned.find? (fun o => o.2 = line) = some (place, line))
    (hgoes : s.cmdRuns k = true ∨ s.cmdPauses k = true ∧ k.within place = true) (hfirst : s.earlierOwner k.taken line = false)
    (harr : s.arrives (cmdKey cmd) 3 ((s.begin_ k).writePlace cmd place).1) :
    execOwnershipRecallComplete cmd line s = .next (((s.begin_ k).writePlace cmd place).1.arrive (cmdKey cmd)) := by
  have goes : (s.cmdRuns k || s.cmdPauses k && k.within place) = true := by simpa using hgoes
  simp only [execOwnershipRecallComplete, hk, howned, goes, hfirst, Bool.not_false, Bool.and_self, if_true]
  exact attempt_arrives rfl harr

/-- A running command that no earlier owner stands before and that is not through works on its window. -/
theorem execOwnershipWindow_works {t : State} (hk : s.cmd? cmd = some k) (hruns : s.cmdRuns k = true)
    (hfirst : k.read = true → ∀ o, k.owned.head? = some o → s.earlierOwner k.taken o.2 = false)
    (hleft : k.read = true → k.owned = [] → k.lines + windowLines < k.image.length)
    (ht : ((s.begin_ k).workOn cmd (match (s.begin_ k).cmd? cmd with | some k => k.owned.map (·.1) | none => [])).nextWindow cmd = t)
    (harr : s.arrives (cmdKey cmd) 3 t) : execOwnershipWindow cmd s = .next (t.arrive (cmdKey cmd)) := by
  have through : (k.read && k.owned.isEmpty && k.again.isEmpty && k.image.length ≤ k.lines + windowLines && k.halt.isNone) = false := by
    by_cases h : k.read = true ∧ k.owned = []
    · have : ¬ k.image.length ≤ k.lines + windowLines := Nat.not_le.mpr (hleft h.1 h.2)
      simp [this]
    · have : (k.read && k.owned.isEmpty) = false := by simpa using h
      simp [this]
  have attempted := attempt_arrives (run := fun s => .next
    (((s.begin_ k).workOn cmd (match (s.begin_ k).cmd? cmd with | some k => k.owned.map (·.1) | none => [])).nextWindow cmd)) (congrArg _ ht) harr
  cases hown : k.owned.head? with
  | none =>
    simp only [execOwnershipWindow, hk, not_pauses_of_runs hruns, hruns, through, hown, Bool.not_true, Bool.or_self, Bool.false_eq_true, if_false]
    exact attempted
  | some o =>
    have behind : (k.read && k.again.isEmpty && k.halt.isNone && s.earlierOwner k.taken o.2) = false := by
      cases hread : k.read with
      | false => rfl
      | true => simp [hfirst hread o hown]
    simp only [execOwnershipWindow, hk, not_pauses_of_runs hruns, hruns, through, hown, behind, Bool.not_true, Bool.or_self, Bool.false_eq_true,
      if_false]
    exact attempted

/-- A command in progress. -/
def Cmd.started (k : Cmd) : Cmd := { k with st := .running }

/-- A command in progress that neither replays nor halts writes lines of its window. -/
theorem workOn_eq_writeWindow {places : List Nat} (hk : s.cmd? cmd = some k) (hst : k.st = .running) (hstall : s.cmdStalled cmd = false)
    (hhalt : k.halt = none) (hagain : k.again = []) :
    s.workOn cmd places = s.writeWindow cmd ((k.owned.map (·.1)).filter fun p => places.contains p || !k.read) := by
  cases hbase : (s.ctx? k.ctx).bind s.spillHome <;>
    simp only [State.workOn, hk, Option.bind_some, hbase, hagain, List.isEmpty_nil, hst, hstall, hhalt, bne_self_eq_false, Bool.or_self,
      Bool.false_eq_true, if_true, if_false]

/-- A command that has read its source, and neither replays nor halts, writes what is left of its window. -/
theorem workOn_writes (hk : s.cmd? cmd = some k) (hruns : s.cmdRuns k = true) (hread : k.read = true) (hhalt : k.halt = none)
    (hagain : k.again = []) :
    (s.begin_ k).workOn cmd (match (s.begin_ k).cmd? cmd with | some k => k.owned.map (·.1) | none => []) =
      (s.updCmd cmd Cmd.started).writeWindow cmd (k.owned.map (·.1)) := by
  have begun : s.begin_ k = s.updCmd cmd Cmd.started := by rw [State.begin_, if_pos hread, cmd_id hk]; rfl
  have hk' : (s.updCmd cmd Cmd.started).cmd? cmd = some k.started := by
    rw [cmd_updCmd s cmd Cmd.started (fun _ => rfl) cmd, if_pos rfl, hk, Option.map_some]
  have going : (s.updCmd cmd Cmd.started).cmdStalled cmd = false := by
    have := not_stalled_of_runs hruns
    rwa [cmd_id hk] at this
  have all : (k.owned.map (·.1)).filter (fun p => (k.owned.map (·.1)).contains p || !k.read) = k.owned.map (·.1) := by
    rw [List.filter_eq_self]
    intro p hp
    rw [List.contains_iff_mem.mpr hp, Bool.true_or]
  rw [begun, hk']
  exact (workOn_eq_writeWindow hk' rfl going hhalt hagain).trans (congrArg _ all)

theorem execOwnershipWindow_pauses (hk : s.cmd? cmd = some k) (hpause : s.cmdPauses k = true) (hpart : s.atBoundary k = false)
    (hplaces : (k.owned.map (·.1)).filter k.within ≠ [])
    (harr : s.arrives (cmdKey cmd) 3 (s.writeWindow cmd ((k.owned.map (·.1)).filter k.within))) :
    execOwnershipWindow cmd s = .next ((s.writeWindow cmd ((k.owned.map (·.1)).filter k.within)).arrive (cmdKey cmd)) := by
  have some_place : ((k.owned.map (·.1)).filter k.within).isEmpty = false := by simpa using hplaces
  simp only [execOwnershipWindow, hk, hpause, hpart, some_place, Bool.or_self, Bool.false_eq_true, if_false, if_true]
  exact attempt_arrives rfl harr

theorem execCopyCommandAccept_room {r : PathRef} {g : Group} {p : Path} {w : Wait} (hw : s.waiting r .ready = some (g, p, w)) (hkind : w.kind = 6)
    (hroom : (s.copyRoom g).isSome = true) : execCopyCommandAccept r s = .next (s.updPath r fun p => { p with wait := none }) := by
  simp only [execCopyCommandAccept, hw, hkind, hroom, decide_true, Bool.and_self, if_true]

/-- A command is through: every line is written and none is spilled, replayed or halted at, and it can go on (R281, R288). -/
structure State.Through (s : State) (k : Cmd) : Prop where
  running : k.st = .running
  read : k.read = true
  written : k.owned = []
  last : k.image.length ≤ k.lines + windowLines
  whole : k.halt = none
  kept : k.spilled = 0
  replayed : k.again = []
  goes : s.cmdRuns k = true

theorem State.Through.cond (h : s.Through k) : (k.st = .running && k.read && k.owned.isEmpty && k.image.length ≤ k.lines + windowLines &&
    k.halt.isNone && k.spilled = 0 && k.again.isEmpty && s.cmdRuns k) = true := by
  obtain ⟨running, read, written, last, whole, kept, replayed, goes⟩ := h
  simp [running, read, written, last, whole, kept, replayed, goes]

theorem execCopyComplete_advances {t : State} (hk : s.cmd? cmd = some k) (h : s.Through k) (hadd : s.addWaits k = false)
    (ht : (let u := ((s.dropCmd cmd).count 2 k.engine 1 1).count 2 k.engine 2 k.count
      (match k.ctr, u.group? k.g with | some a, some g => u.advanceOf g k.csp a k.count 2 k.engine | _, _ => u).tryEnd k.g) = t)
    (harr : s.arrives (cmdKey cmd) 3 t) : execCopyComplete cmd s = .next (t.arrive (cmdKey cmd)) := by
  simp only [execCopyComplete, hk, h.cond, hadd, Bool.false_eq_true, if_true, if_false]
  exact attempt_arrives (congrArg _ ht) harr

theorem execCopyComplete_waits (hk : s.cmd? cmd = some k) (h : s.Through k) (hadd : s.addWaits k = true) :
    execCopyComplete cmd s = .next (let u := s.fresh.1
      { u with mem := { u.mem with stalls := u.mem.stalls ++
        [{ id := s.stamp, ctx := k.ctx, va := k.ctr.getD 0, by_ := .copy k.id, ready := false }] } }) := by
  simp only [execCopyComplete, hk, h.cond, hadd, if_true]
  rfl

end Copy

/-! ### Matrix units -/

section Matrix
variable {g slot : Nat} {s : State} {q : Group} {c : Ctx} {o : MatOp}

theorem execMatrixOpComplete_ready (ho : s.matReady g slot [.mma, .mmd] = some (q, c, o))
    (harr : s.arrives (MatOp.key5 o) 2 ((s.chunkSteps g slot (o.chunks - o.chunk)).endMat q o)) :
    execMatrixOpComplete g slot s = .next (((s.chunkSteps g slot (o.chunks - o.chunk)).endMat q o).arrive (MatOp.key5 o)) := by
  simp only [execMatrixOpComplete, ho]
  exact attempt_arrives rfl harr

theorem execTileTransferComplete_ready (ho : s.matReady g slot [.tld, .tst] = some (q, c, o))
    (hfirst : ∀ l ∈ o.stLines q, s.earlierOwner o.stamp l = false)
    (harr : s.arrives (MatOp.key5 o) 2 ((if o.kind = .tld then s.runTld q o else s.runTst q o).endMat q o)) :
    execTileTransferComplete g slot s =
      .next (((if o.kind = .tld then s.runTld q o else s.runTst q o).endMat q o).arrive (MatOp.key5 o)) := by
  have first : (o.stLines q).any (s.earlierOwner o.stamp) = false := by simpa using hfirst
  simp only [execTileTransferComplete, ho, first, Bool.false_eq_true, if_false]
  exact attempt_arrives rfl harr

end Matrix

/-! ### The governor -/

theorem govCycle_length (cap used : Nat) (us : List GovUnit) : (govCycle cap used us).2.length = us.length := by
  induction us generalizing used with
  | nil => rfl
  | cons u us ih =>
    unfold govCycle
    split
    · simp [ih]
    · split <;> simp [ih]

theorem govWindow_length (cap n used : Nat) (us : List GovUnit) : (govWindow cap n used us).length = us.length := by
  induction n generalizing used us with
  | zero => rfl
  | succ n ih => rw [govWindow, ih, govCycle_length]

/-- A unit of a core with its operation and its state as the window ends, and what it had left and has. -/
abbrev UnitEnd := (Nat × Option (Group × MatOp) × UnitSt) × GovUnit × GovUnit

/-- The end of a window at one unit: what it worked on has the cycles that are left, and its grant ends. -/
def State.endUnit (core : Nat) (s : State) : UnitEnd → State
  | ((u, o, st), (b, a)) =>
    if st.grant.isNone then s
    else
      let s := match o with
        | some (g, o) => s.updGroup g.key (fun g => { g with ops := mapIf (fun q => q.slot = o.slot) (fun q => { q with left := a.left }) g.ops })
        | none => s
      let held := if b.left ≠ 0 && a.left = b.left then st.held + 1 else 0
      { s with cores := { s.cores with units := sset ⟨none, 0⟩ s.cores.units (4 * core + u) ⟨none, held⟩ } }

theorem endUnit_leaves (core : Nat) (s : State) (w : UnitEnd) :
    (s.endUnit core w).mem = s.mem ∧ (s.endUnit core w).cores.stall = s.cores.stall := by
  obtain ⟨⟨u, o, st⟩, b, a⟩ := w
  unfold State.endUnit
  dsimp only
  split
  · exact ⟨rfl, rfl⟩
  · cases o <;> exact ⟨rfl, rfl⟩

/-- Only the units of which a grant ends change, and they hold none after it. -/
theorem endUnit_unitSt (core : Nat) (s : State) (w : UnitEnd) (v : Nat) : ∃ held, (s.endUnit core w).unitSt core v =
    if w.1.2.2.grant.isSome ∧ v = w.1.1 then ⟨none, held⟩ else s.unitSt core v := by
  obtain ⟨⟨u, o, st⟩, b, a⟩ := w
  cases hgrant : st.grant with
  | none => exact ⟨0, by simp [State.endUnit, hgrant]⟩
  | some n =>
    refine ⟨if b.left ≠ 0 && a.left = b.left then st.held + 1 else 0, ?_⟩
    cases o <;> simp [State.endUnit, State.unitSt, hgrant, sget_sset]

theorem endUnit_grant_of_none (core : Nat) (s : State) (w : UnitEnd) {v : Nat} (h : (s.unitSt core v).grant = none) :
    ((s.endUnit core w).unitSt core v).grant = none := by
  obtain ⟨held, e⟩ := endUnit_unitSt core s w v
  rw [e]
  split
  · rfl
  · exact h

theorem endUnit_grant_of_some (core : Nat) (s : State) (w : UnitEnd) (h : w.1.2.2.grant.isSome) :
    ((s.endUnit core w).unitSt core w.1.1).grant = none := by
  obtain ⟨held, e⟩ := endUnit_unitSt core s w w.1.1
  rw [e, if_pos ⟨h, rfl⟩]

/-- The units of a core as a window ends, with what the window leaves of their work. -/
def State.unitEnds (s : State) (core : Nat) (after : List GovUnit) : List UnitEnd :=
  ((List.range 4).map fun u => (u, s.unitOp core u, s.unitSt core u)).zip ((s.govUnits core).zip after)

theorem mem_unitEnds {s : State} {core v : Nat} {after : List GovUnit} (hlen : after.length = 4) (hv : v < 4) :
    ∃ b a, ((v, s.unitOp core v, s.unitSt core v), (b, a)) ∈ s.unitEnds core after := by
  have hunits : (s.govUnits core).length = 4 := by simp [State.govUnits]
  have hl : v < (s.unitEnds core after).length := by simp [State.unitEnds, hunits, hlen, hv]
  refine ⟨(s.govUnits core)[v]'(by omega), after[v], ?_⟩
  have e : (s.unitEnds core after)[v] = ((v, s.unitOp core v, s.unitSt core v), ((s.govUnits core)[v]'(by omega), after[v])) := by
    simp [State.unitEnds]
  exact e ▸ List.getElem_mem hl

theorem foldl_endUnit_leaves (l : List UnitEnd) (core : Nat) (s : State) :
    (l.foldl (State.endUnit core) s).mem = s.mem ∧ (l.foldl (State.endUnit core) s).cores.stall = s.cores.stall :=
  List.foldlRecOn l (State.endUnit core) (motive := fun t : State => t.mem = s.mem ∧ t.cores.stall = s.cores.stall) ⟨rfl, rfl⟩
    fun t ⟨hmem, hstall⟩ w _ => ⟨(endUnit_leaves core t w).1.trans hmem, (endUnit_leaves core t w).2.trans hstall⟩

/-- No unit of the core keeps its grant past the window. -/
theorem foldl_endUnit_grant {s : State} {core v : Nat} {after : List GovUnit} (hlen : after.length = 4) (hv : v < 4) :
    (((s.unitEnds core after).foldl (State.endUnit core) s).unitSt core v).grant = none := by
  have kept (l : List UnitEnd) (t : State) (h : (t.unitSt core v).grant = none) :
      ((l.foldl (State.endUnit core) t).unitSt core v).grant = none :=
    List.foldlRecOn l (State.endUnit core) (motive := fun t : State => (t.unitSt core v).grant = none) h
      fun t h w _ => endUnit_grant_of_none core t w h
  cases hgrant : (s.unitSt core v).grant with
  | none => exact kept _ s hgrant
  | some n =>
    obtain ⟨b, a, hmem⟩ := mem_unitEnds (s := s) (core := core) hlen hv
    obtain ⟨l, r, hsplit⟩ := List.append_of_mem hmem
    rw [hsplit, List.foldl_append, List.foldl_cons]
    exact kept r _ (endUnit_grant_of_some core _ ((v, s.unitOp core v, s.unitSt core v), (b, a)) (by simp [hgrant]))

/-- What a window leaves of a core, whose units have `after` left of what they worked on. -/
def State.governed (s : State) (core : Nat) (after : List GovUnit) : State :=
  let t := (s.unitEnds core after).foldl (State.endUnit core) s
  { t with cores := { t.cores with
    stall := sset 0 t.cores.stall core (sget 0 t.cores.stall core + BitVec.ofNat 64 (after.foldl (fun n u => n + u.stall) 0)) } }

theorem governed_mem (s : State) (core : Nat) (after : List GovUnit) : (s.governed core after).mem = s.mem :=
  (foldl_endUnit_leaves (s.unitEnds core after) core s).1

theorem governed_stall (s : State) (core : Nat) (after : List GovUnit) : sget 0 (s.governed core after).cores.stall core =
    sget 0 s.cores.stall core + BitVec.ofNat 64 (after.foldl (fun n u => n + u.stall) 0) := by
  rw [State.governed, sget_sset_same, (foldl_endUnit_leaves (s.unitEnds core after) core s).2]

theorem governed_grant {s : State} {core : Nat} {after : List GovUnit} (hlen : after.length = 4) {v : Nat} (hv : v < 4) :
    ((s.governed core after).unitSt core v).grant = none :=
  foldl_endUnit_grant hlen hv

theorem execGovernorWindow_works {s : State} {core u : Nat} {g : Group} {o : MatOp} (hu : u < 4) (ho : s.unitOp core u = some (g, o))
    (hleft : 0 < o.left) (hgrant : (s.unitSt core u).grant.isSome = true) (hwindow : sget 0 s.cores.coreWindow core < s.coreWindow core) :
    execGovernorWindow core s = .next (s.governed core
      (govWindow (powerCap (sget 0 s.cores.diePower (dieOf core)) (sget 256 s.cores.cap core)) 64 0 (s.govUnits core))) := by
  simp only [execGovernorWindow]
  rw [if_neg (α := Result), foldl_mem_congr (g := State.endUnit core) (by intro t w _; rfl)]
  · simp only [State.governed, State.unitEnds]
  · rw [Bool.or_eq_true, not_or, Bool.not_eq_true', Bool.not_eq_false, List.any_eq_true]
    exact ⟨⟨(u, s.unitOp core u, s.unitSt core u), List.mem_map.mpr ⟨u, List.mem_range.mpr hu, rfl⟩, by simp [ho, hleft, hgrant]⟩,
      by simpa using hwindow⟩

/-! ### The die budget -/

theorem execDieBudgetWindow_grants {die : Nat} {s : State} (hasks : s.asks die ≠ []) (hwindow : sget 0 s.cores.dieWindow die ≤ s.dieWindow) :
    let t := ((s.asks die).foldl (fun (x : State × Nat) a =>
      let n := min a.want (x.2 / (a.toggle + 64))
      ({ x.1 with cores := { x.1.cores with
          units := sset ⟨none, 0⟩ x.1.cores.units (4 * a.core + a.unit) ⟨some n, a.held⟩
          coreWindow := sset 0 x.1.cores.coreWindow a.core (x.1.coreWindow a.core) } },
        x.2 - n * (a.toggle + 64))) (s, dieBudget s.dev.power)).1
    execDieBudgetWindow die s = .next { t with cores := { t.cores with
      dieWindow := sset 0 t.cores.dieWindow die (s.dieWindow + 1)
      diePower := sset 0 t.cores.diePower die s.dev.power } } := by
  have asked : (s.asks die).isEmpty = false := by simpa using hasks
  simp only [execDieBudgetWindow, asked, Nat.not_lt.mpr hwindow, decide_false, Bool.or_self, Bool.false_eq_true, if_false]

/-! ### Kiln units -/

section Kiln
variable {die : Nat} {s t u : State} {o : KOp} {g : Group} {c : Ctx} {k : KilnBind}

/-- What a unit does for its next instruction; none where it cannot be performed yet. -/
def State.runKiln (s : State) (o : KOp) (g : Group) (c : Ctx) : Option State :=
  match o.instr, o.bind with
  | .kstep _, some k => s.runKstep c g.kilnAt o k
  | .ksig _, some k => s.runKsig g c g.kilnAt o k
  | .ktest x, some k => s.runKtest g c o k x.d
  | _, _ => none

theorem execKilnOperation_performs (hhead : s.kilnHead die = some (o, g, c)) (hrun : s.runKiln o g c = some t) (ht : t.stepKiln o = u)
    (harr : s.arrives (6, o.id) 2 u) : execKilnOperation die s = .next (u.arrive (6, o.id)) := by
  simp only [execKilnOperation, hhead]
  refine attempt_arrives ?_ harr
  show (match s.runKiln o g c with | some s => .next (s.stepKiln o) | none => notNow s) = Host.Outcome.next u
  rw [hrun, ← ht]

/-- An instruction leaves its unit once it is performed, a KTEST with its last key. -/
theorem stepKiln_leaves (t : State) (h : (∀ x, o.instr ≠ .ktest x) ∨ o.args.length ≤ 1) :
    t.stepKiln o = (t.count 3 o.die 0 1).dropKiln o := by
  unfold State.stepKiln
  split
  · next x a b rest hinstr hargs =>
    rcases h with h | h
    · exact absurd hinstr (h x)
    · simp [hargs] at h
  · rfl

/-- A KTEST with further keys stays, with those. -/
theorem stepKiln_stays (t : State) {x : OpDA} (hinstr : o.instr = .ktest x) (hargs : 1 < o.args.length) :
    t.stepKiln o = { t with kops := t.kops.map fun q => if q.id = o.id then { q with args := o.args.tail } else q } := by
  match hsplit : o.args with
  | [] | [_] => simp [hsplit] at hargs
  | _ :: _ :: _ => simp only [State.stepKiln, hinstr, hsplit, mapIf, decide_eq_true_eq, List.tail_cons]

theorem execKendComplete_advances {x : KendOps} {pos : Option Nat} {a key : W64} {rest : List (Option Nat × W64 × W64)}
    (hhead : s.kilnHead die = some (o, g, c)) (hinstr : o.instr = .kend x) (hargs : o.args = (pos, a, key) :: rest)
    (harr : s.arrives (6, o.id) 2 (((if x.d = .vz then s else s.advanceOf g x.csp a 1 4 die).count 3 die 0 1).dropKiln o)) :
    execKendComplete die s =
      .next ((((if x.d = .vz then s else s.advanceOf g x.csp a 1 4 die).count 3 die 0 1).dropKiln o).arrive (6, o.id)) := by
  simp only [execKendComplete, hhead, hinstr, hargs]
  exact attempt_arrives rfl harr

end Kiln

/-! ### The obligation -/

/-- Settles O35: each event's conditions choose the branch of its meaning in which it happens, and what reaches sectors is an attempt
that arrives. -/
theorem engineEventsComplete : Obligations.EngineEventsComplete := by
  refine ⟨fun cmd line s k place hk howned hgoes hfirst harr => execOwnershipRecallComplete_writes hk howned hgoes hfirst harr,
    fun cmd s k hk hruns hread harr => execOwnershipWindow_works hk hruns (by simp [hread]) (by simp [hread]) rfl harr,
    fun cmd s k hk hruns hread hhalt hagain hfirst hleft harr =>
      execOwnershipWindow_works hk hruns (fun _ => hfirst) (fun _ hnone => hleft.resolve_left (absurd hnone))
        (congrArg (State.nextWindow · cmd) (workOn_writes hk hruns hread hhalt hagain)) harr,
    fun cmd s k hk hpause hpart hplaces harr => execOwnershipWindow_pauses hk hpause hpart hplaces harr,
    fun r s g p w hw hkind hroom => execCopyCommandAccept_room hw hkind hroom,
    fun cmd s k hk hst hread howned hlast hhalt hkept hagain hruns => ?_,
    fun g slot s q c o ho harr => execMatrixOpComplete_ready ho harr,
    fun g slot s q c o ho hfirst harr => execTileTransferComplete_ready ho hfirst harr,
    fun core s g o u hu ho hleft hgrant hwindow =>
      ⟨_, execGovernorWindow_works hu ho hleft hgrant hwindow, governed_mem _ _ _, fun v hv => governed_grant (govWindow_length _ _ _ _) hv,
        governed_stall _ _ _⟩,
    fun die s hasks hwindow => execDieBudgetWindow_grants hasks hwindow,
    fun die s o g c k t hhead hbind => ⟨fun x hx ht harr => ?_, fun x hx ht harr => ?_,
      fun x hx ht => ⟨fun hlast harr => ?_, fun hmore harr => ?_⟩⟩,
    fun die s o g c x pos a key rest hhead hx hargs harr => execKendComplete_advances hhead hx hargs harr⟩
  · have through : s.Through k := ⟨hst, hread, howned, hlast, hhalt, hkept, hagain, hruns⟩
    exact ⟨fun hadd harr => execCopyComplete_advances hk through hadd rfl harr, execCopyComplete_waits hk through⟩
  · exact execKilnOperation_performs hhead (by simp only [State.runKiln, hx, hbind, ht]) (stepKiln_leaves t (.inl (by simp [hx]))) harr
  · exact execKilnOperation_performs hhead (by simp only [State.runKiln, hx, hbind, ht]) (stepKiln_leaves t (.inl (by simp [hx]))) harr
  · exact execKilnOperation_performs hhead (by simp only [State.runKiln, hx, hbind, ht]) (stepKiln_leaves t (.inr hlast)) harr
  · exact execKilnOperation_performs hhead (by simp only [State.runKiln, hx, hbind, ht]) (stepKiln_stays t hx hmore) harr

end Sys2Proof.Machine
end

section
/-! PROOFS. What starts work: the commands CTXNEW, ROOTGO and SEQGO (R86, R346, R365, R370, R382, R383). -/

namespace Sys2Proof.Machine

/-! ### What leaves the control node's mail alone -/

/-- The commands that wait in the inbox, and the replies given so far (R382, R383). -/
def State.mail (s : State) : List (Nat × Instr) × List Reply := (s.dev.inbox, s.dev.replies)

section Mail
variable (s : State)

@[simp] theorem mail_updCtx (n : Nat) (f : Ctx → Ctx) : (s.updCtx n f).mail = s.mail := rfl
@[simp] theorem mail_updGroup (k : Nat) (f : Group → Group) : (s.updGroup k f).mail = s.mail := rfl

@[simp] theorem mail_served (x cls : Nat) (turned : Bool) : (s.served x cls turned).mail = s.mail := by
  unfold State.served
  split <;> rfl

@[simp] theorem mail_spark (src tag : Nat) : (s.spark src tag).1.mail = s.mail := by
  unfold State.spark
  dsimp only
  split <;> rfl

/-- A fold over values that hold a state, which `st` reads. -/
theorem mail_foldl {α β : Type} (st : β → State) (l : List α) {f : β → α → β} (hf : ∀ b a, (st (f b a)).mail = (st b).mail) (b : β) :
    (st (l.foldl f b)).mail = (st b).mail :=
  List.foldlRecOn l f (motive := fun x => (st x).mail = (st b).mail) rfl fun x hx a _ => (hf x a).trans hx

@[simp] theorem mail_holdRange (c : Ctx) (va n : Nat) (via : Option TlbPlace) : (s.holdRange c va n via).mail = s.mail :=
  mail_foldl id _ (fun t p => by dsimp only [id]; split <;> rfl) s

@[simp] theorem mail_watchAny (r w : Bool) (ps : List (Nat × Nat)) (cls agent : Nat) : (s.watchAny r w ps cls agent).1.mail = s.mail := by
  refine mail_foldl Prod.fst s.ctxs (fun b c => mail_foldl Prod.fst _ (fun b w => ?_) b) (s, none)
  dsimp only
  split
  · split <;> simp
  · rfl

@[simp] theorem mail_watch (r w : Bool) (pa n cls agent : Nat) : (s.watch r w pa n cls agent).1.mail = s.mail :=
  mail_watchAny s r w _ cls agent

@[simp] theorem mail_ctrPut (l : CtrLoc) (o : Nat) (bs : List Byte) (bad : Bool) : (s.ctrPut l o bs bad).mail = s.mail := by
  cases l <;> rfl

@[simp] theorem mail_ctrAdd (l : CtrLoc) (v : Nat) : (s.ctrAdd l v).1.mail = s.mail := by
  unfold State.ctrAdd
  dsimp only
  split <;> exact mail_ctrPut ..

@[simp] theorem mail_deviceAdd (ctx va v acls agent : Nat) (via : Option TlbPlace) :
    (s.deviceAdd ctx va v acls agent via).1.mail = s.mail := by
  unfold State.deviceAdd
  split
  · rfl
  split
  · rfl
  split
  · rfl
  · dsimp only
    split <;> simp

@[simp] theorem mail_writePieces (ps : List (Nat × Nat)) (bs : List Byte) (bad : Bool) : (s.writePieces ps bs bad).mail = s.mail := by
  induction ps generalizing s bs with
  | nil => rfl
  | cons p ps ih => exact ih _ _

@[simp] theorem mail_deviceStore (c : Ctx) (va : Nat) (bs : List Byte) (k : Option W64) (raise : Bool) :
    (s.deviceStore c va bs k raise).1.mail = s.mail := by
  unfold State.deviceStore
  cases s.range? c plainW none (piecesOf va bs.length) with
  | none => cases k <;> simp [apply_ite State.mail]
  | some ps => cases k <;> simp [apply_ite State.mail]

@[simp] theorem mail_deviceWrite (c : Ctx) (va : Nat) (bs : List Byte) (k : Option W64) (raise : Bool) :
    (s.deviceWrite c va bs k raise).1.mail = s.mail := by
  unfold State.deviceWrite
  dsimp only
  split
  · rfl
  · exact mail_deviceStore ..

/-- An error message goes to the node beside its replies. -/
@[simp] theorem mail_messages (m : List (List Byte)) : ({ s with dev := { s.dev with messages := m } } : State).mail = s.mail := rfl

@[simp] theorem mail_putRecord (e : ErrRec) : (s.putRecord e).1.mail = s.mail := by
  unfold State.putRecord
  dsimp only
  split
  · simp
  split
  · simp
  · dsimp only
    split <;> simp

@[simp] theorem mail_emit (e : ErrRec) : (s.emit e).1.mail = s.mail := by
  unfold State.emit
  dsimp only
  split <;> simp

@[simp] theorem mail_patch (ctx ticket : Nat) (f : Nat → Nat) : (s.patch ctx ticket f).mail = s.mail := by
  unfold State.patch
  split
  · rfl
  split
  · rfl
  · dsimp only
    split <;> simp

theorem mail_folds {t : State} {ctx : Nat} (h : s.folds ctx = some t) : t.mail = s.mail := by
  unfold State.folds at h
  split at h
  · cases h; rfl
  split at h
  · split at h
    · dsimp only at h
      split at h <;> cases h <;> simp
    · cases h
  · cases h

@[simp] theorem mail_report (e : ErrRec) : (s.report e).mail = s.mail := by
  unfold State.report
  split
  · exact mail_folds s ‹_›
  · exact mail_emit s e

/-! ### Launches -/

@[simp] theorem mail_putAttr (c : Ctx) (a : Nat) (bs : List Byte) (l : CtrLoc) : (s.putAttr c a bs l).mail = s.mail := by
  unfold State.putAttr
  split
  · rfl
  · exact mail_ctrPut ..

@[simp] theorem mail_markCounter (ctx : Nat) (va : W64) (cls id : Nat) : (s.markCounter ctx va cls id).mail = s.mail := by
  unfold State.markCounter
  split
  · rfl
  · dsimp only
    split <;> simp

/-- Accepting a launch answers no command: the mark of its completion counter, or the report that there is none, is no reply. -/
@[simp] theorem mail_accept (ctx : Nat) (r : LaunchRec) : (s.accept ctx r).1.mail = s.mail := by
  unfold State.accept
  split
  · rfl
  split
  · rfl
  · dsimp only
    split
    · rfl
    · exact mail_markCounter ..

end Mail

/-! ### A command that is answered -/

section Answer
variable {s t : State} {i : Instr} {h : AkHdr} {r : Reply}

/-- No command of an empty inbox goes before this one. -/
theorem inTurn_of_empty (hinbox : s.dev.inbox = []) : s.inTurn h i = true := by
  simp [State.inTurn, hinbox]

theorem unqueue_of_empty (hinbox : s.dev.inbox = []) : s.unqueue h i = s := by
  simp [State.unqueue, hinbox]

theorem took_tell (hreplies : t.dev.replies = s.dev.replies) : s.took (t.tell r) = true := by
  simp [State.took, State.tell, hreplies]

/-- A device that takes commands takes one that answers at once, and keeps nothing of it in the inbox. -/
theorem akoon_answers {f : State → Result} (hs : s.takesCommand) (hf : f s = .next (t.tell r)) (hmail : t.mail = s.mail) :
    akoon i h s f = .next (t.tell r) := by
  obtain ⟨hready, hidle, hinbox, hfree⟩ := hs
  obtain ⟨hwaiting, hreplies⟩ := Prod.mk.inj hmail
  have hleaves : (t.tell r).unqueue h i = t.tell r := unqueue_of_empty (hwaiting.trans hinbox)
  simp [akoon, hready, hidle, inTurn_of_empty hinbox, hfree, hf, took_tell hreplies, hleaves]

theorem akoonIn_answers {f : State → Ctx → Result} {c : Ctx} (hs : s.takesCommand) (hc : s.ctx? h.ctx = some c)
    (hf : f s c = .next (t.tell r)) (hmail : t.mail = s.mail) : akoonIn i h s f = .next (t.tell r) :=
  akoon_answers hs (by simp only [hc, hf]) hmail

end Answer

/-! ### The commands -/

theorem execCtxnew_creates {x : AkCtxNew} {s : State} (hs : s.takesCommand) (hnew : s.ctx? x.h.ctx = none) (hctx : 1 ≤ x.h.ctx)
    (hctx' : x.h.ctx ≤ 255) (hpeers : x.npeer ≤ 4096) (hembers : 1 ≤ x.nemb) (hembers' : x.nemb ≤ 65536) :
    execCtxnew x s = .next (({ s with ctxs := s.ctxs ++ [{ Ctx.start x.h.ctx x.super with
      ptRoot := x.ptroot
      jobId := x.jobId
      peerBase := x.peerBase
      npeer := x.npeer
      embBase := x.embBase
      nemb := x.nemb }] } : State).tell (replyTo x.h 0 [])) := by
  have inRange : ¬ (x.h.ctx < 1 ∨ 255 < x.h.ctx ∨ 4096 < x.npeer ∨ x.nemb < 1 ∨ 65536 < x.nemb) := by omega
  refine akoon_answers hs ?_ rfl
  simp only [hnew, Option.isSome_none, Bool.false_eq_true, if_false, Bool.or_eq_true, decide_eq_true_eq, or_assoc, if_neg inRange]
  rfl

theorem execRootgo_accepts {x : AkRoot} {s t : State} {c : Ctx} {r : LaunchRec} {id : Nat} (hs : s.takesCommand)
    (hc : s.ctx? x.h.ctx = some c) (hread : s.readLaunch c x.addr = .ok r)
    (haccept : (s.holdRange c x.addr.toNat 64).accept c.num r = (t, id)) (hid : id ≠ 0) :
    execRootgo x s = .next (t.tell (replyTo x.h id [])) := by
  have hmail : t.mail = s.mail :=
    calc t.mail = ((s.holdRange c x.addr.toNat 64).accept c.num r).1.mail := by rw [haccept]
      _ = s.mail := by rw [mail_accept, mail_holdRange]
  refine akoonIn_answers hs hc ?_ hmail
  simp only [hread, haccept, if_neg hid]
  rfl

theorem execSeqgo_starts {x : AkSeq} {s : State} {c : Ctx} (hs : s.takesCommand) (hc : s.ctx? x.h.ctx = some c)
    (hseq : x.seq < Config.seqContexts) (hfree : ∀ q ∈ s.seqs, q.1 ≠ x.seq) (hentry : x.entry.toNat % 4 = 0)
    (hblock : x.block.length = 120) :
    execSeqgo x s = .next (({ s with
      stamp := s.stamp + 1
      seqs := s.seqs ++ [(x.seq, Seq.start s.stamp c.num x.entry x.block)] } : State).tell (replyTo x.h 0 [])) := by
  have unused : s.seqs.any (fun q : Nat × Seq => q.1 = x.seq) = false := by simpa using hfree
  refine akoonIn_answers hs hc ?_ rfl
  simp only [unused, hentry, hblock, Nat.not_le.mpr hseq, ne_eq, not_true_eq_false, decide_false, Bool.or_self, Bool.false_eq_true, if_false]
  rfl

/-- Settles O28: each command passes its checks and answers at once, and what it does before its answer leaves the mail alone. -/
theorem workCommandsComplete : Obligations.WorkCommandsComplete :=
  ⟨fun _ _ => execCtxnew_creates, fun _ _ _ _ _ _ => execRootgo_accepts, fun _ _ _ => execSeqgo_starts⟩

end Sys2Proof.Machine
end

section
/-! PROOFS. What memory and registers read as after a write: bytes, headers and poison tags of memory (R148, R149, R415 to R417), and
registers and predicates with their tags (R113, R194, R202). -/

namespace Sys2Proof.Machine

/-! ### Poison tags of memory -/

theorem setMem_bad_write_of_whole (m : Memory) (pa : Nat) (bs : List Byte) (bad : Bool) {w : Nat} (hlow : pa ≤ 8 * w)
    (hhigh : 8 * w + 8 ≤ pa + bs.length) : setMem (m.write pa bs bad).bad w = bad := by
  have touched : bs.length ≠ 0 ∧ pa < 8 * w + 8 ∧ 8 * w < pa + bs.length := by omega
  rw [write_bad, putTags_mem, if_pos touched]
  simp [hlow, hhigh]

theorem setMem_bad_write_of_part (m : Memory) (pa : Nat) (bs : List Byte) (bad : Bool) {w : Nat} (hbs : bs ≠ [])
    (hlow : pa < 8 * w + 8) (hhigh : 8 * w < pa + bs.length) (hpart : ¬(pa ≤ 8 * w ∧ 8 * w + 8 ≤ pa + bs.length)) :
    setMem (m.write pa bs bad).bad w = (bad || setMem m.bad w) := by
  have touched : bs.length ≠ 0 ∧ pa < 8 * w + 8 ∧ 8 * w < pa + bs.length := ⟨mt List.eq_nil_of_length_eq_zero hbs, hlow, hhigh⟩
  rw [write_bad, putTags_mem, if_pos touched]
  cases bad <;> simp [hpart]

theorem setMem_bad_write_of_outside (m : Memory) (pa : Nat) (bs : List Byte) (bad : Bool) {w : Nat}
    (h : 8 * w + 8 ≤ pa ∨ pa + bs.length ≤ 8 * w) : setMem (m.write pa bs bad).bad w = setMem m.bad w := by
  rw [write_bad, putTags_mem, if_neg (by omega)]

/-! ### Bytes of memory by header -/

theorem read_write_of_headed {m : Memory} (pa : Nat) (bs : List Byte) (bad : Bool) (h : m.headed) (a : Nat) :
    (m.write pa bs bad).read a = if pa ≤ a ∧ a < pa + bs.length then bs.getD (a - pa) 0 else m.read a := by
  rw [read_headed (write_headed m pa bs bad h), read_headed h, write_byte]

/-- Settles O46: each word of the tags is replaced whole, written in part or left alone, and headers that tell the zero lines make a
read by header a read of the byte. -/
theorem memoryReadAfterWrite : Obligations.MemoryReadAfterWrite := fun m pa bs bad =>
  ⟨write_byte m pa bs bad,
    fun headed => ⟨write_headed m pa bs bad headed, read_write_of_headed pa bs bad headed⟩,
    fun _ => setMem_bad_write_of_whole m pa bs bad,
    fun _ => setMem_bad_write_of_part m pa bs bad,
    fun _ => setMem_bad_write_of_outside m pa bs bad,
    write_wf m pa bs bad⟩

/-! ### What is read of an updated part -/

section Reading
variable {α β : Type} {o : Option α} {f : α → α} {q : α → β} {c : Prop} [Decidable c]

theorem map_ite_map_of_fixes {x : β} (hc : c) (ho : o.isSome = true) (hq : ∀ a, q (f a) = x) : (if c then o.map f else o).map q = some x := by
  obtain ⟨a, rfl⟩ := Option.isSome_iff_exists.mp ho
  simp [hc, hq]

theorem map_ite_map_of_keeps (hq : c → ∀ a, q (f a) = q a) : (if c then o.map f else o).map q = o.map q := by
  split
  case isTrue hc => rw [Option.map_map, show q ∘ f = q from funext (hq hc)]
  case isFalse => rfl

end Reading

/-! ### Registers and predicates after a write -/

section Written
variable (s : State) (g w u n : Nat) (r : Reg) (b bad : Bool)

theorem vreg_setReg_same (h : (s.thread? g w u).isSome = true) : (s.updThread g w u fun th => th.setReg n r).vreg g w u n = some r := by
  rw [State.vreg, thread_updThread]
  exact map_ite_map_of_fixes ⟨rfl, rfl, rfl⟩ h fun th => by simp

theorem vreg_setReg_of_ne {g' w' u' n' : Nat} (h : (g', w', u', n') ≠ (g, w, u, n)) :
    (s.updThread g w u fun th => th.setReg n r).vreg g' w' u' n' = s.vreg g' w' u' n' := by
  rw [State.vreg, thread_updThread]
  refine map_ite_map_of_keeps fun ⟨hg, hw, hu⟩ th => ?_
  have other : n' ≠ n := fun hn => h (by rw [hg, hw, hu, hn])
  simp [other]

theorem preg_setReg (g' w' u' n' : Nat) : (s.updThread g w u fun th => th.setReg n r).preg g' w' u' n' = s.preg g' w' u' n' := by
  rw [State.preg, thread_updThread]
  exact map_ite_map_of_keeps fun _ _ => rfl

theorem wreg_setReg_same (h : (s.warp? g w).isSome = true) : (s.updWarp g w fun x => x.setReg n r).wreg g w n = some r := by
  rw [State.wreg, warp_updWarp]
  exact map_ite_map_of_fixes ⟨rfl, rfl⟩ h fun x => by simp

theorem wreg_setReg_of_ne {g' w' n' : Nat} (h : (g', w', n') ≠ (g, w, n)) :
    (s.updWarp g w fun x => x.setReg n r).wreg g' w' n' = s.wreg g' w' n' := by
  rw [State.wreg, warp_updWarp]
  refine map_ite_map_of_keeps fun ⟨hg, hw⟩ x => ?_
  have other : n' ≠ n := fun hn => h (by rw [hg, hw, hn])
  simp [other]

theorem vreg_setWarpReg (g' w' u' n' : Nat) : (s.updWarp g w fun x => x.setReg n r).vreg g' w' u' n' = s.vreg g' w' u' n' := by
  rw [State.vreg, thread_updWarp s g w (fun x => x.setReg n r) (fun _ => rfl), State.vreg]

theorem preg_setWarpReg (g' w' u' n' : Nat) : (s.updWarp g w fun x => x.setReg n r).preg g' w' u' n' = s.preg g' w' u' n' := by
  rw [State.preg, thread_updWarp s g w (fun x => x.setReg n r) (fun _ => rfl), State.preg]

theorem preg_setPred_same (hn : n < 7) (h : (s.thread? g w u).isSome = true) :
    (s.updThread g w u fun th => th.setPred n b bad).preg g w u n = some (b, bad) := by
  rw [State.preg, thread_updThread]
  exact map_ite_map_of_fixes ⟨rfl, rfl, rfl⟩ h fun th => by simp [pred_setPred, predBad_setPred, hn]

theorem preg_setPred_of_ne {g' w' u' n' : Nat} (hn : n < 7) (hn' : n' < 7) (h : (g', w', u', n') ≠ (g, w, u, n)) :
    (s.updThread g w u fun th => th.setPred n b bad).preg g' w' u' n' = s.preg g' w' u' n' := by
  rw [State.preg, thread_updThread]
  refine map_ite_map_of_keeps fun ⟨hg, hw, hu⟩ th => ?_
  have other : n' ≠ n := fun hn => h (by rw [hg, hw, hu, hn])
  simp [pred_setPred, predBad_setPred, hn, hn', other]

theorem vreg_setPred (g' w' u' n' : Nat) : (s.updThread g w u fun th => th.setPred n b bad).vreg g' w' u' n' = s.vreg g' w' u' n' := by
  rw [State.vreg, thread_updThread]
  exact map_ite_map_of_keeps fun _ _ => rfl

end Written

/-- Settles O47: a write fixes what is read at its own place and leaves alone what is read of every other thread, warp and number. -/
theorem registerReadAfterWrite : Obligations.RegisterReadAfterWrite :=
  ⟨fun s g w u n r h => ⟨vreg_setReg_same s g w u n r h, fun _ _ _ _ => vreg_setReg_of_ne s g w u n r, wreg_updThread s g w u _,
      preg_setReg s g w u n r⟩,
    fun s g w n r h => ⟨wreg_setReg_same s g w n r h, fun _ _ _ => wreg_setReg_of_ne s g w n r, vreg_setWarpReg s g w n r,
      preg_setWarpReg s g w n r⟩,
    fun s g w u n b bad hn h => ⟨preg_setPred_same s g w u n b bad hn h, fun _ _ _ _ => preg_setPred_of_ne s g w u n b bad hn,
      vreg_setPred s g w u n b bad⟩⟩

end Sys2Proof.Machine
end

section
/-! PROOFS. Accesses of cluster scratchpad (R137, R258 to R276). -/

namespace Sys2Proof.Machine

/-- An access that no earlier one of its threads precedes, and that nothing stops, performs what its body does to what it sees. -/
theorem issueMem_body {s : State} {x : Iss} {h : Hdr} {sh : Shape} {kind : Nat} {order : Order} {scratch : Bool} (c : Clear s x h sh)
    (hw : s.mustWait x h kind order scratch = false) (i : Instr) (per : Nat) (a b : Body)
    (e : a x (s.sees x h sh) (s.afterRead x h sh) = b x (s.sees x h sh) (s.afterRead x h sh))
    (still : Still (s.afterRead x h sh) (b x (s.sees x h sh) (s.afterRead x h sh)).1) :
    issueMem i h sh per kind order scratch s a = .next (s.performed x h sh per b) := by
  rw [issueMem, withIssue_of c.issues, hw, if_neg (by simp)]
  exact issue_body c i per a b e still

/-! ### LD and ST of scratchpad -/

/-- Nothing stops an access of scratchpad: no engine owns a line of it in `s`, and in `t` it lies in range, aligned. -/
def State.scratchGoes (s t : State) (g : Group) (size va : Nat) : Prop :=
  s.scratchBusy g va size = false ∧ t.scratchOut g va size = none ∧ va % size = 0

section Plain
variable {k : Taken} {va data : List (List Reg) → Nat} {bad : List (List Reg) → Bool} {s t : State} {g : Group} {size : Nat}

theorem wants_go (h : ∀ m ∈ k.vals, s.scratchGoes t g size (va m.2)) : ∀ w ∈ wants k va data bad, s.scratchGoes t g size w.va := by
  intro w hw
  obtain ⟨m, hm, rfl⟩ := List.mem_map.mp hw
  exact h m hm

variable {ws : List Want} (h : ∀ w ∈ ws, s.scratchGoes t g size w.va)
include h

theorem any_scratchBusy_eq_false : ws.any (fun w => s.scratchBusy g w.va size) = false := by
  rw [List.any_eq_false]
  intro w hw
  simp [(h w hw).1]

theorem filter_aligned_eq_self : ws.filter (fun w => w.va % size = 0) = ws := by
  rw [List.filter_eq_self]
  intro w hw
  obtain ⟨_, _, aligned⟩ := h w hw
  simp [aligned]

theorem misaligned_eq_nil : misaligned k size ws = [] := by
  have aligned : ws.filter (fun w => w.va % size ≠ 0) = [] := by
    rw [List.filter_eq_nil_iff]
    intro w hw
    obtain ⟨_, _, aligned⟩ := h w hw
    simp [aligned]
  rw [misaligned, aligned, List.flatMap_nil]

end Plain

theorem ldS_completes (x : MemOps) (s : State) (i : Iss) (c : Clear s i x.h (MemOps.ldShape x true)) (hw : s.mustWait i x.h 0 x.order true = false)
    (reach : ∀ m ∈ (s.sees i x.h (MemOps.ldShape x true)).vals,
      s.scratchGoes (s.afterRead i x.h (MemOps.ldShape x true)) i.g (typeBytes x.ty) (vaS m.2)) :
    exec (.ldS x) s = .next (s.performed i x.h (MemOps.ldShape x true) (memPer x.ty) fun i k t =>
      (k.vals.foldl (fun t m =>
        let bs := t.scratchBytes i.g 0 (vaS m.2) (typeBytes x.ty)
        t.writeDst i.r.g i.r.w i.g { op := x.d, n := typeWords x.ty } (if k.uni then k.ts.headD 0 else m.1) (if k.uni then k.ts else [m.1])
          (replyRegs (typeWords x.ty) (extend x.ty (leNat (bs.map (·.1)))) fun j => ((bs.drop (4 * j)).take 4).any (·.2))) t, .next [])) := by
  show execLdS x s = _
  have all := wants_go (data := fun _ => 0) (bad := fun _ => false) reach
  refine issueMem_body c hw _ _ _ _ ?_ (still_foldl _ _ (fun _ _ => (calm_writeDst _ _ _ _ _ _ _ _).still) _)
  dsimp only
  rw [any_scratchBusy_eq_false all, if_neg (by simp), misaligned_eq_nil all, trapAll_nil, filter_aligned_eq_self all, wants, List.foldl_map]
  refine congrArg (·, Flow.next []) (foldl_calm_congr (fun a m hc hm => ?_) fun _ _ => calm_writeDst _ _ _ _ _ _ _ _)
  obtain ⟨_, inRange, _⟩ := reach m hm
  rw [scratchOut_calm hc, inRange]
  cases (s.sees i x.h (MemOps.ldShape x true)).uni <;> rfl

theorem stS_completes (x : MemOps) (s : State) (i : Iss) (c : Clear s i x.h (MemOps.stShape x true)) (hw : s.mustWait i x.h 1 x.order true = false)
    (whole : partData x (s.sees i x.h (MemOps.stShape x true)) = [])
    (reach : ∀ m ∈ (s.sees i x.h (MemOps.stShape x true)).vals,
      s.scratchGoes (s.afterRead i x.h (MemOps.stShape x true)) i.g (typeBytes x.ty) (vaS m.2)) :
    exec (.stS x) s = .next (s.performed i x.h (MemOps.stShape x true) (memPer x.ty) fun i k t =>
      (k.vals.foldl (fun t m => t.putScratch i.g 0 (vaS m.2)
        (leBytes (typeBytes x.ty) (regsNat (m.2.getD 2 []) % 2 ^ (8 * typeBytes x.ty))) (regsBad (m.2.getD 2 []))) t, .next [])) := by
  show execStS x s = _
  have all := wants_go (data := fun v => regsNat (v.getD 2 []) % 2 ^ (8 * typeBytes x.ty)) (bad := fun v => regsBad (v.getD 2 [])) reach
  refine issueMem_body c hw _ _ _ _ ?_ (still_foldl _ _ (fun _ _ => (calm_putScratch _ _ _ _ _ _).still) _)
  simp only [whole, List.isEmpty_nil, Bool.not_true, Bool.and_false, Bool.false_eq_true, if_false, without_nil, storeWants, List.nil_append]
  rw [any_scratchBusy_eq_false all, if_neg (by simp), misaligned_eq_nil all, trapAll_nil, wants, List.foldl_map]
  refine congrArg (·, Flow.next []) (foldl_calm_congr (fun a m hc hm => ?_) fun _ _ => calm_putScratch _ _ _ _ _ _)
  obtain ⟨_, inRange, aligned⟩ := reach m hm
  rw [scratchOut_calm hc, inRange, if_neg (by simp [aligned])]

/-! ### Counters of scratchpad -/

theorem exec_ctrInit_scratch {x : CtrInitOps} (hs : x.scratch = true) (hc : x.pclass.val < 7) (hr : x.rscope.val < 6) (s : State) :
    exec (.ctrInit x) s = issueMem (.ctrInit x) x.h { srcs := [ctrSrcA x.a true, strictB x.b 2], suppress := true } 1 1 x.order true s
      fun i k t => t.goScratch s i k (ctrDoing x.a true) (.ctrInit (ctrAttr i.g x.pclass.val x.rscope.val)) { op := .vz } (wantsB k true) := by
  show execCtrInit x s = _
  simp only [execCtrInit, hs, Nat.not_le.mpr hc, Nat.not_le.mpr hr, if_true, if_false]

theorem ctrInit_scratch_completes (x : CtrInitOps) (hs : x.scratch = true) (hc : x.pclass.val < 7) (hr : x.rscope.val < 6) (s : State) (i : Iss)
    (c : Clear s i x.h { srcs := [ctrSrcA x.a true, strictB x.b 2], suppress := true }) (hw : s.mustWait i x.h 1 x.order true = false)
    (reach : ∀ w ∈ wantsB (s.sees i x.h { srcs := [ctrSrcA x.a true, strictB x.b 2], suppress := true }) true,
      s.scratchGoes (s.afterRead i x.h { srcs := [ctrSrcA x.a true, strictB x.b 2], suppress := true }) i.g 16 w.va) :
    exec (.ctrInit x) s = .next (s.performed i x.h { srcs := [ctrSrcA x.a true, strictB x.b 2], suppress := true } 1 fun i k t =>
      ((wantsB k true).foldl (fun t w => t.scratchDo i k (.ctrInit (ctrAttr i.g x.pclass.val x.rscope.val)) { op := .vz } 16 w) t, .next [])) := by
  rw [exec_ctrInit_scratch hs hc hr]
  exact issueMem_body c hw _ _ _ _ (goScratch_reaches reach (noWrap_of (fun _ _ _ _ _ => rfl) _ _))
    (still_foldl _ _ (fun _ _ => (scratchDo_calm _ _ _ _ _ _ _).still) _)

theorem ctrRun_scratch {x : CtrOps} (hs : x.scratch = true) (i : Instr) (kind : AccessKind) (s : State) :
    ctrRun i x kind s = issueMem i x.h (CtrOps.rmw x) 1 2 x.order true s fun y k t =>
      t.goScratch s y k (ctrDoing x.a true) kind { op := x.d, n := 2 } (wantsB k true) := by
  simp only [ctrRun, hs, if_true]

theorem exec_ctrRd_scratch {x : CtrOps} (hs : x.scratch = true) (s : State) :
    exec (.ctrRd x) s = issueMem (.ctrRd x) x.h { srcs := [ctrSrcA x.a true], dst := some { op := x.d, n := 2 }, suppress := true } 1 0 x.order true s
      fun i k t => t.goScratch s i k (ctrDoing x.a false) .ctrRd { op := x.d, n := 2 } (wantsB k true) := by
  show execCtrRd x s = _
  simp only [execCtrRd, hs, if_true]

/-- Settles O12: LD and ST go through each access in order, since none is busy, out of range or misaligned; the others run
`goScratch`, of which every access happens. -/
theorem scratchpadAccessesComplete : Obligations.ScratchpadAccessesComplete :=
  ⟨ldS_completes, stS_completes,
    fun x => scratch_of (d := { code := x.a.code, size := 4 * atomWords x.op }) fun _ => rfl,
    fun x => scratch_of (d := { code := x.a.code, size := 4 }) fun _ => rfl,
    fun x => scratch_of (d := { code := x.a.code, size := 8 }) fun _ => rfl,
    ctrInit_scratch_completes,
    fun x hs => ⟨scratch_of (d := ctrDoing x.a true) (ctrRun_scratch hs (.ctrAdd x) .ctrAdd),
      scratch_of (d := ctrDoing x.a true) (ctrRun_scratch hs (.ctrMax x) .ctrMax),
      scratch_of (d := ctrDoing x.a false) (exec_ctrRd_scratch hs)⟩⟩

end Sys2Proof.Machine
end

section
/-! PROOFS. An access served at its home slice (R144, R166, R258, R262, R267 to R273, R417). -/

namespace Sys2Proof.Machine

/-! ### What serving an access keeps -/

/-- The header of a sector is good, or already reported. -/
def Memory.told (m : Memory) (x : Nat) : Prop := setMem m.badHdr x = true → setMem m.saidHdr x = true

/-- Serving goes on from `s` to `t`: groups and operations stay, headers that tell the zero lines still do, and a bad header that is
reported is so still. The bytes at the addresses of `P` stay. -/
structure Serving (P : Nat → Prop) (s t : State) : Prop where
  groups : t.groups = s.groups
  ops : t.mem.ops = s.mem.ops
  headed : s.mem.headed → t.mem.headed
  said : ∀ x, s.mem.told x → t.mem.told x
  byte : ∀ a, P a → t.mem.byte a = s.mem.byte a

section Serving
variable {P : Nat → Prop} {s t u : State}

theorem Serving.refl (P : Nat → Prop) (s : State) : Serving P s s := ⟨rfl, rfl, id, fun _ => id, fun _ _ => rfl⟩

theorem Serving.trans (a : Serving P s t) (b : Serving P t u) : Serving P s u :=
  ⟨b.groups.trans a.groups, b.ops.trans a.ops, b.headed ∘ a.headed, fun x h => b.said x (a.said x h),
    fun x h => (b.byte x h).trans (a.byte x h)⟩

theorem serving_of_mem_eq (hg : t.groups = s.groups) (hm : t.mem = s.mem) : Serving P s t :=
  ⟨hg, by rw [hm], by rw [hm]; exact id, by rw [hm]; exact fun _ => id, fun _ _ => by rw [hm]⟩

theorem serving_of_same {m : Memory} (h : s.mem.Same m) (ho : m.ops = s.mem.ops) : Serving P s { s with mem := m } := by
  obtain ⟨_, _, _, hbad, hsaid, _⟩ := id h
  exact ⟨rfl, ho, h.headed, fun x hx => by rw [Memory.told, hbad, hsaid]; exact hx, fun a _ => h.byte a⟩

/-! ### Rows, watches and HOST writes -/

theorem ops_makeRoom (m : Memory) (x : Nat) : (m.makeRoom x).ops = m.ops := by
  unfold Memory.makeRoom
  repeat' split
  all_goals rfl

theorem ops_touchRow (m : Memory) (l : Nat) (write : Bool) (core : Option Nat) : (m.touchRow l write core).ops = m.ops := by
  unfold Memory.touchRow
  dsimp only
  split <;> split <;> exact ops_makeRoom m _

theorem ops_rowLine (m : Memory) (l : Nat) (write : Bool) (core : Option Nat) : (m.rowLine l write core).1.ops = m.ops := by
  refine (ops_touchRow _ l write core).trans ?_
  unfold Memory.reach
  split <;> rfl

theorem fillL0_same (m : Memory) (core l : Nat) : m.Same (m.fillL0 core l) ∧ (m.fillL0 core l).ops = m.ops := by
  unfold Memory.fillL0
  split
  · exact ⟨.refl m, rfl⟩
  · exact ⟨⟨rfl, rfl, rfl, rfl, rfl, id⟩, rfl⟩

theorem serving_lineOf (g : Group) (o : MemOp) (pa j : Nat) (wrote : Bool) : Serving P s (s.lineOf g o pa j wrote) := by
  have row := serving_of_same (P := P) (rowLine_same s.mem (pa / 32) wrote (some g.core)) (ops_rowLine _ _ _ _)
  obtain ⟨same, ops⟩ := fillL0_same (s.mem.rowLine (pa / 32) wrote (some g.core)).1 g.core (pa / 32)
  unfold State.lineOf
  dsimp only
  split
  · exact (row.trans (serving_of_same same ops)).trans (serving_of_mem_eq rfl rfl)
  · exact row

theorem serving_watch (r w : Bool) (pa n cls agent : Nat) : Serving P s (s.watch r w pa n cls agent).1 := by
  have spark (t : State) : Serving P t (t.spark 1 0).1 := by
    unfold State.spark
    dsimp only
    split <;> exact serving_of_mem_eq rfl rfl
  refine List.foldlRecOn s.ctxs _ (motive := fun a : State × Option Nat => Serving P s a.1) (.refl P s) fun a ha c _ => ?_
  refine List.foldlRecOn c.watch.zipIdx _ (motive := fun a : State × Option Nat => Serving P s a.1) ha fun b hb w _ => ?_
  dsimp only
  split
  · rename_i p _
    have hit := hb.trans (serving_of_mem_eq (P := P) (s := b.1)
      (t := b.1.updCtx c.num fun c => { c with watch := c.watch.modify w.2 fun w => w.take p.1 cls agent }) rfl rfl)
    split
    · exact hit
    · exact hit.trans (spark _)
  · exact hb

theorem serving_hostWrite (ctx pa n : Nat) : Serving P s (s.hostWrite ctx pa n) := by
  unfold State.hostWrite
  split
  · exact ⟨rfl, rfl, id, fun _ => id, fun _ _ => rfl⟩
  · exact .refl P s

/-! ### Headers -/

theorem noteHeader_of_said {ctx pa n : Nat} (h : ∀ x ∈ sectorsOf pa n, s.mem.told x) :
    s.noteHeader ctx pa n = s := by
  unfold State.noteHeader
  refine List.foldlRecOn _ _ (motive := fun t => t = s) rfl ?_
  rintro t rfl x hx
  rw [if_neg]
  cases hb : setMem t.mem.badHdr x
  · simp
  · simp [h x hx hb]

theorem setMem_foldl_setDel (l tags : List Nat) (x : Nat) : setMem (l.foldl setDel tags) x = (decide (x ∉ l) && setMem tags x) := by
  induction l generalizing tags with
  | nil => simp
  | cons a l ih =>
    rw [List.foldl_cons, ih, setMem_setDel]
    by_cases hx : x = a <;> simp [hx]

theorem said_write (m : Memory) (pa : Nat) (bs : List Byte) (bad : Bool) {x : Nat} (h : m.told x) : (m.write pa bs bad).told x := by
  have hdr (n : Memory) : (n.header pa bs.length).badHdr = n.badHdr ∧ (n.header pa bs.length).saidHdr = n.saidHdr :=
    List.foldlRecOn _ _ (motive := fun k : Memory => k.badHdr = n.badHdr ∧ k.saidHdr = n.saidHdr) ⟨rfl, rfl⟩ fun _ hk _ _ => hk
  unfold Memory.write
  split
  · simp only [Memory.told, Memory.rebuild, hdr, setMem_foldl_setDel, Bool.and_eq_true]
    exact fun ⟨kept, bad⟩ => ⟨kept, h bad⟩
  · exact h

/-! ### What a piece writes -/

theorem ops_write (m : Memory) (pa : Nat) (bs : List Byte) (bad : Bool) : (m.write pa bs bad).ops = m.ops := by
  unfold Memory.write
  split
  · exact List.foldlRecOn _ _ (motive := fun k : Memory => k.ops = m.ops) rfl fun _ hk _ _ => hk
  · rfl

theorem serving_putAt {g : Group} {pa : Nat} {put : Option (Nat × List Byte × Bool)}
    (h : ∀ off bs bad, put = some (off, bs, bad) → ∀ a, P a → a < pa + off ∨ pa + off + bs.length ≤ a) : Serving P s (s.putAt g pa put) := by
  cases put with
  | none => exact .refl P s
  | some w =>
    obtain ⟨off, bs, bad⟩ := w
    refine Serving.trans (t := { s with mem := s.mem.write (pa + off) bs bad })
      ⟨rfl, ops_write .., fun hh => write_headed _ _ _ _ hh, fun x hx => said_write _ _ _ _ hx, fun a ha => ?_⟩ (serving_hostWrite ..)
    rw [write_byte, if_neg]
    have := h off bs bad rfl a ha
    omega

/-- What a piece reads. -/
def State.pieceRead (s : State) (o : MemOp) (g : Group) (p : Part) (j : Nat) : List (Byte × Bool) :=
  if o.kind = .load then s.seen g (p.pa + 4 * j) o.unit else s.mem.readAt (p.pa + 4 * j) o.unit

/-- What a piece returns and leaves. -/
def State.pieceEffect (s : State) (o : MemOp) (g : Group) (p : Part) (j : Nat) : Effect :=
  let read := s.pieceRead o g p j
  effectOf o.kind o.unit (p.data.toNat / 2 ^ (32 * j)) p.bad (leNat (read.map (·.1))) fun i => ((read.drop (4 * i)).take 4).any (·.2)

/-- No piece of the operation at `pa` writes at an address of `P`. -/
def MemOp.spares (o : MemOp) (pa : Nat) (P : Nat → Prop) : Prop :=
  ∀ data dbad x bad off bs tag, (effectOf o.kind o.unit data dbad x bad).put = some (off, bs, tag) →
    ∀ a, P a → a < pa + off ∨ pa + off + bs.length ≤ a

variable {o : MemOp} {g : Group} {p : Part} {j : Nat}

theorem serving_noteAccess {pa : Nat} {wraps : Bool}
    (said : ∀ x ∈ sectorsOf pa o.unit, s.mem.told x) :
    Serving P s (s.noteAccess g o pa wraps).1 := by
  unfold State.noteAccess
  rw [noteHeader_of_said said, ite_self]
  cases wraps
  · exact serving_watch ..
  · exact .refl P s

theorem serving_clearWord (w : Nat) : Serving P s { s with mem := s.mem.clearWord w } := ⟨rfl, rfl, id, fun _ => id, fun _ _ => rfl⟩

theorem serving_veils (l : List Veil) : Serving P s { s with mem := { s.mem with veils := l } } := ⟨rfl, rfl, id, fun _ => id, fun _ _ => rfl⟩

/-- A piece has put its bytes, and its line is in the LLC. -/
def State.pieceLined (s : State) (o : MemOp) (g : Group) (p : Part) (j : Nat) : State :=
  let put := (s.pieceEffect o g p j).put
  let t := s.putAt g (p.pa + 4 * j) put
  let t := if o.replaces p (p.got ||| 1 <<< j) j then { t with mem := t.mem.clearWord ((p.pa + 4 * j) / 8) } else t
  t.lineOf g o (p.pa + 4 * j) j put.isSome

theorem serving_pieceLined : Serving P (s.putAt g (p.pa + 4 * j) (s.pieceEffect o g p j).put) (s.pieceLined o g p j) := by
  unfold State.pieceLined
  dsimp only
  refine Serving.trans ?_ (serving_lineOf ..)
  split
  · exact serving_clearWord _
  · exact .refl P _

theorem servePiece_fst (hg : s.group? o.g = some g) : ∃ veils,
    let u := ((s.pieceLined o g p j).noteAccess g o (p.pa + 4 * j) (s.pieceEffect o g p j).wraps).1
    (s.servePiece o p j false).1 = { u with mem := { u.mem with veils := veils } } := by
  unfold State.servePiece
  rw [hg]
  exact ⟨_, rfl⟩

theorem servePiece_snd (hg : s.group? o.g = some g) :
    let q := (s.servePiece o p j false).2
    let e := s.pieceEffect o g p j
    q.got = p.got ||| 1 <<< j ∧ q.served = (List.range o.pieces).all (fun i => q.got.getLsbD i) ∧
      q.val = p.val ||| BitVec.ofNat 128 (e.val * 2 ^ (32 * j)) ∧ q.fault = e.wraps := by
  unfold State.servePiece
  rw [hg]
  exact ⟨rfl, rfl, rfl, rfl⟩

section Piece
variable (hg : s.group? o.g = some g)
  (said : ∀ x ∈ sectorsOf (p.pa + 4 * j) o.unit, s.mem.told x)
include hg said

/-- After its bytes are put, a piece changes no byte, no group and no operation. -/
theorem serving_servePiece_of_putAt :
    Serving P (s.putAt g (p.pa + 4 * j) (s.pieceEffect o g p j).put) (s.servePiece o p j false).1 := by
  obtain ⟨veils, h⟩ := servePiece_fst (p := p) (j := j) hg
  have put : Serving (fun _ => False) s (s.pieceLined o g p j) := (serving_putAt fun _ _ _ _ _ h => h.elim).trans serving_pieceLined
  have noted : Serving P (s.pieceLined o g p j) ((s.pieceLined o g p j).noteAccess g o (p.pa + 4 * j) (s.pieceEffect o g p j).wraps).1 :=
    serving_noteAccess fun x hx => put.said x (said x hx)
  rw [h]
  exact (serving_pieceLined.trans noted).trans (serving_veils veils)

theorem serving_servePiece (hp : o.spares (p.pa + 4 * j) P) : Serving P s (s.servePiece o p j false).1 :=
  (serving_putAt fun off bs bad e => hp _ _ _ _ off bs bad e).trans (serving_servePiece_of_putAt hg said)

theorem byte_servePiece {off : Nat} {bs : List Byte} {bad : Bool} (e : (s.pieceEffect o g p j).put = some (off, bs, bad)) {i : Nat}
    (hi : i < bs.length) : (s.servePiece o p j false).1.mem.byte (p.pa + 4 * j + off + i) = bs.getD i 0 := by
  rw [(serving_servePiece_of_putAt (P := fun _ => True) hg said).byte _ trivial, e]
  have wrote : (s.putAt g (p.pa + 4 * j) (some (off, bs, bad))).mem.byte (p.pa + 4 * j + off + i) =
      (s.mem.write (p.pa + 4 * j + off) bs bad).byte (p.pa + 4 * j + off + i) :=
    (serving_hostWrite (P := fun _ => True) g.ctx (p.pa + 4 * j + off) bs.length).byte _ trivial
  rw [wrote, write_byte, if_pos (by omega), Nat.add_sub_cancel_left]

end Piece

/-! ### Where an access writes -/

theorem effectOf_put_within {kind : AccessKind} {size data x off : Nat} {dbad : Bool} {bad : Nat → Bool} {bs : List Byte} {tag : Bool}
    (h : (effectOf kind size data dbad x bad).put = some (off, bs, tag)) : off = 0 ∧ bs.length ≤ max size 16 := by
  have len (n v : Nat) : (leBytes n v).length = n := by simp [leBytes_eq_map]
  cases kind with
  | load | ctrRd => simp [effectOf] at h
  | store | atom | ctrInit | ctrMax =>
    simp only [effectOf, Option.some.injEq, Prod.mk.injEq] at h
    obtain ⟨rfl, rfl, -⟩ := h
    refine ⟨rfl, ?_⟩
    simp only [List.length_append, len]
    omega
  | cas | cas64 | ctrAdd =>
    simp only [effectOf, Option.ite_none_right_eq_some, Option.ite_none_left_eq_some, Option.some.injEq, Prod.mk.injEq] at h
    obtain ⟨-, rfl, rfl, -⟩ := h
    refine ⟨rfl, ?_⟩
    rw [len]
    omega

theorem spares_of_outside {pa : Nat} (h : ∀ a, P a → a < pa ∨ pa + max o.unit 16 ≤ a) : o.spares pa P := by
  intro data dbad x bad off bs tag e a ha
  obtain ⟨rfl, len⟩ := effectOf_put_within e
  have := h a ha
  omega

theorem spares_of_reads {pa : Nat} (h : o.kind = .load ∨ o.kind = .ctrRd) : o.spares pa P := by
  intro data dbad x bad off bs tag e
  rcases h with h | h <;> simp [effectOf, h] at e

/-! ### Every part of an operation at a sector -/

/-- One part in its turn: served when it lies in sector `x` and its piece `j` is still to come. -/
def State.servePart (o : MemOp) (x j : Nat) (a : State × List Part) (p : Part) : State × List Part :=
  if p.pa / 1024 = x && !p.served && !(p.got.getLsbD j) then ((a.1.servePiece o p j false).1, a.2 ++ [(a.1.servePiece o p j false).2])
  else (a.1, a.2 ++ [p])

theorem serveOp_found {id x : Nat} (ho : s.mem.ops.find? (fun o => o.id = id) = some o) :
    let r := o.parts.foldl (State.servePart o x j) (s, [])
    s.serveOp id x j = r.1.keepOp { o with parts := r.2 } := by
  unfold State.serveOp
  rw [ho]
  rfl

theorem serving_serveParts {x : Nat} {ps : List Part} (hg : s.group? o.g = some g)
    (said : ∀ p ∈ ps, ∀ y ∈ sectorsOf (p.pa + 4 * j) o.unit, s.mem.told y)
    (spares : ∀ p ∈ ps, p.pa / 1024 = x → p.served = false → o.spares (p.pa + 4 * j) P) :
    Serving P s (ps.foldl (State.servePart o x j) (s, [])).1 := by
  refine List.foldlRecOn ps _ (motive := fun a : State × List Part => Serving P s a.1) (.refl P s) fun a ha p hp => ?_
  unfold State.servePart
  split
  · rename_i turn
    simp only [Bool.and_eq_true, decide_eq_true_eq, Bool.not_eq_true'] at turn
    obtain ⟨⟨here, unserved⟩, -⟩ := turn
    have group : a.1.group? o.g = some g := by rw [State.group?, ha.groups]; exact hg
    exact ha.trans (serving_servePiece group (fun y hy => ha.said y (said p hp y hy)) (spares p hp here unserved))
  · exact ha

theorem serveParts_single {x : Nat} (here : p.pa / 1024 = x) (unserved : p.served = false) (ungot : p.got.getLsbD j = false) :
    [p].foldl (State.servePart o x j) (s, []) = ((s.servePiece o p j false).1, [(s.servePiece o p j false).2]) := by
  simp [State.servePart, here, unserved, ungot]

/-! ### The operation afterwards -/

theorem tryEnd_of_live {k : Nat} (hg : s.group? k = some g) (live : g.allEnded = false) : s.tryEnd k = s := by
  simp [State.tryEnd, hg, live]

/-- The group of the operation has threads that have not ended, so nothing but the list of operations changes. -/
theorem keepOp_of_live (hg : s.group? o.g = some g) (live : g.allEnded = false) : ∃ ops,
    (o.silent = false → ops = mapIf (fun q => q.id = o.id) (fun _ => o) s.mem.ops) ∧ s.keepOp o = { s with mem := { s.mem with ops := ops } } := by
  unfold State.keepOp
  split
  · rename_i ended
    refine ⟨_, fun loud => ?_, tryEnd_of_live hg live⟩
    simp [loud] at ended
  · exact ⟨_, fun _ => rfl, rfl⟩

theorem silent_of_reply (words : o.words ≠ 0) (dst : o.d ≠ .vz) : o.silent = false := by simp [MemOp.silent, words, dst]

theorem find_mapIf_replaced {l : List MemOp} {q : MemOp} (h : l.find? (fun q => q.id = o.id) = some q) :
    (mapIf (fun q => q.id = o.id) (fun _ => o) l).find? (fun q => q.id = o.id) = some o := by
  induction l with
  | nil => simp at h
  | cons a l ih =>
    simp only [mapIf, List.map_cons, List.find?_cons] at ih h ⊢
    by_cases ha : a.id = o.id
    · simp [ha]
    · simp only [ha, decide_false, Bool.false_eq_true, if_false] at h ⊢
      exact ih h

/-! ### The request -/

theorem nextReq_sector {x : Nat} {r : Req} (h : s.nextReq x = some r) : r.sector = x := by
  refine List.foldlRecOn _ _ (motive := fun best : Option Req => ∀ b, best = some b → b.sector = x) (by simp) (fun best hb q hq => ?_) r h
  have here : q.sector = x := by
    simp only [List.mem_filter, Bool.and_eq_true, decide_eq_true_eq] at hq
    obtain ⟨_, here, _⟩ := hq
    exact here
  intro b e
  split at e
  · exact Option.some.inj e ▸ here
  · split at e
    · exact Option.some.inj e ▸ here
    · exact hb b e

/-- The request leaves its line, and its service is counted. -/
def State.dequeued (s : State) (r : Req) : State :=
  ({ s with mem := { s.mem with reqs := s.mem.reqs.filter fun q => q.id ≠ r.id } } : State).served r.sector r.cls false

theorem perform_of_op {r : Req} {id : Nat} (h : r.op = some id) : s.perform r = (s.dequeued r).serveOp id r.sector r.piece := by
  simp only [State.perform, h]
  rfl

theorem serving_dequeued (r : Req) : Serving P s (s.dequeued r) := ⟨rfl, rfl, id, fun _ => id, fun _ _ => rfl⟩

section Served
variable {r : Req} {id : Nat} (hr : s.nextReq r.sector = some r) (hold : s.aged r = false) (heng : r.eng = none) (hmiss : s.missing r = [])
  (hturn : (s.mem.sector r.sector).turning = false) (hrow : (s.mem.sector r.sector).orient ≠ .col) (hop : r.op = some id)
  (ho : s.mem.ops.find? (fun o => o.id = id) = some o) (hg : s.group? o.g = some g) (live : g.allEnded = false)
  (said : ∀ p ∈ o.parts, ∀ y ∈ sectorsOf (p.pa + 4 * r.piece) o.unit, s.mem.told y)

/-- The state and the parts once each part at the sector has been served. -/
def State.partsServed (s : State) (o : MemOp) (r : Req) : State × List Part :=
  o.parts.foldl (State.servePart o r.sector r.piece) (s.dequeued r, [])

include hg said in
theorem serving_partsServed
    (spares : ∀ p ∈ o.parts, p.pa / 1024 = r.sector → p.served = false → o.spares (p.pa + 4 * r.piece) P) :
    Serving P s (s.partsServed o r).1 :=
  (serving_dequeued r).trans (serving_serveParts hg said spares)

include hr hold heng hmiss hturn hrow hop ho hg live said in
theorem exec_llcRequestServe : ∃ ops,
    (MemOp.silent { o with parts := (s.partsServed o r).2 } = false →
      ops = mapIf (fun q => q.id = o.id) (fun _ => { o with parts := (s.partsServed o r).2 }) s.mem.ops) ∧
    exec (.llcRequestServe r.sector) s = .next { (s.partsServed o r).1 with mem := { (s.partsServed o r).1.mem with ops := ops } } := by
  have kept : Serving (fun _ => False) s (s.partsServed o r).1 :=
    serving_partsServed hg said fun _ _ _ _ => spares_of_outside fun _ none => none.elim
  have group : (s.partsServed o r).1.group? o.g = some g := by rw [State.group?, kept.groups]; exact hg
  obtain ⟨ops, loud, e⟩ := keepOp_of_live (o := { o with parts := (s.partsServed o r).2 }) group live
  refine ⟨ops, fun h => (loud h).trans (by rw [kept.ops]), ?_⟩
  have step : exec (.llcRequestServe r.sector) s = .next (s.perform r) :=
    exec_serves (old := false) hr hold (tryServe_performs heng hturn hmiss hrow)
  have served : (s.dequeued r).serveOp id r.sector r.piece = _ := serveOp_found (s := s.dequeued r) ho
  rw [step, perform_of_op hop, served, ← e]
  rfl

end Served

end Serving

/-- Settles O51: each part in its turn keeps all but the bytes of its own range, and the operation is kept or over. -/
theorem servedAccess : Obligations.ServedAccess := by
  intro sector s r id o g hr hold heng hmiss hturn hrow hop ho hg live said
  obtain rfl := nextReq_sector hr
  obtain rfl : o.id = id := by simpa using List.find?_some ho
  obtain ⟨ops, loud, e⟩ := exec_llcRequestServe hr hold heng hmiss hturn hrow hop ho hg live said
  have outside := serving_partsServed (P := fun a => ∀ p ∈ o.parts, p.pa / 1024 = r.sector → p.served = false →
    a < p.pa + 4 * r.piece ∨ p.pa + 4 * r.piece + max o.unit 16 ≤ a) hg said
    fun p hp here unserved => spares_of_outside fun a ha => ha p hp here unserved
  refine ⟨_, e, outside.groups, outside.headed, outside.byte, fun reads a => ?_, fun p hp here unserved ungot => ?_⟩
  · exact (serving_partsServed (P := fun _ => True) hg said fun _ _ _ _ => spares_of_reads reads).byte a trivial
  · have one : s.partsServed o r = (((s.dequeued r).servePiece o p r.piece false).1, [((s.dequeued r).servePiece o p r.piece false).2]) := by
      rw [State.partsServed, hp, serveParts_single here unserved ungot]
    rw [one] at loud
    refine ⟨fun off bs bad put i hi => ?_, fun words dst => ?_⟩
    · show (s.partsServed o r).1.mem.byte _ = _
      rw [one]
      exact byte_servePiece (s := s.dequeued r) hg (said p (by simp [hp])) put hi
    · refine ⟨_, ?_, servePiece_snd (s := s.dequeued r) hg⟩
      rw [loud (silent_of_reply words dst)]
      exact find_mapIf_replaced (o := { o with parts := [((s.dequeued r).servePiece o p r.piece false).2] }) ho

end Sys2Proof.Machine
end

section
/-! PROOFS. System registers, requests and watchpoints (R153, R330, R333, R336 to R341, R464, R502). -/

namespace Sys2Proof.Machine

/-! ### SRD -/

theorem srd_completes (x : SrdOps) (s : State) (i : Iss) (c : Clear s i x.h (SrdOps.shape x))
    (level : saccess x.sreg.toNat = .super → i.anyProgram (s.sees i x.h (SrdOps.shape x)).ts = false) :
    exec (.srd x) s = .next (s.performed i x.h (SrdOps.shape x) 1 fun i k t =>
      ((k.vals.foldl (fun t m => t.writeDst i.r.g i.r.w i.g { op := x.d, n := 2 } m.1 (if k.uni then k.ts else [m.1])
        (regsOf 2 (t.sread i m.1 x.sreg.toNat).toNat false)) t).tick, .next [])) := by
  show execSrd x s = _
  refine issue_body c _ _ _ _ ?_ ((still_foldl _ _ (fun _ _ => (calm_writeDst _ _ _ _ _ _ _ _).still) _).trans (still_tick _))
  dsimp only
  rw [if_neg (by simpa using level)]

/-! ### SWR -/

/-- Neither the check of the level nor that of the slots keeps an SWR from its effect, which may trap: no earlier access of its threads is
under way (R336). -/
theorem swrIssue_completes {i : Instr} {x : SwrOps} {f : Iss → Nat → W64 → State → State} (h : ∀ s, exec i s = swrIssue i x s f) :
    SwrCompletes i x f := by
  intro s y m v c hw order level slots
  rw [h, swrIssue, issueMem, withIssue_of c.issues, hw, if_neg (by simp)]
  refine outstanding_body c _ _ _ _ order ?_
  have permitted : ¬((decide (saccess x.sreg.toNat = .super) || decide (saccess x.sreg.toNat = .write)) &&
      y.anyProgram (s.sees y x.h (SwrOps.shape x)).ts) = true := by simpa using level
  rw [if_neg permitted]
  exact if_neg (slots ▸ Bool.false_ne_true)

/-- An SWR that acts on the ticket in the lower half of its value (R333, R464, R502). -/
theorem swrIssue_ticket_completes {i : Instr} {x : SwrOps} {f : State → Nat → Nat → State}
    (h : ∀ s, exec i s = swrIssue i x s fun _ ctx v t => f t ctx (doneTicket v)) :
    SwrCompletes i x fun _ ctx v t => f t ctx (v.toNat % 2 ^ 32) := by
  have ticket (v : W64) : doneTicket v = v.toNat % 2 ^ 32 := (Laws.Encoding.bits_eq v.toNat 31 0).trans (by simp)
  simp only [← ticket]
  exact swrIssue_completes h

/-! ### PREEMPT -/

theorem preemptIssue_completes (i : Instr) (x : OpA) (res : Bool) (s : State) (y : Iss) :
    let sh : Shape := { srcs := [{ field := 2, op := x.a, n := 1, uni := true }], uni := some true, flat := true, execOnly := true }
    let ctx := regsNat (((s.sees y x.h sh).vals.headD (0, [])).2.headD [])
    Clear s y x.h sh → y.anyProgram (s.sees y x.h sh).ts = false →
    preemptIssue i x res s = .next (s.performed y x.h sh 1 fun _ _ t =>
      (t.updCtx ctx fun c => { c with requests := c.requests ++ [res] }, .next [])) := by
  intro sh ctx c level
  refine issue_body c _ _ _ _ ?_ (still_updCtx _ _ _ fun _ => rfl)
  rw [level, if_neg (by simp)]

/-! ### WATCH -/

theorem watch_completes (x : OpAB) (s : State) (i : Iss) (e : TlbEntry) :
    let sh : Shape := { srcs := [{ field := 2, op := x.a, n := 2, uni := true, strict := true }, { field := 3, op := x.b, n := 1, uni := true }],
                        uni := some true, flat := true, execOnly := true }
    let v := ((s.sees i x.h sh).vals.headD (0, [])).2
    let b := regsNat (v.getD 1 [])
    let sz := b / 16 % 16
    let va := regsNat (v.getD 0 []) / 2 ^ sz * 2 ^ sz
    let key := PathRef.waitKey i.r i.p
    Clear s i x.h sh → sz ≤ 10 → (s.afterRead i x.h sh).translate i.c va i.g.via = .ok e →
    let t := (s.afterRead i x.h sh).walked i.g.via e
    let u := (({ t with mem := t.mem.hold i.g.via e } : State).updCtx i.c.num fun c => { c with
      watch := c.watch.modify (b % 8) fun w => { w with kind := b / 2 ^ 8 % 4, sz := sz, base := e.pa va } }).tick
    s.arrives key 0 u →
    exec (.watch x) s = .next (s.performed i x.h sh 1 fun _ _ _ => (u.arrive key, .next [])) := by
  intro sh v b sz va key c small page t u arrives
  show execWatch x s = _
  have still : Still (s.afterRead i x.h sh) (u.arrive key) :=
    (still_walked _ i.g.via e).trans <| (still_memory t (t.mem.hold i.g.via e)).trans <|
      (still_updCtx _ i.c.num _ fun _ => by rfl).trans <| (still_tick _).trans (still_arrive _ key)
  refine issue_body c _ _ _ _ ?_ still
  have length : (if bits b 7 4 ≤ 10 then bits b 7 4 else (Config.freeWord (s.afterRead i x.h sh).ticks).toNat % 11) = sz := by
    rw [Laws.Encoding.bits_eq]
    exact if_pos small
  have code : bits b 9 8 = b / 2 ^ 8 % 4 := Laws.Encoding.bits_eq b 9 8
  dsimp only
  rw [length, code, page]
  exact reached_arrives arrives

/-- Settles O22: the level allows it, no slot that it writes stalls, and what WATCH's walk reaches arrives, so each takes the branch of its
effect; each row of SWR is `swrIssue` with its own effect. -/
theorem systemInstructionsComplete : Obligations.SystemInstructionsComplete :=
  ⟨srd_completes, fun _ => swrIssue_completes fun _ => rfl, fun _ => swrIssue_completes fun _ => rfl,
    fun _ => swrIssue_completes fun _ => rfl, fun _ => swrIssue_completes fun _ => rfl, fun _ => swrIssue_completes fun _ => rfl,
    fun _ => swrIssue_ticket_completes fun _ => rfl, fun _ => swrIssue_ticket_completes fun _ => rfl,
    fun _ => swrIssue_ticket_completes fun _ => rfl, fun _ => swrIssue_ticket_completes fun _ => rfl,
    fun _ => swrIssue_ticket_completes fun _ => rfl, fun _ => swrIssue_completes fun _ => rfl,
    fun x s i => preemptIssue_completes (.preempt x) x false s i, fun x s i => preemptIssue_completes (.preemptRes x) x true s i,
    watch_completes⟩

end Sys2Proof.Machine
end

section
/-! PROOFS. How the sequencers' transfers begin, go block by block, and end (R182, R184, R353, R372, R375 to R378, R381, R506, R507). -/

namespace Sys2Proof.Machine

/-! ### A sequencer context issues an instruction that reaches memory -/

section Issue
variable {s t : State} {i : SIss}

theorem withSeqMem_arrives {f : SIss → State → Result} (hi : s.siss? = some i) (hf : f i (s.countIssue i) = .next t)
    (harr : s.arrives (seqKey i.n) 1 t) : withSeqMem s f = .next (t.arrive (seqKey i.n)) := by
  simp only [withSeqMem, hi]
  exact attempt_arrives hf harr

/-- A transfer that goes on has counted (R391). -/
theorem countIssue_of_xfer {xf : Xfer} (hx : i.q.xfer = some xf) : s.countIssue i = s := by
  simp [State.countIssue, hx]

/-- The instruction of a transfer (R375 to R378). -/
def XKind.instr (kind : XKind) (x : ZfTransfer) : Instr :=
  match kind with | .send => .xsend x | .recv => .xrecv x | .red => .xred x | .fwd => .xfwd x

/-- The four transfers differ in their operands alone. -/
theorem exec_transfer (kind : XKind) (x : ZfTransfer) (s : State) :
    exec (kind.instr x) s = withSeqMem s fun i s => .next (s.transfer i (XOps.of kind x i.q)) := by
  cases kind <;> rfl

theorem exec_begins {kind : XKind} {x : ZfTransfer} {s1 : State} {xf : Xfer} (hi : s.siss? = some i) (hnone : i.q.xfer = none)
    (hbegin : (s.countIssue i).beginXfer i (XOps.of kind x i.q) = .ok (s1, xf))
    (ht : (s1.updSeq i.n fun _ => { i.q with xfer := some xf, blocks := 0, packets := 0 }).xferStep
      { i with q := { i.q with xfer := some xf, blocks := 0, packets := 0 } } (XOps.of kind x i.q) xf = t)
    (harr : s.arrives (seqKey i.n) 1 t) : exec (kind.instr x) s = .next (t.arrive (seqKey i.n)) := by
  rw [exec_transfer]
  refine withSeqMem_arrives hi ?_ harr
  simp only [State.transfer, hnone, hbegin, ht]

theorem exec_goesOn {kind : XKind} {x : ZfTransfer} {xf : Xfer} (hi : s.siss? = some i) (hx : i.q.xfer = some xf)
    (ht : s.xferStep i (XOps.of kind x i.q) xf = t) (harr : s.arrives (seqKey i.n) 1 t) :
    exec (kind.instr x) s = .next (t.arrive (seqKey i.n)) := by
  rw [exec_transfer]
  refine withSeqMem_arrives hi ?_ harr
  simp only [countIssue_of_xfer hx, State.transfer, hx, ht]

end Issue

/-! ### One block -/

/-- A block takes its window of destination lines when it begins one (R182). -/
def State.openWindow (s : State) (i : SIss) (o : XOps) (x : Xfer) : State × Xfer :=
  if x.until_ ≤ i.q.blocks ∧ o.dests x.ember i.q.blocks ≠ [] then s.seqWindow i.c o i.q.blocks x else (s, x)

/-- What a transfer holds once a block has left its bytes in its lines and its wire bytes behind those before it. -/
def Xfer.gather (x : Xfer) (out : BlockOut) (noted4B noted4D : Bool) : Xfer :=
  { x with
    pend := x.pend ++ out.writes.flatMap fun w => w.2.zipIdx.map fun b => (w.1 + b.2, b.1)
    wire := x.wire ++ out.wire
    noted4B := noted4B || out.bad4B.isSome
    noted4D := noted4D || out.bad4D.isSome }

/-- The lines that wait to be written and that block j + 1 does not touch. -/
def XOps.readyLines (o : XOps) (e : Option Ember) (j : Nat) (x : Xfer) : List Nat :=
  ((x.pend.map fun b => b.1 / 32).eraseDups).filter fun l =>
    !((if j + 1 < o.total then linesAt (o.dests e (j + 1)) else []).contains l)

/-- Record a bad byte once for a transfer (R506, R507). -/
def State.noteOnce (s : State) (i : SIss) (cls j : Nat) (noted : Bool) : Option Nat → State
  | some a => if noted then s else s.noteWire i cls a j
  | none => s

/-- What a block leads to once its lines are written: the records, the count of blocks sent, and packets handed over. -/
def State.blockDone (s : State) (i : SIss) (o : XOps) (x : Xfer) (out : BlockOut) (x3 : Xfer) : State :=
  let s3 := s.updSeq i.n fun q => { q with blocks := i.q.blocks + 1, xfer := some x3 }
  let s5 := (s3.noteOnce i 0x4B i.q.blocks x.noted4B out.bad4B).noteOnce i 0x4D i.q.blocks x.noted4D out.bad4D
  (if o.sends && o.kind ≠ .fwd then s5.count 5 (i.n / 8) 1 1 else s5).flush i.n o false 2

/-- What the end of a transfer leads to once its ember stands: what is left goes out, or the receiver's counter is advanced. -/
def State.endXfer (s : State) (i : SIss) (o : XOps) (x : Xfer) : State :=
  if o.sends then
    match x.op with
    | none => s.seqNext i (i.q.pc + 4) id
    | some n => (((s.flush i.n o true 2).updRemote n fun r => { r with sent := true }).settleOp n).seqNext i (i.q.pc + 4) id
  else
    (match o.ctr i.q with
      | some a => s.advance i.q.ctx a.toNat o.byteCount 8 (i.n / 8)
      | none => s).seqNext i (i.q.pc + 4) id

section Step
variable {s s1 s2 : State} {i : SIss} {o : XOps} {x x1 x3 : Xfer}

theorem window_iff {l : List (Nat × Nat)} {n j : Nat} : (decide (n ≤ j) && !l.isEmpty) = true ↔ n ≤ j ∧ l ≠ [] := by
  simp

theorem xferStep_block {pss : List (List Piece)} (hj : i.q.blocks < o.total)
    (hroom : ∀ r, x.op.bind s.remote? = some r → 2 ≤ s.sendRoom r.pdc)
    (hread : (s.openWindow i o x).1.seqLines i.c i.n (s.openWindow i o x).2 (o.reads x.ember i.q.blocks) = .ok (s1, x1))
    (hdests : (o.dests x.ember i.q.blocks).mapM (fun d => s1.seqPieces i.c true x1.taken d.1 d.2) = .ok pss) :
    let out := o.block x.ember i.q.blocks ((o.reads x.ember i.q.blocks).map x1.bytes)
    let x2 := x1.gather out x.noted4B x.noted4D
    s1.seqPut i.c i.n x2 (o.readyLines x.ember i.q.blocks x2) = .ok (s2, x3) →
    s.xferStep i o x = s2.blockDone i o x out x3 := by
  intro out x2 hput
  simp only [State.openWindow, ← window_iff] at hread
  simp only [x2, out, Xfer.gather, XOps.readyLines] at hput
  unfold State.xferStep
  cases hr : x.op.bind s.remote? with
  | none =>
    simp only [if_pos hj, hread, hdests, hput, Bool.false_eq_true, if_false]
    rfl
  | some r =>
    simp only [if_pos hj, Nat.not_lt.mpr (hroom r hr), hread, hdests, hput, decide_false, Bool.false_eq_true, if_false]
    rfl

/-! ### The end -/

/-- After the last block the version of the transfer's ember rises, where it has one, and the transfer ends. -/
theorem xferStep_ends (hj : o.total ≤ i.q.blocks)
    (he : ∀ e, x.ember = some e → s.putEmber i.c i.n { e with version := e.version + 1, seqctx := i.n } = .ok s1)
    (hnone : x.ember = none → s1 = s) : s.xferStep i o x = s1.endXfer i o x := by
  unfold State.xferStep
  cases hx : x.ember with
  | none =>
    simp only [if_neg (Nat.not_lt.mpr hj), hnone hx]
    rfl
  | some e =>
    simp only [if_neg (Nat.not_lt.mpr hj), he e hx]
    rfl

theorem endXfer_of_sends {n : Nat} (hsends : o.sends = true) (hop : x.op = some n) :
    s.endXfer i o x = (((s.flush i.n o true 2).updRemote n fun r => { r with sent := true }).settleOp n).seqNext i (i.q.pc + 4) id := by
  simp only [State.endXfer, hsends, hop, if_true]

theorem endXfer_of_receives (hsends : o.sends = false) :
    s.endXfer i o x = (match o.ctr i.q with
      | some a => s.advance i.q.ctx a.toNat o.byteCount 8 (i.n / 8)
      | none => s).seqNext i (i.q.pc + 4) id := by
  simp only [State.endXfer, hsends, Bool.false_eq_true, if_false]

end Step

/-- Settles O25: the conditions choose the one branch of a transfer's step in which it begins, performs its block, or ends, and what
that leads to is an attempt that arrives. -/
theorem sequencerTransfersComplete : Obligations.SequencerTransfersComplete := by
  intro kind x s i instr o j hi
  refine ⟨fun _ _ hnone hbegin harr => exec_begins hi hnone hbegin rfl harr, fun _ _ _ _ _ _ hx hj hroom hread hdests hput harr => ?_,
    fun xf s1 hx hj he hnone => ⟨fun n hsends hop harr => ?_, fun hsends harr => ?_⟩⟩
  · exact exec_goesOn hi hx (xferStep_block hj hroom hread hdests hput) harr
  · exact exec_goesOn hi hx ((xferStep_ends hj he hnone).trans (endXfer_of_sends hsends hop)) harr
  · exact exec_goesOn hi hx ((xferStep_ends hj he hnone).trans (endXfer_of_receives hsends)) harr

end Sys2Proof.Machine
end

section
/-! PROOFS. What the control node reads and writes: the commands IMAGE, MEMWR, MEMRD and CTRMAX (R188, R382, R383). -/

namespace Sys2Proof.Machine

/-! ### Accesses leave the control node's mail alone -/

section Mail
variable (s : State)

@[simp] theorem mail_mem (m : Memory) : ({ s with mem := m } : State).mail = s.mail := rfl

/-- A fold over states. -/
theorem mail_states {α : Type} {f : State → α → State} (hf : ∀ t a, (f t a).mail = t.mail) (l : List α) : (l.foldl f s).mail = s.mail :=
  mail_foldl id l hf s

@[simp] theorem mail_walkRead (c : Ctx) (va : Nat) : (s.walkRead c va).mail = s.mail :=
  mail_states s (fun t _ => by rw [mail_served, mail_mem]) _

@[simp] theorem mail_walked (via : Option TlbPlace) (e : TlbEntry) : (s.walked via e).mail = s.mail := by
  unfold State.walked
  split
  · exact mail_walkRead ..
  · rfl

@[simp] theorem mail_fillLine (e : TlbEntry) (line core : Nat) : (s.fillLine e line core).mail = s.mail := by
  unfold State.fillLine
  dsimp only
  split <;> rfl

@[simp] theorem mail_noteHeader (ctx pa n : Nat) : (s.noteHeader ctx pa n).mail = s.mail := by
  refine mail_states s (fun t x => ?_) _
  split
  · exact mail_report ..
  · rfl

@[simp] theorem mail_hostWrite (ctx pa n : Nat) : (s.hostWrite ctx pa n).mail = s.mail := by
  unfold State.hostWrite
  split <;> rfl

@[simp] theorem mail_agentRead (req cls agent : Nat) (p : Piece) : (s.agentRead req cls agent p).1.mail = s.mail := by
  unfold State.agentRead
  dsimp only
  rw [mail_noteHeader, mail_watch, mail_states _ (fun t l => by rw [mail_served, mail_mem, mail_fillLine]), mail_mem, mail_walked]

@[simp] theorem mail_agentWrite (req cls agent : Nat) (p : Piece) (bs : List (Byte × Bool)) :
    (s.agentWrite req cls agent p bs).mail = s.mail := by
  unfold State.agentWrite
  dsimp only
  rw [mail_hostWrite, mail_watch, mail_mem, mail_states _ (fun t l => by rw [mail_served, mail_mem]), mail_mem, mail_walked]

@[simp] theorem mail_engineWrite (req cls agent : Nat) (ps : List Piece) (bs : List (Byte × Bool)) :
    (s.engineWrite req cls agent ps bs).mail = s.mail := by
  induction ps generalizing s bs with
  | nil => rfl
  | cons p ps ih => exact (ih _ _).trans (mail_agentWrite ..)

theorem mail_engineRead {t : State} {c : Ctx} {va n req cls agent : Nat} {via : Option TlbPlace} {bs : List (Byte × Bool)}
    (h : s.engineRead c va n req cls agent via = some (t, bs)) : t.mail = s.mail := by
  unfold State.engineRead at h
  split at h
  · cases h
  · obtain rfl : _ = t := congrArg Prod.fst (Option.some.inj h)
    refine mail_foldl Prod.fst _ (fun b p => ?_) (s, [])
    exact mail_agentRead ..

@[simp] theorem mail_nodeWrite (pa : Nat) (bs : List Byte) : (s.nodeWrite pa bs).mail = s.mail := by
  unfold State.nodeWrite
  dsimp only
  rw [mail_watch, mail_mem, mail_states s (fun t l => by rw [mail_served, mail_mem])]

end Mail

/-! ### A command that is answered once it reaches its sectors -/

section Reach
variable {s t : State} {i : Instr} {h : AkHdr} {r : Reply} {key : Nat × Nat}

/-- A device that takes commands answers one that has reached its sectors: leaving its places in line changes no reply. -/
theorem akoon_reaches {f : State → Result} (hs : s.takesCommand) (hf : f s = .next ((t.tell r).arrive key)) (hmail : t.mail = s.mail) :
    akoon i h s f = .next ((t.tell r).arrive key) :=
  akoon_answers (t := t.arrive key) hs hf hmail

theorem akoonIn_reaches {f : State → Ctx → Result} {c : Ctx} (hs : s.takesCommand) (hc : s.ctx? h.ctx = some c)
    (hf : f s c = .next ((t.tell r).arrive key)) (hmail : t.mail = s.mail) : akoonIn i h s f = .next ((t.tell r).arrive key) :=
  akoon_reaches hs (by simp only [hc, hf]) hmail

end Reach

/-! ### The commands -/

section Commands
variable {s : State} {c : Ctx} {ps : List Piece}

theorem execImage_writes {x : AkBytes} (hs : s.takesCommand) (haligned : x.addr.toNat % 64 = 0) (hmin : 64 ≤ x.bytes.length)
    (hmax : x.bytes.length ≤ 4096) (hfirst : hbmPa x.addr.toNat = true) (hlast : hbmPa (x.addr.toNat + x.bytes.length - 1) = true)
    (hfree : s.ownedRange x.addr.toNat x.bytes.length = false)
    (harr : s.arrives nodeKey nodeReq ((s.nodeWrite x.addr.toNat x.bytes).tell (replyTo x.h 0 []))) :
    execImage x s = .next (((s.nodeWrite x.addr.toNat x.bytes).tell (replyTo x.h 0 [])).arrive nodeKey) := by
  refine akoon_reaches hs ?_ (mail_nodeWrite ..)
  simp only [haligned, hfirst, hlast, hfree, Nat.not_lt.mpr hmin, Nat.not_lt.mpr hmax,
    ne_eq, not_true_eq_false, Bool.not_true, decide_false, Bool.or_self, Bool.false_eq_true, if_false]
  exact attempt_arrives rfl harr

theorem execMemwr_writes {x : AkBytes} (hs : s.takesCommand) (hc : s.ctx? x.h.ctx = some c) (hmin : 1 ≤ x.bytes.length)
    (hmax : x.bytes.length ≤ 4096) (hps : s.piecesAt c none (piecesOf x.addr.toNat x.bytes.length) = .ok ps)
    (hattr : ∀ p ∈ ps, attrCtr p.e.attr = false ∧ attrW p.e.attr = true) (hwb : wbPiece ps = false) (hfree : s.ownedPieces ps = false)
    (harr : s.arrives nodeKey nodeReq ((s.engineWrite nodeReq nodeClass 0 ps (clean x.bytes)).tell (replyTo x.h 0 []))) :
    execMemwr x s = .next (((s.engineWrite nodeReq nodeClass 0 ps (clean x.bytes)).tell (replyTo x.h 0 [])).arrive nodeKey) := by
  have permitted : ps.any (fun p => attrCtr p.e.attr || !(attrW p.e.attr)) = false := by
    simpa only [List.any_eq_false, Bool.not_eq_true, Bool.or_eq_false_iff, Bool.not_eq_false'] using hattr
  refine akoonIn_reaches hs hc ?_ (mail_engineWrite ..)
  simp only [hps, permitted, hwb, hfree, Nat.not_lt.mpr hmin, Nat.not_lt.mpr hmax,
    decide_false, Bool.or_self, Bool.false_eq_true, if_false]
  exact attempt_arrives rfl harr

theorem execMemrd_reads {x : AkRead} {u : State} {bs : List (Byte × Bool)} (hs : s.takesCommand) (hc : s.ctx? x.h.ctx = some c)
    (hmin : 1 ≤ x.len) (hmax : x.len ≤ 4096) (hps : s.piecesAt c none (piecesOf x.addr.toNat x.len) = .ok ps)
    (hattr : ∀ p ∈ ps, attrCtr p.e.attr = false) (hfree : s.ownedPieces ps = false)
    (hread : s.engineRead c x.addr.toNat x.len nodeReq nodeClass 0 = some (u, bs))
    (harr : s.arrives nodeKey nodeReq (u.tell (replyTo x.h 0 (bs.map (·.1))))) :
    execMemrd x s = .next ((u.tell (replyTo x.h 0 (bs.map (·.1)))).arrive nodeKey) := by
  have permitted : ps.any (fun p => attrCtr p.e.attr) = false := by simpa only [List.any_eq_false, Bool.not_eq_true] using hattr
  refine akoonIn_reaches hs hc ?_ (mail_engineRead s hread)
  simp only [hps, permitted, hfree, Nat.not_lt.mpr hmin, Nat.not_lt.mpr hmax,
    decide_false, Bool.or_self, Bool.false_eq_true, if_false]
  exact attempt_arrives (by simp only [hread]; rfl) harr

/-- A counter raised to the larger value by the control node; one in memory is served at its sector (R340). -/
def State.nodeRaise (s : State) (c : Ctx) (va : Nat) (l : CtrLoc) (v : Nat) : State :=
  let u := (s.holdRange c va 16).ctrPut l 0 (leBytes 8 (max (s.ctrGet l).1 v)) (s.ctrGet l).2.2
  match l with
  | .phys pa => ((u.served (pa / 1024) nodeReq false).watch true true pa 8 nodeClass 0).1
  | .scratch .. => u

@[simp] theorem mail_nodeRaise (va : Nat) (l : CtrLoc) (v : Nat) : (s.nodeRaise c va l v).mail = s.mail := by
  cases l <;> simp [State.nodeRaise]

theorem execCtrmax_raises {x : AkCtr} {l : CtrLoc} (hs : s.takesCommand) (hc : s.ctx? x.h.ctx = some c) (haligned : x.addr.toNat % 16 = 0)
    (hctr : s.engineCtr c x.addr.toNat = .ok l) (hwb : s.wbRange c x.addr.toNat 16 = false)
    (harr : s.arrives nodeKey nodeReq ((s.nodeRaise c x.addr.toNat l x.v.toNat).tell (replyTo x.h 0 []))) :
    execCtrmax x s = .next (((s.nodeRaise c x.addr.toNat l x.v.toNat).tell (replyTo x.h 0 [])).arrive nodeKey) := by
  refine akoonIn_reaches hs hc ?_ (mail_nodeRaise ..)
  simp only [haligned, hctr, hwb, ne_eq, not_true_eq_false, Bool.false_eq_true, if_false]
  refine attempt_arrives ?_ harr
  cases l <;> rfl

end Commands

/-- Settles O27: each command passes its checks, its accesses leave the mail alone, and what it does and answers is an attempt that arrives. -/
theorem memoryCommandsComplete : Obligations.MemoryCommandsComplete :=
  ⟨fun _ _ => execImage_writes, fun _ _ _ _ => execMemwr_writes, fun _ _ _ _ _ _ => execMemrd_reads, fun _ _ _ _ => execCtrmax_raises⟩

end Sys2Proof.Machine
end

section
/-! PROOFS. Encoding and decoding agree (R189 to R204, R373). -/

namespace Sys2Proof.Laws.Encoding

/-- Decoding gives back every instruction: the lemma of its constructor says so where it has words, and no command or event has any. -/
theorem decode_encode (i : Instr) : Statement i := by
  cases i with
  -- control (R222)
  | nop x => exact nop x | bra x => exact bra x | brx x => exact brx x | brq x => exact brq x | call x => exact call x
  | ret x => exact ret x | skip x => exact skip x | exit x => exact exit x | yield x => exact yield x | sign x => exact sign x
  | cvset x => exact cvset x | prio x => exact prio x
  -- integer and address (R230)
  | mov x => exact mov x | sel x => exact sel x | iadd x => exact iadd x | isub x => exact isub x | imul x => exact imul x
  | imulh x => exact imulh x | imad x => exact imad x | imin x => exact imin x | imax x => exact imax x | iabs x => exact iabs x
  | and x => exact and x | or x => exact or x | xor x => exact xor x | shl x => exact shl x | shr x => exact shr x
  | sar x => exact sar x | popc x => exact popc x | clz x => exact clz x | brev x => exact brev x | bfe x => exact bfe x
  | bfi x => exact bfi x | icmp x => exact icmp x | lea x => exact lea x
  -- floating point and pairs (R199, R234, R239, R240)
  | fadd x => exact fadd x | fsub x => exact fsub x | fmul x => exact fmul x | fma x => exact fma x | fmin x => exact fmin x
  | fmax x => exact fmax x | fcmp x => exact fcmp x | frnd x => exact frnd x | dadd x => exact dadd x | dsub x => exact dsub x
  | dmul x => exact dmul x | dfma x => exact dfma x | dmin x => exact dmin x | dmax x => exact dmax x | dcmp x => exact dcmp x
  | hadd2 x => exact hadd2 x | hsub2 x => exact hsub2 x | hmul2 x => exact hmul2 x | hfma2 x => exact hfma2 x
  | hmin2 x => exact hmin2 x | hmax2 x => exact hmax2 x | hcmp2 x => exact hcmp2 x | exp2 x => exact exp2 x
  | log2 x => exact log2 x | rcp x => exact rcp x | rsq x => exact rsq x | sqrt x => exact sqrt x | tanh x => exact tanh x
  | pair x => exact pair x
  -- conversions and quantisation (R241)
  | cvt x => exact cvt x | cvtF8 x => exact cvtF8 x | cvtF6 x => exact cvtF6 x | cvtF4 x => exact cvtF4 x
  | mxqScale x => exact mxqScale x | mxq x => exact mxq x | mxd x => exact mxd x | unpk x => exact unpk x
  | pack x => exact pack x
  -- cross-thread (R250)
  | qx x => exact qx x | perm x => exact perm x | ptld x => exact ptld x | vote x => exact vote x | wsum x => exact wsum x
  | wmax x => exact wmax x | wscan x => exact wscan x
  -- memory, atomics, counters, queues, copies (R258)
  | ldG x => exact ldG x | ldS x => exact ldS x | stG x => exact stG x | stS x => exact stS x | pref x => exact pref x
  | llcLock x => exact llcLock x | llcUnlock x => exact llcUnlock x | llcUnlockAll x => exact llcUnlockAll x
  | fence x => exact fence x | atomG x => exact atomG x | atomS x => exact atomS x | atomCasG x => exact atomCasG x
  | atomCasS x => exact atomCasS x | atomCas64G x => exact atomCas64G x | atomCas64S x => exact atomCas64S x
  | ctrInit x => exact ctrInit x | ctrAdd x => exact ctrAdd x | ctrMax x => exact ctrMax x | ctrWait x => exact ctrWait x
  | ctrRd x => exact ctrRd x | qcfg x => exact qcfg x | copyLd x => exact copyLd x | copySt x => exact copySt x
  | copyCp x => exact copyCp x
  -- matrix, optimiser and kiln (R292)
  | tcfg x => exact tcfg x | tcfgFree x => exact tcfgFree x | tzero x => exact tzero x | mma x => exact mma x
  | mmd x => exact mmd x | twrr x => exact twrr x | twrc x => exact twrc x | trdr x => exact trdr x | trdc x => exact trdc x
  | tld x => exact tld x | tst x => exact tst x | tepi x => exact tepi x | seed x => exact seed x | seedS x => exact seedS x
  | adamw x => exact adamw x | kstep x => exact kstep x | ksig x => exact ksig x | ktest x => exact ktest x
  | kreuse x => exact kreuse x | kmap x => exact kmap x | kmapSrc x => exact kmapSrc x | kend x => exact kend x
  -- task, launch and system (R322)
  | launch x => exact launch x | taskRange x => exact taskRange x | taskNext x => exact taskNext x | taskGet x => exact taskGet x
  | taskDone x => exact taskDone x | kindle x => exact kindle x | svc x => exact svc x | svcWait x => exact svcWait x
  | trap x => exact trap x | eret x => exact eret x | bkpt x => exact bkpt x | srd x => exact srd x | swr x => exact swr x
  | preempt x => exact preempt x | preemptRes x => exact preemptRes x | spark x => exact spark x | watch x => exact watch x
  -- rows of SWR (R337)
  | tlbinvPage x => exact tlbinvPage x | tlbinvContext x => exact tlbinvContext x | tlbinvAll x => exact tlbinvAll x
  | svcqRingReset x => exact svcqRingReset x | svcdoneReply x => exact svcdoneReply x | spillReplay x => exact spillReplay x
  | spillAbort x => exact spillAbort x | sequencerResume x => exact sequencerResume x
  | sequencerAbort x => exact sequencerAbort x | wpsClear x => exact wpsClear x
  -- ZF (R373)
  | movi x => exact movi x | addi x => exact addi x | zfAdd x => exact zfAdd x | zfSub x => exact zfSub x | beq x => exact beq x
  | bne x => exact bne x | zfBra x => exact zfBra x | xsend x => exact xsend x | xrecv x => exact xrecv x
  | xred x => exact xred x | xfwd x => exact xfwd x | cwait x => exact cwait x | cadv x => exact cadv x
  | cadvRmt x => exact cadvRmt x | cadd x => exact cadd x | embBind x => exact embBind x | embFold x => exact embFold x
  | zfDone => exact zfDone
  -- commands and events
  | _ => exact of_none rfl

/-- Settles O42: the round trip of each constructor of Instr. -/
theorem encodeDecode : Obligations.EncodeDecode := fun i w wf he => decode_encode i wf w he

end Sys2Proof.Laws.Encoding

namespace Sys2Proof.Laws.Encoding.Tables

/-- Settles O43: each of the twelve words computes to its instruction, every field of it read at the place that the tables give. -/
theorem decodeWords : Obligations.DecodeWords :=
  ⟨rfl, rfl, rfl, rfl, rfl, rfl, rfl, rfl, rfl, rfl, rfl, rfl⟩

end Sys2Proof.Laws.Encoding.Tables
end

section
/-! PROOFS. What a pair does (R199 to R202, R416). -/

namespace Sys2Proof.Machine

/-- The D of a half is one vector register of its thread (R200). -/
theorem putHalf_eq (s : State) (i : Iss) (y : Half) (t : Nat) (v : List (List Reg)) :
    s.putHalf i y t v = if y.op = .nop then s else s.updThread i.r.g i.r.w t fun th => th.setReg y.d.val (halfResult y v) := rfl

theorem calm_putHalf (s : State) (i : Iss) (y : Half) (t : Nat) (v : List (List Reg)) : Calm s (s.putHalf i y t v) := by
  rw [putHalf_eq]
  split
  · exact Calm.refl s
  · exact calm_updThread _ _ _ _ _ fun th => setReg_trapped th _ _

theorem calm_pairBody (x : PairOps) (i : Iss) (k : Taken) (s : State) : Calm s (PairOps.body x i k s).1 :=
  calm_foldl _ _ (fun _ _ => (calm_putHalf ..).trans (calm_putHalf ..)) s

theorem exec_pair {x : PairOps} {s : State} {i : Iss} (c : Clear s i (PairOps.hdr x) (PairOps.shape x)) :
    exec (.pair x) s = .next (s.performed i (PairOps.hdr x) (PairOps.shape x) (PairOps.cycles x) (PairOps.body x)) :=
  issue_calm c _ _ _ (calm_pairBody x i)

/-- Settles O6: the halves only write registers, so a pair that nothing stops performs its body. The operands of both halves are sources
that it reads at its start, and the fold over the threads writes the lower half's D, then the upper's. -/
theorem pairCompletes : Obligations.PairCompletes := by
  intro x s i c
  rw [exec_pair c]
  unfold PairOps.body PairOps.cycles
  simp only [putHalf_eq]

end Sys2Proof.Machine
end

section
/-! PROOFS. Words that are no instruction, and words that cannot be fetched (R428, R453, R501, R503). -/

namespace Sys2Proof.Machine

section Path
variable {s : State} {i : Iss}

/-- A trap at the word itself is not put off when no access of the path's threads is under way (R334, R429). -/
theorem withIssue_orderly {t : State} (hi : s.iss? = some i) (quiet : s.outstanding i = false) {f : Iss → Result} (hf : f i = .next t) :
    withIssue s (fun x => x.orderly s (f x)) = .next t := by
  rw [withIssue_of hi, hf, orderly_next (.inl quiet)]

theorem execNotAnInstruction_traps (hi : s.iss? = some i) (quiet : s.outstanding i = false) (cond : Fin 16) :
    execNotAnInstruction cond s =
      .next (if i.active = 0 then s.finish i.r i.size [] else s.faultPath i 0x10 0 cond.val) :=
  withIssue_orderly hi quiet (apply_ite Host.Outcome.next ..).symm

theorem execFetchFault_traps (hi : s.iss? = some i) (quiet : s.outstanding i = false) (detail : Nat) (addr : W64) :
    execFetchFault detail addr s = .next (s.faultPath i 0x25 addr.toNat detail) :=
  withIssue_orderly hi quiet rfl

end Path

section Sequencer
variable {s : State} {i : SIss}

theorem withSeq_of (hi : s.siss? = some i) (f : SIss → State → Result) : withSeq s f = f i (s.countIssue i) := by
  simp only [withSeq, hi]

/-- The operation code of a ZF word is its 6 highest bits (R373). -/
theorem zfOp_eq (w : W32) : bits w.toNat 31 26 = w.toNat / 2 ^ 26 := by
  have := w.isLt
  rw [Laws.Encoding.bits_eq]
  omega

theorem execZfOpcodeNotAllocated_stops (hi : s.siss? = some i) (word : W32) :
    execZfOpcodeNotAllocated word s =
      .next ((s.countIssue i).stopProg i.q.key i.n i.q.ctx i.q.pc 0x48 0 (zfKind word + word.toNat / 2 ^ 26 * 16)) := by
  rw [execZfOpcodeNotAllocated, withSeq_of hi, zfOp_eq]
  rfl

theorem execZfWordNotFetched_stops (hi : s.siss? = some i) :
    execZfWordNotFetched s = .next ((s.countIssue i).stopProg i.q.key i.n i.q.ctx i.q.pc 0x48 0 9) :=
  withSeq_of hi _

end Sequencer

/-- Settles O26: a path whose threads have no access under way takes its trap at once, and a sequencer context stops at its word. -/
theorem wordsThatAreNoInstruction : Obligations.WordsThatAreNoInstruction :=
  ⟨fun cond _ _ hi quiet => execNotAnInstruction_traps hi quiet cond,
    fun detail addr _ _ hi quiet => execFetchFault_traps hi quiet detail addr,
    fun word _ _ hi => execZfOpcodeNotAllocated_stops hi word, fun _ _ hi => execZfWordNotFetched_stops hi⟩

end Sys2Proof.Machine
end

section
/-! PROOFS. The numbers of the integer instructions as bit vectors (R113, R231): what each formula on integers gives,
as a formula on the bits. -/

namespace Sys2Proof.Machine

/-! ### Values and their bits -/

theorem sval_eq_toInt (n x : Nat) : sval n x = (BitVec.ofNat n x).toInt := by
  have := Nat.mod_lt x (Nat.two_pow_pos n)
  simp only [sval, BitVec.toInt_eq_toNat_cond, BitVec.toNat_ofNat]
  push_cast
  split <;> split <;> omega

theorem wrapInt_eq_toNat (n : Nat) (x : Int) : wrapInt n x = (BitVec.ofInt n x).toNat := (BitVec.toNat_ofInt x).symm

theorem intOf_true (n x : Nat) : intOf n true x = (BitVec.ofNat n x).toInt := sval_eq_toInt n x
theorem intOf_false (n x : Nat) : intOf n false x = ((BitVec.ofNat n x).toNat : Int) := by simp [intOf]

/-- An operand widened as its instruction reads it. -/
theorem ofInt_intOf (m n : Nat) (sgn : Bool) (x : Nat) :
    BitVec.ofInt m (intOf n sgn x) = if sgn then (BitVec.ofNat n x).signExtend m else (BitVec.ofNat n x).setWidth m := by
  cases sgn with
  | true => rw [intOf_true, if_pos rfl, BitVec.signExtend]
  | false => rw [intOf_false, BitVec.ofInt_natCast, BitVec.ofNat_toNat, if_neg Bool.false_ne_true]

/-- Read as signed or as unsigned, an operand has the same bits. -/
theorem ofInt_intOf_same (n : Nat) (sgn : Bool) (x : Nat) : BitVec.ofInt n (intOf n sgn x) = BitVec.ofNat n x := by
  rw [ofInt_intOf]
  cases sgn <;> simp

theorem intOf_inj {n : Nat} {sgn : Bool} {a b : Nat} : intOf n sgn a = intOf n sgn b ↔ BitVec.ofNat n a = BitVec.ofNat n b := by
  refine ⟨fun h => ?_, fun h => ?_⟩
  · rw [← ofInt_intOf_same n sgn a, h, ofInt_intOf_same]
  · cases sgn <;> simp only [intOf_true, intOf_false, h]

/-- The order of two operands of n bits, as their instruction reads them. -/
def bitsLess (n : Nat) (sgn : Bool) (a b : Nat) : Bool :=
  if sgn then (BitVec.ofNat n a).slt (BitVec.ofNat n b) else (BitVec.ofNat n a).ult (BitVec.ofNat n b)

theorem intOf_lt {n : Nat} {sgn : Bool} {a b : Nat} : intOf n sgn a < intOf n sgn b ↔ bitsLess n sgn a b = true := by
  unfold bitsLess
  cases sgn with
  | true => rw [intOf_true, intOf_true, if_pos rfl, BitVec.slt_iff_toInt_lt]
  | false => rw [intOf_false, intOf_false, if_neg Bool.false_ne_true, BitVec.ult_iff_toNat_lt, Int.ofNat_lt]

/-! ### Saturation -/

theorem clampInt_eq {lo hi : Int} (h : lo ≤ hi) (x : Int) : clampInt lo hi x = max lo (min hi x) := by
  unfold clampInt
  split
  case isTrue => omega
  case isFalse => split <;> omega

theorem intResult_wraps (n : Nat) (sgn : Bool) (x : Int) : intResult n false sgn x = (BitVec.ofInt n x).toNat := wrapInt_eq_toNat n x

/-- The bits of the signed number of n bits nearest to x. -/
def nearestSigned (n : Nat) (x : Int) : Nat := (BitVec.ofInt n (max (-2 ^ (n - 1)) (min (2 ^ (n - 1) - 1) x))).toNat

theorem intResult_signed (n : Nat) (x : Int) : intResult n true true x = nearestSigned n x := by
  have pos := Nat.two_pow_pos (n - 1)
  rw [intResult, if_pos rfl, clampInt_eq (by simp only [intLo, intHi, if_pos]; omega), wrapInt_eq_toNat]
  simp [intLo, intHi, nearestSigned]

/-- Saturated to an unsigned number: what lies below 0 becomes 0, and what lies above the greatest becomes the greatest. -/
theorem intResult_unsigned (n : Nat) (x : Int) : intResult n true false x = min (2 ^ n - 1) x.toNat := by
  have pos := Nat.two_pow_pos n
  have clamp : clampInt (intLo n false) (intHi n false) x = (min (2 ^ n - 1) x.toNat : Nat) := by
    rw [clampInt_eq (by simp only [intLo, intHi, Bool.false_eq_true, if_false]; omega)]
    simp only [intLo, intHi, Bool.false_eq_true, if_false]
    omega
  rw [intResult, if_pos rfl, clamp, wrapInt, ← Int.natCast_emod, Int.toNat_natCast]
  exact Nat.mod_eq_of_lt (by omega)

/-- A result is clamped as the integer that it is, or wraps as the bits that it has. -/
theorem intResult_eq {n : Nat} {sat sgn : Bool} {x signed : Int} {unsigned : Nat} {wrapped : BitVec n} (hw : BitVec.ofInt n x = wrapped)
    (hs : sgn = true → x = signed) (hu : sgn = false → min (2 ^ n - 1) x.toNat = unsigned) :
    intResult n sat sgn x =
      if sat then if sgn then nearestSigned n signed else unsigned
      else wrapped.toNat := by
  cases sat with
  | false => rw [intResult_wraps, hw]; rfl
  | true =>
    cases sgn with
    | true => rw [intResult_signed, hs rfl]; rfl
    | false => rw [intResult_unsigned, hu rfl]; rfl

/-! ### Results on n bits (R231) -/

section Results
variable (n : Nat) (sat sgn : Bool) (a b c : Nat)

theorem intResult_add : intResult n sat sgn (intOf n sgn a + intOf n sgn b) =
    if sat then
      if sgn then nearestSigned n ((BitVec.ofNat n a).toInt + (BitVec.ofNat n b).toInt)
      else min (2 ^ n - 1) ((BitVec.ofNat n a).toNat + (BitVec.ofNat n b).toNat)
    else (BitVec.ofNat n a + BitVec.ofNat n b).toNat := by
  refine intResult_eq ?_ ?_ ?_
  · rw [BitVec.ofInt_add, ofInt_intOf_same, ofInt_intOf_same]
  · rintro rfl; rw [intOf_true, intOf_true]
  · rintro rfl; rw [intOf_false, intOf_false]; omega

theorem intResult_sub : intResult n sat sgn (intOf n sgn a - intOf n sgn b) =
    if sat then
      if sgn then nearestSigned n ((BitVec.ofNat n a).toInt - (BitVec.ofNat n b).toInt)
      else (BitVec.ofNat n a).toNat - (BitVec.ofNat n b).toNat
    else (BitVec.ofNat n a - BitVec.ofNat n b).toNat := by
  refine intResult_eq ?_ ?_ ?_
  · rw [Int.sub_eq_add_neg, BitVec.ofInt_add, BitVec.ofInt_neg, ofInt_intOf_same, ofInt_intOf_same, BitVec.sub_eq_add_neg]
  · rintro rfl; rw [intOf_true, intOf_true]
  · rintro rfl
    have := (BitVec.ofNat n a).isLt
    rw [intOf_false, intOf_false]
    omega

theorem intResult_mul : intResult n sat sgn (intOf n sgn a * intOf n sgn b) =
    if sat then
      if sgn then nearestSigned n ((BitVec.ofNat n a).toInt * (BitVec.ofNat n b).toInt)
      else min (2 ^ n - 1) ((BitVec.ofNat n a).toNat * (BitVec.ofNat n b).toNat)
    else (BitVec.ofNat n a * BitVec.ofNat n b).toNat := by
  refine intResult_eq ?_ ?_ ?_
  · rw [BitVec.ofInt_mul, ofInt_intOf_same, ofInt_intOf_same]
  · rintro rfl; rw [intOf_true, intOf_true]
  · rintro rfl; rw [intOf_false, intOf_false, ← Int.natCast_mul, Int.toNat_natCast]

/-- The high word of a product is that of the 64-bit product of the widened operands. -/
theorem mulHigh_eq : wrapInt 32 (intOf 32 sgn a * intOf 32 sgn b / (2 ^ 32 : Nat)) =
    if sgn then (((BitVec.ofNat 32 a).signExtend 64 * (BitVec.ofNat 32 b).signExtend 64) >>> 32).toNat
    else (((BitVec.ofNat 32 a).setWidth 64 * (BitVec.ofNat 32 b).setWidth 64) >>> 32).toNat := by
  have high : ∀ p : Int, wrapInt 32 (p / (2 ^ 32 : Nat)) = (BitVec.ofInt 64 p >>> 32).toNat := by
    intro p
    rw [wrapInt, BitVec.toNat_ushiftRight, BitVec.toNat_ofInt, Nat.shiftRight_eq_div_pow]
    omega
  rw [high, BitVec.ofInt_mul, ofInt_intOf, ofInt_intOf]
  cases sgn <;> rfl

theorem mulAdd_eq : wrapInt n (intOf 32 sgn a * intOf 32 sgn b + (c : Nat)) =
    if sgn then ((BitVec.ofNat 32 a).signExtend n * (BitVec.ofNat 32 b).signExtend n + BitVec.ofNat n c).toNat
    else ((BitVec.ofNat 32 a).setWidth n * (BitVec.ofNat 32 b).setWidth n + BitVec.ofNat n c).toNat := by
  rw [wrapInt_eq_toNat, BitVec.ofInt_add, BitVec.ofInt_mul, ofInt_intOf, ofInt_intOf, BitVec.ofInt_natCast]
  cases sgn <;> rfl

/-- Of two equal operands the bits are the same, so either may be taken. -/
theorem intMin_mod : intMin n sgn a b % 2 ^ n =
    if bitsLess n sgn a b then (BitVec.ofNat n a).toNat else (BitVec.ofNat n b).toNat := by
  rw [intMin, ← BitVec.toNat_ofNat]
  by_cases less : intOf n sgn a < intOf n sgn b
  · rw [if_neg (by omega), if_pos (intOf_lt.mp less)]
  · rw [if_neg (mt intOf_lt.mpr less)]
    by_cases same : intOf n sgn a = intOf n sgn b
    · rw [if_neg (by omega), intOf_inj.mp same]
    · rw [if_pos (by omega)]

theorem intMax_mod : intMax n sgn a b % 2 ^ n =
    if bitsLess n sgn a b then (BitVec.ofNat n b).toNat else (BitVec.ofNat n a).toNat := by
  rw [intMax, ← BitVec.toNat_ofNat]
  by_cases less : intOf n sgn a < intOf n sgn b
  · rw [if_pos less, if_pos (intOf_lt.mp less)]
  · rw [if_neg less, if_neg (mt intOf_lt.mpr less)]

theorem natAbs_sval : (sval n a).natAbs = (BitVec.ofNat n a).abs.toNat := by
  rw [sval_eq_toInt]
  generalize BitVec.ofNat n a = x
  have := x.isLt
  rw [BitVec.toNat_abs, BitVec.msb_eq_toInt, BitVec.toInt_eq_toNat_cond]
  simp only [decide_eq_true_eq]
  split <;> split <;> omega

/-- Only the least number has an absolute value that n bits cannot hold as signed. -/
theorem intAbs_eq (hn : 0 < n) : intAbs n sat a =
    if sat && BitVec.ofNat n a = BitVec.intMin n then 2 ^ (n - 1) - 1 else (BitVec.ofNat n a).abs.toNat := by
  simp only [intAbs, natAbs_sval]
  generalize BitVec.ofNat n a = x
  cases sat with
  | false => exact Nat.mod_eq_of_lt x.abs.isLt
  | true =>
    have whole : 2 ^ n = 2 ^ (n - 1) + 2 ^ (n - 1) := by rw [← Nat.two_mul, ← Nat.pow_succ']; congr 1; omega
    have least : x = BitVec.intMin n ↔ x.toNat = 2 ^ (n - 1) := by
      rw [← BitVec.toNat_inj, BitVec.toNat_intMin, Nat.mod_eq_of_lt (by have := Nat.two_pow_pos (n - 1); omega)]
    have := x.isLt
    simp only [Bool.true_and, decide_eq_true_eq, least, if_true, BitVec.toNat_abs, BitVec.msb_eq_decide]
    split <;> split <;> omega

end Results

end Sys2Proof.Machine
end

section
/-! PROOFS. The integer instructions complete: each computes its destination on integers of N bits (R231). -/

namespace Sys2Proof.Machine

/-- An instruction whose meaning is `compute` writes what it computes. -/
theorem writes_of_compute_same {i j : Instr} {h : Hdr} {sh : Shape} {per : Nat} {f : Iss → Nat → List Nat → Nat}
    (m : ∀ s, exec i s = compute j h sh per s f) : Writes i h sh per f :=
  writes_of_compute m fun _ _ _ _ _ => rfl

/-- Its value may be given by another formula for the same number. -/
theorem writes_of_compute_eq {i j : Instr} {h : Hdr} {sh : Shape} {per : Nat} {f g : Iss → Nat → List Nat → Nat}
    (m : ∀ s, exec i s = compute j h sh per s f) (e : ∀ x t v, f x t v = g x t v) : Writes i h sh per g :=
  writes_of_compute m fun _ _ x t v => congrArg (· % _) (e x t v)

/-- Its destination has the width of its operation: what it computes counts modulo 2^N. -/
theorem writes_of_compute_mod {i j : Instr} {h : Hdr} {sh : Shape} {per : Nat} {f g : Iss → Nat → List Nat → Nat} {d : Operand} {w64 : Bool}
    (m : ∀ s, exec i s = compute j h sh per s f) (hd : sh.dst = some { op := d, n := nWords w64 })
    (e : ∀ x t v, f x t v % 2 ^ nBits w64 = g x t v) : Writes i h sh per g := by
  refine writes_of_compute m fun d hd' x t v => ?_
  obtain rfl := Option.some.inj (hd.symm.trans hd')
  have width : 32 * nWords w64 = nBits w64 := by cases w64 <;> rfl
  rw [width, ← e, Nat.mod_mod]

theorem nBits_pos (w64 : Bool) : 0 < nBits w64 := by cases w64 <;> decide

/-- Settles O1: each result is computed on integers, and has the bits that the formula on bit vectors has. -/
theorem integerResults : Obligations.IntegerResults := by
  refine ⟨fun _ => writes_of_compute_same fun _ => rfl,
    fun _ => writes_of_compute_eq (fun _ => rfl) fun _ _ _ => ite_not ..,
    fun _ => writes_of_compute_eq (fun _ => rfl) fun _ _ _ => intResult_add ..,
    fun _ => writes_of_compute_eq (fun _ => rfl) fun _ _ _ => intResult_sub ..,
    fun _ => writes_of_compute_eq (fun _ => rfl) fun _ _ _ => intResult_mul ..,
    fun _ => writes_of_compute_eq (fun _ => rfl) fun _ _ _ => mulHigh_eq ..,
    fun _ => writes_of_compute_eq (fun _ => rfl) fun _ _ _ => mulAdd_eq ..,
    fun _ => writes_of_compute_mod (fun _ => rfl) rfl fun _ _ _ => intMin_mod ..,
    fun _ => writes_of_compute_mod (fun _ => rfl) rfl fun _ _ _ => intMax_mod ..,
    fun _ => writes_of_compute_eq (fun _ => rfl) fun _ _ _ => intAbs_eq _ _ _ (nBits_pos _),
    fun _ => writes_of_compute_mod (fun _ => rfl) rfl fun _ _ _ => Nat.and_mod_two_pow,
    fun _ => writes_of_compute_mod (fun _ => rfl) rfl fun _ _ _ => Nat.or_mod_two_pow,
    fun _ => writes_of_compute_mod (fun _ => rfl) rfl fun _ _ _ => Nat.xor_mod_two_pow⟩

end Sys2Proof.Machine
end

section
/-! PROOFS. Shifts, counts and fields of bits, comparison and address computation (R230, R232, R233). -/

namespace Sys2Proof.Machine

/-! ### Shifts and counts -/

section Bits
variable (n : Nat) (sgn : Bool) (a b c s : Nat)

theorem shlN_eq : shlN n a s = (BitVec.ofNat n a <<< s).toNat := by
  rw [BitVec.toNat_shiftLeft, BitVec.toNat_ofNat, Nat.shiftLeft_eq, Nat.mod_mul_mod, shlN]
  split
  case isTrue h => exact (Nat.mod_eq_zero_of_dvd (Nat.dvd_mul_left_of_dvd (Nat.pow_dvd_pow 2 h) a)).symm
  case isFalse => rfl

theorem shrN_eq : shrN n a s = (BitVec.ofNat n a >>> s).toNat := by
  rw [BitVec.toNat_ushiftRight, BitVec.toNat_ofNat, Nat.shiftRight_eq_div_pow, shrN]
  split
  case isTrue h =>
    have small : a % 2 ^ n < 2 ^ s := Nat.lt_of_lt_of_le (Nat.mod_lt _ (Nat.two_pow_pos n)) (Nat.pow_le_pow_right Nat.two_pos h)
    exact (Nat.div_eq_of_lt small).symm
  case isFalse => rfl

/-- A count of n or more leaves the sign alone, as n does. -/
theorem sshiftRight_min (x : BitVec n) : x.sshiftRight (min s n) = x.sshiftRight s := by
  ext i hi
  rcases Nat.le_total s n with h | h
  · rw [Nat.min_eq_left h]
  · rw [Nat.min_eq_right h, BitVec.getElem_sshiftRight, BitVec.getElem_sshiftRight, dif_neg (by omega), dif_neg (by omega)]

theorem sarN_eq : sarN n a s = ((BitVec.ofNat n a).sshiftRight s).toNat := by
  rw [sarN, wrapInt_eq_toNat, sval_eq_toInt, ← Int.shiftRight_eq_div_pow, ← sshiftRight_min, BitVec.sshiftRight]

theorem popcN_eq : popcN n a = (List.range n).countP (BitVec.ofNat n a).getLsbD := by
  rw [popcN, ← List.countP_eq_length_filter]
  refine List.countP_congr fun i hi => ?_
  rw [BitVec.getLsbD_ofNat, decide_eq_true (List.mem_range.mp hi), Bool.true_and, bit]

theorem countP_range_le (m : Nat) : (List.range n).countP (fun k => decide (m ≤ k)) = n - m := by
  induction n with
  | zero => simp
  | succ n ih => 
    rw [List.range_succ, List.countP_append, ih, List.countP_singleton]
    simp only [decide_eq_true_eq]
    split <;> omega

/-- Shifted down by k, a number is 0 when k passes its highest bit. -/
theorem clzN_eq : clzN n a = (List.range n).countP fun k => BitVec.ofNat n a >>> k = 0 := by
  have zero_iff (k : Nat) : BitVec.ofNat n a >>> k = 0 ↔ a % 2 ^ n < 2 ^ k := by
    rw [← BitVec.toNat_inj, BitVec.toNat_ushiftRight, BitVec.toNat_ofNat, Nat.shiftRight_eq_div_pow, BitVec.ofNat_eq_ofNat,
      BitVec.toNat_zero, Nat.div_eq_zero_iff_lt (Nat.two_pow_pos k)]
  simp only [zero_iff, clzN]
  split
  case isTrue h =>
    have all : (List.range n).countP (fun k => decide (a % 2 ^ n < 2 ^ k)) = (List.range n).length :=
      List.countP_eq_length.mpr fun k _ => decide_eq_true (h ▸ Nat.two_pow_pos k)
    rw [all, List.length_range]
  case isFalse h =>
    have above (k : Nat) : a % 2 ^ n < 2 ^ k ↔ (a % 2 ^ n).log2 + 1 ≤ k := (Nat.log2_lt h).symm
    simp only [above, countP_range_le]
    omega

theorem foldl_add_double (g : Nat → Nat) (l : List Nat) (r : Nat) :
    l.foldl (fun r i => r + g i * 2) (r * 2) = l.foldl (fun r i => r + g i) r * 2 := by
  induction l generalizing r with
  | nil => rfl
  | cons i l ih => rw [List.foldl_cons, List.foldl_cons, ← Nat.add_mul, ih]

/-- One bit more moves the others up and comes last. -/
theorem brevN_succ : brevN (n + 1) a = brevN n a * 2 + (bit a n).toNat := by
  have double : ∀ r, ∀ i ∈ List.range n, r + (bit a i).toNat * 2 ^ (n + 1 - 1 - i) = r + (bit a i).toNat * 2 ^ (n - 1 - i) * 2 := by
    intro r i hi
    have place : n + 1 - 1 - i = n - 1 - i + 1 := by have := List.mem_range.mp hi; omega
    rw [place, Nat.pow_succ, Nat.mul_assoc]
  have last : n + 1 - 1 - n = 0 := by omega
  rw [brevN, List.range_succ, List.foldl_append, foldl_mem_congr double, List.foldl_cons, List.foldl_nil, last, Nat.pow_zero, Nat.mul_one]
  exact congrArg (· + (bit a n).toNat) (foldl_add_double _ _ 0)

theorem brevN_eq : brevN n a = (BitVec.ofNat n a).reverse.toNat := by
  induction n with
  | zero => exact (Nat.lt_one_iff.mp (BitVec.isLt _)).symm
  | succ n ih =>
    have low : (BitVec.ofNat (n + 1) a).truncate n = BitVec.ofNat n a := BitVec.setWidth_ofNat_of_le (Nat.le_succ n) a
    rw [brevN_succ, ih, BitVec.reverse, BitVec.toNat_concat, low, BitVec.msb_eq_getLsbD_last, BitVec.getLsbD_ofNat]
    simp [bit]

/-! ### Fields (R232) -/

/-- The field of w bits from pos, moved to the top. -/
theorem getLsbD_field_top {n pos w i : Nat} (x : BitVec n) (hw : pos + w ≤ n) (hi : i < w) :
    (x <<< (n - (pos + w))).getLsbD (n - w + i) = x.getLsbD (pos + i) := by
  have at_ : n - w + i - (n - (pos + w)) = pos + i := by omega
  have inside : n - w + i < n ∧ ¬n - w + i < n - (pos + w) := by omega
  rw [BitVec.getLsbD_shiftLeft, at_, decide_eq_true inside.1, decide_eq_false inside.2]
  rfl

theorem field_ushiftRight {n pos w : Nat} (x : BitVec n) (hw : pos + w ≤ n) :
    (x <<< (n - (pos + w))) >>> (n - w) = (x.extractLsb' pos w).setWidth n := by
  apply BitVec.eq_of_getLsbD_eq
  intro i hi
  rw [BitVec.getLsbD_ushiftRight, BitVec.getLsbD_setWidth, BitVec.getLsbD_extractLsb']
  by_cases hiw : i < w
  · simp only [getLsbD_field_top x hw hiw, hi, hiw, decide_true, Bool.true_and]
  · have outside : n ≤ n - w + i := by omega
    simp only [BitVec.getLsbD_of_ge _ _ outside, hiw, decide_false, Bool.false_and, Bool.and_false]

theorem field_sshiftRight {n pos w : Nat} (x : BitVec n) (hw : pos + w ≤ n) (hpos : 0 < w) :
    (x <<< (n - (pos + w))).sshiftRight (n - w) = (x.extractLsb' pos w).signExtend n := by
  have sign : (x <<< (n - (pos + w))).msb = (x.extractLsb' pos w).msb := by
    have last : n - 1 = n - w + (w - 1) := by omega
    rw [BitVec.msb_eq_getLsbD_last, BitVec.msb_eq_getLsbD_last, last, getLsbD_field_top x hw (by omega), BitVec.getLsbD_extractLsb',
      decide_eq_true (by omega), Bool.true_and]
  apply BitVec.eq_of_getLsbD_eq
  intro i hi
  rw [BitVec.getLsbD_sshiftRight, BitVec.getLsbD_signExtend, sign, BitVec.getLsbD_extractLsb']
  by_cases hiw : i < w
  · have inside : n - w + i < n := by omega
    rw [if_pos inside, if_pos hiw, getLsbD_field_top x hw hiw]
    simp [hi, hiw]
  · have outside : ¬n - w + i < n := by omega
    rw [if_neg outside, if_neg hiw]
    simp [hi]

theorem ofNat_field {n pos w : Nat} (a : Nat) (hw : pos + w ≤ n) :
    BitVec.ofNat w (a / 2 ^ pos % 2 ^ w) = (BitVec.ofNat n a).extractLsb' pos w := by
  apply BitVec.eq_of_getLsbD_eq
  intro i hi
  have inside : pos + i < n := by omega
  rw [BitVec.getLsbD_ofNat, Nat.testBit_mod_two_pow, Nat.testBit_div_two_pow, BitVec.getLsbD_extractLsb', BitVec.getLsbD_ofNat,
    decide_eq_true inside, Nat.add_comm]
  simp [hi]

theorem byte_low (x : Nat) : bits x 7 0 = x % 256 := by simp [Laws.Encoding.bits_eq]
theorem byte_second (x : Nat) : bits x 15 8 = x / 256 % 256 := by simp [Laws.Encoding.bits_eq]

theorem bfeN_eq : bfeN n sgn a b =
    let x := BitVec.ofNat n a
    let pos := b % 256
    let len := b / 256 % 256
    if len = 0 ∨ n ≤ pos then 0
    else
      let field := x <<< (n - min (pos + len) n)
      let down := n - (min (pos + len) n - pos)
      if sgn then (field.sshiftRight down).toNat else (field >>> down).toNat := by
  simp only [bfeN, byte_low, byte_second, Bool.or_eq_true, decide_eq_true_eq]
  generalize b % 256 = pos
  generalize b / 256 % 256 = len
  by_cases none : len = 0 ∨ n ≤ pos
  · rw [if_pos none, if_pos none]
  obtain ⟨w, hw⟩ : ∃ w, min (pos + len) n = pos + w := ⟨min (pos + len) n - pos, by omega⟩
  have inside : pos + w ≤ n ∧ 0 < w := by omega
  have width : pos + w - pos = w := by omega
  rw [if_neg none, if_neg none, hw, width, field_sshiftRight _ inside.1 inside.2, field_ushiftRight _ inside.1, ← ofNat_field a inside.1]
  cases sgn with
  | true => rw [if_pos rfl, if_pos rfl, wrapInt_eq_toNat, sval_eq_toInt, BitVec.signExtend]
  | false =>
    have small : a / 2 ^ pos % 2 ^ w < 2 ^ w := Nat.mod_lt _ (Nat.two_pow_pos w)
    have fits : a / 2 ^ pos % 2 ^ w < 2 ^ n := Nat.lt_of_lt_of_le small (Nat.pow_le_pow_right Nat.two_pos (by omega))
    simp [BitVec.toNat_setWidth, Nat.mod_eq_of_lt fits]

/-- A number of which the field of w bits from pos is replaced. -/
theorem testBit_replaced (f pos w i : Nat) (hf : f < 2 ^ w) :
    (a - a / 2 ^ pos % 2 ^ w * 2 ^ pos + f * 2 ^ pos).testBit i = if pos ≤ i ∧ i < pos + w then f.testBit (i - pos) else a.testBit i := by
  have parts : a - a / 2 ^ pos % 2 ^ w * 2 ^ pos + f * 2 ^ pos = 2 ^ pos * (2 ^ w * (a / 2 ^ pos / 2 ^ w) + f) + a % 2 ^ pos := by
    have low := Nat.div_add_mod a (2 ^ pos)
    have high := congrArg (2 ^ pos * ·) (Nat.div_add_mod (a / 2 ^ pos) (2 ^ w))
    simp only [Nat.mul_add] at high ⊢
    rw [Nat.mul_comm (a / 2 ^ pos % 2 ^ w), Nat.mul_comm f]
    omega
  rw [parts, Nat.testBit_two_pow_mul_add _ (Nat.mod_lt _ (Nat.two_pow_pos pos)), Nat.testBit_two_pow_mul_add _ hf]
  by_cases below : i < pos
  · rw [if_pos below, if_neg (by omega), Nat.testBit_mod_two_pow, decide_eq_true below, Bool.true_and]
  by_cases within : i - pos < w
  · rw [if_neg below, if_pos within, if_pos (by omega)]
  · rw [if_neg below, if_neg within, if_neg (by omega), Nat.testBit_div_two_pow, Nat.testBit_div_two_pow]
    congr 1
    omega

theorem bfiN_mod : bfiN n a b c % 2 ^ n =
    let x := BitVec.ofNat n a
    let y := BitVec.ofNat n b
    let pos := c % 256
    let len := c / 256 % 256
    let mask := (BitVec.ofNat n (2 ^ len - 1)) <<< pos
    (x &&& ~~~mask ||| y <<< pos &&& mask).toNat := by
  simp only [bfiN, byte_low, byte_second, Bool.or_eq_true, decide_eq_true_eq]
  generalize c % 256 = pos
  generalize c / 256 % 256 = len
  apply Nat.eq_of_testBit_eq
  intro i
  rw [Nat.testBit_mod_two_pow, BitVec.testBit_toNat]
  by_cases hi : i < n
  · have mask : (BitVec.ofNat n (2 ^ len - 1) <<< pos).getLsbD i = decide (pos ≤ i ∧ i < pos + len) := by
      rw [BitVec.getLsbD_shiftLeft, BitVec.getLsbD_ofNat, Nat.testBit_two_pow_sub_one, Bool.eq_iff_iff]
      simp only [Bool.and_eq_true, Bool.not_eq_true', decide_eq_true_eq, decide_eq_false_iff_not]
      omega
    rw [BitVec.getLsbD_or, BitVec.getLsbD_and, BitVec.getLsbD_and, BitVec.getLsbD_not, mask, BitVec.getLsbD_shiftLeft, BitVec.getLsbD_ofNat,
      BitVec.getLsbD_ofNat, decide_eq_true hi]
    by_cases none : len = 0 ∨ n ≤ pos
    · have outside : ¬(pos ≤ i ∧ i < pos + len) := by omega
      simp [none, outside]
    rw [if_neg none, testBit_replaced _ _ _ _ _ (Nat.mod_lt _ (Nat.two_pow_pos _))]
    by_cases inside : pos ≤ i ∧ i < pos + len
    · have place : i - pos < min (pos + len) n - pos ∧ i - pos < n ∧ ¬i < pos := by omega
      rw [if_pos (by omega), Nat.testBit_mod_two_pow]
      simp [inside, place]
    · rw [if_neg (by omega)]
      simp [inside]
  · simp [hi]

/-! ### Comparison and address computation (R230, R233) -/

theorem condInt_eq (cond : Cond) : (condInt cond (intOf n sgn a) (intOf n sgn b)).toNat =
    let x := BitVec.ofNat n a
    let y := BitVec.ofNat n b
    let less := fun (p q : BitVec n) => if sgn then p.slt q else p.ult q
    match cond with
    | .eq => (x == y).toNat
    | .ne => (x != y).toNat
    | .lt => (less x y).toNat
    | .le => (!less y x).toNat
    | .gt => (less y x).toNat
    | .ge => (!less x y).toNat
    | .un => 0 := by
  have less (a b : Nat) : decide (intOf n sgn a < intOf n sgn b) = bitsLess n sgn a b := by
    rw [Bool.eq_iff_iff, decide_eq_true_eq, intOf_lt]
  have notAbove (a b : Nat) : decide (intOf n sgn a ≤ intOf n sgn b) = !decide (intOf n sgn b < intOf n sgn a) := by
    rw [← decide_not, decide_eq_decide, Int.not_lt]
  have same : decide (intOf n sgn a = intOf n sgn b) = (BitVec.ofNat n a == BitVec.ofNat n b) := by
    rw [Bool.eq_iff_iff, decide_eq_true_eq, intOf_inj, beq_iff_eq]
  cases cond with
  | eq => exact congrArg Bool.toNat same
  | ne => exact congrArg Bool.toNat ((decide_not ..).trans (congrArg not same))
  | lt => exact congrArg Bool.toNat (less a b)
  | le => exact congrArg Bool.toNat ((notAbove a b).trans (congrArg not (less b a)))
  | gt => exact congrArg Bool.toNat (less b a)
  | ge => exact congrArg Bool.toNat ((notAbove b a).trans (congrArg not (less a b)))
  | un => rfl

theorem leaN_eq (k : Nat) : leaN sgn k a b =
    let y := BitVec.ofNat 32 b
    (BitVec.ofNat 64 a + ((if sgn then y.signExtend 64 else y.setWidth 64) <<< k)).toNat := by
  have power : BitVec.ofNat 64 (2 ^ k) = BitVec.twoPow 64 k := by rw [← BitVec.toNat_inj, BitVec.toNat_ofNat, BitVec.toNat_twoPow]
  rw [leaN, wrapInt_eq_toNat, BitVec.ofInt_add, BitVec.ofInt_mul, ofInt_intOf, BitVec.ofInt_natCast, BitVec.ofInt_natCast, power,
    ← BitVec.shiftLeft_eq_mul_twoPow]

end Bits

/-- Settles O2: each bit of a result is that of the formula on bit vectors. -/
theorem bitResults : Obligations.BitResults :=
  ⟨fun _ => writes_of_compute_eq (fun _ => rfl) fun _ _ _ => shlN_eq ..,
    fun _ => writes_of_compute_eq (fun _ => rfl) fun _ _ _ => shrN_eq ..,
    fun _ => writes_of_compute_eq (fun _ => rfl) fun _ _ _ => sarN_eq ..,
    fun _ => writes_of_compute_eq (fun _ => rfl) fun _ _ _ => popcN_eq ..,
    fun _ => writes_of_compute_eq (fun _ => rfl) fun _ _ _ => clzN_eq ..,
    fun _ => writes_of_compute_eq (fun _ => rfl) fun _ _ _ => brevN_eq ..,
    fun _ => writes_of_compute_eq (fun _ => rfl) fun _ _ _ => bfeN_eq ..,
    fun _ => writes_of_compute_mod (fun _ => rfl) rfl fun _ _ _ => bfiN_mod ..,
    fun _ => writes_of_compute_eq (fun _ => rfl) fun _ _ _ => condInt_eq ..,
    fun _ => writes_of_compute_eq (fun _ => rfl) fun _ _ _ => leaN_eq ..⟩

end Sys2Proof.Machine
end

section
/-! PROOFS. Floating-point arithmetic, packed arithmetic, special functions and conversions (R234 to R249). -/

namespace Sys2Proof.Machine

/-! ### Arithmetic (R234 to R238) -/

theorem floatCond_toNat (f : FSpec) (c : Cond) (a b : Nat) :
    (floatCond f c a b).toNat = if FVal.cond c (f.decode a) (f.decode b) then 1 else 0 :=
  Bool.cond_eq_ite ..

/-- Settles O3: each form computes its destination by the one rule of rounding, applied to the exact result. -/
theorem floatResults : Obligations.FloatResults :=
  ⟨fun _ => writes_of_compute_same fun _ => rfl, fun _ => writes_of_compute_same fun _ => rfl,
    fun _ => writes_of_compute_same fun _ => rfl, fun _ => writes_of_compute_same fun _ => rfl,
    fun _ => writes_of_compute_same fun _ => rfl, fun _ => writes_of_compute_same fun _ => rfl,
    fun _ => writes_of_compute_eq (fun _ => rfl) fun _ _ _ => floatCond_toNat ..,
    fun _ => writes_of_compute_same fun _ => rfl, fun _ => writes_of_compute_same fun _ => rfl,
    fun _ => writes_of_compute_same fun _ => rfl, fun _ => writes_of_compute_same fun _ => rfl,
    fun _ => writes_of_compute_same fun _ => rfl, fun _ => writes_of_compute_same fun _ => rfl,
    fun _ => writes_of_compute_same fun _ => rfl,
    fun _ => writes_of_compute_eq (fun _ => rfl) fun _ _ _ => floatCond_toNat ..⟩

/-! ### Packed arithmetic and special functions (R239, R240) -/

theorem bits_low_half (x : Nat) : bits x 15 0 = x % 2 ^ 16 := by simp [Laws.Encoding.bits_eq]
theorem bits_high_half (x : Nat) : bits x 31 16 = x / 2 ^ 16 % 2 ^ 16 := by simp [Laws.Encoding.bits_eq]

theorem packed2_eq (f : Nat → Nat → Nat) (a b : Nat) :
    packed2 f a b = f (a % 2 ^ 16) (b % 2 ^ 16) + 2 ^ 16 * f (a / 2 ^ 16 % 2 ^ 16) (b / 2 ^ 16 % 2 ^ 16) := by
  rw [packed2, Nat.mul_comm]
  simp only [bits_low_half, bits_high_half]

theorem packed3_eq (f : Nat → Nat → Nat → Nat) (a b c : Nat) :
    packed3 f a b c = f (a % 2 ^ 16) (b % 2 ^ 16) (c % 2 ^ 16)
      + 2 ^ 16 * f (a / 2 ^ 16 % 2 ^ 16) (b / 2 ^ 16 % 2 ^ 16) (c / 2 ^ 16 % 2 ^ 16) := by
  rw [packed3, Nat.mul_comm]
  simp only [bits_low_half, bits_high_half]

theorem packed2_floatCond (f : FSpec) (c : Cond) (a b : Nat) :
    let one := fun a b => if FVal.cond c (f.decode a) (f.decode b) then 1 else 0
    packed2 (fun a b => (floatCond f c a b).toNat) a b =
      one (a % 2 ^ 16) (b % 2 ^ 16) + 2 ^ 16 * one (a / 2 ^ 16 % 2 ^ 16) (b / 2 ^ 16 % 2 ^ 16) := by
  simp only [packed2_eq, floatCond_toNat]

/-- Settles O4: a packed operation is its operation on each half, and a special function is applied to A as FP32. -/
theorem packedAndSpecialResults : Obligations.PackedAndSpecialResults :=
  ⟨fun _ => writes_of_compute_eq (fun _ => rfl) fun _ _ _ => packed2_eq .., fun _ => writes_of_compute_eq (fun _ => rfl) fun _ _ _ => packed2_eq ..,
    fun _ => writes_of_compute_eq (fun _ => rfl) fun _ _ _ => packed2_eq .., fun _ => writes_of_compute_eq (fun _ => rfl) fun _ _ _ => packed3_eq ..,
    fun _ => writes_of_compute_eq (fun _ => rfl) fun _ _ _ => packed2_eq .., fun _ => writes_of_compute_eq (fun _ => rfl) fun _ _ _ => packed2_eq ..,
    fun _ => writes_of_compute_eq (fun _ => rfl) fun _ _ _ => packed2_floatCond ..,
    fun _ => writes_of_compute_same fun _ => rfl, fun _ => writes_of_compute_same fun _ => rfl,
    fun _ => writes_of_compute_same fun _ => rfl, fun _ => writes_of_compute_same fun _ => rfl,
    fun _ => writes_of_compute_same fun _ => rfl, fun _ => writes_of_compute_same fun _ => rfl⟩

/-! ### Conversions (R242 to R244) -/

/-- No thread of CVT has a poisoned narrow source, so none traps. -/
theorem cvt_hurt_eq_nil {x : CvtOps} {k : Taken} (h : CvtType.bits x.src < 32 → ∀ m ∈ k.vals, regsBad (m.2.headD []) = false) :
    CvtOps.hurt x k = [] := by
  unfold CvtOps.hurt
  split
  case isTrue narrow => exact List.filter_eq_nil_iff.mpr fun m hm => by simp only [h narrow m hm, Bool.false_eq_true, not_false_iff]
  case isFalse => rfl

theorem execCvt_clear {s : State} {i : Iss} {x : CvtOps} (c : Clear s i x.h (CvtOps.shape x))
    (h : CvtType.bits x.src < 32 → ∀ m ∈ (s.sees i x.h (CvtOps.shape x)).vals, regsBad (m.2.headD []) = false) :
    execCvt x s = .next (s.performed i x.h (CvtOps.shape x) (CvtOps.cycles x) (writesSr (CvtOps.shape x) (CvtOps.result x))) := by
  refine issue_body c _ _ _ _ ?_ (still_writesSr _ _ _ _ _)
  simp only [cvt_hurt_eq_nil h, partErr, List.flatMap_nil, List.map_nil, trapAll_nil, List.any_nil, Bool.not_false]
  rw [List.filter_eq_self.mpr fun _ _ => rfl]

theorem narrowCvt_draws {i : Instr} {x : CvtNarrowOps} {f : Fmt} (m : ∀ s, exec i s = narrowCvt i x f s) :
    Draws i x.h (narrowShape x) 1 fun dr v =>
      narrowValue f x.sat x.mode (if x.mode = .sr then dr (arg v 2) 0 else 0) (arg v 0) (arg v 1 % 256) := by
  refine draws_of_computeSr m (funext fun dr => funext fun v => ?_)
  rw [narrowResult, byte_low]

/-! ### Elements of a group (R246, R248) -/

theorem arg_zero_map (v : List (List Reg)) : arg (v.map regsNat) 0 = regsNat (v.headD []) := by cases v <;> rfl
theorem arg_one_map (v : List (List Reg)) : arg (v.map regsNat) 1 = regsNat (v.getD 1 []) := by
  match v with
  | [] | [_] | _ :: _ :: _ => rfl

theorem bits_low_four (x : Nat) : bits x 3 0 = x % 16 := by simp [Laws.Encoding.bits_eq]

/-- An element that is not the code 0b10 of MXT2 is written and nothing is reported. -/
theorem pick_clear {i : Instr} {x : GroupOps} {s : State} {y : Iss} (c : Clear s y x.h (pickShape x))
    (good : ∀ m ∈ (s.sees y x.h (pickShape x)).vals, reservedPick x m.2 = false) (op : Nat) (f : Nat → Nat → Nat) :
    pick i x op s f = .next (s.performed y x.h (pickShape x) 1 (writes (pickShape x) fun _ _ v =>
      f (groupElement x.fmt (arg v 0) (arg v 1 % 16)) (arg v 1))) := by
  refine issue_body c _ _ _ _ ?_ (calm_writes _ _ _ _ _).still
  have none : (s.sees y x.h (pickShape x)).vals.any (fun m => reservedPick x m.2) = false := by simpa using good
  have dst : (pickShape x).dst = some { op := x.d } := rfl
  simp only [none, Bool.false_eq_true, if_false, writes, dst, arg_zero_map, arg_one_map, bits_low_four]
  refine congrArg (·, Flow.next []) (foldl_mem_congr (fun t m hm => ?_) _)
  rw [good m hm, Bool.or_false]

/-- Settles O5: CVT meets no poisoned narrow source and the pickers no reserved code, so nothing traps and nothing is reported. -/
theorem conversionResults : Obligations.ConversionResults :=
  ⟨fun _ _ _ c h => execCvt_clear c h, fun _ => narrowCvt_draws fun _ => rfl, fun _ => narrowCvt_draws fun _ => rfl,
    fun _ => narrowCvt_draws fun _ => rfl, fun _ => writes_of_compute_same fun _ => rfl,
    fun x => draws_of_computeSr (f := mxqGroup x) (fun _ => rfl) rfl,
    fun x _ _ c good => pick_clear c good 0x55 fun e b => FSpec.fp32.round x.mode 0 x.sat (mxValue x.fmt (bits b 15 8) e),
    fun x _ _ c good => pick_clear c good 0x56 fun e _ => FSpec.fp32.round .rne 0 false (fmtValue x.fmt e),
    fun _ => writes_of_compute_same fun _ => rfl⟩

end Sys2Proof.Machine
end

section
/-! PROOFS. Control instructions: branches, calls and skip regions (R222 to R226). -/

namespace Sys2Proof.Machine

/-- A branch whose targets are all legal moves each thread to its own, after what the body does first. -/
theorem issue_branch {s : State} {x : Iss} {h : Hdr} {sh : Shape} (c : Clear s x h sh) (i : Instr) (per : Nat) (a : Operand)
    (first : Iss → Taken → State → State) (goals : Iss → Taken → List (Nat × W64))
    (good : ∀ m ∈ goals x (s.sees x h sh), badTarget m.2 = false)
    (calm : Calm (s.afterRead x h sh) (first x (s.sees x h sh) (s.afterRead x h sh))) :
    issue i h sh per s (fun y k t => (first y k t).branch y a (goals y k)) =
      .next (s.performed x h sh per fun y k t => (first y k t, .next (goals y k))) :=
  issue_body c i per _ _ (branch_good _ x a _ good) calm.still

theorem each_good {k : Taken} {f : List (List Reg) → W64} (h : ∀ m ∈ k.vals, badTarget (f m.2) = false) :
    ∀ m ∈ k.each f, badTarget m.2 = false :=
  List.forall_mem_map.mpr h

/-- The operands of an instruction that moves its threads by A, of n words. -/
def branchShape (a : Operand) (n : Nat) : Shape := { srcs := [{ srcA a n with strict := true }], uni := some false, flat := true }
def braShape (x : OpA) (access : Bool) : Shape := { branchShape x.a 1 with branch := access.toNat }
def brqShape (x : OpA) : Shape := { branchShape x.a 1 with branch := 2, execOnly := true, daeOnly := true }
def callShape (x : OpDA) : Shape := { branchShape x.a 1 with dst := some { op := x.d, n := 2 } }
def skipShape : Shape := { srcs := [], uni := some false, flat := true, always := true }

section Control
variable {s : State} {i : Iss}

theorem execBra_clear {x : OpA} (c : Clear s i x.h (braShape x (i.g.dae && i.p.access)))
    (good : ∀ m ∈ (s.sees i x.h (braShape x (i.g.dae && i.p.access))).vals, badTarget (relative i m.2) = false) :
    execBra x s = .next (s.performed i x.h (braShape x (i.g.dae && i.p.access)) 1 fun j k t =>
      (if i.g.dae && i.p.access then t.pushBranch j k.ts else t, .next (k.each (relative j)))) := by
  simp only [execBra, c.issues]
  refine issue_branch c _ _ _ (fun j k t => if i.g.dae && i.p.access then t.pushBranch j k.ts else t) (fun j k => k.each (relative j))
    (each_good good) ?_
  cases i.g.dae && i.p.access with
  | false => exact Calm.refl _
  | true => exact calm_pushBranch _ _ _

theorem execBrq_clear {x : OpA} (c : Clear s i x.h (brqShape x))
    (good : ∀ m ∈ (s.sees i x.h (brqShape x)).vals, badTarget (relative i m.2) = false) :
    execBrq x s = .next (s.performed i x.h (brqShape x) 1 fun i k t =>
      ((maskList i.active).foldl (fun t u => t.updThread i.r.g i.r.w u fun th => { th with br := th.br.drop 1 }) t,
        .next ((k.vals.filter fun m => ((i.thread m.1).br.headD (false, false)).1).map fun m => (m.1, relative i m.2)))) := by
  refine issue_body c _ _ _ _ ?_ (Calm.still (calm_foldl _ _ (fun _ _ => calm_updThread _ _ _ _ _ ?_) _))
  · have path := (path_afterRead s i x.h (brqShape x) i.r).trans (path_of_iss c.issues)
    have popped (p : Nat × W64 → Bool) : ∀ m ∈ ((s.sees i x.h (brqShape x)).each (relative i)).filter p, badTarget m.2 = false :=
      fun m hm => each_good good m (List.mem_filter.mp hm).1
    simp only [path, branch_good _ _ _ _ (popped _)]
    rw [Taken.each, List.filter_map]
    rfl
  · exact fun _ => rfl

theorem execCall_clear {x : OpDA} (c : Clear s i x.h (callShape x))
    (good : ∀ m ∈ (s.sees i x.h (callShape x)).vals, badTarget (relative i m.2) = false) :
    execCall x s = .next (s.performed i x.h (callShape x) 1 fun i k t =>
      (k.vals.foldl (fun t m => t.writeDst i.r.g i.r.w i.g { op := x.d, n := 2 } m.1 [m.1] (regsOf 2 i.next.toNat false)) t,
        .next (k.each (relative i)))) := by
  refine issue_body c _ _ _ _ ?_ (calm_foldl _ _ (fun _ _ => calm_writeDst _ _ _ _ _ _ _ _) _).still
  have all : ((s.sees i x.h (callShape x)).each (relative i)).filter (fun m => !badTarget m.2) =
      (s.sees i x.h (callShape x)).each (relative i) :=
    List.filter_eq_self.mpr fun m hm => by rw [each_good good m hm]; rfl
  simp only [all, branch_good _ _ _ _ (each_good good)]
  rw [Taken.each, List.foldl_map]

theorem execSkip_clear {x : SkipOps} (c : Clear s i x.h skipShape) (closed : i.p.skn = 0) :
    execSkip x s = .next (s.performed i x.h skipShape 1 fun i k t =>
      (t.updPath i.r fun p => { p with skn := x.n.val + 1 + wordsIn i.size, skmask := maskOf k.ts }, .next [])) :=
  issue_body c _ _ _ _ (if_neg (not_not_intro closed)) (calm_updPath _ _ _).still

end Control

/-- Settles O7: legal targets leave nothing to trap, and where no region is open one may be opened. -/
theorem controlCompletes : Obligations.ControlCompletes :=
  ⟨fun _ _ _ c => issue_calm c _ _ _ fun _ t => Calm.refl t,
    fun _ _ _ c => issue_calm c _ _ _ fun _ t => calm_updPath t _ _,
    fun _ _ _ c good => execBra_clear c good,
    fun x _ _ c good => ⟨issue_branch c (.brx x) 1 x.a (fun _ _ t => t) (fun _ k => k.each absolute) (each_good good) (Calm.refl _),
      issue_branch c (.ret x) 1 x.a (fun _ _ t => t) (fun _ k => k.each absolute) (each_good good) (Calm.refl _)⟩,
    fun _ _ _ c good => execBrq_clear c good,
    fun _ _ _ c good => execCall_clear c good,
    fun _ _ _ c closed => execSkip_clear c closed⟩

end Sys2Proof.Machine
end

section
/-! PROOFS. Cross-thread instructions issue at their last signature (R44, R227, R250 to R257). -/

namespace Sys2Proof.Machine

theorem group_of_gen {t : State} {r : GenRef} {e : Gen} (h : t.gen? r = some e) : t.group? r.g = some e.g := by
  unfold State.gen? at h
  split at h
  · contradiction
  · rename_i g hg
    dsimp only at h
    split at h
    · simp only [Option.map_eq_some_iff] at h
      obtain ⟨c, -, rfl⟩ := h
      exact hg
    · contradiction

/-- An instruction with no gate and no check of its own issues with its body, which writes registers only. -/
theorem issues_of_runGen {i : Instr} {h : Hdr} {cv : CvField} {o : GenOps} {within : Bool} {body : Gen → Vals → State → State}
    (m : ∀ s, exec i s = signAt i h cv o.shape within noCheck (fun r t => t.runGen r o noGate body) s) (calm : ∀ e v t, Calm t (body e v t)) :
    Issues i h cv o within body :=
  fun s _ _ c k => (m s).trans (signAt_plain c i body k calm)

/-- A reduction, whose function may depend on the generation's group, issues and gives every taker its result. -/
theorem issues_of_reduceGen {i : Instr} {h : Hdr} {cv : CvField} {o : GenOps} {within : Bool} {d : Dst}
    {f : Gen → List (Nat × Nat) → Nat → Nat} {go : GenRef → State → State}
    (m : ∀ s, exec i s = signAt i h cv o.shape within noCheck go s) (hd : o.dst = some d)
    (hgo : ∀ r t e, t.gen? r = some e → go r t = t.reduceGen r o (f e)) :
    Issues i h cv o within fun e vals t =>
      e.takers.foldl (fun t m => t.genWrite e d m (regsOf d.n (f e (contributions vals) m.pos) (vals.any fun m => m.2.any regsBad))) t :=
  fun s _ e c k => (m s).trans (reduce_issues c i k hd (f e) go (hgo _ _ e k.complete))

/-! ### PERM -/

theorem translate_of_calm {s t : State} (h : Calm s t) (c : Ctx) (va : Nat) (via : Option TlbPlace) :
    t.translate c va via = s.translate c va via := by
  rw [State.translate, State.translate, mem_of_calm h]

theorem still_loadTable (s : State) (e : Gen) (t : TlbEntry) (pa : Nat) : Still s (s.loadTable e t pa) := by
  unfold State.loadTable
  refine Still.trans (Still.trans ((still_walked s e.g.via t).trans (still_memory _ _)) (still_foldl _ _ ?_ _)) (still_watch _ _ _ _ _ _ _)
  exact fun s l => (still_memory s _).trans (still_served _ _ _ _)

/-- What PERM writes with the table's bytes. -/
def State.permWrite (t : State) (x : PermOps) (e : Gen) (vals : Vals) (table : List (Byte × Bool)) : State :=
  vals.foldl (fun t m =>
    t.genWrite e { op := x.d } m.1 ((e.supplies x.h vals (srcA x.a 1) m.1.w ((table.getD m.1.pos (0, false)).1.toNat % 64)).map
      fun q => ⟨q.val, q.bad || (table.getD m.1.pos (0, false)).2⟩)) t

theorem calm_permWrite (t : State) (x : PermOps) (e : Gen) (vals : Vals) (table : List (Byte × Bool)) :
    Calm t (t.permWrite x e vals table) :=
  calm_foldl _ _ (fun _ _ => calm_genWrite _ _ _ _ _) _

/-- PERM's effect once its table lies at a translated address. -/
def PermOps.effect (x : PermOps) (tr : TlbEntry) (pa : Nat) : Gen → Vals → State → State := fun e vals t =>
  (t.loadTable e tr pa).permWrite x e vals (t.seen e.g pa 64)

theorem permGate_go {x : PermOps} {e : Gen} {vals : Vals} {t : State} {tr : TlbEntry} (halign : permTable vals % 64 = 0)
    (hrange : permTable vals < 2 ^ 55) (htr : t.translate e.c (permTable vals) e.g.via = .ok tr) (hctr : attrCtr tr.attr = false)
    (hwait : t.permWaits e (tr.pa (permTable vals)) = false)
    (hreach : t.reachAll e.key 2 [(tr.pa (permTable vals) / 1024, false)] = true)
    (hmiss : ((t.fillLine tr (tr.pa (permTable vals) / 32) e.g.core).fillLine tr (tr.pa (permTable vals) / 32 + 1) e.g.core).mem.misses = [])
    (hwatch : t.watched true false (tr.pa (permTable vals)) 64 = false) : permGate x e vals t = .go := by
  have hrange' : ¬ 2 ^ 55 ≤ permTable vals := by omega
  have sector : tr.pa (permTable vals) / 32 / 32 = tr.pa (permTable vals) / 1024 := Nat.div_div_eq_div_mul ..
  unfold permGate
  simp only [halign, if_neg hrange', htr, hctr, hwait, hwatch, sector, hreach, hmiss]
  simp

theorem genPerformed_congr {t : State} {e : Gen} {o : GenOps} {a b : Gen → Vals → State → State}
    (h : a e (t.genVals e o) (t.genAfter e o) = b e (t.genVals e o) (t.genAfter e o)) : t.genPerformed e o a = t.genPerformed e o b := by
  simp only [State.genPerformed, h]

theorem permRun_clear {t : State} {r : GenRef} {e : Gen} {x : PermOps} {tr : TlbEntry} (k : GenClear t r e (PermOps.ops x))
    (hgate : permGate x e (t.genVals e (PermOps.ops x)) t = .go) (hvals : t.genVals e (PermOps.ops x) ≠ [])
    (htr : t.translate e.c (permTable (t.genVals e (PermOps.ops x))) e.g.via = .ok tr) :
    t.permRun x r = t.genPerformed e (PermOps.ops x) (PermOps.effect x tr (tr.pa (permTable (t.genVals e (PermOps.ops x))))) := by
  have hempty : (t.genVals e (PermOps.ops x)).isEmpty = false := by simpa using hvals
  rw [State.permRun, runGen_clear k _ _ hgate]
  apply genPerformed_congr
  simp only [hempty, translate_of_calm (calm_genAfter t e _), htr, Bool.false_eq_true, if_false]
  rfl

/-- No watchpoint lies on the table, so PERM does no more than its generation. -/
theorem permGen_eq_permRun {t : State} {r : GenRef} {e : Gen} {x : PermOps} (he : t.gen? r = some e) (hhit : t.tableHit x e = none) :
    t.permGen x r = t.permRun x r := by
  simp only [State.permGen, he, hhit, ite_self]

theorem still_permEffect (x : PermOps) (tr : TlbEntry) (pa : Nat) (e : Gen) (vals : Vals) (t : State) : Still t (PermOps.effect x tr pa e vals t) :=
  (still_loadTable t e tr pa).trans (calm_permWrite _ _ _ _ _).still

/-- A signature that completes a generation whose effect traps nothing performs it. -/
theorem signAt_performs {s : State} {x : Iss} {h : Hdr} {o : GenOps} {cv : CvField} {within : Bool} {e : Gen}
    {body : Gen → Vals → State → State} {go : GenRef → State → State} (c : SignClear s x h o.shape cv within) (i : Instr)
    (hgo : go ⟨x.r.g, cv, x.r.w⟩ (s.withSignature x i h cv) = (s.withSignature x i h cv).genPerformed e o body)
    (still : ∀ e v t, Still t (body e v t)) :
    signAt i h cv o.shape within noCheck go s = .next ((s.withSignature x i h cv).genPerformed e o body) := by
  have performs : Still s (go ⟨x.r.g, cv, x.r.w⟩ (s.withSignature x i h cv)) := by
    rw [hgo]
    exact ((calm_withSignature s x i h cv).trans (calm_genAfter _ e o)).still.trans ((still _ _ _).trans (calm_genDone _ e o.lanes).still)
  rw [signAt_clear c i noCheck go rfl performs, hgo]

/-- Settles O9: the last signature runs the generation; PERM's has its table at an address that its gate lets pass. -/
theorem crossThreadCompletes : Obligations.CrossThreadCompletes := by
  refine ⟨fun _ => issues_of_runGen (fun _ => rfl) fun _ _ _ => calm_genWrites _ _ _ _ _,
    fun _ => issues_of_runGen (fun _ => rfl) fun _ _ _ => calm_foldl _ _ (fun _ _ => calm_genWrite _ _ _ _ _) _,
    fun x s i e c k tr hvals halign hrange htr hctr hwait hreach hmiss hwatch hhit => ?_,
    fun x => issues_of_reduceGen (f := fun _ l _ => voteValue x.mode l) (fun _ => rfl) rfl fun _ _ _ _ => rfl,
    fun x => issues_of_reduceGen (f := fun _ l _ => wsumValue x.ty x.sat x.mode l) (fun _ => rfl) rfl fun _ _ _ _ => rfl,
    fun x => issues_of_reduceGen (f := fun _ l _ => wmaxValue x.ty x.min l) (fun _ => rfl) rfl fun _ _ _ _ => rfl,
    fun x => issues_of_reduceGen (f := fun e => wscanValue x.ty x.excl x.sat x.mode e.g.width) (go := fun r s => s.wscanGen x r)
      (fun _ => rfl) rfl fun _ _ _ he => by simp only [State.wscanGen, group_of_gen he]⟩
  have hgate := permGate_go (x := x) halign hrange htr hctr hwait hreach hmiss hwatch
  exact signAt_performs (go := fun r s => s.permGen x r) c (.perm x)
    ((permGen_eq_permRun k.complete hhit).trans (permRun_clear k hgate hvals htr)) (still_permEffect x tr _)

end Sys2Proof.Machine
end

section
/-! PROOFS. The issue of an access whose line the core's L0 holds, in a context that watches it (R145, R341). -/

namespace Sys2Proof.Machine

/-! ### A load that its core's L0 serves -/

/-- A weak load of 4 bytes at v4 with an offset of 0, unguarded. -/
def watchedLoad : MemOps :=
  { h := { ps := 7, pn := false, acc := false, lit := none }, d := .v 8, a := .v 4, b := .imm 256, ty := .b32, order := .weak, scope := .thr }

/-- The readable page that holds its address, 0. -/
def watchedPage : TlbEntry := ⟨1, 0, 0x10000, 0x50000, 0x3⟩

/-- The one group of one thread of context 1 is to issue it. Its core holds the translation and, in its L0, the line; a watchpoint of
the context tests reads of the line's first 16 bytes, and has met none. -/
def stWatched : State :=
  let s := (State.reset.withFetchWord 64 0).updCtx 1 fun c => { c with watch := [{ Watch.off0 with kind := 2, sz := 4, base := 0x50000 }] }
  { s with
    cur := some (.path ⟨(s.groups.map Group.key).headD 0, 0, 0⟩ 8)
    agenda := []
    mem := { s.mem with tlb := [(.core 0, watchedPage)], l0 := [(0, 0x50000 / 32)] } }

/-- The path that issues it. -/
def watchedIss : Iss := stWatched.iss?.get (by decide +kernel)

def watchedShape : Shape := MemOps.ldShape watchedLoad false

theorem accesses_watchedLoad : Accesses (.ldG watchedLoad) watchedLoad.h watchedShape 1 0 .weak { code := 4, size := 4, plain := true }
    (fun k => wants k vaG (fun _ => 0) (fun _ => false)) { kind := .load, ty := .b32, order := .weak, scope := .thr, d := .v 8 } :=
  accesses_of fun _ => rfl

theorem clear_watchedLoad : Clear stWatched watchedIss watchedLoad.h watchedShape where
  issues := by decide +kernel
  registers := by decide +kernel
  lines := by decide +kernel
  rings := by decide +kernel
  branches := by decide +kernel
  guards := by decide +kernel
  uses := by decide +kernel
  generator := nofun
  ports := by decide +kernel
  operands := by decide +kernel

theorem reaches_watchedLoad : ∀ w ∈ wants (stWatched.sees watchedIss watchedLoad.h watchedShape) vaG (fun _ => 0) (fun _ => false),
    Reaches stWatched watchedIss { code := 4, size := 4, plain := true } w.va watchedPage := by
  simp only [Reaches]
  decide +kernel

/-- What each context's watchpoints have counted. -/
def State.watchCounts (s : State) : List (List Nat) := s.ctxs.map fun c => c.watch.map (·.count)

/-- The L0 serves the load at its issue, so it is tested against the watchpoint then, and counted. -/
theorem watchedLoad_counted : ∃ t, exec (.ldG watchedLoad) stWatched = .next t ∧ stWatched.watchCounts = [[0]] ∧ t.watchCounts = [[1]] :=
  ⟨_, accesses_watchedLoad stWatched watchedIss (fun _ => watchedPage) clear_watchedLoad (by decide +kernel) reaches_watchedLoad,
    by decide +kernel, by decide +kernel⟩

/-- Refutes O50: a load that the core's L0 serves meets a watchpoint at its issue, and the context's watchpoint counts it. No header is
bad, so the load meets every premise. -/
theorem not_issueOfAccessLeavesMemory : ¬ Obligations.IssueOfAccessLeavesMemory := by
  intro h
  obtain ⟨t, issued, before, after⟩ := watchedLoad_counted
  have good : stWatched.mem.badHdr = [] := by decide +kernel
  obtain ⟨-, -, -, -, ctxs⟩ := h _ _ _ _ _ _ _ _ _ accesses_watchedLoad stWatched watchedIss (fun _ => watchedPage) t clear_watchedLoad
    (by decide +kernel) reaches_watchedLoad (fun _ _ x _ bad => by simp [good, setMem] at bad) issued
  have same : t.watchCounts = stWatched.watchCounts := by rw [State.watchCounts, ctxs, State.watchCounts]
  simp [before, after] at same

end Sys2Proof.Machine
end

section
/-! PROOFS. The instructions that access global memory complete their issue (R97, R210, R258 to R276). -/

namespace Sys2Proof.Machine

/-! ### Reading operands -/

/-- Reading operands pops queues of threads and moves heads of rings, and does nothing else: what these two keep, it keeps. -/
theorem afterRead_keeps {P : State → Prop} {s : State} {x : Iss} (hs : P s)
    (popped : ∀ s t f, P s → P (s.updThread x.r.g x.r.w t f)) (moved : ∀ s base bs, P s → P (s.putScratch x.g 0 base bs false))
    (h : Hdr) (sh : Shape) : P (s.afterRead x h sh) := by
  refine List.foldlRecOn sh.srcs _ (motive := fun a : State × List (List (List Reg)) => P a.1) hs fun a ha b _ => ?_
  show P (a.1.readSrc x h b _).1
  unfold State.readSrc
  split
  · split
    · refine List.foldlRecOn _ _ (motive := fun c : State × List (List Reg) => P c.1) ha fun c hc t _ => ?_
      dsimp only
      split
      · exact hc
      · exact popped _ _ _ hc
    · split
      · exact ha
      · exact moved _ _ _ ha
  · exact ha

/-! ### Lines that a version holds (R97) -/

/-- How many lines the version of group `k` holds. -/
def State.lineCount (s : State) (k : Nat) : Nat := ((s.group? k).map (·.vlines.length)).getD 0

theorem lineCount_updGroup (s : State) (m : Nat) (f : Group → Group) (hk : ∀ g, (f g).key = g.key) (hv : ∀ g, (f g).vlines = g.vlines)
    (k : Nat) : (s.updGroup m f).lineCount k = s.lineCount k := by
  rw [State.lineCount, group_updGroup s m f hk]
  split <;> simp [State.lineCount, hv, Function.comp_def]

theorem lineCount_updThread (s : State) (m w t : Nat) (f : Thread → Thread) (k : Nat) : (s.updThread m w t f).lineCount k = s.lineCount k :=
  lineCount_updGroup s m _ (by intro _; rfl) (by intro _; rfl) k

theorem lineCount_putScratch (s : State) (g : Group) (n o : Nat) (bs : List Byte) (bad : Bool) (k : Nat) :
    (s.putScratch g n o bs bad).lineCount k = s.lineCount k := by
  refine List.foldlRecOn _ _ (motive := fun t : State => t.lineCount k = s.lineCount k) rfl fun t ht b _ => Eq.trans ?_ ht
  dsimp only
  unfold State.putScratchByte
  split
  · rfl
  · exact lineCount_updGroup _ _ _ (by intro _; rfl) (by intro _; rfl) k

theorem lineCount_afterRead {s : State} {x : Iss} (hx : s.iss? = some x) (h : Hdr) (sh : Shape) :
    (s.afterRead x h sh).lineCount x.r.g = x.g.vlines.length := by
  obtain ⟨_, hg, _⟩ := iss_spec hx
  exact afterRead_keeps (P := fun t => t.lineCount x.r.g = x.g.vlines.length) (by simp [State.lineCount, hg])
    (fun t _ _ ht => (lineCount_updThread t _ _ _ _ _).trans ht) (fun t _ _ ht => (lineCount_putScratch t _ _ _ _ _ _).trans ht) h sh

/-- A version that holds fewer than 512 lines takes a store, and holds at most one more. -/
theorem holdStore_takes {s : State} {i : Iss} (room : s.lineCount i.r.g < 512) (pa : Nat) (bs : List Byte) (bad : Bool) :
    Calm s (s.holdStore i pa bs bad) ∧ (s.holdStore i pa bs bad).lineCount i.r.g ≤ s.lineCount i.r.g + 1 := by
  cases hg : s.group? i.r.g with
  | none => simp only [State.holdStore, hg]; exact ⟨.refl s, Nat.le_succ _⟩
  | some g =>
    have count : s.lineCount i.r.g = g.vlines.length := by simp [State.lineCount, hg]
    have after (f : Group → Group) (hk : ∀ g, (f g).key = g.key) : (s.updGroup i.r.g f).lineCount i.r.g = (f g).vlines.length := by
      simp [State.lineCount, group_updGroup s _ f hk, hg]
    simp only [State.holdStore, hg]
    split
    · exact ⟨.refl s, Nat.le_succ _⟩
    · split
      · refine ⟨calm_updGroup _ _ _ fun _ => rfl, ?_⟩
        rw [after _ (by intro _; rfl)]
        simp [mapIf, count]
      · rw [if_neg (by omega)]
        refine ⟨calm_updGroup _ _ _ fun _ => rfl, ?_⟩
        rw [after _ (by intro _; rfl)]
        simp [count]

theorem calm_holdStores {i : Iss} (pa : Want → Nat) (bs : Want → List Byte) (bad : Want → Bool) (ws : List Want) (s : State)
    (room : s.lineCount i.r.g + ws.length ≤ 512) : Calm s (ws.foldl (fun t w => t.holdStore i (pa w) (bs w) (bad w)) s) := by
  induction ws generalizing s with
  | nil => exact .refl s
  | cons w ws ih =>
    rw [List.length_cons] at room
    obtain ⟨calm, grown⟩ := holdStore_takes (s := s) (i := i) (by omega) (pa w) (bs w) (bad w)
    exact calm.trans (ih _ (by omega))

/-! ### Stores and CTR.INIT -/

/-- An instruction whose body is `goGlobal` where it issues completes its issue; what it is may depend on who issues it. -/
theorem issueMem_underway {s : State} {x : Iss} {h : Hdr} {sh : Shape} {kind : Nat} {order : Order} (c : Clear s x h sh)
    (hw : s.mustWait x h kind order false = false) {d : Doing} {ws : Taken → List Want} {tr : Nat → TlbEntry}
    (reach : ∀ w ∈ ws (s.sees x h sh), Reaches s x d w.va (tr w.va)) (i : Instr) (per : Nat) (f : Iss → OpForm) (body : Body)
    (e : body x (s.sees x h sh) (s.afterRead x h sh) =
      (s.afterRead x h sh).goGlobal s x h sh (s.sees x h sh) d (ws (s.sees x h sh)) (f x)) :
    issueMem i h sh per kind order false s body =
      .next (s.performed x h sh per fun x k t => (t.underway s x h k d.size (f x) (ws k) tr, .next [])) :=
  issueMem_body c hw i per _ _ (e.trans (goGlobal_reaches h sh _ d _ (f x) tr (mem_afterRead s x h sh) reach)) (still_underway ..)

section Store
variable {x : MemOps} {s : State} {i : Iss} {tr : Nat → TlbEntry}

/-- What ST does. -/
def storeDoing (x : MemOps) : Doing := { code := x.a.code, size := typeBytes x.ty, write := true, plain := true }

variable (c : Clear s i x.h (MemOps.stShape x false)) (hw : s.mustWait i x.h 1 x.order false = false)
  (whole : partData x (s.sees i x.h (MemOps.stShape x false)) = [])
  (reach : ∀ w ∈ storeWants (s.sees i x.h (MemOps.stShape x false)) x vaG, Reaches s i (storeDoing x) w.va (tr w.va))
include c hw whole reach

theorem stG_underway (plain : i.g.versioned = false ∨ x.order ≠ .weak) :
    exec (.stG x) s = .next (s.performed i x.h (MemOps.stShape x false) (memPer x.ty) fun i k t =>
      (t.underway s i x.h k (typeBytes x.ty) { kind := .store, ty := x.ty, order := x.order, scope := x.scope, d := .vz } (storeWants k x vaG) tr,
        .next [])) := by
  have unheld : (i.g.versioned && decide (x.order = .weak)) = false := by rcases plain with h | h <;> simp [h]
  show execStG x s = _
  refine issueMem_underway (ws := fun k => storeWants k x vaG) c hw reach _ _
    (fun _ => { kind := .store, ty := x.ty, order := x.order, scope := x.scope, d := .vz }) _ ?_
  simp only [whole, unheld, trapAll_nil, without_nil, List.isEmpty_nil, Bool.not_true, Bool.and_false, Bool.false_eq_true, if_false]
  rfl

theorem stG_held (versioned : i.g.versioned = true) (weak : x.order = .weak)
    (room : i.g.vlines.length + (storeWants (s.sees i x.h (MemOps.stShape x false)) x vaG).length ≤ 512) :
    exec (.stG x) s = .next (s.performed i x.h (MemOps.stShape x false) (memPer x.ty) fun i k t =>
      ((storeWants k x vaG).foldl (fun t w => t.holdStore i ((tr w.va).pa w.va) (leBytes (typeBytes x.ty) w.data) w.bad) t, .next [])) := by
  show execStG x s = _
  refine issueMem_body c hw _ _ _ _ ?_ (calm_holdStores _ _ _ _ _ (by rwa [lineCount_afterRead c.issues])).still
  simp only [whole, versioned, weak, trapAll_nil, without_nil, List.isEmpty_nil, Bool.not_true, Bool.and_false, Bool.false_eq_true, if_false,
    decide_true, Bool.and_self, if_true]
  refine (goEach_reaches _ _ (storeDoing x) _ _ tr (mem_afterRead s i x.h _) reach).trans ?_
  rw [List.foldl_map]
  split
  · rename_i none
    rw [none]
    rfl
  · rfl

end Store

theorem exec_ctrInit_global {x : CtrInitOps} (hs : x.scratch = false) (hc : x.pclass.val < 7) (hr : x.rscope.val < 6) (s : State) :
    exec (.ctrInit x) s = issueMem (.ctrInit x) x.h { srcs := [ctrSrcA x.a false, strictB x.b 2], suppress := true } 1 1 x.order false s
      fun i k t => t.goGlobal s i x.h { srcs := [ctrSrcA x.a false, strictB x.b 2], suppress := true } k (ctrDoing x.a true) (wantsB k false)
        { kind := .ctrInit (ctrAttr i.g x.pclass.val x.rscope.val), ty := .b32, order := x.order, scope := x.scope, d := .vz } := by
  show execCtrInit x s = _
  simp only [execCtrInit, hs, Nat.not_le.mpr hc, Nat.not_le.mpr hr, Bool.false_eq_true, if_true, if_false]

theorem ctrRun_global {x : CtrOps} (hs : x.scratch = false) (i : Instr) (kind : AccessKind) (s : State) :
    ctrRun i x kind s = issueMem i x.h (CtrOps.rmw x) 1 2 x.order false s fun y k t =>
      t.goGlobal s y x.h (CtrOps.rmw x) k (ctrDoing x.a true) (wantsB k false)
        { kind := kind, ty := .b32, order := x.order, scope := x.scope, d := x.d } := by
  simp only [ctrRun, hs, Bool.false_eq_true, if_false]

theorem exec_ctrRd_global {x : CtrOps} (hs : x.scratch = false) (s : State) :
    exec (.ctrRd x) s = issueMem (.ctrRd x) x.h { srcs := [ctrSrcA x.a false], dst := some { op := x.d, n := 2 }, suppress := true } 1 0 x.order false s
      fun i k t => t.goGlobal s i x.h { srcs := [ctrSrcA x.a false], dst := some { op := x.d, n := 2 }, suppress := true } k (ctrDoing x.a false)
        (wantsB k false) { kind := .ctrRd, ty := .b32, order := x.order, scope := x.scope, d := x.d } := by
  show execCtrRd x s = _
  simp only [execCtrRd, hs, Bool.false_eq_true, if_false]

/-- Settles O11: each runs `goGlobal`, whose accesses are all made; a store that is held has room in its version, so nothing stops. -/
theorem globalAccessesComplete : Obligations.GlobalAccessesComplete :=
  ⟨fun _ => accesses_of fun _ => rfl,
    fun _ _ _ _ c hw whole reach => ⟨stG_underway c hw whole reach, stG_held c hw whole reach⟩,
    fun _ => accesses_of fun _ => rfl, fun _ => accesses_of fun _ => rfl, fun _ => accesses_of fun _ => rfl,
    fun x hs hc hr s i tr c hw reach => by
      rw [exec_ctrInit_global hs hc hr]
      exact issueMem_underway (ws := fun k => wantsB k false) c hw reach _ _ (fun i =>
        { kind := .ctrInit (ctrAttr i.g x.pclass.val x.rscope.val), ty := .b32, order := x.order, scope := x.scope, d := .vz }) _ rfl,
    fun _ hs => ⟨accesses_of (ctrRun_global hs _ .ctrAdd), accesses_of (ctrRun_global hs _ .ctrMax), accesses_of (exec_ctrRd_global hs)⟩⟩

end Sys2Proof.Machine
end

section
/-! PROOFS. CTR.WAIT that holds, and the bindings of ring ports (R70, R71, R275 to R278). -/

namespace Sys2Proof.Machine

/-! ### CTR.WAIT -/

theorem still_testsDone (s : State) (r : PathRef) (g : Group) (d : Operand) (uni : Bool) (ts : List Nat) (l : List CtrTest) :
    Still s (s.testsDone r g d uni ts l) := by
  refine still_foldl l _ (fun s t => ?_) s
  dsimp only
  refine Still.trans ?_ (calm_writeDst _ _ _ _ _ _ _ _).still
  split
  · exact (still_memory s _).trans ((still_served _ _ _ _).trans (still_watch _ _ _ _ _ _ _))
  · exact .refl s

/-- The tests of which each can be made, as `State.ctrTests` lists them. -/
def madeTests (l : List (Want × CtrTest)) : List (Want × Except (Nat × Nat × Nat) CtrTest) := l.map fun p => (p.1, .ok p.2)

/-- Where every test can be made, the list of tests is one of tests made. -/
theorem exists_madeTests {P : Want → Prop} {Q : CtrTest → Prop} {all : List (Want × Except (Nat × Nat × Nat) CtrTest)}
    (h : ∀ c ∈ all, P c.1 ∧ ∃ t, c.2 = .ok t ∧ Q t) : ∃ l, all = madeTests l ∧ ∀ p ∈ l, P p.1 ∧ Q p.2 := by
  induction all with
  | nil => exact ⟨[], rfl, by simp⟩
  | cons c all ih =>
    obtain ⟨hP, t, ok, hQ⟩ := h c (by simp)
    obtain ⟨l, rfl, hl⟩ := ih fun c hc => h c (by simp [hc])
    refine ⟨(c.1, t) :: l, ?_, List.forall_mem_cons.mpr ⟨⟨hP, hQ⟩, hl⟩⟩
    rw [madeTests, madeTests, List.map_cons, ← ok]

theorem filterMap_madeTests (l : List (Want × CtrTest)) (f : Want × Except (Nat × Nat × Nat) CtrTest → Option CtrTest)
    (hf : ∀ w t, f (w, .ok t) = some t) : (madeTests l).filterMap f = l.map (·.2) := by
  have made : (f ∘ fun p : Want × CtrTest => (p.1, .ok p.2)) = some ∘ (·.2) := funext fun p => hf p.1 p.2
  rw [madeTests, List.filterMap_map, made, List.filterMap_eq_map]

theorem ctrWait_completes (x : CtrOps) (s : State) (i : Iss) (c : Clear s i x.h (CtrOps.waitShape x)) (first : s.waitFirst i x.h = false)
    (hw : s.mustWait i x.h 0 x.order x.scratch = false)
    (tests : ∀ c ∈ (s.afterRead i x.h (CtrOps.waitShape x)).ctrTests i (s.sees i x.h (CtrOps.waitShape x)) x,
      (x.scratch = true → s.scratchBusy i.g c.1.va 16 = false) ∧
        ∃ t, c.2 = .ok t ∧ (s.afterRead i x.h (CtrOps.waitShape x)).testHolds i.g t = true ∧ s.testVeiled i.r x.scope t = false) :
    let k := s.sees i x.h (CtrOps.waitShape x)
    let u := s.afterRead i x.h (CtrOps.waitShape x)
    let v := u.testsDone i.r i.g x.d k.uni k.ts ((u.ctrTests i k x).filterMap fun c => c.2.toOption)
    s.arrives (PathRef.waitKey i.r i.p) 2 v →
    exec (.ctrWait x) s = .next (s.performed i x.h (CtrOps.waitShape x) 1 fun _ _ _ => (v.arrive (PathRef.waitKey i.r i.p), .next [])) := by
  intro k u v arrives
  show execCtrWait x s = _
  rw [execCtrWait, withIssue_of c.issues, first, if_neg (by simp)]
  refine issueMem_body c hw _ _ _ _ ?_ ((still_testsDone _ _ _ _ _ _ _).trans (still_arrive _ _))
  obtain ⟨l, hl, made⟩ := exists_madeTests (P := fun w => x.scratch = true → s.scratchBusy i.g w.va 16 = false)
    (Q := fun t => u.testHolds i.g t = true ∧ s.testVeiled i.r x.scope t = false) tests
  have free : (x.scratch && l.any fun p => s.scratchBusy i.g p.1.va 16) = false := by
    cases hs : x.scratch
    · rfl
    · simpa using fun w t h => (made (w, t) h).1 hs
  have holds : (l.map (·.2)).filter (fun t => !(u.testHolds i.g t)) = [] := by
    simpa using fun t w h => (made (w, t) h).2.1
  have unveiled : (l.map (·.2)).any (s.testVeiled i.r x.scope) = false := by
    simpa using fun w t h => (made (w, t) h).2.2
  have done : v = u.testsDone i.r i.g x.d k.uni k.ts (l.map (·.2)) := by
    rw [← filterMap_madeTests l (fun c => c.2.toOption) fun _ _ => rfl, ← hl]
  have walks : (!x.scratch && l.any fun _ => false) = false := by simp
  have errs : l.flatMap (fun _ => ([] : List ThreadErr)) = [] := by simp
  dsimp only
  rw [hl, filterMap_madeTests l, holds, unveiled]
  · simp only [madeTests, List.any_map, List.flatMap_map, Function.comp_def, walks, free, errs, trapAll_nil, List.isEmpty_nil,
      Bool.false_eq_true, if_false, if_true]
    rw [← done, reaching_arrives arrives]
  · exact fun _ _ => rfl

/-! ### QCFG -/

theorem qcfg_completes (x : QcfgOps) (s : State) (i : Iss) :
    let src := fun f (o : Operand) => ({ field := f, op := o, strict := true, uni := true } : Src)
    let sh : Shape := { srcs := [src 2 x.a, src 3 x.b], uni := some true }
    let v := ((s.sees i x.h sh).vals.headD (0, [])).2
    let off := regsNat (v.getD 0 [])
    let b := regsNat (v.getD 1 [])
    let e := b % 32
    Clear s i x.h sh → off % 16 = 0 → e < 17 → (e ≠ 0 → (s.afterRead i x.h sh).scratchOut i.g off (16 + 4 * 2 ^ e) = none) →
    (e ≠ 0 → b.testBit 8 = true → s.scratchBusy i.g off 8 = false) →
    exec (.qcfg x) s = .next (s.performed i x.h sh 1 fun i _ t =>
      let t := if e ≠ 0 ∧ b.testBit 8 = true then t.putScratch i.g 0 off (leBytes 8 0) false else t
      (t.updGroup i.r.g fun g => { g with ring := sset none g.ring (8 + x.port.val) (if e = 0 then none else some (off, e)) }, .next [])) := by
  intro src sh v off b e c aligned small inRange free
  show execQcfg x s = _
  have code : bits b 4 0 = e := by simp [Laws.Encoding.bits_eq, e]
  have empties : (decide (e ≠ 0) && bit b 8) = true ↔ e ≠ 0 ∧ b.testBit 8 = true := by simp [bit]
  have out : (decide (e ≠ 0) && ((s.afterRead i x.h sh).scratchOut i.g off (16 + 4 * 2 ^ e)).isSome) = false := by
    by_cases he : e = 0
    · simp [he]
    · simp [inRange he]
  have busy : (decide (e ≠ 0) && bit b 8 && s.scratchBusy i.g off 8) = false := by
    cases hb : (decide (e ≠ 0) && bit b 8)
    · rfl
    · obtain ⟨bound, clear⟩ := empties.mp hb
      exact free bound clear
  refine issue_body c _ _ _ _ ?_ ?_
  · dsimp only
    rw [code, if_neg (Decidable.not_not.mpr aligned), if_neg (Nat.not_le.mpr small), if_neg (Bool.eq_false_iff.mp out), if_neg (Bool.eq_false_iff.mp busy)]
    by_cases emptied : e ≠ 0 ∧ b.testBit 8 = true
    · rw [if_pos (empties.mpr emptied), if_pos emptied]
    · rw [if_neg (mt empties.mp emptied), if_neg emptied]
  · refine Calm.still (Calm.trans ?_ (calm_updGroup _ _ _ fun _ => rfl))
    split
    · exact calm_putScratch _ _ _ _ _ _
    · exact .refl _

/-- Settles O13: every test can be made, holds and reaches its sector, so the wait ends at once; a binding passes each check of QCFG. -/
theorem waitAndPortCompletes : Obligations.WaitAndPortCompletes := ⟨ctrWait_completes, qcfg_completes⟩

end Sys2Proof.Machine
end

section
/-! PROOFS. A COPY that nothing rejects is accepted (R281 to R287, R391, R460). -/

namespace Sys2Proof.Machine

theorem still_descriptor {s t : State} {i : Iss} {va : Nat} {bs : List Byte} {bad : Bool} (h : s.descriptor i va = .ok (t, bs, bad)) : Still s t := by
  unfold State.descriptor at h
  split at h
  · contradiction
  · split at h
    · contradiction
    · rename_i read
      obtain ⟨rfl, -, -⟩ := Prod.ext_iff.mp (Except.ok.inj h)
      exact still_engineRead read

theorem still_acceptCopy (s : State) (y : Iss) (x : CopyOps) (kind : CopyKind) (slot : Nat) (da db : List Byte) (b ctr : Nat) :
    Still s (s.acceptCopy y x kind slot da db b ctr) := ⟨rfl, rfl⟩

/-- The second descriptor of a COPY.CP is read; the other copies have none. -/
def secondRead (kind : CopyKind) (i : Iss) (b : Nat) (s s' : State) (bs : List Byte) : Prop :=
  if kind = .cp then s.descriptor i b = .ok (s', bs, false) else s' = s ∧ bs = []

theorem still_secondRead {kind : CopyKind} {i : Iss} {b : Nat} {s s' : State} {bs : List Byte} (h : secondRead kind i b s s' bs) : Still s s' := by
  unfold secondRead at h
  split at h
  · exact still_descriptor h
  · obtain ⟨rfl, -⟩ := h
    exact .refl _

/-- Its descriptors are read, no reason of R460 holds, and its engine and its group have room: it is accepted, once that reaches its sectors. -/
theorem copyIssue_accepts {x : CopyOps} {kind : CopyKind} {s : State} {i : Iss} {s1 s2 u : State} {da db : List Byte} {slot : Nat} {v : List (List Reg)}
    (c : Clear s i x.h (CopyOps.shape x (kind = .st))) (hv : ((s.sees i x.h (CopyOps.shape x (kind = .st))).vals.headD (0, [])).2 = v)
    (fence : s.fenceWaits i x.h .sc = false) (clean : v.any regsBad = false)
    (first : (s.afterRead i x.h (CopyOps.shape x (kind = .st))).descriptor i (regsNat (v.getD 0 [])) = .ok (s1, da, false))
    (second : secondRead kind i (regsNat (v.getD 1 [])) s1 s2 db)
    (legal : copyReason i kind (Tensor.ofBytes da) (Tensor.ofBytes db) (regsNat (v.getD 0 [])) (regsNat (v.getD 1 [])) = none)
    (room : s2.copyRoom i.g = some slot)
    (hu : s2.acceptCopy i x kind slot da db (regsNat (v.getD 1 [])) (regsNat (v.getD 2 [])) = u)
    (arrives : s.arrives (PathRef.waitKey i.r i.p) 2 u) (ins : Instr) :
    copyIssue ins x kind s = .next (s.performed i x.h (CopyOps.shape x (kind = .st)) 1 fun i _ _ =>
      ((s2.acceptCopy i x kind slot da db (regsNat (v.getD 1 [])) (regsNat (v.getD 2 []))).arrive (PathRef.waitKey i.r i.p), .next [])) := by
  have still : Still (s.afterRead i x.h (CopyOps.shape x (kind = .st))) s2 := (still_descriptor first).trans (still_secondRead second)
  refine issue_body c _ _ _ _ ?_ (still.trans ((still_acceptCopy ..).trans (still_arrive _ _)))
  dsimp only
  rw [if_neg (Bool.eq_false_iff.mp fence), hv, if_neg (Bool.eq_false_iff.mp clean), hu]
  refine Eq.trans (congrArg _ ?_) (reached_arrives (r := (u, .next [])) arrives)
  unfold secondRead at second
  by_cases cp : kind = .cp
  · obtain rfl := cp
    rw [if_pos rfl] at second
    simp only [first, second, if_true, Bool.false_eq_true, if_false, legal, room, hu]
  · rw [if_neg cp] at second
    obtain ⟨rfl, rfl⟩ := second
    simp only [first, cp, Bool.false_eq_true, if_false, legal, room, hu]

/-- Settles O14: both descriptors are read, no reason of R460 holds and there is room, so the issue takes the branch that accepts. -/
theorem copyCompletes : Obligations.CopyCompletes := by
  intro x kind s i s1 da s2 db slot sh v a b key c fence clean first second legal room arrives
  have accepts := copyIssue_accepts (v := v) c rfl fence clean first second legal room rfl arrives
  cases kind with
  | ld => exact accepts (.copyLd x)
  | st => exact accepts (.copySt x)
  | cp => exact accepts (.copyCp x)

end Sys2Proof.Machine
end

section
/-! PROOFS. The tile instructions that one path issues complete (R290 to R295, R305, R306, R475). -/

namespace Sys2Proof.Machine

theorem calm_updShared (s : State) (k : Nat) (what : Shared) (wid : Nat) {f : Group → Group} (hf : ∀ g, (f g).traps = g.traps) :
    Calm s (s.updShared k what wid f) := by
  refine calm_updGroup _ _ _ fun g => ?_
  split
  · exact hf g
  · rfl

theorem calm_markTile (s : State) (k wid n : Nat) : Calm s (s.markTile k wid n) := calm_updShared _ _ _ _ fun _ => rfl

theorem calm_seedKey (s : State) (i : Iss) (key : Nat) (bad : Bool) : Calm s (s.seedKey i key bad) := calm_updShared _ _ _ _ (by intro _; rfl)
theorem calm_seedStream (s : State) (i : Iss) (stream : Nat) (bad : Bool) : Calm s (s.seedStream i stream bad) :=
  calm_updShared _ _ _ _ (by intro _; rfl)

/-- A move of tile elements into a group's accumulator marks the tile and traps nothing. -/
theorem putEls_markDirty_traps (g : Group) (t : Tile) (els : List (Nat × Nat × Nat × Bool)) (n : Nat) :
    ((g.putEls t els).markDirty n).traps = g.traps := (markDirty_traps _ _).trans (putEls_traps _ _ _)

theorem still_launchMat_at (s : State) (k : Nat) (o : MatOp) (place : Nat) : Still s (s.launchMat k o place) :=
  Still.trans (t := s.fresh.1) ⟨rfl, rfl⟩ (calm_updGroup _ _ _ (by intro _; rfl)).still

/-! ### TEPI -/

/-- The position of TEPI that says how many elements it gives. -/
def tepiCount (x : TepiOps) : Src := { field := 3, op := x.b, uni := true }

/-- The operands of TEPI for n elements. -/
def tepiShape (x : TepiOps) (n : Nat) : Shape := { srcs := [srcA x.a 1, tepiCount x], dst := some { op := x.d, n := n, group := true } }

/-- The row and the column from which a position of TEPI takes its elements. -/
def tepiRow (v : List (List Reg)) : Nat := regsNat (v.headD []) / 2 ^ 8 % 64
def tepiCol (v : List (List Reg)) : Nat := regsNat (v.headD []) % 64

theorem bits_tepiRow (v : List (List Reg)) : bits (regsNat (v.headD [])) 13 8 = tepiRow v := Laws.Encoding.bits_eq _ _ _
theorem bits_tepiCol (v : List (List Reg)) : bits (regsNat (v.headD [])) 5 0 = tepiCol v := by simp [Laws.Encoding.bits_eq, tepiCol]

/-- Elements that lie in the tile, in a number that TEPI gives: each position gets its own, and nothing traps. -/
theorem execTepi_clear {x : TepiOps} {s : State} {i : Iss} {t : Tile} {n : Nat} (count : regsNat (i.words x.h (tepiCount x) (maskLow i.p.tmask)) = n)
    (c : Clear s i x.h (tepiShape x n)) (free : s.tileBusy i.g i.w.wid x.tile.val = false) (bound : i.g.tile x.tile.val = some t)
    (low : 1 ≤ n) (high : n ≤ 16)
    (inside : ∀ m ∈ (s.sees i x.h (tepiShape x n)).vals, tepiRow m.2 < t.rows ∧ tepiCol m.2 + n ≤ t.cols) :
    execTepi x s = .next (s.performed i x.h (tepiShape x n) n fun i k u =>
      (k.vals.foldl (fun u m => u.writeRun i x.d m.1 (if k.uni then k.ts else [m.1])
        ((List.range n).map fun e => Reg.ofNat (i.g.elOut t (tepiRow m.2) (tepiCol m.2 + e) false x.mode x.sat).1
          ((i.g.elOut t (tepiRow m.2) (tepiCol m.2 + e) false x.mode x.sat).2 || m.2.any regsBad)))
        (u.markTile i.r.g i.w.wid x.tile.val), .next [])) := by
  have given : (decide (1 ≤ n) && decide (n ≤ 16)) = true := by simp [low, high]
  have fits : ∀ m ∈ (s.sees i x.h (tepiShape x n)).vals, (decide (t.rows ≤ tepiRow m.2) || decide (t.cols < tepiCol m.2 + n)) = false := by
    intro m hm
    obtain ⟨row, col⟩ := inside m hm
    simp [row, col]
  have noneOut : (s.sees i x.h (tepiShape x n)).vals.filter (fun m => decide (t.rows ≤ tepiRow m.2) || decide (t.cols < tepiCol m.2 + n)) = [] :=
    List.filter_eq_nil_iff.mpr fun m hm => by simp [fits m hm]
  have allIn : (s.sees i x.h (tepiShape x n)).vals.filter (fun m => !(decide (t.rows ≤ tepiRow m.2) || decide (t.cols < tepiCol m.2 + n))) =
      (s.sees i x.h (tepiShape x n)).vals := List.filter_eq_self.mpr fun m hm => by simp [fits m hm]
  rw [execTepi, withIssue_of c.issues]
  unfold tepiCount at count
  simp only [count, given, if_true]
  refine issueTile_body c _ _ _ _ _ free ?_ ((calm_markTile _ _ _ _).still.trans (still_foldl _ _ (fun _ _ => still_writeRun _ _ _ _ _ _) _))
  simp only [bound, bits_tepiRow, bits_tepiCol, noneOut, allIn, Bool.not_true, Bool.false_eq_true, if_false, List.flatMap_nil, trapAll_nil]

/-! ### TLD and TST -/

/-- A move whose row pitch holds a row of a bound tile, with nothing before it and a free slot, starts its transfer. -/
theorem tileMove_launches {x : TileMoveOps} {s : State} {i : Iss} {t : Tile} {slot : Nat} {v : List (List Reg)}
    (c : Clear s i x.h (TileMoveOps.shape x)) (hv : ((s.sees i x.h (TileMoveOps.shape x)).vals.headD (0, [])).2 = v)
    (bound : i.g.tile x.tile.val = some t) (pitch : t.cols * tileBytes x.fmt ≤ 16 * (regsNat (v.getD 1 []) / 2 ^ 23 % 256))
    (fence : s.fenceWaits i x.h .sc = false) (wins : i.g.wins s.coreClock (.tile x.tile.val) i.w.wid = true)
    (room : (s.afterRead i x.h (TileMoveOps.shape x)).slotOf i.g = some slot) {kind : MatKind} (draws : kind = .tld → i.g.genBad = 0)
    (ins : Instr) (op : Nat) :
    tileMove ins x kind op s = .next (s.performed i x.h (TileMoveOps.shape x) 1 fun i _ u =>
      ((u.markTile i.r.g i.w.wid x.tile.val).launchMat i.r.g
        (TileMoveOps.move x i kind t slot (regsNat (v.getD 1 [])) (regsNat (v.getD 0 []))), .next [])) := by
  have wide : ¬ 16 * bits (regsNat (v.getD 1 [])) 30 23 < t.cols * tileBytes x.fmt := by
    rw [Laws.Encoding.bits_eq]
    exact Nat.not_lt.mpr pitch
  have sound : (decide (kind = .tld) && decide (i.g.genBad ≠ 0)) = false := by simpa using draws
  refine issue_body c _ _ _ _ ?_ ((calm_markTile _ _ _ _).still.trans (still_launchMat_at _ _ _ _))
  dsimp only
  rw [hv]
  simp only [bound, if_neg wide, sound, fence, wins, room, Bool.not_true, Bool.or_self, Bool.false_eq_true, if_false]

/-- Settles O15: each clause's conditions lead its instruction past its checks to the branch that acts, which traps nothing. -/
theorem tileInstructionsComplete : Obligations.TileInstructionsComplete := by
  refine ⟨fun x s i => ?tcfg, fun x s i => ?free, fun x s i t => ?tzero, fun x s i => ?seed, fun x s i => ?seedS, fun x s i t => ?tepi,
    fun x s i t slot => ?move⟩
  case tcfg =>
    intro sh v c free legal
    show execTcfg x s = _
    rw [execTcfg]
    refine issueTile_body c _ _ _ _ _ free ?_ ((calm_markTile _ _ _ _).trans (calm_updGroup _ _ _ (by intro _; rfl))).still
    dsimp only
    rw [legal]
  case free =>
    intro sh c free
    show execTcfgFree x s = _
    exact issueTile_body c _ _ _ _ _ free rfl ((calm_markTile _ _ _ _).trans (calm_updGroup _ _ _ (by intro _; rfl))).still
  case tzero =>
    intro sh c free bound
    show execTzero x s = _
    refine issueTile_body c _ _ _ _ _ free ?_
      ((calm_markTile _ _ _ _).trans (calm_updGroup _ _ _ (by intro _; exact putEls_markDirty_traps _ _ _ _))).still
    dsimp only
    rw [bound]
  case seed =>
    intro sh c
    exact issue_body c _ _ _ _ rfl ((calm_seedKey _ _ _ _).trans (calm_seedStream _ _ _ _)).still
  case seedS =>
    intro sh c
    exact issue_body c _ _ _ _ rfl (calm_seedStream _ _ _ _).still
  case tepi =>
    intro b n sh row col c free bound low high inside
    exact execTepi_clear rfl c free bound low high inside
  case move =>
    intro sh v pair c bound pitch fence wins room
    exact ⟨fun sound => tileMove_launches c rfl bound pitch fence wins room (fun _ => sound) _ _,
      tileMove_launches c rfl bound pitch fence wins room (fun tld => by contradiction) _ _⟩

end Sys2Proof.Machine
end

section
/-! PROOFS. MMA, MMD and the row and column moves of tiles issue at their last signature (R296 to R304, R474 to R477). -/

namespace Sys2Proof.Machine

theorem calm_markTiles (s : State) (e : Gen) : Calm s (s.markTiles e) := calm_foldl _ _ (fun _ _ => calm_markTile _ _ _ _) _

/-- A signature that its check accepts and that completes a generation performs it, when the effect traps nothing. -/
theorem signAt_completes {s : State} {x : Iss} {h : Hdr} {sh : Shape} {cv : CvField} {within : Bool} {e : Gen} {o : GenOps}
    {body : Gen → Vals → State → State} {check : Iss → State → Option (Nat × Nat × Nat)} {go : GenRef → State → State}
    (c : SignClear s x h sh cv within) (i : Instr) (accepted : check x s = none)
    (issues : go ⟨x.r.g, cv, x.r.w⟩ (s.withSignature x i h cv) = (s.withSignature x i h cv).genPerformed e o body)
    (still : ∀ v t, Still t (body e v t)) :
    signAt i h cv sh within check go s = .next ((s.withSignature x i h cv).genPerformed e o body) := by
  have performs : Still s (go ⟨x.r.g, cv, x.r.w⟩ (s.withSignature x i h cv)) := by
    rw [issues]
    exact ((calm_withSignature s x i h cv).trans (calm_genAfter _ e o)).still.trans ((still _ _).trans (calm_genDone _ e o.lanes).still)
  rw [signAt_clear c i check go accepted performs, issues]

/-! ### MMA and MMD -/

/-- The effect of MMD on a pair of tiles: the product of what its descriptors name takes a slot. -/
def MmaOps.mmdEffect (x : MmaOps) (k : Nat) (t t' : Tile) (e : Gen) (u : State) : State :=
  match u.engineRead e.c (e.mmdAt x) 64 2 1 e.g.core e.g.via with
  | some (w, bs) => ((w.arrive e.key).markTiles e).launchMat k (e.mmdOp w x t t' (bs.map (·.1))) e.conv.place
  | none => u

theorem still_mmdEffect (x : MmaOps) (k : Nat) (t t' : Tile) (e : Gen) (u : State) : Still u (MmaOps.mmdEffect x k t t' e u) := by
  unfold MmaOps.mmdEffect
  split
  · rename_i read
    exact (still_engineRead read).trans ((still_arrive _ _).trans ((calm_markTiles _ _).still.trans (still_launchMat_at _ _ _ _)))
  · exact .refl u

section Product
variable {x : MmaOps} {u : State} {r : GenRef} {e : Gen} {t : Tile} (k : GenClear u r e { h := x.h, srcs := [] })
  (waits : u.memberWaits e = false) (slot : (u.slotOf e.g).isSome = true) (late : u.genTileLate e = false) (bound : e.g.tile x.tile.val = some t)
include k waits slot late bound

theorem mmaGen_clear (operands : e.uniformBad x.h (MmaOps.mmaUni x) = none)
    (legal : MmaOps.mmaCheck x e.g e.conv.signers.length (some (regsNat (e.uniform x.h (uniSrc 2 x.a 2))))
      (some (regsNat (e.uniform x.h (uniSrc 3 x.b 2)))) = none) :
    u.mmaGen x r = u.genPerformed e { h := x.h, srcs := [] } fun e _ u => (u.markTiles e).launchMat r.g (e.mmaOp u x t) e.conv.place := by
  rw [State.mmaGen, runGen_clear k _ _ (matGate_go operands legal waits slot late)]
  exact genPerformed_congr (by simp only [bound])

theorem mmdGen_clear {t' : Tile} (operands : e.uniformBad x.h (MmaOps.mmdUni x) = none)
    (legal : u.mmdCheck e.c x e.g e.conv.signers.length (some (regsNat (e.uniform x.h (uniSrc 2 x.a 2))))
      (some (regsNat (e.uniform x.h (uniSrc 3 x.b 2)))) = none)
    (reach : u.mmdReach e x = .go) (bound' : e.g.tile (x.tile.val + 1) = some t') :
    u.mmdGen x r = u.genPerformed e { h := x.h, srcs := [] } fun e _ u => MmaOps.mmdEffect x r.g t t' e u := by
  rw [State.mmdGen, runGen_clear k _ _ (by simp only [matGate_go operands legal waits slot late, reach])]
  refine genPerformed_congr ?_
  simp only [bound, bound', MmaOps.mmdEffect]
  cases (u.genAfter e { h := x.h, srcs := [] }).engineRead e.c (e.mmdAt x) 64 2 1 e.g.core e.g.via <;> rfl

end Product

/-! ### Rows and columns -/

/-- The elements that TWRR and TWRC write at index `idx`, in member order: each of the first n members gives one. -/
def TileWriteOps.els (x : TileWriteOps) (row : Bool) (n idx : Nat) (t : Tile) (e : Gen) (vals : Vals) : List (Nat × Nat × Nat × Bool) :=
  (e.conv.signers.take n).zipIdx.map fun m =>
    let rs := match vals.find? (fun v => v.1.w = m.1.w && v.1.pos = m.1.pos) with | some v => v.2.headD [] | none => []
    let y := if x.raw then regsNat rs else intoTile t.view x.mode (FSpec.fp32.decode (regsNat rs))
    let bad := regsBad rs || regsBad (e.uniform x.h (moveIndex x.a))
    if row then (idx, m.2, y, bad) else (m.2, idx, y, bad)

/-- What TRDR and TRDC do at index `idx`: each of the first n members that takes its element gets it. -/
def TileReadOps.effect (x : TileReadOps) (row : Bool) (n idx : Nat) (t : Tile) (e : Gen) (u : State) : State :=
  (e.conv.signers.take n).zipIdx.foldl (fun u m =>
    if e.takes m.1 then
      let y := if row then e.g.elOut t idx m.2 x.raw x.mode x.sat else e.g.elOut t m.2 idx x.raw x.mode x.sat
      u.genWrite e (TileReadOps.dst x) m.1 (regsOf (TileReadOps.dst x).n y.1 (y.2 || regsBad (e.uniform x.h (moveIndex x.a))))
    else u) (u.markTiles e)

theorem calm_readEffect (x : TileReadOps) (row : Bool) (n idx : Nat) (t : Tile) (e : Gen) (u : State) :
    Calm u (TileReadOps.effect x row n idx t e u) := by
  refine (calm_markTiles u e).trans (calm_foldl _ _ (fun u m => ?_) _)
  split
  · exact calm_genWrite _ _ _ _ _
  · exact .refl u

section Move
variable {s : State} {i : Iss} {ins : Instr} {op idx : Nat} {row : Bool} {e : Gen} {t : Tile}

theorem tileWrite_completes {x : TileWriteOps}
    (c : SignClear s i x.h { srcs := [moveIndex x.a, TileWriteOps.src x], execOnly := true, uni := some false } x.cv false)
    (accepted : moveSign i x.h x.a x.cv x.tile.val op row = none)
    (k : GenClear (s.withSignature i ins x.h x.cv) ⟨i.r.g, x.cv, i.r.w⟩ e
      { h := x.h, srcs := [TileWriteOps.src x], upTo := i.g.moveLength x.tile.val row })
    (bound : e.g.tile x.tile.val = some t)
    (gate : ∀ v, moveGate x.tile.val op row x.h x.a e v (s.withSignature i ins x.h x.cv) = .go)
    (hidx : regsNat (e.uniform x.h (moveIndex x.a)) % 64 = idx) :
    tileWrite ins x op row s = .next ((s.withSignature i ins x.h x.cv).genPerformed e
      { h := x.h, srcs := [TileWriteOps.src x], upTo := i.g.moveLength x.tile.val row } fun e vals u =>
        (u.markTiles e).updGroup i.r.g fun g =>
          (g.putEls t (TileWriteOps.els x row (i.g.moveLength x.tile.val row) idx t e vals)).markDirty x.tile.val) := by
  refine signAt_completes c ins accepted ?_ fun _ _ =>
    ((calm_markTiles _ _).trans (calm_updGroup _ _ _ (by intro _; exact putEls_markDirty_traps _ _ _ _))).still
  rw [State.tileWriteGen, moveLength_sig _ _ _ _ _ _ _ c.issues, runGen_clear k _ _ (gate _)]
  exact genPerformed_congr (by simp only [bound, hidx]; rfl)

theorem tileRead_completes {x : TileReadOps}
    (c : SignClear s i x.h { srcs := [moveIndex x.a], dst := some (TileReadOps.dst x), execOnly := true, uni := some false } x.cv false)
    (accepted : moveSign i x.h x.a x.cv x.tile.val op row = none)
    (k : GenClear (s.withSignature i ins x.h x.cv) ⟨i.r.g, x.cv, i.r.w⟩ e
      { h := x.h, srcs := [], dst := some (TileReadOps.dst x), upTo := i.g.moveLength x.tile.val row })
    (bound : e.g.tile x.tile.val = some t)
    (gate : ∀ v, moveGate x.tile.val op row x.h x.a e v (s.withSignature i ins x.h x.cv) = .go)
    (hidx : regsNat (e.uniform x.h (moveIndex x.a)) % 64 = idx) :
    tileRead ins x op row s = .next ((s.withSignature i ins x.h x.cv).genPerformed e
      { h := x.h, srcs := [], dst := some (TileReadOps.dst x), upTo := i.g.moveLength x.tile.val row } fun e _ u =>
        TileReadOps.effect x row (i.g.moveLength x.tile.val row) idx t e u) := by
  refine signAt_completes c ins accepted ?_ fun _ _ => (calm_readEffect _ _ _ _ _ _ _).still
  rw [State.tileReadGen, moveLength_sig _ _ _ _ _ _ _ c.issues, runGen_clear k _ _ (gate _)]
  exact genPerformed_congr (by simp only [bound, hidx]; rfl)

end Move

/-- Settles O16: at the last signature the gate of each lets it pass, and its effect is on the tiles that the generation's group binds. -/
theorem matrixCompletes : Obligations.MatrixCompletes := by
  refine ⟨fun x s i e t => ?mma, fun x s i e t t' => ?mmd, fun x row s i e t => ?write, fun x row s i e t => ?read⟩
  case mma =>
    intro sh o u pair word c accepted k operands legal waits slot late bound
    show execMma x s = _
    rw [execMma, withIssue_of c.issues]
    exact signAt_completes c _ accepted (mmaGen_clear k waits slot late bound operands legal) fun _ _ =>
      (calm_markTiles _ _).still.trans (still_launchMat_at _ _ _ _)
  case mmd =>
    intro sh o u pair word c accepted k operands legal waits slot late reach bound bound'
    show execMmd x s = _
    rw [execMmd, withIssue_of c.issues]
    exact signAt_completes c _ accepted (mmdGen_clear k waits slot late bound operands legal reach bound') fun _ _ =>
      still_mmdEffect _ _ _ _ _ _
  case write =>
    intro idx instr op n o c accepted k u bound before late inside
    have completes := tileWrite_completes c accepted k bound (fun _ => moveGate_go bound before late inside) rfl
    cases row <;> exact completes
  case read =>
    intro idx instr op n o c accepted k u bound before late inside
    have completes := tileRead_completes c accepted k bound (fun _ => moveGate_go bound before late inside) rfl
    cases row <;> exact completes

end Sys2Proof.Machine
end

section
/-! PROOFS. ADAMW on operands that carry no poison is one optimiser step for each thread (R308, R309). -/

namespace Sys2Proof.Machine

/-- Settles O17: no triple is poisoned, so nothing is reported, and each thread writes the words of its step. -/
theorem adamwCompletes : Obligations.AdamwCompletes := by
  intro x s i c clean
  have unhurt : (s.sees i x.h (AdamwOps.shape x)).vals.filter (fun m => m.2.any regsBad) = [] :=
    List.filter_eq_nil_iff.mpr fun m hm => by simp [clean m hm]
  refine issue_body c _ _ _ _ ?_ (calm_foldl _ _ (fun _ _ => calm_writeDst _ _ _ _ _ _ _ _) _).still
  dsimp only
  rw [unhurt]
  refine Prod.ext (foldl_mem_congr (fun u m hm => ?_) _) rfl
  rw [clean m hm]
  rfl

end Sys2Proof.Machine
end

section
/-! PROOFS. The kiln instructions complete at their issue (R310 to R318, R484, R485). -/

namespace Sys2Proof.Machine

theorem still_kilnRead {s t : State} {c : Ctx} {at_ : KilnAt} {va n : Nat} {bs : List (Byte × Bool)} (h : s.kilnRead c at_ va n = some (t, bs)) :
    Still s t := still_engineRead h

theorem still_enqueueKiln (s : State) (i : Iss) (instr : Instr) (slot : Option Nat) (bind : Option KilnBind) (ts : List Nat)
    (args : List (Option Nat × W64 × W64)) : Still s (s.enqueueKiln i instr slot bind ts args) := ⟨rfl, rfl⟩

/-- The binding of a group is replaced or removed. -/
theorem still_bindKiln (s : State) (k : Nat) (b : Option KilnBind) : Still s (s.updGroup k fun g => { g with kiln := b }) :=
  (calm_updGroup _ _ _ (by intro _; rfl)).still

/-- No key that the positions give lies outside the record. -/
theorem firstBad_eq_none {b : KilnBind} {l : List (Nat × List (List Reg))} {key : Nat × List (List Reg) → Nat}
    (h : ∀ m ∈ l, b.keyBad (key m) = false) : b.firstBad (l.map key) = none := by
  simpa [KilnBind.firstBad] using fun t v hm => h (t, v) hm

/-! ### KSTEP -/

/-- The operands of KSTEP and KSIG. -/
def kilnShape (x : OpAB) : Shape := { srcs := [uniSrc 2 x.a 2, uniSrc 3 x.b 1], uni := some true, suppress := true }

/-- The binding that KSTEP makes of a record at an address, from its bytes. -/
def recordBind (va step : Nat) (bs : List (Byte × Bool)) : KilnBind :=
  { record := BitVec.ofNat 64 va, step := BitVec.ofNat 32 step, fields := BitVec.ofNat 448 (leNat (bs.map (·.1))) }

/-- The group is bound to its record, and the unit's part of KSTEP is queued. -/
def State.bindRecord (s : State) (x : OpAB) (i : Iss) (b : KilnBind) (ts : List Nat) : State :=
  (s.updGroup i.r.g fun g => { g with kiln := some b }).enqueueKiln i (.kstep x) none (some b) ts []

theorem still_bindRecord (s : State) (x : OpAB) (i : Iss) (b : KilnBind) (ts : List Nat) : Still s (s.bindRecord x i b ts) :=
  (still_bindKiln _ _ _).trans (still_enqueueKiln _ _ _ _ _ _ _)

/-- An aligned record that can be read and written, and that nothing refuses, binds the group. -/
theorem execKstep_binds {x : OpAB} {s : State} {i : Iss} {s1 u : State} {bs : List (Byte × Bool)} {e : TlbEntry} {v : List (List Reg)} {va : Nat}
    (c : Clear s i x.h (kilnShape x)) (hv : ((s.sees i x.h (kilnShape x)).vals.headD (0, [])).2 = v) (hva : regsNat (v.getD 0 []) = va)
    (fence : s.fenceWaits i x.h .sc = false) (aligned : va % 256 = 0) (range : va < 2 ^ 55)
    (read : (s.afterRead i x.h (kilnShape x)).kilnRead i.c i.g.kilnAt va 256 = some (s1, bs))
    (legal : recordRefused (bs.map (·.1)) (bs.any (·.2)) = none) (tr : s1.translate i.c va i.g.viaEngine = .ok e)
    (writable : attrW e.attr = true)
    (hu : s1.bindRecord x i (recordBind va (regsNat (v.getD 1 [])) bs) (s.sees i x.h (kilnShape x)).ts = u)
    (arrives : s.arrives (PathRef.waitKey i.r i.p) 2 u) :
    execKstep x s = .next (s.performed i x.h (kilnShape x) 1 fun _ _ _ => (u.arrive (PathRef.waitKey i.r i.p), .next [])) := by
  have placed : (decide (va % 256 ≠ 0) || decide (2 ^ 55 ≤ va)) = false := by simpa using ⟨aligned, range⟩
  subst hu
  refine issue_body c _ _ _ _ ?_ ((still_kilnRead read).trans ((still_bindRecord _ _ _ _ _).trans (still_arrive _ _)))
  dsimp only
  rw [hv, hva]
  simp only [fence, placed, read, tr, writable, legal, Bool.not_true, Bool.false_eq_true, if_false]
  exact reached_arrives (r := (_, .next [])) arrives

/-! ### KMAP and KMAP.SRC -/

/-- A read that answers its own state with a value has changed nothing. -/
theorem still_of_ok {ε α : Type} {s t : State} {q r : α} (h : (.ok (s, q) : Except ε (State × α)) = .ok (t, r)) : Still s t := by
  obtain ⟨rfl, -⟩ := Prod.ext_iff.mp (Except.ok.inj h)
  exact .refl _

theorem still_mapBit {s t : State} {c : Ctx} {at_ : KilnAt} {k : KilnBind} {step b n : Nat} {v : Bool × Bool}
    (h : s.mapBit c at_ k step b n = some (t, v)) : Still s t := by
  unfold State.mapBit at h
  obtain ⟨⟨u, bs⟩, read, made⟩ := Option.map_eq_some_iff.mp h
  obtain ⟨rfl, -⟩ := Prod.ext_iff.mp made
  exact still_kilnRead read

/-- A search of the maps only reads. -/
theorem still_mapSearch {c : Ctx} {at_ : KilnAt} {k : KilnBind} {b n left : Nat} {s t : State} {step : Nat} {bad : Bool} {r : Option Nat × Bool}
    (h : s.mapSearch c at_ k b n left step bad = .ok (t, r)) : Still s t := by
  induction left generalizing s step bad with
  | zero => exact still_of_ok h
  | succ left ih =>
    unfold State.mapSearch at h
    split at h
    · exact still_of_ok h
    · split at h
      · contradiction
      · rename_i read
        refine (still_mapBit read).trans ?_
        split at h
        · exact still_of_ok h
        · split at h
          · exact still_of_ok h
          · exact ih h

/-- Writing D of one position of KMAP or KMAP.SRC traps nothing, whether its map could be read or not. -/
theorem still_kmapOne {s : State} {r : Except Nat (State × Option Nat × Bool)} (reads : ∀ t q, r = .ok (t, q) → Still s t) (y : Iss)
    (d : Operand) (words key t : Nat) (preds : List Nat) : Still s (s.kmapOne y d words key t preds r) := by
  unfold State.kmapOne
  dsimp only
  split
  · exact (reads _ _ rfl).trans (calm_writeDst _ _ _ _ _ _ _ _).still
  · exact (reads _ _ rfl).trans ((calm_writeDst _ _ _ _ _ _ _ _).still.trans (still_tick _))
  · exact ((calm_writeDst _ _ _ _ _ _ _ _).still.trans (still_tick _)).trans (still_report _ _)

/-- What KMAP or KMAP.SRC gets from the maps for a step and a key: the words of D, or the address that could not be read. -/
abbrev MapRead := Ctx → KilnAt → KilnBind → Nat → Nat → State → Except Nat (State × Option Nat × Bool)

/-- Steps that the record keeps, with nothing before them in the unit: every position gets what its map holds. -/
theorem kmapRun_maps {x : OpDAB} {words op : Nat} {s : State} {i : Iss} {b : KilnBind} {s1 u : State} {bs : List (Byte × Bool)} {f : MapRead}
    (c : Clear s i x.h (kmapShape x words)) (fence : s.fenceWaits i x.h .sc = false) (idle : s.kilnBusy i = false) (bound : i.g.kiln = some b)
    (read : (s.afterRead i x.h (kmapShape x words)).kilnRead i.c i.g.kilnAt b.stepVa 4 = some (s1, bs))
    (inside : ∀ m ∈ (s.sees i x.h (kmapShape x words)).vals, b.keyBad (regsNat (m.2.getD 1 [])) = false ∧
      regsNat (m.2.getD 0 []) ≤ leNat (bs.map (·.1)) ∧ leNat (bs.map (·.1)) < regsNat (m.2.getD 0 []) + b.nmap)
    (hu : u = (s.sees i x.h (kmapShape x words)).vals.foldl (fun t m => t.kmapOne i x.d words (regsNat (m.2.getD 1 [])) m.1
      (if (s.sees i x.h (kmapShape x words)).uni then (s.sees i x.h (kmapShape x words)).ts else [m.1])
      (f i.c i.g.kilnAt b (regsNat (m.2.getD 0 [])) (regsNat (m.2.getD 1 [])) t)) s1)
    (reads : ∀ step key t t' q, f i.c i.g.kilnAt b step key t = .ok (t', q) → Still t t')
    (arrives : s.arrives (PathRef.waitKey i.r i.p) 2 u) (ins : Instr) :
    kmapRun ins x words op s f = .next (s.performed i x.h (kmapShape x words) 1 fun _ _ _ => (u.arrive (PathRef.waitKey i.r i.p), .next [])) := by
  have kept : (s.sees i x.h (kmapShape x words)).vals.find? (fun m => decide (leNat (bs.map (·.1)) < regsNat (m.2.getD 0 [])) ||
      decide (regsNat (m.2.getD 0 []) + b.nmap ≤ leNat (bs.map (·.1)))) = none :=
    List.find?_eq_none.mpr fun m hm => by simpa using (inside m hm).2
  refine issue_body c _ _ _ _ ?_ ?_
  · simp only [bound, firstBad_eq_none fun m hm => (inside m hm).1, fence, idle, read, kept, Bool.or_self, Bool.false_eq_true, if_false]
    rw [← hu]
    exact reached_arrives (r := (u, .next [])) arrives
  · rw [hu]
    exact (still_kilnRead read).trans
      ((still_foldl _ _ (fun _ _ => still_kmapOne (reads _ _ _) _ _ _ _ _ _) _).trans (still_arrive _ _))

/-- The word of a block's map whose number the key gives. -/
def mapWord : MapRead := fun c at_ b step key s =>
  let va := b.mapVa step (keyBlock key) 0 + 8 * (key % 2 ^ 16)
  match s.kilnRead c at_ va 8 with
  | some (s, bs) => .ok (s, some (leNat (bs.map (·.1))), bs.any (·.2))
  | none => .error va

theorem execKmap_eq (x : OpDAB) (s : State) : execKmap x s = kmapRun (.kmap x) x 2 0xBC s mapWord := by
  have low : ∀ key, bits key 15 0 = key % 2 ^ 16 := fun key => by simp [Laws.Encoding.bits_eq]
  simp only [execKmap, low]
  rfl

theorem still_mapWord {c : Ctx} {at_ : KilnAt} {b : KilnBind} {step key : Nat} {t t' : State} {q : Option Nat × Bool}
    (h : mapWord c at_ b step key t = .ok (t', q)) : Still t t' := by
  unfold mapWord at h
  dsimp only at h
  split at h
  · rename_i read
    exact (still_kilnRead read).trans (still_of_ok h)
  · contradiction

/-- Settles O18: the conditions lead each instruction past its refusals; what it reads, writes and queues traps nothing. -/
theorem kilnCompletes : Obligations.KilnCompletes := by
  refine ⟨fun x s i s1 bs e => ?kstep, fun x s i b slot => ?ksig, fun x s i b => ?ktest, fun x s i b => ?kreuse,
    fun x s i b s1 bs words instr f => ?kmap, fun x s i => ?kend⟩
  case kstep =>
    intro sh v va key c _ fence aligned range read legal tr writable bind u arrives
    exact execKstep_binds c rfl rfl fence aligned range read legal tr writable rfl arrives
  case ksig =>
    intro sh v key c _ fence bound inside room
    have legal : b.keyBad (regsNat (((s.sees i x.h sh).vals.headD (0, [])).2.getD 1 [])) = false := inside
    refine issue_body c _ _ _ _ ?_ (still_enqueueKiln _ _ _ _ _ _ _)
    simp only [bound, legal, fence, room, Bool.false_eq_true, if_false]
    rfl
  case ktest =>
    intro sh c _ fence bound keys
    refine issue_body c _ _ _ _ ?_ (still_enqueueKiln _ _ _ _ _ _ _)
    simp only [bound, firstBad_eq_none keys, fence, Bool.false_eq_true, if_false]
  case kreuse =>
    intro sh c bound keys
    refine issue_body c _ _ _ _ ?_ (calm_foldl _ _ (fun _ _ => calm_writeDst _ _ _ _ _ _ _ _) _).still
    simp only [bound, firstBad_eq_none keys]
  case kmap =>
    intro sh step key top form c _ fence idle bound read inside k u at_ arrives
    rcases form with ⟨rfl, rfl, rfl⟩ | ⟨rfl, rfl, rfl⟩
    · show execKmap x s = _
      rw [execKmap_eq]
      exact kmapRun_maps c fence idle bound read inside rfl (fun _ _ _ _ _ => still_mapWord) arrives _
    · show execKmapSrc x s = _
      rw [execKmapSrc]
      exact kmapRun_maps c fence idle bound read inside rfl (fun _ _ _ _ _ => still_mapSearch) arrives _
  case kend =>
    intro sh c _ fence
    refine issue_body c _ _ _ _ ?_ ((still_bindKiln _ _ _).trans (still_enqueueKiln _ _ _ _ _ _ _))
    simp only [fence, Bool.false_eq_true, if_false]

end Sys2Proof.Machine
end

section
/-! PROOFS. Taking an exception: the handler's frame, and the errors that find no handler (R334, R423, R424, R447). -/

namespace Sys2Proof.Machine

/-! ### Threads that enter their handler -/

theorem maskList_nodup (m : W64) : (maskList m).Nodup := List.nodup_range.filter _

theorem lowWord_eq (x : W64) : lowWord x = BitVec.ofNat 32 x.toNat := by
  apply BitVec.eq_of_toNat_eq
  simp [lowWord]

theorem highWord_eq (x : W64) : highWord x = BitVec.ofNat 32 (x.toNat / 2 ^ 32) := by
  apply BitVec.eq_of_toNat_eq
  simp [highWord, Nat.shiftRight_eq_div_pow]

/-- The frame is the last four of the thread's registers (R423). -/
theorem reg_enter (th : Thread) (n : Nat) (ret : W64) (cause : Nat) (fault : Bool) (k : Nat) :
    (th.enter n ret cause fault).reg k =
      if k = n - 1 then ⟨BitVec.ofNat 32 (th.super.toNat + 2 * fault.toNat), false⟩
      else if k = n - 2 then ⟨BitVec.ofNat 32 cause, false⟩
      else if k = n - 3 then ⟨BitVec.ofNat 32 (ret.toNat / 2 ^ 32), false⟩
      else if k = n - 4 then ⟨BitVec.ofNat 32 ret.toNat, false⟩
      else th.reg k := by
  have frame : (th.enter n ret cause fault).reg k =
    ((((th.setReg (n - 4) ⟨lowWord ret, false⟩).setReg (n - 3) ⟨highWord ret, false⟩).setReg (n - 2) ⟨BitVec.ofNat 32 cause, false⟩).setReg
      (n - 1) ⟨BitVec.ofNat 32 (th.super.toNat + 2 * fault.toNat), false⟩).reg k := rfl
  rw [frame, lowWord_eq, highWord_eq]
  simp only [reg_setReg]

theorem threads_foldl_updThread (f : Thread → Thread) {l : List Nat} (hl : l.Nodup) (w : Warp) (u : Nat) :
    (l.foldl (fun w t => w.updThread t f) w).threads[u]? = if u ∈ l then (w.threads[u]?).map f else w.threads[u]? := by
  induction l generalizing w with
  | nil => simp
  | cons t l ih =>
    obtain ⟨notIn, hl⟩ := List.nodup_cons.mp hl
    rw [List.foldl_cons, ih hl, Warp.updThread, List.getElem?_modify]
    by_cases ht : t = u
    · subst ht
      simp [notIn]
    · simp [ht, Ne.symm ht]

theorem paths_foldl_updThread (f : Thread → Thread) (l : List Nat) (w : Warp) :
    (l.foldl (fun w t => w.updThread t f) w).paths = w.paths :=
  List.foldlRecOn l _ (motive := fun x : Warp => x.paths = w.paths) rfl fun _ hx _ _ => hx

/-- The threads `m` of path `p` change by `f` and leave it for the path `new`. -/
def Warp.enters (w : Warp) (p : Nat) (m : W64) (f : Thread → Thread) (new : Path) : Warp :=
  { (maskList m).foldl (fun w t => w.updThread t f) w with paths := w.paths.modify p (fun q => q.without m) ++ [new] }

theorem threads_enters (w : Warp) (p : Nat) (m : W64) (f : Thread → Thread) (new : Path) (u : Nat) :
    (w.enters p m f new).threads[u]? = if u ∈ maskList m then (w.threads[u]?).map f else w.threads[u]? :=
  threads_foldl_updThread f (maskList_nodup m) w u

/-- The path of a handler (R423); `skip` keeps the region open for it (R430 kind 10). -/
def Path.handler (p : Path) (vec m : W64) (skip : Bool) : Path :=
  let new := Path.start p.access (vec &&& 0x007FFFFFFFFFFFF8) m
  if skip then { new with skn := p.skn, skmask := p.skmask &&& m } else new

theorem handler_spec (p : Path) (vec m : W64) (skip : Bool) :
    (p.handler vec m skip).pc = (vec &&& 0x007FFFFFFFFFFFF8) ∧ (p.handler vec m skip).tmask = m ∧ (p.handler vec m skip).st = .ready ∧
      (p.handler vec m skip).access = p.access := by
  cases skip <;> exact ⟨rfl, rfl, rfl, rfl⟩

section Entry
variable {s : State} {r : PathRef} {m ret : W64} {cause : Nat} {fault skip : Bool} {g : Group} {p : Path} {c : Ctx}

theorem enter_of_outside (hg : s.group? r.g = some g) (hp : s.path? r = some p) (hc : s.ctx? g.ctx = some c)
    (outside : s.nested r.g r.w m = false) : s.enter r m ret cause fault skip =
      s.updWarp r.g r.w fun w => w.enters r.p m (fun th => th.enter g.nregs ret cause fault) (p.handler c.trapVec m skip) := by
  simp only [State.enter, hg, hp, hc, outside, Bool.false_eq_true, if_false]
  congr 1
  funext w
  simp only [Warp.enters, ← paths_foldl_updThread (fun th => th.enter g.nregs ret cause fault) (maskList m) w]
  rfl

theorem thread_enters (f : Thread → Thread) (new : Path) (g' w' u : Nat) :
    (s.updWarp r.g r.w fun w => w.enters r.p m f new).thread? g' w' u =
      if g' = r.g ∧ w' = r.w ∧ u ∈ maskList m then (s.thread? g' w' u).map f else s.thread? g' w' u := by
  simp only [State.thread?, warp_updWarp]
  by_cases here : g' = r.g ∧ w' = r.w
  · cases s.warp? g' w' <;> simp [here, threads_enters]
  · have : ¬(g' = r.g ∧ w' = r.w ∧ u ∈ maskList m) := fun e => here ⟨e.1, e.2.1⟩
    simp [here, this]

end Entry

theorem four_le_nregs (g : Group) : 4 ≤ g.nregs := by unfold Group.nregs; omega

/-- Settles O54: the frame is four registers of each thread that enters, above all others, and only the warp of the path changes. -/
theorem trapEntry : Obligations.TrapEntry := by
  intro s r m ret cause fault skip g p c hg hp hc outside t n
  have ht : t = _ := enter_of_outside hg hp hc outside
  have hn : 4 ≤ n := four_le_nregs g
  have entered : ∀ g' w' u, t.thread? g' w' u = if g' = r.g ∧ w' = r.w ∧ u ∈ maskList m
      then (s.thread? g' w' u).map fun th => th.enter n ret cause fault else s.thread? g' w' u := fun g' w' u => by
    rw [ht]; exact thread_enters _ _ g' w' u
  obtain ⟨w, hw, hwp⟩ := Option.bind_eq_some_iff.mp hp
  refine ⟨fun u hu l hl => ?_, fun u k hk => ?_, fun g' w' u other => ?_, ?_, by rw [ht]; rfl, by rw [ht]; rfl⟩
  · obtain ⟨th, hth, rfl⟩ := Option.map_eq_some_iff.mp hl
    have here : t.thread? r.g r.w u = some (th.enter n ret cause fault) := by rw [entered, if_pos ⟨rfl, rfl, hu⟩, hth, Option.map_some]
    have read : ∀ k, t.vreg r.g r.w u k = some ((th.enter n ret cause fault).reg k) := fun k => by rw [State.vreg, here]; rfl
    refine ⟨?_, ?_, ?_, ?_, by rw [State.level, here]; rfl⟩
    · rw [read, reg_enter th n, if_neg (by omega), if_neg (by omega), if_neg (by omega), if_pos rfl]
    · rw [read, reg_enter th n, if_neg (by omega), if_neg (by omega), if_pos rfl]
    · rw [read, reg_enter th n, if_neg (by omega), if_pos rfl]
    · rw [read, reg_enter th n, if_pos rfl]
  · rw [State.vreg, entered]
    refine map_ite_map_of_keeps (q := fun th : Thread => th.reg k) fun _ th => ?_
    rw [reg_enter th n, if_neg (by omega), if_neg (by omega), if_neg (by omega), if_neg (by omega)]
  · rw [entered]
    exact if_neg fun ⟨sameGroup, sameWarp, sameThread⟩ => other.elim (· sameGroup) (Or.elim · (· sameWarp) (· sameThread))
  · have paths : r.p < w.paths.length := (List.getElem?_eq_some_iff.mp hwp).1
    refine ⟨w.enters r.p m (fun th => th.enter g.nregs ret cause fault) (p.handler c.trapVec m skip), ?_,
      ⟨p.handler c.trapVec m skip, ?_, handler_spec ..⟩, ⟨p.without m, ?_, rfl⟩⟩
    · rw [ht, warp_updWarp, if_pos ⟨rfl, rfl⟩, hw]; rfl
    · exact List.mem_append_right _ (List.mem_singleton_self _)
    · refine List.mem_append_left _ (List.mem_iff_getElem?.mpr ⟨r.p, ?_⟩)
      rw [List.getElem?_modify_eq, hwp]; rfl

/-! ### Errors that find no handler -/

theorem faultAt_of_noHandler {s : State} {r : PathRef} {m ret : W64} {cls domain addr detail : Nat} {skip : Bool} {g : Group} {c : Ctx}
    (some_ : m ≠ 0) (hg : s.group? r.g = some g) (hc : s.ctx? g.ctx = some c) (noHandler : c.trapVec = 0) :
    s.faultAt r m ret cls domain addr detail skip =
      s.stopGang (s.gangOf g) { s.pathErr r m cls domain addr detail with domain := 2 } := by
  simp only [State.faultAt, if_neg some_, hg, hc, noHandler, if_true]

theorem stopGang_first {s : State} {keys : List Nat} {e : ErrRec} (fresh : s.folds e.ctx = none)
    (new : ∀ x ∈ s.stops, ∀ k ∈ x.groups, k ∉ keys) : s.stopGang keys e = { s with
      stops := s.stops ++ [{ groups := keys, err := e }]
      groups := mapIf (fun g => g.key ∈ keys) (fun g => { g with stop := true }) s.groups } := by
  have none_ : s.stops.any (fun x => x.groups.any (fun k => k ∈ keys)) = false := by
    simpa only [List.any_eq_false, decide_eq_true_eq, Bool.not_eq_true] using new
  simp only [State.stopGang, fresh, none_, Bool.false_eq_true, if_false]

/-- What is read of threads does not change with groups that keep their keys and their warps. -/
theorem thread_of_sameWarps {s t : State} (same : t.groups.map (fun g => (g.key, g.warps)) = s.groups.map fun g => (g.key, g.warps))
    (g w u : Nat) : t.thread? g w u = s.thread? g w u := by
  have find : ∀ l : List Group, (l.find? fun q => decide (q.key = g)).bind (fun q => q.warps[w]?) =
      ((l.map fun q => (q.key, q.warps)).find? fun q => decide (q.1 = g)).bind fun q => q.2[w]? := fun l => by
    rw [List.find?_map, Option.bind_map]; rfl
  have warp : t.warp? g w = s.warp? g w := by
    show (t.groups.find? _).bind _ = (s.groups.find? _).bind _
    rw [find, find, same]
  rw [State.thread?, warp, State.thread?]

/-- Settles O55: without a handler the gang stops at once, and a gang that no record holds yet gets one of DOMAIN 2. -/
theorem errorWithoutHandlerStopsGang : Obligations.ErrorWithoutHandlerStopsGang := by
  intro s r m ret cls domain addr detail skip g c hm hg hc noHandler e
  have stopped := faultAt_of_noHandler (ret := ret) (cls := cls) (domain := domain) (addr := addr) (detail := detail) (skip := skip)
    hm hg hc noHandler
  refine ⟨stopped, fun fresh new => ?_⟩
  dsimp only
  rw [stopped, stopGang_first fresh new]
  refine ⟨rfl, fun q hq hkey => ?_, rfl, fun g w u n => ?_⟩
  · obtain ⟨q, _, rfl⟩ := List.mem_map.mp hq
    split
    case isTrue => rfl
    case isFalse other => rw [if_neg other] at hkey; exact absurd (decide_eq_true hkey) other
  · rw [State.vreg, thread_of_sameWarps (mapIf_map _ (fun q : Group => { q with stop := true }) (fun q => (q.key, q.warps)) (fun _ => rfl) _)]
    rfl

/-! ### Nested entries -/

section Groups
variable (s : State)

@[simp] theorem groups_served (x cls : Nat) (turned : Bool) : (s.served x cls turned).groups = s.groups := by
  unfold State.served
  split <;> rfl

@[simp] theorem groups_spark (src tag : Nat) : (s.spark src tag).1.groups = s.groups := by
  unfold State.spark
  dsimp only
  split <;> rfl

/-- A fold over values that hold a state, which `st` reads. -/
theorem groups_foldl {α β : Type} (st : β → State) (l : List α) {f : β → α → β} (hf : ∀ b a, (st (f b a)).groups = (st b).groups) (b : β) :
    (st (l.foldl f b)).groups = (st b).groups :=
  List.foldlRecOn l f (motive := fun x => (st x).groups = (st b).groups) rfl fun x hx a _ => (hf x a).trans hx

@[simp] theorem groups_holdRange (c : Ctx) (va n : Nat) (via : Option TlbPlace) : (s.holdRange c va n via).groups = s.groups :=
  groups_foldl id _ (fun t p => by dsimp only [id]; split <;> rfl) s

@[simp] theorem groups_watch (r w : Bool) (pa n cls agent : Nat) : (s.watch r w pa n cls agent).1.groups = s.groups := by
  refine groups_foldl Prod.fst s.ctxs (fun b c => groups_foldl Prod.fst _ (fun b w => ?_) b) (s, none)
  dsimp only
  split
  · split <;> simp
  · rfl

/-- An engine's counter is one of memory (R459). -/
theorem engineCtr_phys {c : Ctx} {va : Nat} {via : Option TlbPlace} {l : CtrLoc} (h : s.engineCtr c va via = .ok l) : ∃ pa, l = .phys pa := by
  unfold State.engineCtr at h
  split at h
  · cases h
  · split at h <;> cases h
    exact ⟨_, rfl⟩

theorem groups_ctrAdd (pa v : Nat) : (s.ctrAdd (.phys pa) v).1.groups = s.groups := by
  unfold State.ctrAdd
  dsimp only
  split <;> rfl

@[simp] theorem groups_deviceAdd (ctx va v acls agent : Nat) (via : Option TlbPlace) :
    (s.deviceAdd ctx va v acls agent via).1.groups = s.groups := by
  unfold State.deviceAdd
  split
  · rfl
  split
  · rfl
  · rename_i l hl
    obtain ⟨pa, rfl⟩ := engineCtr_phys s hl
    split
    · rfl
    · dsimp only
      split <;> simp [groups_ctrAdd]

@[simp] theorem groups_writePieces (ps : List (Nat × Nat)) (bs : List Byte) (bad : Bool) : (s.writePieces ps bs bad).groups = s.groups := by
  induction ps generalizing s bs with
  | nil => rfl
  | cons p ps ih => exact ih _ _

@[simp] theorem groups_deviceStore (c : Ctx) (va : Nat) (bs : List Byte) (k : Option W64) (raise : Bool) :
    (s.deviceStore c va bs k raise).1.groups = s.groups := by
  unfold State.deviceStore
  cases s.range? c plainW none (piecesOf va bs.length) <;> cases k <;> simp [apply_ite State.groups]

@[simp] theorem groups_deviceWrite (c : Ctx) (va : Nat) (bs : List Byte) (k : Option W64) (raise : Bool) :
    (s.deviceWrite c va bs k raise).1.groups = s.groups := by
  unfold State.deviceWrite
  dsimp only
  split
  · rfl
  · exact groups_deviceStore ..

@[simp] theorem groups_putRecord (e : ErrRec) : (s.putRecord e).1.groups = s.groups := by
  unfold State.putRecord
  dsimp only
  split
  · simp
  split
  · simp
  · dsimp only
    split <;> simp

/-- Writing a record changes no group. -/
@[simp] theorem groups_emit (e : ErrRec) : (s.emit e).1.groups = s.groups := by
  unfold State.emit
  dsimp only
  split <;> simp

theorem haltCtx_ctxs (ctx : Nat) (run : Running) :
    (s.haltCtx ctx run).ctxs = mapIf (fun c => c.num = ctx) (fun c => { c with run := run }) s.ctxs := by
  have tasks : ∀ l : List Kindle, (l.foldl (fun s k => s.updTask k.cluster k.index fun t => { t with state := 1 }) s).ctxs = s.ctxs := fun l =>
    List.foldlRecOn l _ (motive := fun x : State => x.ctxs = s.ctxs) rfl fun _ hx _ _ => hx
  simp only [State.haltCtx, State.updCtx, tasks]

@[simp] theorem groups_haltCtx (ctx : Nat) (run : Running) : (s.haltCtx ctx run).groups = s.groups :=
  groups_foldl id _ (f := fun (s : State) (k : Kindle) => s.updTask k.cluster k.index fun t => { t with state := 1 }) (fun _ _ => rfl) s

end Groups

section Nested
variable {s : State} {ctx : Nat} {c : Ctx}

theorem folds_eq_none (free : s.dev.contained = false) (hc : s.ctx? ctx = some c) (runs : c.run ≠ .contained) : s.folds ctx = none := by
  simp only [State.folds, free, hc, if_neg runs, Bool.false_eq_true, if_false]

theorem containCtx_first (fresh : s.folds ctx = none) (e : ErrRec) :
    s.containCtx ctx e = ((s.haltCtx ctx .contained).emit { e with domain := 4 }).1.updCtx ctx fun c => { c with
      record := ((s.haltCtx ctx .contained).emit { e with domain := 4 }).2
      ovf := 0 } := by
  simp only [State.containCtx, fresh]

theorem containCtx_contains (fresh : s.folds ctx = none) (hc : s.ctx? ctx = some c) (e : ErrRec) :
    ∃ d, (s.containCtx ctx e).ctx? ctx = some d ∧ d.run = .contained := by
  have halted : (s.haltCtx ctx .contained).ctx? ctx = some { c with run := .contained } := by
    rw [State.ctx?, haltCtx_ctxs, find_mapIf Ctx.num ctx ctx (fun c => { c with run := .contained }) (fun _ => rfl), if_pos rfl]
    exact congrArg _ hc
  obtain ⟨d, hd, run⟩ := find_stands ctx _ _ (still_emit (s.haltCtx ctx .contained) { e with domain := 4 }).ctxs _ halted
  have stands : ((s.haltCtx ctx .contained).emit { e with domain := 4 }).1.ctx? ctx = some d := hd
  rw [containCtx_first fresh, State.ctx?, State.updCtx, find_mapIf Ctx.num ctx ctx (fun c => { c with
    record := ((s.haltCtx ctx .contained).emit { e with domain := 4 }).2
    ovf := 0 }) (fun _ => rfl), if_pos rfl]
  exact ⟨_, congrArg _ stands, run⟩

theorem groups_containCtx (fresh : s.folds ctx = none) (e : ErrRec) : (s.containCtx ctx e).groups = s.groups := by
  simp [containCtx_first fresh]

theorem enter_of_nested {r : PathRef} {m ret : W64} {cause : Nat} {fault skip : Bool} {g : Group} {p : Path} (hg : s.group? r.g = some g)
    (hp : s.path? r = some p) (inside : s.nested r.g r.w m = true) : ∃ e, s.enter r m ret cause fault skip = s.containCtx g.ctx e := by
  simp only [State.enter, hg, hp, inside, if_true]
  exact ⟨_, rfl⟩

end Nested

/-- Settles O56: the entry contains the context, and containing one writes a record and no register. -/
theorem nestedTrapContains : Obligations.NestedTrapContains := by
  intro s r m ret cause fault skip g p c hg hp hc inside free runs
  obtain ⟨e, he⟩ := enter_of_nested (ret := ret) (cause := cause) (fault := fault) (skip := skip) hg hp inside
  have fresh : s.folds g.ctx = none := folds_eq_none free hc runs
  have thread : ∀ g' w u, (s.containCtx g.ctx e).thread? g' w u = s.thread? g' w u := fun g' w u =>
    thread_of_sameWarps (by rw [groups_containCtx fresh]) g' w u
  dsimp only
  rw [he]
  exact ⟨containCtx_contains fresh hc e, fun g w u n => by rw [State.vreg, thread]; rfl, fun g w u => by rw [State.level, thread]; rfl⟩

end Sys2Proof.Machine
end

section
/-! PROOFS. TRAP, BKPT and ERET (R334, R335, R447). -/

namespace Sys2Proof.Machine

/-! ### Threads that trap -/

/-- Threads none of which is in a handler enter it one by one. -/
theorem trapThreads_of_outside {s : State} {i : Iss} {l : List (Nat × Nat)} (outside : s.nested i.r.g i.r.w (maskOf (l.map (·.1))) = false) :
    s.trapThreads i l = l.foldl (fun s x => s.enter i.r (maskOf [x.1]) (i.p.pc + BitVec.ofNat 64 i.size) x.2 false false) s := by
  simp only [State.trapThreads, outside, Bool.false_eq_true, if_false]
  rfl

section Traps
variable {s : State} {i : Iss}

theorem execTrap_clear {x : OpA} (c : Clear s i x.h { srcs := [srcA x.a 1], uni := some false, flat := true, execOnly := true })
    (quiet : s.outstanding i = false)
    (outside : (s.afterRead i x.h { srcs := [srcA x.a 1], uni := some false, flat := true, execOnly := true }).nested i.r.g i.r.w
      (maskOf ((s.sees i x.h { srcs := [srcA x.a 1], uni := some false, flat := true, execOnly := true }).vals.map (·.1))) = false) :
    execTrap x s = .next (s.performed i x.h { srcs := [srcA x.a 1], uni := some false, flat := true, execOnly := true } 1 fun i k t =>
      (k.vals.foldl (fun t m => t.enter i.r (maskOf [m.1]) (i.p.pc + BitVec.ofNat 64 i.size) (regsNat (m.2.headD [])) false false) t, .next [])) := by
  refine outstanding_body c _ _ _ _ quiet ?_
  rw [trapThreads_of_outside (by rw [List.map_map]; exact outside), List.foldl_map]

/-- BKPT where breakpoints are not enabled does nothing. -/
theorem execBkpt_disabled {x : BkptOps} (c : Clear s i x.h { srcs := [], uni := some false, flat := true, execOnly := true })
    (disabled : i.c.dbgEn.getLsbD 0 = false) :
    execBkpt x s = .next (s.performed i x.h { srcs := [], uni := some false, flat := true, execOnly := true } 1 fun _ _ t => (t, .next [])) := by
  refine issue_body c _ _ _ _ ?_ (Still.refl _)
  rw [disabled, if_neg (by simp)]

theorem execBkpt_enabled {x : BkptOps} (c : Clear s i x.h { srcs := [], uni := some false, flat := true, execOnly := true })
    (enabled : i.c.dbgEn.getLsbD 0 = true) (quiet : s.outstanding i = false)
    (outside : (s.afterRead i x.h { srcs := [], uni := some false, flat := true, execOnly := true }).nested i.r.g i.r.w
      (maskOf (s.sees i x.h { srcs := [], uni := some false, flat := true, execOnly := true }).ts) = false) :
    execBkpt x s = .next (s.performed i x.h { srcs := [], uni := some false, flat := true, execOnly := true } 1 fun i k t =>
      (k.ts.foldl (fun t u => t.enter i.r (maskOf [u]) (i.p.pc + BitVec.ofNat 64 i.size) (0x10000 + x.n.toNat) false false) t, .next [])) := by
  refine outstanding_body c _ _ _ _ quiet ?_
  rw [enabled, if_pos rfl, trapThreads_of_outside (by rw [List.map_map]; exact (List.map_id _).symm ▸ outside), List.foldl_map]

end Traps

/-! ### Threads that return -/

/-- Which threads are in a handler is part of what stands still. -/
theorem handling_of_still {s t : State} (h : Still s t) (g w u : Nat) :
    (t.thread? g w u).map (·.trapped) = (s.thread? g w u).map (·.trapped) := by
  have read : ∀ v : State, (v.thread? g w u).map (·.trapped) =
      ((v.groups.map Group.traps).find? fun q => decide (q.1 = g)).bind fun q => (q.2.2.2[w]?).bind fun x => x[u]? := fun v => by
    rw [List.find?_map, Option.bind_map]
    show (((v.groups.find? fun q => decide (q.key = g)).bind fun q => q.warps[w]?).bind fun x => x.threads[u]?).map _ =
      (v.groups.find? fun q => decide (q.key = g)).bind _
    cases v.groups.find? fun q => decide (q.key = g) with
    | none => rfl
    | some q => cases hw : q.warps[w]? <;> simp [Group.traps, hw]
  rw [read, read, h.traps]

/-- Since the issue neither the gang nor the context has stopped, and no thread of the warp has entered a handler. -/
structure Iss.Frees (x : Iss) (t : State) : Prop where
  group : ∃ q, t.group? x.r.g = some q ∧ q.ctx = x.g.ctx ∧ q.stop = x.g.stop
  ctx : ∃ d, t.ctx? x.g.ctx = some d ∧ d.run = x.c.run
  threads : ∀ u th, t.thread? x.r.g x.r.w u = some th → th.trapped = true → (x.thread u).trapped = true

section Frees
variable {s t : State} {x : Iss}

theorem frees_of_iss (h : s.iss? = some x) : x.Frees s := by
  obtain ⟨_, hg, hw, _, hc⟩ := iss_spec h
  refine ⟨⟨_, hg, rfl, rfl⟩, ⟨_, hc, rfl⟩, fun u th hth trapped => ?_⟩
  have : x.w.threads[u]? = some th := by simpa [State.thread?, State.warp?, hg, hw] using hth
  rw [Iss.thread, this]
  exact trapped

theorem frees_of_still (h : x.Frees s) (st : Still s t) : x.Frees t := by
  obtain ⟨⟨q, hq, ctx, stop⟩, ⟨d, hd, run⟩, threads⟩ := h
  obtain ⟨q', hq', e⟩ := find_traps x.r.g _ _ st.traps q hq
  simp only [Group.traps, Prod.mk.injEq] at e
  obtain ⟨_, ectx, estop, _⟩ := e
  obtain ⟨d', hd', erun⟩ := find_stands x.g.ctx _ _ st.ctxs d hd
  refine ⟨⟨q', hq', ectx.trans ctx, estop.trans stop⟩, ⟨d', hd', erun.trans run⟩, fun u th hth trapped => ?_⟩
  have := handling_of_still st x.r.g x.r.w u
  rw [hth] at this
  obtain ⟨th', hth', e⟩ := Option.map_eq_some_iff.mp this.symm
  exact threads u th' hth' (e.trans trapped)

/-- Threads that return enter no handler (R335). -/
theorem frees_leave (h : x.Frees t) (r : PathRef) (m : W64) : x.Frees (t.leave r m).1 := by
  unfold State.leave
  split
  · exact h
  next g hg =>
    split
    · exact h
    · obtain ⟨⟨q, hq, ctx, stop⟩, hd, threads⟩ := h
      refine ⟨?_, hd, fun u th hth trapped => ?_⟩
      · rw [group_updWarp, hq]
        split
        · exact ⟨_, rfl, ctx, stop⟩
        · exact ⟨q, rfl, ctx, stop⟩
      · simp only [State.thread?, warp_updWarp] at hth
        obtain ⟨w, hw, hwu⟩ := Option.bind_eq_some_iff.mp hth
        split at hw
        · obtain ⟨v, hv, rfl⟩ := Option.map_eq_some_iff.mp hw
          rw [threads_foldl_updThread _ (maskList_nodup m)] at hwu
          split at hwu
          · obtain ⟨y, _, rfl⟩ := Option.map_eq_some_iff.mp hwu
            cases trapped
          · exact threads u th (by rw [State.thread?, hv]; exact hwu) trapped
        · exact threads u th (by rw [State.thread?, hw]; exact hwu) trapped

theorem trapped_of_frees (h : x.Frees t) : x.trapped t = false := by
  obtain ⟨⟨q, hq, ctx, stop⟩, ⟨d, hd, run⟩, threads⟩ := h
  rw [← ctx] at hd
  simp only [Iss.trapped, hq, hd, stop, run, bne_self_eq_false, Bool.or_false, Bool.and_not_self, Bool.false_or]
  split
  · rfl
  next w hw =>
    rw [List.any_eq_false]
    rintro ⟨a, b⟩ hab
    obtain ⟨u, hu⟩ := List.mem_iff_getElem?.mp hab
    obtain ⟨ha, hb⟩ := List.getElem?_zip_eq_some.mp hu
    have here : t.thread? x.r.g x.r.w u = some a := by simp [State.thread?, State.warp?, hq, hw, ha]
    have old : x.thread u = b := by simp [Iss.thread, hb]
    have := threads u a here
    rw [old] at this
    cases ha' : a.trapped <;> simp_all

/-- Nothing is given back to a queue when no thread has trapped. -/
theorem unpop_of_frees (h : x.Frees t) (sh : Shape) (ts : List Nat) (s0 : State) : x.unpop sh ts s0 t = t := by
  unfold Iss.unpop
  split
  · rfl
  next w hw =>
    refine if_pos (List.isEmpty_iff.mpr (List.filter_eq_nil_iff.mpr fun u _ => ?_))
    split
    next th hth =>
      have before := h.threads u th (by rw [State.thread?, hw]; exact hth)
      cases entered : th.trapped
      · simp
      · simp [before entered]
    · simp

theorem frees_act (hx : s.iss? = some x) (h : Hdr) (sh : Shape) (per : Nat) (ts : List Nat) (body : Body)
    (hb : ∀ k t, x.Frees t → x.Frees (body x k t).1) : x.Frees (s.act x h sh per ts body) := by
  have passed : ∀ {t : State} n size moves, x.Frees t → x.Frees ((t.occupy x.r n).finish x.r size moves) := fun _ _ _ ht =>
    frees_of_still ht ((calm_occupy _ _ _).trans (calm_finish _ _ _ _)).still
  have read := frees_of_still (frees_of_iss hx) (calm_readSrcs s x h sh.srcs (sh.readers ts)).still
  unfold State.act
  dsimp only
  split
  · exact passed _ _ _ (frees_of_iss hx)
  · rw [unpop_of_frees (hb _ _ read)]
    split
    · exact passed _ _ _ (hb _ _ read)
    · exact hb _ _ read
    · exact frees_of_still (hb _ _ read) (calm_occupy _ _ _).still

end Frees

/-- What ERET reads: nothing. -/
def returnShape : Shape := { srcs := [], uni := some false, flat := true, execOnly := true }

/-- The threads return from their frames (R335). -/
def returnBody : Body := fun i k t => ((t.leave i.r (maskOf k.ts)).1, .next (t.leave i.r (maskOf k.ts)).2)

/-- An ERET whose threads may all return traps nothing, so it need not follow earlier accesses. -/
theorem execEret_clear {x : Op0} {s : State} {i : Iss} (c : Clear s i x.h returnShape)
    (returns : ∀ t ∈ (s.sees i x.h returnShape).ts, (i.thread t).super = true ∧ (i.thread t).trapped = true) :
    execEret x s = .next (s.performed i x.h returnShape 1 returnBody) := by
  have super : i.anyProgram (s.sees i x.h returnShape).ts = false := by
    rw [Iss.anyProgram, List.any_eq_false]
    intro t ht
    simp [(returns t ht).1]
  have trapped : (s.sees i x.h returnShape).ts.any (fun t => !(i.thread t).trapped) = false := by
    rw [List.any_eq_false]
    intro t ht
    simp [(returns t ht).2]
  have returning : s.performed i x.h returnShape 1 (fun i k s =>
      if i.anyProgram k.ts || k.ts.any (fun t => !(i.thread t).trapped) then (s.faultPath i 0x12 0 0xD3, .stay)
      else returnBody i k s) = s.performed i x.h returnShape 1 returnBody :=
    performed_congr (by rw [super, trapped, if_neg (by simp)])
  have nothing : i.trapped (s.performed i x.h returnShape 1 returnBody) = false :=
    trapped_of_frees (frees_act c.issues _ _ _ _ _ fun k t ht => frees_leave ht i.r (maskOf k.ts))
  rw [← returning] at nothing ⊢
  exact issue_clear c _ _ _ (.inr nothing)

/-- Settles O21: no thread that traps is in a handler, so each enters its own, and threads that return enter none. -/
theorem trapAndReturnComplete : Obligations.TrapAndReturnComplete :=
  ⟨fun _ _ _ c quiet outside => execTrap_clear c quiet outside,
    fun _ _ _ c => ⟨fun disabled => execBkpt_disabled c disabled, fun enabled quiet outside => execBkpt_enabled c enabled quiet outside⟩,
    fun _ _ _ c returns => execEret_clear c returns⟩

end Sys2Proof.Machine
end

section
/-! PROOFS. LAUNCH, the task instructions and KINDLE (R92, R93, R323 to R329, R440). -/

namespace Sys2Proof.Machine

/-! ### LAUNCH and TASK.RANGE -/

/-- When every position can act, they act in order, and nothing traps. -/
theorem actEach_of_eachActs {i : Iss} {k : Taken} {d : Operand} {act : State → W64 → Except Nat (State × Nat)}
    {go : State → W64 → State × Except Nat Nat} (same : ∀ {t va u n}, act t va = .ok (u, n) → go t va = (u, .ok n)) {t u : State}
    (h : State.eachActs i k d act t k.vals = some u) (cls : Nat) : t.actEach i k d cls go = (u, !k.vals.isEmpty) := by
  have loop : ∀ (ms : List (Nat × List (List Reg))) (t : State) (any : Bool), State.eachActs i k d act t ms = some u →
      ms.foldl (fun (acc : State × List ThreadErr × Bool) (m : Nat × List (List Reg)) =>
        let (s, errs, any) := acc
        let va := BitVec.ofNat 64 (regsNat (m.2.headD []))
        match go s va with
        | (s, .ok n) => (s.writeDst i.r.g i.r.w i.g { op := d } m.1 (if k.uni then k.ts else [m.1]) (regsOf 1 n false), errs, true)
        | (s, .error reason) =>
          (s, errs ++ (if k.uni then k.ts else [m.1]).map (fun t => (⟨t, cls, va.toNat, reason⟩ : ThreadErr)), any)) (t, [], any) =
        (u, [], any || !ms.isEmpty) := by
    intro ms
    induction ms with
    | nil =>
      intro t any h
      cases h
      simp
    | cons m ms ih =>
      intro t any h
      rw [State.eachActs] at h
      split at h
      · cases h
      next v n acted =>
        rw [List.foldl_cons]
        simp only [same acted]
        rw [ih _ _ h]
        simp
  refine (congrArg (fun r : State × List ThreadErr × Bool => (r.1.trapAll i.r r.2.1, r.2.2)) (loop k.vals t false h)).trans ?_
  simp [trapAll_nil]

section Launches
variable {s u : State} {i : Iss} {x : OpDA}

theorem execLaunch_accepts (c : Clear s i x.h (launchShape x)) (first : s.mustWait i x.h 2 .rel true = false) (quiet : s.outstanding i = false)
    (acts : State.eachActs i (s.sees i x.h (launchShape x)) x.d (fun t va => match t.readRecord i va with
      | none => .error 10
      | some (t, bs, bad) => (t.checkLaunch bs bad).map fun r => t.accept i.c.num r)
      (s.afterRead i x.h (launchShape x)) (s.sees i x.h (launchShape x)).vals = some u)
    (harr : s.arrives (PathRef.waitKey i.r i.p) 2 u) :
    execLaunch x s = .next (s.performed i x.h (launchShape x) 1 fun _ _ _ => (u.arrive (PathRef.waitKey i.r i.p), .next [])) := by
  rw [execLaunch, issueMem, withIssue_of c.issues, first, if_neg (by simp)]
  refine outstanding_body c _ _ _ _ quiet ?_
  dsimp only
  rw [actEach_of_eachActs ?_ acts]
  · exact reached_arrives harr
  · intro t va v n acted
    cases hread : t.readRecord i va with
    | none => simp [hread] at acted
    | some r =>
      obtain ⟨t', bs, bad⟩ := r
      cases hcheck : t'.checkLaunch bs bad <;> simp_all [Except.map]

/-- A family that some thread has created has taken the warp's staging (R329). -/
theorem execTaskRange_creates (c : Clear s i x.h (launchShape x)) (first : s.mustWait i x.h 2 .rel true = false)
    (quiet : s.outstanding i = false)
    (acts : State.eachActs i (s.sees i x.h (launchShape x)) x.d (fun t va => match t.readRecord i va with
      | none => .error 10
      | some (t, bs, bad) => (checkRange bs bad).map fun r => t.createFamily i.g i.w r)
      (s.afterRead i x.h (launchShape x)) (s.sees i x.h (launchShape x)).vals = some u) :
    let v := if (s.sees i x.h (launchShape x)).vals = [] then u
      else u.updWarp i.r.g i.r.w fun w => { w with reg0 := Region.none, reg1 := Region.none }
    s.arrives (PathRef.waitKey i.r i.p) 2 v →
    execTaskRange x s = .next (s.performed i x.h (launchShape x) 1 fun _ _ _ => (v.arrive (PathRef.waitKey i.r i.p), .next [])) := by
  intro v harr
  rw [execTaskRange, issueMem, withIssue_of c.issues, first, if_neg (by simp)]
  refine outstanding_body c _ _ _ _ quiet ?_
  dsimp only
  rw [actEach_of_eachActs ?_ acts]
  · have taken : (if (!(s.sees i x.h (launchShape x)).vals.isEmpty) = true
        then u.updWarp i.r.g i.r.w fun w => { w with reg0 := Region.none, reg1 := Region.none } else u) = v := by
      cases hvals : (s.sees i x.h (launchShape x)).vals <;> simp [v, hvals]
    dsimp only
    rw [taken]
    exact reached_arrives harr
  · intro t va w n acted
    cases hread : t.readRecord i va with
    | none => simp [hread] at acted
    | some r =>
      obtain ⟨t', bs, bad⟩ := r
      cases hcheck : checkRange bs bad <;> simp_all [Except.map]

end Launches

/-! ### TASK.NEXT and TASK.GET -/

theorem handed_traps (g : Group) (last : W64) : (g.handed last).traps = g.traps := by
  unfold Group.handed
  split <;> rfl

theorem still_giveChunk (s : State) (i : Iss) (d : Operand) (t first n : Nat) (b : Bool) : Still s (s.giveChunk i d t first n b) :=
  ((calm_writeDst _ _ _ _ _ _ _ _).trans (calm_updThread _ _ _ _ _ fun _ => by rfl)).still

theorem still_updTask (s : State) (c i : Nat) (f : Task → Task) : Still s (s.updTask c i f) := ⟨rfl, rfl⟩

theorem still_oneChunk (s : State) (i : Iss) (d : Operand) (cl ix t : Nat) : Still s (s.oneChunk i d cl ix t) := by
  unfold State.oneChunk
  split
  · exact still_giveChunk _ _ _ _ _ _ _
  · dsimp only
    split
    · exact still_giveChunk _ _ _ _ _ _ _
    · exact ((still_updTask _ _ _ _).trans (calm_updGroup _ _ _ fun g => handed_traps g _).still).trans (still_giveChunk _ _ _ _ _ _ _)

theorem still_chunks (s : State) (i : Iss) (d : Operand) (cl ix : Nat) (ts : List Nat) : Still s (s.chunks i d cl ix ts) :=
  still_foldl _ _ (fun s t => still_oneChunk s i d cl ix t) s

theorem still_split {s t : State} {k : Nat} {own : Task} (h : s.split k own = some t) : Still s t := by
  obtain ⟨r, _, rfl⟩ := Option.map_eq_some_iff.mp h
  exact ((still_updTask _ _ _ _).trans (still_updTask _ _ _ _)).trans (calm_updGroup _ _ _ fun _ => by rfl).still

theorem still_splitOrSame (s : State) (k : Nat) (own : Task) : Still s ((s.split k own).getD s) := by
  cases h : s.split k own with
  | none => exact Still.refl s
  | some t => exact still_split h

/-- Reading operands leaves every record where it is. -/
theorem task_afterRead (s : State) (i : Iss) (h : Hdr) (sh : Shape) (cl ix : Nat) : (s.afterRead i h sh).task? cl ix = s.task? cl ix := by
  rw [State.afterRead, (calm_readSrcs s i h sh.srcs (sh.readers (i.doing h sh))).eq]
  rfl

section Chunks
variable {s : State} {i : Iss} {x : OpD} {cl ix : Nat} {own : Task}

/-- An operation on a family that is not too late for the cycle takes its place in it and is performed. -/
theorem issueChunk_hands (c : Clear s i x.h (chunkShape x)) (worker : i.g.task = some (cl, ix)) (record : s.task? cl ix = some own)
    {get : Bool} (soon : s.tooLate own (chunkOrder get i.g.core) = false) (ins : Instr) {body : Iss → Taken → State → Task → State}
    (still : ∀ i k t, Still t (body i k t own)) :
    issueChunk ins x get s body = .next (s.performed i x.h (chunkShape x) 1 fun i k t =>
      (body i k (t.updFamily own.family fun t => { t with acted := (s.coreClock, chunkOrder get i.g.core) }) own, .next [])) := by
  refine issue_body c _ _ _ _ ?_ (Still.trans (t := (s.afterRead i x.h (chunkShape x)).updFamily _ _) ⟨rfl, rfl⟩ (still _ _ _))
  simp only [worker, task_afterRead, record, soon, Bool.false_eq_true, if_false]

/-- TASK.NEXT and TASK.GET outside a worker group (R440). -/
theorem issueChunk_outside (c : Clear s i x.h (chunkShape x)) (outside : i.g.task = none) (quiet : s.outstanding i = false)
    (taken : i.doing x.h (chunkShape x) ≠ []) (ins : Instr) (get : Bool) (body : Iss → Taken → State → Task → State) :
    issueChunk ins x get s body = .next (i.unpop (chunkShape x) (i.doing x.h (chunkShape x)) s
      ((s.afterRead i x.h (chunkShape x)).faultPath i 0x18 0 (if get then 0xC3 else 0xC2))) :=
  issue_stays c quiet taken _ _ _ _ (by simp only [outside])

theorem execTaskNext_outside (c : Clear s i x.h (chunkShape x)) (outside : i.g.task = none) (quiet : s.outstanding i = false)
    (taken : i.doing x.h (chunkShape x) ≠ []) : execTaskNext x s = .next (i.unpop (chunkShape x) (i.doing x.h (chunkShape x)) s
      ((s.afterRead i x.h (chunkShape x)).faultPath i 0x18 0 0xC2)) := by
  rw [execTaskNext, issueChunk_outside c outside quiet taken, if_neg (by simp)]

theorem execTaskGet_outside (c : Clear s i x.h (chunkShape x)) (outside : i.g.task = none) (quiet : s.outstanding i = false)
    (taken : i.doing x.h (chunkShape x) ≠ []) : execTaskGet x s = .next (i.unpop (chunkShape x) (i.doing x.h (chunkShape x)) s
      ((s.afterRead i x.h (chunkShape x)).faultPath i 0x18 0 0xC3)) := by
  rw [execTaskGet, issueChunk_outside c outside quiet taken, if_pos rfl]

theorem execTaskNext_hands (c : Clear s i x.h (chunkShape x)) (worker : i.g.task = some (cl, ix)) (record : s.task? cl ix = some own)
    (soon : s.tooLate own (chunkOrder false i.g.core) = false) :
    execTaskNext x s = .next (s.performed i x.h (chunkShape x) 1 fun i k t =>
      ((t.updFamily own.family fun t => { t with acted := (s.coreClock, chunkOrder false i.g.core) }).chunks i x.d own.cluster own.index k.ts,
        .next [])) :=
  issueChunk_hands c worker record soon _ fun _ _ _ => still_chunks _ _ _ _ _ _

/-- TASK.GET splits its family's richest record when its own is empty and its group may start a segment (R93, R443). -/
theorem execTaskGet_hands (c : Clear s i x.h (chunkShape x)) (worker : i.g.task = some (cl, ix)) (record : s.task? cl ix = some own)
    (soon : s.tooLate own (chunkOrder true i.g.core) = false) :
    execTaskGet x s = .next (s.performed i x.h (chunkShape x) 1 fun i k t =>
      let t := t.updFamily own.family fun t => { t with acted := (s.coreClock, chunkOrder true i.g.core) }
      ((if own.left = 0 ∧ ¬(i.g.versioned = true ∧ 30 ≤ i.g.segments.length) then (t.split i.r.g own).getD t else t).chunks
        i x.d own.cluster own.index k.ts, .next [])) := by
  have splits : ∀ i : Iss, (decide (own.left = 0) && !(i.g.versioned && decide (30 ≤ i.g.segments.length))) = true ↔
      own.left = 0 ∧ ¬(i.g.versioned = true ∧ 30 ≤ i.g.segments.length) := fun i => by
    rw [Bool.and_eq_true, decide_eq_true_eq, Bool.not_eq_true', ← Bool.not_eq_true, Bool.and_eq_true, decide_eq_true_eq]
  unfold execTaskGet
  rw [issueChunk_hands c worker record soon]
  · simp only [splits]
  · intro i k t
    refine Still.trans ?_ (still_chunks _ _ _ _ _ _)
    split
    · exact still_splitOrSame _ _ _
    · exact Still.refl t

end Chunks

/-! ### TASK.DONE and EXIT -/

/-- The threads that take the instruction end (R49, R327). -/
def exitBody : Body := fun i k t => (t.exitThreads i.r i.p.access (i.p.pc + BitVec.ofNat 64 i.size) k.ts, .next [])

section Exits
variable {s : State} {i : Iss} {h : Hdr} {sh : Shape}

theorem issue_exitBody (c : Clear s i h sh) (ins : Instr) : issue ins h sh 1 s exitBody = .next (s.performed i h sh 1 exitBody) :=
  issue_still c ins 1 exitBody (still_exitThreads _ _ _ _ _)

theorem cur_exitBody (c : Clear s i h sh) : (s.performed i h sh 1 exitBody).cur = some (.path i.r i.size) := by
  have kept : (s.performed i h sh 1 exitBody).cur = s.cur :=
    cur_act c.issues h sh 1 _ exitBody (fun _ _ => still_exitThreads _ _ _ _ _) fun _ _ => cur_exitThreads _ _ _ _ _
  rw [kept, (iss_spec c.issues).1]

theorem execExit_ends {x : Op0} (c : Clear s i x.h { srcs := [], uni := some false, flat := true }) :
    execExit x s = .next ((s.performed i x.h { srcs := [], uni := some false, flat := true } 1 exitBody).tryEnd i.r.g) := by
  have ends := issue_exitBody c (.exit x)
  unfold exitBody at ends
  unfold execExit Iss.next
  rw [ends]
  show Host.Outcome.next (match (s.performed i x.h _ 1 exitBody).cur with | some (.path r _) => _ | _ => _) = _
  rw [cur_exitBody c]
  rfl

theorem execTaskDone_ends {x : Op0} (c : Clear s i x.h { srcs := [], uni := some false, suppress := true, execOnly := true }) :
    execTaskDone x s =
      .next ((s.performed i x.h { srcs := [], uni := some false, suppress := true, execOnly := true } 1 exitBody).tryEnd i.r.g) := by
  have ends := issue_exitBody c (.taskDone x)
  unfold exitBody at ends
  unfold execTaskDone Iss.next
  rw [ends]
  show Host.Outcome.next (match (s.performed i x.h _ 1 exitBody).cur with | some (.path r _) => _ | _ => _) = _
  rw [cur_exitBody c]
  rfl

end Exits

/-! ### KINDLE -/

/-- The region that KINDLE's B holds with its A: none when its extent is 0 (R328). -/
theorem execKindle_stages {x : KindleOps} {s : State} {i : Iss} :
    let src := fun f (o : Operand) => ({ field := f, op := o, n := 2, strict := true, uni := true } : Src)
    let sh : Shape := { srcs := [src 2 x.a, src 3 x.b], uni := some true, suppress := true, execOnly := true }
    Clear s i x.h sh → execKindle x s = .next (s.performed i x.h sh 1 fun i k t =>
      let v := (k.vals.headD (0, [])).2
      let b := regsNat (v.getD 1 [])
      let r : Region := if b / 2 ^ 32 % 2 ^ 16 = 0 then Region.none else
        { base := BitVec.ofNat 64 (regsNat (v.getD 0 [])), str := BitVec.ofNat 32 b, ext := BitVec.ofNat 16 (b / 2 ^ 32),
          soff := BitVec.ofNat 16 (b / 2 ^ 48) }
      (t.updWarp i.r.g i.r.w fun w => if x.region then { w with reg1 := r } else { w with reg0 := r }, .next [])) := by
  intro src sh c
  have field : ∀ b lo, BitVec.ofNat 16 (bits b (lo + 15) lo) = BitVec.ofNat 16 (b / 2 ^ lo) := fun b lo => by
    apply BitVec.eq_of_toNat_eq
    simp [Laws.Encoding.bits_eq, show lo + 15 + 1 - lo = 16 by omega]
  refine issue_body c _ _ _ _ ?_ (calm_updWarp _ _ _ _ fun w => ?_).still
  · dsimp only
    rw [field _ 32, field _ 48, Laws.Encoding.bits_eq]
  · split <;> rfl

/-- Settles O19: the conditions lead each instruction past its refusals, and what LAUNCH and TASK.RANGE reach is an attempt that arrives. -/
theorem taskInstructionsComplete : Obligations.TaskInstructionsComplete :=
  ⟨fun _ _ _ _ c first quiet acts harr => execLaunch_accepts c first quiet acts harr,
    fun _ _ _ _ c first quiet acts harr => execTaskRange_creates c first quiet acts harr,
    fun _ _ _ _ _ _ c worker record => ⟨execTaskNext_hands c worker record, execTaskGet_hands c worker record⟩,
    fun _ _ _ c => execTaskDone_ends c, fun _ _ _ c => execKindle_stages c⟩

/-- Settles O60: a group that has no record stops the path; EXIT and TASK.DONE end the threads in the same way. -/
theorem tasksOutsideWorkers : Obligations.TasksOutsideWorkers :=
  ⟨fun _ _ _ outside quiet c taken => ⟨execTaskNext_outside c outside quiet taken, execTaskGet_outside c outside quiet taken⟩,
    fun _ _ _ => ⟨fun c => execExit_ends c, fun c => execTaskDone_ends c⟩⟩

end Sys2Proof.Machine
end

section
/-! PROOFS. Errors in a core's control, and the machine right after reset (R148, R386, R387, R389, R413, R442, R478). -/

namespace Sys2Proof.Machine

/-! ### Cores that fail -/

section Cores
variable (s : State)

@[simp] theorem cores_writePieces (ps : List (Nat × Nat)) (bs : List Byte) (bad : Bool) : (s.writePieces ps bs bad).cores = s.cores := by
  induction ps generalizing s bs with
  | nil => rfl
  | cons p ps ih => exact ih _ _

@[simp] theorem cores_patch (ctx ticket : Nat) (f : Nat → Nat) : (s.patch ctx ticket f).cores = s.cores := by
  unfold State.patch
  split
  · rfl
  split
  · rfl
  · dsimp only
    split <;> simp

theorem cores_folds {ctx : Nat} {t : State} (h : s.folds ctx = some t) : t.cores = s.cores := by
  unfold State.folds at h
  split at h
  · cases h; rfl
  split at h
  · split at h
    · dsimp only at h
      split at h <;> cases h <;> simp
    · cases h
  · cases h

@[simp] theorem cores_stopGang (keys : List Nat) (e : ErrRec) : (s.stopGang keys e).cores = s.cores := by
  unfold State.stopGang
  split
  next t h => exact cores_folds s h
  · dsimp only
    split <;> rfl

@[simp] theorem cores_dropKindles (core : Nat) : (s.dropKindles core).cores = s.cores :=
  List.foldlRecOn _ _ (motive := fun x : State => x.cores = s.cores) rfl fun _ hx _ _ => hx

/-- The core stays marked while its gangs stop (R442). -/
theorem failed_failCore (core cls detail : Nat) : setMem (s.failCore core cls detail).cores.failed core = true := by
  have marked : (s.failCore core cls detail).cores.failed = setIns s.cores.failed core := by
    unfold State.failCore
    refine List.foldlRecOn _ _ (motive := fun x : State × List Nat => x.1.cores.failed = setIns s.cores.failed core) (by simp) fun x hx g _ => ?_
    dsimp only
    split
    · exact hx
    · simpa using hx
  rw [marked, setMem_setIns, decide_eq_true rfl, Bool.true_or]

end Cores

/-- Settles O38: the two events are `failCore` with their classes, and stopping gangs takes no mark away. -/
theorem controlErrorsComplete : Obligations.ControlErrorsComplete := by
  refine ⟨fun core unit s here low high => ?_, fun core unit table s here => ?_, failed_failCore⟩
  · show execCoreControlError core unit s = _
    rw [execCoreControlError, if_neg]
    simp only [Bool.or_eq_true, decide_eq_true_eq]
    omega
  · show execTileControlError core unit table s = _
    rw [execTileControlError, if_neg (by omega)]

/-! ### Reset -/

/-- Settles O39: each field has its value by the definition of the reset state. -/
theorem resetState : Obligations.ResetState :=
  ⟨rfl, rfl, rfl, rfl, rfl, fun acls _ => by
      simp [State.lcyc, lcycOf, State.reset, sget],
    rfl, fun _ => rfl, fun _ => rfl, fun _ => rfl, rfl, fun _ => ⟨rfl, rfl⟩, rfl, fun _ _ nonzero => absurd rfl nonzero, rfl, rfl, rfl⟩

end Sys2Proof.Machine
end

section
/-! PROOFS. A sequencer's step, and the ZF instructions on registers (R370, R371, R373, R379, R503). -/

namespace Sys2Proof.Machine

/-! ### A sequencer context finds its word -/

section Fetch
variable {u : State} {n : Nat} {q : Seq} {c : Ctx}

/-- What runs when context n, at program q of device context c, has fetched what stands at its PC. -/
theorem issueSeq_of (hq : u.seq? n = some q) (hc : u.ctx? q.ctx = some c) :
    let v : State := { u with cur := some (.seq n), held := false, seqLast := sset 7 u.seqLast (n / 8) (n % 8) }
    (∀ e, u.translate c q.pc.toNat = .error e → u.issueSeq n = exec .zfWordNotFetched v) ∧
    (∀ e, u.translate c q.pc.toNat = .ok e →
      let w := BitVec.ofNat 32 (u.mem.nat (e.pa q.pc.toNat) 4)
      (∀ i, decodeZf w = .ok i → u.issueSeq n = exec i v) ∧
      (∀ f, decodeZf w = .error f → u.issueSeq n = exec (.zfOpcodeNotAllocated w) v)) := by
  intro v
  obtain ⟨⟨m, _⟩, found, rfl⟩ := Option.map_eq_some_iff.mp hq
  refine ⟨fun e he => ?_, fun e he => ⟨fun i hi => ?_, fun f hf => ?_⟩⟩
  · simp only [State.issueSeq, found, hc, State.fetchZf]
    rw [show State.translate { u with cur := some (.seq n), held := false, seqLast := _ } c _ = .error e from he]
  · simp only [State.issueSeq, found, hc, State.fetchZf]
    rw [show State.translate { u with cur := some (.seq n), held := false, seqLast := _ } c _ = .ok e from he]
    simp only [hi]
    rfl
  · simp only [State.issueSeq, found, hc, State.fetchZf]
    rw [show State.translate { u with cur := some (.seq n), held := false, seqLast := _ } c _ = .ok e from he]
    simp only [hf]
    rfl

end Fetch

/-- Settles O41: the issue follows what the fetch found, and a sequencer's turn ends with the first context that can issue. -/
theorem stepRunsSequencerWord : Obligations.StepRunsSequencerWord := by
  refine ⟨fun u n q c e hq hc he => (issueSeq_of hq hc).2 e he, fun u n q c e hq hc he => (issueSeq_of hq hc).1 e he, ?_⟩
  intro s k rest n ns t hagenda u hready hissue hheld
  have turn : u.turn (.seq k) = .next t.close := by
    show u.issueSeqs _ = _
    rw [hready, State.issueSeqs, hissue]
    exact if_neg (by simp [hheld])
  rw [step, hagenda]
  exact congrArg closed turn

/-! ### Registers and the program counter -/

section Registers
variable {s : State} {x : SIss}

/-- An issuing context is one of a sequencer (R370). -/
theorem siss_spec (h : s.siss? = some x) : s.seq? x.n = some x.q := by
  unfold State.siss? at h
  split at h
  next n _ =>
    obtain ⟨q, hq, hc⟩ := Option.bind_eq_some_iff.mp h
    obtain ⟨c, _, rfl⟩ := Option.map_eq_some_iff.mp hc
    exact hq
  · cases h

theorem seq_updSeq (s : State) (n : Nat) (f : Seq → Seq) (k : Nat) :
    (s.updSeq n f).seq? k = if k = n then (s.seq? k).map f else s.seq? k := by
  simp only [State.seq?, State.updSeq]
  induction s.seqs with
  | nil => simp
  | cons a l ih =>
    rw [List.map_cons, List.find?_cons, List.find?_cons]
    by_cases here : a.1 = k
    · by_cases changed : k = n <;> simp [here, changed]
    · have still : (if a.1 = n then (a.1, f a.2) else a).1 ≠ k := by split <;> exact here
      simpa [here, still] using ih

/-- Register 0 takes no value (R370). -/
theorem seqReg_setReg (q : Seq) (d : Fin 32) (v : W64) (r : Fin 32) :
    (q.setReg d v).reg r = if r = d ∧ r ≠ 0 then v else q.reg r := by
  unfold Seq.reg Seq.setReg
  by_cases r0 : r = 0
  · simp [r0]
  by_cases d0 : d = 0
  · simp [r0, d0]
  · simp [r0, d0, sget_sset, Fin.val_inj]

/-- An instruction that gives its program the register file of `f` and the counter `pc`. -/
theorem seqMoves_of_next {i : Instr} {pc : SIss → W64} {reg : SIss → Fin 32 → W64} {f : SIss → Seq → Seq}
    (he : ∀ s, exec i s = withSeq s fun x t => .next (t.seqNext x (pc x) (f x)))
    (hreg : ∀ x r, (f x x.q).reg r = reg x r)
    (hkept : ∀ x, (f x x.q).key = x.q.key ∧ (f x x.q).ctx = x.q.ctx ∧ (f x x.q).stopped = x.q.stopped) : SeqMoves i pc reg := by
  intro s x hx
  obtain ⟨key, ctx, stopped⟩ := hkept x
  have counted : ∀ n, (s.countIssue x).seq? n = s.seq? n := fun n => by unfold State.countIssue; split <;> rfl
  have frame : (s.countIssue x).mem = s.mem ∧ (s.countIssue x).groups = s.groups ∧ (s.countIssue x).ctxs = s.ctxs ∧
      (s.countIssue x).ports = s.ports ∧ (s.countIssue x).net = s.net := by
    unfold State.countIssue
    split <;> exact ⟨rfl, rfl, rfl, rfl, rfl⟩
  refine ⟨_, { f x x.q with pc := pc x, wait := none, timer := 0, blocks := 0, packets := 0, xfer := none },
    (he s).trans (withSeq_of hx _), ?_, rfl, hreg x, key, ctx, rfl, stopped, fun n other => ?_, frame⟩
  · rw [State.seqNext, seq_updSeq, if_pos rfl, counted, siss_spec hx]
    rfl
  · rw [State.seqNext, seq_updSeq, if_neg other, counted]

theorem seqMoves_of_set {i : Instr} {d : Fin 32} {v : SIss → W64}
    (he : ∀ s, exec i s = withSeq s fun x t => .next (t.seqSet x d (v x))) :
    SeqMoves i (fun x => x.q.pc + 4) fun x => x.holds d (v x) :=
  seqMoves_of_next (f := fun x q => q.setReg d (v x)) he (fun x r => seqReg_setReg x.q d (v x) r) fun x => by
    unfold Seq.setReg
    split <;> exact ⟨rfl, rfl, rfl⟩

theorem seqMoves_of_branch {i : Instr} {pc : SIss → W64}
    (he : ∀ s, exec i s = withSeq s fun x t => .next (t.seqNext x (pc x) id)) : SeqMoves i pc fun x => x.q.reg :=
  seqMoves_of_next (f := fun _ => id) he (fun _ _ => rfl) fun _ => ⟨rfl, rfl, rfl⟩

end Registers

/-- MOVI appends 16 bits to the register (R379). -/
theorem shift16_add (a : W64) (imm : BitVec 16) : a <<< 16 + imm.setWidth 64 = a * 65536 + BitVec.ofNat 64 imm.toNat := by
  rw [BitVec.shiftLeft_eq_mul_twoPow, BitVec.ofNat_toNat]
  rfl

/-- Settles O23: each instruction is `seqNext` with its value and its target. -/
theorem sequencerRegisterResults : Obligations.SequencerRegisterResults := by
  refine ⟨fun x => seqMoves_of_set fun s => ?_, fun x => seqMoves_of_set fun _ => rfl, fun x => seqMoves_of_set fun _ => rfl,
    fun x => seqMoves_of_set fun _ => rfl, fun x => seqMoves_of_branch fun _ => rfl, fun x => seqMoves_of_branch fun _ => rfl,
    fun imm => seqMoves_of_branch fun _ => rfl⟩
  simp only [← shift16_add]
  rfl

end Sys2Proof.Machine
end

section
/-! PROOFS. Invalidations of form 3, and kiln instructions without a binding (R455, R483). -/

namespace Sys2Proof.Machine

/-- An invalidation of form 2 covers every translation (R141, R455). -/
theorem invalidate_two (s : State) (i : Iss) (c : Nat) (v : W64) : (s.invalidate i c 2 v).mem.tlb = [] :=
  List.filter_eq_nil_iff.mpr fun e _ => by simp [invalCovers]

/-- Settles O58: the row of TLBINV is chosen by the form alone, and forms 2 and 3 share one. -/
theorem invalidationFormThree : Obligations.InvalidationFormThree := by
  refine ⟨fun s x i sreg issues => ?_, invalidate_two⟩
  intro src v form
  simp only [State.rowOf, issues, if_pos sreg]
  rcases form with two | three
  · rw [show _ % 4 = 2 from two]; rfl
  · rw [show _ % 4 = 3 from three]; rfl

/-! ### The kiln -/

section Kiln
variable {s : State} {i : Iss} (unbound : i.g.kiln = none) (quiet : s.outstanding i = false)
include unbound quiet

theorem execKsig_unbound {x : OpAB} {sh : Shape} (hsh : sh = { srcs := [uniSrc 2 x.a 2, uniSrc 3 x.b 1], uni := some true, suppress := true })
    (c : Clear s i x.h sh) (taken : i.doing x.h sh ≠ []) :
    execKsig x s = .next (i.unpop sh (i.doing x.h sh) s ((s.afterRead i x.h sh).faultPath i 0x39 0 0xB9)) := by
  subst hsh
  exact issue_stays c quiet taken _ _ _ _ (by rw [unbound]; rfl)

theorem execKtest_unbound {x : OpDA} {sh : Shape}
    (hsh : sh = { srcs := [{ field := 2, op := x.a, strict := true }], dst := some { op := x.d }, suppress := true })
    (c : Clear s i x.h sh) (taken : i.doing x.h sh ≠ []) :
    execKtest x s = .next (i.unpop sh (i.doing x.h sh) s ((s.afterRead i x.h sh).faultPath i 0x39 0 0xBA)) := by
  subst hsh
  exact issue_stays c quiet taken _ _ _ _ (by rw [unbound]; rfl)

theorem execKreuse_unbound {x : OpDA} {sh : Shape}
    (hsh : sh = { srcs := [{ field := 2, op := x.a, strict := true }], dst := some { op := x.d, n := 2 } })
    (c : Clear s i x.h sh) (taken : i.doing x.h sh ≠ []) :
    execKreuse x s = .next (i.unpop sh (i.doing x.h sh) s ((s.afterRead i x.h sh).faultPath i 0x39 0 0xBB)) := by
  subst hsh
  exact issue_stays c quiet taken _ _ _ _ (by rw [unbound]; rfl)

/-- KMAP of either width (R318). -/
theorem kmapRun_unbound {x : OpDAB} {words : Nat} (c : Clear s i x.h (kmapShape x words)) (taken : i.doing x.h (kmapShape x words) ≠ [])
    (ins : Instr) (op : Nat) (f : Ctx → KilnAt → KilnBind → Nat → Nat → State → Except Nat (State × Option Nat × Bool)) :
    kmapRun ins x words op s f = .next (i.unpop (kmapShape x words) (i.doing x.h (kmapShape x words)) s
      ((s.afterRead i x.h (kmapShape x words)).faultPath i 0x39 0 op)) :=
  issue_stays c quiet taken _ _ _ _ (by simp only [unbound]; rfl)

theorem execKmap_unbound {x : OpDAB} (c : Clear s i x.h (kmapShape x 2)) (taken : i.doing x.h (kmapShape x 2) ≠ []) :
    execKmap x s = .next (i.unpop (kmapShape x 2) (i.doing x.h (kmapShape x 2)) s
      ((s.afterRead i x.h (kmapShape x 2)).faultPath i 0x39 0 0xBC)) := by
  rw [execKmap, kmapRun_unbound unbound quiet c taken]

theorem execKmapSrc_unbound {x : OpDAB} (c : Clear s i x.h (kmapShape x 1)) (taken : i.doing x.h (kmapShape x 1) ≠ []) :
    execKmapSrc x s = .next (i.unpop (kmapShape x 1) (i.doing x.h (kmapShape x 1)) s
      ((s.afterRead i x.h (kmapShape x 1)).faultPath i 0x39 0 0xBC)) := by
  rw [execKmapSrc, kmapRun_unbound unbound quiet c taken]

end Kiln

/-- Settles O59: each of the forms looks for its binding before anything else. -/
theorem kilnNeedsBinding : Obligations.KilnNeedsBinding :=
  fun _ _ unbound quiet => ⟨fun _ c taken => execKsig_unbound unbound quiet rfl c taken,
    fun _ c taken => execKtest_unbound unbound quiet rfl c taken, fun _ c taken => execKreuse_unbound unbound quiet rfl c taken,
    fun _ => ⟨execKmap_unbound unbound quiet, execKmapSrc_unbound unbound quiet⟩⟩

end Sys2Proof.Machine
end

section
/-! PROOFS. SVC and SVC.WAIT (R330 to R332). -/

namespace Sys2Proof.Machine

/-! ### SVC -/

section Service
variable {s t : State}

theorem range_of_calm (h : Calm s t) (c : Ctx) (ok : BitVec 9 → Bool) (via : Option TlbPlace) (ps : List (Nat × Nat)) :
    t.range? c ok via ps = s.range? c ok via ps := by
  induction ps with
  | nil => rfl
  | cons p ps ih => rw [State.range?, State.range?, translate_of_calm h, ih]

/-- Whether a slot of the service queue is free is a matter of memory and of the context alone (R331). -/
theorem freeSlot_of_calm (h : Calm s t) (c : Ctx) (n : Nat) : t.freeSlot c n = s.freeSlot c n := by
  have read : ∀ ps, t.readPieces ps = s.readPieces ps := fun ps => by rw [State.readPieces, State.readPieces, mem_of_calm h]
  rw [State.freeSlot, State.freeSlot, State.slotPieces, State.slotPieces, range_of_calm h]
  split
  · rfl
  split
  · rfl
  · rw [read]

theorem still_putService (s : State) (c : Ctx) (va : Nat) (l : List (Nat × Nat × Nat)) : Still s (s.putService c va l) :=
  still_foldl _ _ (fun _ _ => still_deviceWrite _ _ _ _ _ _) s

theorem still_writeService (s : State) (c : Ctx) (g : Group) (w fn ticket : Nat) (l : List (Nat × Nat × Nat)) :
    Still s (s.writeService c g w fn ticket l) := by
  unfold State.writeService
  dsimp only
  split
  · exact ((still_putService _ _ _ _).trans (still_updCtx _ _ _ fun _ => by rfl)).trans (still_deviceWrite _ _ _ _ _ _)
  · exact (((still_putService _ _ _ _).trans (still_updCtx _ _ _ fun _ => by rfl)).trans (still_deviceWrite _ _ _ _ _ _)).trans
      (still_report _ _)

/-- The record of SVC, and the ticket for its live members (R331). -/
def SvcOps.serve (x : SvcOps) (ticket : Nat) (e : Gen) (vals : Vals) (t : State) : State :=
  vals.foldl (fun t m => t.genWrite e { op := x.d } m.1 (regsOf 1 ticket false))
    (t.writeService e.c e.g (e.warps.headD 0) x.fn.val ticket
      (vals.map fun m => (m.1.pos, regsNat (m.2.getD 0 []), regsNat (m.2.getD 1 []))))

theorem still_serve (x : SvcOps) (ticket : Nat) (e : Gen) (vals : Vals) (t : State) : Still t (SvcOps.serve x ticket e vals t) :=
  (still_writeService _ _ _ _ _ _ _).trans (calm_foldl _ _ (fun _ _ => calm_genWrite _ _ _ _ _) _).still

theorem svcGen_serves {x : SvcOps} {r : GenRef} {e : Gen} {ticket : Nat} {ps : List (Nat × Nat)} (k : GenClear t r e (SvcOps.ops x))
    (live : t.genVals e (SvcOps.ops x) ≠ []) (free : t.freeSlot e.c (serviceBytes e.g.width) = some (ticket, ps))
    (cached : t.wbRange e.c (e.c.slotVa ticket) (serviceBytes e.g.width) = false)
    (stalled : t.deviceStalled e.c (e.c.slotVa ticket) (serviceBytes e.g.width) = false) :
    t.svcGen x r = t.genPerformed e (SvcOps.ops x) (SvcOps.serve x ticket) := by
  have some_ : (t.genVals e (SvcOps.ops x)).isEmpty = false := by simpa using live
  rw [State.svcGen, runGen_clear k]
  · apply genPerformed_congr
    simp only [some_, freeSlot_of_calm (calm_genAfter t e (SvcOps.ops x)), free, Bool.false_eq_true, if_false]
    rfl
  · simp only [svcGate, some_, free, cached, stalled, Bool.or_self, Bool.false_eq_true, if_false]

end Service

/-! ### SVC.WAIT -/

/-- SVC.WAIT when each ticket's reply stands (R332). -/
theorem execSvcWait_ready {x : OpDA} {s : State} {i : Iss} :
    let sh := svcWaitShape x
    let reply := fun (t : State) (m : Nat × List (List Reg)) => t.reply i.c m.1 (BitVec.ofNat 32 (regsNat (m.2.headD [])))
    Clear s i x.h sh → s.outstanding i = false → (∀ m ∈ (s.sees i x.h sh).vals, ∃ r slot, reply (s.afterRead i x.h sh) m = .ready r slot) →
    execSvcWait x s = .next (s.performed i x.h sh 1 fun i k t =>
      (t.takeReplies i.g i.r.w x.d k.uni k.ts (k.vals.map fun m => (m.1, reply t m)), .next [])) := by
  intro sh reply c quiet ready
  refine outstanding_body c _ _ _ _ quiet ?_
  have answered : ∀ p ∈ (s.sees i x.h sh).vals.map fun m => (m.1, reply (s.afterRead i x.h sh) m), ∃ r slot, p.2 = .ready r slot := by
    intro p hp
    obtain ⟨m, hm, rfl⟩ := List.mem_map.mp hp
    exact ready m hm
  dsimp only
  split
  next none_ =>
    rw [List.flatMap_eq_nil_iff.mpr, trapAll_nil]
    intro p hp
    obtain ⟨r, slot, hr⟩ := answered p.2 (List.of_mem_zip hp).2
    rw [hr]
  next va waits =>
    obtain ⟨p, hp, hva⟩ := List.exists_of_findSome?_eq_some waits
    obtain ⟨r, slot, hr⟩ := answered p hp
    rw [hr] at hva
    cases hva

theorem execSvc_serves {x : SvcOps} {s : State} {i : Iss} {e : Gen} {ticket : Nat} {ps : List (Nat × Nat)} :
    let u := s.withSignature i (.svc x) x.h x.cv
    SignClear s i x.h (SvcOps.ops x).shape x.cv true → GenClear u ⟨i.r.g, x.cv, i.r.w⟩ e (SvcOps.ops x) → u.genVals e (SvcOps.ops x) ≠ [] →
    u.freeSlot e.c (serviceBytes e.g.width) = some (ticket, ps) → u.wbRange e.c (e.c.slotVa ticket) (serviceBytes e.g.width) = false →
    u.deviceStalled e.c (e.c.slotVa ticket) (serviceBytes e.g.width) = false →
    execSvc x s = .next (u.genPerformed e (SvcOps.ops x) (SvcOps.serve x ticket)) := by
  intro u c k live free cached stalled
  exact signAt_completes c _ rfl (svcGen_serves k live free cached stalled) fun _ _ => still_serve ..

/-- Settles O20: a free slot lets the generation through, and where every reply stands no position waits or errs. -/
theorem serviceCompletes : Obligations.ServiceCompletes :=
  ⟨fun _ _ _ _ _ _ => execSvc_serves, fun _ _ _ => execSvcWait_ready⟩

end Sys2Proof.Machine
end

section
/-! PROOFS. The ZF instructions on counters, peers and embers (R353, R355, R366, R367, R371, R374, R379). -/

namespace Sys2Proof.Machine

section Counters
variable {s : State} {i : SIss}

/-- CWAIT goes on, or waits with its bound (R379). -/
theorem execCwait_completes {x : ZfWait} {v : Nat} :
    let va := (i.q.reg x.a).toNat
    let u := (s.countIssue i).seqTouch i.c i.n va
    let t := if (i.q.reg x.b).toNat ≤ v then u.seqNext i (i.q.pc + 4) id
      else u.updSeq i.n fun q => { q with wait := some (i.q.reg x.a, i.q.reg x.b), timer := 0 }
    s.siss? = some i → x.scope.val < 6 → (s.countIssue i).seqCounter i.c va = .ok v → s.arrives (seqKey i.n) 1 t →
    execCwait x s = .next (t.arrive (seqKey i.n)) := by
  intro va u t hi scope value harr
  refine withSeqMem_arrives hi ?_ harr
  dsimp only
  rw [if_neg (by omega), value]
  exact (apply_ite Host.Outcome.next _ _ _).symm

/-- CADV raises VALUE to the larger (R379). -/
theorem execCadv_raises {x : ZfAdv} {l : CtrLoc} :
    let va := (i.q.reg x.a).toNat
    let u := s.countIssue i
    let v := (u.holdRange i.c (va / 16 * 16) 16).ctrPut l 0 (leBytes 8 (max (u.ctrGet l).1 (i.q.reg x.b).toNat)) (u.ctrGet l).2.2
    let t := (match l with
      | .phys pa => ((v.served (pa / 1024) 1 false).watch true true pa 8 5 (i.n / 8)).1
      | .scratch _ _ => v).seqNext i (i.q.pc + 4) id
    s.siss? = some i → x.scope.val < 6 → u.ctrStalled i.c va = false → u.engineCtr i.c va = .ok l → s.arrives (seqKey i.n) 1 t →
    execCadv x s = .next (t.arrive (seqKey i.n)) := by
  intro va u v t hi scope stalled counter harr
  refine withSeqMem_arrives hi ?_ harr
  dsimp only
  rw [if_neg (by omega), stalled, counter]
  cases l <;> rfl

theorem execCadd_adds {x : ZfAdv} :
    let va := (i.q.reg x.a).toNat
    let u := s.countIssue i
    let t := (u.advance i.q.ctx va (i.q.reg x.b).toNat 8 (i.n / 8)).seqNext i (i.q.pc + 4) id
    s.siss? = some i → x.scope.val < 6 → u.ctrStalled i.c va = false → s.arrives (seqKey i.n) 1 t →
    execCadd x s = .next (t.arrive (seqKey i.n)) := by
  intro va u t hi scope stalled harr
  refine withSeqMem_arrives hi ?_ harr
  dsimp only
  rw [if_neg (by omega), stalled]
  rfl

/-- CADV.RMT holds its advance while puts that it covers are open, and hands it over otherwise (R353, R355). -/
theorem execCadvRmt_advances {x : ZfRmt} {s1 : State} {p : Peer} :
    let n := (i.q.reg x.d).toNat % 4096
    s.siss? = some i → n < i.c.npeer → (s.countIssue i).getPeer i n = .ok (s1, p) →
    let covers := if x.rel then s1.openPuts i n else []
    let s2 := (s1.openRemote i n p none 0).1
    let o := (s1.openRemote i n p none 0).2
    let k : Packet := { kind := .advance, dstIp := p.ip, srcIp := 0, jobId := p.jobId, src := Config.self, pdc := o.pdc, peer := n, psn := 0,
                        addr := i.q.reg x.a, bytes := [], poison := [], len := 8, value := i.q.reg x.b, rel := x.rel, rod := p.rod,
                        addrPoison := false, op := o.id }
    let s3 := s2.updRemote o.id fun o => { o with sent := true, left := 1 }
    let held := (s3.updRemote o.id fun o => { o with covers := covers, advance := some k }).seqNext i (i.q.pc + 4) id
    let gone := (s3.handOver o k).seqNext i (i.q.pc + 4) id
    (covers ≠ [] → s.arrives (seqKey i.n) 1 held → execCadvRmt x s = .next (held.arrive (seqKey i.n))) ∧
    (covers = [] → s3.sendRoom o.pdc ≠ 0 → s.arrives (seqKey i.n) 1 gone → execCadvRmt x s = .next (gone.arrive (seqKey i.n))) := by
  intro n hi known peer covers s2 o k s3 held gone
  refine ⟨fun some_ harr => withSeqMem_arrives hi ?_ harr, fun none_ room harr => withSeqMem_arrives hi ?_ harr⟩
  · dsimp only
    rw [if_neg (by omega), peer]
    exact if_pos some_
  · dsimp only
    rw [if_neg (by omega), peer]
    exact (if_neg (not_not_intro none_)).trans (if_neg room)

end Counters

section Embers
variable {s : State} {i : SIss}

/-- EMB.BIND takes an idle ember, or a new one, whose elements it zeroes (R366). -/
theorem execEmbBind_binds {x : ZfRegs} {s1 s2 : State} {e : Ember} :
    let h := (i.q.reg x.a).toNat % 65536
    let t := s2.seqSet i x.d (e.version.setWidth 64)
    s.siss? = some i → (s.countIssue i).getEmber i h = .ok s1 e → (e.state = 1 ∨ e.state = 3) →
    e.site = (i.q.reg x.b).toNat % 2 ^ 38 → e.broken = false →
    s1.seqWrites i.c i.n s1.stamp ((if e.state = 1 then [(e.base, List.replicate (e.nelem * e.size) ((0 : Byte), false))] else []) ++
      [(e.va, ({ e with state := 2, seqctx := i.n } : Ember).low.map fun b => (b, false))]) = .ok s2 →
    s.arrives (seqKey i.n) 1 t → execEmbBind x s = .next (t.arrive (seqKey i.n)) := by
  intro h t hi ember idle site whole writes harr
  refine withSeqMem_arrives hi ?_ harr
  have bindable : (decide (e.state ≠ 1) && decide (e.state ≠ 3)) = false := by
    rcases idle with new | idle <;> simp [*]
  dsimp only
  rw [ember]
  dsimp only
  rw [bindable, if_neg (by simp), if_neg (not_not_intro site), whole, if_neg (by simp), writes]

/-- EMB.FOLD adds the residuals to the elements and raises the version (R367). -/
theorem execEmbFold_folds {x : ZfFold} {s1 s2 s3 : State} {e : Ember} {own res : List (Byte × Bool)} :
    let h := (i.q.reg x.a).toNat % 65536
    let z := localSize x.lbf16
    let at_ := ((i.q.reg x.b).toNat + z * e.elo) % 2 ^ 64
    let t := s3.seqNext i (i.q.pc + 4) id
    s.siss? = some i → (s.countIssue i).getEmber i h = .ok s1 e → e.state = 4 → e.broken = false →
    s1.seqReads i.c i.n [(at_, z * e.nelem), (e.base, e.size * e.nelem)] = .ok (s2, [own, res]) →
    s2.seqWrites i.c i.n s2.stamp
      [(at_, elementBytes z (((elements z e.nelem own).zip (elements e.size e.nelem res)).map fun y =>
        (addRne (localSpec x.lbf16) ((localSpec x.lbf16).decode y.1.1) (e.spec.decode y.2.1), y.1.2 || y.2.2))),
        (e.va, ({ e with state := 0, version := e.version + 1 } : Ember).low.map fun b => (b, false))] = .ok s3 →
    s.arrives (seqKey i.n) 1 t → execEmbFold x s = .next (t.arrive (seqKey i.n)) := by
  intro h z at_ t hi ember sealed_ whole reads writes harr
  refine withSeqMem_arrives hi ?_ harr
  dsimp only
  rw [ember]
  dsimp only
  rw [if_neg (not_not_intro sealed_), whole, if_neg (by simp), reads]
  dsimp only
  generalize written : s2.seqWrites i.c i.n s2.stamp _ = r
  obtain rfl : r = .ok s3 := written.symm.trans writes
  rfl

theorem execZfDone_frees {t : State} (hi : s.siss? = some i) (idle : (s.countIssue i).idleEmbers i.n i.c = .ok t)
    (harr : s.arrives (seqKey i.n) 1 (t.dropSeq i.n)) : execZfDone s = .next ((t.dropSeq i.n).arrive (seqKey i.n)) := by
  refine withSeqMem_arrives hi ?_ harr
  rw [idle]

end Embers

/-- Settles O24: each instruction's access arrives with the state that its operands give. -/
theorem sequencerCountersAndEmbersComplete : Obligations.SequencerCountersAndEmbersComplete :=
  ⟨fun _ _ _ _ => execCwait_completes, fun _ _ _ _ => execCadv_raises, fun _ _ _ => execCadd_adds, fun _ _ _ _ _ => execCadvRmt_advances,
    fun _ _ _ _ _ _ => execEmbBind_binds, fun _ _ _ _ _ _ _ _ _ => execEmbFold_folds, fun _ _ _ => execZfDone_frees⟩

end Sys2Proof.Machine
end

section
/-! PROOFS. The transport: what arrives, and what is open (R345, R346, R353, R355, R492, R494, R497, R498, R501). -/

namespace Sys2Proof.Machine

/-! ### Packets that are applied -/

/-- The pieces of a write that a packet may make are no counter's, and writable. -/
theorem any_forbidden_eq_false {ps : List Piece} (allowed : ∀ p ∈ ps, attrCtr p.e.attr = false ∧ attrW p.e.attr = true) :
    ps.any (fun p => attrCtr p.e.attr || !(attrW p.e.attr)) = false ∧ ps.any (fun p => attrCtr p.e.attr) = false ∧
      ps.any (fun p => !(attrW p.e.attr)) = false := by
  simp only [List.any_eq_false]
  exact ⟨fun p hp => by simp [allowed p hp], fun p hp => by simp [allowed p hp], fun p hp => by simp [allowed p hp]⟩

section Arrivals
variable {s : State} {i : Nat} {a : Arrived} {c : Ctx} {ps : List Piece}

theorem execPutPacketReceive_writes (arrived : s.arrived? i .put = some a) (applies : s.fate a.packet = .apply)
    (receiver : s.receiver a.packet.jobId = some c) (clean : a.packet.addrPoison = false)
    (pieces : s.piecesAt c none (piecesOf a.packet.addr.toNat a.packet.bytes.length) = .ok ps)
    (allowed : ∀ p ∈ ps, attrCtr p.e.attr = false ∧ attrW p.e.attr = true) (stalled : s.packetStalled i = false) (wb : wbPiece ps = false)
    (owned : s.ownedPieces ps = false) :
    let t := (s.engineWrite 1 5 a.port ps (packetBytes a.packet)).delivered a
    s.arrives (packetKey i) 1 t → execPutPacketReceive i s = .next (t.arrive (packetKey i)) := by
  intro t harr
  refine attempt_arrives ?_ harr
  simp only [arrived, applies, receiver, clean, pieces, (any_forbidden_eq_false allowed).1, stalled, wb, owned, Bool.false_eq_true, if_false]
  rfl

theorem execGetRequestReceive_answers (arrived : s.arrived? i .getReq = some a) (applies : s.fate a.packet = .apply)
    (receiver : s.receiver a.packet.jobId = some c) (clean : a.packet.addrPoison = false)
    (pieces : s.piecesAt c none (piecesOf a.packet.addr.toNat a.packet.len) = .ok ps) (allowed : ∀ p ∈ ps, attrCtr p.e.attr = false) :
    let got := ps.foldl (fun (x : State × List (Byte × Bool)) p => ((x.1.agentRead 1 6 a.port p).1, x.2 ++ (x.1.agentRead 1 6 a.port p).2)) (s, [])
    let t := ((cutBytes (got.2.length + 1) got.2).zipIdx.foldl (fun t m => t.enqueue a.port { a.packet with
      kind := .getReply
      dstIp := a.packet.srcIp
      src := Config.self
      psn := BitVec.ofNat 32 m.2
      addr := a.packet.value + BitVec.ofNat 64 (4096 * m.2)
      bytes := m.1.map (·.1)
      poison := taggedAt m.1 }) got.1).delivered a
    s.arrives (packetKey i) 1 t → execGetRequestReceive i s = .next (t.arrive (packetKey i)) := by
  intro got t harr
  refine attempt_arrives ?_ harr
  have noCounter : ps.any (fun p => attrCtr p.e.attr) = false := List.any_eq_false.mpr fun p hp => by simp [allowed p hp]
  have noPoison : ¬a.packet.addrPoison = true := by simp [clean]
  simp only [arrived, applies, receiver, pieces, noCounter, if_neg noPoison, Bool.false_eq_true, if_false]
  rfl

theorem execGetReplyReceive_writes {o : RemoteOp} (arrived : s.arrived? i .getReply = some a) (remote : s.remote? a.packet.op = some o)
    (get : o.get = true) :
    let d := s.delivery a.packet.src (replyStream a.packet.op)
    d.has a.packet.psn = false → s.ctx? o.ctx = some c →
    s.piecesAt c none (piecesOf a.packet.addr.toNat a.packet.bytes.length) = .ok ps →
    (∀ p ∈ ps, attrCtr p.e.attr = false ∧ attrW p.e.attr = true) → s.packetStalled i = false → wbPiece ps = false → s.ownedPieces ps = false →
    let t := ((((s.engineWrite 1 5 a.port ps (packetBytes a.packet)).setDelivery (d.take a.packet.psn)).dropArrived i).updRemote o.id fun o =>
      { o with left := o.left - a.packet.bytes.length }).settleOp o.id
    s.arrives (packetKey i) 1 t → execGetReplyReceive i s = .next (t.arrive (packetKey i)) := by
  intro d new ctx pieces allowed stalled wb owned t harr
  refine attempt_arrives ?_ harr
  obtain ⟨-, noCounter, writable⟩ := any_forbidden_eq_false allowed
  simp only [arrived, remote, get, show (s.delivery a.packet.src (replyStream a.packet.op)).has a.packet.psn = false from new, ctx, pieces,
    noCounter, writable, stalled, wb, owned, Bool.not_true, Bool.or_self, Bool.false_eq_true, if_false]
  rfl

/-- An advance raises its counter to the larger (R353, R379). -/
theorem execRemoteAdvanceReceive_raises {e : TlbEntry} (arrived : s.arrived? i .advance = some a) (applies : s.fate a.packet = .apply)
    (receiver : s.receiver a.packet.jobId = some c) (clean : a.packet.addrPoison = false) :
    let va := a.packet.addr.toNat / 16 * 16
    s.translate c va = .ok e → attrCtr e.attr = true → attrW e.attr = true → s.packetStalled i = false → attrWb e.attr = false →
    let t := ((((s.holdRange c va 16).ctrPut (.phys (e.pa va)) 0 (leBytes 8 (max (s.ctrGet (.phys (e.pa va))).1 a.packet.value.toNat))
      (s.ctrGet (.phys (e.pa va))).2.2).watch true true (e.pa va) 8 6 a.port).1).delivered a
    s.arrives (packetKey i) 1 t → execRemoteAdvanceReceive i s = .next (t.arrive (packetKey i)) := by
  intro va translates counter writable stalled wb t harr
  refine attempt_arrives ?_ harr
  simp only [arrived, applies, receiver, clean, show s.translate c (a.packet.addr.toNat / 16 * 16) = .ok e from translates, counter, writable,
    stalled, wb, Bool.and_self, Bool.not_true, Bool.false_eq_true, if_false]
  rfl

end Arrivals

/-! ### What is open -/

section Open
variable {s : State} {pdc : Nat} {psn : W32} {a : Arrived} {u : Unacked}

theorem execTransportAckReceive_frees (answered : s.answered .ack pdc psn 0 = some a)
    (isOpen : ((s.dropArrived a.i).pdc? pdc).bind (fun d => d.unacked.find? fun u => u.packet.psn = psn) = some u) :
    let v := (s.dropArrived a.i).updPdc pdc fun d => { d with unacked := d.unacked.filter fun u => u.packet.psn ≠ psn }
    let t := (if u.packet.kind = .getReq then v else v.updRemote u.packet.op fun o => { o with left := o.left - 1 }).settleOp u.packet.op
    s.arrives (packetKey a.i) 1 t → execTransportAckReceive pdc psn s = .next (t.arrive (packetKey a.i)) := by
  intro v t harr
  unfold execTransportAckReceive
  rw [answered]
  refine attempt_arrives ?_ harr
  dsimp only
  rw [isOpen]

/-- A NACK that has a reason stops the operation of its packet (R497, R498). -/
theorem execTransportNackReceive_stops {kind : Nat} {o : RemoteOp} (answered : s.answered .nack pdc psn kind = some a) :
    let t := s.dropArrived a.i
    (t.pdc? pdc).bind (fun d => d.unacked.find? fun u => u.packet.psn = psn) = some u → kind ≠ 0 →
    let v := t.updPdc pdc fun d => { d with unacked := d.unacked.filter fun u => u.packet.psn ≠ psn }
    v.remote? u.packet.op = some o → o.dropped = false →
    let w := (v.updRemote o.id fun o => { o with
      refused := if o.dropped then o.refused else o.refused ++ [u.packet] }).stopOp o 0x45 u.packet.addr.toNat (kind % 16 + o.peer * 16)
    s.arrives (packetKey a.i) 1 w → execTransportNackReceive pdc psn kind s = .next (w.arrive (packetKey a.i)) := by
  intro t isOpen reason v remote goes w harr
  unfold execTransportNackReceive
  rw [answered]
  refine attempt_arrives ?_ harr
  dsimp only
  rw [isOpen]
  dsimp only
  rw [if_neg reason, remote]
  dsimp only
  rw [goes, if_neg (by simp)]

theorem execTransportResendTimeout_resends {d : Pdc} (known : s.pdc? pdc = some d)
    (late : d.unacked.find? (fun u => u.packet.psn = psn && resendAge ≤ u.age) = some u) (few : u.resends < 4) :
    execTransportResendTimeout pdc psn s = .next (s.resend pdc psn) := by
  have more : decide (4 ≤ u.resends) = false := decide_eq_false (by omega)
  simp only [execTransportResendTimeout, known, Option.bind_some, late, Option.map_some, more, Bool.false_and, Bool.false_eq_true, if_false]

/-- A held advance goes out when each operation that it covers is whole (R355). -/
theorem execRemoteAdvanceSend_sends {id : Nat} {o : RemoteOp} {k : Packet} (remote : s.remote? id = some o) (held : o.advance = some k)
    (whole : ∀ c ∈ o.covers, ∀ p, s.remote? c = some p → p.sent = true ∧ p.left = 0 ∧ p.refused = []) (room : s.sendRoom o.pdc ≠ 0) :
    execRemoteAdvanceSend id s = .next ((s.updRemote id fun o => { o with advance := none }).handOver o k) := by
  simp only [execRemoteAdvanceSend, remote, held]
  refine if_neg ?_
  simp only [Bool.or_eq_true, List.any_eq_true, decide_eq_true_eq, not_or, room, not_false_eq_true, and_true]
  rintro ⟨c, hc, isOpen⟩
  split at isOpen
  next p hp =>
    obtain ⟨sent, left, refused⟩ := whole c hc p hp
    simp [sent, left, refused] at isOpen
  · cases isOpen

end Open

/-! ### Waits of sequencers -/

section Waits
variable {s : State} {n : Nat} {q : Seq} {c : Ctx} {a v : W64} {x : Nat}

theorem execCwaitComplete_goesOn (waits : s.seqWaits n = some (q, c, a, v)) (value : s.seqCounter c a.toNat = .ok x) (reached : v.toNat ≤ x) :
    let t := (s.seqTouch c n a.toNat).seqNext { n := n, q := q, c := c } (q.pc + 4) id
    s.arrives (seqKey n) 1 t → execCwaitComplete n s = .next (t.arrive (seqKey n)) := by
  intro t harr
  simp only [execCwaitComplete, waits, value, if_pos reached]
  exact attempt_arrives rfl harr

theorem execSequencerWaitExpiry_stops (waits : s.seqWaits n = some (q, c, a, v)) (value : s.seqCounter c a.toNat = .ok x) (short : x < v.toNat)
    (expired : 2 ^ c.starvLim ≤ q.timer) :
    execSequencerWaitExpiry n s = .next ((s.updSeq n fun q => { q with wait := none, timer := 0 }).seqStop { n := n, q := q, c := c } 0x4A
      a.toNat c.starvLim) := by
  simp only [execSequencerWaitExpiry, waits, value]
  exact if_neg (by simp; omega)

end Waits

/-- Settles O37: the conditions lead each event to its effect. -/
theorem transportEventsComplete : Obligations.TransportEventsComplete :=
  ⟨fun _ _ _ _ _ => execPutPacketReceive_writes, fun _ _ _ _ _ => execGetRequestReceive_answers,
    fun _ _ _ _ _ _ => execGetReplyReceive_writes, fun _ _ _ _ _ => execRemoteAdvanceReceive_raises,
    fun _ _ _ _ _ => execTransportAckReceive_frees, fun _ _ _ _ _ _ _ => execTransportNackReceive_stops,
    fun _ _ _ _ _ => execTransportResendTimeout_resends, fun _ _ _ _ => execRemoteAdvanceSend_sends,
    fun _ _ _ _ _ _ _ => execCwaitComplete_goesOn, fun _ _ _ _ _ _ _ => execSequencerWaitExpiry_stops⟩

end Sys2Proof.Machine
end

section
/-! PROOFS. The link of a port (R343, R345, R348 to R350, R384, R490 to R493). -/

namespace Sys2Proof.Machine

theorem port_updPort (s : State) (n : Nat) (f : Port → Port) (m : Nat) :
    (s.updPort n f).port m = if m = n then f (s.port n) else s.port m :=
  sget_sset Port.reset s.ports n m (f (s.port n))

/-! ### A frame is sent -/

/-- The ports, the groups, the programs and the contexts: what a request of memory leaves alone. -/
def State.quiet (s : State) : List (Nat × Port) × List Group × List (Nat × Seq) × List Ctx := (s.ports, s.groups, s.seqs, s.ctxs)

section Quiet
variable (s : State)

@[simp] theorem quiet_served (x cls : Nat) (turned : Bool) : (s.served x cls turned).quiet = s.quiet := by
  unfold State.served
  split <;> rfl

theorem quiet_portLines (write : Bool) (pa n : Nat) : (s.portLines write pa n).quiet = s.quiet :=
  List.foldlRecOn (linesOf pa n) _ (motive := fun t : State => t.quiet = s.quiet) rfl fun _ ht _ _ => (quiet_served _ _ _ _).trans ht

theorem quiet_putFrame (pa n : Nat) : (s.putFrame pa n).quiet = s.quiet := quiet_portLines s true pa n

end Quiet

/-- The port takes the packet: the frame is stored, and its packet's age starts anew (R351, R352, R494). -/
def State.frame (s : State) (port : Nat) (k : Packet) : State :=
  let p := s.port port
  let f := p.frameOf k
  let v := s.updPort port fun p => p.take f
  let v := if p.mode = 2 then v.putFrame (p.slotPa f) f.len else v
  match k.kind with
  | .put | .getReq | .advance => v.updPdc k.pdc fun d => d.updUnacked k.psn fun u => { u with age := 0 }
  | .getReply | .ack | .nack => v

section Frames
variable {s : State} {port : Nat} {k : Packet}

theorem quiet_frame : (s.frame port k).quiet = (s.updPort port fun p => p.take ((s.port port).frameOf k)).quiet := by
  have stored : ∀ (v : State) pa n, (if (s.port port).mode = 2 then v.putFrame pa n else v).quiet = v.quiet := fun v pa n => by
    split
    · exact quiet_putFrame v pa n
    · rfl
  unfold State.frame
  dsimp only
  split <;> exact stored _ _ _

theorem mem_frame (onDie : (s.port port).mode ≠ 2) : (s.frame port k).mem = s.mem := by
  unfold State.frame
  dsimp only
  rw [if_neg onDie]
  split <;> rfl

/-- The port that sends a frame has taken it, and nothing of another port, of a group, of a program or of a context changes. -/
theorem frame_spec (s : State) (port : Nat) (k : Packet) :
    (s.frame port k).port port = (s.port port).take ((s.port port).frameOf k) ∧ (∀ q, q ≠ port → (s.frame port k).port q = s.port q) ∧
      (s.frame port k).groups = s.groups ∧ (s.frame port k).seqs = s.seqs ∧ (s.frame port k).ctxs = s.ctxs := by
  have same := quiet_frame (s := s) (port := port) (k := k)
  simp only [State.quiet, Prod.mk.injEq] at same
  obtain ⟨ports, groups, seqs, ctxs⟩ := same
  have here : ∀ q, (s.frame port k).port q = _ := fun q => (congrArg (sget Port.reset · q) ports).trans (port_updPort s port _ q)
  exact ⟨(here port).trans (if_pos rfl), fun q other => (here q).trans (if_neg other), groups, seqs, ctxs⟩

theorem execFrameSend_sends (may : (s.port port).maySend = true) (next : (s.port port).nextPacket = some k) :
    let t := (((s.frame port k).send (.frame port ((s.port port).frameOf k))).count 4 port 0 1).checkPn port
    s.arrives (portKey port) 1 t → execFrameSend port s = .next (t.arrive (portKey port)) := by
  intro t harr
  simp only [execFrameSend, may, if_true, next]
  exact attempt_arrives rfl harr

end Frames

/-! ### A frame arrives -/

section Receive
variable {s : State} {port : Nat} {f : Frame}

/-- The frame is next in order, under a key that is valid (R348, R350). -/
structure Port.Expects (p : Port) (f : Frame) : Prop where
  takes : p.takes = true
  trained : p.retrain = none
  inOrder : f.lsn = p.rxLsn
  key : (p.key f.an.val).valid = true

/-- The frame is handed on (R350, R492). -/
def State.accepted (s : State) (port : Nat) (f : Frame) : State :=
  let p := s.port port
  let u := s.fresh.1.updPort port fun p => p.accept f
  let buf := if p.mode = 2 then some (p.bufPa f.lsn) else none
  let v := match buf with | some pa => u.putFrame pa f.len | none => u
  ({ v with net := { v.net with arrived := v.net.arrived ++
    [{ i := s.stamp, port := port, packet := f.packet, control := f.control, len := f.len, buf := buf }] } } : State).count 4 port 1 1

theorem execFrameReceive_accepts (expected : (s.port port).Expects f) (authentic : f.authentic = true)
    (fresh : (sget 1 (s.port port).rxPn f.an.val).toNat ≤ f.pn.toNat) (harr : s.arrives (portKey port) 1 (s.accepted port f)) :
    execFrameReceive port f s = .next ((s.accepted port f).arrive (portKey port)) := by
  obtain ⟨takes, trained, inOrder, key⟩ := expected
  have replayOk : (s.port port).replayOk f = true := decide_eq_true fresh
  simp only [execFrameReceive, takes, trained, if_neg (not_not_intro inOrder), key, authentic, replayOk, Option.isSome_none, Bool.not_true,
    Bool.or_self, Bool.false_eq_true, if_false]
  exact attempt_arrives rfl harr

theorem badFrames_sendNack (s : State) (port : Nat) : ((s.sendNack port).port port).badFrames = (s.port port).badFrames := by
  have nacked := (port_updPort s port (fun p => { p with nacked := true }) port).trans (if_pos rfl)
  exact (congrArg Port.badFrames nacked :)

/-- A frame that is not authentic, or is late, is not handed on: the link answers with a NACK (R348, R349). -/
theorem execFrameReceive_nacks (expected : (s.port port).Expects f)
    (bad : f.authentic = false ∨ f.pn.toNat < (sget 1 (s.port port).rxPn f.an.val).toNat) (few : (s.port port).badFrames < 7) :
    execFrameReceive port f s = .next ((s.updPort port fun p => { p with badFrames := p.badFrames + 1 }).sendNack port) := by
  obtain ⟨takes, trained, inOrder, key⟩ := expected
  have refused : (!f.authentic || !(s.port port).replayOk f) = true := by
    rcases bad with forged | late
    · simp [forged]
    · have replayed : (s.port port).replayOk f = false := decide_eq_false (Nat.not_le.mpr late)
      rw [replayed, Bool.not_false, Bool.or_true]
  have counted : (((s.updPort port fun p => { p with badFrames := p.badFrames + 1 }).sendNack port).port port).badFrames =
      (s.port port).badFrames + 1 := by rw [badFrames_sendNack, port_updPort, if_pos rfl]
  simp only [execFrameReceive, takes, trained, if_neg (not_not_intro inOrder), key, refused, Option.isSome_none, Bool.not_true, Bool.or_self,
    Bool.false_eq_true, if_false, if_true]
  exact if_neg (by rw [counted]; omega)

end Receive

/-! ### Acknowledgements, replays, keys and lanes -/

section Link
variable {s : State} {port : Nat}

theorem execLinkAckSend_acks {n : W32} (up : (s.port port).up = true) (trained : (s.port port).retrain = none)
    (due : (s.port port).ackDue = some n) :
    execLinkAckSend port s = .next ((s.updPort port fun p => { p with ackDue := none, ackAge := 0 }).send (.linkAck port n)) := by
  simp only [execLinkAckSend, Port.mayAck, State.sendAck, up, trained, due, Option.isNone_none, Option.isSome_some, Bool.and_self, if_true]

theorem execLinkAckReceive_frees {n : W32} (up : (s.port port).up = true) (trained : (s.port port).retrain = none) :
    let p := s.port port
    let rest := p.store.filter fun f => !(lsnLe f.lsn n)
    execLinkAckReceive port n s = .next (if rest.length = p.store.length then s
      else s.updPort port fun p => { p with store := rest, timer := 0, resends := 0, tx := if p.tx = .full then .open_ else p.tx }) := by
  intro p rest
  simp only [execLinkAckReceive, up, trained, Option.isSome_none, Bool.not_true, Bool.or_self, Bool.false_eq_true, if_false]
  exact (apply_ite Host.Outcome.next _ _ _).symm

theorem execLinkNackReceive_replays {n : W32} (up : (s.port port).up = true) (trained : (s.port port).retrain = none)
    (stored : ((s.port port).store.any fun f => f.lsn = n) = true) (idle : (s.port port).tx ≠ .replaying)
    (harr : s.arrives (portKey port) 1 (s.replay port n true)) :
    execLinkNackReceive port n s = .next ((s.replay port n true).arrive (portKey port)) := by
  simp only [execLinkNackReceive, up, trained, stored, if_neg idle, Option.isSome_none, Bool.not_true, Bool.or_self, Bool.false_eq_true, if_false]
  exact attempt_arrives rfl harr

theorem execRetryTimeout_replays {f : Stored} (up : (s.port port).up = true) (trained : (s.port port).retrain = none)
    (idle : (s.port port).tx ≠ .replaying) (expired : (s.port port).rto ≤ (s.port port).timer) (oldest : (s.port port).store.head? = some f)
    (harr : s.arrives (portKey port) 1 (s.replay port f.lsn true)) :
    execRetryTimeout port s = .next ((s.replay port f.lsn true).arrive (portKey port)) := by
  simp only [execRetryTimeout, up, trained, decide_eq_true idle, decide_eq_true expired, Option.isNone_none, Bool.and_self, if_true, oldest]
  exact attempt_arrives rfl harr

theorem execReplayDone_opens (up : (s.port port).up = true) (trained : (s.port port).retrain = none) (replays : (s.port port).tx = .replaying) :
    execReplayDone port s = .next (s.updPort port fun p => { p with tx := if p.capacity ≤ p.store.length then .full else .open_ }) := by
  simp only [execReplayDone, up, trained, decide_eq_true replays, Option.isNone_none, Bool.and_self, if_true]

theorem execKeyRollover_rolls (up : (s.port port).up = true) (due : (s.port port).rollDue = true) : execKeyRollover port s =
    .next ((s.updPort port fun p => { p with txan := (p.txan + 1) % 4, switch_ := false, rolled := false }).checkPn port) := by
  simp only [execKeyRollover, up, due, Bool.and_self, if_true]

theorem execKeyloadApply_loads {tag : W32} {slot : Nat} {k : KeySlot} {sw : Bool} (load : (s.port port).load = some (tag, slot, k, sw))
    (free : (s.port port).slotFree slot = true) :
    execKeyloadApply port s = .next ((s.applyKey port slot k sw).tell { tag := tag, status := 0, value := 0, bytes := [] }) := by
  simp only [execKeyloadApply, load, if_pos free]

theorem execPortMode0Drain_ends {tag : W32} (waits : (s.port port).mode0 = some tag)
    (drained : (s.port port).store = [] ∨ (s.port port).failed = true) :
    execPortMode0Drain port s = .next ((s.updPort port Port.off).tell { tag := tag, status := 0, value := 0, bytes := [] }) := by
  simp only [execPortMode0Drain, waits]
  exact if_pos (by simpa using drained)

theorem execLaneLockLoss_retrains {lanes : BitVec 4} (up : (s.port port).up = true) (some_ : lanes ≠ 0) :
    execLaneLockLoss port lanes s = .next (s.updPort port fun p =>
      { p with retrain := some (p.retrain.getD 0), lost := if p.retrain.isSome then p.lost ||| lanes else lanes }) := by
  have goes : (!(s.port port).up || decide (lanes = 0)) = false := by rw [up, decide_eq_false some_]; rfl
  rw [execLaneLockLoss, goes, if_neg (by simp)]

/-- The lanes are back: the loss is recorded, and what is stored goes out again (R343, R491). -/
def State.retrained (s : State) (port : Nat) : State :=
  let u := s.updPort port fun p => { p with retrain := none, lost := 0 }
  let v := u.report (u.portErr port 0x40 6 0 (s.port port).lost.toNat)
  match (s.port port).store.head? with
  | some f => v.replay port f.lsn false
  | none => v

theorem execRetrainComplete_replays {n : Nat} (trains : (s.port port).retrain = some n) (soon : n ≤ retrainLimit)
    (harr : s.arrives (portKey port) 1 (s.retrained port)) : execRetrainComplete port s = .next ((s.retrained port).arrive (portKey port)) := by
  simp only [execRetrainComplete, trains, if_neg (Nat.not_lt.mpr soon)]
  refine attempt_arrives ?_ harr
  unfold State.retrained
  cases (s.port port).store.head? <;> rfl

theorem execRetrainTimeout_fails {n : Nat} (trains : (s.port port).retrain = some n) (late : retrainLimit ≤ n) :
    execRetrainTimeout port s = .next (s.failPort port 0x41 0 1) := by
  simp only [execRetrainTimeout, trains, if_pos late]

theorem execCreditGrant_grants {control : Bool} {units : Nat} (on : (s.port port).mode ≠ 0) :
    execCreditGrant port control units s = .next (s.updPort port fun p =>
      if control then { p with ctlCredits := p.ctlCredits + units } else { p with datCredits := p.datCredits + units }) :=
  if_neg on

end Link

/-- Settles O36: the conditions lead each event to its effect; the port that sends a frame has taken it. -/
theorem linkEventsComplete : Obligations.LinkEventsComplete := by
  refine ⟨fun port s k => ?sends, fun port f s => ?receives, fun _ _ _ => execLinkAckSend_acks, fun _ _ _ => execLinkAckReceive_frees,
    fun _ _ _ => execLinkNackReceive_replays, fun _ _ _ => execRetryTimeout_replays, fun _ _ => execReplayDone_opens,
    fun _ _ => execKeyRollover_rolls, fun _ _ _ _ _ _ => execKeyloadApply_loads, fun _ _ _ => execPortMode0Drain_ends,
    fun _ _ _ => execLaneLockLoss_retrains, fun _ _ _ => execRetrainComplete_replays, fun _ _ _ => execRetrainTimeout_fails,
    fun _ _ _ _ => execCreditGrant_grants⟩
  case sends =>
    intro p may next
    obtain ⟨here, other, groups, seqs, ctxs⟩ := frame_spec s port k
    refine ⟨execFrameSend_sends may next, ?_⟩
    have taken : ∀ {α : Type} (g : Port → α), g ((s.frame port k).port port) = g ((s.port port).take ((s.port port).frameOf k)) := fun g =>
      congrArg g here
    exact ⟨taken Port.nextLsn, taken Port.store, taken Port.ctlQ, taken Port.datQ, taken Port.ctlCredits, taken Port.datCredits, other,
      mem_frame, groups, seqs, ctxs⟩
  case receives =>
    intro p takes trained inOrder key
    have expected : (s.port port).Expects f := ⟨takes, trained, inOrder, key⟩
    exact ⟨execFrameReceive_accepts expected, execFrameReceive_nacks expected⟩

end Sys2Proof.Machine
end

section
/-! PROOFS. The commands on ports, keys, sparks and power (R343, R344, R348, R382, R384, R387, R390, R391). -/

namespace Sys2Proof.Machine

/-! ### Commands that are not answered yet -/

/-- What holds of a value that is read and not of the default holds of a value that is stored. -/
theorem any_of_sget {α : Type} {d : α} {p : α → Bool} (default : p d = false) {n : Nat} :
    ∀ {l : List (Nat × α)}, p (sget d l n) = true → l.any (fun x => p x.2) = true
  | [], h => by rw [sget, default] at h; cases h
  | (k, v) :: l, h => by
    rw [sget] at h
    rw [List.any_cons, Bool.or_eq_true]
    split at h
    · exact .inl h
    · exact .inr (any_of_sget default h)

/-- A port that holds a key load or a MODE 0 write keeps the command busy (R382, R384). -/
theorem akoonBusy_of_port {s : State} {n : Nat} (h : ((s.port n).load.isSome || (s.port n).mode0.isSome) = true) : s.akoonBusy = true :=
  any_of_sget (p := fun p : Port => p.load.isSome || p.mode0.isSome) rfl h

/-- A device that takes commands takes one that it holds. -/
theorem akoon_holds {s t : State} {i : Instr} {h : AkHdr} {f : State → Result} (hs : s.takesCommand) (hf : f s = .next t)
    (busy : t.akoonBusy = true) (mail : t.mail = s.mail) : akoon i h s f = .next t := by
  obtain ⟨ready, idle, inbox, free⟩ := hs
  obtain ⟨waiting, _⟩ := Prod.mk.inj mail
  have takes : s.took t = true := by rw [State.took, busy, Bool.or_true]
  simp [akoon, ready, idle, inTurn_of_empty inbox, free, hf, takes, unqueue_of_empty (waiting.trans inbox)]

theorem mail_updPort (s : State) (n : Nat) (f : Port → Port) : (s.updPort n f).mail = s.mail := rfl

/-! ### What a key load leads to answers no command -/

section Mail
variable (s : State)

theorem mail_stopProg (key agent ctx : Nat) (pc : W64) (cls addr detail : Nat) : (s.stopProg key agent ctx pc cls addr detail).mail = s.mail := by
  unfold State.stopProg
  dsimp only
  cases folded : s.folds ctx with
  | some t => exact (mail_folds s folded :)
  | none => exact (mail_emit s _ :)

theorem mail_stopOp (o : RemoteOp) (cls addr detail : Nat) : (s.stopOp o cls addr detail).mail = s.mail :=
  mail_stopProg s _ _ _ _ _ _ _

theorem mail_resend (pdc : Nat) (psn : W32) : (s.resend pdc psn).mail = s.mail := by
  unfold State.resend
  split
  · rfl
  split
  · rfl
  split
  · rfl
  dsimp only
  split
  · split
    · rfl
    · exact mail_stopOp _ _ _ _ _
  · rfl

theorem mail_rehome (k : Packet) : (s.rehome k).mail = s.mail := by
  unfold State.rehome
  split
  · rfl
  · rfl
  · split <;> rfl
  all_goals exact mail_resend s _ _

theorem mail_failPort (n cls addr detail : Nat) : (s.failPort n cls addr detail).mail = s.mail :=
  (mail_report _ _).trans (mail_states _ (fun t k => mail_rehome t k) _)

theorem mail_checkPn (n : Nat) : (s.checkPn n).mail = s.mail := by
  unfold State.checkPn
  dsimp only
  split
  · rfl
  split
  · exact mail_failPort s _ _ _ _
  split
  · exact mail_report _ _
  · rfl

theorem mail_applyKey (port slot : Nat) (k : KeySlot) (sw : Bool) : (s.applyKey port slot k sw).mail = s.mail := mail_checkPn _ port

end Mail

/-! ### The commands -/

section Commands
variable {s : State}

/-- The record of a PORTCFG that no check refuses: the mode is one that the port has, it changes no other field of a port that is
on, and its memory is laid out as MODE 2 asks (R343, R344). -/
structure PortSound (x : AkPort) (s : State) : Prop where
  port : x.port < Config.ports
  length : x.record.length = 64
  mode : leNat x.record % 4 ≠ 3
  same : (s.port x.port).mode ≠ 0 → (s.port x.port).differs (leNat x.record) = false
  longReach : leNat x.record % 4 = 2 → s.longReachBad x.port (leNat x.record) = false ∧ longReachOut (leNat x.record) = false

theorem mode_of_record (v : Nat) : bits v 1 0 = v % 4 := by
  simp [Laws.Encoding.bits_eq]

/-- The checks of a sound record pass. -/
theorem PortSound.passes {x : AkPort} (hx : PortSound x s) :
    (decide (Config.ports ≤ x.port) || decide (x.record.length ≠ 64) || decide (bits (leNat x.record) 1 0 = 3)) = false ∧
    (decide ((s.port x.port).mode ≠ 0) && (s.port x.port).differs (leNat x.record)) = false ∧
    (decide (bits (leNat x.record) 1 0 = 2) && s.longReachBad x.port (leNat x.record)) = false ∧
    (decide (bits (leNat x.record) 1 0 = 2) && longReachOut (leNat x.record)) = false := by
  obtain ⟨port, length, mode, same, longReach⟩ := hx
  rw [mode_of_record]
  refine ⟨?_, ?_, ?_, ?_⟩
  · rw [decide_eq_false (Nat.not_le.mpr port), decide_eq_false (not_not_intro length), decide_eq_false mode]
    rfl
  · by_cases off : (s.port x.port).mode = 0
    · rw [decide_eq_false (not_not_intro off), Bool.false_and]
    · rw [same off, Bool.and_false]
  · by_cases two : leNat x.record % 4 = 2
    · rw [(longReach two).1, Bool.and_false]
    · rw [decide_eq_false two, Bool.false_and]
  · by_cases two : leNat x.record % 4 = 2
    · rw [(longReach two).2, Bool.and_false]
    · rw [decide_eq_false two, Bool.false_and]

section Ports
variable {x : AkPort} (hs : s.takesCommand) (hx : PortSound x s)
include hs hx

theorem execPortcfg_configures (on : leNat x.record % 4 ≠ 0 ∨ (s.port x.port).mode = 0) :
    execPortcfg x s = .next ((s.updPort x.port fun p =>
      (if p.mode = 0 ∧ leNat x.record % 4 ≠ 0 then p.restart else p).configure (leNat x.record)).tell (replyTo x.h 0 [])) := by
  refine akoon_answers hs ?_ (mail_updPort _ _ _)
  obtain ⟨whole, same, long, inside⟩ := hx.passes
  have stays : (decide (bits (leNat x.record) 1 0 = 0) && decide ((s.port x.port).mode ≠ 0)) = false := by
    rw [mode_of_record, Bool.and_eq_false_iff, decide_eq_false_iff_not, decide_eq_false_iff_not, Decidable.not_not]
    exact on
  dsimp only
  rw [whole, same, long, inside, stays, if_neg (by simp), if_neg (by simp), if_neg (by simp), if_neg (by simp), if_neg (by simp)]
  simp only [mode_of_record, State.updPort, Bool.and_eq_true, decide_eq_true_eq]
  rfl

theorem execPortcfg_off (off : leNat x.record % 4 = 0) (on : (s.port x.port).mode ≠ 0)
    (drained : (s.port x.port).store = [] ∨ (s.port x.port).failed = true) :
    execPortcfg x s = .next ((s.updPort x.port Port.off).tell (replyTo x.h 0 [])) := by
  refine akoon_answers hs ?_ (mail_updPort _ _ _)
  obtain ⟨whole, same, long, inside⟩ := hx.passes
  dsimp only
  rw [whole, same, long, inside, mode_of_record, if_neg (by simp), if_neg (by simp), if_neg (by simp), if_neg (by simp),
    if_pos (by simp [off, on]), if_pos (by simpa using drained)]
  rfl

/-- MODE 0 waits until the stored frames are acknowledged (R343). -/
theorem execPortcfg_waits (off : leNat x.record % 4 = 0) (on : (s.port x.port).mode ≠ 0) (stored : (s.port x.port).store ≠ [])
    (works : (s.port x.port).failed = false) :
    execPortcfg x s = .next (s.updPort x.port fun p => { p with mode0 := some x.h.tag }) := by
  refine akoon_holds hs ?_ (akoonBusy_of_port (n := x.port) (by rw [port_updPort, if_pos rfl]; simp)) (mail_updPort _ _ _)
  obtain ⟨whole, same, long, inside⟩ := hx.passes
  dsimp only
  rw [whole, same, long, inside, mode_of_record, if_neg (by simp), if_neg (by simp), if_neg (by simp), if_neg (by simp),
    if_pos (by simp [off, on]), if_neg (by simp [stored, works])]

end Ports

/-- A key slot is loaded once no stored frame is under it (R348, R384). -/
theorem execKeyload_loads {x : AkKey} (hs : s.takesCommand) (port : x.port < Config.ports) (slot : x.slot < 4) :
    let k : KeySlot := { sak := x.sak, salt := x.salt, ssci := x.ssci, nextPn := x.nextPn, valid := true }
    execKeyload x s = .next (if ∀ f ∈ (s.port x.port).store, f.an ≠ x.slot
      then (s.applyKey x.port x.slot k x.switch).tell (replyTo x.h 0 [])
      else s.updPort x.port fun p => { p with load := some (x.h.tag, x.slot, k, x.switch) }) := by
  intro k
  have inside : (decide (Config.ports ≤ x.port) || decide (4 ≤ x.slot)) = false := by
    rw [decide_eq_false (Nat.not_le.mpr port), decide_eq_false (Nat.not_le.mpr slot)]
    rfl
  have unused : (s.port x.port).slotFree x.slot = true ↔ ∀ f ∈ (s.port x.port).store, f.an ≠ x.slot := by
    simp only [Port.slotFree, List.all_eq_true, decide_eq_true_eq]
  split
  next free =>
    refine akoon_answers hs ?_ (mail_applyKey s _ _ _ _)
    dsimp only
    rw [inside, if_neg (by simp), if_pos (unused.mpr free)]
    rfl
  next used =>
    refine akoon_holds hs ?_ (akoonBusy_of_port (n := x.port) (by rw [port_updPort, if_pos rfl]; simp)) (mail_updPort _ _ _)
    dsimp only
    rw [inside, if_neg (by simp), if_neg (mt unused.mp used)]

theorem execSnaprd_answers {x : AkSnap} {k : Snap} (hs : s.takesCommand) (block : x.block < blocksOf x.cls)
    (held : s.dev.snaps.find? (fun k => k.no = x.spark) = some k) :
    execSnaprd x s = .next (s.tell (replyTo x.h 0 (k.bytes x.cls x.block))) := by
  refine akoon_answers hs ?_ rfl
  rw [if_neg (Nat.not_le.mpr block), held]
  rfl

theorem execAkoonSpark_answers {x : AkVal} (hs : s.takesCommand) (value : x.value < 2 ^ 16) :
    execAkoonSpark x s = .next ((s.spark 3 x.value).1.tell (replyTo x.h (s.spark 3 x.value).2.toNat [])) :=
  akoon_answers hs (if_neg (Nat.not_le.mpr value)) (mail_spark s _ _)

theorem execPower_sets {x : AkVal} (hs : s.takesCommand) (value : x.value < 4) (empty : x.value = 3 → s.groups = []) :
    execPower x s = .next (({ s with dev := { s.dev with power := x.value } } : State).tell (replyTo x.h 0 [])) := by
  refine akoon_answers hs ?_ rfl
  rw [if_neg (Nat.not_le.mpr value), if_neg]
  · rfl
  · simpa using empty

end Commands

/-- Settles O29: each command passes its checks; a command that must wait leaves the port busy with it. -/
theorem portAndPowerCommandsComplete : Obligations.PortAndPowerCommandsComplete := by
  refine ⟨fun x s => ?_, fun _ _ => execKeyload_loads, fun _ _ _ => execSnaprd_answers,
    fun _ _ => execAkoonSpark_answers, fun _ _ => execPower_sets⟩
  intro v p mode hs port length known same longReach
  have hx : PortSound x s := ⟨port, length, known, same, longReach⟩
  exact ⟨execPortcfg_configures hs hx, execPortcfg_off hs hx, execPortcfg_waits hs hx⟩

end Sys2Proof.Machine
end

section
/-! PROOFS. Power-up, the resets, and codes that are no command (R382, R385, R386, R425, R426). -/

namespace Sys2Proof.Machine

/-! ### What a context's removal leads to answers no command -/

section Mail
variable (s : State)

theorem mail_advance (ctx va v acls agent : Nat) (via : Option TlbPlace) : (s.advance ctx va v acls agent via).mail = s.mail := by
  unfold State.advance
  dsimp only
  split
  · exact mail_deviceAdd ..
  · exact (mail_report _ _).trans (mail_deviceAdd ..)

theorem mail_settleOp (id : Nat) : (s.settleOp id).mail = s.mail := by
  unfold State.settleOp
  split
  · rfl
  split
  · dsimp only
    split
    · split
      · rfl
      · exact mail_advance ..
    · rfl
  · rfl

theorem mail_dropRemote (ctx : Nat) : (s.dropRemote ctx).mail = s.mail := by
  refine mail_states s (fun t o => ?_) _
  exact mail_settleOp _ o.id

theorem mail_haltCtx (ctx : Nat) (run : Running) : (s.haltCtx ctx run).mail = s.mail :=
  mail_states (f := fun (s : State) (k : Kindle) => s.updTask k.cluster k.index fun t => { t with state := 1 }) s (fun _ _ => rfl) _

theorem mail_removeCtx (c : Ctx) : (s.removeCtx c).mail = s.mail :=
  (mail_dropRemote _ c.num).trans (mail_haltCtx s c.num .stopping)

end Mail

/-! ### The events and the commands -/

section Commands
variable {s : State} {h : AkHdr}

theorem execPowerUp_ends (up : s.phase = .bringUp) (image : s.dev.image.isSome = true) :
    execPowerUp s = .next { s with phase := .ready, dev := { s.dev with readies := s.dev.readies + 1 } } := by
  rw [execPowerUp, if_pos (by rw [image, decide_eq_true up]; rfl)]

/-- RESET of the device asks for no containment to end first (R386, R425). -/
theorem execResetDevice_cycles (ready : s.phase = .ready) (idle : s.akoonBusy = false) (turn : s.inTurn h (.resetDevice h) = true) :
    execResetDevice h s = .next (s.powerCycle.done h) := by
  rw [execResetDevice, if_neg (not_not_intro ready), idle, turn, if_neg (by simp)]

theorem execResetContext_removes {x : AkVal} {c : Ctx} (hs : s.takesCommand) (one : x.value = 1) (hc : s.ctx? x.h.ctx = some c) :
    execResetContext x s = .next ((s.removeCtx c).tell (replyTo x.h 0 [])) := by
  rw [execResetContext, if_neg (by omega), if_pos one]
  exact akoonIn_answers hs hc rfl (mail_removeCtx s c)

/-- The code is none of a command's (R382). -/
theorem noCommand_of_code {code : Nat} (ready : s.phase = .ready) (unknown : code = 0 ∨ 0x0D < code) :
    (decide (s.phase ≠ .ready) || (decide (1 ≤ code) && decide (code ≤ 0x0D))) = false := by
  rw [decide_eq_false (not_not_intro ready), Bool.false_or, Bool.and_eq_false_iff, decide_eq_false_iff_not, decide_eq_false_iff_not]
  omega

theorem execAkoonUnknownCommand_denies {code : Nat} :
    let i : Instr := .akoonUnknownCommand h code
    s.phase = .ready → s.akoonBusy = false → s.inTurn h i = true → (code = 0 ∨ 0x0D < code) →
    execAkoonUnknownCommand h code s = .next ((s.deny h 1).unqueue h i) := by
  intro i ready idle turn unknown
  dsimp only [execAkoonUnknownCommand]
  rw [noCommand_of_code ready unknown, idle, turn, if_neg (by simp), if_neg (by simp)]

theorem execAkoonUnknownCommand_waits {code : Nat} :
    let i : Instr := .akoonUnknownCommand h code
    s.phase = .ready → (s.akoonBusy = true ∨ s.inTurn h i = false) → (code = 0 ∨ 0x0D < code) → s.dev.inbox.contains (h.ctx, i) = false →
    execAkoonUnknownCommand h code s = .next { s with held := false, dev := { s.dev with inbox := s.dev.inbox ++ [(h.ctx, i)] } } := by
  intro i ready behind unknown new
  have later : (s.akoonBusy || !(s.inTurn h i)) = true := by
    rcases behind with busy | turn
    · rw [busy, Bool.true_or]
    · rw [turn, Bool.not_false, Bool.or_true]
  dsimp only [execAkoonUnknownCommand]
  rw [noCommand_of_code ready unknown, later, if_neg (by simp), if_pos rfl, State.await,
    show s.putOff.dev.inbox.contains (h.ctx, i) = false from new, if_neg (by simp)]
  rfl

end Commands

/-- Settles O30: power-up and the resets pass their checks; a code that is no command waits for its turn and is denied. -/
theorem resetAndUnknownCommands : Obligations.ResetAndUnknownCommands :=
  ⟨fun _ => execPowerUp_ends,
    fun _ _ ready idle turn => ⟨_, execResetDevice_cycles ready idle turn, rfl, rfl, rfl, rfl, rfl, rfl, rfl, rfl, rfl⟩,
    fun _ _ _ => execResetContext_removes, fun _ _ _ => execAkoonUnknownCommand_denies, fun _ _ _ => execAkoonUnknownCommand_waits⟩

end Sys2Proof.Machine
end

section
/-! PROOFS. Merging the paths of a warp (R30, R33, R34). -/

namespace Sys2Proof.Machine

theorem mem_maskList {m : W64} {u : Nat} : u ∈ maskList m ↔ m.getLsbD u = true := by
  simp only [maskList, List.mem_filter, List.mem_range]
  refine ⟨fun h => h.2, fun h => ⟨?_, h⟩⟩
  exact BitVec.lt_of_getLsbD h

/-- A merged path waits at EXIT when one of the two does. -/
theorem parkedPath_merge (w : Warp) (a b : Path) (same : a.access = b.access) :
    w.parkedPath (a.merge b) = (w.parkedPath a || w.parkedPath b) := by
  rw [Bool.eq_iff_iff]
  simp only [Warp.parkedPath, Path.merge, Bool.or_eq_true, List.any_eq_true, mem_maskList, BitVec.getLsbD_or]
  constructor
  · rintro ⟨u, hu | hu, parked⟩
    · exact .inl ⟨u, hu, parked⟩
    · exact .inr ⟨u, hu, same ▸ parked⟩
  · rintro (⟨u, hu, parked⟩ | ⟨u, hu, parked⟩)
    · exact ⟨u, .inl hu, parked⟩
    · exact ⟨u, .inr hu, same.symm ▸ parked⟩

/-- What two paths agree on when they merge. -/
theorem merges_spec {w : Warp} {a b : Path} (h : w.merges a b = true) :
    a.pc = b.pc ∧ a.access = b.access ∧ w.parkedPath a = w.parkedPath b := by
  simp only [Warp.merges, Bool.and_eq_true, decide_eq_true_eq] at h
  tauto

/-- The path that two merge into merges with the paths that the first of them merged with. -/
theorem merges_merge {w : Warp} {a b : Path} (h : w.merges a b = true) (q : Path) :
    w.merges (a.merge b) q = w.merges a q ∧ w.merges q (a.merge b) = w.merges q a := by
  obtain ⟨-, same, parked⟩ := merges_spec h
  have kept : w.parkedPath (a.merge b) = w.parkedPath a := by rw [parkedPath_merge w a b same, ← parked, Bool.or_self]
  constructor
  · simp only [Warp.merges, kept]
    rfl
  · simp only [Warp.merges, kept]
    rfl

/-! ### One path more -/

/-- Some path of the list has thread u at an address of a stream. -/
def StandsAt (l : List Path) (u : Nat) (pc : W64) (access : Bool) : Prop := ∃ p ∈ l, p.tmask.getLsbD u = true ∧ p.pc = pc ∧ p.access = access

theorem standsAt_cons (p : Path) (l : List Path) (u : Nat) (pc : W64) (access : Bool) :
    StandsAt (p :: l) u pc access ↔ (p.tmask.getLsbD u = true ∧ p.pc = pc ∧ p.access = access) ∨ StandsAt l u pc access := by
  simp [StandsAt]

theorem standsAt_mergeInto (w : Warp) (p : Path) (l : List Path) (u : Nat) (pc : W64) (access : Bool) :
    StandsAt (w.mergeInto p l) u pc access ↔ StandsAt (p :: l) u pc access := by
  induction l with
  | nil => rfl
  | cons q l ih =>
    rw [Warp.mergeInto]
    split
    next merging =>
      obtain ⟨at_, same, -⟩ := merges_spec merging
      simp only [standsAt_cons, Path.merge, BitVec.getLsbD_or, Bool.or_eq_true, at_, same]
      tauto
    next =>
      rw [standsAt_cons, ih]
      simp only [standsAt_cons]
      tauto

theorem nonempty_mergeInto {w : Warp} {p : Path} {l : List Path} (hp : p.tmask ≠ 0) (hl : ∀ q ∈ l, q.tmask ≠ 0) :
    ∀ q ∈ w.mergeInto p l, q.tmask ≠ 0 := by
  induction l with
  | nil => simpa [Warp.mergeInto] using hp
  | cons a l ih =>
    obtain ⟨ha, hl⟩ := List.forall_mem_cons.1 hl
    rw [Warp.mergeInto]
    split
    · refine List.forall_mem_cons.2 ⟨?_, hl⟩
      simp [Path.merge, BitVec.or_eq_zero_iff, show a.tmask ≠ 0#64 from ha]
    · exact List.forall_mem_cons.2 ⟨ha, ih hl⟩

/-- A path that merges with no member of the list and with none that joins it merges with none of the new list. -/
theorem apart_mergeInto {w : Warp} {p a : Path} {l : List Path} (hp : w.merges a p = false) (hl : ∀ q ∈ l, w.merges a q = false) :
    ∀ q ∈ w.mergeInto p l, w.merges a q = false := by
  induction l with
  | nil => simpa [Warp.mergeInto] using hp
  | cons b l ih =>
    obtain ⟨hb, hl⟩ := List.forall_mem_cons.1 hl
    rw [Warp.mergeInto]
    split
    next merging => exact List.forall_mem_cons.2 ⟨by rw [(merges_merge merging a).2, hb], hl⟩
    next => exact List.forall_mem_cons.2 ⟨hb, ih hl⟩

theorem pairwise_mergeInto {w : Warp} {l : List Path} (p : Path) (h : l.Pairwise fun p q => w.merges p q = false) :
    (w.mergeInto p l).Pairwise fun p q => w.merges p q = false := by
  induction l with
  | nil => exact List.pairwise_singleton _ _
  | cons a l ih =>
    obtain ⟨ha, hl⟩ := List.pairwise_cons.1 h
    rw [Warp.mergeInto]
    split
    next merging => exact List.pairwise_cons.2 ⟨fun q hq => by rw [(merges_merge merging q).1, ha q hq], hl⟩
    next apart => exact List.pairwise_cons.2 ⟨apart_mergeInto (by simpa using apart) ha, ih hl⟩

/-! ### All paths -/

theorem standsAt_mergeAll (w : Warp) (u : Nat) (pc : W64) (access : Bool) (l : List Path) : ∀ m : List Path,
    StandsAt (l.foldl (fun ps p => w.mergeInto p ps) m) u pc access ↔ StandsAt l u pc access ∨ StandsAt m u pc access := by
  induction l with
  | nil => simp [StandsAt]
  | cons p l ih =>
    intro m
    rw [List.foldl_cons, ih, standsAt_mergeInto]
    simp only [standsAt_cons]
    tauto

theorem standsAt_nonempty (l : List Path) (u : Nat) (pc : W64) (access : Bool) :
    StandsAt (l.filter fun p => p.tmask != 0) u pc access ↔ StandsAt l u pc access := by
  simp only [StandsAt, List.mem_filter, bne_iff_ne]
  constructor
  · rintro ⟨p, ⟨hp, -⟩, stands⟩
    exact ⟨p, hp, stands⟩
  · rintro ⟨p, hp, stands⟩
    refine ⟨p, ⟨hp, fun empty => ?_⟩, stands⟩
    simp [empty] at stands

/-- What every path put into a list keeps holds of the list of all. -/
theorem mergeAll_induction {w : Warp} {P : List Path → Prop} {l : List Path} (nil : P [])
    (step : ∀ p ∈ l, ∀ m, P m → P (w.mergeInto p m)) : P (l.foldl (fun ps p => w.mergeInto p ps) []) := by
  exact List.foldlRecOn l _ nil fun m hm p hp => step p hp m hm

/-- Settles O57: putting a path into the list keeps where threads stand, and the key by which paths merge. -/
theorem mergingKeepsThreads : Obligations.MergingKeepsThreads := by
  intro w
  refine ⟨fun u pc access => ?_, ?_, ?_, rfl⟩
  · refine (standsAt_mergeAll w u pc access _ []).trans ?_
    rw [standsAt_nonempty]
    simp [StandsAt]
  · refine mergeAll_induction (P := fun l => ∀ p ∈ l, p.tmask ≠ 0) (by simp) fun p hp m hm => nonempty_mergeInto ?_ hm
    exact bne_iff_ne.1 (List.mem_filter.1 hp).2
  · exact mergeAll_induction (P := List.Pairwise fun p q => w.merges p q = false) .nil fun p _ m hm => pairwise_mergeInto p hm

end Sys2Proof.Machine
end

section
/-! PROOFS. The checks that every instruction of a path has in common, and the other instructions that a path executes alone (R27, R49 to
R58, R71, R77, R168, R182, R226 to R229, R253, R266 to R268, R390, R429, R430, R480, R517). -/

namespace Sys2Proof.Machine

/-! ### The common checks -/

section Checks
variable {i : Instr} {h : Hdr} {sh : Shape} {per : Nat} {s : State} {body : Body} {x : Iss}

theorem orderly_putOff (x : Iss) (s : State) : x.orderly s (.next s.putOff) = .next s.putOff := by
  unfold Iss.orderly
  exact ite_self _

/-- Awaited registers, a ring that an engine owns and accesses before a ring port put the instruction off. -/
theorem issue_putOff (hx : s.iss? = some x) (late : s.dependency x sh h = true ∨ s.ringBusy x sh = true ∨ s.ringWaits x h sh = true) :
    issue i h sh per s body = .next s.putOff := by
  have any : (s.dependency x sh h || s.ringBusy x sh || s.ringWaits x h sh) = true := by
    simpa only [Bool.or_eq_true, or_assoc] using late
  rw [issue, withIssue_of hx, issueAt, if_pos any, orderly_putOff]

/-- A trap waits for the earlier accesses of the threads (R429). -/
theorem issue_trap_waits (hx : s.iss? = some x) (under : s.outstanding x = true) {t : State} (next : issueAt i h sh per s body x = .next t)
    (traps : x.trapped t = true) : issue i h sh per s body = .next s.putOff := by
  rw [issue, withIssue_of hx, next, Iss.orderly, under, traps]
  rfl

/-- With no earlier access under way an issue is what the checks make of it. -/
theorem issue_quiet (hx : s.iss? = some x) (quiet : s.outstanding x = false) : issue i h sh per s body = issueAt i h sh per s body x := by
  rw [issue, withIssue_of hx]
  cases issueAt i h sh per s body x with
  | next t => exact orderly_next (.inl quiet)
  | fault _ => rfl
  | refused _ => rfl

variable (ready : (s.dependency x sh h || s.ringBusy x sh || s.ringWaits x h sh) = false)
include ready

theorem issueAt_illegal {detail : Nat} (use : x.illegal h sh = some detail) :
    issueAt i h sh per s body x = .next (s.faultPath x 0x11 0 detail) := by
  rw [issueAt, ready, if_neg (by decide), use]

theorem issueAt_badGenerator (use : x.illegal h sh = none) (gen : sh.gen = true) (takes : x.doing h sh ≠ []) (bad : x.g.genBad ≠ 0) :
    issueAt i h sh per s body x = .next (s.faultPath x 0x36 0 x.g.genBad) := by
  have draws : (sh.gen && !(x.doing h sh).isEmpty && decide (x.g.genBad ≠ 0)) = true := by simp [gen, takes, bad]
  rw [issueAt, ready, if_neg (by decide), use]
  exact if_pos draws

/-- Past the generator the ports decide, and then poison. -/
theorem issueAt_ports (use : x.illegal h sh = none) (good : sh.gen = false ∨ x.doing h sh = [] ∨ x.g.genBad = 0) :
    issueAt i h sh per s body x =
      match s.portWait x.g x.r.w (x.needs h sh) with
      | some pw => .next (s.portStop x i pw (x.needs h sh))
      | none =>
        .next ((s.trapAll x.r ((maskList (x.badGuard h)).map (fun t => ⟨t, 0x60, 0, 0x4A0 + h.ps.val⟩) ++
          (x.badBranch sh).map (fun t => ⟨t, 0x60, 0, 0x4A7⟩) ++ (s.hurt x h sh).map fun b => ⟨b.1, 0x60, 0, b.2⟩)).act x h sh per
          ((x.doing h sh).filter fun t => !((x.badBranch sh).contains t) && !((s.hurt x h sh).any fun b => b.1 = t)) body) := by
  have passes : ¬ (sh.gen && !(x.doing h sh).isEmpty && decide (x.g.genBad ≠ 0)) = true := by
    rcases good with gen | takes | good
    · simp [gen]
    · simp [takes]
    · simp [good]
  rw [issueAt, ready, if_neg (by decide), use]
  exact if_neg passes

end Checks

/-- Settles O53: an issue is put off, or is what the first check that fails makes of it. -/
theorem commonChecks : Obligations.CommonChecks := by
  intro i h sh per body meaning s x hx
  rw [meaning]
  refine ⟨issue_putOff hx, fun under t next traps => issue_trap_waits hx under next traps, fun registers lines rings quiet => ?_⟩
  have ready : (s.dependency x sh h || s.ringBusy x sh || s.ringWaits x h sh) = false := by rw [registers, lines, rings]; rfl
  rw [issue_quiet hx quiet]
  refine ⟨fun detail => issueAt_illegal ready, issueAt_badGenerator ready, fun use good => ?_⟩
  rw [issueAt_ports ready use good]
  exact ⟨fun pw wait => by rw [wait], fun free => by rw [free]⟩

end Sys2Proof.Machine
end

section
/-! PROOFS. The other instructions that a path executes alone (R49 to R52, R57, R77, R168, R226 to R229, R253, R266 to R268, R390). -/

namespace Sys2Proof.Machine

theorem updConv_traps (g : Group) (cv : CvField) (w : Nat) (f : Conv → Conv) : (g.updConv cv w f).traps = g.traps := by
  unfold Group.updConv
  split
  · simp only [Group.traps, Group.updWarp, Prod.mk.injEq, true_and]
    apply List.ext_getElem
    · simp
    · intro n _ _
      simp only [List.getElem_map, List.getElem_modify]
      split <;> rfl
  · rfl

theorem still_markFence (s : State) (i : Iss) (h : Hdr) (scope : Scope) : Still s (s.markFence i h scope) := ⟨rfl, rfl⟩

section Alone
variable {s : State} {i : Iss}

theorem execPrio_sets {x : OpA} (c : Clear s i x.h { srcs := [srcA x.a 1], uni := some true }) :
    execPrio x s = .next (s.performed i x.h { srcs := [srcA x.a 1], uni := some true } 1 fun i k t =>
      (k.vals.foldl (fun t m => t.updShared i.r.g .prio i.w.wid fun g => { g with prio := min 15 (regsNat (m.2.headD [])) }) t, .next [])) :=
  issue_calm c _ _ _ fun _ _ => calm_foldl _ _ (fun _ _ => calm_updShared _ _ _ _ (by intro _; rfl)) _

/-- The masks that CVSET loads. -/
def CvsetOps.body (x : CvsetOps) : Body := fun i k t =>
  (t.updShared i.r.g (.cv x.cv.val) i.w.wid fun g => g.updConv (Fin.ofNat 17 x.cv.val) i.r.w fun c => { c with
    wmask := BitVec.ofNat 64 (regsNat ((k.vals.headD (0, [])).2.getD 0 []))
    tmask := BitVec.ofNat 64 (regsNat ((k.vals.headD (0, [])).2.getD 1 [])) }, .next [])

theorem execCvset_loads {x : CvsetOps} {sh : Shape}
    (hsh : sh = { srcs := [{ field := 2, op := x.a, n := 2, uni := true }, { field := 3, op := x.b, n := 2, uni := true }], uni := some true })
    (c : Clear s i x.h sh) (idle : (i.g.conv (Fin.ofNat 17 x.cv.val) i.r.w).armed = false) :
    execCvset x s = .next (s.performed i x.h sh 1 (CvsetOps.body x)) := by
  subst hsh
  refine issue_body c _ _ _ _ ?_ (calm_updShared _ _ _ _ fun _ => updConv_traps _ _ _ _).still
  dsimp only
  rw [idle, if_neg (by decide)]
  rfl

theorem execPtld_asks {x : OpA} {e : TlbEntry} :
    let sh : Shape := { srcs := [{ field := 2, op := x.a, n := 2, strict := true, uni := true }], uni := some true }
    let va := regsNat ((((s.sees i x.h sh).vals.headD (0, [])).2).headD [])
    Clear s i x.h sh → Reaches s i { code := x.a.code, size := 64, plain := true } va e →
    execPtld x s = .next (s.performed i x.h sh 1 fun i _ t => (t.askPrefetch i.g.core e (e.pa va) 64 false, .next [])) := by
  intro sh va c reaches
  have aligned : va % 64 = 0 := reaches.2.1
  refine issue_body c _ _ _ _ ?_ (still_askPrefetch _ _ _ _ _ _)
  dsimp only
  rw [if_neg (Decidable.not_not.mpr aligned), checkGlobal_reaches (mem_afterRead s i x.h sh) reaches]

theorem execPref_asks {x : PrefOps} (c : Clear s i x.h { srcs := [strictA x.a 2, strictB x.b 1] }) :
    execPref x s = .next (s.performed i x.h { srcs := [strictA x.a 2, strictB x.b 1] } 1 fun i k t =>
      (k.vals.foldl (fun t m => t.prefetch i x.kind (vaG m.2)) t, .next [])) :=
  issue_still c _ _ _ (still_foldl _ _ (fun _ _ => still_prefetch _ _ _ _) _)

theorem execLlcLock_acts {x : OpDAB} (c : Clear s i x.h (lockShape x)) :
    execLlcLock x s = .next (s.performed i x.h (lockShape x) 1 fun i k t => (t.lockAll i k x.d State.lockSector, .next [])) :=
  issue_still c _ _ _ (still_lockAll _ _ _ _ _ still_lockSector)

theorem execLlcUnlock_acts {x : OpDAB} (c : Clear s i x.h (lockShape x)) :
    execLlcUnlock x s = .next (s.performed i x.h (lockShape x) 1 fun i k t => (t.lockAll i k x.d State.unlockSector, .next [])) :=
  issue_still c _ _ _ (still_lockAll _ _ _ _ _ still_unlockSector)

theorem execLlcUnlockAll_acts {x : OpD} (c : Clear s i x.h { srcs := [], dst := some { op := x.d } }) :
    execLlcUnlockAll x s = .next (s.performed i x.h { srcs := [], dst := some { op := x.d } } 1 fun i k t =>
      let mine := (t.mem.llc.filter fun e => e.2.lock = some i.c.num).map (·.1)
      let u := { t with mem := mine.foldl (fun m a => m.setSector a { m.sector a with lock := none }) t.mem }
      (k.vals.foldl (fun u m => u.writeDst i.r.g i.r.w i.g { op := x.d } m.1 (if k.uni then k.ts else [m.1])
        (regsOf 1 mine.length false)) u, .next [])) := by
  refine issue_body c _ _ _ _ ?_ (Still.trans (still_memory _ _) (calm_foldl _ _ (fun _ _ => calm_writeDst _ _ _ _ _ _ _ _) _).still)
  simp only [Memory.locks, List.length_map]

theorem execFence_passes {x : FenceOps} (c : Clear s i x.h { srcs := [] }) (passes : s.fenceWaits i x.h x.order = false) :
    execFence x s = .next (s.performed i x.h { srcs := [] } 1 fun i _ t =>
      (if x.order = .rel ∨ x.order = .ar then t.markFence i x.h x.scope else t, .next [])) := by
  rw [execFence, withIssue_of c.issues, passes, if_neg (by decide)]
  refine issue_body c _ _ _ _ ?_ ?_
  · simp only [releases, Bool.or_eq_true, decide_eq_true_eq]
  · dsimp only
    split
    · exact still_markFence _ _ _ _
    · exact .refl _

theorem execSpark_raises {x : OpA} (c : Clear s i x.h { srcs := [srcA x.a 1], uni := some false, flat := true, execOnly := true }) :
    execSpark x s = .next (s.performed i x.h { srcs := [srcA x.a 1], uni := some false, flat := true, execOnly := true } 1 fun _ k t =>
      ((t.spark 0 (regsNat ((k.vals.headD (0, [])).2.headD []) % 2 ^ 16)).1, .next [])) :=
  issue_still c _ _ _ (still_spark _ _ _)

end Alone

/-- Settles O8: none of them traps anything, so each performs its own body. -/
theorem pathInstructionsComplete : Obligations.PathInstructionsComplete :=
  ⟨fun _ _ _ c => execExit_ends c, fun _ _ _ c => execPrio_sets c, fun _ _ _ c idle => execCvset_loads rfl c idle,
    fun _ _ _ _ c reaches => execPtld_asks c reaches, fun _ _ _ c => execPref_asks c,
    fun _ _ _ c => ⟨execLlcLock_acts c, execLlcUnlock_acts c⟩, fun _ _ _ c => execLlcUnlockAll_acts c,
    fun _ _ _ c passes => execFence_passes c passes, fun _ _ _ c => execSpark_raises c⟩

end Sys2Proof.Machine
end

section
/-! PROOFS. What a step runs and what it leaves behind, early signatures, and what ends a wait (R34, R36, R38, R44, R53, R55, R58, R71, R78,
R189 to R191, R203, R250, R275, R331, R332, R434, R435). -/

namespace Sys2Proof.Machine

/-! ### Steps -/

/-- What a step leads to has been closed. -/
theorem step_closed {s t : State} (h : step s = .next t) : ∃ u : State, t = u.close := by
  have closes : ∀ r : Result, closed r = .next t → ∃ u : State, t = u.close := by
    intro r hr
    cases r with
    | next u => exact ⟨u, (Host.Outcome.next.inj hr).symm⟩
    | fault _ => contradiction
    | refused _ => contradiction
  unfold step at h
  split at h
  · exact closes _ h
  · exact closes _ h

/-- Settles O44: every step ends with `State.close`, which clears the four. -/
theorem nothingAtIssueKept : Obligations.NothingAtIssueKept := by
  intro s t h
  obtain ⟨u, rfl⟩ := step_closed h
  exact ⟨rfl, rfl, rfl, rfl⟩

theorem step_of_agenda {s : State} {turn : Turn} {rest : List Turn} (h : s.agenda = turn :: rest) :
    step s = closed (({ s with agenda := rest, cur := none, held := false } : State).turn turn) := by
  unfold step
  rw [h]

/-! ### Fetching -/

section Fetch
variable {u : State} {g : Group} {c : Ctx} {p : Path} {e : TlbEntry} {i : Instr}

theorem fetch_word (he : u.translate c p.pc.toNat g.via = .ok e) (hx : attrX e.attr = true)
    (size : wordSize (BitVec.ofNat 64 (u.mem.nat (e.pa p.pc.toNat) 8)) = 8)
    (own : g.dae = true → streamOf (BitVec.ofNat 64 (u.mem.nat (e.pa p.pc.toNat) 8)) ≠ some (!p.access))
    (decodes : decodeWord (BitVec.ofNat 64 (u.mem.nat (e.pa p.pc.toNat) 8)) 0 = .ok i) :
    u.fetch g c p = ({ u with mem := u.mem.hold g.via e }, .run i 8) := by
  simp only [State.fetch, fetchWord_ok he hx, size, readWord_run own decodes]
  rfl

theorem fetch_literal {e' : TlbEntry} (he : u.translate c p.pc.toNat g.via = .ok e) (hx : attrX e.attr = true)
    (size : wordSize (BitVec.ofNat 64 (u.mem.nat (e.pa p.pc.toNat) 8)) = 16)
    (he' : ({ u with mem := u.mem.hold g.via e } : State).translate c (p.pc.toNat + 8) g.via = .ok e') (hx' : attrX e'.attr = true)
    (own : g.dae = true → streamOf (BitVec.ofNat 64 (u.mem.nat (e.pa p.pc.toNat) 8)) ≠ some (!p.access))
    (decodes : decodeWord (BitVec.ofNat 64 (u.mem.nat (e.pa p.pc.toNat) 8))
      (BitVec.ofNat 64 ((u.mem.hold g.via e).nat (e'.pa (p.pc.toNat + 8)) 8)) = .ok i) :
    u.fetch g c p = ({ u with mem := (u.mem.hold g.via e).hold g.via e' }, .run i 16) := by
  simp only [State.fetch, fetchWord_ok he hx, size, fetchWord_ok he' hx', readWord_run own decodes]
  rfl

/-- What is fetched is run. -/
theorem issuePath_runs {r : PathRef} {t : State} {n : Nat} (hg : u.group? r.g = some g) (hp : u.path? r = some p)
    (hc : u.ctx? g.ctx = some c) (fetched : u.fetch g c p = (t, .run i n)) :
    let v : State := { t.updPath r fun p => p.trim n with cur := some (.path r n), held := false }
    u.issuePath r = exec (v.rowOf i) (v.count 0 g.core 0 1) := by
  simp only [State.issuePath, hg, hp, hc, fetched]

end Fetch

theorem rowOf_of_not_swr (s : State) {i : Instr} (h : ∀ x, i ≠ .swr x) : s.rowOf i = i := by
  unfold State.rowOf
  split
  · exact absurd rfl (h _)
  · rfl

/-- The lane issues its first choice that is not put off. -/
theorem laneTurn_issues {u t : State} {core lane : Nat} {r : PathRef} {rs : List PathRef} (chosen : u.choices core lane = r :: rs)
    (issued : (u.clearLane core lane).issuePath r = .next t) (goes : t.held = false) : u.laneTurn core lane = .next t.close := by
  rw [State.laneTurn, chosen, State.issueFirst, issued]
  exact if_neg (by simp [goes])

/-- Settles O40: the fetch finds the instruction that the bytes decode to, and the turn of a lane or of an event is the head of the agenda. -/
theorem stepRunsDecoded : Obligations.StepRunsDecoded := by
  refine ⟨fun u r g c p e i hg hp hc he hx size own decodes => issuePath_runs hg hp hc (fetch_word he hx size own decodes),
    fun u r g c p e e' i hg hp hc he hx size he' hx' own decodes =>
      issuePath_runs hg hp hc (fetch_literal he hx size he' hx' own decodes),
    fun s i h => rowOf_of_not_swr s h, fun s core lane rest r rs t ha chosen issued goes => ?_, fun s i rest ha t runs => ?_⟩
  · rw [step_of_agenda ha, State.turn, laneTurn_issues chosen issued goes]
    rfl
  · rw [step_of_agenda ha, State.turn, runs]
    rfl

/-! ### Signatures -/

/-- An instruction whose generation does nothing while it is not complete only signs. -/
theorem signs_of {i : Instr} {h : Hdr} {cv : CvField} {sh : Shape} {within : Bool} {go : GenRef → State → State}
    (m : ∀ s, exec i s = signAt i h cv sh within noCheck go s) (waits : ∀ r t, t.gen? r = none → go r t = t) : Signs i h cv sh within :=
  fun s _ c none => (m s).trans (signAt_waits c i noCheck go rfl (waits _ _ none))

theorem permGen_waits {t : State} {r : GenRef} (x : PermOps) (h : t.gen? r = none) : t.permGen x r = t := by
  have runs : t.permRun x r = t := runGen_waits h _ _ _
  simp only [State.permGen, h, runs]

theorem reduceGen_waits {t : State} {r : GenRef} (h : t.gen? r = none) (o : GenOps) (f : List (Nat × Nat) → Nat → Nat) :
    t.reduceGen r o f = t :=
  runGen_waits h _ _ _

theorem wscanGen_waits {t : State} {r : GenRef} (x : SumOps) (h : t.gen? r = none) : t.wscanGen x r = t := by
  unfold State.wscanGen
  split
  · rfl
  · exact reduceGen_waits h _ _

/-- Settles O10: a generation that is not complete does not issue. -/
theorem earlySignatureWaits : Obligations.EarlySignatureWaits :=
  ⟨fun x => signs_of (go := fun r t => t.signGen x r) (fun _ => rfl) fun _ _ h => runGen_waits h _ _ _,
    fun x => signs_of (go := fun r t => t.qxGen x r) (fun _ => rfl) fun _ _ h => runGen_waits h _ _ _,
    fun x => signs_of (go := fun r t => t.permGen x r) (fun _ => rfl) fun _ _ h => permGen_waits x h,
    fun x => signs_of (go := fun r t => t.voteGen x r) (fun _ => rfl) fun _ _ h => reduceGen_waits h _ _,
    fun x => signs_of (go := fun r t => t.wsumGen x r) (fun _ => rfl) fun _ _ h => reduceGen_waits h _ _,
    fun x => signs_of (go := fun r t => t.wmaxGen x r) (fun _ => rfl) fun _ _ h => reduceGen_waits h _ _,
    fun x => signs_of (go := fun r t => t.wscanGen x r) (fun _ => rfl) fun _ _ h => wscanGen_waits x h⟩

/-! ### What ends a wait -/

section Waits
variable {s : State} {r : PathRef} {g : Group} {p : Path} {w : Wait}

theorem tryGen_issues {q : GenRef} {e : Gen} {i : Instr} {parked : Bool} (he : s.gen? q = some e) (hi : e.conv.instr = some i)
    (hwait : e.conv.svcWait = parked) (moved : s.sameGen (s.issueGen i q) q = false) : s.tryGen q parked = some (s.issueGen i q) := by
  simp only [State.tryGen, he, hi, hwait, moved]
  rfl

/-- The two events by which a complete generation issues. -/
theorem exec_issuesGen {q : GenRef} {i : Instr} {parked : Bool} (issues : s.tryGen q parked = some (s.issueGen i q)) :
    exec (if parked then .serviceSlotFree q else .generationIssue q) s = .next (s.issueGen i q) := by
  cases parked with
  | false =>
    show execGenerationIssue q s = _
    rw [execGenerationIssue, issues]
  | true =>
    show execServiceSlotFree q s = _
    rw [execServiceSlotFree, issues]

theorem execPathDue_due {c : Ctx} (hg : s.group? r.g = some g) (hp : s.path? r = some p) (hc : s.ctx? g.ctx = some c)
    (works : s.working g = true) (ready : p.st = .ready) (due : c.ageLimit g.band ≤ p.age) : execPathDue r s = .next s := by
  simp [execPathDue, hg, hp, hc, works, ready, due]

theorem execCounterWaitComplete_holds {x : CtrOps} (hw : s.waiting r .counterWait = some (g, p, w)) (hi : w.instr = .ctrWait x)
    (holds : ∀ t ∈ w.tests, s.testHolds g t = true) (seen : ∀ t ∈ w.tests, s.testVeiled r x.scope t = false)
    (room : s.dstRoom g r.w { op := x.d, n := 2 } (w.tests.map (·.pos)) = true) :
    let t := (s.testsDone r g x.d (CtrOps.waitShape x).isUniform (w.tickets.map (·.1)) w.tests).finish r w.size []
    s.arrives (PathRef.waitKey r p) 2 t → execCounterWaitComplete r s = .next (t.arrive (PathRef.waitKey r p)) := by
  intro t arrives
  have every : w.tests.all (s.testHolds g) = true := List.all_eq_true.2 holds
  have none : w.tests.any (s.testVeiled r x.scope) = false := by
    rw [List.any_eq_false]
    exact fun t ht => by simp [seen t ht]
  simp only [execCounterWaitComplete, hw, hi, every, none, room]
  refine attempt_arrives (run := fun s => .next ((s.testsDone r g x.d (CtrOps.waitShape x).isUniform (w.tickets.map (·.1)) w.tests).finish
    r w.size [])) ?_ arrives
  rfl

theorem execQueueWaitComplete_meets (hw : s.waiting r .queueWait = some (g, p, w)) (meets : ∀ n ∈ w.needs, s.meets g r.w n = true) :
    execQueueWaitComplete r s = .next (s.updPath r fun p => { p with st := .ready, wait := none }) := by
  have every : w.needs.all (s.meets g r.w) = true := List.all_eq_true.2 meets
  simp only [execQueueWaitComplete, hw, every, if_true]

theorem execServiceReplyComplete_ready {x : OpDA} {c : Ctx} (hw : s.waiting r .serviceWait = some (g, p, w)) (hi : w.instr = .svcWait x)
    (hc : s.ctx? g.ctx = some c) :
    let uni := (svcWaitShape x).isUniform
    let all := (if uni then w.tickets.take 1 else w.tickets).map fun m => (m.1, s.reply c m.1 m.2)
    (∀ m ∈ all, ∃ v o, m.2 = .ready v o) → s.dstRoom g r.w { op := x.d } (all.map (·.1)) = true →
    execServiceReplyComplete r s = .next ((s.takeReplies g r.w x.d uni (w.tickets.map (·.1)) all).finish r w.size []) := by
  intro uni all stand room
  have ready : all.all (fun m => match m.2 with | .ready _ _ => true | _ => false) = true := by
    rw [List.all_eq_true]
    intro m hm
    obtain ⟨v, o, hv⟩ := stand m hm
    rw [hv]
  have replied : s.replied r = some ((s.takeReplies g r.w x.d uni (w.tickets.map (·.1)) all).finish r w.size []) := by
    simp only [State.replied, hw, hi, hc]
    exact if_pos (by rw [Bool.and_eq_true]; exact ⟨ready, room⟩)
  rw [execServiceReplyComplete, replied]

theorem underWay_eq_false {k v : Nat} {access : Bool} {m : W64}
    (none : ∀ o ∈ s.mem.ops, o.g = k → o.w = v → o.access = access → o.tmask &&& m = 0) : s.underWay k v access m = false := by
  rw [State.underWay, List.any_eq_false]
  intro o ho
  simp only [Bool.and_eq_true, decide_eq_true_eq, bne_iff_ne, not_and, not_not, and_imp]
  exact none o ho

theorem execStarvationExpiry_traps {c : Ctx} (hg : s.group? r.g = some g) (hp : s.path? r = some p) (hc : s.ctx? g.ctx = some c)
    (works : s.working g = true) (waits : p.st ≠ .ready) (expired : 2 ^ c.starvLim ≤ p.timer)
    (quiet : s.underWay r.g r.w p.access p.tmask = false) (stands : s.waitOver r p = false) :
    execStarvationExpiry r s = .next (let u := if p.wait = none then s.unsign r else s
      ((u.updPath r fun p => { p with st := .ready, timer := 0, wait := none }).fault r p.tmask 0x15 1 (p.waitKind c).2
        ((p.waitKind c).1 + c.starvLim * 8)).settle r.g r.w) := by
  have goes : (!(s.working g) || p.st = .ready || p.timer < 2 ^ c.starvLim || s.underWay r.g r.w p.access p.tmask || s.waitOver r p) = false := by
    simp [works, waits, expired, quiet, stands]
  have signed : (if p.wait.isNone = true then s.unsign r else s) = if p.wait = none then s.unsign r else s :=
    if_congr Option.isNone_iff_eq_none rfl rfl
  simp only [execStarvationExpiry, hg, hp, hc, goes, signed]
  rfl

end Waits

/-- Settles O32: each event's conditions choose the branch of its meaning in which the wait ends. -/
theorem waitEventsComplete : Obligations.WaitEventsComplete :=
  ⟨fun _ _ _ _ _ he hi hwait moved => exec_issuesGen (tryGen_issues he hi hwait moved),
    fun _ _ _ _ _ hg hp hc works ready due => execPathDue_due hg hp hc works ready due,
    fun _ _ _ _ _ _ hw hi holds seen room => execCounterWaitComplete_holds hw hi holds seen room,
    fun _ _ _ _ _ hw meets => execQueueWaitComplete_meets hw meets,
    fun _ _ _ _ _ _ _ hw hi hc => execServiceReplyComplete_ready hw hi hc,
    fun _ _ _ _ _ hg hp hc works waits expired none stands =>
      execStarvationExpiry_traps hg hp hc works waits expired (underWay_eq_false none) stands⟩

end Sys2Proof.Machine
end

section
/-! PROOFS. What an instruction that computes a destination leaves in it (R26, R113, R194, R195, R416). -/

namespace Sys2Proof.Machine

/-! ### Words of a destination -/

theorem length_regsOf (n x : Nat) (bad : Bool) : (regsOf n x bad).length = n := by
  induction n generalizing x with
  | zero => rfl
  | succ n ih => rw [regsOf, List.length_cons, ih]

/-- What register k holds once words have been written from register n on, whatever holds the registers. -/
theorem get_foldl_set {α : Type} {get : α → Nat → Reg} {set : α → Nat → Reg → α}
    (law : ∀ a n k r, get (set a n r) k = if k = n then r else get a k) (n : Nat) (rs : List Reg) (o : Nat) (a : α) (k : Nat) :
    get ((rs.zipIdx o).foldl (fun a q => set a (n + q.2) q.1) a) k =
      if n + o ≤ k then (rs[k - (n + o)]?).getD (get a k) else get a k := by
  induction rs generalizing o a with
  | nil => simp
  | cons r rs ih =>
    rw [List.zipIdx_cons, List.foldl_cons, ih, law]
    dsimp only
    by_cases below : k < n + o
    · rw [if_neg (by omega), if_neg (by omega), if_neg (by omega)]
    · by_cases here : k = n + o
      · subst here
        simp
      · obtain ⟨j, hj⟩ : ∃ j, k - (n + o) = j + 1 := ⟨k - (n + o) - 1, by omega⟩
        have hj' : k - (n + (o + 1)) = j := by omega
        rw [if_pos (by omega), if_neg here, if_pos (by omega), hj, hj', List.getElem?_cons_succ]

/-- Write words to a thread's registers from n on; the same of a warp. -/
def Thread.setRegs (th : Thread) (n : Nat) (rs : List Reg) : Thread := rs.zipIdx.foldl (fun th q => th.setReg (n + q.2) q.1) th
def Warp.setRegs (w : Warp) (n : Nat) (rs : List Reg) : Warp := rs.zipIdx.foldl (fun w q => w.setReg (n + q.2) q.1) w

theorem reg_setRegs (th : Thread) (n : Nat) (rs : List Reg) (k : Nat) :
    (th.setRegs n rs).reg k = if n ≤ k then (rs[k - n]?).getD (th.reg k) else th.reg k :=
  get_foldl_set (get := Thread.reg) (fun a n k r => reg_setReg a n k r) n rs 0 th k

theorem wreg_setRegs (w : Warp) (n : Nat) (rs : List Reg) (k : Nat) :
    (w.setRegs n rs).reg k = if n ≤ k then (rs[k - n]?).getD (w.reg k) else w.reg k :=
  get_foldl_set (get := Warp.reg) (fun a n k r => wreg_setReg a n k r) n rs 0 w k

/-- The words written stand in consecutive registers. -/
theorem some_reg_setRegs (th : Thread) (n : Nat) (rs : List Reg) {j : Nat} (hj : j < rs.length) : some ((th.setRegs n rs).reg (n + j)) = rs[j]? := by
  rw [reg_setRegs, if_pos (Nat.le_add_right n j), Nat.add_sub_cancel_left, List.getElem?_eq_getElem hj, Option.getD_some]

theorem some_wreg_setRegs (w : Warp) (n : Nat) (rs : List Reg) {j : Nat} (hj : j < rs.length) : some ((w.setRegs n rs).reg (n + j)) = rs[j]? := by
  rw [wreg_setRegs, if_pos (Nat.le_add_right n j), Nat.add_sub_cancel_left, List.getElem?_eq_getElem hj, Option.getD_some]

/-! ### Threads after a destination is written -/

theorem thread_updGroup (s : State) (k : Nat) (f : Group → Group) (hk : ∀ g, (f g).key = g.key) (hw : ∀ g, (f g).warps = g.warps) (g w u : Nat) :
    (s.updGroup k f).thread? g w u = s.thread? g w u := by
  simp only [State.thread?, State.warp?, group_updGroup s k f hk]
  split
  · cases s.group? g <;> simp [hw]
  · rfl

theorem thread_putScratch (s : State) (gr : Group) (k o : Nat) (bs : List Byte) (bad : Bool) (g w u : Nat) :
    (s.putScratch gr k o bs bad).thread? g w u = s.thread? g w u := by
  refine List.foldlRecOn _ _ (motive := fun t : State => t.thread? g w u = s.thread? g w u) rfl fun t ht q _ => Eq.trans ?_ ht
  simp only [State.putScratchByte]
  split
  · rfl
  · exact thread_updGroup t _ _ (by intro _; rfl) (by intro _; rfl) g w u

theorem thread_ringPush (s : State) (gr : Group) (base k : Nat) (rs : List Reg) (g w u : Nat) :
    (s.ringPush gr base k rs).thread? g w u = s.thread? g w u := by
  rw [State.ringPush, thread_putScratch]
  exact List.foldlRecOn _ _ (motive := fun t : State => t.thread? g w u = s.thread? g w u) rfl fun t ht q _ =>
    (thread_putScratch _ _ _ _ _ _ _ _ _).trans ht

theorem thread_foldl_updThread (s : State) (k v : Nat) (f : Thread → Thread) {l : List Nat} (hl : l.Nodup) (g w u : Nat) :
    (l.foldl (fun s t => s.updThread k v t f) s).thread? g w u =
      if g = k ∧ w = v ∧ u ∈ l then (s.thread? g w u).map f else s.thread? g w u := by
  induction l generalizing s with
  | nil => simp
  | cons t l ih =>
    obtain ⟨new, hl⟩ := List.nodup_cons.mp hl
    rw [List.foldl_cons, ih _ hl, thread_updThread]
    by_cases here : g = k ∧ w = v
    · by_cases ht : u = t
      · subst ht
        simp [here, new]
      · simp [here, ht]
    · have apart : ∀ q : Prop, ¬(g = k ∧ w = v ∧ q) := fun q h => here ⟨h.1, h.2.1⟩
      rw [if_neg (apart _), if_neg (apart _), if_neg (apart _)]

/-- The positions whose threads a destination changes, for position t and the positions `ps` of a predicate, and how. -/
def Dst.positions (d : Dst) (t : Nat) (ps : List Nat) : List Nat :=
  match d.op with
  | .v _ => [t]
  | .q n => if n.val < 8 then [t] else []
  | .p _ => ps
  | _ => []

def Dst.onThread (d : Dst) (rs : List Reg) (th : Thread) : Thread :=
  match d.op with
  | .v n => th.setRegs n.val rs
  | .q n => th.push n.val rs
  | .p n => th.setPred n.val (rs.any fun r => r.val != 0) (regsBad rs)
  | _ => th

theorem thread_writeDst (s : State) (k v : Nat) (gr : Group) (d : Dst) (t : Nat) {ps : List Nat} (hps : ps.Nodup) (rs : List Reg) (g w u : Nat) :
    (s.writeDst k v gr d t ps rs).thread? g w u =
      if g = k ∧ w = v ∧ u ∈ d.positions t ps then (s.thread? g w u).map (d.onThread rs) else s.thread? g w u := by
  obtain ⟨op, n, group⟩ := d
  cases op with
  | v m =>
    simp only [State.writeDst, Dst.positions, List.mem_singleton]
    exact thread_updThread s k v t (fun th => th.setRegs m.val rs) g w u
  | w m =>
    simp only [State.writeDst, Dst.positions, List.not_mem_nil, and_false, if_false]
    refine thread_updWarp s k v (fun x => x.setRegs m.val rs) (fun x => ?_) g w u
    exact List.foldlRecOn _ _ (motive := fun y : Warp => y.threads = x.threads) rfl fun _ hy _ _ => hy
  | q m =>
    simp only [State.writeDst, Dst.positions]
    split
    · simp only [List.mem_singleton]
      exact thread_updThread s k v t _ g w u
    · simp only [List.not_mem_nil, and_false, if_false]
      split
      · exact thread_ringPush _ _ _ _ _ _ _ _
      · rfl
  | p m =>
    simp only [State.writeDst, Dst.positions]
    exact thread_foldl_updThread s k v _ hps g w u
  | vz => simp [State.writeDst, Dst.positions]
  | sv _ => simp [State.writeDst, Dst.positions]
  | imm _ => simp [State.writeDst, Dst.positions]
  | lit => simp [State.writeDst, Dst.positions]

/-! ### The instruction's effect -/

section Effect
variable {s : State} {x : Iss} {h : Hdr} {sh : Shape}

/-- The words that a destination gets for a position and its sources. -/
def Dst.words (d : Dst) (f : Iss → Nat → List Nat → Nat) (x : Iss) (m : Nat × List (List Reg)) : List Reg :=
  regsOf d.n (f x m.1 (m.2.map regsNat)) (m.2.any regsBad)

/-- A position of what an instruction sees writes the destination; then all of them. -/
def State.writeFor (x : Iss) (d : Dst) (f : Iss → Nat → List Nat → Nat) (k : Taken) (s : State) (m : Nat × List (List Reg)) : State :=
  s.writeDst x.r.g x.r.w x.g d m.1 (if k.uni then k.ts else [m.1]) (d.words f x m)
def State.writeAll (s : State) (x : Iss) (d : Dst) (f : Iss → Nat → List Nat → Nat) (k : Taken) : State :=
  k.vals.foldl (State.writeFor x d f k) s

theorem calm_writeFor (x : Iss) (d : Dst) (f : Iss → Nat → List Nat → Nat) (k : Taken) (s : State) (m : Nat × List (List Reg)) :
    Calm s (s.writeFor x d f k m) :=
  calm_writeDst _ _ _ _ _ _ _ _

theorem writes_of_dst {d : Dst} (hd : sh.dst = some d) (f : Iss → Nat → List Nat → Nat) (x : Iss) (k : Taken) (s : State) :
    writes sh f x k s = (s.writeAll x d f k, .next []) := by
  rw [writes, hd]
  rfl

/-- An instruction that computes its destination writes it and passes. -/
theorem performed_writes (hx : s.iss? = some x) (takes : x.doing h sh ≠ []) {d : Dst} (hd : sh.dst = some d) (per : Nat)
    (f : Iss → Nat → List Nat → Nat) : ∃ n, s.performed x h sh per (writes sh f) =
      (((s.afterRead x h sh).writeAll x d f (s.sees x h sh)).occupy x.r n).finish x.r x.size [] := by
  have still : Still s ((s.afterRead x h sh).writeAll x d f (s.sees x h sh)) := by
    have := (calm_readSrcs s x h sh.srcs (sh.readers (x.doing h sh))).trans (calm_writes sh f x (s.sees x h sh) _)
    rw [writes_of_dst hd] at this
    exact this.still
  refine ⟨x.cost (sh.isUniform || (sh.flat && sh.srcs.all Src.uniform)) per, ?_⟩
  unfold State.performed State.act
  dsimp only
  rw [if_neg (by simp [takes]), writes_of_dst hd]
  exact congrArg (fun t : State => (t.occupy x.r _).finish x.r x.size []) (unpop_still hx still sh (x.doing h sh) s)

theorem thread_finish_occupy (t : State) (r : PathRef) (n size : Nat) (moves : List (Nat × W64)) (g w u : Nat) :
    ((t.occupy r n).finish r size moves).thread? g w u = t.thread? g w u := by
  rw [State.finish, thread_updWarp, State.occupy, thread_updWarp]
  · exact fun _ => rfl
  · intro x
    dsimp only
    split <;> rfl

theorem wreg_updWarp (t : State) (k v : Nat) (f : Warp → Warp) (hf : ∀ x n, (f x).reg n = x.reg n) (g w n : Nat) :
    (t.updWarp k v f).wreg g w n = t.wreg g w n := by
  simp only [State.wreg, warp_updWarp]
  exact map_ite_map_of_keeps fun _ x => hf x n

theorem wreg_finish_occupy (t : State) (r : PathRef) (n size : Nat) (moves : List (Nat × W64)) (g w k : Nat) :
    ((t.occupy r n).finish r size moves).wreg g w k = t.wreg g w k := by
  rw [State.finish, wreg_updWarp, State.occupy, wreg_updWarp]
  · exact fun _ _ => rfl
  · intro x n
    dsimp only
    split <;> rfl

/-- Each position has its values once. -/
theorem nodup_vals (s : State) (x : Iss) (h : Hdr) (sh : Shape) : ((s.sees x h sh).vals.map (·.1)).Nodup := by
  have positions : (s.sees x h sh).vals.map (·.1) = sh.readers (x.doing h sh) := by
    simp only [State.sees, State.taken, State.readSrcs, List.map_map]
    exact List.zipIdx_map_fst 0 _
  rw [positions, Shape.readers]
  split
  · exact (maskList_nodup _).sublist (List.take_sublist _ _)
  · exact maskList_nodup _

/-- The positions of a predicate are distinct. -/
theorem nodup_preds (s : State) (x : Iss) (h : Hdr) (sh : Shape) (t : Nat) :
    (if (s.sees x h sh).uni then (s.sees x h sh).ts else [t]).Nodup := by
  split
  · exact maskList_nodup _
  · exact List.nodup_singleton _

/-- A uniform instruction has one position with values. -/
theorem eq_of_uniform (uni : sh.isUniform = true) {a b : Nat × List (List Reg)} (ha : a ∈ (s.sees x h sh).vals)
    (hb : b ∈ (s.sees x h sh).vals) : a = b := by
  have one : (s.sees x h sh).vals.length ≤ 1 := by
    simp only [State.sees, State.taken, State.readSrcs, List.length_map, List.length_zipIdx, Shape.readers, uni, if_true, List.length_take]
    omega
  generalize (s.sees x h sh).vals = l at ha hb one
  match l, one with
  | [c], _ => rw [List.mem_singleton.1 ha, List.mem_singleton.1 hb]

/-- The positions that the values of position m write. -/
def State.written (s : State) (x : Iss) (h : Hdr) (sh : Shape) (d : Dst) (m : Nat) : List Nat :=
  d.positions m (if (s.sees x h sh).uni then (s.sees x h sh).ts else [m])

/-- A fold whose steps leave what is read alone, but for the one at `a`. -/
theorem foldl_reads {σ α β : Type} {step : σ → α → σ} {read : σ → β} {F : β → β} {l : List α} {key : α → Nat} {a : α}
    (once : (l.map key).Nodup) (ha : a ∈ l) (own : ∀ t, read (step t a) = F (read t))
    (others : ∀ t, ∀ b ∈ l, key b ≠ key a → read (step t b) = read t) (s : σ) : read (l.foldl step s) = F (read s) := by
  obtain ⟨before, after, rfl⟩ := List.append_of_mem ha
  rw [List.map_append, List.map_cons, List.nodup_append, List.nodup_cons] at once
  obtain ⟨-, ⟨last, -⟩, apart⟩ := once
  have keeps : ∀ part : List α, (∀ b ∈ part, b ∈ before ++ a :: after ∧ key b ≠ key a) → ∀ t, read (part.foldl step t) = read t := by
    intro part hpart t
    exact List.foldlRecOn part step (motive := fun u => read u = read t) rfl fun u hu b hb =>
      (others u b (hpart b hb).1 (hpart b hb).2).trans hu
  rw [List.foldl_append, List.foldl_cons, keeps after, own, keeps before]
  · exact fun b hb => ⟨List.mem_append_left _ hb, apart _ (List.mem_map_of_mem hb) _ List.mem_cons_self⟩
  · exact fun b hb => ⟨by simp [hb], fun same => last (same ▸ List.mem_map_of_mem hb)⟩

/-- A thread that only the values of position m write gets them. -/
theorem thread_writeAll (d : Dst) (f : Iss → Nat → List Nat → Nat) {m : Nat × List (List Reg)} (hm : m ∈ (s.sees x h sh).vals) {u : Nat}
    (own : u ∈ s.written x h sh d m.1) (others : ∀ b ∈ (s.sees x h sh).vals, b.1 ≠ m.1 → u ∉ s.written x h sh d b.1) (t : State) :
    (t.writeAll x d f (s.sees x h sh)).thread? x.r.g x.r.w u = (t.thread? x.r.g x.r.w u).map (d.onThread (d.words f x m)) := by
  refine foldl_reads (read := fun t : State => t.thread? x.r.g x.r.w u) (F := Option.map (d.onThread (d.words f x m))) (nodup_vals s x h sh) hm (fun t => ?_) (fun t b hb other => ?_) t
  · rw [State.writeFor, thread_writeDst t _ _ _ _ _ (nodup_preds s x h sh _), if_pos ⟨rfl, rfl, own⟩]
  · rw [State.writeFor, thread_writeDst t _ _ _ _ _ (nodup_preds s x h sh _), if_neg fun at_ => others b hb other at_.2.2]

/-- The same for a destination in the position's own thread. -/
theorem thread_writeAll_own (d : Dst) (f : Iss → Nat → List Nat → Nat) (alone : ∀ n, s.written x h sh d n = [n])
    {m : Nat × List (List Reg)} (hm : m ∈ (s.sees x h sh).vals) (t : State) :
    (t.writeAll x d f (s.sees x h sh)).thread? x.r.g x.r.w m.1 = (t.thread? x.r.g x.r.w m.1).map (d.onThread (d.words f x m)) := by
  refine thread_writeAll d f hm (by simp [alone]) (fun b _ other => ?_) t
  rw [alone, List.mem_singleton]
  exact fun same => other same.symm

theorem warp_isSome_of_calm {s t : State} (calm : Calm s t) (hx : s.iss? = some x) : (t.warp? x.r.g x.r.w).isSome = true := by
  obtain ⟨_, hg, hw, _, _⟩ := iss_spec hx
  obtain ⟨q, hq, traps⟩ := find_traps x.r.g s.groups t.groups calm.traps x.g hg
  have warps : q.warps.map (fun w => w.threads.map (·.trapped)) = x.g.warps.map fun w => w.threads.map (·.trapped) :=
    congrArg (fun v => v.2.2.2) traps
  have here := congrArg (fun l => (l[x.r.w]?).isSome) warps
  simpa [State.warp?, show t.group? x.r.g = some q from hq, hw] using here

/-- In a warp's registers stand the words of the last position. -/
theorem wreg_writeAll {d : Dst} {r : Fin 128} (hd : d.op = .w r) (f : Iss → Nat → List Nat → Nat) {m : Nat × List (List Reg)}
    (last : (s.sees x h sh).vals.getLast? = some m) {t : State} (calm : Calm s t) (hx : s.iss? = some x) {j : Nat} (hj : j < d.n) :
    (t.writeAll x d f (s.sees x h sh)).wreg x.r.g x.r.w (r.val + j) = (d.words f x m)[j]? := by
  obtain ⟨before, split⟩ := List.getLast?_eq_some_iff.1 last
  have lastly : ∃ u : State, Calm t u ∧ t.writeAll x d f (s.sees x h sh) = u.updWarp x.r.g x.r.w fun w => w.setRegs r.val (d.words f x m) := by
    rw [State.writeAll, split, List.foldl_append]
    refine ⟨_, calm_foldl before _ (calm_writeFor x d f (s.sees x h sh)) t, ?_⟩
    rw [List.foldl_cons, List.foldl_nil, State.writeFor, State.writeDst, hd]
    rfl
  obtain ⟨u, kept, written⟩ := lastly
  obtain ⟨w, hw⟩ := Option.isSome_iff_exists.1 (warp_isSome_of_calm (calm.trans kept) hx)
  rw [written, State.wreg, warp_updWarp, if_pos ⟨rfl, rfl⟩, hw, Option.map_some, Option.map_some]
  exact some_wreg_setRegs w r.val _ (by rwa [Dst.words, length_regsOf])

/-- Whether a thread exists is no matter of reading operands. -/
theorem thread_afterRead_isSome {g w u : Nat} (there : (s.thread? g w u).isSome = true) :
    ((s.afterRead x h sh).thread? g w u).isSome = true := by
  have same := congrArg Option.isSome (handling_of_still (calm_readSrcs s x h sh.srcs (sh.readers (x.doing h sh))).still g w u)
  rw [Option.isSome_map, Option.isSome_map, there] at same
  exact same

end Effect

/-- Settles O49: what a position's thread or warp holds after the fold is what the position's own write leaves there. -/
theorem computedDestination : Obligations.ComputedDestination := by
  intro i h sh per f completes s x d clear hd takes
  refine ⟨_, completes s x clear, ?_⟩
  obtain ⟨n, performs⟩ := performed_writes clear.issues takes hd per f
  rw [performs]
  intro vals value
  have thread := thread_finish_occupy ((s.afterRead x h sh).writeAll x d f (s.sees x h sh)) x.r n x.size []
  have read : Calm s (s.afterRead x h sh) := calm_readSrcs _ _ _ _ _
  have length : ∀ m, (value m).length = d.n := fun m => length_regsOf _ _ _
  refine ⟨fun r op m hm there j hj => ?_, fun r op m last _ j hj => ?_, fun r op m hm u hu there => ?_, fun r op small m hm => ?_⟩
  · have alone : ∀ n, s.written x h sh d n = [n] := fun n => by simp only [State.written, Dst.positions, op]
    obtain ⟨th, hth⟩ := Option.isSome_iff_exists.1 (thread_afterRead_isSome (x := x) (h := h) (sh := sh) there)
    rw [State.vreg, thread, thread_writeAll_own d f alone hm, hth, Option.map_some, Option.map_some, Dst.onThread, op]
    exact some_reg_setRegs th r.val (value m) (by rwa [length])
  · rw [wreg_finish_occupy, wreg_writeAll op f last read clear.issues hj]
    rfl
  · have own : u ∈ s.written x h sh d m.1 := by
      simp only [State.written, Dst.positions, op]
      exact hu
    have others : ∀ b ∈ (s.sees x h sh).vals, b.1 ≠ m.1 → u ∉ s.written x h sh d b.1 := by
      intro b hb other
      by_cases uni : sh.isUniform = true
      · exact absurd (congrArg Prod.fst (eq_of_uniform uni hb hm)) other
      · rw [if_neg uni, List.mem_singleton] at hu
        have apart : u ∉ if sh.isUniform then x.doing h sh else [b.1] := by
          rw [if_neg uni, List.mem_singleton]
          exact fun same => other (same.symm.trans hu)
        simp only [State.written, Dst.positions, op]
        exact apart
    obtain ⟨th, hth⟩ := Option.isSome_iff_exists.1 (thread_afterRead_isSome (x := x) (h := h) (sh := sh) there)
    rw [State.preg, thread, thread_writeAll d f hm own others, hth, Option.map_some, Option.map_some, Dst.onThread, op,
      pred_setPred _ _ _ _ _ r.isLt r.isLt, predBad_setPred _ _ _ _ _ r.isLt r.isLt, if_pos rfl, if_pos rfl]
    rfl
  · have alone : ∀ n, s.written x h sh d n = [n] := fun n => by simp only [State.written, Dst.positions, op, small, if_true]
    rw [State.queue, thread, thread_writeAll_own d f alone hm, State.queue, Option.map_map, Option.map_map]
    congr 1
    funext th
    simp only [Function.comp_apply, Dst.onThread, op, Thread.push, sget_sset, if_true]
    rfl

end Sys2Proof.Machine
end

section
/-! PROOFS. What an instruction that computes a destination leaves unchanged (R26, R33, R194): what is read of a state that neither reading
operands nor passing an instruction changes is changed by writing the destination alone. -/

namespace Sys2Proof.Machine

/-! ### Readings of a state -/

/-- Some source is a ring port. -/
def Shape.popsRing (sh : Shape) : Prop := ∃ a ∈ sh.srcs, ∃ n, a.op = .q n ∧ 8 ≤ n.val

/-- What `read` reads of a state changes neither when the instruction takes its operands nor when its path passes it. -/
structure Shape.Spares {β : Type} (sh : Shape) (x : Iss) (read : State → β) : Prop where
  pops : ∀ s t (port n : Nat), read (s.updThread x.r.g x.r.w t fun th => (th.pop port n).1) = read s
  rings : sh.popsRing → ∀ s base k m, read (s.ringPop x.g base k m).1 = read s
  passes : ∀ s n, read ((s.occupy x.r n).finish x.r x.size []) = read s

section Spares
variable {β : Type} {sh : Shape} {x : Iss} {read : State → β}

theorem Shape.Spares.readSrc (spares : sh.Spares x read) (h : Hdr) {a : Src} (ha : a ∈ sh.srcs) (ts : List Nat) (s : State) :
    read (s.readSrc x h a ts).1 = read s := by
  unfold State.readSrc
  split
  case h_2 => rfl
  case h_1 n op =>
    split
    · refine List.foldlRecOn ts _ (motive := fun t : State × List (List Reg) => read t.1 = read s) rfl fun t ht u _ => ?_
      dsimp only
      split
      · exact ht
      · exact (spares.pops t.1 u n.val a.n).trans ht
    case isFalse ring =>
      split
      · rfl
      · rename_i base k _
        exact spares.rings ⟨a, ha, n, op, by omega⟩ s base k _

theorem Shape.Spares.afterRead (spares : sh.Spares x read) (h : Hdr) (s : State) (ts : List Nat) :
    read (s.readSrcs x h sh.srcs ts).1 = read s :=
  List.foldlRecOn sh.srcs _ (motive := fun t : State × List (List (List Reg)) => read t.1 = read s) rfl fun t ht _ ha =>
    (spares.readSrc h ha ts t.1).trans ht

/-- Such a reading changes only with what is written to the destination. -/
theorem Shape.Spares.performed (spares : sh.Spares x read) {s : State} (hx : s.iss? = some x) (h : Hdr) (per : Nat)
    (f : Iss → Nat → List Nat → Nat)
    (dst : ∀ d, sh.dst = some d → ∀ m ∈ (s.sees x h sh).vals, ∀ t, read (State.writeFor x d f (s.sees x h sh) t m) = read t) :
    read (s.performed x h sh per (writes sh f)) = read s := by
  have written : read (writes sh f x (s.sees x h sh) (s.afterRead x h sh)).1 = read s := by
    refine Eq.trans ?_ (spares.afterRead h s (sh.readers (x.doing h sh)))
    cases hd : sh.dst with
    | none => rw [writes, hd]; rfl
    | some d =>
      rw [writes_of_dst hd]
      exact List.foldlRecOn (s.sees x h sh).vals _ (motive := fun t : State => read t = read (s.afterRead x h sh)) rfl
        fun t ht m hm => (dst d hd m hm t).trans ht
  have still : Still s (writes sh f x (s.sees x h sh) (s.afterRead x h sh)).1 :=
    ((calm_readSrcs s x h sh.srcs (sh.readers (x.doing h sh))).trans (calm_writes sh f x (s.sees x h sh) _)).still
  have flow : (writes sh f x (s.sees x h sh) (s.afterRead x h sh)).2 = .next [] := by
    unfold writes
    split <;> rfl
  unfold State.performed State.act
  dsimp only
  split
  · exact spares.passes s _
  · change read (match (writes sh f x (s.sees x h sh) (s.afterRead x h sh)).2 with
      | .next moves => ((x.unpop sh _ s (writes sh f x (s.sees x h sh) (s.afterRead x h sh)).1).occupy x.r _).finish x.r x.size moves
      | .stay => x.unpop sh _ s (writes sh f x (s.sees x h sh) (s.afterRead x h sh)).1
      | .wait => (x.unpop sh _ s (writes sh f x (s.sees x h sh) (s.afterRead x h sh)).1).occupy x.r _) = read s
    rw [flow, unpop_still hx still]
    exact (spares.passes _ _).trans written

end Spares

/-- A position with values takes the instruction. -/
theorem mem_doing_of_vals {s : State} {x : Iss} {h : Hdr} {sh : Shape} {m : Nat × List (List Reg)} (hm : m ∈ (s.sees x h sh).vals) :
    m.1 ∈ x.doing h sh := by
  have reader : m.1 ∈ sh.readers (x.doing h sh) := by
    have := List.mem_map_of_mem (f := Prod.fst) hm
    simpa only [State.sees, State.taken, State.readSrcs, List.map_map, Function.comp_def, List.zipIdx_map_fst] using this
  unfold Shape.readers at reader
  split at reader
  · exact List.mem_of_mem_take reader
  · exact reader

/-! ### Threads -/

section Threads
variable {β : Type} {p : Thread → β} {g w u : Nat}

theorem map_thread_updThread (s : State) (k v t : Nat) (f : Thread → Thread) (keeps : g = k → w = v → u = t → ∀ th, p (f th) = p th) :
    ((s.updThread k v t f).thread? g w u).map p = (s.thread? g w u).map p := by
  rw [thread_updThread]
  exact map_ite_map_of_keeps fun at_ => keeps at_.1 at_.2.1 at_.2.2

/-- What is read of a thread without its queues changes with the destination alone. -/
theorem spares_thread (sh : Shape) (x : Iss) (queues : ∀ th q, p { th with q := q } = p th) :
    sh.Spares x fun s => (s.thread? g w u).map p where
  pops s t port n := map_thread_updThread s _ _ t _ fun _ _ _ th => queues th _
  rings _ s base k m := by simp only [State.ringPop, thread_putScratch]
  passes s n := by simp only [thread_finish_occupy]

theorem performed_thread {s : State} {x : Iss} {h : Hdr} {sh : Shape} (hx : s.iss? = some x) (per : Nat) (f : Iss → Nat → List Nat → Nat)
    (queues : ∀ th q, p { th with q := q } = p th)
    (dst : ∀ d, sh.dst = some d → g = x.r.g → w = x.r.w → u ∈ x.doing h sh → ∀ rs, rs.length = d.n → ∀ th, p (d.onThread rs th) = p th) :
    ((s.performed x h sh per (writes sh f)).thread? g w u).map p = (s.thread? g w u).map p := by
  refine (spares_thread sh x queues).performed (read := fun s : State => (s.thread? g w u).map p) hx h per f fun d hd m hm t => ?_
  rw [State.writeFor, thread_writeDst t _ _ _ _ _ (nodup_preds s x h sh _)]
  refine map_ite_map_of_keeps fun at_ => dst d hd at_.1 at_.2.1 ?_ _ (length_regsOf _ _ _)
  have positions := at_.2.2
  have taker := mem_doing_of_vals hm
  have preds : ∀ v ∈ (if (s.sees x h sh).uni then (s.sees x h sh).ts else [m.1]), v ∈ x.doing h sh := by
    intro v hv
    split at hv
    · exact hv
    · exact List.mem_singleton.1 hv ▸ taker
  unfold Dst.positions at positions
  split at positions
  · exact List.mem_singleton.1 positions ▸ taker
  · split at positions
    · exact List.mem_singleton.1 positions ▸ taker
    · cases positions
  · exact preds u positions
  · cases positions

/-- R26, R194: vector registers, predicates and levels. -/
theorem vreg_performed {s : State} {x : Iss} {h : Hdr} {sh : Shape} (hx : s.iss? = some x) (per : Nat) (f : Iss → Nat → List Nat → Nat) {n : Nat}
    (other : ¬(g = x.r.g ∧ w = x.r.w ∧ u ∈ x.doing h sh ∧ ∃ d, sh.dst = some d ∧ d.covers true n)) :
    (s.performed x h sh per (writes sh f)).vreg g w u n = s.vreg g w u n := by
  refine performed_thread hx per f (fun _ _ => rfl) fun d hd hg hw hu rs len th => ?_
  unfold Dst.onThread
  split
  case h_1 m op =>
    have beside : ¬ (m.val ≤ n ∧ n < m.val + d.n) := fun within =>
      other ⟨hg, hw, hu, d, hd, m.val, ⟨m, op, rfl⟩, within⟩
    rw [reg_setRegs]
    split
    · rw [List.getElem?_eq_none (by omega), Option.getD_none]
    · rfl
  all_goals rfl

theorem preg_performed {s : State} {x : Iss} {h : Hdr} {sh : Shape} (hx : s.iss? = some x) (per : Nat) (f : Iss → Nat → List Nat → Nat) {n : Nat}
    (small : n < 7) (other : ¬(g = x.r.g ∧ w = x.r.w ∧ u ∈ x.doing h sh ∧ ∃ d m, sh.dst = some d ∧ d.op = .p m ∧ m.val = n)) :
    (s.performed x h sh per (writes sh f)).preg g w u n = s.preg g w u n := by
  refine performed_thread hx per f (fun _ _ => rfl) fun d hd hg hw hu rs _ th => ?_
  unfold Dst.onThread
  split
  case h_3 m op =>
    have beside : ¬ n = m.val := fun same => other ⟨hg, hw, hu, d, m, hd, op, same.symm⟩
    rw [pred_setPred _ _ _ _ _ m.isLt small, predBad_setPred _ _ _ _ _ m.isLt small, if_neg beside, if_neg beside]
  case h_1 m _ =>
    exact List.foldlRecOn _ _ (motive := fun y : Thread => (y.pred n, y.predBad n) = (th.pred n, th.predBad n)) rfl fun _ hy _ _ => hy
  all_goals rfl

theorem level_performed {s : State} {x : Iss} {h : Hdr} {sh : Shape} (hx : s.iss? = some x) (per : Nat) (f : Iss → Nat → List Nat → Nat) :
    (s.performed x h sh per (writes sh f)).level g w u = s.level g w u := by
  refine performed_thread hx per f (fun _ _ => rfl) fun d _ _ _ _ rs _ th => ?_
  unfold Dst.onThread
  split
  case h_1 m _ =>
    exact List.foldlRecOn _ _ (motive := fun y : Thread => (y.super, y.trapped) = (th.super, th.trapped)) rfl fun _ hy _ _ => hy
  all_goals rfl

end Threads

/-! ### Warps and groups -/

section Groups
variable {β : Type} {P : Group → β} {g : Nat}

theorem map_group_updGroup (s : State) (k : Nat) (f : Group → Group) (key : ∀ q, (f q).key = q.key) (keeps : ∀ q, P (f q) = P q) :
    ((s.updGroup k f).group? g).map P = (s.group? g).map P := by
  rw [group_updGroup s k f key]
  exact map_ite_map_of_keeps fun _ => keeps

theorem map_group_updWarp (warps : ∀ q ws, P { q with warps := ws } = P q) (s : State) (k v : Nat) (f : Warp → Warp) :
    ((s.updWarp k v f).group? g).map P = (s.group? g).map P :=
  map_group_updGroup s k _ (fun _ => rfl) fun q => warps q _

theorem map_group_putScratch (pad : ∀ q sc bad, P { q with scratch := sc, scratchBad := bad } = P q) (s : State) (gr : Group) (k o : Nat)
    (bs : List Byte) (bad : Bool) : ((s.putScratch gr k o bs bad).group? g).map P = (s.group? g).map P := by
  refine List.foldlRecOn _ _ (motive := fun t : State => (t.group? g).map P = (s.group? g).map P) rfl fun t ht q _ => Eq.trans ?_ ht
  simp only [State.putScratchByte]
  split
  · rfl
  · exact map_group_updGroup t _ _ (fun _ => rfl) fun q => pad q _ _

theorem spares_group (sh : Shape) (x : Iss) (warps : ∀ q ws, P { q with warps := ws } = P q)
    (pad : sh.popsRing → ∀ q sc bad, P { q with scratch := sc, scratchBad := bad } = P q) : sh.Spares x fun s => (s.group? g).map P where
  pops s _ _ _ := map_group_updWarp warps s _ _ _
  rings ring s _ _ _ := map_group_putScratch (pad ring) s _ _ _ _ _
  passes _ _ := (map_group_updWarp warps _ _ _ _).trans (map_group_updWarp warps _ _ _ _)

/-- A destination that is no ring port leaves alone what a group holds beside its warps. -/
theorem map_group_writeDst (warps : ∀ q ws, P { q with warps := ws } = P q) {d : Dst}
    (pad : (∃ n, d.op = .q n ∧ 8 ≤ n.val) → ∀ q sc bad, P { q with scratch := sc, scratchBad := bad } = P q)
    (s : State) (k v : Nat) (gr : Group) (t : Nat) (ps : List Nat) (rs : List Reg) :
    ((s.writeDst k v gr d t ps rs).group? g).map P = (s.group? g).map P := by
  unfold State.writeDst
  split
  · exact map_group_updWarp warps _ _ _ _
  · exact map_group_updWarp warps _ _ _ _
  · rename_i n op
    split
    · exact map_group_updWarp warps _ _ _ _
    · rename_i ring
      split
      · rw [State.ringPush, map_group_putScratch (pad ⟨n, op, by omega⟩)]
        exact List.foldlRecOn _ _ (motive := fun t : State => (t.group? g).map P = (s.group? g).map P) rfl fun t ht _ _ =>
          (map_group_putScratch (pad ⟨n, op, by omega⟩) t _ _ _ _ _).trans ht
      · rfl
  · exact List.foldlRecOn ps _ (motive := fun t : State => (t.group? g).map P = (s.group? g).map P) rfl fun t ht _ _ =>
      (map_group_updWarp warps t _ _ _).trans ht
  · rfl

theorem performed_group {s : State} {x : Iss} {h : Hdr} {sh : Shape} (hx : s.iss? = some x) (per : Nat) (f : Iss → Nat → List Nat → Nat)
    (warps : ∀ q ws, P { q with warps := ws } = P q)
    (pops : sh.popsRing → ∀ q sc bad, P { q with scratch := sc, scratchBad := bad } = P q)
    (pushes : ∀ d, sh.dst = some d → (∃ n, d.op = .q n ∧ 8 ≤ n.val) → ∀ q sc bad, P { q with scratch := sc, scratchBad := bad } = P q) :
    ((s.performed x h sh per (writes sh f)).group? g).map P = (s.group? g).map P :=
  (spares_group sh x warps pops).performed (read := fun s : State => (s.group? g).map P) hx h per f fun d hd _ _ t =>
    map_group_writeDst warps (pushes d hd) t _ _ _ _ _ _

end Groups

/-! ### Warp registers -/

theorem warp_eq_bind_warps (s : State) (g w : Nat) : s.warp? g w = ((s.group? g).map Group.warps).bind (·[w]?) := by
  rw [Option.bind_map]
  rfl

theorem warp_putScratch (s : State) (gr : Group) (k o : Nat) (bs : List Byte) (bad : Bool) (g w : Nat) :
    (s.putScratch gr k o bs bad).warp? g w = s.warp? g w := by
  rw [warp_eq_bind_warps, warp_eq_bind_warps, map_group_putScratch fun _ _ _ => rfl]

theorem warp_ringPush (s : State) (gr : Group) (base k : Nat) (rs : List Reg) (g w : Nat) :
    (s.ringPush gr base k rs).warp? g w = s.warp? g w := by
  rw [State.ringPush, warp_putScratch]
  exact List.foldlRecOn _ _ (motive := fun t : State => t.warp? g w = s.warp? g w) rfl fun t ht _ _ => (warp_putScratch t _ _ _ _ _ _ _).trans ht

theorem spares_wreg (sh : Shape) (x : Iss) (g w n : Nat) : sh.Spares x fun s => s.wreg g w n where
  pops s t _ _ := wreg_updThread s _ _ t _ g w n
  rings _ s _ _ _ := by simp only [State.ringPop, State.wreg, warp_putScratch]
  passes s m := wreg_finish_occupy s _ _ _ _ g w n

theorem wreg_writeDst {g w n k v : Nat} {d : Dst} {rs : List Reg} (len : rs.length = d.n) (other : ¬(g = k ∧ w = v ∧ d.covers false n))
    (s : State) (gr : Group) (t : Nat) (ps : List Nat) : (s.writeDst k v gr d t ps rs).wreg g w n = s.wreg g w n := by
  unfold State.writeDst
  split
  case h_1 => exact wreg_updThread s _ _ _ _ g w n
  case h_2 m op =>
    rw [State.wreg, warp_updWarp, State.wreg]
    refine map_ite_map_of_keeps fun at_ y => (wreg_setRegs y m.val rs n).trans ?_
    have beside : ¬ (m.val ≤ n ∧ n < m.val + d.n) := fun within => other ⟨at_.1, at_.2, m.val, ⟨m, op, rfl⟩, within⟩
    split
    · rw [List.getElem?_eq_none (by omega), Option.getD_none]
    · rfl
  case h_3 =>
    split
    · exact wreg_updThread s _ _ _ _ g w n
    · split
      · rw [State.wreg, warp_ringPush, State.wreg]
      · rfl
  case h_4 =>
    exact List.foldlRecOn ps _ (motive := fun t : State => t.wreg g w n = s.wreg g w n) rfl fun t ht _ _ =>
      (wreg_updThread t _ _ _ _ g w n).trans ht
  case h_5 => rfl

theorem wreg_performed {s : State} {x : Iss} {h : Hdr} {sh : Shape} (hx : s.iss? = some x) (per : Nat) (f : Iss → Nat → List Nat → Nat) {g w n : Nat}
    (other : ¬(g = x.r.g ∧ w = x.r.w ∧ ∃ d, sh.dst = some d ∧ d.covers false n)) :
    (s.performed x h sh per (writes sh f)).wreg g w n = s.wreg g w n :=
  (spares_wreg sh x g w n).performed (read := fun s : State => s.wreg g w n) hx h per f fun d hd _ _ t =>
    wreg_writeDst (length_regsOf _ _ _) (fun at_ => other ⟨at_.1, at_.2.1, d, hd, at_.2.2⟩) t _ _ _

/-! ### The frame -/

/-- A ringless shape has no ring as its destination. -/
theorem Shape.ringless.dst {sh : Shape} (ringless : sh.ringless) {d : Dst} (hd : sh.dst = some d) : ¬∃ n, d.op = .q n ∧ 8 ≤ n.val := by
  rintro ⟨n, op, ring⟩
  have small := ringless d.use (by simp [Shape.fields, hd, Dst.use]) n op
  omega

theorem scratch_performed {s : State} {x : Iss} {h : Hdr} {sh : Shape} (hx : s.iss? = some x) (per : Nat) (f : Iss → Nat → List Nat → Nat)
    (ringless : sh.ringless) (pops : ¬sh.popsRing) (g : Nat) :
    ((s.performed x h sh per (writes sh f)).group? g).map (·.scratch) = (s.group? g).map (·.scratch) :=
  performed_group hx per f (fun _ _ => rfl) (fun ring => absurd ring pops) fun _ hd ring => absurd ring (ringless.dst hd)

end Sys2Proof.Machine
end

section
/-! PROOFS. What reaches the scratchpad of a group, and what does not. -/

namespace Sys2Proof.Machine

/-- The scratchpad of a group of a list, and its tile operations. -/
def padOf (l : List Group) (m : Nat) : Option (List Host.Cell × List MatOp) :=
  (l.find? fun g => decide (g.key = m)).map fun g => (g.scratch, g.ops)

section Pads
variable {s t : State} {m k : Nat} {r : PathRef}

theorem padOf_mapIf (p : Group → Bool) (f : Group → Group) (key : ∀ q, (f q).key = q.key) (pad : ∀ q, (f q).scratch = q.scratch ∧ (f q).ops = q.ops)
    (l : List Group) (m : Nat) : padOf (mapIf p f l) m = padOf l m := by
  induction l with
  | nil => rfl
  | cons a l ih =>
    have head : (if p a = true then f a else a).key = a.key ∧
        ((if p a = true then f a else a).scratch, (if p a = true then f a else a).ops) = (a.scratch, a.ops) := by
      split
      · exact ⟨key a, Prod.ext (pad a).1 (pad a).2⟩
      · exact ⟨rfl, rfl⟩
    simp only [padOf, mapIf, List.map_cons, List.find?_cons, head.1] at ih ⊢
    split
    · exact congrArg some head.2
    · exact ih

@[simp] theorem pad_updGroup (other : k ≠ m) (f : Group → Group) (key : ∀ q, (f q).key = q.key) :
    padOf (s.updGroup k f).groups m = padOf s.groups m := by
  have := congrArg (Option.map fun g : Group => (g.scratch, g.ops)) (group_updGroup s k f key m)
  rwa [if_neg other.symm] at this

@[simp] theorem pad_updWarp (other : k ≠ m) (v : Nat) (f : Warp → Warp) : padOf (s.updWarp k v f).groups m = padOf s.groups m :=
  pad_updGroup other _ fun _ => rfl

@[simp] theorem pad_updThread (other : k ≠ m) (v t : Nat) (f : Thread → Thread) : padOf (s.updThread k v t f).groups m = padOf s.groups m :=
  pad_updWarp other _ _

@[simp] theorem pad_updPath (other : r.g ≠ m) (f : Path → Path) : padOf (s.updPath r f).groups m = padOf s.groups m :=
  pad_updWarp other _ _

@[simp] theorem pad_settle (other : k ≠ m) (v : Nat) : padOf (s.settle k v).groups m = padOf s.groups m := pad_updWarp other _ _
@[simp] theorem pad_finish (other : r.g ≠ m) (size : Nat) (moves : List (Nat × W64)) :
    padOf (s.finish r size moves).groups m = padOf s.groups m := pad_updWarp other _ _
@[simp] theorem pad_occupy (other : r.g ≠ m) (n : Nat) : padOf (s.occupy r n).groups m = padOf s.groups m := pad_updWarp other _ _

theorem pad_foldl {α β : Type} (st : β → State) (l : List α) {f : β → α → β}
    (keeps : ∀ b, ∀ a ∈ l, padOf (st (f b a)).groups m = padOf (st b).groups m) (b : β) :
    padOf (st (l.foldl f b)).groups m = padOf (st b).groups m :=
  List.foldlRecOn l f (motive := fun x => padOf (st x).groups m = padOf (st b).groups m) rfl fun x hx a ha => (keeps x a ha).trans hx

/-! ### Faults -/

@[simp] theorem groups_patch (s : State) (ctx ticket : Nat) (f : Nat → Nat) : (s.patch ctx ticket f).groups = s.groups := by
  unfold State.patch
  repeat' split
  all_goals simp [apply_ite State.groups]

theorem groups_folds {ctx : Nat} {u : State} (folds : s.folds ctx = some u) : u.groups = s.groups := by
  unfold State.folds at folds
  split at folds
  · cases folds; rfl
  split at folds
  · split at folds
    · dsimp only at folds
      split at folds <;> cases folds <;> simp
    · cases folds
  · cases folds

@[simp] theorem groups_report (s : State) (e : ErrRec) : (s.report e).groups = s.groups := by
  unfold State.report
  split
  case h_1 folds => exact groups_folds folds
  case h_2 => simp

@[simp] theorem groups_contain (s : State) (ctx : Nat) (e : ErrRec) : (s.containCtx ctx e).groups = s.groups := by
  unfold State.containCtx
  split
  case h_1 folds => exact groups_folds folds
  case h_2 => simp

@[simp] theorem pad_stopGang (s : State) (keys : List Nat) (e : ErrRec) (m : Nat) : padOf (s.stopGang keys e).groups m = padOf s.groups m := by
  unfold State.stopGang
  split
  case h_1 folds => rw [groups_folds folds]
  case h_2 =>
    split
    · rfl
    · exact padOf_mapIf _ (fun g => { g with stop := true }) (fun _ => rfl) (fun _ => ⟨rfl, rfl⟩) _ m

@[simp] theorem pad_enter (other : r.g ≠ m) (mask ret : W64) (cause : Nat) (fault skip : Bool) :
    padOf (s.enter r mask ret cause fault skip).groups m = padOf s.groups m := by
  unfold State.enter
  repeat' split
  all_goals simp [other]

@[simp] theorem pad_faultAt (other : r.g ≠ m) (mask ret : W64) (cls domain addr detail : Nat) (skip : Bool) :
    padOf (s.faultAt r mask ret cls domain addr detail skip).groups m = padOf s.groups m := by
  unfold State.faultAt
  dsimp only
  generalize (match s.ctx? _ with | some c => c.trapVec | none => 0) = vec
  repeat' split
  all_goals simp [other]

@[simp] theorem pad_fault (other : r.g ≠ m) (mask : W64) (cls domain addr detail : Nat) :
    padOf (s.fault r mask cls domain addr detail).groups m = padOf s.groups m := by
  unfold State.fault
  split <;> simp [other]

@[simp] theorem pad_trapAll (other : r.g ≠ m) (bad : List ThreadErr) : padOf (s.trapAll r bad).groups m = padOf s.groups m := by
  refine pad_foldl id _ (fun b a _ => ?_) s
  dsimp only [id]
  split <;> simp [other]

@[simp] theorem pad_faultPath {x : Iss} (other : x.r.g ≠ m) (cls addr detail : Nat) :
    padOf (s.faultPath x cls addr detail).groups m = padOf s.groups m := by
  simp [State.faultPath, other]

/-! ### Operands -/

@[simp] theorem pad_putOff (s : State) (m : Nat) : padOf s.putOff.groups m = padOf s.groups m := rfl

theorem pad_writeDst (other : k ≠ m) {d : Dst} (plain : isRing d.op = false) (v : Nat) (gr : Group) (t : Nat) (ps : List Nat) (rs : List Reg) :
    padOf (s.writeDst k v gr d t ps rs).groups m = padOf s.groups m := by
  unfold State.writeDst
  split
  · simp [other]
  · simp [other]
  · rename_i n op
    rw [op, isRing, decide_eq_false_iff_not] at plain
    rw [if_pos (by omega)]
    simp [other]
  · exact pad_foldl id _ (fun b a _ => by simp [other]) s
  · rfl

/-- Every source has a field that R430 checks. -/
def Shape.Proper (sh : Shape) : Prop := ∀ a ∈ sh.srcs, a.field = 1 ∨ a.field = 2 ∨ a.field = 3 ∨ a.field = 4

theorem Shape.Proper.mem_fields {sh : Shape} (proper : sh.Proper) {a : Src} (ha : a ∈ sh.srcs) : a.use ∈ sh.fields := by
  have field := proper a ha
  simp only [Shape.fields, List.mem_flatMap, List.mem_filter, decide_eq_true_eq]
  refine ⟨a.field, by simpa using field, ?_, rfl⟩
  exact List.mem_append_right _ (List.mem_map_of_mem ha)

theorem proper_of {sh : Shape} (fields : sh.srcs.all (fun a => decide (a.field = 1) || decide (a.field = 2) || decide (a.field = 3) || decide (a.field = 4)) = true) :
    sh.Proper := by
  intro a ha
  simpa [or_assoc] using List.all_eq_true.1 fields a ha

theorem src_plain {sh : Shape} (proper : sh.Proper) (plain : sh.usesRing = false) {a : Src} (ha : a ∈ sh.srcs) : isRing a.op = false := by
  have := List.any_eq_false.1 plain _ (proper.mem_fields ha)
  rw [Src.use] at this
  unfold isRing
  dsimp only at this
  split <;> simp_all

theorem dst_plain {sh : Shape} (plain : sh.usesRing = false) {d : Dst} (hd : sh.dst = some d) : isRing d.op = false := by
  have mem : d.use ∈ sh.fields := by simp [Shape.fields, hd, Dst.use]
  have := List.any_eq_false.1 plain _ mem
  rw [Dst.use] at this
  unfold isRing
  dsimp only at this
  split <;> simp_all

theorem pad_readSrcs {x : Iss} (other : x.r.g ≠ m) (h : Hdr) {srcs : List Src} (plain : ∀ a ∈ srcs, isRing a.op = false) (ts : List Nat) :
    padOf (s.readSrcs x h srcs ts).1.groups m = padOf s.groups m := by
  refine pad_foldl Prod.fst srcs (fun b a ha => ?_) (s, [])
  dsimp only
  unfold State.readSrc
  split
  · rename_i n op
    have small := plain a ha
    rw [op, isRing, decide_eq_false_iff_not] at small
    rw [if_pos (by omega)]
    refine pad_foldl Prod.fst ts (fun b u _ => ?_) (b.1, [])
    dsimp only
    split <;> simp [other]
  · rfl

theorem pad_unpop {x : Iss} (other : x.r.g ≠ m) {sh : Shape} (plain : ∀ a ∈ sh.srcs, isRing a.op = false) (ts : List Nat) (s0 : State) :
    padOf (x.unpop sh ts s0 s).groups m = padOf s.groups m := by
  unfold Iss.unpop
  split
  · rfl
  dsimp only
  generalize (List.filter _ _) = hit
  have restored : padOf (hit.foldl (fun s t => s.updThread x.r.g x.r.w t fun th => { th with q := (x.thread t).q, br := (x.thread t).br }) s).groups m =
      padOf s.groups m := pad_foldl id _ (fun b a _ => by simp [other]) s
  split
  · rfl
  split
  · refine Eq.trans (pad_foldl id sh.srcs (fun b a ha => ?_) _) restored
    dsimp only [id]
    split
    · rename_i n op
      have small := plain a ha
      rw [op, isRing, decide_eq_false_iff_not] at small
      rw [if_pos (by omega)]
    · rfl
  · exact restored

/-! ### An issue -/

/-- A path that issues apart from group m in a machine where nothing else goes on: it is of another group, which has no tile, no kiln binding
and no record, and whose convergence registers are armed at another instruction; a ring that it may use, and the bytes of m that it may
reach, lie in lines that an engine owns. Memory is empty, so that no address translates, and the device is contained. -/
structure Apart (s : State) (x : Iss) (m : Nat) : Prop where
  issues : s.iss? = some x
  other : x.r.g ≠ m
  moving : ∀ q, s.group? m = some q → q.ops ≠ []
  rings : ∀ sh : Shape, sh.usesRing = true → s.ringBusy x sh = true
  lines : ∀ o n, s.scratchBusy x.g o n = false → 0 < n → ∀ (t : State) j bs bad,
    padOf (t.putScratch x.g 0 (o + j) bs bad).groups m = padOf t.groups m
  held : s.held = true
  memory : s.mem = Memory.empty
  copies : s.copies = []
  seqs : s.seqs = []
  tasks : s.tasks = []
  saved : ∀ c ∈ s.ctxs, c.saved = none
  contained : s.dev.contained = true
  handler : x.c.trapVec = 0
  tiles : x.g.tiles = []
  kiln : x.g.kiln = none
  record : x.g.task = none
  armed : ∀ cv, (x.g.conv cv x.r.w).armed = true ∧ (x.g.conv cv x.r.w).spc ≠ x.p.pc

/-- Only groups and the device's own record have changed. -/
def Quiet (s v : State) : Prop := { v with groups := s.groups, dev := s.dev } = s

theorem Quiet.eq {v : State} (h : Quiet s v) : v = { s with groups := v.groups, dev := v.dev } := by
  have := id h
  rw [Quiet] at this
  rw [← this]

theorem Quiet.of_calm {u v : State} (h : Quiet s u) (c : Calm u v) : Quiet s v := by
  rw [Quiet, c.eq]
  exact h

/-- A result leaves the scratchpad of group m as it was. -/
def Result.Pads (m : Nat) (s : State) (r : Result) : Prop := ∀ t, r = .next t → padOf t.groups m = padOf s.groups m

theorem pads_next (h : padOf t.groups m = padOf s.groups m) : Result.Pads m s (.next t) := by
  intro u hu
  cases hu
  exact h

theorem pads_fault (f : Fault) : Result.Pads m s (.fault f) := fun _ h => by cases h

theorem pads_notNow (s : State) (m : Nat) : Result.Pads m s (notNow s) := pads_next rfl

theorem pads_orderly {x : Iss} {r : Result} (hr : Result.Pads m s r) : Result.Pads m s (x.orderly s r) := by
  unfold Iss.orderly
  split
  · split
    · exact pads_next rfl
    · exact hr
  · exact hr

/-- Without a handler a contained device takes an error into its record. -/
theorem trapAll_contained {g : Group} {c : Ctx} (hg : s.group? r.g = some g) (hc : s.ctx? g.ctx = some c) (handler : c.trapVec = 0)
    (contained : s.dev.contained = true) (bad : List ThreadErr) : ∃ d, s.trapAll r bad = { s with dev := d } := by
  have step : ∀ u : State, (∃ d : Device, d.contained = true ∧ u = { s with dev := d }) → ∀ mask cls domain addr detail,
      ∃ d : Device, d.contained = true ∧ u.fault r mask cls domain addr detail = { s with dev := d } := by
    rintro _ ⟨d, hd, rfl⟩ mask cls domain addr detail
    unfold State.fault
    split
    case h_2 => exact ⟨d, hd, rfl⟩
    case h_1 p _ =>
      by_cases hm : mask = 0
      · rw [State.faultAt, if_pos hm]
        exact ⟨d, hd, rfl⟩
      · rw [faultAt_of_noHandler (s := { s with dev := d }) hm hg hc handler]
        refine ⟨{ d with ovf := min 0xFFFF (d.ovf + 1) }, hd, ?_⟩
        simp [State.stopGang, State.folds, hd]
  have all : ∃ d : Device, d.contained = true ∧ s.trapAll r bad = { s with dev := d } := by
    refine List.foldlRecOn (List.range' 0x10 0x60) _ (motive := fun u : State => ∃ d : Device, d.contained = true ∧ u = { s with dev := d })
      ⟨s.dev, contained, rfl⟩ fun u hu cls _ => ?_
    split
    · exact hu
    · exact step u hu _ _ _ _ _
  exact all.imp fun _ h => h.2

section Issue
variable {x : Iss} (apart : Apart s x m)
include apart

theorem pads_withIssue {f : Iss → Result} (hf : Result.Pads m s (f x)) : Result.Pads m s (withIssue s f) := by
  rw [withIssue, apart.issues]
  exact hf

theorem pad_act {h : Hdr} {sh : Shape} (proper : sh.Proper) (plain : sh.usesRing = false) {u : State} (quiet : Quiet s u)
    (hu : padOf u.groups m = padOf s.groups m) {body : Body} (hb : ∀ k v, Quiet s v → padOf v.groups m = padOf s.groups m → padOf (body x k v).1.groups m = padOf s.groups m) (per : Nat) (ts : List Nat) :
    padOf (u.act x h sh per ts body).groups m = padOf s.groups m := by
  have other := apart.other
  have done := hb { uni := sh.isUniform, ts := ts, vals := (u.readSrcs x h sh.srcs (sh.readers ts)).2 } _
    (quiet.of_calm (calm_readSrcs u x h sh.srcs (sh.readers ts))) ((pad_readSrcs other h (fun a ha => src_plain proper plain ha) (sh.readers ts)).trans hu)
  have back := (pad_unpop other (sh := sh) (fun a ha => src_plain proper plain ha) ts u).trans done
  unfold State.act
  dsimp only
  split
  · simp [other, hu]
  split <;> simp [other, back]

theorem pads_issue {i : Instr} {h : Hdr} {sh : Shape} {per : Nat} {body : Body} (proper : sh.Proper)
    (hb : sh.usesRing = false → ∀ k v, Quiet s v → padOf v.groups m = padOf s.groups m → padOf (body x k v).1.groups m = padOf s.groups m) :
    Result.Pads m s (issue i h sh per s body) := by
  have other := apart.other
  refine pads_withIssue apart (pads_orderly ?_)
  unfold issueAt
  split
  · exact pads_next rfl
  rename_i free
  have plain : sh.usesRing = false := by
    cases ring : sh.usesRing with
    | false => rfl
    | true => simp [apart.rings sh ring] at free
  split
  · exact pads_next (by simp [other])
  split
  · exact pads_next (by simp [other])
  split
  · refine pads_next ?_
    unfold State.portStop
    split <;> simp [other]
  · obtain ⟨_, hg, -, -, hc⟩ := iss_spec apart.issues
    obtain ⟨d, hd⟩ := trapAll_contained hg hc apart.handler apart.contained ((maskList (x.badGuard h)).map (fun t => ⟨t, 0x60, 0, 0x4A0 + h.ps.val⟩) ++
      (x.badBranch sh).map (fun t => ⟨t, 0x60, 0, 0x4A7⟩) ++ (s.hurt x h sh).map (fun b => ⟨b.1, 0x60, 0, b.2⟩))
    refine pads_next ?_
    rw [hd]
    exact pad_act apart proper plain (u := { s with dev := d }) rfl rfl (hb plain) _ _

theorem pads_issueMem {i : Instr} {h : Hdr} {sh : Shape} {per kind : Nat} {order : Order} {scratch : Bool} {body : Body} (proper : sh.Proper)
    (hb : sh.usesRing = false → ∀ k v, Quiet s v → padOf v.groups m = padOf s.groups m → padOf (body x k v).1.groups m = padOf s.groups m) :
    Result.Pads m s (issueMem i h sh per kind order scratch s body) := by
  refine pads_withIssue apart ?_
  split
  · exact pads_next rfl
  · exact pads_issue apart proper hb

theorem pads_signAt {i : Instr} {h : Hdr} {cv : CvField} {sh : Shape} {within : Bool} {check : Iss → State → Option (Nat × Nat × Nat)}
    {go : GenRef → State → State} : Result.Pads m s (signAt i h cv sh within check go s) := by
  have other := apart.other
  obtain ⟨armed, elsewhere⟩ := apart.armed cv
  have misuse : x.misuse cv within ≠ none := by
    unfold Iss.misuse
    dsimp only
    split
    · exact nofun
    split
    · exact nofun
    · rw [if_pos (by simp [armed, elsewhere])]
      exact nofun
  refine pads_withIssue apart (pads_orderly ?_)
  split
  · exact pads_next rfl
  split
  · exact pads_next (by simp [other])
  split
  · exact pads_next (by simp [other])
  · exact absurd ‹_› misuse

theorem pads_compute {i : Instr} {h : Hdr} {sh : Shape} {per : Nat} {f : Iss → Nat → List Nat → Nat} (proper : sh.Proper) :
    Result.Pads m s (compute i h sh per s f) := by
  refine pads_issue apart proper fun plain k v _ hv => ?_
  unfold writes
  split
  · exact hv
  · rename_i d hd
    exact (pad_foldl id _ (fun b a _ => pad_writeDst apart.other (dst_plain plain hd) _ _ _ _ _) v).trans hv

end Issue

end Pads
end Sys2Proof.Machine
end

section
/-! PROOFS. Instructions of a path that leave the scratchpad of another group alone. -/

namespace Sys2Proof.Machine

/-! ### Control -/

section Control
variable {s : State} {m k : Nat} {r : PathRef}

@[simp] theorem pad_pushBranch {x : Iss} (other : x.r.g ≠ m) (ts : List Nat) : padOf (s.pushBranch x ts).groups m = padOf s.groups m := by
  unfold State.pushBranch
  split
  · rfl
  · exact pad_foldl id _ (fun b _ _ => by simp [other]) s

@[simp] theorem pad_branch {x : Iss} (other : x.r.g ≠ m) (a : Operand) (goals : List (Nat × W64)) :
    padOf (s.branch x a goals).1.groups m = padOf s.groups m := by
  simp [State.branch, other]

@[simp] theorem groups_slotLeave (s : State) (ctx slot : Nat) : (s.slotLeave ctx slot).groups = s.groups := by
  unfold State.slotLeave
  dsimp only
  split
  · rfl
  split
  · rfl
  · split <;> simp

@[simp] theorem groups_slotsForget (s : State) (ctx k w : Nat) (mask : W64) : (s.slotsForget ctx k w mask).groups = s.groups := by
  unfold State.slotsForget
  split
  · rfl
  · exact groups_foldl id _ (fun b a => by dsimp only [id]; split <;> simp) _

@[simp] theorem pad_exitNow (other : k ≠ m) (w : Nat) (ts : List Nat) : padOf (s.exitNow k w ts).groups m = padOf s.groups m := by
  unfold State.exitNow
  split
  · dsimp only
    rw [groups_slotsForget, pad_updGroup other, pad_updWarp other]
    exact fun _ => rfl
  · rfl

@[simp] theorem pad_exitThreads (other : r.g ≠ m) (access : Bool) (next : W64) (ts : List Nat) :
    padOf (s.exitThreads r access next ts).groups m = padOf s.groups m := by
  unfold State.exitThreads
  split
  · rfl
  split
  · dsimp only
    have marked : padOf (ts.foldl (fun s t => s.updThread r.g r.w t fun th => if access then { th with exitA := true } else { th with exitE := true }) s).groups m =
      padOf s.groups m := pad_foldl id _ (fun b _ _ => by simp [other]) s
    split
    · exact marked
    · rw [pad_exitNow other, State.parkAt]
      split
      · exact marked
      · rw [pad_updWarp other, marked]
  · exact pad_exitNow other _ _

/-! ### A group that ends -/

theorem padOf_filter (other : k ≠ m) (l : List Group) : padOf (l.filter fun g => decide (g.key ≠ k)) m = padOf l m := by
  rw [padOf, List.find?_filter]
  refine congrArg (fun p => Option.map (fun g : Group => (g.scratch, g.ops)) (l.find? p)) (funext fun g => ?_)
  by_cases h : g.key = m
  · simp [h, other.symm]
  · simp [h]

@[simp] theorem groups_advance (s : State) (ctx va v acls agent : Nat) (via : Option TlbPlace) :
    (s.advance ctx va v acls agent via).groups = s.groups := by
  unfold State.advance
  dsimp only
  split <;> simp

@[simp] theorem groups_markCounter (s : State) (ctx : Nat) (va : W64) (cls id : Nat) : (s.markCounter ctx va cls id).groups = s.groups := by
  unfold State.markCounter
  split
  · rfl
  dsimp only
  split
  · simp
  · rename_i l hl
    obtain ⟨pa, rfl⟩ := engineCtr_phys s hl
    unfold State.putAttr
    split <;> rfl

@[simp] theorem groups_accept (s : State) (ctx : Nat) (r : LaunchRec) : (s.accept ctx r).1.groups = s.groups := by
  unfold State.accept
  split
  · rfl
  split
  · rfl
  · dsimp only
    split <;> simp [State.fresh]

@[simp] theorem groups_continue (s : State) (t : Task) : (s.continue_ t).groups = s.groups := by
  unfold State.continue_
  repeat' split
  all_goals simp

@[simp] theorem groups_retire (s : State) (c i : Nat) (quiet : Bool) : (s.retire c i quiet).groups = s.groups := by
  unfold State.retire
  split
  · rfl
  · simp [apply_ite State.groups, State.updFamily, State.freeTask]

@[simp] theorem groups_groupLeft (s : State) (key : Nat) (broken : Bool) : (s.groupLeft key broken).groups = s.groups := by
  unfold State.groupLeft State.endLaunch
  repeat' split
  all_goals simp

@[simp] theorem groups_commitLine (s : State) (core : Nat) (l : VLine) : (s.commitLine core l).groups = s.groups := by
  simp [State.commitLine]

/-- A group with an operation in flight does not end. -/
theorem tryEnd_of_ops {g : Group} (hg : s.group? k = some g) (ops : g.ops ≠ []) : s.tryEnd k = s := by
  simp [State.tryEnd, State.quietGroup, hg, ops]

theorem pad_tryEnd (other : k ≠ m) : padOf (s.tryEnd k).groups m = padOf s.groups m := by
  have commit : padOf (s.commit k).groups m = padOf s.groups m := by
    unfold State.commit
    split
    · rfl
    · exact (pad_updGroup other (fun g => { g with vlines := [] }) fun _ => rfl).trans (pad_foldl id _ (fun b a _ => by simp) s)
  have drop : ∀ t : State, padOf (t.dropGroup k).groups m = padOf t.groups m := by
    intro t
    have kept : (t.leaveOver k).groups = t.groups := by
      unfold State.leaveOver
      split <;> rfl
    rw [← kept]
    exact padOf_filter other _
  unfold State.tryEnd
  split
  · rfl
  split
  · dsimp only
    split
    · rw [groups_retire, drop, commit]
    · rw [groups_groupLeft, drop, commit]
  · rfl

end Control

end Sys2Proof.Machine
end

section
/-! PROOFS. Accesses of memory and of scratchpad leave the scratchpad of another group alone. -/

namespace Sys2Proof.Machine

/-! ### Global accesses -/

section Global
variable {s : State} {m k : Nat} {r : PathRef}

@[simp] theorem groups_hostWrite (s : State) (ctx pa n : Nat) : (s.hostWrite ctx pa n).groups = s.groups := by
  unfold State.hostWrite
  split <;> rfl

@[simp] theorem groups_noteHeader (s : State) (ctx pa n : Nat) : (s.noteHeader ctx pa n).groups = s.groups := by
  refine groups_foldl id _ (fun b a => ?_) s
  dsimp only [id]
  split <;> simp

@[simp] theorem groups_putAt (s : State) (g : Group) (pa : Nat) (put : Option (Nat × List Byte × Bool)) : (s.putAt g pa put).groups = s.groups := by
  unfold State.putAt
  split <;> simp

@[simp] theorem groups_servePiece (s : State) (o : MemOp) (p : Part) (j : Nat) (hit : Bool) : (s.servePiece o p j hit).1.groups = s.groups := by
  unfold State.servePiece
  dsimp only
  split
  · rfl
  · simp [State.noteAccess, State.lineOf, apply_ite State.groups, apply_ite Prod.fst]

@[simp] theorem groups_serveHit (s : State) (o : MemOp) (p : Part) : (s.serveHit o p).1.groups = s.groups :=
  groups_foldl Prod.fst _ (fun b j => groups_servePiece b.1 o b.2 j true) (s, p)

theorem groups_launchOp (s : State) (core : Nat) (o : MemOp) : (s.launchOp core o State.serveHit).groups = s.groups := by
  unfold State.launchOp
  refine List.foldlRecOn _ _ (motive := fun u : State => u.groups = s.groups) ?_ fun u hu _ _ =>
    List.foldlRecOn _ _ (motive := fun u : State => u.groups = s.groups) hu fun _ hw _ _ => hw
  refine List.foldlRecOn o.parts _ (motive := fun u : State × List Part => u.1.groups = s.groups) rfl fun u hu p _ => ?_
  dsimp only
  split
  · exact (groups_serveHit u.1 o p).trans hu
  · exact hu

@[simp] theorem groups_askWalks (s : State) (i : Iss) (d : Doing) (ts : List Nat) (ws : List Want) : (s.askWalks i d ts ws).groups = s.groups :=
  List.foldlRecOn _ _ (motive := fun u : State => u.groups = s.groups) rfl fun _ hu _ _ => hu

theorem pad_goEach {i : Iss} (other : i.r.g ≠ m) {s0 v : State} (hv : padOf v.groups m = padOf s0.groups m) (sh : Shape) (k : Taken) (d : Doing)
    (ws : List Want) {make : State → List (Want × TlbEntry) → State} (hmake : ∀ u l, padOf (make u l).groups m = padOf u.groups m) :
    padOf (v.goEach s0 i sh k d ws make).1.groups m = padOf s0.groups m := by
  unfold State.goEach
  dsimp only
  split
  · simp
  split
  · rfl
  have made : padOf (if (v.sift i k d ws).run.isEmpty then v.trapAll i.r (v.sift i k d ws).errs
      else make (v.trapAll i.r (v.sift i k d ws).errs) (v.sift i k d ws).run).groups m = padOf s0.groups m := by
    split <;> simp [hmake, other, hv]
  split
  · exact made
  · rw [pad_settle other, pad_updPath other]
    refine Eq.trans ?_ made
    exact pad_foldl id _ (fun b _ _ => by simp [other]) _

theorem pad_goGlobal {i : Iss} (other : i.r.g ≠ m) {s0 v : State} (hv : padOf v.groups m = padOf s0.groups m) (h : Hdr) (sh : Shape) (k : Taken)
    (d : Doing) (ws : List Want) (f : OpForm) : padOf (v.goGlobal s0 i h sh k d ws f).1.groups m = padOf s0.groups m :=
  pad_goEach other hv sh k d ws fun u l => by
    dsimp only
    rw [groups_launchOp]
    rfl

theorem pad_holdStore {i : Iss} (other : i.r.g ≠ m) (pa : Nat) (bs : List Byte) (bad : Bool) :
    padOf (s.holdStore i pa bs bad).groups m = padOf s.groups m := by
  unfold State.holdStore
  dsimp only
  split
  · rfl
  split
  · rfl
  split
  · simp [other]
  split <;> simp [other]

@[simp] theorem pad_noteOut (other : k ≠ m) (off : Nat) (e : ErrRec) : padOf (s.noteOut k off e).groups m = padOf s.groups m := by
  unfold State.noteOut
  repeat' split
  all_goals simp [other]

end Global

/-! ### Scratchpad accesses -/

section Scratch
variable {s : State} {x : Iss} {m : Nat}

/-- A run of accesses that meet no line of an engine. -/
theorem free_of_any {ws : List Want} {n : Nat} (free : ¬(ws.any fun w => s.scratchBusy x.g w.va n) = true) {w : Want} (hw : w ∈ ws) :
    s.scratchBusy x.g w.va n = false := by
  rw [Bool.not_eq_true] at free
  simpa using List.any_eq_false.1 free w hw

variable (apart : Apart s x m)
include apart

theorem pad_scratchDo {k : Taken} {kind : AccessKind} {dst : Dst} (plain : isRing dst.op = false) {size : Nat} (pos : 0 < size) {w : Want}
    (free : s.scratchBusy x.g w.va size = false) (t : State) : padOf (t.scratchDo x k kind dst size w).groups m = padOf t.groups m := by
  unfold State.scratchDo
  dsimp only
  rw [pad_writeDst apart.other plain]
  split
  · rfl
  · exact apart.lines _ _ free pos _ _ _ _

theorem pad_goScratch {k : Taken} {d : Doing} (pos : 0 < d.size) {kind : AccessKind} {dst : Dst} (plain : isRing dst.op = false) {ws : List Want}
    {v : State} (hv : padOf v.groups m = padOf s.groups m) : padOf (v.goScratch s x k d kind dst ws).1.groups m = padOf s.groups m := by
  have other := apart.other
  unfold State.goScratch
  split
  · rfl
  rename_i free
  dsimp only
  refine (pad_foldl id _ (fun b w hw => ?_) _).trans ((pad_trapAll other _).trans hv)
  dsimp only [id]
  split
  · simp [other]
  · exact pad_scratchDo apart plain pos (free_of_any free (List.mem_filter.1 hw).1) b

end Scratch

end Sys2Proof.Machine
end

section
/-! PROOFS. Instructions of a path that leave the scratchpad of another group alone. -/

namespace Sys2Proof.Machine

@[simp] theorem pad_updShared {t : State} {k m : Nat} (other : k ≠ m) (what : Shared) (wid : Nat) (f : Group → Group) (key : ∀ q, (f q).key = q.key) :
    padOf (t.updShared k what wid f).groups m = padOf t.groups m :=
  pad_updGroup other _ fun q => by
    split
    · exact key q
    · rfl

/-- A group that an instruction leaves. -/
theorem pad_tryEnd_moving {s t : State} {m k : Nat} (moving : ∀ q, s.group? m = some q → q.ops ≠ []) (pad : padOf t.groups m = padOf s.groups m) :
    padOf (t.tryEnd k).groups m = padOf t.groups m := by
  by_cases other : k = m
  · subst other
    cases hg : t.group? k with
    | none => simp [State.tryEnd, hg]
    | some q =>
      rw [tryEnd_of_ops hg]
      have same : (t.group? k).map (fun g => (g.scratch, g.ops)) = (s.group? k).map fun g => (g.scratch, g.ops) := pad
      rw [hg] at same
      cases hs : s.group? k with
      | none => rw [hs] at same; cases same
      | some q' =>
        rw [hs] at same
        have ops : q.ops = q'.ops := congrArg Prod.snd (Option.some.inj same)
        exact ops ▸ moving q' hs
  · exact pad_tryEnd other

section Arms
variable {s : State} {x : Iss} {m : Nat} (apart : Apart s x m)
include apart

/-! ### Control -/

theorem pads_nop (y : Op0) : Result.Pads m s (execNop y s) :=
  pads_issue apart (proper_of rfl) fun _ _ _ _ hv => hv

theorem pads_bra (y : OpA) : Result.Pads m s (execBra y s) := by
  have other := apart.other
  refine pads_issue apart (proper_of rfl) fun _ k v _ hv => (pad_branch other _ _).trans ?_
  repeat' split
  all_goals simp [other, hv]

theorem pads_brx (y : OpA) : Result.Pads m s (execBrx y s) :=
  pads_issue apart (proper_of rfl) fun _ _ _ _ hv => (pad_branch apart.other _ _).trans hv

theorem pads_ret (y : OpA) : Result.Pads m s (execRet y s) :=
  pads_issue apart (proper_of rfl) fun _ _ _ _ hv => (pad_branch apart.other _ _).trans hv

theorem pads_brq (y : OpA) : Result.Pads m s (execBrq y s) := by
  have other := apart.other
  refine pads_issue apart (proper_of rfl) fun _ k v _ hv => ?_
  exact (pad_branch other _ _).trans ((pad_foldl id _ (fun b _ _ => pad_updThread other _ _ _) v).trans hv)

theorem pads_call (y : OpDA) : Result.Pads m s (execCall y s) := by
  have other := apart.other
  refine pads_issue apart (proper_of rfl) fun plain k v _ hv => ?_
  exact (pad_branch other _ _).trans ((pad_foldl id _ (fun b _ _ => pad_writeDst other (dst_plain (d := { op := y.d, n := 2 }) plain rfl) _ _ _ _ _) v).trans hv)

theorem pads_skip (y : SkipOps) : Result.Pads m s (execSkip y s) := by
  have other := apart.other
  refine pads_issue apart (proper_of rfl) fun _ k v _ hv => ?_
  dsimp only
  split <;> simp [other, hv]

theorem pad_ended {t : State} (pad : padOf t.groups m = padOf s.groups m) :
    padOf (match t.cur with | some (.path q _) => t.tryEnd q.g | _ => t).groups m = padOf s.groups m := by
  split
  · exact (pad_tryEnd_moving apart.moving pad).trans pad
  · exact pad

theorem pads_exit (y : Op0) : Result.Pads m s (execExit y s) := by
  unfold execExit
  split
  case h_1 ended => exact pads_next (pad_ended apart (pads_issue apart (proper_of rfl) (fun _ _ _ _ hv => (pad_exitThreads apart.other _ _ _).trans hv) _ ended))
  case h_2 => exact pads_issue apart (proper_of rfl) fun _ _ _ _ hv => (pad_exitThreads apart.other _ _ _).trans hv

theorem pads_taskDone (y : Op0) : Result.Pads m s (execTaskDone y s) := by
  unfold execTaskDone
  split
  case h_1 ended => exact pads_next (pad_ended apart (pads_issue apart (proper_of rfl) (fun _ _ _ _ hv => (pad_exitThreads apart.other _ _ _).trans hv) _ ended))
  case h_2 => exact pads_issue apart (proper_of rfl) fun _ _ _ _ hv => (pad_exitThreads apart.other _ _ _).trans hv

theorem pads_yield (y : Op0) : Result.Pads m s (execYield y s) :=
  pads_issue apart (proper_of rfl) fun _ _ _ _ hv => (pad_updPath apart.other _).trans hv

theorem pads_prio (y : OpA) : Result.Pads m s (execPrio y s) := by
  refine pads_issue apart (proper_of rfl) fun _ k v _ hv => (pad_foldl id _ (fun b _ _ => ?_) v).trans hv
  exact pad_updShared apart.other _ _ _ fun _ => rfl

theorem pads_cvset (y : CvsetOps) : Result.Pads m s (execCvset y s) := by
  refine pads_issue apart (proper_of rfl) fun _ k v _ hv => ?_
  dsimp only
  split
  · exact (pad_faultPath apart.other _ _ _).trans hv
  · refine (pad_updShared apart.other _ _ _ fun q => ?_).trans hv
    unfold Group.updConv
    split <;> rfl

theorem pads_kindle (y : KindleOps) : Result.Pads m s (execKindle y s) :=
  pads_issue apart (proper_of rfl) fun _ _ _ _ hv => (pad_updWarp apart.other _ _).trans hv

end Arms
end Sys2Proof.Machine
end

section
/-! PROOFS. Instructions that compute, and accesses, leave the scratchpad of another group alone. -/

namespace Sys2Proof.Machine

/-! ### Translation in an empty memory -/

theorem pte_empty (table level index : Nat) : ∃ e, Memory.empty.pte table level index = .error e := by
  have zero : Memory.empty.nat (table + 8 * index) 8 = leNat (List.replicate 8 Memory.unlisted) := rfl
  unfold Memory.pte
  dsimp only
  split
  · exact ⟨_, rfl⟩
  split
  · exact ⟨_, rfl⟩
  · rw [zero]
    exact ⟨_, rfl⟩

theorem translate_empty {s : State} (empty : s.mem = Memory.empty) (c : Ctx) (va : Nat) (via : Option TlbPlace) :
    ∃ e, s.translate c va via = .error e := by
  obtain ⟨e, he⟩ := pte_empty c.ptRoot.toNat 0 (bits va 54 42)
  have unheld : Memory.empty.tlbLook via c.num va = none := by
    unfold Memory.tlbLook
    split <;> rfl
  have walk : Memory.empty.walk c.num c.ptRoot.toNat va = .error e := by
    rw [Memory.walk, he]
  rw [State.translate, empty, Memory.translate, unheld]
  split
  · exact ⟨_, rfl⟩
  · exact ⟨e, walk⟩

theorem Quiet.mem {s v : State} (quiet : Quiet s v) : v.mem = s.mem := by
  rw [quiet.eq]

theorem Quiet.held {s v : State} (quiet : Quiet s v) : v.held = s.held := by
  rw [quiet.eq]

theorem Quiet.ctxs {s v : State} (quiet : Quiet s v) : v.ctxs = s.ctxs := by
  rw [quiet.eq]

/-! ### Instructions -/

theorem proper_pair (y : PairOps) : (PairOps.shape y).Proper := by
  have half : ∀ z : Half, ∀ a ∈ halfSrcs z, a.field = 1 ∨ a.field = 2 := by
    intro z a ha
    unfold halfSrcs at ha
    repeat' split at ha
    all_goals simp at ha
    · exact .inr (congrArg Src.field ha)
    · exact ha.imp (congrArg Src.field) (congrArg Src.field)
  intro a ha
  simp only [PairOps.shape, List.mem_append, List.mem_flatMap] at ha
  obtain (low | high) | ⟨z, _, dst⟩ := ha
  · exact (half _ a low).imp id .inl
  · exact (half _ a high).imp id .inl
  · split at dst
    · cases dst
    · exact .inl (congrArg Src.field (List.mem_singleton.1 dst))

section Arms
variable {s : State} {x : Iss} {m : Nat} (apart : Apart s x m)
include apart

/-! ### Computation -/

/-- Words written for each value that an instruction has read. -/
theorem pad_writesEach {α : Type} {v : State} (hv : padOf v.groups m = padOf s.groups m) {d : Dst} (plain : isRing d.op = false) (l : List α)
    (t : State → α → Nat) (ps : State → α → List Nat) (rs : State → α → List Reg) :
    padOf (l.foldl (fun s a => s.writeDst x.r.g x.r.w x.g d (t s a) (ps s a) (rs s a)) v).groups m = padOf s.groups m :=
  (pad_foldl id l (fun _ _ _ => pad_writeDst apart.other plain _ _ _ _ _) v).trans hv

theorem pad_writesSr {v : State} (hv : padOf v.groups m = padOf s.groups m) {sh : Shape} (plain : sh.usesRing = false)
    (f : (Nat → Nat → Nat) → List Nat → Nat) (k : Taken) : padOf (writesSr sh f x k v).1.groups m = padOf s.groups m := by
  unfold writesSr
  split
  · exact hv
  · rename_i d hd
    have written := pad_writesEach apart hv (dst_plain plain hd) k.vals (fun _ a => a.1) (fun _ a => if k.uni then k.ts else [a.1])
      fun _ a => regsOf d.n (f (srDraw v x k.uni a.1) (a.2.map regsNat)) (a.2.any regsBad)
    dsimp only
    split <;> exact written

theorem pads_computeSr {i : Instr} {h : Hdr} {sh : Shape} {per : Nat} {f : (Nat → Nat → Nat) → List Nat → Nat} (proper : sh.Proper) :
    Result.Pads m s (computeSr i h sh per s f) :=
  pads_issue apart proper fun plain k _ _ hv => pad_writesSr apart hv plain f k

theorem pads_cvt (y : CvtOps) : Result.Pads m s (execCvt y s) :=
  pads_issue apart (proper_of rfl) fun plain _ _ _ hv => pad_writesSr apart ((pad_trapAll apart.other _).trans hv) plain _ _

theorem pads_pick {i : Instr} (y : GroupOps) (op : Nat) (f : Nat → Nat → Nat) : Result.Pads m s (pick i y op s f) := by
  refine pads_issue apart (proper_of rfl) fun plain k v _ hv => ?_
  have written := pad_writesEach apart hv (d := { op := y.d }) (dst_plain plain rfl) k.vals (fun _ a => a.1) (fun _ a => if k.uni then k.ts else [a.1])
    fun _ a => regsOf 1 (f (groupElement y.fmt (regsNat (a.2.headD [])) (bits (regsNat (a.2.getD 1 [])) 3 0)) (regsNat (a.2.getD 1 [])))
      (a.2.any regsBad || reservedPick y a.2)
  dsimp only
  split
  · rw [groups_report]
    exact written
  · exact written

theorem pads_pair (y : PairOps) : Result.Pads m s (execPair y s) := by
  have put : ∀ (t : State) (z : Half) u vals, padOf (t.putHalf x z u vals).groups m = padOf t.groups m := by
    intro t z u vals
    unfold State.putHalf
    split
    · rfl
    · exact pad_writeDst apart.other rfl _ _ _ _ _
  exact pads_issue apart (proper_pair y) fun _ k v _ hv => (pad_foldl id k.vals (fun _ _ _ => (put _ _ _ _).trans (put _ _ _ _)) v).trans hv

/-! ### Accesses of global memory -/

theorem pads_ldG (y : MemOps) : Result.Pads m s (execLdG y s) :=
  pads_issueMem apart (proper_of rfl) fun _ _ _ _ hv => pad_goGlobal apart.other hv _ _ _ _ _ _

theorem pads_stG (y : MemOps) : Result.Pads m s (execStG y s) := by
  have other := apart.other
  refine pads_issueMem apart (proper_of rfl) fun _ k v _ hv => ?_
  have trapped : padOf (v.trapAll x.r (partData y k)).groups m = padOf s.groups m := (pad_trapAll other _).trans hv
  dsimp only
  split
  · exact pad_goEach other trapped _ _ _ _ fun u l => pad_foldl id l (fun _ _ _ => pad_holdStore other _ _ _) u
  · exact pad_goGlobal other trapped _ _ _ _ _ _

theorem pads_atomG (y : AtomOps) : Result.Pads m s (execAtomG y s) :=
  pads_issueMem apart (proper_of rfl) fun _ _ _ _ hv => pad_goGlobal apart.other hv _ _ _ _ _ _

theorem pads_atomCasG (y : CasOps) : Result.Pads m s (execAtomCasG y s) :=
  pads_issueMem apart (proper_of rfl) fun _ _ _ _ hv => pad_goGlobal apart.other hv _ _ _ _ _ _

theorem pads_atomCas64G (y : CasOps) : Result.Pads m s (execAtomCas64G y s) :=
  pads_issueMem apart (proper_of rfl) fun _ _ _ _ hv => pad_goGlobal apart.other hv _ _ _ _ _ _

/-! ### Accesses of scratchpad -/

theorem pads_atomS (y : AtomOps) : Result.Pads m s (execAtomS y s) := by
  have pos : 0 < 4 * atomWords y.op := by unfold atomWords; split <;> decide
  exact pads_issueMem apart (proper_of rfl) fun plain _ _ _ hv => pad_goScratch apart pos (dst_plain plain rfl) hv

theorem pads_atomCasS (y : CasOps) : Result.Pads m s (execAtomCasS y s) :=
  pads_issueMem apart (proper_of rfl) fun plain _ _ _ hv => pad_goScratch apart (Nat.succ_pos 3) (dst_plain plain rfl) hv

theorem pads_atomCas64S (y : CasOps) : Result.Pads m s (execAtomCas64S y s) :=
  pads_issueMem apart (proper_of rfl) fun plain _ _ _ hv => pad_goScratch apart (Nat.succ_pos 7) (dst_plain plain rfl) hv

theorem pads_ctrRun {i : Instr} (y : CtrOps) (kind : AccessKind) : Result.Pads m s (ctrRun i y kind s) := by
  refine pads_issueMem apart (proper_of rfl) fun plain _ _ _ hv => ?_
  dsimp only
  split
  · exact pad_goScratch apart (Nat.succ_pos 15) (dst_plain plain rfl) hv
  · exact pad_goGlobal apart.other hv _ _ _ _ _ _

theorem pads_ctrRd (y : CtrOps) : Result.Pads m s (execCtrRd y s) := by
  refine pads_issueMem apart (proper_of rfl) fun plain _ _ _ hv => ?_
  dsimp only
  split
  · exact pad_goScratch apart (Nat.succ_pos 15) (dst_plain plain rfl) hv
  · exact pad_goGlobal apart.other hv _ _ _ _ _ _

theorem pads_ctrInit (y : CtrInitOps) : Result.Pads m s (execCtrInit y s) := by
  have other := apart.other
  refine pads_issueMem apart (proper_of rfl) fun plain k v _ hv => ?_
  have trapped : ∀ l, padOf (v.trapAll x.r l).groups m = padOf s.groups m := fun l => (pad_trapAll other l).trans hv
  dsimp only
  generalize (if 7 ≤ y.pclass.val then 1 else if 6 ≤ y.rscope.val then 2 else 0) = kind
  split
  · split
    · exact pad_goScratch apart (Nat.succ_pos 15) rfl hv
    · exact trapped _
  split
  · exact pad_goGlobal other hv _ _ _ _ _ _
  split
  · simp
  · exact trapped _

theorem lines_of_free {l : List Want} {n : Nat} (pos : 0 < n) (free : ¬(l.any fun w => s.scratchBusy x.g w.va n) = true) {w : Want} (hw : w ∈ l)
    (t : State) (bs : List Byte) (bad : Bool) : padOf (t.putScratch x.g 0 w.va bs bad).groups m = padOf t.groups m :=
  apart.lines w.va n (free_of_any free hw) pos t 0 bs bad

theorem pads_stS (y : MemOps) : Result.Pads m s (execStS y s) := by
  have other := apart.other
  refine pads_issueMem apart (proper_of rfl) fun plain k v _ hv => ?_
  dsimp only
  generalize (if (k.uni && !(partData y k).isEmpty) = true then { k with ts := [], vals := [] } else k.without (partData y k)) = taken
  split
  · rfl
  rename_i free
  have pos : 0 < typeBytes y.ty := by cases y.ty <;> decide
  refine (pad_foldl id _ (fun t w hw => ?_) _).trans ((pad_trapAll other _).trans hv)
  dsimp only [id]
  split
  · rfl
  · rw [lines_of_free apart pos free hw]
    split
    · exact pad_noteOut other _ _
    · rfl

theorem pads_ldS (y : MemOps) : Result.Pads m s (execLdS y s) := by
  have other := apart.other
  refine pads_issueMem apart (proper_of rfl) fun plain k v _ hv => ?_
  dsimp only
  split
  · rfl
  refine (pad_foldl id _ (fun t w hw => ?_) _).trans ((pad_trapAll other _).trans hv)
  dsimp only [id]
  rw [pad_writeDst other (d := { op := y.d, n := typeWords y.ty }) (dst_plain plain rfl)]
  split
  · exact pad_noteOut other _ _
  · rfl

end Arms
end Sys2Proof.Machine
end

section
/-! PROOFS. Instructions of a path that reach sectors, and the others that act at once, leave the scratchpad of another group alone. -/

namespace Sys2Proof.Machine

theorem Calm.mem {s t : State} (calm : Calm s t) : t.mem = s.mem := by
  rw [calm.eq]

/-! ### Reaching sectors -/

section Reach
variable (s : State)

@[simp] theorem groups_standInLine (key : Nat × Nat) (cls : Nat) (needs : List (Nat × Bool)) : (s.standInLine key cls needs).groups = s.groups := by
  unfold State.standInLine
  split
  · rfl
  · refine groups_foldl id _ (fun _ _ => ?_) _
    rfl

@[simp] theorem groups_turnFor (key : Nat × Nat) : (s.turnFor key).groups = s.groups :=
  groups_foldl id _ (fun b r => by
    dsimp only [id]
    split <;> rfl) s

@[simp] theorem groups_askLines (fs : List Fill) : (s.askLines fs).groups = s.groups :=
  groups_foldl id fs (fun b f => by
    dsimp only [id]
    split <;> rfl) s

variable {s}

theorem pad_reaching {m : Nat} {key : Nat × Nat} {cls : Nat} {t : State} (ht : padOf t.groups m = padOf s.groups m) :
    (∀ u, s.reaching key cls t = .ok u → padOf u.groups m = padOf s.groups m) ∧ ∀ u, s.reaching key cls t = .error u → padOf u.groups m = padOf s.groups m := by
  unfold State.reaching
  split
  · exact ⟨fun u hu => by cases hu; exact ht, nofun⟩
  · refine ⟨nofun, fun u hu => ?_⟩
    cases hu
    split <;> simp

theorem pad_reached {m : Nat} {key : Nat × Nat} {cls : Nat} {r : State × Flow} (hr : padOf r.1.groups m = padOf s.groups m) :
    padOf (s.reached key cls r).1.groups m = padOf s.groups m := by
  obtain ⟨here, wait⟩ := pad_reaching (key := key) (cls := cls) hr
  unfold State.reached
  split
  · exact hr
  · split
    · exact here _ ‹_›
    · exact wait _ ‹_›

theorem pads_attempt {m : Nat} {key : Nat × Nat} {cls : Nat} {run : State → Result} (hr : Result.Pads m s (run s)) :
    Result.Pads m s (s.attempt key cls run) := by
  unfold State.attempt
  split
  · rename_i t ht
    obtain ⟨here, wait⟩ := pad_reaching (key := key) (cls := cls) (hr t ht)
    split
    · exact pads_notNow s m
    · split
      · exact pads_next (here _ ‹_›)
      · exact pads_next (wait _ ‹_›)
  · exact hr

end Reach

section Arms
variable {s : State} {x : Iss} {m : Nat} (apart : Apart s x m)
include apart

/-! ### Counters and rings -/

theorem pad_testsDone {v : State} (hv : padOf v.groups m = padOf s.groups m) {d : Operand} (plain : isRing d = false) (uni : Bool) (ts : List Nat)
    (l : List CtrTest) : padOf (v.testsDone x.r x.g d uni ts l).groups m = padOf s.groups m := by
  refine (pad_foldl id l (fun t a _ => ?_) v).trans hv
  dsimp only [id]
  rw [pad_writeDst apart.other (d := { op := d, n := 2 }) plain]
  split <;> simp

theorem pads_ctrWait (y : CtrOps) : Result.Pads m s (execCtrWait y s) := by
  have other := apart.other
  refine pads_withIssue apart ?_
  split
  · exact pads_next rfl
  refine pads_issueMem apart (proper_of rfl) fun plain k v _ hv => ?_
  dsimp only
  split
  · simp
  split
  · rfl
  split
  · split
    · rfl
    · obtain ⟨here, wait⟩ := pad_reaching (key := PathRef.waitKey x.r x.p) (cls := 2)
        (pad_testsDone apart ((pad_trapAll other _).trans hv) (dst_plain (d := { op := y.d, n := 2 }) plain rfl) k.uni k.ts _)
      split
      · exact here _ ‹_›
      · exact wait _ ‹_›
  split
  · simp [other]
  split
  · simp [other]
  split <;> simp [other, hv]

theorem pads_qcfg (y : QcfgOps) : Result.Pads m s (execQcfg y s) := by
  have other := apart.other
  refine pads_issue apart (proper_of rfl) fun plain k v _ hv => ?_
  dsimp only
  split
  · simp [other, hv]
  split
  · simp [other, hv]
  split
  · simp [other, hv]
  split
  · rfl
  rename_i free
  refine (pad_updGroup other _ ?_).trans ?_
  · exact fun _ => rfl
  split
  · rename_i zeroed
    rw [zeroed, Bool.true_and, Bool.not_eq_true] at free
    exact (apart.lines _ 8 free (by decide) v 0 _ _).trans hv
  · exact hv

/-! ### Lines and locks -/

theorem pads_pref (y : PrefOps) : Result.Pads m s (execPref y s) := by
  refine pads_issue apart (proper_of rfl) fun _ k v quiet hv => ?_
  have keeps : ∀ va, v.prefetch x y.kind va = v := by
    intro va
    obtain ⟨e, he⟩ := translate_empty (quiet.mem.trans apart.memory) x.c va x.g.via
    rw [State.prefetch, he]
    split <;> rfl
  have all : k.vals.foldl (fun s a => s.prefetch x y.kind (vaG a.2)) v = v :=
    List.foldlRecOn k.vals _ (motive := fun t : State => t = v) rfl fun t ht a _ => ht ▸ keeps _
  exact (congrArg (fun t : State => padOf t.groups m) all).trans hv

theorem pads_ptld (y : OpA) : Result.Pads m s (execPtld y s) := by
  have other := apart.other
  refine pads_issue apart (proper_of rfl) fun _ k v _ hv => ?_
  dsimp only
  split
  · simp [other, hv]
  split
  · simp
  · simp [other, hv]
  · exact hv

theorem pad_lockAll {v : State} (empty : v.mem = Memory.empty) (hv : padOf v.groups m = padOf s.groups m) {d : Operand} (plain : isRing d = false)
    (k : Taken) (f : State → Iss → TlbEntry → Nat → State × W32) : padOf (v.lockAll x k d f).groups m = padOf s.groups m := by
  have barred : ∀ t : State, t.mem = Memory.empty → ∀ va, t.lockAt x va f = (t, 4) := by
    intro t ht va
    obtain ⟨e, he⟩ := translate_empty ht x.c va x.g.via
    rw [State.lockAt, he]
    split <;> rfl
  suffices h : (v.lockAll x k d f).mem = Memory.empty ∧ padOf (v.lockAll x k d f).groups m = padOf s.groups m from h.2
  refine List.foldlRecOn k.vals _ (motive := fun t : State => t.mem = Memory.empty ∧ padOf t.groups m = padOf s.groups m) ⟨empty, hv⟩ fun t ht a _ => ?_
  obtain ⟨ht, pad⟩ := ht
  simp only [barred t ht]
  exact ⟨(calm_writeDst t _ _ _ _ _ _ _).mem.trans ht, (pad_writeDst apart.other (d := { op := d }) plain _ _ _ _ _).trans pad⟩

theorem pads_llcLock (y : OpDAB) : Result.Pads m s (execLlcLock y s) :=
  pads_issue apart (proper_of rfl) fun plain k _ quiet hv =>
    pad_lockAll apart (quiet.mem.trans apart.memory) hv (dst_plain (d := { op := y.d }) plain rfl) k _

theorem pads_llcUnlock (y : OpDAB) : Result.Pads m s (execLlcUnlock y s) :=
  pads_issue apart (proper_of rfl) fun plain k _ quiet hv =>
    pad_lockAll apart (quiet.mem.trans apart.memory) hv (dst_plain (d := { op := y.d }) plain rfl) k _

theorem pads_llcUnlockAll (y : OpD) : Result.Pads m s (execLlcUnlockAll y s) :=
  pads_issue apart (proper_of rfl) fun plain k _ _ hv =>
    (pad_foldl id k.vals (fun _ _ _ => pad_writeDst apart.other (d := { op := y.d }) (dst_plain plain rfl) _ _ _ _ _) _).trans hv

theorem pads_fence (y : FenceOps) : Result.Pads m s (execFence y s) := by
  refine pads_withIssue apart ?_
  split
  · exact pads_next rfl
  · refine pads_issue apart (proper_of rfl) fun _ _ v _ hv => ?_
    dsimp only
    split <;> exact hv

/-! ### Instructions that read a record first -/

omit apart in
theorem engineRead_empty {v : State} (empty : v.mem = Memory.empty) (c : Ctx) (va n req cls agent : Nat) (via : Option TlbPlace) :
    v.engineRead c va (n + 1) req cls agent via = none := by
  obtain ⟨e, he⟩ := translate_empty empty c va via
  obtain ⟨k, rest, first⟩ : ∃ k rest, piecesOf va (n + 1) = (va, k) :: rest := ⟨_, _, rfl⟩
  rw [State.engineRead, first, State.piecesAt, he]

omit apart in
theorem readRecord_empty {v : State} (empty : v.mem = Memory.empty) (a : W64) : v.readRecord x a = none := by
  rw [State.readRecord, engineRead_empty empty]
  split <;> rfl

/-- Threads that all act in vain. -/
theorem pad_actEach {v : State} (hv : padOf v.groups m = padOf s.groups m) (k : Taken) (d : Operand) (cls : Nat)
    {act : State → W64 → State × Except Nat Nat} {reason : Nat} (vain : ∀ a, act v a = (v, .error reason)) :
    padOf (v.actEach x k d cls act).1.groups m = padOf s.groups m := by
  unfold State.actEach
  refine (pad_trapAll apart.other _).trans (Eq.trans (congrArg (fun t : State => padOf t.groups m) ?_) hv)
  refine List.foldlRecOn k.vals _ (motive := fun acc : State × List ThreadErr × Bool => acc.1 = v) rfl fun acc hacc a _ => ?_
  dsimp only
  rw [hacc, vain]

theorem pads_launch (y : OpDA) : Result.Pads m s (execLaunch y s) := by
  refine pads_issueMem apart (proper_of rfl) fun _ k v quiet hv => pad_reached ?_
  have unread := readRecord_empty (x := x) (quiet.mem.trans apart.memory)
  exact pad_actEach apart hv k y.d 0x16 (reason := 10) (act := fun s va => match s.readRecord x va with
      | none => (s, .error 10)
      | some (s, bs, bad) => match s.checkLaunch bs bad with
        | .ok r => let (s, id) := s.accept x.c.num r; (s, .ok id)
        | .error k => (s, .error k)) fun a => by rw [unread]

theorem pads_taskRange (y : OpDA) : Result.Pads m s (execTaskRange y s) := by
  refine pads_issueMem apart (proper_of rfl) fun _ k v quiet hv => ?_
  have unread := readRecord_empty (x := x) (quiet.mem.trans apart.memory)
  have acted := pad_actEach apart hv k y.d 0x17 (reason := 10) (act := fun s va => match s.readRecord x va with
      | none => (s, .error 10)
      | some (s, bs, bad) => match checkRange bs bad with
        | .ok r => let (s, n) := s.createFamily x.g x.w r; (s, .ok n)
        | .error k => (s, .error k)) fun a => by rw [unread]
  revert acted
  generalize v.actEach x k y.d 0x17 _ = out
  intro acted
  refine pad_reached ?_
  dsimp only
  split
  · exact (pad_updWarp apart.other _ _).trans acted
  · exact acted

theorem pads_copyIssue {i : Instr} (y : CopyOps) (kind : CopyKind) : Result.Pads m s (copyIssue i y kind s) := by
  have other := apart.other
  refine pads_issue apart (proper_of rfl) fun _ k v quiet hv => ?_
  have unread : ∀ a, v.descriptor x a = .error 10 := by
    intro a
    rw [State.descriptor, engineRead_empty (quiet.mem.trans apart.memory)]
    split <;> rfl
  dsimp only
  split
  · rfl
  · refine pad_reached ?_
    split
    · simp [other, hv]
    · simp [unread, other, hv]

theorem pads_kstep (y : OpAB) : Result.Pads m s (execKstep y s) := by
  have other := apart.other
  refine pads_issue apart (proper_of rfl) fun _ k v quiet hv => ?_
  have unread : ∀ a, v.kilnRead x.c x.g.kilnAt a 256 = none := fun a => engineRead_empty (quiet.mem.trans apart.memory) _ _ _ _ _ _ _
  dsimp only
  split
  · rfl
  split
  · simp [other, hv]
  · refine pad_reached ?_
    simp [unread, other, hv]

/-! ### The kiln, tasks and services -/

theorem pad_notBound {v : State} (hv : padOf v.groups m = padOf s.groups m) (op : Nat) : padOf (v.notBound x op).1.groups m = padOf s.groups m :=
  (pad_faultPath apart.other _ _ _).trans hv

theorem pads_ksig (y : OpAB) : Result.Pads m s (execKsig y s) := by
  refine pads_issue apart (proper_of rfl) fun _ k v _ hv => ?_
  rw [apart.kiln]
  exact pad_notBound apart hv _

theorem pads_ktest (y : OpDA) : Result.Pads m s (execKtest y s) := by
  refine pads_issue apart (proper_of rfl) fun _ k v _ hv => ?_
  rw [apart.kiln]
  exact pad_notBound apart hv _

theorem pads_kreuse (y : OpDA) : Result.Pads m s (execKreuse y s) := by
  refine pads_issue apart (proper_of rfl) fun _ k v _ hv => ?_
  rw [apart.kiln]
  exact pad_notBound apart hv _

theorem pads_kmapRun {i : Instr} (y : OpDAB) (words op : Nat) (f : Ctx → KilnAt → KilnBind → Nat → Nat → State → Except Nat (State × Option Nat × Bool)) :
    Result.Pads m s (kmapRun i y words op s f) := by
  refine pads_issue apart (proper_of rfl) fun _ k v _ hv => ?_
  rw [apart.kiln]
  exact pad_notBound apart hv _

theorem pads_kend (y : KendOps) : Result.Pads m s (execKend y s) := by
  refine pads_issue apart (proper_of rfl) fun _ k v _ hv => ?_
  dsimp only
  split
  · rfl
  · refine (pad_updGroup apart.other _ ?_).trans hv
    exact fun _ => rfl

theorem pads_issueChunk {i : Instr} (y : OpD) (get : Bool) (body : Iss → Taken → State → Task → State) :
    Result.Pads m s (issueChunk i y get s body) := by
  refine pads_issue apart (proper_of rfl) fun _ k v _ hv => ?_
  rw [apart.record]
  exact (pad_faultPath apart.other _ _ _).trans hv

omit apart in
theorem groups_completeSlot (t : State) (ctx k w slot : Nat) (mask : W64) : (t.completeSlot ctx k w slot mask).groups = t.groups := by
  unfold State.completeSlot
  split
  · rfl
  split
  · rfl
  · dsimp only
    split <;> simp

theorem pads_svcWait (y : OpDA) : Result.Pads m s (execSvcWait y s) := by
  have other := apart.other
  have own : x.g.key ≠ m := by
    obtain ⟨_, hg, _⟩ := iss_spec apart.issues
    have := List.find?_some hg
    exact of_decide_eq_true this ▸ other
  refine pads_issue apart (proper_of rfl) fun plain k v _ hv => ?_
  dsimp only
  split
  · refine (pad_foldl id _ (fun t a _ => ?_) _).trans ((pad_foldl id _ (fun t a _ => ?_) _).trans ((pad_trapAll other _).trans hv))
    · dsimp only [id]
      split
      · exact congrArg (padOf · m) (groups_completeSlot t _ _ _ _ _)
      · rfl
    · dsimp only [id]
      split
      · exact pad_writeDst own (d := { op := y.d }) (dst_plain plain rfl) _ _ _ _ _
      · rfl
  · repeat' split
    all_goals simp [other, hv]

end Arms
end Sys2Proof.Machine
end

section
/-! PROOFS. Instructions of tiles, of traps and of system registers leave the scratchpad of another group alone. -/

namespace Sys2Proof.Machine

/-! ### System registers -/

section Registers
variable (s : State)

@[simp] theorem groups_invalidate (i : Iss) (ctx form : Nat) (v : W64) : (s.invalidate i ctx form v).groups = s.groups := rfl
@[simp] theorem groups_clearWatch (ctx n : Nat) : (s.clearWatch ctx n).groups = s.groups := rfl

@[simp] theorem groups_ringReset (ctx n : Nat) (v : W64) : (s.ringReset ctx n v).groups = s.groups := by
  unfold State.ringReset
  dsimp only
  split
  · rfl
  · refine groups_foldl id _ (fun t va => ?_) _
    dsimp only [id]
    split
    · rfl
    · exact groups_deviceWrite _ _ _ _ _ _

@[simp] theorem groups_answerRecord (ctx ticket : Nat) : (s.answerRecord ctx ticket).groups = s.groups := by
  unfold State.answerRecord State.putState
  repeat' split
  all_goals simp

@[simp] theorem groups_putCap (i : Iss) (v : W64) : (s.putCap i v).groups = s.groups := by
  unfold State.putCap
  dsimp only
  split
  · refine groups_foldl id _ (fun _ _ => ?_) _
    rfl
  · split <;> rfl

variable {s}

/-- Nothing is held in a saved context, and no engine and no sequencer works. -/
structure Idle (s : State) : Prop where
  saved : ∀ c ∈ s.ctxs, c.saved = none
  copies : s.copies = []
  seqs : s.seqs = []

variable (idle : Idle s)
include idle

theorem Idle.withSaved (ctx : Nat) (f : State → State) : s.withSaved ctx f = f s := by
  have none_ : (s.ctx? ctx).bind (·.saved) = none := by
    cases h : s.ctx? ctx with
    | none => rfl
    | some c => exact idle.saved c (List.mem_of_find?_eq_some h)
  simp [State.withSaved, State.repacked, State.unpacked, none_]

theorem Idle.cmdsOf (ctx ticket : Nat) : s.cmdsOf ctx ticket = [] := by
  simp [State.cmdsOf, idle.copies]

theorem Idle.seqsAt (ctx ticket : Nat) : s.seqsAt ctx ticket = [] := by
  simp [State.seqsAt, idle.seqs]

theorem Idle.replayTicket (ctx ticket : Nat) : s.replayTicket ctx ticket = s.answerRecord ctx ticket := by
  simp [State.replayTicket, idle.withSaved, idle.cmdsOf]

theorem Idle.abortTicket (ctx ticket : Nat) : s.abortTicket ctx ticket = s.answerRecord ctx ticket := by
  simp [State.abortTicket, idle.withSaved, idle.cmdsOf]

theorem Idle.resumeTicket (ctx ticket : Nat) : s.resumeTicket ctx ticket = s.answerRecord ctx ticket := by
  simp [State.resumeTicket, idle.withSaved, idle.seqsAt]

theorem Idle.endTicket (ctx ticket : Nat) : s.endTicket ctx ticket = s.answerRecord ctx ticket := by
  simp [State.endTicket, idle.withSaved, idle.seqsAt]

theorem Idle.svcDone (ctx : Nat) (v : W64) : s.svcDone ctx v = s.answerRecord ctx (doneTicket v) := by
  simp [State.svcDone, idle.withSaved, idle.cmdsOf, idle.seqsAt]

theorem Idle.groups_swr (n : Nat) (i : Iss) (ctx : Nat) (v : W64) : (s.swr n i ctx v).groups = s.groups := by
  unfold State.swr
  rw [idle.svcDone]
  repeat' split
  all_goals simp

end Registers

section Arms
variable {s : State} {x : Iss} {m : Nat} (apart : Apart s x m)
include apart

theorem Apart.idle {v : State} (quiet : Quiet s v) : Idle v := by
  rw [quiet.eq]
  exact ⟨apart.saved, apart.copies, apart.seqs⟩

theorem pads_swrIssue {i : Instr} (y : SwrOps) {f : Iss → Nat → W64 → State → State} (hf : ∀ v, Idle v → ∀ c w, (f x c w v).groups = v.groups) :
    Result.Pads m s (swrIssue i y s f) := by
  refine pads_issueMem apart (proper_of rfl) fun _ k v quiet hv => ?_
  dsimp only
  split
  · simp [apart.other, hv]
  split
  · rfl
  · rw [hf v (apart.idle quiet)]
    exact hv

theorem pads_preempt {i : Instr} (y : OpA) (res : Bool) : Result.Pads m s (preemptIssue i y res s) := by
  refine pads_issue apart (proper_of rfl) fun _ k v _ hv => ?_
  split
  · simp [apart.other, hv]
  · exact hv

theorem pads_spark (y : OpA) : Result.Pads m s (execSpark y s) :=
  pads_issue apart (proper_of rfl) fun _ _ _ _ hv => (congrArg (padOf · m) (groups_spark _ _ _)).trans hv

theorem pads_watch (y : OpAB) : Result.Pads m s (execWatch y s) := by
  refine pads_issue apart (proper_of rfl) fun _ k v quiet hv => ?_
  dsimp only
  split
  · simp [apart.other, hv]
  · rename_i good
    obtain ⟨e, he⟩ := translate_empty (quiet.mem.trans apart.memory) x.c
      (regsNat ((k.vals.headD (0, [])).2.getD 0 []) / 2 ^ (if bits (regsNat ((k.vals.headD (0, [])).2.getD 1 [])) 7 4 ≤ 10 then
        bits (regsNat ((k.vals.headD (0, [])).2.getD 1 [])) 7 4 else (Config.freeWord v.ticks).toNat % 11) *
        2 ^ (if bits (regsNat ((k.vals.headD (0, [])).2.getD 1 [])) 7 4 ≤ 10 then
        bits (regsNat ((k.vals.headD (0, [])).2.getD 1 [])) 7 4 else (Config.freeWord v.ticks).toNat % 11)) x.g.via
    rw [he] at good
    cases good

/-! ### Traps -/

theorem pad_trapThreads {v : State} (hv : padOf v.groups m = padOf s.groups m) (l : List (Nat × Nat)) :
    padOf (v.trapThreads x l).groups m = padOf s.groups m := by
  have other := apart.other
  unfold State.trapThreads
  dsimp only
  split
  · simp [other, hv]
  · exact (pad_foldl id l (fun _ _ _ => pad_enter other _ _ _ _ _) v).trans hv

theorem pads_trap (y : OpA) : Result.Pads m s (execTrap y s) :=
  pads_issue apart (proper_of rfl) fun _ _ _ _ hv => pad_trapThreads apart hv _

theorem pads_bkpt (y : BkptOps) : Result.Pads m s (execBkpt y s) := by
  refine pads_issue apart (proper_of rfl) fun _ k v _ hv => ?_
  split
  · exact pad_trapThreads apart hv _
  · exact hv

theorem pads_eret (y : Op0) : Result.Pads m s (execEret y s) := by
  have other := apart.other
  refine pads_issue apart (proper_of rfl) fun _ k v _ hv => ?_
  dsimp only
  split
  · simp [other, hv]
  · unfold State.leave
    split
    · exact hv
    split
    · exact hv
    · exact (pad_updWarp other _ _).trans hv

theorem pads_srd (y : SrdOps) : Result.Pads m s (execSrd y s) := by
  have other := apart.other
  refine pads_issue apart (proper_of rfl) fun plain k v _ hv => ?_
  dsimp only
  split
  · simp [other, hv]
  · exact (pad_foldl id k.vals (fun _ _ _ => pad_writeDst other (d := { op := y.d, n := 2 }) (dst_plain plain rfl) _ _ _ _ _) v).trans hv

theorem pads_notAnInstruction (cond : Fin 16) : Result.Pads m s (execNotAnInstruction cond s) := by
  have other := apart.other
  refine pads_withIssue apart (pads_orderly ?_)
  split <;> exact pads_next (by simp [other])

theorem pads_fetchFault (detail : Nat) (addr : W64) : Result.Pads m s (execFetchFault detail addr s) :=
  pads_withIssue apart (pads_orderly (pads_next (pad_faultPath apart.other _ _ _)))

/-! ### Tiles -/

theorem tile_none (n : Nat) : x.g.tile n = none := by
  rw [Group.tile, apart.tiles]
  rfl

theorem pad_markTile {v : State} (hv : padOf v.groups m = padOf s.groups m) (wid n : Nat) :
    padOf (v.markTile x.r.g wid n).groups m = padOf s.groups m :=
  (pad_updShared apart.other _ _ _ fun _ => rfl).trans hv

theorem pads_issueTile {i : Instr} {h : Hdr} {sh : Shape} {per tile : Nat} {body : Body} (proper : sh.Proper)
    (hb : sh.usesRing = false → ∀ k v, padOf v.groups m = padOf s.groups m → padOf (body x k v).1.groups m = padOf s.groups m) :
    Result.Pads m s (issueTile i h sh per tile s body) := by
  refine pads_withIssue apart ?_
  split
  · exact pads_next rfl
  · exact pads_issue apart proper fun plain k v _ hv => hb plain k _ (pad_markTile apart hv _ _)

theorem pad_ownGroup {v : State} (hv : padOf v.groups m = padOf s.groups m) (f : Group → Group) (key : ∀ g, (f g).key = g.key) :
    padOf (v.updGroup x.r.g f).groups m = padOf s.groups m :=
  (pad_updGroup apart.other f key).trans hv

theorem pads_tcfg (y : TcfgOps) : Result.Pads m s (execTcfg y s) := by
  unfold execTcfg
  refine pads_issueTile apart ?_ ?_
  · exact proper_of rfl
  · intro _ k v hv
    dsimp only
    split
    · exact (pad_faultPath apart.other _ _ _).trans hv
    · exact pad_ownGroup apart hv _ fun _ => rfl

theorem pads_tcfgFree (y : TileOps) : Result.Pads m s (execTcfgFree y s) :=
  pads_issueTile apart (proper_of rfl) fun _ _ _ hv => pad_ownGroup apart hv _ fun _ => rfl

theorem pads_tzero (y : TileOps) : Result.Pads m s (execTzero y s) := by
  refine pads_issueTile apart (proper_of rfl) fun _ k v hv => ?_
  rw [tile_none apart]
  exact (pad_faultPath apart.other _ _ _).trans hv

theorem pads_tepi (y : TepiOps) : Result.Pads m s (execTepi y s) := by
  refine pads_withIssue apart (pads_issueTile apart (proper_of rfl) fun _ k v hv => ?_)
  rw [tile_none apart]
  exact (pad_faultPath apart.other _ _ _).trans hv

theorem pads_tileMove {i : Instr} (y : TileMoveOps) (kind : MatKind) (op : Nat) : Result.Pads m s (tileMove i y kind op s) := by
  refine pads_issue apart (proper_of rfl) fun _ k v _ hv => ?_
  rw [tile_none apart]
  exact (pad_faultPath apart.other _ _ _).trans hv

theorem pads_tileWrite {i : Instr} (y : TileWriteOps) (op : Nat) (row : Bool) : Result.Pads m s (tileWrite i y op row s) := pads_signAt apart

theorem pads_tileRead {i : Instr} (y : TileReadOps) (op : Nat) (row : Bool) : Result.Pads m s (tileRead i y op row s) := pads_signAt apart

theorem pad_seedKey {v : State} (hv : padOf v.groups m = padOf s.groups m) (n : Nat) (bad : Bool) :
    padOf (v.seedKey x n bad).groups m = padOf s.groups m := by
  refine (pad_updShared apart.other _ _ _ ?_).trans hv
  exact fun _ => rfl

theorem pad_seedStream {v : State} (hv : padOf v.groups m = padOf s.groups m) (n : Nat) (bad : Bool) :
    padOf (v.seedStream x n bad).groups m = padOf s.groups m := by
  refine (pad_updShared apart.other _ _ _ ?_).trans hv
  exact fun _ => rfl

theorem pads_seed (y : OpAB) : Result.Pads m s (execSeed y s) :=
  pads_issue apart (proper_of rfl) fun _ _ _ _ hv => pad_seedStream apart (pad_seedKey apart hv _ _) _ _

theorem pads_seedS (y : SeedSOps) : Result.Pads m s (execSeedS y s) :=
  pads_issue apart (proper_of rfl) fun _ _ _ _ hv => pad_seedStream apart hv _ _

theorem pads_adamw (y : AdamwOps) : Result.Pads m s (execAdamw y s) := by
  have other := apart.other
  refine pads_issue apart (proper_of rfl) fun plain k v _ hv => ?_
  have written : ∀ rs : State → Nat × List (List Reg) → List Reg, padOf (k.vals.foldl (fun s a =>
      s.writeDst x.r.g x.r.w x.g { op := y.d, n := AdamwOps.words y, group := true } a.1 [a.1] (rs s a)) v).groups m = padOf s.groups m := fun rs =>
    pad_writesEach apart hv (d := { op := y.d, n := AdamwOps.words y, group := true }) (dst_plain plain rfl) k.vals _ _ rs
  dsimp only
  split
  · exact written _
  split
  · rw [pad_stopGang]
    refine (pad_updGroup other _ ?_).trans ((pad_updWarp other _ _).trans (written _))
    exact fun _ => rfl
  · rw [groups_report]
    exact (pad_updWarp other _ _).trans (written _)

end Arms
end Sys2Proof.Machine
end

section
/-! PROOFS. In a machine that has not come up, where every group has stopped, an event leaves the scratchpad of a group alone. -/

namespace Sys2Proof.Machine

/-- The machine after a reset, but for its groups and contexts and for what is at issue; the device is contained. -/
def waste (cur : Option Cursor) (groups : List Group) (ctxs : List Ctx) : State :=
  { State.reset with
    cur := cur
    held := true
    groups := groups
    ctxs := ctxs
    dev := { State.reset.dev with contained := true } }

section Events
variable {cur : Option Cursor} {groups : List Group} {ctxs : List Ctx} {m : Nat} (stopped : ∀ g ∈ groups, g.stop = true)

/-! ### Events of the device -/

theorem groups_failCore (s : State) (core cls detail m : Nat) : padOf (s.failCore core cls detail).groups m = padOf s.groups m := by
  unfold State.failCore
  dsimp only
  refine (pad_foldl Prod.fst _ (fun b g _ => ?_) _).trans ?_
  · split
    · rfl
    · exact pad_stopGang _ _ _ _
  · refine congrArg (padOf · m) (?_ : (State.dropKindles _ core).groups = s.groups)
    exact groups_foldl id _ (fun _ _ => updTask_groups _ _ _ _) _

theorem pads_launchAdmission (ctx launch : Nat) : Result.Pads m (waste cur groups ctxs) (execLaunchAdmission ctx launch (waste cur groups ctxs)) :=
  pads_next rfl

theorem pads_contextSave (requests : ∀ c ∈ ctxs, c.requests = []) (ctx : Nat) :
    Result.Pads m (waste cur groups ctxs) (execContextSave ctx (waste cur groups ctxs)) := by
  unfold execContextSave
  split
  · exact pads_notNow _ m
  · rename_i c hc
    have none_ : c.requests = [] := requests c (List.mem_of_find?_eq_some hc)
    rw [none_]
    exact pads_notNow _ m

theorem pads_contextResume (requests : ∀ c ∈ ctxs, c.requests = []) (ctx : Nat) :
    Result.Pads m (waste cur groups ctxs) (execContextResume ctx (waste cur groups ctxs)) := by
  unfold execContextResume
  split
  · exact pads_notNow _ m
  · rename_i c hc
    have none_ : c.requests = [] := requests c (List.mem_of_find?_eq_some hc)
    rw [none_]
    exact pads_notNow _ m

include stopped

theorem waste_idle {k : Nat} {g : Group} (hg : (waste cur groups ctxs).group? k = some g) : (waste cur groups ctxs).working g = false := by
  rw [State.working, stopped g (List.mem_of_find?_eq_some hg)]
  rfl

theorem waste_waiting (r : PathRef) (st : PathSt) : (waste cur groups ctxs).waiting r st = none := by
  unfold State.waiting
  cases hg : (waste cur groups ctxs).group? r.g with
  | none => rfl
  | some g =>
    cases hp : (waste cur groups ctxs).path? r with
    | none => rfl
    | some p => simp [waste_idle stopped hg]

theorem waste_gen (r : GenRef) : (waste cur groups ctxs).gen? r = none := by
  unfold State.gen?
  split
  · rfl
  · rename_i g hg
    simp [waste_idle stopped hg]

theorem waste_matReady (g slot : Nat) (kinds : List MatKind) : (waste cur groups ctxs).matReady g slot kinds = none := by
  have none_ : (waste cur groups ctxs).matNext g slot kinds = none := by
    unfold State.matNext
    cases hg : (waste cur groups ctxs).group? g with
    | none => rfl
    | some q =>
      simp only [Option.bind_some, waste_idle stopped hg, Bool.and_false, Bool.false_and]
      cases (waste cur groups ctxs).ctx? q.ctx with
      | none => rfl
      | some c =>
        simp only [Option.bind_some]
        split <;> rfl
  rw [State.matReady, none_]
  rfl

omit stopped in
theorem pads_pathDue (r : PathRef) : Result.Pads m (waste cur groups ctxs) (execPathDue r (waste cur groups ctxs)) := by
  unfold execPathDue
  repeat' split
  all_goals exact pads_next rfl

theorem pads_starvation (r : PathRef) : Result.Pads m (waste cur groups ctxs) (execStarvationExpiry r (waste cur groups ctxs)) := by
  unfold execStarvationExpiry
  split
  · rename_i g p hg hp
    split
    · exact pads_notNow _ m
    · rw [if_pos (by simp [waste_idle stopped hg])]
      exact pads_notNow _ m
  · exact pads_notNow _ m

theorem pads_generationIssue (r : GenRef) : Result.Pads m (waste cur groups ctxs) (execGenerationIssue r (waste cur groups ctxs)) := by
  rw [execGenerationIssue, State.tryGen, waste_gen stopped]
  exact pads_notNow _ m

theorem pads_serviceSlotFree (r : GenRef) : Result.Pads m (waste cur groups ctxs) (execServiceSlotFree r (waste cur groups ctxs)) := by
  rw [execServiceSlotFree, State.tryGen, waste_gen stopped]
  exact pads_notNow _ m

theorem pads_counterWaitComplete (r : PathRef) : Result.Pads m (waste cur groups ctxs) (execCounterWaitComplete r (waste cur groups ctxs)) := by
  rw [execCounterWaitComplete, waste_waiting stopped]
  exact pads_notNow _ m

theorem pads_queueWaitComplete (r : PathRef) : Result.Pads m (waste cur groups ctxs) (execQueueWaitComplete r (waste cur groups ctxs)) := by
  rw [execQueueWaitComplete, waste_waiting stopped]
  exact pads_notNow _ m

theorem pads_serviceReplyComplete (r : PathRef) : Result.Pads m (waste cur groups ctxs) (execServiceReplyComplete r (waste cur groups ctxs)) := by
  rw [execServiceReplyComplete, State.replied, waste_waiting stopped]
  exact pads_notNow _ m

theorem pads_copyCommandAccept (r : PathRef) : Result.Pads m (waste cur groups ctxs) (execCopyCommandAccept r (waste cur groups ctxs)) := by
  rw [execCopyCommandAccept, waste_waiting stopped]
  exact pads_notNow _ m

theorem pads_matrixOpComplete (g slot : Nat) : Result.Pads m (waste cur groups ctxs) (execMatrixOpComplete g slot (waste cur groups ctxs)) := by
  rw [execMatrixOpComplete, waste_matReady stopped]
  exact pads_notNow _ m

theorem pads_tileTransferComplete (g slot : Nat) :
    Result.Pads m (waste cur groups ctxs) (execTileTransferComplete g slot (waste cur groups ctxs)) := by
  rw [execTileTransferComplete, waste_matReady stopped]
  exact pads_notNow _ m

omit stopped

theorem pads_governorWindow (core : Nat) : Result.Pads m (waste cur groups ctxs) (execGovernorWindow core (waste cur groups ctxs)) := by
  have ungranted : ∀ u, (waste cur groups ctxs).unitSt core u = ⟨none, 0⟩ := fun _ => rfl
  unfold execGovernorWindow
  simp only [ungranted]
  rw [if_pos (by simp)]
  exact pads_notNow _ m

theorem pads_dieBudgetWindow (die : Nat) : Result.Pads m (waste cur groups ctxs) (execDieBudgetWindow die (waste cur groups ctxs)) := by
  unfold execDieBudgetWindow
  dsimp only
  split
  · exact pads_notNow _ m
  · refine pads_next (congrArg (padOf · m) ?_)
    refine groups_foldl Prod.fst ((waste cur groups ctxs).asks die) (fun _ _ => ?_) (waste cur groups ctxs, _)
    rfl

theorem pads_coreControlError (core : Nat) (unit : Fin 16) (s : State) : Result.Pads m s (execCoreControlError core unit s) := by
  unfold execCoreControlError
  split
  · exact pads_notNow _ m
  · exact pads_next (groups_failCore _ _ _ _ _)

theorem pads_tileControlError (core : Nat) (unit : Fin 4) (table : Bool) (s : State) : Result.Pads m s (execTileControlError core unit table s) := by
  unfold execTileControlError
  split
  · exact pads_notNow _ m
  · exact pads_next (groups_failCore _ _ _ _ _)

theorem pads_sectorEviction (sector : Nat) (s : State) : Result.Pads m s (execSectorEviction sector s) := by
  unfold execSectorEviction
  dsimp only
  split <;> exact pads_next rfl

/-! ### Messages -/

theorem pads_akoon (i : Instr) (h : AkHdr) (f : State → Result) : Result.Pads m (waste cur groups ctxs) (akoon i h (waste cur groups ctxs) f) :=
  pads_notNow _ m

theorem pads_resetContext (y : AkVal) : Result.Pads m (waste cur groups ctxs) (execResetContext y (waste cur groups ctxs)) := by
  unfold execResetContext
  split
  · exact pads_notNow _ m
  split
  · exact pads_akoon _ _ _
  · exact pads_akoon _ _ _

theorem pads_kindlingDispatch (core slot : Nat) : Result.Pads m (waste cur groups ctxs) (execKindlingDispatch core slot (waste cur groups ctxs)) := by
  have none_ : (waste cur groups ctxs).reserve.nextTask core = none := by
    unfold State.nextTask
    split <;> rfl
  unfold execKindlingDispatch
  dsimp only
  rw [none_]
  exact pads_next rfl

end Events

end Sys2Proof.Machine
end

section
/-! PROOFS. No instruction and no event changes the scratchpad of a group apart from all that goes on. -/

namespace Sys2Proof

/-- An instruction that computes a destination. -/
def Instr.computes : Instr → Bool
  | .mov _ | .sel _ | .iadd _ | .isub _ | .imul _ | .imulh _ | .imad _ | .imin _ | .imax _ | .iabs _ | .and _ | .or _ | .xor _ | .shl _
  | .shr _ | .sar _ | .popc _ | .clz _ | .brev _ | .bfe _ | .bfi _ | .icmp _ | .lea _ | .fadd _ | .fsub _ | .fmul _ | .fma _ | .fmin _
  | .fmax _ | .fcmp _ | .frnd _ | .dadd _ | .dsub _ | .dmul _ | .dfma _ | .dmin _ | .dmax _ | .dcmp _ | .hadd2 _ | .hsub2 _ | .hmul2 _
  | .hfma2 _ | .hmin2 _ | .hmax2 _ | .hcmp2 _ | .exp2 _ | .log2 _ | .rcp _ | .rsq _ | .sqrt _ | .tanh _ | .pair _ | .cvt _ | .cvtF8 _
  | .cvtF6 _ | .cvtF4 _ | .mxqScale _ | .mxq _ | .mxd _ | .unpk _ | .pack _ => true
  | _ => false

/-- An instruction of control, across threads, of memory, or of counters and rings. -/
def Instr.acts : Instr → Bool
  | .nop _ | .bra _ | .brx _ | .brq _ | .call _ | .ret _ | .skip _ | .exit _ | .yield _ | .sign _ | .cvset _ | .prio _ | .qx _ | .perm _
  | .ptld _ | .vote _ | .wsum _ | .wmax _ | .wscan _ | .ldG _ | .ldS _ | .stG _ | .stS _ | .pref _ | .llcLock _ | .llcUnlock _
  | .llcUnlockAll _ | .fence _ | .atomG _ | .atomS _ | .atomCasG _ | .atomCasS _ | .atomCas64G _ | .atomCas64S _ | .ctrInit _ | .ctrAdd _
  | .ctrMax _ | .ctrWait _ | .ctrRd _ | .qcfg _ => true
  | _ => false

/-- An instruction for an engine, a unit, tasks or the system. -/
def Instr.commands : Instr → Bool
  | .copyLd _ | .copySt _ | .copyCp _ | .tcfg _ | .tcfgFree _ | .tzero _ | .mma _ | .mmd _ | .twrr _ | .twrc _ | .trdr _ | .trdc _ | .tld _
  | .tst _ | .tepi _ | .seed _ | .seedS _ | .adamw _ | .kstep _ | .ksig _ | .ktest _ | .kreuse _ | .kmap _ | .kmapSrc _ | .kend _ | .launch _
  | .taskRange _ | .taskNext _ | .taskGet _ | .taskDone _ | .kindle _ | .svc _ | .svcWait _ | .trap _ | .eret _ | .bkpt _ | .srd _ | .swr _
  | .preempt _ | .preemptRes _ | .spark _ | .watch _ | .tlbinvPage _ | .tlbinvContext _ | .tlbinvAll _ | .svcqRingReset _ | .svcdoneReply _
  | .spillReplay _ | .spillAbort _ | .sequencerResume _ | .sequencerAbort _ | .wpsClear _ | .notAnInstruction _ | .fetchFault _ _ => true
  | _ => false

end Sys2Proof

namespace Sys2Proof.Machine

section
variable {r : PathRef} {size : Nat} {groups : List Group} {ctxs : List Ctx} {s : State} {x : Iss} {m : Nat}

theorem pads_exec_of_computes (apart : Apart s x m) {i : Instr} (h : i.computes = true) : Result.Pads m s (exec i s) := by
  cases i with
  | mov _ | sel _ | iadd _ | isub _ | imul _ | imulh _ | imad _ | imin _ | imax _ | iabs _ | and _ | or _ | xor _ | shl _ | shr _ | sar _
  | popc _ | clz _ | brev _ | bfe _ | bfi _ | icmp _ | lea _ | fadd _ | fsub _ | fmul _ | fma _ | fmin _ | fmax _ | fcmp _ | frnd _
  | dadd _ | dsub _ | dmul _ | dfma _ | dmin _ | dmax _ | dcmp _ | hadd2 _ | hsub2 _ | hmul2 _ | hfma2 _ | hmin2 _ | hmax2 _ | hcmp2 _
  | exp2 _ | log2 _ | rcp _ | rsq _ | sqrt _ | tanh _ | mxqScale _ | pack _ => exact pads_compute apart (proper_of rfl)
  | pair _ => exact pads_pair apart _
  | cvt _ => exact pads_cvt apart _
  | cvtF8 _ | cvtF6 _ | cvtF4 _ | mxq _ => exact pads_computeSr apart (proper_of rfl)
  | mxd y => exact (pads_pick apart _ _ _ : Result.Pads m s (execMxd y s))
  | unpk y => exact (pads_pick apart _ _ _ : Result.Pads m s (execUnpk y s))
  | _ => cases h

theorem pads_exec_of_acts (apart : Apart s x m) {i : Instr} (h : i.acts = true) : Result.Pads m s (exec i s) := by
  cases i with
  | nop _ => exact pads_nop apart _
  | bra _ => exact pads_bra apart _
  | brx _ => exact pads_brx apart _
  | brq _ => exact pads_brq apart _
  | call _ => exact pads_call apart _
  | ret _ => exact pads_ret apart _
  | skip _ => exact pads_skip apart _
  | exit _ => exact pads_exit apart _
  | yield _ => exact pads_yield apart _
  | sign y => exact (pads_signAt apart : Result.Pads m s (execSign y s))
  | cvset _ => exact pads_cvset apart _
  | prio _ => exact pads_prio apart _
  | qx y => exact (pads_signAt apart : Result.Pads m s (execQx y s))
  | perm y => exact (pads_signAt apart : Result.Pads m s (execPerm y s))
  | ptld _ => exact pads_ptld apart _
  | vote y => exact (pads_signAt apart : Result.Pads m s (execVote y s))
  | wsum y => exact (pads_signAt apart : Result.Pads m s (execWsum y s))
  | wmax y => exact (pads_signAt apart : Result.Pads m s (execWmax y s))
  | wscan y => exact (pads_signAt apart : Result.Pads m s (execWscan y s))
  | ldG _ => exact pads_ldG apart _
  | ldS _ => exact pads_ldS apart _
  | stG _ => exact pads_stG apart _
  | stS _ => exact pads_stS apart _
  | pref _ => exact pads_pref apart _
  | llcLock _ => exact pads_llcLock apart _
  | llcUnlock _ => exact pads_llcUnlock apart _
  | llcUnlockAll _ => exact pads_llcUnlockAll apart _
  | fence _ => exact pads_fence apart _
  | atomG _ => exact pads_atomG apart _
  | atomS _ => exact pads_atomS apart _
  | atomCasG _ => exact pads_atomCasG apart _
  | atomCasS _ => exact pads_atomCasS apart _
  | atomCas64G _ => exact pads_atomCas64G apart _
  | atomCas64S _ => exact pads_atomCas64S apart _
  | ctrInit _ => exact pads_ctrInit apart _
  | ctrAdd _ | ctrMax _ => exact pads_ctrRun apart _ _
  | ctrWait _ => exact pads_ctrWait apart _
  | ctrRd _ => exact pads_ctrRd apart _
  | qcfg _ => exact pads_qcfg apart _
  | _ => cases h

theorem pads_exec_of_commands (apart : Apart s x m) {i : Instr} (h : i.commands = true) : Result.Pads m s (exec i s) := by
  cases i with
  | copyLd _ | copySt _ | copyCp _ => exact pads_copyIssue apart _ _
  | tcfg _ => exact pads_tcfg apart _
  | tcfgFree _ => exact pads_tcfgFree apart _
  | tzero _ => exact pads_tzero apart _
  | mma y => exact (pads_withIssue apart (pads_signAt apart) : Result.Pads m s (execMma y s))
  | mmd y => exact (pads_withIssue apart (pads_signAt apart) : Result.Pads m s (execMmd y s))
  | twrr _ | twrc _ => exact pads_tileWrite apart _ _ _
  | trdr _ | trdc _ => exact pads_tileRead apart _ _ _
  | tld _ | tst _ => exact pads_tileMove apart _ _ _
  | tepi _ => exact pads_tepi apart _
  | seed _ => exact pads_seed apart _
  | seedS _ => exact pads_seedS apart _
  | adamw _ => exact pads_adamw apart _
  | kstep _ => exact pads_kstep apart _
  | ksig _ => exact pads_ksig apart _
  | ktest _ => exact pads_ktest apart _
  | kreuse _ => exact pads_kreuse apart _
  | kmap y => exact (pads_kmapRun apart _ _ _ _ : Result.Pads m s (execKmap y s))
  | kmapSrc y => exact (pads_kmapRun apart _ _ _ _ : Result.Pads m s (execKmapSrc y s))
  | kend _ => exact pads_kend apart _
  | launch _ => exact pads_launch apart _
  | taskRange _ => exact pads_taskRange apart _
  | taskNext y => exact (pads_issueChunk apart _ _ _ : Result.Pads m s (execTaskNext y s))
  | taskGet y => exact (pads_issueChunk apart _ _ _ : Result.Pads m s (execTaskGet y s))
  | taskDone _ => exact pads_taskDone apart _
  | kindle _ => exact pads_kindle apart _
  | svc y => exact (pads_signAt apart : Result.Pads m s (execSvc y s))
  | svcWait _ => exact pads_svcWait apart _
  | trap _ => exact pads_trap apart _
  | eret _ => exact pads_eret apart _
  | bkpt _ => exact pads_bkpt apart _
  | srd _ => exact pads_srd apart _
  | swr y => exact (pads_swrIssue apart _ fun _ idle c w => idle.groups_swr _ _ c w : Result.Pads m s (execSwr y s))
  | preempt _ | preemptRes _ => exact pads_preempt apart _ _
  | spark _ => exact pads_spark apart _
  | watch _ => exact pads_watch apart _
  | tlbinvPage y => exact (pads_swrIssue apart _ fun v _ c w => groups_invalidate v _ c _ w : Result.Pads m s (execTlbinvPage y s))
  | tlbinvContext y => exact (pads_swrIssue apart _ fun v _ c w => groups_invalidate v _ c _ w : Result.Pads m s (execTlbinvContext y s))
  | tlbinvAll y => exact (pads_swrIssue apart _ fun v _ c w => groups_invalidate v _ c _ w : Result.Pads m s (execTlbinvAll y s))
  | svcqRingReset y => exact (pads_swrIssue apart _ fun v _ c w => groups_ringReset v c _ w : Result.Pads m s (execSvcqRingReset y s))
  | svcdoneReply y => exact (pads_swrIssue apart _ fun v _ c _ => groups_answerRecord v c _ : Result.Pads m s (execSvcdoneReply y s))
  | spillReplay y => exact (pads_swrIssue apart _ fun v idle c _ => (congrArg State.groups (idle.replayTicket c _)).trans (groups_answerRecord v c _)
      : Result.Pads m s (execSpillReplay y s))
  | spillAbort y => exact (pads_swrIssue apart _ fun v idle c _ => (congrArg State.groups (idle.abortTicket c _)).trans (groups_answerRecord v c _)
      : Result.Pads m s (execSpillAbort y s))
  | sequencerResume y => exact (pads_swrIssue apart _ fun v idle c _ =>
      (congrArg State.groups (idle.resumeTicket c _)).trans (groups_answerRecord v c _)
      : Result.Pads m s (execSequencerResume y s))
  | sequencerAbort y => exact (pads_swrIssue apart _ fun v idle c _ => (congrArg State.groups (idle.endTicket c _)).trans (groups_answerRecord v c _)
      : Result.Pads m s (execSequencerAbort y s))
  | wpsClear y => exact (pads_swrIssue apart _ fun v _ c _ => groups_clearWatch v c _ : Result.Pads m s (execWpsClear y s))
  | notAnInstruction _ => exact pads_notAnInstruction apart _
  | fetchFault _ _ => exact pads_fetchFault apart _ _
  | _ => cases h

theorem pads_exec_of_happens (stopped : ∀ g ∈ groups, g.stop = true) (requests : ∀ c ∈ ctxs, c.requests = []) {i : Instr}
    (h : (i.computes || i.acts || i.commands) = false) :
    Result.Pads m (waste (some (.path r size)) groups ctxs) (exec i (waste (some (.path r size)) groups ctxs)) := by
  cases i with
  | tlbinvComplete _ => exact pads_notNow _ m
  | movi _ | addi _ | zfAdd _ | zfSub _ | beq _ | bne _ | zfBra _ | xsend _ | xrecv _ | xred _ | xfwd _ | cwait _ | cadv _ | cadvRmt _
  | cadd _ | embBind _ | embFold _ | zfDone => exact pads_fault _
  | image _ | memwr _ | memrd _ | ctrmax _ | ctxnew _ | rootgo _ | seqgo _ | portcfg _ | keyload _ | snaprd _ | akoonSpark _ | power _
  | resetDevice _ => exact pads_notNow _ m
  | resetContext _ => exact pads_resetContext _
  | akoonUnknownCommand _ _ | powerUp => exact pads_notNow _ m
  | launchAdmission ctx launch => exact pads_launchAdmission ctx launch
  | generationIssue _ => exact pads_generationIssue stopped _
  | pathDue _ => exact pads_pathDue _
  | counterWaitComplete _ => exact pads_counterWaitComplete stopped _
  | queueWaitComplete _ => exact pads_queueWaitComplete stopped _
  | serviceReplyComplete _ => exact pads_serviceReplyComplete stopped _
  | serviceSlotFree _ => exact pads_serviceSlotFree stopped _
  | starvationExpiry _ => exact pads_starvation stopped _
  | kindlingDispatch _ _ => exact pads_kindlingDispatch _ _
  | workerAdmission _ _ => exact pads_notNow _ m
  | contextSave _ => exact pads_contextSave requests _
  | contextResume _ => exact pads_contextResume requests _
  | loadValueReturn _ | pageWalkComplete _ | llcRequestServe _ | orientationTurnComplete _ => exact pads_notNow _ m
  | sectorEviction sector => exact pads_sectorEviction sector _
  | class3Aging _ _ | hostFillComplete _ _ | hostFillTimeout _ | wbStallRetry _ | ownershipRecallComplete _ _
  | ownershipWindow _ => exact pads_notNow _ m
  | copyCommandAccept _ => exact pads_copyCommandAccept stopped _
  | copyComplete _ => exact pads_notNow _ m
  | matrixOpComplete _ _ => exact pads_matrixOpComplete stopped _ _
  | tileTransferComplete _ _ => exact pads_tileTransferComplete stopped _ _
  | governorWindow _ => exact pads_governorWindow _
  | dieBudgetWindow _ => exact pads_dieBudgetWindow _
  | kilnOperation _ | kendComplete _ | frameSend _ | frameReceive _ _ | linkAckSend _ | linkAckReceive _ _ | linkNackReceive _ _
  | retryTimeout _ | replayDone _ | keyRollover _ | keyloadApply _ | portMode0Drain _ | laneLockLoss _ _ | retrainComplete _
  | retrainTimeout _ => exact pads_notNow _ m
  | putPacketReceive k | getRequestReceive k | getReplyReceive k | remoteAdvanceReceive k =>
    exact pads_attempt (key := packetKey k) (cls := 1) (pads_notNow _ m)
  | transportAckReceive _ _ | transportNackReceive _ _ _ | transportResendTimeout _ _ | remoteAdvanceSend _ | cwaitComplete _
  | sequencerWaitExpiry _ => exact pads_notNow _ m
  | coreControlError _ _ => exact pads_coreControlError _ _ _
  | tileControlError _ _ _ => exact pads_tileControlError _ _ _ _
  | zfOpcodeNotAllocated _ | zfWordNotFetched => exact pads_fault _
  | creditGrant _ _ _ | hostWriteAnswer _ _ | hostWriteTimeout _ => exact pads_notNow _ m
  | _ => cases h

/-- R26, R33: whatever is at issue or happens. -/
theorem pads_exec (apart : Apart (waste (some (.path r size)) groups ctxs) x m) (stopped : ∀ g ∈ groups, g.stop = true)
    (requests : ∀ c ∈ ctxs, c.requests = [])
    (i : Instr) : Result.Pads m (waste (some (.path r size)) groups ctxs) (exec i (waste (some (.path r size)) groups ctxs)) := by
  cases computes : i.computes with
  | true => exact pads_exec_of_computes apart computes
  | false =>
    cases acts : i.acts with
    | true => exact pads_exec_of_acts apart acts
    | false =>
      cases commands : i.commands with
      | true => exact pads_exec_of_commands apart commands
      | false => exact pads_exec_of_happens stopped requests (by rw [computes, acts, commands]; rfl)

end

end Sys2Proof.Machine
end

section
/-! PROOFS. A source at a ring port changes scratchpad, for it writes the ring's head. -/

namespace Sys2Proof.Machine

/-! ### A list of cells without an entry for a zero byte at 0 -/

/-- No entry stands for a zero byte at 0; none does in the canonical form. -/
def bareCells (l : List Host.Cell) : Prop := ((0, 0) : Host.Cell) ∉ l

theorem mem_of_mem_sdel {α : Type} {l : List (Nat × α)} {n : Nat} {p : Nat × α} (h : p ∈ sdel l n) : p ∈ l := by
  induction l with
  | nil => exact h
  | cons a l ih =>
    rw [sdel] at h
    split at h
    · exact List.mem_cons_of_mem _ (ih h)
    · exact (List.mem_cons.1 h).elim (fun e => e ▸ List.mem_cons_self) fun t => List.mem_cons_of_mem _ (ih t)

theorem eq_or_mem_of_mem_sput {α : Type} {l : List (Nat × α)} {n : Nat} {x : α} {p : Nat × α} (h : p ∈ sput l n x) : p = (n, x) ∨ p ∈ l := by
  induction l with
  | nil => exact .inl (List.mem_singleton.1 h)
  | cons a l ih =>
    rw [sput] at h
    split at h
    · exact List.mem_cons.1 h
    · obtain rfl | later := List.mem_cons.1 h
      · exact .inr List.mem_cons_self
      · exact (ih later).imp id (List.mem_cons_of_mem _)

theorem bare_sset {l : List Host.Cell} {a : Nat} (b : Byte) (h : a = 0 ∨ bareCells l) : bareCells (sset 0 l a b) := by
  have kept : bareCells (sdel l a) := fun mem => h.elim (fun at_ => sdel_keys l a _ mem at_.symm) fun absent => absent (mem_of_mem_sdel mem)
  unfold sset
  split
  · exact kept
  · rename_i nonzero
    intro mem
    obtain new | old := eq_or_mem_of_mem_sput mem
    · exact nonzero (congrArg Prod.snd new).symm
    · exact kept old

/-- The scratchpad of group m has no such entry. -/
def State.bare (s : State) (m : Nat) : Prop := ∀ l, (s.group? m).map (·.scratch) = some l → bareCells l

section Bare
variable {s t : State} {m k : Nat} {gr : Group}

theorem State.bare.of_eq (h : s.bare m) (same : (t.group? m).map (·.scratch) = (s.group? m).map (·.scratch)) : t.bare m := by
  rw [State.bare, same]
  exact h

theorem bare_updGroup (f : Group → Group) (key : ∀ g, (f g).key = g.key) (own : k = m → ∀ g, s.group? m = some g → bareCells (f g).scratch)
    (other : k ≠ m → s.bare m) : (s.updGroup k f).bare m := by
  intro q hq
  rw [group_updGroup _ _ _ key] at hq
  split at hq
  · rename_i here
    cases hg : s.group? m with
    | none => rw [hg] at hq; cases hq
    | some g =>
      rw [hg] at hq
      cases hq
      exact own here.symm g hg
  · rename_i elsewhere
    exact other (fun e => elsewhere e.symm) q hq

/-- A byte that is written leaves such a scratchpad, or makes one at 0. -/
theorem bare_putScratchByte {o : Nat} (b : Byte) (bad clear : Bool) (h : gr.locate o = some (m, 0) ∨ s.bare m) :
    (s.putScratchByte gr 0 o b bad clear).bare m := by
  unfold State.putScratchByte
  split
  · rename_i out
    exact h.resolve_left (by simp [out])
  · rename_i j l at_
    rw [at_, Option.some_inj, Prod.mk.injEq] at h
    refine bare_updGroup _ (fun _ => rfl) (fun _ g hg => bare_sset b ?_) fun elsewhere => h.resolve_left fun zero => elsewhere zero.1
    refine h.imp (fun zero => ?_) fun bare => bare g.scratch (by rw [hg]; rfl)
    rw [zero.2]
    rfl

theorem bare_putScratch {o : Nat} {b : Byte} {bs : List Byte} (bad : Bool) (h : gr.locate o = some (m, 0) ∨ s.bare m) :
    (s.putScratch gr 0 o (b :: bs) bad).bare m := by
  unfold State.putScratch
  dsimp only
  rw [List.zipIdx_cons, List.foldl_cons]
  exact List.foldlRecOn _ _ (motive := fun t : State => t.bare m) (bare_putScratchByte b bad _ h) fun _ ht _ _ => bare_putScratchByte _ _ _ (.inr ht)

variable {x : Iss}

theorem bare_readSrc (h : Hdr) (a : Src) (ts : List Nat) (bare : s.bare m) : (s.readSrc x h a ts).1.bare m := by
  unfold State.readSrc
  split
  · split
    · refine List.foldlRecOn ts _ (motive := fun t : State × List (List Reg) => t.1.bare m) bare fun t ht u _ => ?_
      dsimp only
      split
      · exact ht
      · exact ht.of_eq (map_group_updWarp (fun _ _ => rfl) _ _ _ _)
    · split
      · exact bare
      · exact bare_putScratch false (.inr bare)
  · exact bare

/-- A source at a ring port whose ring begins at the byte 0 of group m. -/
theorem bare_readSrc_of_ring (h : Hdr) {a : Src} {n : Fin 16} (op : a.op = .q n) (ring : 8 ≤ n.val) {n2 : Nat}
    (bound : x.g.ringOf n.val = some (0, n2)) (at_ : x.g.locate 0 = some (m, 0)) (ts : List Nat) : (s.readSrc x h a ts).1.bare m := by
  rw [State.readSrc, op]
  dsimp only
  rw [if_neg (by omega), bound]
  exact bare_putScratch false (.inl at_)

theorem bare_readSrcs (h : Hdr) {sh : Shape} (pops : sh.popsRing) {n2 : Nat} (bound : ∀ n, 8 ≤ n → n < 16 → x.g.ringOf n = some (0, n2))
    (at_ : x.g.locate 0 = some (m, 0)) (ts : List Nat) : (s.readSrcs x h sh.srcs ts).1.bare m := by
  obtain ⟨a, ha, n, op, ring⟩ := pops
  obtain ⟨before, after, split_⟩ := List.append_of_mem ha
  unfold State.readSrcs
  dsimp only
  rw [split_, List.foldl_append, List.foldl_cons]
  exact List.foldlRecOn after _ (motive := fun t : State × List (List (List Reg)) => t.1.bare m)
    (bare_readSrc_of_ring h op ring (bound _ ring n.isLt) at_ ts) fun _ ht b _ => bare_readSrc h b ts ht

end Bare

/-! ### An instruction that acts -/

/-- Some thread takes it, or it acts for its path alone. -/
def Iss.actsOn (x : Iss) (h : Hdr) (sh : Shape) : Bool := !(decide (x.doing h sh = []) && sh.branch = 0 && !(sh.always && x.active != 0))

theorem performed_of_acts {s : State} {x : Iss} {h : Hdr} {sh : Shape} (hx : s.iss? = some x) (acts : x.actsOn h sh = true) (per : Nat)
    (f : Iss → Nat → List Nat → Nat) : ∃ n, s.performed x h sh per (writes sh f) =
      ((writes sh f x (s.sees x h sh) (s.afterRead x h sh)).1.occupy x.r n).finish x.r x.size [] := by
  have still : Still s (writes sh f x (s.sees x h sh) (s.afterRead x h sh)).1 :=
    ((calm_readSrcs s x h sh.srcs (sh.readers (x.doing h sh))).trans (calm_writes sh f x (s.sees x h sh) _)).still
  have flow : (writes sh f x (s.sees x h sh) (s.afterRead x h sh)).2 = .next [] := by
    unfold writes
    split <;> rfl
  refine ⟨x.cost (sh.isUniform || (sh.flat && sh.srcs.all Src.uniform)) per, ?_⟩
  unfold Iss.actsOn at acts
  unfold State.performed State.act
  dsimp only
  rw [if_neg (Bool.eq_false_iff.1 (Bool.not_eq_true' _ ▸ acts))]
  change (match (writes sh f x (s.sees x h sh) (s.afterRead x h sh)).2 with
      | .next moves => ((x.unpop sh _ s (writes sh f x (s.sees x h sh) (s.afterRead x h sh)).1).occupy x.r _).finish x.r x.size moves
      | .stay => x.unpop sh _ s (writes sh f x (s.sees x h sh) (s.afterRead x h sh)).1
      | .wait => (x.unpop sh _ s (writes sh f x (s.sees x h sh) (s.afterRead x h sh)).1).occupy x.r _) = _
  rw [flow, unpop_still hx still]

theorem performed_of_idle {s : State} {x : Iss} {h : Hdr} {sh : Shape} (acts : x.actsOn h sh = false) (per : Nat) (body : Body) :
    ∃ n, s.performed x h sh per body = (s.occupy x.r n).finish x.r x.size [] := by
  refine ⟨x.cost (sh.isUniform || (sh.flat && sh.srcs.all Src.uniform)) per, ?_⟩
  unfold Iss.actsOn at acts
  unfold State.performed State.act
  dsimp only
  rw [if_pos (Bool.not_eq_false' _ ▸ acts)]

theorem group_finish_occupy {β : Type} {P : Group → β} (warps : ∀ q ws, P { q with warps := ws } = P q) (s : State) (r : PathRef) (n size : Nat)
    (moves : List (Nat × W64)) (g : Nat) : (((s.occupy r n).finish r size moves).group? g).map P = (s.group? g).map P :=
  (map_group_updWarp warps _ _ _ _).trans (map_group_updWarp warps _ _ _ _)

/-- Such an instruction with a source at a ring port writes the ring's head. -/
theorem bare_performed {s : State} {x : Iss} {h : Hdr} {sh : Shape} {m n2 : Nat} (hx : s.iss? = some x) (acts : x.actsOn h sh = true)
    (ringless : sh.ringless) (pops : sh.popsRing) (bound : ∀ n, 8 ≤ n → n < 16 → x.g.ringOf n = some (0, n2)) (at_ : x.g.locate 0 = some (m, 0))
    (per : Nat) (f : Iss → Nat → List Nat → Nat) : (s.performed x h sh per (writes sh f)).bare m := by
  obtain ⟨n, done⟩ := performed_of_acts hx acts per f
  have read : (s.afterRead x h sh).bare m := bare_readSrcs h pops bound at_ _
  rw [done]
  refine State.bare.of_eq (State.bare.of_eq read ?_) (group_finish_occupy (fun _ _ => rfl) _ _ _ _ _ _)
  cases hd : sh.dst with
  | none => rw [writes, hd]
  | some d =>
    rw [writes_of_dst hd]
    exact List.foldlRecOn (s.sees x h sh).vals _ (motive := fun t : State => (t.group? m).map (·.scratch) = ((s.afterRead x h sh).group? m).map (·.scratch))
      rfl fun t ht _ _ => (map_group_writeDst (fun _ _ => rfl) (fun ring => absurd ring (ringless.dst hd)) t _ _ _ _ _ _).trans ht

end Sys2Proof.Machine
end

section
/-! PROOFS. Of a state in which nothing stops an issue there is one apart: the same path issues there without poison, with its rings in the
scratchpad of a bystander, and nothing else goes on. -/

namespace Sys2Proof.Machine

/-! ### The path apart -/

/-- The register without its tag. -/
def Reg.clean (r : Reg) : Reg := { r with bad := false }

/-- The thread without poison; its registers are zero. -/
def Thread.clean (th : Thread) : Thread := { th with v := [], pBad := 0, q := th.q.map fun e => (e.1, e.2.map Reg.clean) }

/-- A register that is armed elsewhere. -/
def Conv.elsewhere (pc : W64) : Conv := { Conv.idle with armed := true, spc := pc + 1 }

def Warp.clean (pc : W64) (w : Warp) : Warp := { w with w := [], cvw := Conv.elsewhere pc, threads := w.threads.map Thread.clean }

/-- A tile store that is never complete and writes all of a group's scratchpad. -/
def storeAll : MatOp :=
  { slot := 0, kind := .tst, pc := 0, tile := 0,
    bind := { unit := 0, rows := 4096, cols := 0, view := .fp32, k := 0, fa := .fp32, fb := .fp32, sa := false, sb := false, off := 0, dirty := false },
    bind2 := none, a := .scratch 0 1 0 0 false, b := .absent, desc := [], ctr := none, csp := false, fmt := .f32, sat := false, mode := .rne,
    key := 0, stream := 0, badGen := false, stamp := 0, left := 1, toggle := 0, chunk := 0, said := false, srcW := [], srcX := [] }

/-- The issuing group, with a bystander as its one mate and its rings there. -/
def Iss.groupApart (x : Iss) : Group :=
  { x.g with
    key := x.r.g
    mates := [x.r.g + 1]
    spg := 1
    scratchBad := []
    tiles := []
    cv := (List.range 16).map fun n => (n, Conv.elsewhere x.p.pc)
    ring := (List.range' 8 8).map fun n => (n, some (0, 0))
    kiln := none
    ops := []
    task := none
    stop := true
    warps := x.g.warps.modify x.r.w (Warp.clean x.p.pc) }

/-- Its ring counts as many entries as a ring can; an entry of its scratchpad stands for a zero byte. -/
def Iss.bystander (x : Iss) : Group :=
  { x.g with
    key := x.r.g + 1
    scratch := [(0, 0), (4, 255), (5, 255), (6, 255), (7, 255)]
    scratchBad := []
    ops := [storeAll]
    stop := true
    warps := [] }

def Iss.ctxApart (x : Iss) : Ctx := { x.c with num := x.g.ctx, trapVec := 0, requests := [], saved := none }

def Iss.apart (x : Iss) : Iss := { x with g := x.groupApart, w := x.w.clean x.p.pc, c := x.ctxApart }

def Iss.wasteApart (x : Iss) : State := waste (some (.path x.r x.size)) [x.groupApart, x.bystander] [x.ctxApart]

section Apart
variable {s : State} {x : Iss} {h : Hdr} {sh : Shape}

theorem group_apart (x : Iss) : x.wasteApart.group? x.r.g = some x.groupApart := by
  simp [Iss.wasteApart, waste, State.group?, Iss.groupApart]

theorem group_bystander (x : Iss) : x.wasteApart.group? (x.r.g + 1) = some x.bystander := by
  simp [Iss.wasteApart, waste, State.group?, Iss.groupApart, Iss.bystander]

theorem warp_apart (hx : s.iss? = some x) : x.groupApart.warps[x.r.w]? = some (x.w.clean x.p.pc) := by
  obtain ⟨-, -, hw, -⟩ := iss_spec hx
  simp [Iss.groupApart, hw]

theorem iss_apart (hx : s.iss? = some x) : x.wasteApart.iss? = some x.apart := by
  obtain ⟨-, -, -, hp, -⟩ := iss_spec hx
  have ctx : x.wasteApart.ctx? x.groupApart.ctx = some x.ctxApart := by
    simp [Iss.wasteApart, waste, State.ctx?, Iss.groupApart, Iss.ctxApart]
  have path : (x.w.clean x.p.pc).paths[x.r.p]? = some x.p := hp
  change ((x.wasteApart.group? x.r.g).bind fun g => (g.warps[x.r.w]?).bind fun w => (w.paths[x.r.p]?).bind fun p =>
      (x.wasteApart.ctx? g.ctx).map fun c => ({ r := x.r, size := x.size, g := g, w := w, p := p, c := c } : Iss)) = some x.apart
  rw [group_apart, Option.bind_some, warp_apart hx, Option.bind_some, path, Option.bind_some, ctx]
  rfl

theorem thread_apart (x : Iss) (t : Nat) : x.apart.thread t = (x.thread t).clean := by
  change ((x.w.threads.map Thread.clean)[t]?).getD (Thread.start false) = ((x.w.threads[t]?).getD (Thread.start false)).clean
  rw [List.getElem?_map]
  cases x.w.threads[t]? <;> rfl

/-! ### What it takes -/

theorem taking_apart (x : Iss) (h : Hdr) : x.apart.taking h = x.taking h := by
  have guards : x.apart.guard h = x.guard h := funext fun t => by
    rw [Iss.guard, thread_apart]
    rfl
  unfold Iss.taking
  rw [guards]
  rfl

theorem badGuard_apart (x : Iss) (h : Hdr) : x.apart.badGuard h = 0 := by
  have clean : ∀ t n, (x.apart.thread t).predBad n = false := fun t n => by
    rw [thread_apart]
    simp [Thread.clean, Thread.predBad]
  unfold Iss.badGuard
  split
  · rfl
  · simp [clean, maskOf]

theorem helpers_apart (x : Iss) : x.apart.helpers = x.helpers := by
  have lives : ∀ t, (x.apart.thread t).life = (x.thread t).life := fun t => by
    rw [thread_apart]
    rfl
  simp only [Iss.helpers, lives]
  rfl

theorem quiet_apart (x : Iss) (sh : Shape) : x.apart.quiet sh = x.quiet sh := by
  rw [Iss.quiet, Iss.quiet, helpers_apart]

theorem sound_apart (guards : x.badGuard h = 0) : x.apart.sound h = x.sound h := by
  rw [Iss.sound, Iss.sound, taking_apart, badGuard_apart, guards]

theorem doing_apart (guards : x.badGuard h = 0) : x.apart.doing h sh = x.doing h sh := by
  rw [Iss.doing, Iss.doing, sound_apart guards, quiet_apart]

theorem actsOn_apart (guards : x.badGuard h = 0) : x.apart.actsOn h sh = x.actsOn h sh := by
  rw [Iss.actsOn, Iss.actsOn, doing_apart guards]
  rfl

theorem needs_apart (guards : x.badGuard h = 0) : x.apart.needs h sh = x.needs h sh := by
  rw [Iss.needs, Iss.needs, doing_apart guards]
  rfl

/-! ### What does not stop it -/

theorem badBranch_apart (x : Iss) (sh : Shape) : x.apart.badBranch sh = x.badBranch sh := by
  have branches : ∀ t, (x.apart.thread t).br = (x.thread t).br := fun t => by
    rw [thread_apart]
    rfl
  simp only [Iss.badBranch, branches]
  rfl

theorem illegal_apart (guards : x.badGuard h = 0) (ringless : sh.ringless) : x.apart.illegal h sh = x.illegal h sh := by
  have kinds : ∀ n, ∀ u ∈ sh.fields, u.kinds x.apart sh n = u.kinds x sh n := by
    intro n u hu
    have kind4 : u.kind4 x.apart sh n = u.kind4 x sh n := by
      unfold FieldUse.kind4
      split
      · rename_i k op
        have small := ringless u hu k op
        simp [show ¬ 8 ≤ k.val by omega]
      · rfl
    rw [FieldUse.kinds, kind4]
    rfl
  have same : ∀ n, sh.illegal x.apart n = sh.illegal x n := by
    intro n
    have broken : sh.fields.filter (fun u => u.kinds x.apart sh n != []) = sh.fields.filter (fun u => u.kinds x sh n != []) :=
      List.filter_congr fun u hu => by rw [kinds n u hu]
    have all : (sh.fields.filter fun u => u.kinds x sh n != []).flatMap (fun u => u.kinds x.apart sh n) =
        (sh.fields.filter fun u => u.kinds x sh n != []).flatMap (fun u => u.kinds x sh n) :=
      List.flatMap_congr fun u hu => kinds n u (List.mem_filter.1 hu).1
    unfold Shape.illegal
    dsimp only
    rw [broken, all]
    rfl
  rw [Iss.illegal, Iss.illegal, sound_apart guards, quiet_apart, same]

end Apart
end Sys2Proof.Machine
end

section
/-! PROOFS. Nothing stops the issue apart: its queue ports can give and take, and what it reads is not poisoned. -/

namespace Sys2Proof.Machine

/-! ### Queue ports -/

section Ports
variable {s : State} {x : Iss} {h : Hdr} {sh : Shape}

theorem lines_apart (ringless : sh.ringless) (t : State) (x : Iss) : t.ringBusy x sh = false := by
  refine List.any_eq_false.2 fun u hu => ?_
  split
  · rename_i n op
    rw [if_pos (ringless u hu n op)]
    exact Bool.false_ne_true
  · exact Bool.false_ne_true

/-- What the ports of a ringless shape must give and take: a ring only gives. -/
theorem need_of_ringless (ringless : sh.ringless) {active ts : List Nat} {d : Need} (hd : d ∈ sh.needs active ts) :
    d.port = 16 ∨ d.port < 8 ∨ 8 ≤ d.port ∧ d.port < 16 ∧ d.push = false := by
  have branch : ∀ e ∈ (if sh.branch = 0 then [] else [({ port := 16, push := sh.branch = 1, n := 1, less := 0, ts := active } : Need)]), e.port = 16 := by
    intro e he
    split at he
    · cases he
    · rw [List.mem_singleton.1 he]
  unfold Shape.needs at hd
  dsimp only at hd
  split at hd
  · exact .inl (branch d hd)
  · rcases List.mem_append.1 hd with early | push
    · rcases List.mem_append.1 early with br | pop
      · exact .inl (branch d br)
      · obtain ⟨a, -, ha⟩ := List.mem_filterMap.1 pop
        split at ha
        · rename_i n op
          cases ha
          have := n.isLt
          by_cases ring : n.val < 8
          · exact .inr (.inl ring)
          · exact .inr (.inr ⟨Nat.le_of_not_lt ring, n.isLt, rfl⟩)
        · cases ha
    · split at push
      · rename_i dst
        rw [List.mem_singleton.1 push]
        refine .inr (.inl (Nat.lt_of_not_le fun ring => ringless.dst dst ⟨_, rfl, ring⟩))
      · cases push

theorem ringOf_apart (x : Iss) {n : Nat} (low : 8 ≤ n) (high : n < 16) : x.groupApart.ringOf n = some (0, 0) := by
  have all : ∀ k : Fin 8, x.groupApart.ringOf (8 + k.val) = some (0, 0) := by
    intro k
    have ring : x.groupApart.ring = (List.range' 8 8).map fun n => (n, some (0, 0)) := rfl
    rw [Group.ringOf, ring]
    revert k
    decide
  have := all ⟨n - 8, by omega⟩
  rwa [show 8 + (n - 8) = n by omega] at this

theorem scratchByte_apart (x : Iss) (o : Nat) (small : o < 8) :
    x.wasteApart.scratchByte x.groupApart 0 o = some (sget 0 [(0, 0), (4, 255), (5, 255), (6, 255), (7, 255)] o, false) := by
  have place : x.groupApart.locate o = some (x.r.g + 1, o) := by
    simp [Group.locate, Iss.groupApart, Nat.div_eq_of_lt (show o < 65536 by omega), Nat.mod_eq_of_lt (show o < 65536 by omega)]
  have flat : rotate 0 o = o := by
    simp only [rotate, if_true]
    omega
  rw [State.scratchByte, place, Option.bind_some]
  dsimp only
  rw [group_bystander, Option.map_some, flat]
  rfl

theorem ringCount_apart (x : Iss) : x.wasteApart.ringCount x.groupApart 0 = 2 ^ 32 - 1 := by
  have read : ∀ base, base + 4 ≤ 8 → x.wasteApart.scratchBytes x.groupApart 0 base 4 =
      (List.range 4).map fun i => (sget 0 [(0, 0), (4, 255), (5, 255), (6, 255), (7, 255)] (base + i), false) := fun base h =>
    List.map_congr_left fun i hi => by
      rw [scratchByte_apart x _ (by have := List.mem_range.1 hi; omega)]
      rfl
  rw [State.ringCount, State.ringTail, State.ringHead, read 0 (by decide), read (0 + 4) (by decide)]
  decide

theorem length_queue_clean (th : Thread) (port : Nat) : (sget [] th.clean.q port).length = (sget [] th.q port).length := by
  have all : ∀ l : List (Nat × List Reg), (sget [] (l.map fun e => (e.1, e.2.map Reg.clean)) port).length = (sget [] l port).length := by
    intro l
    induction l with
    | nil => rfl
    | cons e l ih =>
      simp only [List.map_cons, sget]
      split
      · exact List.length_map _
      · exact ih
  exact all th.q

/-- Queues of the same lengths, and rings that give more. -/
theorem meets_of_clean {s t : State} {g k : Group} {w : Nat} {d : Need}
    (threads : ∀ u : Nat, (k.warps[w]?).bind (fun y : Warp => y.threads[u]?) = ((g.warps[w]?).bind fun y : Warp => y.threads[u]?).map Thread.clean)
    (rings : d.port ≠ 16 → ¬ d.port < 8 → d.push = false ∧ ∃ base n, k.ringOf d.port = some (base, n) ∧ 2 ^ 32 - 1 ≤ t.ringCount k base)
    (met : s.meets g w d = true) : t.meets k w d = true := by
  have each : ∀ f : Thread → Nat, (∀ th, f th.clean = f th) →
      (d.ts.all fun u => match (k.warps[w]?).bind (fun y : Warp => y.threads[u]?) with
        | some th => if d.push then decide (f th - d.less + d.n ≤ queueDepth) else decide (d.n ≤ f th)
        | none => true) =
      d.ts.all fun u => match (g.warps[w]?).bind (fun y : Warp => y.threads[u]?) with
        | some th => if d.push then decide (f th - d.less + d.n ≤ queueDepth) else decide (d.n ≤ f th)
        | none => true := by
    intro f same
    congr 1
    funext u
    rw [threads]
    cases (g.warps[w]?).bind fun y : Warp => y.threads[u]? with
    | none => rfl
    | some th => simp only [Option.map_some, same]
  unfold State.meets at met ⊢
  dsimp only at met ⊢
  split at met
  · rename_i branch
    rw [if_pos branch]
    exact (each (fun th => th.br.length) fun _ => rfl).trans met
  · rename_i notBranch
    rw [if_neg notBranch]
    split at met
    · rename_i data
      rw [if_pos data]
      exact (each (fun th => (sget [] th.q d.port).length) fun th => length_queue_clean th _).trans met
    · rename_i ring
      obtain ⟨pop, base, n, bound, many⟩ := rings notBranch ring
      rw [if_neg ring, bound]
      dsimp only
      rw [pop] at met ⊢
      split at met
      · cases met
      · rename_i before _ _
        have few : s.ringCount g before < 2 ^ 32 := Nat.mod_lt _ (by decide)
        exact decide_eq_true ((of_decide_eq_true met).trans ((Nat.le_sub_one_of_lt few).trans many))

theorem ports_apart (c : Clear s x h sh) (ringless : sh.ringless) :
    x.wasteApart.portWait x.groupApart x.r.w (x.apart.needs h sh) = none := by
  have warp := warp_apart c.issues
  obtain ⟨-, -, hw, -⟩ := iss_spec c.issues
  have open_ := c.ports
  rw [State.portWait, Option.map_eq_none_iff, List.find?_eq_none] at open_
  rw [needs_apart c.guards, State.portWait, Option.map_eq_none_iff, List.find?_eq_none]
  intro d hd
  have met := open_ d hd
  rw [Bool.not_eq_true', Bool.not_eq_false] at met ⊢
  refine meets_of_clean (fun u => ?_) (fun other ring => ?_) met
  · rw [warp, hw]
    exact List.getElem?_map
  · obtain is | low | ⟨low, high, pop⟩ := need_of_ringless ringless hd
    · exact absurd is other
    · exact absurd low ring
    · exact ⟨pop, 0, 0, ringOf_apart x low high, (ringCount_apart x).ge⟩

end Ports
end Sys2Proof.Machine
end

section
/-! PROOFS. What the path apart reads is not poisoned. -/

namespace Sys2Proof.Machine

/-! ### Words without poison -/

theorem regsBad_regsOf : ∀ n v, regsBad (regsOf n v false) = false
  | 0, _ => rfl
  | n + 1, v => regsBad_regsOf n (v / 2 ^ 32)

theorem regsBad_of_sublist {rs l : List Reg} (part : rs.Sublist l) (clean : regsBad l = false) : regsBad rs = false :=
  List.any_eq_false.2 fun r hr => List.any_eq_false.1 clean r (part.subset hr)

theorem regsBad_queue_clean (th : Thread) (port : Nat) : regsBad (sget [] th.clean.q port) = false := by
  have all : ∀ l : List (Nat × List Reg), regsBad (sget [] (l.map fun e => (e.1, e.2.map Reg.clean)) port) = false := by
    intro l
    induction l with
    | nil => rfl
    | cons e l ih =>
      simp only [List.map_cons, sget]
      split
      · simp [regsBad, Reg.clean]
      · exact ih
  exact all th.q

theorem regsBad_words_apart (x : Iss) (h : Hdr) (a : Src) (t : Nat) : regsBad (x.apart.words h a t) = false := by
  unfold Iss.words
  rw [thread_apart]
  split
  · exact List.any_eq_false.2 fun r hr => by
      obtain ⟨i, -, rfl⟩ := List.mem_map.1 hr
      exact Bool.false_ne_true
  · exact List.any_eq_false.2 fun r hr => by
      obtain ⟨i, -, rfl⟩ := List.mem_map.1 hr
      exact Bool.false_ne_true
  · exact regsBad_regsOf _ _
  · exact regsBad_regsOf _ _
  · exact regsBad_regsOf _ _
  · rw [show ∀ n, (x.thread t).clean.predBad n = false from fun n => by simp [Thread.clean, Thread.predBad]]
    exact regsBad_regsOf _ _
  · exact regsBad_regsOf _ _
  · exact regsBad_regsOf _ _

/-! ### States without poison -/

/-- No queue of the threads of warp w of group g is poisoned, and no scratchpad. -/
structure State.clean (s : State) (g w : Nat) : Prop where
  queues : ∀ t th, s.thread? g w t = some th → ∀ port, regsBad (sget [] th.q port) = false
  pads : ∀ q ∈ s.groups, q.scratchBad = []

section Clean
variable {s : State} {g w : Nat}

theorem clean_pop (clean : s.clean g w) (t port n : Nat) : (s.updThread g w t fun th => (th.pop port n).1).clean g w where
  queues u th hu k := by
    rw [thread_updThread] at hu
    split at hu
    · obtain ⟨old, hold, rfl⟩ := Option.map_eq_some_iff.1 hu
      have before := clean.queues u old hold
      simp only [Thread.pop, sget_sset]
      split
      · exact regsBad_of_sublist (List.drop_sublist _ _) (before port)
      · exact before k
    · exact clean.queues u th hu k
  pads q hq := by
    obtain ⟨old, hold, rfl⟩ := List.mem_map.1 hq
    split
    · exact clean.pads old hold
    · exact clean.pads old hold

theorem pads_putScratchByte (pads : ∀ q ∈ s.groups, q.scratchBad = []) (gr : Group) (k o : Nat) (b : Byte) (clear : Bool) :
    ∀ q ∈ (s.putScratchByte gr k o b false clear).groups, q.scratchBad = [] := by
  intro q hq
  unfold State.putScratchByte at hq
  split at hq
  · exact pads q hq
  · obtain ⟨old, hold, rfl⟩ := List.mem_map.1 hq
    split
    · simp [pads old hold, setDel]
    · exact pads old hold

theorem clean_putScratch (clean : s.clean g w) (gr : Group) (k o : Nat) (bs : List Byte) : (s.putScratch gr k o bs false).clean g w where
  queues t th ht := clean.queues t th (by rwa [thread_putScratch] at ht)
  pads := List.foldlRecOn _ _ (motive := fun t : State => ∀ q ∈ t.groups, q.scratchBad = []) clean.pads fun _ ht _ _ => pads_putScratchByte ht _ _ _ _ _

theorem scratchBytes_clean (clean : s.clean g w) (gr : Group) (k o n : Nat) : (s.scratchBytes gr k o n).any (·.2) = false := by
  refine List.any_eq_false.2 fun b hb => ?_
  obtain ⟨i, -, rfl⟩ := List.mem_map.1 hb
  unfold State.scratchByte
  cases gr.locate (o + i) with
  | none => exact Bool.false_ne_true
  | some at_ =>
    dsimp only [Option.bind_some]
    cases hq : s.group? at_.1 with
    | none => exact Bool.false_ne_true
    | some q =>
      dsimp only [Option.map_some, Option.getD_some]
      rw [clean.pads q (List.mem_of_find?_eq_some hq)]
      exact Bool.false_ne_true

/-- What a path reads of such a state: it stays without poison, and no word is poisoned. -/
theorem clean_readSrc {x : Iss} (clean : s.clean x.r.g x.r.w) (h : Hdr) (words : ∀ a t, regsBad (x.words h a t) = false) (a : Src) (ts : List Nat) :
    (s.readSrc x h a ts).1.clean x.r.g x.r.w ∧ ∀ rs ∈ (s.readSrc x h a ts).2, regsBad rs = false := by
  unfold State.readSrc
  split
  · rename_i n _
    split
    · refine List.foldlRecOn ts _ (motive := fun t : State × List (List Reg) => t.1.clean x.r.g x.r.w ∧ ∀ rs ∈ t.2, regsBad rs = false)
        ⟨clean, fun _ h => by cases h⟩ fun t ht u _ => ?_
      obtain ⟨sound, read⟩ := ht
      dsimp only
      split
      · exact ⟨sound, fun rs hrs => (List.mem_append.1 hrs).elim (read rs) fun new => List.mem_singleton.1 new ▸ regsBad_regsOf _ _⟩
      · rename_i th hth
        exact ⟨clean_pop sound _ _ _, fun rs hrs => (List.mem_append.1 hrs).elim (read rs) fun new =>
          List.mem_singleton.1 new ▸ regsBad_of_sublist (List.take_sublist _ _) (sound.queues u th hth n.val)⟩
    · split
      · refine ⟨clean, fun rs hrs => ?_⟩
        obtain ⟨_, -, rfl⟩ := List.mem_map.1 hrs
        exact regsBad_regsOf _ _
      · rename_i base k _
        refine ⟨clean_putScratch clean _ _ _ _, fun rs hrs => ?_⟩
        obtain ⟨i, -, rfl⟩ := List.mem_map.1 hrs
        refine regsBad_of_sublist ((List.take_sublist _ _).trans (List.drop_sublist _ _)) (List.any_eq_false.2 fun r hr => ?_)
        obtain ⟨j, -, rfl⟩ := List.mem_map.1 hr
        exact Bool.eq_false_iff.1 (scratchBytes_clean clean _ _ _ _)
  · refine ⟨clean, fun rs hrs => ?_⟩
    obtain ⟨t, -, rfl⟩ := List.mem_map.1 hrs
    exact words a t

theorem clean_readSrcs {x : Iss} (clean : s.clean x.r.g x.r.w) (h : Hdr) (words : ∀ a t, regsBad (x.words h a t) = false) (srcs : List Src)
    (ts : List Nat) : ∀ m ∈ (s.readSrcs x h srcs ts).2, ∀ rs ∈ m.2, regsBad rs = false := by
  have columns := List.foldlRecOn srcs (fun (acc : State × List (List (List Reg))) a => ((acc.1.readSrc x h a ts).1, acc.2 ++ [(acc.1.readSrc x h a ts).2]))
    (motive := fun acc : State × List (List (List Reg)) => acc.1.clean x.r.g x.r.w ∧ ∀ c ∈ acc.2, ∀ rs ∈ c, regsBad rs = false)
    (b := (s, [])) ⟨clean, fun _ h => by cases h⟩ fun acc ht a _ => by
      obtain ⟨sound, read⟩ := ht
      obtain ⟨next, new⟩ := clean_readSrc sound h words a ts
      exact ⟨next, fun c hc => (List.mem_append.1 hc).elim (read c) fun last => List.mem_singleton.1 last ▸ new⟩
  intro m hm rs hrs
  obtain ⟨e, -, rfl⟩ := List.mem_map.1 hm
  obtain ⟨column, hc, rfl⟩ := List.mem_map.1 hrs
  rw [List.getD_eq_getElem?_getD]
  cases entry : column[e.2]? with
  | none => rfl
  | some rs => exact columns.2 column hc rs (List.mem_of_getElem? entry)

end Clean

/-! ### Nothing stops the issue apart -/

theorem strictFault_of_clean (sh : Shape) {v : List (List Reg)} (clean : ∀ rs ∈ v, regsBad rs = false) : strictFault sh v = none := by
  have none_ : ((sh.srcs.zip v).filter fun e => e.1.strict && regsBad e.2) = [] := List.filter_eq_nil_iff.2 fun e he => by
    rw [clean e.2 (List.of_mem_zip he).2, Bool.and_false]
    exact Bool.false_ne_true
  unfold strictFault
  dsimp only
  rw [none_]
  rfl

theorem strictHurt_of_clean (sh : Shape) (doing : List Nat) (uni : Bool) {vals : List (Nat × List (List Reg))}
    (clean : ∀ m ∈ vals, ∀ rs ∈ m.2, regsBad rs = false) : strictHurt sh doing uni vals = [] := by
  have none_ : (vals.filterMap fun (t, v) => (strictFault sh v).map fun d => (t, d)) = [] := List.filterMap_eq_nil_iff.2 fun m hm => by
    dsimp only
    rw [strictFault_of_clean sh (clean m hm)]
    rfl
  unfold strictHurt
  dsimp only
  rw [none_]
  rfl

variable {s : State} {x : Iss} {h : Hdr} {sh : Shape}

theorem clean_apart (hx : s.iss? = some x) : x.wasteApart.clean x.r.g x.r.w where
  queues t th ht port := by
    rw [State.thread?, State.warp?, group_apart, Option.bind_some, warp_apart hx, Option.bind_some] at ht
    change (x.w.threads.map Thread.clean)[t]? = some th at ht
    rw [List.getElem?_map] at ht
    obtain ⟨old, -, rfl⟩ := Option.map_eq_some_iff.1 ht
    exact regsBad_queue_clean old port
  pads q hq := by
    obtain rfl | last := List.mem_cons.1 hq
    · rfl
    · rw [List.mem_singleton.1 last]
      rfl

/-- Nothing stops the issue apart where nothing stops it here. -/
theorem clear_apart (c : Clear s x h sh) (ringless : sh.ringless) : Clear x.wasteApart x.apart h sh where
  issues := iss_apart c.issues
  registers := rfl
  lines := lines_apart ringless _ _
  rings := Bool.and_false _
  branches := (badBranch_apart x sh).trans c.branches
  guards := badGuard_apart x h
  uses := (illegal_apart c.guards ringless).trans c.uses
  generator := c.generator
  ports := ports_apart c ringless
  operands := strictHurt_of_clean _ _ _ (clean_readSrcs (x := x.apart) (s := x.wasteApart) (clean_apart c.issues) h (regsBad_words_apart x h) _ _)

end Sys2Proof.Machine
end

section
/-! PROOFS. The path apart is apart, and so the scratchpad of its bystander shows that no instruction has a source at a ring port that no
field names (R26, R33, R194). -/

namespace Sys2Proof.Machine

section Apart
variable {s : State} {x : Iss} {h : Hdr} {sh : Shape}

/-- The bystander's store writes up to the byte 66048. -/
theorem scratchBusy_apart (x : Iss) (o n : Nat) : x.wasteApart.scratchBusy x.groupApart o n = (decide (0 < o + n) && decide (o < 66048)) := by
  have mates : x.groupApart.mates = [x.r.g + 1] := rfl
  have ops : x.bystander.ops = [storeAll] := rfl
  have copies : x.wasteApart.copies = [] := rfl
  simp only [State.scratchBusy, copies, mates, List.any_cons, List.any_nil, Bool.false_and, Bool.false_or, Bool.or_false, group_bystander, ops]
  rfl

theorem locate_apart (x : Iss) {o : Nat} (out : 65536 ≤ o) : x.groupApart.locate o = none := by
  have beyond : 1 ≤ o / 65536 := (Nat.le_div_iff_mul_le (by decide)).2 (by omega)
  simp only [Group.locate, Iss.groupApart, Nat.one_mul]
  rw [if_neg (by decide), List.getElem?_eq_none beyond, Option.map_none]

theorem putScratch_apart (x : Iss) (t : State) {o : Nat} (out : 65536 ≤ o) (bs : List Byte) (bad : Bool) : t.putScratch x.groupApart 0 o bs bad = t := by
  refine List.foldlRecOn _ _ (motive := fun u : State => u = t) rfl fun u hu q _ => ?_
  simp only [State.putScratchByte, locate_apart x (show 65536 ≤ o + q.2 by omega)]
  exact hu

theorem conv_apart (hx : s.iss? = some x) (cv : CvField) : x.groupApart.conv cv x.r.w = Conv.elsewhere x.p.pc := by
  unfold Group.conv
  split
  · rw [warp_apart hx]
    rfl
  · rename_i group
    have all : ∀ e : Conv, ∀ k : Fin 16, sget Conv.idle ((List.range 16).map fun n => (n, e)) k.val = e := by
      intro e k
      fin_cases k <;> rfl
    exact all _ ⟨cv.val, by have := cv.isLt; omega⟩

theorem apart_apart (hx : s.iss? = some x) : Apart x.wasteApart x.apart (x.r.g + 1) where
  issues := iss_apart hx
  other := (Nat.lt_succ_self _).ne
  moving q hq := by
    rw [group_bystander, Option.some_inj] at hq
    rw [← hq]
    exact List.cons_ne_nil _ _
  rings shape uses := by
    obtain ⟨u, hu, ring⟩ := List.any_eq_true.1 uses
    refine List.any_eq_true.2 ⟨u, hu, ?_⟩
    split at ring
    · rename_i n op
      have high := of_decide_eq_true ring
      rw [if_neg (by omega), show x.apart.g.ringOf n.val = some (0, 0) from ringOf_apart x high n.isLt]
      exact scratchBusy_apart x 0 20
    · cases ring
  lines o n free pos t j bs bad := by
    have := (scratchBusy_apart x o n).symm.trans free
    simp only [Bool.and_eq_false_iff, decide_eq_false_iff_not] at this
    rw [show t.putScratch x.apart.g 0 (o + j) bs bad = t from putScratch_apart x t (by omega) bs bad]
  held := rfl
  memory := rfl
  copies := rfl
  seqs := rfl
  tasks := rfl
  saved c hc := by
    rw [List.mem_singleton.1 hc]
    rfl
  contained := rfl
  handler := rfl
  tiles := rfl
  kiln := rfl
  record := rfl
  armed cv := by
    rw [show x.apart.g.conv cv x.apart.r.w = Conv.elsewhere x.p.pc from conv_apart hx cv]
    refine ⟨rfl, fun same => ?_⟩
    have : x.p.pc + 1 = x.p.pc := same
    bv_omega

/-- An instruction that computes a destination and takes something names its ring ports in its fields. -/
theorem not_popsRing_of_acts {i : Instr} {per : Nat} {f : Iss → Nat → List Nat → Nat} (hw : Writes i h sh per f) (c : Clear s x h sh)
    (ringless : sh.ringless) (acts : x.actsOn h sh = true) : ¬sh.popsRing := by
  intro pops
  have done := hw _ _ (clear_apart c ringless)
  have stopped : ∀ g ∈ [x.groupApart, x.bystander], g.stop = true := by
    intro g hg
    obtain rfl | last := List.mem_cons.1 hg
    · rfl
    · rw [List.mem_singleton.1 last]
      rfl
  have requests : ∀ k ∈ [x.ctxApart], k.requests = [] := fun k hk => by
    rw [List.mem_singleton.1 hk]
    rfl
  have kept : padOf _ _ = padOf x.wasteApart.groups (x.r.g + 1) := pads_exec (apart_apart c.issues) stopped requests i _ done
  have same := congrArg (Option.map Prod.fst) kept
  simp only [padOf, Option.map_map] at same
  have at_ : x.apart.g.locate 0 = some (x.r.g + 1, 0) := by simp [Group.locate, Iss.apart, Iss.groupApart]
  have bare := bare_performed (iss_apart c.issues) ((actsOn_apart c.guards).trans acts) ringless pops (fun n => ringOf_apart x) at_ per f
  exact bare _ (same.trans (congrArg (Option.map Group.scratch) (group_bystander x))) List.mem_cons_self

/-- Without a ring port in its fields an instruction that computes a destination leaves scratchpad as it was. -/
theorem scratch_performed_of_writes {i : Instr} {per : Nat} {f : Iss → Nat → List Nat → Nat} (hw : Writes i h sh per f) (c : Clear s x h sh)
    (ringless : sh.ringless) (g : Nat) :
    ((s.performed x h sh per (writes sh f)).group? g).map (·.scratch) = (s.group? g).map (·.scratch) := by
  cases acts : x.actsOn h sh with
  | true => exact scratch_performed c.issues per f ringless (not_popsRing_of_acts hw c ringless acts) g
  | false =>
    obtain ⟨n, idle⟩ := performed_of_idle (s := s) acts per (writes sh f)
    rw [idle]
    exact group_finish_occupy (fun _ _ => rfl) _ _ _ _ _ _

end Apart

/-- Settles O48: reading operands and writing a destination touch queues, the destination and, by ring ports, scratchpad alone. That no
ring port stands outside the fields is seen at a path apart, whose instruction would write its ring's head in a bystander's scratchpad. -/
theorem computeFrame : Obligations.ComputeFrame := by
  unfold Obligations.ComputeFrame
  intro i h sh per f hw s x t c run
  obtain rfl : s.performed x h sh per (writes sh f) = t := by simpa [hw s x c] using run
  have calm : Calm s (s.performed x h sh per (writes sh f)) := calm_performed c.issues h sh per _ fun k u => calm_writes sh f x k u
  have mem : (s.performed x h sh per (writes sh f)).mem = s.mem := mem_of_calm calm
  refine ⟨fun g w u n other => vreg_performed c.issues per f other, fun g w n other => wreg_performed c.issues per f other,
    fun g w u n small other => preg_performed c.issues per f small other, fun g w u => level_performed c.issues per f,
    fun g => performed_group c.issues per f (fun _ _ => rfl) (fun _ _ _ _ => rfl) fun _ _ _ _ _ _ => rfl,
    fun a => by rw [mem]; exact ⟨rfl, rfl⟩, ?_, ?_, ?_, ?_, ?_, ?_, ?_, fun ringless g => scratch_performed_of_writes hw c ringless g⟩
  all_goals rw [calm.eq]

end Sys2Proof.Machine
end
